-- ==== Sys2Proof/Word.lean ====
section
/-! DEFINITION. The word types of the spec's R2, R8, R58 and the plainest operations on them. -/

namespace Sys2Proof

/-- A 64-bit scalar register's content (R2). -/
abbrev Word := BitVec 64

/-- A byte of memory (R8). -/
abbrev Byte := BitVec 8

/-- A register field of an instruction word (R141). -/
abbrev Reg := BitVec 5

/-- Bits lo to lo + len - 1 of a natural number (R8). -/
def bitsOf (n lo len : Nat) : Nat := n / 2 ^ lo % 2 ^ len

/-- Bit i of a natural number. -/
def bitOf (n i : Nat) : Bool := n.testBit i

end Sys2Proof
end

