-- ==== Sys2Proof/Syntax.lean ====
section
/-! DEFINITION. The instruction set: one constructor per row of spec/opcode_table.json. The first 244 are the 32-bit
words of spec/07, with the fields of the word as operands; the last 71 are the steps of engines, of the Launch
Controller, of Epvimond and of the outside (spec/95), with what identifies the step as operands. -/

namespace Sys2Proof

/-- A part of a core whose contents have a check of their own, or a path that a request takes (R384): the event that
names one says that its next use fails; `pallet` is an internal error contained to the pallet. -/
inductive HwUnit where
  | pallet
  /-- B buffer bbX: SLBCHK -/
  | buffer (x : Fin 2)
  /-- a microcode entry of course c's mason: MCFAIL -/
  | microcode (c : Fin 8)
  /-- the storage of a list: TKCHK -/
  | list (n : Fin 4)
  /-- the term buffer of course c: TERMCHK -/
  | terms (c : Fin 8)
  /-- a transfer over Siroc: SIROCERR -/
  | siroc
  /-- a request to port window n, which completes with Unsupported Request or Completer Abort: PORTERR -/
  | port (n : Fin 4)
  /-- a sector on its way out through port n, whose check then fails at the port (R323) -/
  | outgoing (n : Fin 4)
deriving DecidableEq, Repr

/-- A firmware image or the signed configuration as boot reads it (R439): the fields of its header, its body and its
signature over the header. The widths of KIND and LEN are not given; `kind` is 0 Epvimond's firmware, 1 the signed
configuration, 2 the microcode table, 3 the pager firmware, 4 the system firmware (log 79). -/
structure FwImage where
  magic : BitVec 32
  kind : Nat
  svn : BitVec 32
  len : Nat
  digest : List (BitVec 8)
  body : List (BitVec 8)
  signature : List (BitVec 8)
deriving DecidableEq, Repr

/-- Where hardware fails: a unit of a core. -/
structure HwPlace where
  core : Nat
  unit : HwUnit
deriving DecidableEq, Repr

/-- What the signed configuration says (R438). -/
structure SignedConfig where
  /-- port roles (R15): bit n is 1 for a host role of port n -/
  roles : BitVec 2
  /-- log2 of the BAR2 size over 1 GiB, 0 to 9 (R14) -/
  bar2 : Fin 10
  /-- the code-signing public key (R158) -/
  signKey : List (BitVec 8)
  /-- the system vector (R387) -/
  vector : BitVec 64
  /-- whether the fused minima rise to the accepted versions (R439) -/
  raiseMin : Bool
deriving DecidableEq, Repr

/-- An instruction word or an event. A comment after a constructor names the rule that gives its meaning. -/
inductive Instr where
  | add (d a b : BitVec 5)  -- R329
  | sub (d a b : BitVec 5)  -- R329
  | and (d a b : BitVec 5)  -- R329
  | or (d a b : BitVec 5)  -- R329
  | xor (d a b : BitVec 5)  -- R329
  | andn (d a b : BitVec 5)  -- R329
  | slt (d a b : BitVec 5)  -- R329
  | sltu (d a b : BitVec 5)  -- R329
  | seq (d a b : BitVec 5)  -- R329
  | sne (d a b : BitVec 5)  -- R329
  | min (d a b : BitVec 5)  -- R329
  | max (d a b : BitVec 5)  -- R329
  | minu (d a b : BitVec 5)  -- R329
  | maxu (d a b : BitVec 5)  -- R329
  | sll (d a b : BitVec 5)  -- R330
  | srl (d a b : BitVec 5)  -- R330
  | sra (d a b : BitVec 5)  -- R330
  | rol (d a b : BitVec 5)  -- R330
  | ror (d a b : BitVec 5)  -- R330
  | mul (d a b : BitVec 5)  -- R331
  | mulh (d a b : BitVec 5)  -- R331
  | mulhu (d a b : BitVec 5)  -- R331
  | div (d a b : BitVec 5)  -- R331
  | divu (d a b : BitVec 5)  -- R331
  | rem (d a b : BitVec 5)  -- R331
  | remu (d a b : BitVec 5)  -- R331
  | addi (d a : BitVec 5) (imm : BitVec 16)  -- R332
  | andi (d a : BitVec 5) (imm : BitVec 16)  -- R332
  | ori (d a : BitVec 5) (imm : BitVec 16)  -- R332
  | xori (d a : BitVec 5) (imm : BitVec 16)  -- R332
  | seqi (d a : BitVec 5) (imm : BitVec 13)  -- R333
  | snei (d a : BitVec 5) (imm : BitVec 13)  -- R333
  | slti (d a : BitVec 5) (imm : BitVec 13)  -- R333
  | sgei (d a : BitVec 5) (imm : BitVec 13)  -- R333
  | sltui (d a : BitVec 5) (imm : BitVec 13)  -- R333
  | sgeui (d a : BitVec 5) (imm : BitVec 13)  -- R333
  | slli (d a : BitVec 5) (sf : BitVec 6)  -- R334
  | srli (d a : BitVec 5) (sf : BitVec 6)  -- R334
  | srai (d a : BitVec 5) (sf : BitVec 6)  -- R334
  | rori (d a : BitVec 5) (sf : BitVec 6)  -- R334
  | bext (d a : BitVec 5) (p l : BitVec 6)  -- R334
  | bextu (d a : BitVec 5) (p l : BitVec 6)  -- R334
  | bins (d a : BitVec 5) (p l : BitVec 6)  -- R334
  | lui (d : BitVec 5) (imm : BitVec 21)  -- R335
  | auipc (d : BitVec 5) (imm : BitVec 21)  -- R335
  | beq (a b : BitVec 5) (f : BitVec 13)  -- R336
  | bne (a b : BitVec 5) (f : BitVec 13)  -- R336
  | blt (a b : BitVec 5) (f : BitVec 13)  -- R336
  | bge (a b : BitVec 5) (f : BitVec 13)  -- R336
  | bltu (a b : BitVec 5) (f : BitVec 13)  -- R336
  | bgeu (a b : BitVec 5) (f : BitVec 13)  -- R336
  | bmany (k : BitVec 3) (f : BitVec 13)  -- R337
  | bmnone (k : BitVec 3) (f : BitVec 13)  -- R337
  | bmall (k : BitVec 3) (f : BitVec 13)  -- R337
  | bmnall (k : BitVec 3) (f : BitVec 13)  -- R337
  | jal (d : BitVec 5) (f : BitVec 21)  -- R338
  | jalr (d a : BitVec 5) (imm : BitVec 16)  -- R339
  | smb (c a : BitVec 5) (n : BitVec 3) (f : BitVec 13)  -- R341
  | smbsImm (sf : BitVec 2) (imm : BitVec 15)  -- R340
  | smbsReg (sf : BitVec 2) (a : BitVec 5)  -- R340
  | ldN8 (d b : BitVec 5) (c : BitVec 4) (f : BitVec 8)  -- R168
  | ldN16 (d b : BitVec 5) (c : BitVec 4) (f : BitVec 8)  -- R168
  | ldN32 (d b : BitVec 5) (c : BitVec 4) (f : BitVec 8)  -- R168
  | ldN64 (d b : BitVec 5) (c : BitVec 4) (f : BitVec 8)  -- R168
  | ldI8 (d b : BitVec 5) (c : BitVec 4) (f : BitVec 8)  -- R168
  | ldI16 (d b : BitVec 5) (c : BitVec 4) (f : BitVec 8)  -- R168
  | ldI32 (d b : BitVec 5) (c : BitVec 4) (f : BitVec 8)  -- R168
  | ldI64 (d b : BitVec 5) (c : BitVec 4) (f : BitVec 8)  -- R168
  | stN8 (d b : BitVec 5) (c : BitVec 4) (f : BitVec 8)  -- R168
  | stN16 (d b : BitVec 5) (c : BitVec 4) (f : BitVec 8)  -- R168
  | stN32 (d b : BitVec 5) (c : BitVec 4) (f : BitVec 8)  -- R168
  | stN64 (d b : BitVec 5) (c : BitVec 4) (f : BitVec 8)  -- R168
  | ldpN8 (d b : BitVec 5) (w : BitVec 2) (f : BitVec 8)  -- R169
  | ldpN16 (d b : BitVec 5) (w : BitVec 2) (f : BitVec 8)  -- R169
  | ldpN32 (d b : BitVec 5) (w : BitVec 2) (f : BitVec 8)  -- R169
  | ldpN64 (d b : BitVec 5) (w : BitVec 2) (f : BitVec 8)  -- R169
  | ldpI8 (d b : BitVec 5) (w : BitVec 2) (f : BitVec 8)  -- R169
  | ldpI16 (d b : BitVec 5) (w : BitVec 2) (f : BitVec 8)  -- R169
  | ldpI32 (d b : BitVec 5) (w : BitVec 2) (f : BitVec 8)  -- R169
  | ldpI64 (d b : BitVec 5) (w : BitVec 2) (f : BitVec 8)  -- R169
  | amoadd (d a b : BitVec 5) (z : BitVec 1) (o : BitVec 2) (q : BitVec 4)  -- R171
  | amoand (d a b : BitVec 5) (z : BitVec 1) (o : BitVec 2) (q : BitVec 4)  -- R171
  | amoor (d a b : BitVec 5) (z : BitVec 1) (o : BitVec 2) (q : BitVec 4)  -- R171
  | amoxor (d a b : BitVec 5) (z : BitVec 1) (o : BitVec 2) (q : BitVec 4)  -- R171
  | amominI (d a b : BitVec 5) (z : BitVec 1) (o : BitVec 2) (q : BitVec 4)  -- R171
  | amomaxI (d a b : BitVec 5) (z : BitVec 1) (o : BitVec 2) (q : BitVec 4)  -- R171
  | amominN (d a b : BitVec 5) (z : BitVec 1) (o : BitVec 2) (q : BitVec 4)  -- R171
  | amomaxN (d a b : BitVec 5) (z : BitVec 1) (o : BitVec 2) (q : BitVec 4)  -- R171
  | amoswap (d a b : BitVec 5) (z : BitVec 1) (o : BitVec 2) (q : BitVec 4)  -- R171
  | amocas (d a b : BitVec 5) (z : BitVec 1) (o : BitVec 2) (q : BitVec 4)  -- R171
  | fence (k : BitVec 2) (sf : BitVec 3) (m : BitVec 16)  -- R172
  | pref (p : BitVec 1) (t : BitVec 2) (b : BitVec 5) (w : BitVec 2) (f : BitVec 8)  -- R173
  | ldv (d a : BitVec 5) (e c : BitVec 4)  -- R175
  | stv (d a : BitVec 5) (e c : BitVec 4)  -- R175
  | ldvs (d a b : BitVec 5) (e c : BitVec 4)  -- R175
  | stvs (d a b : BitVec 5) (e c : BitVec 4)  -- R175
  | ldvl (d a : BitVec 5) (e : BitVec 4)  -- R175
  | stvl (d a : BitVec 5) (e : BitVec 4)  -- R175
  | ldpl (d a b : BitVec 5) (c : BitVec 4) (g : BitVec 1)  -- R176
  | stpl (d a b : BitVec 5) (c : BitVec 4) (g : BitVec 1)  -- R176
  | ldplm (k : BitVec 3) (a : BitVec 5) (c : BitVec 4)  -- R176
  | stplm (k : BitVec 3) (a : BitVec 5) (c : BitVec 4)  -- R176
  | vgath (d a b : BitVec 5) (e c : BitVec 4) (w : BitVec 1)  -- R177
  | vgathNb (d a b : BitVec 5) (e c : BitVec 4) (w : BitVec 1)  -- R178
  | vscat (d a b : BitVec 5) (e c : BitVec 4) (w : BitVec 1)  -- R177
  | vgathNf (d a b : BitVec 5) (e c : BitVec 4) (w n : BitVec 1)  -- R179
  | kvldNf (d a : BitVec 5) (v : BitVec 1) (t : BitVec 6)  -- R186
  | kvld (d a : BitVec 5) (t : BitVec 6) (v : BitVec 1) (c : BitVec 4)  -- R186
  | kvst (d a : BitVec 5) (c : BitVec 4)  -- R188
  | kvstT (d a : BitVec 5) (c : BitVec 4)  -- R188
  | kvapp (d a : BitVec 5) (c : BitVec 4)  -- R89
  | kvappT (d a : BitVec 5) (c : BitVec 4)  -- R89
  | kvfold (d a : BitVec 5) (c : BitVec 4)  -- R92
  | kvfoldT (d a : BitVec 5) (c : BitVec 4)  -- R92
  | cpy (d a n : BitVec 5) (t : BitVec 6) (p sf m : BitVec 1)  -- R181
  | cpym (d a n : BitVec 5) (t : BitVec 6) (p sf m : BitVec 1)  -- R181
  | cpyr (d a n : BitVec 5) (t : BitVec 6) (p sf m : BitVec 1)  -- R181
  | cpyg (d a imm : BitVec 5) (t : BitVec 6) (w m : BitVec 1)  -- R182
  | twaitany (d a : BitVec 5)  -- R183
  | twaitall (d a : BitVec 5)  -- R183
  | tffr (d a : BitVec 5)  -- R183
  | tclr (a : BitVec 5)  -- R183
  | tpln (d a : BitVec 5)  -- R183
  | waitc (l sf : BitVec 4) (c : BitVec 6) (t : BitVec 2)  -- R184
  | pcmp (k m c : BitVec 5) (t : BitVec 2)  -- R216
  | pwr (k m c : BitVec 5) (l : BitVec 1)  -- R216
  | pcw (k m c : BitVec 5) (t : BitVec 2)  -- R216
  | pcol (d sf : BitVec 11) (imm : BitVec 1)  -- R217
  | ptag (d sf : BitVec 2) (f : BitVec 3)  -- R218
  | pshift (r : BitVec 1) (j : BitVec 5) (f : BitVec 1) (sf : BitVec 11)  -- R219
  | pcnt (d : BitVec 5) (sf : BitVec 11)  -- R220
  | pany (d : BitVec 5) (sf : BitVec 11)  -- R220
  | pff (d : BitVec 5) (sf : BitVec 11)  -- R220
  | vadd (d a b : BitVec 5) (e : BitVec 4) (x sf : BitVec 1)  -- R240
  | vsub (d a b : BitVec 5) (e : BitVec 4) (x sf : BitVec 1)  -- R240
  | vrsub (d a b : BitVec 5) (e : BitVec 4) (x sf : BitVec 1)  -- R240
  | vand (d a b : BitVec 5) (e : BitVec 4) (x : BitVec 1)  -- R240
  | vor (d a b : BitVec 5) (e : BitVec 4) (x : BitVec 1)  -- R240
  | vxor (d a b : BitVec 5) (e : BitVec 4) (x : BitVec 1)  -- R240
  | vmin (d a b : BitVec 5) (e : BitVec 4) (x : BitVec 1)  -- R240
  | vmax (d a b : BitVec 5) (e : BitVec 4) (x : BitVec 1)  -- R240
  | vmul (d a b : BitVec 5) (e : BitVec 4) (x : BitVec 1)  -- R243
  | vmacc (d a b : BitVec 5) (e : BitVec 4) (x : BitVec 1)  -- R243
  | vsll (d a b : BitVec 5) (e : BitVec 4)  -- R244
  | vsrl (d a b : BitVec 5) (e : BitVec 4)  -- R244
  | vsra (d a b : BitVec 5) (e : BitVec 4)  -- R244
  | vcmpEq (k : BitVec 3) (a b : BitVec 5) (e : BitVec 4) (x : BitVec 1)  -- R245
  | vcmpNe (k : BitVec 3) (a b : BitVec 5) (e : BitVec 4) (x : BitVec 1)  -- R245
  | vcmpLt (k : BitVec 3) (a b : BitVec 5) (e : BitVec 4) (x : BitVec 1)  -- R245
  | vcmpLe (k : BitVec 3) (a b : BitVec 5) (e : BitVec 4) (x : BitVec 1)  -- R245
  | vcmpGt (k : BitVec 3) (a b : BitVec 5) (e : BitVec 4) (x : BitVec 1)  -- R245
  | vcmpGe (k : BitVec 3) (a b : BitVec 5) (e : BitVec 4) (x : BitVec 1)  -- R245
  | vfadd (d a b : BitVec 5) (e : BitVec 4) (r : BitVec 3)  -- R246
  | vfsub (d a b : BitVec 5) (e : BitVec 4) (r : BitVec 3)  -- R246
  | vfmul (d a b : BitVec 5) (e : BitVec 4) (r : BitVec 3)  -- R246
  | vfma (d a b : BitVec 5) (e : BitVec 4) (r : BitVec 3)  -- R246
  | vfmin (d a b : BitVec 5) (e : BitVec 4)  -- R247
  | vfmax (d a b : BitVec 5) (e : BitVec 4)  -- R247
  | vfneg (d a : BitVec 5) (e : BitVec 4)  -- R247
  | vfabs (d a : BitVec 5) (e : BitVec 4)  -- R247
  | vfcmpEq (k : BitVec 3) (a b : BitVec 5) (e : BitVec 4)  -- R247
  | vfcmpLt (k : BitVec 3) (a b : BitVec 5) (e : BitVec 4)  -- R247
  | vfcmpLe (k : BitVec 3) (a b : BitVec 5) (e : BitVec 4)  -- R247
  | vfaddX (d a b : BitVec 5) (e : BitVec 4) (r : BitVec 3)  -- R246
  | vfmulX (d a b : BitVec 5) (e : BitVec 4) (r : BitVec 3)  -- R246
  | vfmaX (d a b : BitVec 5) (e : BitVec 4) (r : BitVec 3)  -- R246
  | vcvt (d a : BitVec 5) (sf e : BitVec 4) (r : BitVec 3)  -- R250
  | vqtb4 (d a b : BitVec 5) (e : BitVec 4) (sf : BitVec 3)  -- R251
  | vqtb8 (d a b : BitVec 5) (e : BitVec 4) (sf : BitVec 3)  -- R251
  | vdqtb4 (d a b : BitVec 5) (e : BitVec 4) (r : BitVec 3)  -- R251
  | vdqtb8 (d a b : BitVec 5) (e : BitVec 4) (r : BitVec 3)  -- R251
  | vexp2 (d a : BitVec 5) (e : BitVec 4) (r : BitVec 3)  -- R252
  | vrcp (d a : BitVec 5) (e : BitVec 4) (r : BitVec 3)  -- R253
  | vrsqrt (d a : BitVec 5) (e : BitVec 4) (r : BitVec 3)  -- R254
  | vmv (d a : BitVec 5) (e : BitVec 4)  -- R257
  | vbcx (d a : BitVec 5) (e : BitVec 4)  -- R257
  | vbcr (d a b : BitVec 5) (e : BitVec 4)  -- R257
  | vmvxr (d a b : BitVec 5) (e : BitVec 4)  -- R257
  | vslideup (d a b : BitVec 5) (e : BitVec 4) (imm : BitVec 3)  -- R258
  | vslidedn (d a b : BitVec 5) (e : BitVec 4) (imm : BitVec 3)  -- R258
  | vcompress (d : BitVec 5) (k : BitVec 3) (e : BitVec 4)  -- R259
  | viota (d a : BitVec 5) (e : BitVec 4)  -- R260
  | vrsum (d a : BitVec 5) (e : BitVec 4) (sf : BitVec 1) (r : BitVec 3)  -- R262
  | vrmax (d a : BitVec 5) (e : BitVec 4) (sf : BitVec 1) (r : BitVec 3)  -- R262
  | vrmin (d a : BitVec 5) (e : BitVec 4) (sf : BitVec 1) (r : BitVec 3)  -- R262
  | vscan (d a : BitVec 5) (e : BitVec 4) (r : BitVec 3)  -- R263
  | vscanmax (d a : BitVec 5) (e : BitVec 4) (r : BitVec 3)  -- R263
  | vscanmin (d a : BitVec 5) (e : BitVec 4) (r : BitVec 3)  -- R263
  | setvl (d a : BitVec 5)  -- R235
  | setvlf (d a : BitVec 5) (k : BitVec 3) (c : BitVec 4)  -- R237
  | setvlre (d a : BitVec 5) (c : BitVec 4)  -- R238
  | vsrch (k : BitVec 3) (a b : BitVec 5) (e : BitVec 4) (t : BitVec 2)  -- R268
  | vham (d a b : BitVec 5) (e : BitVec 4) (w : BitVec 2) (c x : BitVec 1)  -- R269
  | vtopk (k : BitVec 3) (a b : BitVec 5) (e : BitVec 4) (m : BitVec 1)  -- R270
  | tkinit (a : BitVec 5) (n : BitVec 2) (sf : BitVec 1)  -- R274
  | tkins (d a : BitVec 5) (n : BitVec 2) (k : BitVec 3) (v : BitVec 1)  -- R274
  | tkmrg (a : BitVec 5) (n : BitVec 2) (c : BitVec 4)  -- R277
  | tkrd (d a : BitVec 5) (n : BitVec 2) (c : BitVec 4)  -- R276
  | tkthr (d : BitVec 5) (n : BitVec 2) (o : BitVec 1)  -- R274
  | vterm (d a b : BitVec 5) (e c : BitVec 4)  -- R280
  | vdotv (d a : BitVec 5) (e : BitVec 4) (p n : BitVec 2)  -- R283
  | vselv (d a b : BitVec 5) (e : BitVec 4) (m : BitVec 2)  -- R290
  | vmaskv (k : BitVec 3) (a : BitVec 5) (e : BitVec 4) (sf : BitVec 3)  -- R291
  | vclrv (d a b : BitVec 5) (e : BitVec 4)  -- R292
  | sbind (a : BitVec 5) (c : BitVec 4) (n : BitVec 2)  -- R300
  | sldb (a : BitVec 5) (c : BitVec 4) (x : BitVec 1)  -- R303
  | sldbg (a b : BitVec 5) (c : BitVec 4) (x : BitVec 1)  -- R304
  | stile (d : BitVec 5) (w : BitVec 1)  -- R306
  | smma (a b : BitVec 5)  -- R307
  | sdrainScratch (a : BitVec 5) (t : BitVec 4) (r l : BitVec 3)  -- R310
  | sdrainVreg (d : BitVec 5) (t : BitVec 4) (r l : BitVec 3)  -- R310
  | szero (m : BitVec 1) (t : BitVec 3)  -- R309
  | miter (d a : BitVec 5) (t r m g : BitVec 1)  -- R315
  | mpoly (a : BitVec 5) (g : BitVec 1)  -- R317
  | scoef (a : BitVec 5) (k : BitVec 3)  -- R311
  | fork (d a : BitVec 5)  -- R295
  | rdv  -- R295
  | rdvEnd  -- R295
  | bar (a : BitVec 5) (sf : BitVec 3)  -- R343
  | mbinit (d a : BitVec 5) (p : BitVec 1)  -- R346
  | mbarrive (a : BitVec 5) (p : BitVec 1) (sf : BitVec 3)  -- R346
  | mbexpect (d a : BitVec 5) (p : BitVec 1) (sf : BitVec 3)  -- R346
  | mbarrivex (d a : BitVec 5) (p : BitVec 1) (sf : BitVec 3)  -- R346
  | mbwait (d a : BitVec 5) (p q : BitVec 1) (sf : BitVec 3)  -- R346
  | mbtest (d a : BitVec 5) (p : BitVec 1) (sf : BitVec 3)  -- R346
  | waitvEq (d a o e : BitVec 5)  -- R347
  | waitvGe (d a o e : BitVec 5)  -- R347
  | csrr (d : BitVec 5) (n : BitVec 10)  -- R348
  | csrw (d a : BitVec 5) (n : BitVec 10)  -- R348
  | csrs (d a : BitVec 5) (n : BitVec 10)  -- R348
  | csrc (d a : BitVec 5) (n : BitVec 10)  -- R348
  | svc (c : BitVec 10)  -- R351
  | trap (c : BitVec 10)  -- R351
  | bkpt (c : BitVec 10)  -- R351
  | eret  -- R389
  | yield  -- R353
  | endHart  -- R354
  | launch (d a : BitVec 5)  -- R355
  | quiesce (d a : BitVec 5)  -- R356
  | tlbinv (d a : BitVec 5) (k : BitVec 2)  -- R357
  | icinv  -- R358
  | icinvAll  -- R358
  | sdcinv  -- R358
  | pfx (p : BitVec 3) (v c : BitVec 1) (r : BitVec 5)  -- R146
  | copyComplete (core : Nat) (tag : Nat) (dest : Nat)  -- event, R100
  | gatherElementArrive (core : Nat) (op : Nat) (row : Nat)  -- event, R178
  | planeSlotDelivered (core : Nat) (tag : Nat)  -- event, R186
  | slabOpComplete (core : Nat) (op : Nat)  -- event, R297
  | bLoadComplete (core : Nat) (op : Nat)  -- event, R305
  | tkmrgComplete (core : Nat) (list : Nat)  -- event, R277
  | pageInComplete (req : Nat) (frame : Nat) (fcode : BitVec 8)  -- event, R400
  | walkStart (die : Nat)  -- event, R46
  | kvappWaitRetry (core : Nat) (hart : Nat)  -- event, R89
  | waitvPoll (core : Nat) (hart : Nat)  -- event, R347
  | ringHeadPoll (held : Nat)  -- event, R111
  | queueKick (port : Nat) (q : Nat) (value : BitVec 64)  -- event, R364
  | queueEnable (port : Nat) (q : Nat) (value : BitVec 64)  -- event, R363
  | queueDisable (port : Nat) (q : Nat) (value : BitVec 64)  -- event, R364
  | queueSlotRetry (q : Nat)  -- event, R364
  | queueStall (q : Nat)  -- event, R364
  | launchRecordTake (q : Nat)  -- event, R369
  | codeObjectLoad (req : Nat)  -- event, R163
  | launchWaitPoll (launch : Nat)  -- event, R371
  | placementDecision  -- event, R372
  | coreReservation  -- event, R374
  | launchComplete (launch : Nat)  -- event, R324
  | preemptqWrite (port : Nat) (value : BitVec 64)  -- event, R380
  | gangSave (launch : Nat) (gang : Nat)  -- event, R403
  | gangRestore (launch : Nat) (gang : Nat)  -- event, R408
  | dqflush (port : Nat) (value : BitVec 64)  -- event, R378
  | debugHalt (core : Nat) (value : BitVec 64)  -- event, R411
  | debugResume (core : Nat) (value : BitVec 64)  -- event, R412
  | semacqRead (port : Nat) (rid : BitVec 16) (off : Nat) (size : Nat) (tie : Option (BitVec 16))  -- event, R20, R14
  | semrelWrite (port : Nat) (rid : BitVec 16) (sem : Nat) (value : BitVec 64)  -- event, R20
  | semtimeWrite (port : Nat) (rid : BitVec 16) (sem : Nat) (value : BitVec 64)  -- event, R20
  | semstatWrite (port : Nat) (sem : Nat) (value : BitVec 64)  -- event, R19
  | semaphoreExpiry (sem : Nat)  -- event, R20
  | podidWrite (port : Nat) (value : BitVec 64) (tie : Option (BitVec 64))  -- event, R443
  | mctrlReset (port : Nat) (rid : BitVec 16) (value : BitVec 64)  -- event, R444
  | testctlWrite (port : Nat) (value : BitVec 64)  -- event, R442
  | pgrqWrite (port : Nat) (die : Nat) (value : BitVec 64)  -- event, R399
  | registerWrite (port : Nat) (rid : BitVec 16) (off : Nat) (size : Nat) (value : BitVec 64)  -- event, R14
  | bar2Read (port : Nat) (addr : Nat) (len : Nat)  -- event, R29
  | bar2Write (port : Nat) (addr : Nat) (data : List (BitVec 8)) (poisoned : Bool)  -- event, R25
  | arrive (msg : List (BitVec 8))  -- event, R23
  | depart (msg : List (BitVec 8))  -- event, R23
  | refuse (msg : List (BitVec 8))  -- event, R23
  | podArriveSend (barrier : Nat)  -- event, R23
  | hostLinkDown (port : Nat)  -- event, R18
  | hostLinkUp (port : Nat)  -- event, R18
  | moduleReset  -- event, R438
  | bootStage (images : List FwImage) (config : SignedConfig) (minor : BitVec 16) (linksFail portsFail : Bool)  -- event, R438, R439
  | getVersion (port : Nat)  -- event, R440
  | getCapabilities (port : Nat)  -- event, R440
  | negotiateAlgorithms (port : Nat)  -- event, R440
  | getDigests (port : Nat)  -- event, R440
  | getCertificate (port : Nat) (slot : Nat)  -- event, R440
  | challenge (port : Nat) (slot : Nat) (nonce : Nat)  -- event, R440
  | getMeasurements (port : Nat) (index : Nat)  -- event, R440
  | spdmUnsupportedRequest (port : Nat) (code : BitVec 8)  -- event, R440
  | mctpReadMsense (via : Nat)  -- event, R445
  | mctpReadBootstat (via : Nat)  -- event, R445
  | mctpReadLog (via : Nat)  -- event, R445
  | mctpHaltRequest (via : Nat) (core : Nat)  -- event, R445
  | governorUpdate (die : Nat) (power : BitVec 16)  -- event, R381
  | powerRecoveryEnter (die : Nat)  -- event, R382
  | powerRecoveryExit (die : Nat)  -- event, R382
  | powerTokenPass (die : Nat)  -- event, R320
  | thermalThrottle (tj : BitVec 8)  -- event, R441
  | thermalRelease (tj : BitVec 8)  -- event, R441
  | thermalReset (tj : BitVec 8)  -- event, R441
  | illegalWord (w : BitVec 32)  -- event, R144
  | ctxpartWrite (port : Nat) (slot : Nat) (value : BitVec 64)  -- event, R384
  | containedHardwareError (place : HwPlace)  -- event, R384
  | peerPortLinkUp (port : Nat)  -- event, R378
deriving DecidableEq, Repr

end Sys2Proof
end

