-- ==== Sys2Proof/Decode.lean ====
section
/-! DEFINITION. Reading an instruction word (R138 to R149) and writing one. The decoder is total: it answers an
instruction, or says which of the decode causes of R144 and R145 the word raises. -/

namespace Sys2Proof

/-- What a word is, before the values of its fields are looked at: an instruction and whether a reserved bit of the
word is set, or no instruction. -/
inductive Raw where
  | word (i : Instr) (reserved : Bool)
  | illZero
  | illOp
deriving DecidableEq, Repr

/-- What the decoder answers (R144, R145 steps 1 and 2). -/
inductive Decoded where
  | ok (i : Instr)
  | illZero
  | illOp
  | rsvfld
deriving DecidableEq, Repr

/-- A rounding-mode code that R63 reserves. -/
def rmReserved (r : BitVec 3) : Bool := 5 ≤ r.toNat

/-- A scope code that R170 reserves. -/
def scopeReserved (sc : BitVec 3) : Bool := 6 ≤ sc.toNat

/-- Type codes 0xC to 0xF of R142: floating and block types. -/
def codeNotInteger (e : BitVec 4) : Bool := 12 ≤ e.toNat

/-- A bit-field form that passes bit 63 (R334): L is the field plus 1. -/
def bitFieldBeyond (p l : BitVec 6) : Bool := 64 < p.toNat + (l.toNat + 1)

/-- The forms of SMB that are no instructions (R341). -/
def smbIllegal (c a : BitVec 5) (n : BitVec 3) : Bool :=
  4 < n.toNat || 32 < a.toNat + n.toNat || (a.toNat ≤ c.toNat && c.toNat < a.toNat + n.toNat)

/-- The CSR numbers that the map of R349 assigns. -/
def csrAssigned (n : BitVec 10) : Bool :=
  n.toNat ≤ 0xC || (0x10 ≤ n.toNat && n.toNat ≤ 0x17) || (0x20 ≤ n.toNat && n.toNat ≤ 0x25) ||
  (0x40 ≤ n.toNat && n.toNat ≤ 0x45) || (0x48 ≤ n.toNat && n.toNat ≤ 0x57) || n.toNat == 0x80

/-- The ordering field of an atomic with a reserved value (R170): with ORD not 0, bit 3 and the scope codes 6, 7. -/
def amoReserved (o : BitVec 2) (q : BitVec 4) : Bool := o != 0 && 6 ≤ q.toNat

/-- A rounding field where the type decides whether it is used: reserved for integer types (R249, R261). -/
def rmReservedFor (integer : Bool) (r : BitVec 3) : Bool := if integer then r != 0 else rmReserved r

/-- "A first of three register must be 1 to 29" (R299). -/
def firstOfThreeBad (r : BitVec 5) : Bool := r.toNat < 1 || 29 < r.toNat

/-- The copy registers that an encoding of major 0x28 needs above x31 (R180): x[N+1] with MB (or always for CPYM,
which also reads x[N+2] with MB). -/
def copyRegsBeyond (multicast : Bool) (n : BitVec 5) (m : BitVec 1) : Bool :=
  31 < n.toNat + (if multicast then 1 else 0) + m.toNat

/-- Field values that make a word no instruction although its minor code is assigned: R172 (a class mask of 0), R334,
R341, R348. -/
def Instr.illForm : Instr → Bool
  | .bext _ _ p l | .bextu _ _ p l | .bins _ _ p l => bitFieldBeyond p l
  | .smb c a n _ => smbIllegal c a n
  | .fence _ _ m => m == 0
  | .csrr _ n | .csrw _ _ n | .csrs _ _ n | .csrc _ _ n => !csrAssigned n
  | _ => false

/-- Field values that an entry reserves or that need a register above x31: 0x02 RSVFLD (R145 step 2). -/
def Instr.rsvForm : Instr → Bool
  | .amoadd _ _ _ _ o q | .amoand _ _ _ _ o q | .amoor _ _ _ _ o q | .amoxor _ _ _ _ o q | .amominI _ _ _ _ o q
  | .amomaxI _ _ _ _ o q | .amominN _ _ _ _ o q | .amomaxN _ _ _ _ o q | .amoswap _ _ _ _ o q
  | .amocas _ _ _ _ o q => amoReserved o q
  | .fence _ sf _ => scopeReserved sf
  | .pref _ t _ _ _ => t == 3
  | .ldplm k _ _ | .stplm k _ _ => k == 0
  | .cpy _ _ n _ _ _ m | .cpyr _ _ n _ _ _ m => copyRegsBeyond false n m
  | .cpym _ _ n _ _ _ m => copyRegsBeyond true n m
  | .cpyg _ a _ _ _ m => copyRegsBeyond true a m
  | .pcw k m _ _ => k == 31 || m == 31
  | .ptag _ sf f => 6 ≤ f.toNat && sf != 0
  | .vfadd _ _ _ _ r | .vfsub _ _ _ _ r | .vfmul _ _ _ _ r | .vfma _ _ _ _ r | .vfaddX _ _ _ _ r
  | .vfmulX _ _ _ _ r | .vfmaX _ _ _ _ r => rmReserved r
  | .vcvt _ _ sf e r => rmReservedFor (!codeNotInteger sf && !codeNotInteger e) r
  | .vdqtb4 _ _ _ _ r | .vdqtb8 _ _ _ _ r => rmReserved r
  | .vexp2 _ _ _ r | .vrcp _ _ _ r | .vrsqrt _ _ _ r => rmReserved r
  | .vslideup _ _ _ _ imm | .vslidedn _ _ _ _ imm => 5 ≤ imm.toNat
  | .vrsum _ _ e _ r | .vscan _ _ e r => rmReservedFor (!codeNotInteger e) r
  | .vrmax _ _ _ _ r | .vrmin _ _ _ _ r | .vscanmax _ _ _ r | .vscanmin _ _ _ r => r != 0
  | .setvlf _ a k _ => k == 0 || 30 ≤ a.toNat
  | .setvlre _ a _ => 30 ≤ a.toNat
  | .vsrch _ _ b _ _ => b == 31
  | .vterm _ _ b _ _ => b == 31
  | .vdotv _ a _ p n => p == 3 || (p != 1 && n != 0) || 30 ≤ a.toNat
  | .vselv _ _ _ _ m => m == 3
  | .vmaskv _ _ _ sf => 5 ≤ sf.toNat
  | .stile d _ => firstOfThreeBad d
  | .smma _ b => firstOfThreeBad b
  | .sdrainScratch _ _ r _ | .sdrainVreg _ _ r _ => rmReserved r
  | .mbarrive _ _ sf | .mbexpect _ _ _ sf | .mbarrivex _ _ _ sf | .mbwait _ _ _ _ sf | .mbtest _ _ _ sf =>
    scopeReserved sf
  | .tlbinv _ _ k => k == 3
  | .pfx p v c r => (p == 0 && v == 1) || (c == 0 && r != 0)
  | _ => false

/-- Major 0x01: R329. -/
def decodeMajor01 (w : Nat) : Raw :=
  match w % 16 with
  | 0 => .word (.add (BitVec.ofNat 5 (w / 0x200000)) (BitVec.ofNat 5 (w / 0x10000)) (BitVec.ofNat 5 (w / 0x800))) (w / 16 % 128 != 0)
  | 1 => .word (.sub (BitVec.ofNat 5 (w / 0x200000)) (BitVec.ofNat 5 (w / 0x10000)) (BitVec.ofNat 5 (w / 0x800))) (w / 16 % 128 != 0)
  | 2 => .word (.and (BitVec.ofNat 5 (w / 0x200000)) (BitVec.ofNat 5 (w / 0x10000)) (BitVec.ofNat 5 (w / 0x800))) (w / 16 % 128 != 0)
  | 3 => .word (.or (BitVec.ofNat 5 (w / 0x200000)) (BitVec.ofNat 5 (w / 0x10000)) (BitVec.ofNat 5 (w / 0x800))) (w / 16 % 128 != 0)
  | 4 => .word (.xor (BitVec.ofNat 5 (w / 0x200000)) (BitVec.ofNat 5 (w / 0x10000)) (BitVec.ofNat 5 (w / 0x800))) (w / 16 % 128 != 0)
  | 5 => .word (.andn (BitVec.ofNat 5 (w / 0x200000)) (BitVec.ofNat 5 (w / 0x10000)) (BitVec.ofNat 5 (w / 0x800))) (w / 16 % 128 != 0)
  | 6 => .word (.slt (BitVec.ofNat 5 (w / 0x200000)) (BitVec.ofNat 5 (w / 0x10000)) (BitVec.ofNat 5 (w / 0x800))) (w / 16 % 128 != 0)
  | 7 => .word (.sltu (BitVec.ofNat 5 (w / 0x200000)) (BitVec.ofNat 5 (w / 0x10000)) (BitVec.ofNat 5 (w / 0x800))) (w / 16 % 128 != 0)
  | 8 => .word (.seq (BitVec.ofNat 5 (w / 0x200000)) (BitVec.ofNat 5 (w / 0x10000)) (BitVec.ofNat 5 (w / 0x800))) (w / 16 % 128 != 0)
  | 9 => .word (.sne (BitVec.ofNat 5 (w / 0x200000)) (BitVec.ofNat 5 (w / 0x10000)) (BitVec.ofNat 5 (w / 0x800))) (w / 16 % 128 != 0)
  | 10 => .word (.min (BitVec.ofNat 5 (w / 0x200000)) (BitVec.ofNat 5 (w / 0x10000)) (BitVec.ofNat 5 (w / 0x800))) (w / 16 % 128 != 0)
  | 11 => .word (.max (BitVec.ofNat 5 (w / 0x200000)) (BitVec.ofNat 5 (w / 0x10000)) (BitVec.ofNat 5 (w / 0x800))) (w / 16 % 128 != 0)
  | 12 => .word (.minu (BitVec.ofNat 5 (w / 0x200000)) (BitVec.ofNat 5 (w / 0x10000)) (BitVec.ofNat 5 (w / 0x800))) (w / 16 % 128 != 0)
  | 13 => .word (.maxu (BitVec.ofNat 5 (w / 0x200000)) (BitVec.ofNat 5 (w / 0x10000)) (BitVec.ofNat 5 (w / 0x800))) (w / 16 % 128 != 0)
  | _ => .illOp

/-- Major 0x02: R330. -/
def decodeMajor02 (w : Nat) : Raw :=
  match w % 8 with
  | 0 => .word (.sll (BitVec.ofNat 5 (w / 0x200000)) (BitVec.ofNat 5 (w / 0x10000)) (BitVec.ofNat 5 (w / 0x800))) (w / 8 % 256 != 0)
  | 1 => .word (.srl (BitVec.ofNat 5 (w / 0x200000)) (BitVec.ofNat 5 (w / 0x10000)) (BitVec.ofNat 5 (w / 0x800))) (w / 8 % 256 != 0)
  | 2 => .word (.sra (BitVec.ofNat 5 (w / 0x200000)) (BitVec.ofNat 5 (w / 0x10000)) (BitVec.ofNat 5 (w / 0x800))) (w / 8 % 256 != 0)
  | 3 => .word (.rol (BitVec.ofNat 5 (w / 0x200000)) (BitVec.ofNat 5 (w / 0x10000)) (BitVec.ofNat 5 (w / 0x800))) (w / 8 % 256 != 0)
  | 4 => .word (.ror (BitVec.ofNat 5 (w / 0x200000)) (BitVec.ofNat 5 (w / 0x10000)) (BitVec.ofNat 5 (w / 0x800))) (w / 8 % 256 != 0)
  | _ => .illOp

/-- Major 0x03: R331. -/
def decodeMajor03 (w : Nat) : Raw :=
  match w % 8 with
  | 0 => .word (.mul (BitVec.ofNat 5 (w / 0x200000)) (BitVec.ofNat 5 (w / 0x10000)) (BitVec.ofNat 5 (w / 0x800))) (w / 8 % 256 != 0)
  | 1 => .word (.mulh (BitVec.ofNat 5 (w / 0x200000)) (BitVec.ofNat 5 (w / 0x10000)) (BitVec.ofNat 5 (w / 0x800))) (w / 8 % 256 != 0)
  | 2 => .word (.mulhu (BitVec.ofNat 5 (w / 0x200000)) (BitVec.ofNat 5 (w / 0x10000)) (BitVec.ofNat 5 (w / 0x800))) (w / 8 % 256 != 0)
  | 3 => .word (.div (BitVec.ofNat 5 (w / 0x200000)) (BitVec.ofNat 5 (w / 0x10000)) (BitVec.ofNat 5 (w / 0x800))) (w / 8 % 256 != 0)
  | 4 => .word (.divu (BitVec.ofNat 5 (w / 0x200000)) (BitVec.ofNat 5 (w / 0x10000)) (BitVec.ofNat 5 (w / 0x800))) (w / 8 % 256 != 0)
  | 5 => .word (.rem (BitVec.ofNat 5 (w / 0x200000)) (BitVec.ofNat 5 (w / 0x10000)) (BitVec.ofNat 5 (w / 0x800))) (w / 8 % 256 != 0)
  | 6 => .word (.remu (BitVec.ofNat 5 (w / 0x200000)) (BitVec.ofNat 5 (w / 0x10000)) (BitVec.ofNat 5 (w / 0x800))) (w / 8 % 256 != 0)
  | _ => .illOp

/-- Major 0x04: R332. -/
def decodeMajor04 (w : Nat) : Raw :=
  .word (.addi (BitVec.ofNat 5 (w / 0x200000)) (BitVec.ofNat 5 (w / 0x10000)) (BitVec.ofNat 16 w)) false

/-- Major 0x05: R332. -/
def decodeMajor05 (w : Nat) : Raw :=
  .word (.andi (BitVec.ofNat 5 (w / 0x200000)) (BitVec.ofNat 5 (w / 0x10000)) (BitVec.ofNat 16 w)) false

/-- Major 0x06: R332. -/
def decodeMajor06 (w : Nat) : Raw :=
  .word (.ori (BitVec.ofNat 5 (w / 0x200000)) (BitVec.ofNat 5 (w / 0x10000)) (BitVec.ofNat 16 w)) false

/-- Major 0x07: R332. -/
def decodeMajor07 (w : Nat) : Raw :=
  .word (.xori (BitVec.ofNat 5 (w / 0x200000)) (BitVec.ofNat 5 (w / 0x10000)) (BitVec.ofNat 16 w)) false

/-- Major 0x08: R333. -/
def decodeMajor08 (w : Nat) : Raw :=
  match w / 8192 % 8 with
  | 0 => .word (.seqi (BitVec.ofNat 5 (w / 0x200000)) (BitVec.ofNat 5 (w / 0x10000)) (BitVec.ofNat 13 w)) false
  | 1 => .word (.snei (BitVec.ofNat 5 (w / 0x200000)) (BitVec.ofNat 5 (w / 0x10000)) (BitVec.ofNat 13 w)) false
  | 2 => .word (.slti (BitVec.ofNat 5 (w / 0x200000)) (BitVec.ofNat 5 (w / 0x10000)) (BitVec.ofNat 13 w)) false
  | 3 => .word (.sgei (BitVec.ofNat 5 (w / 0x200000)) (BitVec.ofNat 5 (w / 0x10000)) (BitVec.ofNat 13 w)) false
  | 4 => .word (.sltui (BitVec.ofNat 5 (w / 0x200000)) (BitVec.ofNat 5 (w / 0x10000)) (BitVec.ofNat 13 w)) false
  | 5 => .word (.sgeui (BitVec.ofNat 5 (w / 0x200000)) (BitVec.ofNat 5 (w / 0x10000)) (BitVec.ofNat 13 w)) false
  | _ => .illOp

/-- Major 0x09: R334. -/
def decodeMajor09 (w : Nat) : Raw :=
  match w / 4096 % 16 with
  | 0 => .word (.slli (BitVec.ofNat 5 (w / 0x200000)) (BitVec.ofNat 5 (w / 0x10000)) (BitVec.ofNat 6 w)) (w / 64 % 64 != 0)
  | 1 => .word (.srli (BitVec.ofNat 5 (w / 0x200000)) (BitVec.ofNat 5 (w / 0x10000)) (BitVec.ofNat 6 w)) (w / 64 % 64 != 0)
  | 2 => .word (.srai (BitVec.ofNat 5 (w / 0x200000)) (BitVec.ofNat 5 (w / 0x10000)) (BitVec.ofNat 6 w)) (w / 64 % 64 != 0)
  | 3 => .word (.rori (BitVec.ofNat 5 (w / 0x200000)) (BitVec.ofNat 5 (w / 0x10000)) (BitVec.ofNat 6 w)) (w / 64 % 64 != 0)
  | 4 => .word (.bext (BitVec.ofNat 5 (w / 0x200000)) (BitVec.ofNat 5 (w / 0x10000)) (BitVec.ofNat 6 (w / 64)) (BitVec.ofNat 6 w)) false
  | 5 => .word (.bextu (BitVec.ofNat 5 (w / 0x200000)) (BitVec.ofNat 5 (w / 0x10000)) (BitVec.ofNat 6 (w / 64)) (BitVec.ofNat 6 w)) false
  | 6 => .word (.bins (BitVec.ofNat 5 (w / 0x200000)) (BitVec.ofNat 5 (w / 0x10000)) (BitVec.ofNat 6 (w / 64)) (BitVec.ofNat 6 w)) false
  | _ => .illOp

/-- Major 0x0A: R335. -/
def decodeMajor0A (w : Nat) : Raw :=
  .word (.lui (BitVec.ofNat 5 (w / 0x200000)) (BitVec.ofNat 21 w)) false

/-- Major 0x0B: R335. -/
def decodeMajor0B (w : Nat) : Raw :=
  .word (.auipc (BitVec.ofNat 5 (w / 0x200000)) (BitVec.ofNat 21 w)) false

/-- Major 0x10: R336. -/
def decodeMajor10 (w : Nat) : Raw :=
  match w / 8192 % 8 with
  | 0 => .word (.beq (BitVec.ofNat 5 (w / 0x200000)) (BitVec.ofNat 5 (w / 0x10000)) (BitVec.ofNat 13 w)) false
  | 1 => .word (.bne (BitVec.ofNat 5 (w / 0x200000)) (BitVec.ofNat 5 (w / 0x10000)) (BitVec.ofNat 13 w)) false
  | 2 => .word (.blt (BitVec.ofNat 5 (w / 0x200000)) (BitVec.ofNat 5 (w / 0x10000)) (BitVec.ofNat 13 w)) false
  | 3 => .word (.bge (BitVec.ofNat 5 (w / 0x200000)) (BitVec.ofNat 5 (w / 0x10000)) (BitVec.ofNat 13 w)) false
  | 4 => .word (.bltu (BitVec.ofNat 5 (w / 0x200000)) (BitVec.ofNat 5 (w / 0x10000)) (BitVec.ofNat 13 w)) false
  | 5 => .word (.bgeu (BitVec.ofNat 5 (w / 0x200000)) (BitVec.ofNat 5 (w / 0x10000)) (BitVec.ofNat 13 w)) false
  | _ => .illOp

/-- Major 0x11: R337. -/
def decodeMajor11 (w : Nat) : Raw :=
  match w / 8192 % 8 with
  | 0 => .word (.bmany (BitVec.ofNat 3 (w / 0x200000)) (BitVec.ofNat 13 w)) (w / 0x10000 % 32 != 0 || w / 0x1000000 % 4 != 0)
  | 1 => .word (.bmnone (BitVec.ofNat 3 (w / 0x200000)) (BitVec.ofNat 13 w)) (w / 0x10000 % 32 != 0 || w / 0x1000000 % 4 != 0)
  | 2 => .word (.bmall (BitVec.ofNat 3 (w / 0x200000)) (BitVec.ofNat 13 w)) (w / 0x10000 % 32 != 0 || w / 0x1000000 % 4 != 0)
  | 3 => .word (.bmnall (BitVec.ofNat 3 (w / 0x200000)) (BitVec.ofNat 13 w)) (w / 0x10000 % 32 != 0 || w / 0x1000000 % 4 != 0)
  | _ => .illOp

/-- Major 0x12: R338. -/
def decodeMajor12 (w : Nat) : Raw :=
  .word (.jal (BitVec.ofNat 5 (w / 0x200000)) (BitVec.ofNat 21 w)) false

/-- Major 0x13: R339. -/
def decodeMajor13 (w : Nat) : Raw :=
  .word (.jalr (BitVec.ofNat 5 (w / 0x200000)) (BitVec.ofNat 5 (w / 0x10000)) (BitVec.ofNat 16 w)) false

/-- Major 0x14: R341. -/
def decodeMajor14 (w : Nat) : Raw :=
  .word (.smb (BitVec.ofNat 5 (w / 0x200000)) (BitVec.ofNat 5 (w / 0x10000)) (BitVec.ofNat 3 (w / 0x2000)) (BitVec.ofNat 13 w)) false

/-- Major 0x15: R340. -/
def decodeMajor15 (w : Nat) : Raw :=
  match w / 32768 % 2 with
  | 0 => .word (.smbsReg (BitVec.ofNat 2 (w / 0x200000)) (BitVec.ofNat 5 (w / 0x10000))) (w % 32768 != 0 || w / 0x800000 % 8 != 0)
  | 1 => .word (.smbsImm (BitVec.ofNat 2 (w / 0x200000)) (BitVec.ofNat 15 w)) (w / 0x10000 % 32 != 0 || w / 0x800000 % 8 != 0)
  | _ => .illOp

/-- Major 0x18: R168. -/
def decodeMajor18 (w : Nat) : Raw :=
  match w / 256 % 16 with
  | 0 => .word (.ldN8 (BitVec.ofNat 5 (w / 0x200000)) (BitVec.ofNat 5 (w / 0x10000)) (BitVec.ofNat 4 (w / 0x1000)) (BitVec.ofNat 8 w)) false
  | 1 => .word (.ldN16 (BitVec.ofNat 5 (w / 0x200000)) (BitVec.ofNat 5 (w / 0x10000)) (BitVec.ofNat 4 (w / 0x1000)) (BitVec.ofNat 8 w)) false
  | 2 => .word (.ldN32 (BitVec.ofNat 5 (w / 0x200000)) (BitVec.ofNat 5 (w / 0x10000)) (BitVec.ofNat 4 (w / 0x1000)) (BitVec.ofNat 8 w)) false
  | 3 => .word (.ldN64 (BitVec.ofNat 5 (w / 0x200000)) (BitVec.ofNat 5 (w / 0x10000)) (BitVec.ofNat 4 (w / 0x1000)) (BitVec.ofNat 8 w)) false
  | 4 => .word (.ldI8 (BitVec.ofNat 5 (w / 0x200000)) (BitVec.ofNat 5 (w / 0x10000)) (BitVec.ofNat 4 (w / 0x1000)) (BitVec.ofNat 8 w)) false
  | 5 => .word (.ldI16 (BitVec.ofNat 5 (w / 0x200000)) (BitVec.ofNat 5 (w / 0x10000)) (BitVec.ofNat 4 (w / 0x1000)) (BitVec.ofNat 8 w)) false
  | 6 => .word (.ldI32 (BitVec.ofNat 5 (w / 0x200000)) (BitVec.ofNat 5 (w / 0x10000)) (BitVec.ofNat 4 (w / 0x1000)) (BitVec.ofNat 8 w)) false
  | 7 => .word (.ldI64 (BitVec.ofNat 5 (w / 0x200000)) (BitVec.ofNat 5 (w / 0x10000)) (BitVec.ofNat 4 (w / 0x1000)) (BitVec.ofNat 8 w)) false
  | _ => .illOp

/-- Major 0x19: R168. -/
def decodeMajor19 (w : Nat) : Raw :=
  match w / 256 % 16 with
  | 0 => .word (.stN8 (BitVec.ofNat 5 (w / 0x200000)) (BitVec.ofNat 5 (w / 0x10000)) (BitVec.ofNat 4 (w / 0x1000)) (BitVec.ofNat 8 w)) false
  | 1 => .word (.stN16 (BitVec.ofNat 5 (w / 0x200000)) (BitVec.ofNat 5 (w / 0x10000)) (BitVec.ofNat 4 (w / 0x1000)) (BitVec.ofNat 8 w)) false
  | 2 => .word (.stN32 (BitVec.ofNat 5 (w / 0x200000)) (BitVec.ofNat 5 (w / 0x10000)) (BitVec.ofNat 4 (w / 0x1000)) (BitVec.ofNat 8 w)) false
  | 3 => .word (.stN64 (BitVec.ofNat 5 (w / 0x200000)) (BitVec.ofNat 5 (w / 0x10000)) (BitVec.ofNat 4 (w / 0x1000)) (BitVec.ofNat 8 w)) false
  | _ => .illOp

/-- Major 0x1A: R169. -/
def decodeMajor1A (w : Nat) : Raw :=
  match w / 256 % 16 with
  | 0 => .word (.ldpN8 (BitVec.ofNat 5 (w / 0x200000)) (BitVec.ofNat 5 (w / 0x10000)) (BitVec.ofNat 2 (w / 0x1000)) (BitVec.ofNat 8 w)) (w / 0x4000 % 4 != 0)
  | 1 => .word (.ldpN16 (BitVec.ofNat 5 (w / 0x200000)) (BitVec.ofNat 5 (w / 0x10000)) (BitVec.ofNat 2 (w / 0x1000)) (BitVec.ofNat 8 w)) (w / 0x4000 % 4 != 0)
  | 2 => .word (.ldpN32 (BitVec.ofNat 5 (w / 0x200000)) (BitVec.ofNat 5 (w / 0x10000)) (BitVec.ofNat 2 (w / 0x1000)) (BitVec.ofNat 8 w)) (w / 0x4000 % 4 != 0)
  | 3 => .word (.ldpN64 (BitVec.ofNat 5 (w / 0x200000)) (BitVec.ofNat 5 (w / 0x10000)) (BitVec.ofNat 2 (w / 0x1000)) (BitVec.ofNat 8 w)) (w / 0x4000 % 4 != 0)
  | 4 => .word (.ldpI8 (BitVec.ofNat 5 (w / 0x200000)) (BitVec.ofNat 5 (w / 0x10000)) (BitVec.ofNat 2 (w / 0x1000)) (BitVec.ofNat 8 w)) (w / 0x4000 % 4 != 0)
  | 5 => .word (.ldpI16 (BitVec.ofNat 5 (w / 0x200000)) (BitVec.ofNat 5 (w / 0x10000)) (BitVec.ofNat 2 (w / 0x1000)) (BitVec.ofNat 8 w)) (w / 0x4000 % 4 != 0)
  | 6 => .word (.ldpI32 (BitVec.ofNat 5 (w / 0x200000)) (BitVec.ofNat 5 (w / 0x10000)) (BitVec.ofNat 2 (w / 0x1000)) (BitVec.ofNat 8 w)) (w / 0x4000 % 4 != 0)
  | 7 => .word (.ldpI64 (BitVec.ofNat 5 (w / 0x200000)) (BitVec.ofNat 5 (w / 0x10000)) (BitVec.ofNat 2 (w / 0x1000)) (BitVec.ofNat 8 w)) (w / 0x4000 % 4 != 0)
  | _ => .illOp

/-- Major 0x1B: R171. -/
def decodeMajor1B (w : Nat) : Raw :=
  match w / 128 % 16 with
  | 0 => .word (.amoadd (BitVec.ofNat 5 (w / 0x200000)) (BitVec.ofNat 5 (w / 0x10000)) (BitVec.ofNat 5 (w / 0x800)) (BitVec.ofNat 1 (w / 64)) (BitVec.ofNat 2 (w / 16)) (BitVec.ofNat 4 w)) false
  | 1 => .word (.amoand (BitVec.ofNat 5 (w / 0x200000)) (BitVec.ofNat 5 (w / 0x10000)) (BitVec.ofNat 5 (w / 0x800)) (BitVec.ofNat 1 (w / 64)) (BitVec.ofNat 2 (w / 16)) (BitVec.ofNat 4 w)) false
  | 2 => .word (.amoor (BitVec.ofNat 5 (w / 0x200000)) (BitVec.ofNat 5 (w / 0x10000)) (BitVec.ofNat 5 (w / 0x800)) (BitVec.ofNat 1 (w / 64)) (BitVec.ofNat 2 (w / 16)) (BitVec.ofNat 4 w)) false
  | 3 => .word (.amoxor (BitVec.ofNat 5 (w / 0x200000)) (BitVec.ofNat 5 (w / 0x10000)) (BitVec.ofNat 5 (w / 0x800)) (BitVec.ofNat 1 (w / 64)) (BitVec.ofNat 2 (w / 16)) (BitVec.ofNat 4 w)) false
  | 4 => .word (.amominI (BitVec.ofNat 5 (w / 0x200000)) (BitVec.ofNat 5 (w / 0x10000)) (BitVec.ofNat 5 (w / 0x800)) (BitVec.ofNat 1 (w / 64)) (BitVec.ofNat 2 (w / 16)) (BitVec.ofNat 4 w)) false
  | 5 => .word (.amomaxI (BitVec.ofNat 5 (w / 0x200000)) (BitVec.ofNat 5 (w / 0x10000)) (BitVec.ofNat 5 (w / 0x800)) (BitVec.ofNat 1 (w / 64)) (BitVec.ofNat 2 (w / 16)) (BitVec.ofNat 4 w)) false
  | 6 => .word (.amominN (BitVec.ofNat 5 (w / 0x200000)) (BitVec.ofNat 5 (w / 0x10000)) (BitVec.ofNat 5 (w / 0x800)) (BitVec.ofNat 1 (w / 64)) (BitVec.ofNat 2 (w / 16)) (BitVec.ofNat 4 w)) false
  | 7 => .word (.amomaxN (BitVec.ofNat 5 (w / 0x200000)) (BitVec.ofNat 5 (w / 0x10000)) (BitVec.ofNat 5 (w / 0x800)) (BitVec.ofNat 1 (w / 64)) (BitVec.ofNat 2 (w / 16)) (BitVec.ofNat 4 w)) false
  | 8 => .word (.amoswap (BitVec.ofNat 5 (w / 0x200000)) (BitVec.ofNat 5 (w / 0x10000)) (BitVec.ofNat 5 (w / 0x800)) (BitVec.ofNat 1 (w / 64)) (BitVec.ofNat 2 (w / 16)) (BitVec.ofNat 4 w)) false
  | 9 => .word (.amocas (BitVec.ofNat 5 (w / 0x200000)) (BitVec.ofNat 5 (w / 0x10000)) (BitVec.ofNat 5 (w / 0x800)) (BitVec.ofNat 1 (w / 64)) (BitVec.ofNat 2 (w / 16)) (BitVec.ofNat 4 w)) false
  | _ => .illOp

/-- Major 0x1C: R172. -/
def decodeMajor1C (w : Nat) : Raw :=
  .word (.fence (BitVec.ofNat 2 (w / 0x1000000)) (BitVec.ofNat 3 (w / 0x200000)) (BitVec.ofNat 16 w)) (w / 0x10000 % 32 != 0)

/-- Major 0x1D: R173. -/
def decodeMajor1D (w : Nat) : Raw :=
  .word (.pref (BitVec.ofNat 1 (w / 0x800000)) (BitVec.ofNat 2 (w / 0x200000)) (BitVec.ofNat 5 (w / 0x10000)) (BitVec.ofNat 2 (w / 256)) (BitVec.ofNat 8 w)) (w / 0x400 % 64 != 0 || w / 0x1000000 % 4 != 0)

/-- Major 0x20: R175. -/
def decodeMajor20 (w : Nat) : Raw :=
  match (w / 64 % 2) * 4 + w % 4 with
  | 0 => .word (.ldv (BitVec.ofNat 5 (w / 0x200000)) (BitVec.ofNat 5 (w / 0x10000)) (BitVec.ofNat 4 (w / 128)) (BitVec.ofNat 4 (w / 4))) (w / 0x800 % 32 != 0)
  | 4 => .word (.stv (BitVec.ofNat 5 (w / 0x200000)) (BitVec.ofNat 5 (w / 0x10000)) (BitVec.ofNat 4 (w / 128)) (BitVec.ofNat 4 (w / 4))) (w / 0x800 % 32 != 0)
  | _ => .illOp

/-- Major 0x21: R175. -/
def decodeMajor21 (w : Nat) : Raw :=
  match (w / 64 % 2) * 4 + w % 4 with
  | 0 => .word (.ldvs (BitVec.ofNat 5 (w / 0x200000)) (BitVec.ofNat 5 (w / 0x10000)) (BitVec.ofNat 5 (w / 0x800)) (BitVec.ofNat 4 (w / 128)) (BitVec.ofNat 4 (w / 4))) false
  | 4 => .word (.stvs (BitVec.ofNat 5 (w / 0x200000)) (BitVec.ofNat 5 (w / 0x10000)) (BitVec.ofNat 5 (w / 0x800)) (BitVec.ofNat 4 (w / 128)) (BitVec.ofNat 4 (w / 4))) false
  | _ => .illOp

/-- Major 0x22: R175. -/
def decodeMajor22 (w : Nat) : Raw :=
  match (w / 64 % 2) * 4 + w % 4 with
  | 0 => .word (.ldvl (BitVec.ofNat 5 (w / 0x200000)) (BitVec.ofNat 5 (w / 0x10000)) (BitVec.ofNat 4 (w / 128))) (w / 4 % 16 != 0 || w / 0x800 % 32 != 0)
  | 4 => .word (.stvl (BitVec.ofNat 5 (w / 0x200000)) (BitVec.ofNat 5 (w / 0x10000)) (BitVec.ofNat 4 (w / 128))) (w / 4 % 16 != 0 || w / 0x800 % 32 != 0)
  | _ => .illOp

/-- Major 0x23: R176. -/
def decodeMajor23 (w : Nat) : Raw :=
  match (w / 64 % 2) * 2 + w % 2 with
  | 0 => .word (.ldpl (BitVec.ofNat 5 (w / 0x200000)) (BitVec.ofNat 5 (w / 0x10000)) (BitVec.ofNat 5 (w / 0x800)) (BitVec.ofNat 4 (w / 4)) (BitVec.ofNat 1 (w / 2))) (w / 128 % 16 != 0)
  | 1 => .word (.ldplm (BitVec.ofNat 3 (w / 0x200000)) (BitVec.ofNat 5 (w / 0x10000)) (BitVec.ofNat 4 (w / 4))) (w / 2 % 2 != 0 || w / 128 % 512 != 0 || w / 0x1000000 % 4 != 0)
  | 2 => .word (.stpl (BitVec.ofNat 5 (w / 0x200000)) (BitVec.ofNat 5 (w / 0x10000)) (BitVec.ofNat 5 (w / 0x800)) (BitVec.ofNat 4 (w / 4)) (BitVec.ofNat 1 (w / 2))) (w / 128 % 16 != 0)
  | 3 => .word (.stplm (BitVec.ofNat 3 (w / 0x200000)) (BitVec.ofNat 5 (w / 0x10000)) (BitVec.ofNat 4 (w / 4))) (w / 2 % 2 != 0 || w / 128 % 512 != 0 || w / 0x1000000 % 4 != 0)
  | _ => .illOp

/-- Major 0x24: R177, R178. -/
def decodeMajor24 (w : Nat) : Raw :=
  match (w / 64 % 2) * 2 + w % 2 with
  | 0 => .word (.vgath (BitVec.ofNat 5 (w / 0x200000)) (BitVec.ofNat 5 (w / 0x10000)) (BitVec.ofNat 5 (w / 0x800)) (BitVec.ofNat 4 (w / 128)) (BitVec.ofNat 4 (w / 4)) (BitVec.ofNat 1 (w / 2))) false
  | 1 => .word (.vgathNb (BitVec.ofNat 5 (w / 0x200000)) (BitVec.ofNat 5 (w / 0x10000)) (BitVec.ofNat 5 (w / 0x800)) (BitVec.ofNat 4 (w / 128)) (BitVec.ofNat 4 (w / 4)) (BitVec.ofNat 1 (w / 2))) false
  | 2 => .word (.vscat (BitVec.ofNat 5 (w / 0x200000)) (BitVec.ofNat 5 (w / 0x10000)) (BitVec.ofNat 5 (w / 0x800)) (BitVec.ofNat 4 (w / 128)) (BitVec.ofNat 4 (w / 4)) (BitVec.ofNat 1 (w / 2))) false
  | _ => .illOp

/-- Major 0x25: R89, R92, R186, R188. -/
def decodeMajor25 (w : Nat) : Raw :=
  match w / 4096 % 16 with
  | 0 => .word (.kvld (BitVec.ofNat 5 (w / 0x200000)) (BitVec.ofNat 5 (w / 0x10000)) (BitVec.ofNat 6 (w / 64)) (BitVec.ofNat 1 (w / 32)) (BitVec.ofNat 4 (w / 2))) (w % 2 != 0)
  | 1 => .word (.kvst (BitVec.ofNat 5 (w / 0x200000)) (BitVec.ofNat 5 (w / 0x10000)) (BitVec.ofNat 4 w)) (w / 16 % 256 != 0)
  | 2 => .word (.kvstT (BitVec.ofNat 5 (w / 0x200000)) (BitVec.ofNat 5 (w / 0x10000)) (BitVec.ofNat 4 w)) (w / 16 % 256 != 0)
  | 3 => .word (.kvapp (BitVec.ofNat 5 (w / 0x200000)) (BitVec.ofNat 5 (w / 0x10000)) (BitVec.ofNat 4 w)) (w / 16 % 256 != 0)
  | 4 => .word (.kvappT (BitVec.ofNat 5 (w / 0x200000)) (BitVec.ofNat 5 (w / 0x10000)) (BitVec.ofNat 4 w)) (w / 16 % 256 != 0)
  | 5 => .word (.kvfold (BitVec.ofNat 5 (w / 0x200000)) (BitVec.ofNat 5 (w / 0x10000)) (BitVec.ofNat 4 w)) (w / 16 % 256 != 0)
  | 6 => .word (.kvfoldT (BitVec.ofNat 5 (w / 0x200000)) (BitVec.ofNat 5 (w / 0x10000)) (BitVec.ofNat 4 w)) (w / 16 % 256 != 0)
  | _ => .illOp

/-- Major 0x26: R179, R186. -/
def decodeMajor26 (w : Nat) : Raw :=
  match w / 64 % 2 with
  | 0 => .word (.vgathNf (BitVec.ofNat 5 (w / 0x200000)) (BitVec.ofNat 5 (w / 0x10000)) (BitVec.ofNat 5 (w / 0x800)) (BitVec.ofNat 4 (w / 128)) (BitVec.ofNat 4 (w / 4)) (BitVec.ofNat 1 (w / 2)) (BitVec.ofNat 1 w)) false
  | 1 => .word (.kvldNf (BitVec.ofNat 5 (w / 0x200000)) (BitVec.ofNat 5 (w / 0x10000)) (BitVec.ofNat 1 (w / 128)) (BitVec.ofNat 6 w)) (w / 256 % 256 != 0)
  | _ => .illOp

/-- Major 0x28: R181. -/
def decodeMajor28 (w : Nat) : Raw :=
  match w / 16384 % 4 with
  | 0 => .word (.cpy (BitVec.ofNat 5 (w / 0x200000)) (BitVec.ofNat 5 (w / 0x10000)) (BitVec.ofNat 5 (w / 512)) (BitVec.ofNat 6 (w / 8)) (BitVec.ofNat 1 (w / 4)) (BitVec.ofNat 1 (w / 2)) (BitVec.ofNat 1 w)) false
  | 1 => .word (.cpym (BitVec.ofNat 5 (w / 0x200000)) (BitVec.ofNat 5 (w / 0x10000)) (BitVec.ofNat 5 (w / 512)) (BitVec.ofNat 6 (w / 8)) (BitVec.ofNat 1 (w / 4)) (BitVec.ofNat 1 (w / 2)) (BitVec.ofNat 1 w)) false
  | 2 => .word (.cpyr (BitVec.ofNat 5 (w / 0x200000)) (BitVec.ofNat 5 (w / 0x10000)) (BitVec.ofNat 5 (w / 512)) (BitVec.ofNat 6 (w / 8)) (BitVec.ofNat 1 (w / 4)) (BitVec.ofNat 1 (w / 2)) (BitVec.ofNat 1 w)) false
  | _ => .illOp

/-- Major 0x29: R182. -/
def decodeMajor29 (w : Nat) : Raw :=
  .word (.cpyg (BitVec.ofNat 5 (w / 0x200000)) (BitVec.ofNat 5 (w / 0x10000)) (BitVec.ofNat 5 (w / 0x800)) (BitVec.ofNat 6 (w / 32)) (BitVec.ofNat 1 (w / 16)) (BitVec.ofNat 1 (w / 8))) (w % 8 != 0)

/-- Major 0x2A: R183. -/
def decodeMajor2A (w : Nat) : Raw :=
  match w / 4096 % 16 with
  | 0 => .word (.twaitany (BitVec.ofNat 5 (w / 0x200000)) (BitVec.ofNat 5 (w / 0x10000))) (w % 4096 != 0)
  | 1 => .word (.twaitall (BitVec.ofNat 5 (w / 0x200000)) (BitVec.ofNat 5 (w / 0x10000))) (w % 4096 != 0)
  | 2 => .word (.tffr (BitVec.ofNat 5 (w / 0x200000)) (BitVec.ofNat 5 (w / 0x10000))) (w % 4096 != 0)
  | 3 => .word (.tclr (BitVec.ofNat 5 (w / 0x10000))) (w % 4096 != 0 || w / 0x200000 % 32 != 0)
  | 4 => .word (.tpln (BitVec.ofNat 5 (w / 0x200000)) (BitVec.ofNat 5 (w / 0x10000))) (w % 4096 != 0)
  | _ => .illOp

/-- Major 0x2B: R184. -/
def decodeMajor2B (w : Nat) : Raw :=
  .word (.waitc (BitVec.ofNat 4 (w / 0x1000)) (BitVec.ofNat 4 (w / 256)) (BitVec.ofNat 6 (w / 4)) (BitVec.ofNat 2 w)) (w / 0x10000 % 1024 != 0)

/-- Major 0x2C: R216. -/
def decodeMajor2C (w : Nat) : Raw :=
  match w % 4 with
  | 0 => .word (.pcmp (BitVec.ofNat 5 (w / 0x200000)) (BitVec.ofNat 5 (w / 0x10000)) (BitVec.ofNat 5 (w / 0x800)) (BitVec.ofNat 2 (w / 512))) (w / 4 % 128 != 0)
  | 1 => .word (.pwr (BitVec.ofNat 5 (w / 0x200000)) (BitVec.ofNat 5 (w / 0x10000)) (BitVec.ofNat 5 (w / 0x800)) (BitVec.ofNat 1 (w / 256))) (w / 4 % 64 != 0 || w / 512 % 4 != 0)
  | 2 => .word (.pcw (BitVec.ofNat 5 (w / 0x200000)) (BitVec.ofNat 5 (w / 0x10000)) (BitVec.ofNat 5 (w / 0x800)) (BitVec.ofNat 2 (w / 512))) (w / 4 % 128 != 0)
  | _ => .illOp

/-- Major 0x2D: R217. -/
def decodeMajor2D (w : Nat) : Raw :=
  .word (.pcol (BitVec.ofNat 11 (w / 0x8000)) (BitVec.ofNat 11 (w / 16)) (BitVec.ofNat 1 (w / 8))) (w % 8 != 0)

/-- Major 0x2E: R218, R219. -/
def decodeMajor2E (w : Nat) : Raw :=
  match w / 8388608 % 8 with
  | 0 => .word (.ptag (BitVec.ofNat 2 (w / 0x200000)) (BitVec.ofNat 2 (w / 0x80000)) (BitVec.ofNat 3 (w / 0x10000))) (w % 65536 != 0)
  | 1 => .word (.pshift (BitVec.ofNat 1 (w / 0x400000)) (BitVec.ofNat 5 (w / 0x20000)) (BitVec.ofNat 1 (w / 0x10000)) (BitVec.ofNat 11 (w / 32))) (w % 32 != 0)
  | _ => .illOp

/-- Major 0x2F: R220. -/
def decodeMajor2F (w : Nat) : Raw :=
  match w / 262144 % 8 with
  | 0 => .word (.pcnt (BitVec.ofNat 5 (w / 0x200000)) (BitVec.ofNat 11 (w / 128))) (w % 128 != 0)
  | 1 => .word (.pany (BitVec.ofNat 5 (w / 0x200000)) (BitVec.ofNat 11 (w / 128))) (w % 128 != 0)
  | 2 => .word (.pff (BitVec.ofNat 5 (w / 0x200000)) (BitVec.ofNat 11 (w / 128))) (w % 128 != 0)
  | _ => .illOp

/-- Major 0x30: R240. -/
def decodeMajor30 (w : Nat) : Raw :=
  match w % 32 with
  | 0 => .word (.vadd (BitVec.ofNat 5 (w / 0x200000)) (BitVec.ofNat 5 (w / 0x10000)) (BitVec.ofNat 5 (w / 0x800)) (BitVec.ofNat 4 (w / 128)) (BitVec.ofNat 1 (w / 64)) (BitVec.ofNat 1 (w / 32))) false
  | 1 => .word (.vsub (BitVec.ofNat 5 (w / 0x200000)) (BitVec.ofNat 5 (w / 0x10000)) (BitVec.ofNat 5 (w / 0x800)) (BitVec.ofNat 4 (w / 128)) (BitVec.ofNat 1 (w / 64)) (BitVec.ofNat 1 (w / 32))) false
  | 2 => .word (.vrsub (BitVec.ofNat 5 (w / 0x200000)) (BitVec.ofNat 5 (w / 0x10000)) (BitVec.ofNat 5 (w / 0x800)) (BitVec.ofNat 4 (w / 128)) (BitVec.ofNat 1 (w / 64)) (BitVec.ofNat 1 (w / 32))) false
  | 3 => .word (.vand (BitVec.ofNat 5 (w / 0x200000)) (BitVec.ofNat 5 (w / 0x10000)) (BitVec.ofNat 5 (w / 0x800)) (BitVec.ofNat 4 (w / 128)) (BitVec.ofNat 1 (w / 64))) (w / 32 % 2 != 0)
  | 4 => .word (.vor (BitVec.ofNat 5 (w / 0x200000)) (BitVec.ofNat 5 (w / 0x10000)) (BitVec.ofNat 5 (w / 0x800)) (BitVec.ofNat 4 (w / 128)) (BitVec.ofNat 1 (w / 64))) (w / 32 % 2 != 0)
  | 5 => .word (.vxor (BitVec.ofNat 5 (w / 0x200000)) (BitVec.ofNat 5 (w / 0x10000)) (BitVec.ofNat 5 (w / 0x800)) (BitVec.ofNat 4 (w / 128)) (BitVec.ofNat 1 (w / 64))) (w / 32 % 2 != 0)
  | 6 => .word (.vmin (BitVec.ofNat 5 (w / 0x200000)) (BitVec.ofNat 5 (w / 0x10000)) (BitVec.ofNat 5 (w / 0x800)) (BitVec.ofNat 4 (w / 128)) (BitVec.ofNat 1 (w / 64))) (w / 32 % 2 != 0)
  | 7 => .word (.vmax (BitVec.ofNat 5 (w / 0x200000)) (BitVec.ofNat 5 (w / 0x10000)) (BitVec.ofNat 5 (w / 0x800)) (BitVec.ofNat 4 (w / 128)) (BitVec.ofNat 1 (w / 64))) (w / 32 % 2 != 0)
  | _ => .illOp

/-- Major 0x31: R243, R244, R245. -/
def decodeMajor31 (w : Nat) : Raw :=
  match w % 32 with
  | 0 => .word (.vmul (BitVec.ofNat 5 (w / 0x200000)) (BitVec.ofNat 5 (w / 0x10000)) (BitVec.ofNat 5 (w / 0x800)) (BitVec.ofNat 4 (w / 128)) (BitVec.ofNat 1 (w / 64))) (w / 32 % 2 != 0)
  | 1 => .word (.vmacc (BitVec.ofNat 5 (w / 0x200000)) (BitVec.ofNat 5 (w / 0x10000)) (BitVec.ofNat 5 (w / 0x800)) (BitVec.ofNat 4 (w / 128)) (BitVec.ofNat 1 (w / 64))) (w / 32 % 2 != 0)
  | 2 => if w / 64 % 2 = 1 then .word (.vsll (BitVec.ofNat 5 (w / 0x200000)) (BitVec.ofNat 5 (w / 0x10000)) (BitVec.ofNat 5 (w / 0x800)) (BitVec.ofNat 4 (w / 128))) (w / 32 % 2 != 0) else .illOp
  | 3 => if w / 64 % 2 = 1 then .word (.vsrl (BitVec.ofNat 5 (w / 0x200000)) (BitVec.ofNat 5 (w / 0x10000)) (BitVec.ofNat 5 (w / 0x800)) (BitVec.ofNat 4 (w / 128))) (w / 32 % 2 != 0) else .illOp
  | 4 => if w / 64 % 2 = 1 then .word (.vsra (BitVec.ofNat 5 (w / 0x200000)) (BitVec.ofNat 5 (w / 0x10000)) (BitVec.ofNat 5 (w / 0x800)) (BitVec.ofNat 4 (w / 128))) (w / 32 % 2 != 0) else .illOp
  | 8 => .word (.vcmpEq (BitVec.ofNat 3 (w / 0x200000)) (BitVec.ofNat 5 (w / 0x10000)) (BitVec.ofNat 5 (w / 0x800)) (BitVec.ofNat 4 (w / 128)) (BitVec.ofNat 1 (w / 64))) (w / 32 % 2 != 0 || w / 0x1000000 % 4 != 0)
  | 9 => .word (.vcmpNe (BitVec.ofNat 3 (w / 0x200000)) (BitVec.ofNat 5 (w / 0x10000)) (BitVec.ofNat 5 (w / 0x800)) (BitVec.ofNat 4 (w / 128)) (BitVec.ofNat 1 (w / 64))) (w / 32 % 2 != 0 || w / 0x1000000 % 4 != 0)
  | 10 => .word (.vcmpLt (BitVec.ofNat 3 (w / 0x200000)) (BitVec.ofNat 5 (w / 0x10000)) (BitVec.ofNat 5 (w / 0x800)) (BitVec.ofNat 4 (w / 128)) (BitVec.ofNat 1 (w / 64))) (w / 32 % 2 != 0 || w / 0x1000000 % 4 != 0)
  | 11 => .word (.vcmpLe (BitVec.ofNat 3 (w / 0x200000)) (BitVec.ofNat 5 (w / 0x10000)) (BitVec.ofNat 5 (w / 0x800)) (BitVec.ofNat 4 (w / 128)) (BitVec.ofNat 1 (w / 64))) (w / 32 % 2 != 0 || w / 0x1000000 % 4 != 0)
  | 12 => .word (.vcmpGt (BitVec.ofNat 3 (w / 0x200000)) (BitVec.ofNat 5 (w / 0x10000)) (BitVec.ofNat 5 (w / 0x800)) (BitVec.ofNat 4 (w / 128)) (BitVec.ofNat 1 (w / 64))) (w / 32 % 2 != 0 || w / 0x1000000 % 4 != 0)
  | 13 => .word (.vcmpGe (BitVec.ofNat 3 (w / 0x200000)) (BitVec.ofNat 5 (w / 0x10000)) (BitVec.ofNat 5 (w / 0x800)) (BitVec.ofNat 4 (w / 128)) (BitVec.ofNat 1 (w / 64))) (w / 32 % 2 != 0 || w / 0x1000000 % 4 != 0)
  | _ => .illOp

/-- Major 0x32: R246, R247. -/
def decodeMajor32 (w : Nat) : Raw :=
  match w / 8 % 16 with
  | 0 => .word (.vfadd (BitVec.ofNat 5 (w / 0x200000)) (BitVec.ofNat 5 (w / 0x10000)) (BitVec.ofNat 5 (w / 0x800)) (BitVec.ofNat 4 (w / 128)) (BitVec.ofNat 3 w)) false
  | 1 => .word (.vfsub (BitVec.ofNat 5 (w / 0x200000)) (BitVec.ofNat 5 (w / 0x10000)) (BitVec.ofNat 5 (w / 0x800)) (BitVec.ofNat 4 (w / 128)) (BitVec.ofNat 3 w)) false
  | 2 => .word (.vfmul (BitVec.ofNat 5 (w / 0x200000)) (BitVec.ofNat 5 (w / 0x10000)) (BitVec.ofNat 5 (w / 0x800)) (BitVec.ofNat 4 (w / 128)) (BitVec.ofNat 3 w)) false
  | 3 => .word (.vfma (BitVec.ofNat 5 (w / 0x200000)) (BitVec.ofNat 5 (w / 0x10000)) (BitVec.ofNat 5 (w / 0x800)) (BitVec.ofNat 4 (w / 128)) (BitVec.ofNat 3 w)) false
  | 4 => .word (.vfmin (BitVec.ofNat 5 (w / 0x200000)) (BitVec.ofNat 5 (w / 0x10000)) (BitVec.ofNat 5 (w / 0x800)) (BitVec.ofNat 4 (w / 128))) (w % 8 != 0)
  | 5 => .word (.vfmax (BitVec.ofNat 5 (w / 0x200000)) (BitVec.ofNat 5 (w / 0x10000)) (BitVec.ofNat 5 (w / 0x800)) (BitVec.ofNat 4 (w / 128))) (w % 8 != 0)
  | 6 => .word (.vfneg (BitVec.ofNat 5 (w / 0x200000)) (BitVec.ofNat 5 (w / 0x10000)) (BitVec.ofNat 4 (w / 128))) (w % 8 != 0 || w / 0x800 % 32 != 0)
  | 7 => .word (.vfabs (BitVec.ofNat 5 (w / 0x200000)) (BitVec.ofNat 5 (w / 0x10000)) (BitVec.ofNat 4 (w / 128))) (w % 8 != 0 || w / 0x800 % 32 != 0)
  | 8 => .word (.vfcmpEq (BitVec.ofNat 3 (w / 0x200000)) (BitVec.ofNat 5 (w / 0x10000)) (BitVec.ofNat 5 (w / 0x800)) (BitVec.ofNat 4 (w / 128))) (w % 8 != 0 || w / 0x1000000 % 4 != 0)
  | 9 => .word (.vfcmpLt (BitVec.ofNat 3 (w / 0x200000)) (BitVec.ofNat 5 (w / 0x10000)) (BitVec.ofNat 5 (w / 0x800)) (BitVec.ofNat 4 (w / 128))) (w % 8 != 0 || w / 0x1000000 % 4 != 0)
  | 10 => .word (.vfcmpLe (BitVec.ofNat 3 (w / 0x200000)) (BitVec.ofNat 5 (w / 0x10000)) (BitVec.ofNat 5 (w / 0x800)) (BitVec.ofNat 4 (w / 128))) (w % 8 != 0 || w / 0x1000000 % 4 != 0)
  | 11 => .word (.vfaddX (BitVec.ofNat 5 (w / 0x200000)) (BitVec.ofNat 5 (w / 0x10000)) (BitVec.ofNat 5 (w / 0x800)) (BitVec.ofNat 4 (w / 128)) (BitVec.ofNat 3 w)) false
  | 12 => .word (.vfmulX (BitVec.ofNat 5 (w / 0x200000)) (BitVec.ofNat 5 (w / 0x10000)) (BitVec.ofNat 5 (w / 0x800)) (BitVec.ofNat 4 (w / 128)) (BitVec.ofNat 3 w)) false
  | 13 => .word (.vfmaX (BitVec.ofNat 5 (w / 0x200000)) (BitVec.ofNat 5 (w / 0x10000)) (BitVec.ofNat 5 (w / 0x800)) (BitVec.ofNat 4 (w / 128)) (BitVec.ofNat 3 w)) false
  | _ => .illOp

/-- Major 0x33: R250, R251, R252, R253, R254. -/
def decodeMajor33 (w : Nat) : Raw :=
  match w / 8 % 16 with
  | 0 => .word (.vcvt (BitVec.ofNat 5 (w / 0x200000)) (BitVec.ofNat 5 (w / 0x10000)) (BitVec.ofNat 4 (w / 0x800)) (BitVec.ofNat 4 (w / 128)) (BitVec.ofNat 3 w)) (w / 0x8000 % 2 != 0)
  | 1 => .word (.vqtb4 (BitVec.ofNat 5 (w / 0x200000)) (BitVec.ofNat 5 (w / 0x10000)) (BitVec.ofNat 5 (w / 0x800)) (BitVec.ofNat 4 (w / 128)) (BitVec.ofNat 3 w)) false
  | 2 => .word (.vqtb8 (BitVec.ofNat 5 (w / 0x200000)) (BitVec.ofNat 5 (w / 0x10000)) (BitVec.ofNat 5 (w / 0x800)) (BitVec.ofNat 4 (w / 128)) (BitVec.ofNat 3 w)) false
  | 3 => .word (.vdqtb4 (BitVec.ofNat 5 (w / 0x200000)) (BitVec.ofNat 5 (w / 0x10000)) (BitVec.ofNat 5 (w / 0x800)) (BitVec.ofNat 4 (w / 128)) (BitVec.ofNat 3 w)) false
  | 4 => .word (.vdqtb8 (BitVec.ofNat 5 (w / 0x200000)) (BitVec.ofNat 5 (w / 0x10000)) (BitVec.ofNat 5 (w / 0x800)) (BitVec.ofNat 4 (w / 128)) (BitVec.ofNat 3 w)) false
  | 5 => .word (.vexp2 (BitVec.ofNat 5 (w / 0x200000)) (BitVec.ofNat 5 (w / 0x10000)) (BitVec.ofNat 4 (w / 128)) (BitVec.ofNat 3 w)) (w / 0x800 % 32 != 0)
  | 6 => .word (.vrcp (BitVec.ofNat 5 (w / 0x200000)) (BitVec.ofNat 5 (w / 0x10000)) (BitVec.ofNat 4 (w / 128)) (BitVec.ofNat 3 w)) (w / 0x800 % 32 != 0)
  | 7 => .word (.vrsqrt (BitVec.ofNat 5 (w / 0x200000)) (BitVec.ofNat 5 (w / 0x10000)) (BitVec.ofNat 4 (w / 128)) (BitVec.ofNat 3 w)) (w / 0x800 % 32 != 0)
  | _ => .illOp

/-- Major 0x34: R257, R258, R259, R260. -/
def decodeMajor34 (w : Nat) : Raw :=
  match w / 8 % 16 with
  | 0 => .word (.vmv (BitVec.ofNat 5 (w / 0x200000)) (BitVec.ofNat 5 (w / 0x10000)) (BitVec.ofNat 4 (w / 128))) (w % 8 != 0 || w / 0x800 % 32 != 0)
  | 1 => .word (.vbcx (BitVec.ofNat 5 (w / 0x200000)) (BitVec.ofNat 5 (w / 0x10000)) (BitVec.ofNat 4 (w / 128))) (w % 8 != 0 || w / 0x800 % 32 != 0)
  | 2 => .word (.vbcr (BitVec.ofNat 5 (w / 0x200000)) (BitVec.ofNat 5 (w / 0x10000)) (BitVec.ofNat 5 (w / 0x800)) (BitVec.ofNat 4 (w / 128))) (w % 8 != 0)
  | 3 => .word (.vmvxr (BitVec.ofNat 5 (w / 0x200000)) (BitVec.ofNat 5 (w / 0x10000)) (BitVec.ofNat 5 (w / 0x800)) (BitVec.ofNat 4 (w / 128))) (w % 8 != 0)
  | 4 => .word (.vslideup (BitVec.ofNat 5 (w / 0x200000)) (BitVec.ofNat 5 (w / 0x10000)) (BitVec.ofNat 5 (w / 0x800)) (BitVec.ofNat 4 (w / 128)) (BitVec.ofNat 3 w)) false
  | 5 => .word (.vslidedn (BitVec.ofNat 5 (w / 0x200000)) (BitVec.ofNat 5 (w / 0x10000)) (BitVec.ofNat 5 (w / 0x800)) (BitVec.ofNat 4 (w / 128)) (BitVec.ofNat 3 w)) false
  | 6 => .word (.vcompress (BitVec.ofNat 5 (w / 0x200000)) (BitVec.ofNat 3 (w / 0x10000)) (BitVec.ofNat 4 (w / 128))) (w % 8 != 0 || w / 0x800 % 32 != 0 || w / 0x80000 % 4 != 0)
  | 7 => .word (.viota (BitVec.ofNat 5 (w / 0x200000)) (BitVec.ofNat 5 (w / 0x10000)) (BitVec.ofNat 4 (w / 128))) (w % 8 != 0 || w / 0x800 % 32 != 0)
  | _ => .illOp

/-- Major 0x35: R262, R263. -/
def decodeMajor35 (w : Nat) : Raw :=
  match w / 16 % 8 with
  | 0 => .word (.vrsum (BitVec.ofNat 5 (w / 0x200000)) (BitVec.ofNat 5 (w / 0x10000)) (BitVec.ofNat 4 (w / 128)) (BitVec.ofNat 1 (w / 8)) (BitVec.ofNat 3 w)) (w / 0x800 % 32 != 0)
  | 1 => .word (.vrmax (BitVec.ofNat 5 (w / 0x200000)) (BitVec.ofNat 5 (w / 0x10000)) (BitVec.ofNat 4 (w / 128)) (BitVec.ofNat 1 (w / 8)) (BitVec.ofNat 3 w)) (w / 0x800 % 32 != 0)
  | 2 => .word (.vrmin (BitVec.ofNat 5 (w / 0x200000)) (BitVec.ofNat 5 (w / 0x10000)) (BitVec.ofNat 4 (w / 128)) (BitVec.ofNat 1 (w / 8)) (BitVec.ofNat 3 w)) (w / 0x800 % 32 != 0)
  | 3 => if w / 8 % 2 = 0 then .word (.vscan (BitVec.ofNat 5 (w / 0x200000)) (BitVec.ofNat 5 (w / 0x10000)) (BitVec.ofNat 4 (w / 128)) (BitVec.ofNat 3 w)) (w / 0x800 % 32 != 0) else .illOp
  | 4 => if w / 8 % 2 = 0 then .word (.vscanmax (BitVec.ofNat 5 (w / 0x200000)) (BitVec.ofNat 5 (w / 0x10000)) (BitVec.ofNat 4 (w / 128)) (BitVec.ofNat 3 w)) (w / 0x800 % 32 != 0) else .illOp
  | 5 => if w / 8 % 2 = 0 then .word (.vscanmin (BitVec.ofNat 5 (w / 0x200000)) (BitVec.ofNat 5 (w / 0x10000)) (BitVec.ofNat 4 (w / 128)) (BitVec.ofNat 3 w)) (w / 0x800 % 32 != 0) else .illOp
  | _ => .illOp

/-- Major 0x36: R235, R237, R238. -/
def decodeMajor36 (w : Nat) : Raw :=
  match w / 4096 % 16 with
  | 0 => .word (.setvl (BitVec.ofNat 5 (w / 0x200000)) (BitVec.ofNat 5 (w / 0x10000))) (w % 4096 != 0)
  | 1 => .word (.setvlf (BitVec.ofNat 5 (w / 0x200000)) (BitVec.ofNat 5 (w / 0x10000)) (BitVec.ofNat 3 (w / 512)) (BitVec.ofNat 4 w)) (w / 16 % 32 != 0)
  | 2 => .word (.setvlre (BitVec.ofNat 5 (w / 0x200000)) (BitVec.ofNat 5 (w / 0x10000)) (BitVec.ofNat 4 w)) (w / 16 % 256 != 0)
  | _ => .illOp

/-- Major 0x38: R268, R269, R270. -/
def decodeMajor38 (w : Nat) : Raw :=
  match w / 16 % 8 with
  | 0 => .word (.vsrch (BitVec.ofNat 3 (w / 0x200000)) (BitVec.ofNat 5 (w / 0x10000)) (BitVec.ofNat 5 (w / 0x800)) (BitVec.ofNat 4 (w / 128)) (BitVec.ofNat 2 (w / 4))) (w % 4 != 0 || w / 0x1000000 % 4 != 0)
  | 1 => .word (.vham (BitVec.ofNat 5 (w / 0x200000)) (BitVec.ofNat 5 (w / 0x10000)) (BitVec.ofNat 5 (w / 0x800)) (BitVec.ofNat 4 (w / 128)) (BitVec.ofNat 2 (w / 4)) (BitVec.ofNat 1 (w / 2)) (BitVec.ofNat 1 w)) false
  | 2 => .word (.vtopk (BitVec.ofNat 3 (w / 0x200000)) (BitVec.ofNat 5 (w / 0x10000)) (BitVec.ofNat 5 (w / 0x800)) (BitVec.ofNat 4 (w / 128)) (BitVec.ofNat 1 (w / 8))) (w % 8 != 0 || w / 0x1000000 % 4 != 0)
  | _ => .illOp

/-- Major 0x39: R274, R276, R277. -/
def decodeMajor39 (w : Nat) : Raw :=
  match w / 2048 % 8 with
  | 0 => .word (.tkinit (BitVec.ofNat 5 (w / 0x10000)) (BitVec.ofNat 2 (w / 0x4000)) (BitVec.ofNat 1 (w / 0x400))) (w % 1024 != 0 || w / 0x200000 % 32 != 0)
  | 1 => .word (.tkins (BitVec.ofNat 5 (w / 0x200000)) (BitVec.ofNat 5 (w / 0x10000)) (BitVec.ofNat 2 (w / 0x4000)) (BitVec.ofNat 3 (w / 256)) (BitVec.ofNat 1 (w / 128))) (w % 128 != 0)
  | 2 => .word (.tkmrg (BitVec.ofNat 5 (w / 0x10000)) (BitVec.ofNat 2 (w / 0x4000)) (BitVec.ofNat 4 (w / 128))) (w % 128 != 0 || w / 0x200000 % 32 != 0)
  | 3 => .word (.tkrd (BitVec.ofNat 5 (w / 0x200000)) (BitVec.ofNat 5 (w / 0x10000)) (BitVec.ofNat 2 (w / 0x4000)) (BitVec.ofNat 4 (w / 128))) (w % 128 != 0)
  | 4 => .word (.tkthr (BitVec.ofNat 5 (w / 0x200000)) (BitVec.ofNat 2 (w / 0x4000)) (BitVec.ofNat 1 (w / 0x400))) (w % 1024 != 0 || w / 0x10000 % 32 != 0)
  | _ => .illOp

/-- Major 0x3A: R280, R283, R290, R291, R292. -/
def decodeMajor3A (w : Nat) : Raw :=
  match w / 16 % 8 with
  | 0 => .word (.vterm (BitVec.ofNat 5 (w / 0x200000)) (BitVec.ofNat 5 (w / 0x10000)) (BitVec.ofNat 5 (w / 0x800)) (BitVec.ofNat 4 (w / 128)) (BitVec.ofNat 4 w)) false
  | 1 => .word (.vdotv (BitVec.ofNat 5 (w / 0x200000)) (BitVec.ofNat 5 (w / 0x10000)) (BitVec.ofNat 4 (w / 128)) (BitVec.ofNat 2 (w / 4)) (BitVec.ofNat 2 w)) (w / 0x800 % 32 != 0)
  | 2 => .word (.vselv (BitVec.ofNat 5 (w / 0x200000)) (BitVec.ofNat 5 (w / 0x10000)) (BitVec.ofNat 5 (w / 0x800)) (BitVec.ofNat 4 (w / 128)) (BitVec.ofNat 2 (w / 4))) (w % 4 != 0)
  | 3 => .word (.vmaskv (BitVec.ofNat 3 (w / 0x200000)) (BitVec.ofNat 5 (w / 0x10000)) (BitVec.ofNat 4 (w / 128)) (BitVec.ofNat 3 (w / 2))) (w % 2 != 0 || w / 0x800 % 32 != 0 || w / 0x1000000 % 4 != 0)
  | 4 => .word (.vclrv (BitVec.ofNat 5 (w / 0x200000)) (BitVec.ofNat 5 (w / 0x10000)) (BitVec.ofNat 5 (w / 0x800)) (BitVec.ofNat 4 (w / 128))) (w % 16 != 0)
  | _ => .illOp

/-- Major 0x3C: R300, R303, R304, R306, R307, R309, R310, R311, R315, R317. -/
def decodeMajor3C (w : Nat) : Raw :=
  match w / 128 % 16 with
  | 0 => .word (.sbind (BitVec.ofNat 5 (w / 0x10000)) (BitVec.ofNat 4 (w / 4)) (BitVec.ofNat 2 w)) (w / 64 % 2 != 0 || w / 0x800 % 32 != 0 || w / 0x200000 % 32 != 0)
  | 1 => .word (.sldb (BitVec.ofNat 5 (w / 0x10000)) (BitVec.ofNat 4 (w / 2)) (BitVec.ofNat 1 w)) (w / 32 % 4 != 0 || w / 0x800 % 32 != 0 || w / 0x200000 % 32 != 0)
  | 2 => .word (.sldbg (BitVec.ofNat 5 (w / 0x10000)) (BitVec.ofNat 5 (w / 0x800)) (BitVec.ofNat 4 (w / 2)) (BitVec.ofNat 1 w)) (w / 32 % 4 != 0 || w / 0x200000 % 32 != 0)
  | 3 => .word (.stile (BitVec.ofNat 5 (w / 0x200000)) (BitVec.ofNat 1 w)) (w / 2 % 64 != 0 || w / 0x800 % 1024 != 0)
  | 4 => .word (.smma (BitVec.ofNat 5 (w / 0x10000)) (BitVec.ofNat 5 (w / 0x800))) (w % 128 != 0 || w / 0x200000 % 32 != 0)
  | 5 =>
    if w / 8 % 2 = 0 then .word (.sdrainScratch (BitVec.ofNat 5 (w / 0x10000)) (BitVec.ofNat 4 (w / 0x800)) (BitVec.ofNat 3 (w / 16)) (BitVec.ofNat 3 w)) (w / 0x8000 % 2 != 0 || w / 0x200000 % 32 != 0)
    else .word (.sdrainVreg (BitVec.ofNat 5 (w / 0x200000)) (BitVec.ofNat 4 (w / 0x800)) (BitVec.ofNat 3 (w / 16)) (BitVec.ofNat 3 w)) (w / 0x8000 % 64 != 0)
  | 6 => .word (.szero (BitVec.ofNat 1 (w / 8)) (BitVec.ofNat 3 w)) (w / 16 % 8 != 0 || w / 0x800 % 32768 != 0)
  | 7 => .word (.miter (BitVec.ofNat 5 (w / 0x200000)) (BitVec.ofNat 5 (w / 0x10000)) (BitVec.ofNat 1 (w / 32)) (BitVec.ofNat 1 (w / 16)) (BitVec.ofNat 1 (w / 8)) (BitVec.ofNat 1 (w / 4))) (w % 4 != 0 || w / 64 % 2 != 0 || w / 0x800 % 32 != 0)
  | 8 => .word (.mpoly (BitVec.ofNat 5 (w / 0x10000)) (BitVec.ofNat 1 (w / 4))) (w % 4 != 0 || w / 8 % 16 != 0 || w / 0x800 % 32 != 0 || w / 0x200000 % 32 != 0)
  | 9 => .word (.scoef (BitVec.ofNat 5 (w / 0x10000)) (BitVec.ofNat 3 w)) (w / 8 % 16 != 0 || w / 0x800 % 32 != 0 || w / 0x200000 % 32 != 0)
  | _ => .illOp

/-- Major 0x3D: R295. -/
def decodeMajor3D (w : Nat) : Raw :=
  match w / 4096 % 16 with
  | 0 => .word (.fork (BitVec.ofNat 5 (w / 0x200000)) (BitVec.ofNat 5 (w / 0x10000))) (w % 4096 != 0)
  | 1 =>
    if w % 2 = 0 then .word (.rdv) (w / 2 % 2048 != 0 || w / 65536 % 1024 != 0)
    else .word (.rdvEnd) (w / 2 % 2048 != 0 || w / 65536 % 1024 != 0)
  | _ => .illOp

/-- Major 0x3E: R343, R346, R347, R348, R351, R353, R354, R355, R356, R357, R358, R389. The fields d and a of TLBINV are operands
whatever its kind, so that every value of them decodes (log 107). -/
def decodeMajor3E (w : Nat) : Raw :=
  match w / 1024 % 64 with
  | 0 => .word (.bar (BitVec.ofNat 5 (w / 0x10000)) (BitVec.ofNat 3 (w / 128))) (w % 128 != 0 || w / 0x200000 % 32 != 0)
  | 1 => .word (.mbinit (BitVec.ofNat 5 (w / 0x200000)) (BitVec.ofNat 5 (w / 0x10000)) (BitVec.ofNat 1 (w / 512))) (w % 512 != 0)
  | 2 => .word (.mbarrive (BitVec.ofNat 5 (w / 0x10000)) (BitVec.ofNat 1 (w / 512)) (BitVec.ofNat 3 (w / 32))) (w % 32 != 0 || w / 256 % 2 != 0 || w / 0x200000 % 32 != 0)
  | 3 => .word (.mbexpect (BitVec.ofNat 5 (w / 0x200000)) (BitVec.ofNat 5 (w / 0x10000)) (BitVec.ofNat 1 (w / 512)) (BitVec.ofNat 3 (w / 32))) (w % 32 != 0 || w / 256 % 2 != 0)
  | 4 => .word (.mbarrivex (BitVec.ofNat 5 (w / 0x200000)) (BitVec.ofNat 5 (w / 0x10000)) (BitVec.ofNat 1 (w / 512)) (BitVec.ofNat 3 (w / 32))) (w % 32 != 0 || w / 256 % 2 != 0)
  | 5 => .word (.mbwait (BitVec.ofNat 5 (w / 0x200000)) (BitVec.ofNat 5 (w / 0x10000)) (BitVec.ofNat 1 (w / 512)) (BitVec.ofNat 1 (w / 256)) (BitVec.ofNat 3 (w / 32))) (w % 32 != 0)
  | 6 => .word (.mbtest (BitVec.ofNat 5 (w / 0x200000)) (BitVec.ofNat 5 (w / 0x10000)) (BitVec.ofNat 1 (w / 512)) (BitVec.ofNat 3 (w / 32))) (w % 32 != 0 || w / 256 % 2 != 0)
  | 7 => .word (.waitvEq (BitVec.ofNat 5 (w / 0x200000)) (BitVec.ofNat 5 (w / 0x10000)) (BitVec.ofNat 5 (w / 32)) (BitVec.ofNat 5 w)) false
  | 8 => .word (.waitvGe (BitVec.ofNat 5 (w / 0x200000)) (BitVec.ofNat 5 (w / 0x10000)) (BitVec.ofNat 5 (w / 32)) (BitVec.ofNat 5 w)) false
  | 9 => .word (.csrr (BitVec.ofNat 5 (w / 0x200000)) (BitVec.ofNat 10 w)) (w / 0x10000 % 32 != 0)
  | 10 => .word (.csrw (BitVec.ofNat 5 (w / 0x200000)) (BitVec.ofNat 5 (w / 0x10000)) (BitVec.ofNat 10 w)) false
  | 11 => .word (.csrs (BitVec.ofNat 5 (w / 0x200000)) (BitVec.ofNat 5 (w / 0x10000)) (BitVec.ofNat 10 w)) false
  | 12 => .word (.csrc (BitVec.ofNat 5 (w / 0x200000)) (BitVec.ofNat 5 (w / 0x10000)) (BitVec.ofNat 10 w)) false
  | 13 => .word (.svc (BitVec.ofNat 10 w)) (w / 0x10000 % 1024 != 0)
  | 14 => .word (.trap (BitVec.ofNat 10 w)) (w / 0x10000 % 1024 != 0)
  | 15 => .word (.bkpt (BitVec.ofNat 10 w)) (w / 0x10000 % 1024 != 0)
  | 16 => .word (.eret) (w % 1024 != 0 || w / 65536 % 1024 != 0)
  | 17 => .word (.yield) (w % 1024 != 0 || w / 65536 % 1024 != 0)
  | 18 => .word (.endHart) (w % 1024 != 0 || w / 65536 % 1024 != 0)
  | 19 => .word (.launch (BitVec.ofNat 5 (w / 0x200000)) (BitVec.ofNat 5 (w / 0x10000))) (w % 1024 != 0)
  | 20 => .word (.quiesce (BitVec.ofNat 5 (w / 0x200000)) (BitVec.ofNat 5 (w / 0x10000))) (w % 1024 != 0)
  | 21 => .word (.tlbinv (BitVec.ofNat 5 (w / 0x200000)) (BitVec.ofNat 5 (w / 0x10000)) (BitVec.ofNat 2 (w / 256))) (w % 256 != 0)
  | 22 =>
    if w % 2 = 0 then .word (.icinv) (w / 2 % 512 != 0 || w / 65536 % 1024 != 0)
    else .word (.icinvAll) (w / 2 % 512 != 0 || w / 65536 % 1024 != 0)
  | 23 => .word (.sdcinv) (w % 1024 != 0 || w / 65536 % 1024 != 0)
  | _ => .illOp

/-- Major 0x3F: R146. -/
def decodeMajor3F (w : Nat) : Raw :=
  .word (.pfx (BitVec.ofNat 3 (w / 0x800000)) (BitVec.ofNat 1 (w / 0x400000)) (BitVec.ofNat 1 (w / 0x200000)) (BitVec.ofNat 5 (w / 0x10000))) (w % 65536 != 0)


/-- The fields of a word, before the checks on their values (R138, R139, R143, R144). -/
def decodeFields (w : Nat) : Raw :=
  match w / 0x4000000 with
  | 1 => decodeMajor01 w
  | 2 => decodeMajor02 w
  | 3 => decodeMajor03 w
  | 4 => decodeMajor04 w
  | 5 => decodeMajor05 w
  | 6 => decodeMajor06 w
  | 7 => decodeMajor07 w
  | 8 => decodeMajor08 w
  | 9 => decodeMajor09 w
  | 10 => decodeMajor0A w
  | 11 => decodeMajor0B w
  | 16 => decodeMajor10 w
  | 17 => decodeMajor11 w
  | 18 => decodeMajor12 w
  | 19 => decodeMajor13 w
  | 20 => decodeMajor14 w
  | 21 => decodeMajor15 w
  | 24 => decodeMajor18 w
  | 25 => decodeMajor19 w
  | 26 => decodeMajor1A w
  | 27 => decodeMajor1B w
  | 28 => decodeMajor1C w
  | 29 => decodeMajor1D w
  | 32 => decodeMajor20 w
  | 33 => decodeMajor21 w
  | 34 => decodeMajor22 w
  | 35 => decodeMajor23 w
  | 36 => decodeMajor24 w
  | 37 => decodeMajor25 w
  | 38 => decodeMajor26 w
  | 40 => decodeMajor28 w
  | 41 => decodeMajor29 w
  | 42 => decodeMajor2A w
  | 43 => decodeMajor2B w
  | 44 => decodeMajor2C w
  | 45 => decodeMajor2D w
  | 46 => decodeMajor2E w
  | 47 => decodeMajor2F w
  | 48 => decodeMajor30 w
  | 49 => decodeMajor31 w
  | 50 => decodeMajor32 w
  | 51 => decodeMajor33 w
  | 52 => decodeMajor34 w
  | 53 => decodeMajor35 w
  | 54 => decodeMajor36 w
  | 56 => decodeMajor38 w
  | 57 => decodeMajor39 w
  | 58 => decodeMajor3A w
  | 60 => decodeMajor3C w
  | 61 => decodeMajor3D w
  | 62 => decodeMajor3E w
  | 63 => decodeMajor3F w
  | _ => .illOp

/-- The decoder: fields first, then the checks of R145 steps 1 and 2 in their order. -/
def decode (w : Nat) : Decoded :=
  if w = 0 then .illZero else
  match decodeFields w with
  | .illZero => .illZero
  | .illOp => .illOp
  | .word i reserved =>
    if i.illForm then .illOp
    else if reserved || i.rsvForm then .rsvfld
    else .ok i

/-- The word at four consecutive bytes, little-endian (R138). -/
def wordOfBytes (b0 b1 b2 b3 : Byte) : Nat :=
  b0.toNat + b1.toNat * 256 + b2.toNat * 65536 + b3.toNat * 16777216

/-- Decoding on bytes: total, with the bytes that are left; fewer than four bytes are no word. -/
def decodeBytes : List Byte → Option (Decoded × List Byte)
  | b0 :: b1 :: b2 :: b3 :: rest => some (decode (wordOfBytes b0 b1 b2 b3), rest)
  | _ => none

/-- The four bytes of a word in memory order (R138). -/
def bytesOfWord (w : Nat) : List Byte :=
  [BitVec.ofNat 8 w, BitVec.ofNat 8 (w / 256), BitVec.ofNat 8 (w / 0x10000), BitVec.ofNat 8 (w / 0x1000000)]

/-- The instruction that the decoder reads from a word of the opcode table, laid out as the hardware stores it. -/
def decodeTableWord (_nbits w : Nat) : Option Instr :=
  match decodeBytes (bytesOfWord w) with
  | some (.ok i, _) => some i
  | _ => none

/-- The instruction words among the constructors; the others are events. -/
def Instr.isWord : Instr → Bool
  | .add .. => true
  | .sub .. => true
  | .and .. => true
  | .or .. => true
  | .xor .. => true
  | .andn .. => true
  | .slt .. => true
  | .sltu .. => true
  | .seq .. => true
  | .sne .. => true
  | .min .. => true
  | .max .. => true
  | .minu .. => true
  | .maxu .. => true
  | .sll .. => true
  | .srl .. => true
  | .sra .. => true
  | .rol .. => true
  | .ror .. => true
  | .mul .. => true
  | .mulh .. => true
  | .mulhu .. => true
  | .div .. => true
  | .divu .. => true
  | .rem .. => true
  | .remu .. => true
  | .addi .. => true
  | .andi .. => true
  | .ori .. => true
  | .xori .. => true
  | .seqi .. => true
  | .snei .. => true
  | .slti .. => true
  | .sgei .. => true
  | .sltui .. => true
  | .sgeui .. => true
  | .slli .. => true
  | .srli .. => true
  | .srai .. => true
  | .rori .. => true
  | .bext .. => true
  | .bextu .. => true
  | .bins .. => true
  | .lui .. => true
  | .auipc .. => true
  | .beq .. => true
  | .bne .. => true
  | .blt .. => true
  | .bge .. => true
  | .bltu .. => true
  | .bgeu .. => true
  | .bmany .. => true
  | .bmnone .. => true
  | .bmall .. => true
  | .bmnall .. => true
  | .jal .. => true
  | .jalr .. => true
  | .smb .. => true
  | .smbsImm .. => true
  | .smbsReg .. => true
  | .ldN8 .. => true
  | .ldN16 .. => true
  | .ldN32 .. => true
  | .ldN64 .. => true
  | .ldI8 .. => true
  | .ldI16 .. => true
  | .ldI32 .. => true
  | .ldI64 .. => true
  | .stN8 .. => true
  | .stN16 .. => true
  | .stN32 .. => true
  | .stN64 .. => true
  | .ldpN8 .. => true
  | .ldpN16 .. => true
  | .ldpN32 .. => true
  | .ldpN64 .. => true
  | .ldpI8 .. => true
  | .ldpI16 .. => true
  | .ldpI32 .. => true
  | .ldpI64 .. => true
  | .amoadd .. => true
  | .amoand .. => true
  | .amoor .. => true
  | .amoxor .. => true
  | .amominI .. => true
  | .amomaxI .. => true
  | .amominN .. => true
  | .amomaxN .. => true
  | .amoswap .. => true
  | .amocas .. => true
  | .fence .. => true
  | .pref .. => true
  | .ldv .. => true
  | .stv .. => true
  | .ldvs .. => true
  | .stvs .. => true
  | .ldvl .. => true
  | .stvl .. => true
  | .ldpl .. => true
  | .stpl .. => true
  | .ldplm .. => true
  | .stplm .. => true
  | .vgath .. => true
  | .vgathNb .. => true
  | .vscat .. => true
  | .vgathNf .. => true
  | .kvldNf .. => true
  | .kvld .. => true
  | .kvst .. => true
  | .kvstT .. => true
  | .kvapp .. => true
  | .kvappT .. => true
  | .kvfold .. => true
  | .kvfoldT .. => true
  | .cpy .. => true
  | .cpym .. => true
  | .cpyr .. => true
  | .cpyg .. => true
  | .twaitany .. => true
  | .twaitall .. => true
  | .tffr .. => true
  | .tclr .. => true
  | .tpln .. => true
  | .waitc .. => true
  | .pcmp .. => true
  | .pwr .. => true
  | .pcw .. => true
  | .pcol .. => true
  | .ptag .. => true
  | .pshift .. => true
  | .pcnt .. => true
  | .pany .. => true
  | .pff .. => true
  | .vadd .. => true
  | .vsub .. => true
  | .vrsub .. => true
  | .vand .. => true
  | .vor .. => true
  | .vxor .. => true
  | .vmin .. => true
  | .vmax .. => true
  | .vmul .. => true
  | .vmacc .. => true
  | .vsll .. => true
  | .vsrl .. => true
  | .vsra .. => true
  | .vcmpEq .. => true
  | .vcmpNe .. => true
  | .vcmpLt .. => true
  | .vcmpLe .. => true
  | .vcmpGt .. => true
  | .vcmpGe .. => true
  | .vfadd .. => true
  | .vfsub .. => true
  | .vfmul .. => true
  | .vfma .. => true
  | .vfmin .. => true
  | .vfmax .. => true
  | .vfneg .. => true
  | .vfabs .. => true
  | .vfcmpEq .. => true
  | .vfcmpLt .. => true
  | .vfcmpLe .. => true
  | .vfaddX .. => true
  | .vfmulX .. => true
  | .vfmaX .. => true
  | .vcvt .. => true
  | .vqtb4 .. => true
  | .vqtb8 .. => true
  | .vdqtb4 .. => true
  | .vdqtb8 .. => true
  | .vexp2 .. => true
  | .vrcp .. => true
  | .vrsqrt .. => true
  | .vmv .. => true
  | .vbcx .. => true
  | .vbcr .. => true
  | .vmvxr .. => true
  | .vslideup .. => true
  | .vslidedn .. => true
  | .vcompress .. => true
  | .viota .. => true
  | .vrsum .. => true
  | .vrmax .. => true
  | .vrmin .. => true
  | .vscan .. => true
  | .vscanmax .. => true
  | .vscanmin .. => true
  | .setvl .. => true
  | .setvlf .. => true
  | .setvlre .. => true
  | .vsrch .. => true
  | .vham .. => true
  | .vtopk .. => true
  | .tkinit .. => true
  | .tkins .. => true
  | .tkmrg .. => true
  | .tkrd .. => true
  | .tkthr .. => true
  | .vterm .. => true
  | .vdotv .. => true
  | .vselv .. => true
  | .vmaskv .. => true
  | .vclrv .. => true
  | .sbind .. => true
  | .sldb .. => true
  | .sldbg .. => true
  | .stile .. => true
  | .smma .. => true
  | .sdrainScratch .. => true
  | .sdrainVreg .. => true
  | .szero .. => true
  | .miter .. => true
  | .mpoly .. => true
  | .scoef .. => true
  | .fork .. => true
  | .rdv => true
  | .rdvEnd => true
  | .bar .. => true
  | .mbinit .. => true
  | .mbarrive .. => true
  | .mbexpect .. => true
  | .mbarrivex .. => true
  | .mbwait .. => true
  | .mbtest .. => true
  | .waitvEq .. => true
  | .waitvGe .. => true
  | .csrr .. => true
  | .csrw .. => true
  | .csrs .. => true
  | .csrc .. => true
  | .svc .. => true
  | .trap .. => true
  | .bkpt .. => true
  | .eret => true
  | .yield => true
  | .endHart => true
  | .launch .. => true
  | .quiesce .. => true
  | .tlbinv .. => true
  | .icinv => true
  | .icinvAll => true
  | .sdcinv => true
  | .pfx .. => true
  | .copyComplete .. => false
  | .gatherElementArrive .. => false
  | .planeSlotDelivered .. => false
  | .slabOpComplete .. => false
  | .bLoadComplete .. => false
  | .tkmrgComplete .. => false
  | .pageInComplete .. => false
  | .walkStart .. => false
  | .kvappWaitRetry .. => false
  | .waitvPoll .. => false
  | .ringHeadPoll .. => false
  | .queueKick .. => false
  | .queueEnable .. => false
  | .queueDisable .. => false
  | .queueSlotRetry .. => false
  | .queueStall .. => false
  | .launchRecordTake .. => false
  | .codeObjectLoad .. => false
  | .launchWaitPoll .. => false
  | .placementDecision => false
  | .coreReservation => false
  | .launchComplete .. => false
  | .preemptqWrite .. => false
  | .gangSave .. => false
  | .gangRestore .. => false
  | .dqflush .. => false
  | .debugHalt .. => false
  | .debugResume .. => false
  | .semacqRead .. => false
  | .semrelWrite .. => false
  | .semtimeWrite .. => false
  | .semstatWrite .. => false
  | .semaphoreExpiry .. => false
  | .podidWrite .. => false
  | .mctrlReset .. => false
  | .testctlWrite .. => false
  | .pgrqWrite .. => false
  | .registerWrite .. => false
  | .bar2Read .. => false
  | .bar2Write .. => false
  | .arrive .. => false
  | .depart .. => false
  | .refuse .. => false
  | .podArriveSend .. => false
  | .hostLinkDown .. => false
  | .hostLinkUp .. => false
  | .moduleReset => false
  | .bootStage .. => false
  | .getVersion .. => false
  | .getCapabilities .. => false
  | .negotiateAlgorithms .. => false
  | .getDigests .. => false
  | .getCertificate .. => false
  | .challenge .. => false
  | .getMeasurements .. => false
  | .spdmUnsupportedRequest .. => false
  | .mctpReadMsense .. => false
  | .mctpReadBootstat .. => false
  | .mctpReadLog .. => false
  | .mctpHaltRequest .. => false
  | .governorUpdate .. => false
  | .powerRecoveryEnter .. => false
  | .powerRecoveryExit .. => false
  | .powerTokenPass .. => false
  | .thermalThrottle .. => false
  | .thermalRelease .. => false
  | .thermalReset .. => false
  | .illegalWord .. => false
  | .ctxpartWrite .. => false
  | .containedHardwareError .. => false
  | .peerPortLinkUp .. => false

/-- The word of an instruction (R139, R146 and the minor maps); an event has none, and 0 stands for that. -/
def encode : Instr → Nat
  | .add d a b => 0x04000000 + d.toNat * 0x200000 + a.toNat * 0x10000 + b.toNat * 0x800
  | .sub d a b => 0x04000001 + d.toNat * 0x200000 + a.toNat * 0x10000 + b.toNat * 0x800
  | .and d a b => 0x04000002 + d.toNat * 0x200000 + a.toNat * 0x10000 + b.toNat * 0x800
  | .or d a b => 0x04000003 + d.toNat * 0x200000 + a.toNat * 0x10000 + b.toNat * 0x800
  | .xor d a b => 0x04000004 + d.toNat * 0x200000 + a.toNat * 0x10000 + b.toNat * 0x800
  | .andn d a b => 0x04000005 + d.toNat * 0x200000 + a.toNat * 0x10000 + b.toNat * 0x800
  | .slt d a b => 0x04000006 + d.toNat * 0x200000 + a.toNat * 0x10000 + b.toNat * 0x800
  | .sltu d a b => 0x04000007 + d.toNat * 0x200000 + a.toNat * 0x10000 + b.toNat * 0x800
  | .seq d a b => 0x04000008 + d.toNat * 0x200000 + a.toNat * 0x10000 + b.toNat * 0x800
  | .sne d a b => 0x04000009 + d.toNat * 0x200000 + a.toNat * 0x10000 + b.toNat * 0x800
  | .min d a b => 0x0400000A + d.toNat * 0x200000 + a.toNat * 0x10000 + b.toNat * 0x800
  | .max d a b => 0x0400000B + d.toNat * 0x200000 + a.toNat * 0x10000 + b.toNat * 0x800
  | .minu d a b => 0x0400000C + d.toNat * 0x200000 + a.toNat * 0x10000 + b.toNat * 0x800
  | .maxu d a b => 0x0400000D + d.toNat * 0x200000 + a.toNat * 0x10000 + b.toNat * 0x800
  | .sll d a b => 0x08000000 + d.toNat * 0x200000 + a.toNat * 0x10000 + b.toNat * 0x800
  | .srl d a b => 0x08000001 + d.toNat * 0x200000 + a.toNat * 0x10000 + b.toNat * 0x800
  | .sra d a b => 0x08000002 + d.toNat * 0x200000 + a.toNat * 0x10000 + b.toNat * 0x800
  | .rol d a b => 0x08000003 + d.toNat * 0x200000 + a.toNat * 0x10000 + b.toNat * 0x800
  | .ror d a b => 0x08000004 + d.toNat * 0x200000 + a.toNat * 0x10000 + b.toNat * 0x800
  | .mul d a b => 0x0C000000 + d.toNat * 0x200000 + a.toNat * 0x10000 + b.toNat * 0x800
  | .mulh d a b => 0x0C000001 + d.toNat * 0x200000 + a.toNat * 0x10000 + b.toNat * 0x800
  | .mulhu d a b => 0x0C000002 + d.toNat * 0x200000 + a.toNat * 0x10000 + b.toNat * 0x800
  | .div d a b => 0x0C000003 + d.toNat * 0x200000 + a.toNat * 0x10000 + b.toNat * 0x800
  | .divu d a b => 0x0C000004 + d.toNat * 0x200000 + a.toNat * 0x10000 + b.toNat * 0x800
  | .rem d a b => 0x0C000005 + d.toNat * 0x200000 + a.toNat * 0x10000 + b.toNat * 0x800
  | .remu d a b => 0x0C000006 + d.toNat * 0x200000 + a.toNat * 0x10000 + b.toNat * 0x800
  | .addi d a imm => 0x10000000 + d.toNat * 0x200000 + a.toNat * 0x10000 + imm.toNat
  | .andi d a imm => 0x14000000 + d.toNat * 0x200000 + a.toNat * 0x10000 + imm.toNat
  | .ori d a imm => 0x18000000 + d.toNat * 0x200000 + a.toNat * 0x10000 + imm.toNat
  | .xori d a imm => 0x1C000000 + d.toNat * 0x200000 + a.toNat * 0x10000 + imm.toNat
  | .seqi d a imm => 0x20000000 + d.toNat * 0x200000 + a.toNat * 0x10000 + imm.toNat
  | .snei d a imm => 0x20002000 + d.toNat * 0x200000 + a.toNat * 0x10000 + imm.toNat
  | .slti d a imm => 0x20004000 + d.toNat * 0x200000 + a.toNat * 0x10000 + imm.toNat
  | .sgei d a imm => 0x20006000 + d.toNat * 0x200000 + a.toNat * 0x10000 + imm.toNat
  | .sltui d a imm => 0x20008000 + d.toNat * 0x200000 + a.toNat * 0x10000 + imm.toNat
  | .sgeui d a imm => 0x2000A000 + d.toNat * 0x200000 + a.toNat * 0x10000 + imm.toNat
  | .slli d a sf => 0x24000000 + d.toNat * 0x200000 + a.toNat * 0x10000 + sf.toNat
  | .srli d a sf => 0x24001000 + d.toNat * 0x200000 + a.toNat * 0x10000 + sf.toNat
  | .srai d a sf => 0x24002000 + d.toNat * 0x200000 + a.toNat * 0x10000 + sf.toNat
  | .rori d a sf => 0x24003000 + d.toNat * 0x200000 + a.toNat * 0x10000 + sf.toNat
  | .bext d a p l => 0x24004000 + d.toNat * 0x200000 + a.toNat * 0x10000 + p.toNat * 64 + l.toNat
  | .bextu d a p l => 0x24005000 + d.toNat * 0x200000 + a.toNat * 0x10000 + p.toNat * 64 + l.toNat
  | .bins d a p l => 0x24006000 + d.toNat * 0x200000 + a.toNat * 0x10000 + p.toNat * 64 + l.toNat
  | .lui d imm => 0x28000000 + d.toNat * 0x200000 + imm.toNat
  | .auipc d imm => 0x2C000000 + d.toNat * 0x200000 + imm.toNat
  | .beq a b f => 0x40000000 + a.toNat * 0x200000 + b.toNat * 0x10000 + f.toNat
  | .bne a b f => 0x40002000 + a.toNat * 0x200000 + b.toNat * 0x10000 + f.toNat
  | .blt a b f => 0x40004000 + a.toNat * 0x200000 + b.toNat * 0x10000 + f.toNat
  | .bge a b f => 0x40006000 + a.toNat * 0x200000 + b.toNat * 0x10000 + f.toNat
  | .bltu a b f => 0x40008000 + a.toNat * 0x200000 + b.toNat * 0x10000 + f.toNat
  | .bgeu a b f => 0x4000A000 + a.toNat * 0x200000 + b.toNat * 0x10000 + f.toNat
  | .bmany k f => 0x44000000 + k.toNat * 0x200000 + f.toNat
  | .bmnone k f => 0x44002000 + k.toNat * 0x200000 + f.toNat
  | .bmall k f => 0x44004000 + k.toNat * 0x200000 + f.toNat
  | .bmnall k f => 0x44006000 + k.toNat * 0x200000 + f.toNat
  | .jal d f => 0x48000000 + d.toNat * 0x200000 + f.toNat
  | .jalr d a imm => 0x4C000000 + d.toNat * 0x200000 + a.toNat * 0x10000 + imm.toNat
  | .smb c a n f => 0x50000000 + c.toNat * 0x200000 + a.toNat * 0x10000 + n.toNat * 0x2000 + f.toNat
  | .smbsImm sf imm => 0x54008000 + sf.toNat * 0x200000 + imm.toNat
  | .smbsReg sf a => 0x54000000 + sf.toNat * 0x200000 + a.toNat * 0x10000
  | .ldN8 d b c f => 0x60000000 + d.toNat * 0x200000 + b.toNat * 0x10000 + c.toNat * 0x1000 + f.toNat
  | .ldN16 d b c f => 0x60000100 + d.toNat * 0x200000 + b.toNat * 0x10000 + c.toNat * 0x1000 + f.toNat
  | .ldN32 d b c f => 0x60000200 + d.toNat * 0x200000 + b.toNat * 0x10000 + c.toNat * 0x1000 + f.toNat
  | .ldN64 d b c f => 0x60000300 + d.toNat * 0x200000 + b.toNat * 0x10000 + c.toNat * 0x1000 + f.toNat
  | .ldI8 d b c f => 0x60000400 + d.toNat * 0x200000 + b.toNat * 0x10000 + c.toNat * 0x1000 + f.toNat
  | .ldI16 d b c f => 0x60000500 + d.toNat * 0x200000 + b.toNat * 0x10000 + c.toNat * 0x1000 + f.toNat
  | .ldI32 d b c f => 0x60000600 + d.toNat * 0x200000 + b.toNat * 0x10000 + c.toNat * 0x1000 + f.toNat
  | .ldI64 d b c f => 0x60000700 + d.toNat * 0x200000 + b.toNat * 0x10000 + c.toNat * 0x1000 + f.toNat
  | .stN8 d b c f => 0x64000000 + d.toNat * 0x200000 + b.toNat * 0x10000 + c.toNat * 0x1000 + f.toNat
  | .stN16 d b c f => 0x64000100 + d.toNat * 0x200000 + b.toNat * 0x10000 + c.toNat * 0x1000 + f.toNat
  | .stN32 d b c f => 0x64000200 + d.toNat * 0x200000 + b.toNat * 0x10000 + c.toNat * 0x1000 + f.toNat
  | .stN64 d b c f => 0x64000300 + d.toNat * 0x200000 + b.toNat * 0x10000 + c.toNat * 0x1000 + f.toNat
  | .ldpN8 d b w f => 0x68000000 + d.toNat * 0x200000 + b.toNat * 0x10000 + w.toNat * 0x1000 + f.toNat
  | .ldpN16 d b w f => 0x68000100 + d.toNat * 0x200000 + b.toNat * 0x10000 + w.toNat * 0x1000 + f.toNat
  | .ldpN32 d b w f => 0x68000200 + d.toNat * 0x200000 + b.toNat * 0x10000 + w.toNat * 0x1000 + f.toNat
  | .ldpN64 d b w f => 0x68000300 + d.toNat * 0x200000 + b.toNat * 0x10000 + w.toNat * 0x1000 + f.toNat
  | .ldpI8 d b w f => 0x68000400 + d.toNat * 0x200000 + b.toNat * 0x10000 + w.toNat * 0x1000 + f.toNat
  | .ldpI16 d b w f => 0x68000500 + d.toNat * 0x200000 + b.toNat * 0x10000 + w.toNat * 0x1000 + f.toNat
  | .ldpI32 d b w f => 0x68000600 + d.toNat * 0x200000 + b.toNat * 0x10000 + w.toNat * 0x1000 + f.toNat
  | .ldpI64 d b w f => 0x68000700 + d.toNat * 0x200000 + b.toNat * 0x10000 + w.toNat * 0x1000 + f.toNat
  | .amoadd d a b z o q => 0x6C000000 + d.toNat * 0x200000 + a.toNat * 0x10000 + b.toNat * 0x800 + z.toNat * 64 + o.toNat * 16 + q.toNat
  | .amoand d a b z o q => 0x6C000080 + d.toNat * 0x200000 + a.toNat * 0x10000 + b.toNat * 0x800 + z.toNat * 64 + o.toNat * 16 + q.toNat
  | .amoor d a b z o q => 0x6C000100 + d.toNat * 0x200000 + a.toNat * 0x10000 + b.toNat * 0x800 + z.toNat * 64 + o.toNat * 16 + q.toNat
  | .amoxor d a b z o q => 0x6C000180 + d.toNat * 0x200000 + a.toNat * 0x10000 + b.toNat * 0x800 + z.toNat * 64 + o.toNat * 16 + q.toNat
  | .amominI d a b z o q => 0x6C000200 + d.toNat * 0x200000 + a.toNat * 0x10000 + b.toNat * 0x800 + z.toNat * 64 + o.toNat * 16 + q.toNat
  | .amomaxI d a b z o q => 0x6C000280 + d.toNat * 0x200000 + a.toNat * 0x10000 + b.toNat * 0x800 + z.toNat * 64 + o.toNat * 16 + q.toNat
  | .amominN d a b z o q => 0x6C000300 + d.toNat * 0x200000 + a.toNat * 0x10000 + b.toNat * 0x800 + z.toNat * 64 + o.toNat * 16 + q.toNat
  | .amomaxN d a b z o q => 0x6C000380 + d.toNat * 0x200000 + a.toNat * 0x10000 + b.toNat * 0x800 + z.toNat * 64 + o.toNat * 16 + q.toNat
  | .amoswap d a b z o q => 0x6C000400 + d.toNat * 0x200000 + a.toNat * 0x10000 + b.toNat * 0x800 + z.toNat * 64 + o.toNat * 16 + q.toNat
  | .amocas d a b z o q => 0x6C000480 + d.toNat * 0x200000 + a.toNat * 0x10000 + b.toNat * 0x800 + z.toNat * 64 + o.toNat * 16 + q.toNat
  | .fence k sf m => 0x70000000 + k.toNat * 0x1000000 + sf.toNat * 0x200000 + m.toNat
  | .pref p t b w f => 0x74000000 + p.toNat * 0x800000 + t.toNat * 0x200000 + b.toNat * 0x10000 + w.toNat * 256 + f.toNat
  | .ldv d a e c => 0x80000000 + d.toNat * 0x200000 + a.toNat * 0x10000 + e.toNat * 128 + c.toNat * 4
  | .stv d a e c => 0x80000040 + d.toNat * 0x200000 + a.toNat * 0x10000 + e.toNat * 128 + c.toNat * 4
  | .ldvs d a b e c => 0x84000000 + d.toNat * 0x200000 + a.toNat * 0x10000 + b.toNat * 0x800 + e.toNat * 128 + c.toNat * 4
  | .stvs d a b e c => 0x84000040 + d.toNat * 0x200000 + a.toNat * 0x10000 + b.toNat * 0x800 + e.toNat * 128 + c.toNat * 4
  | .ldvl d a e => 0x88000000 + d.toNat * 0x200000 + a.toNat * 0x10000 + e.toNat * 128
  | .stvl d a e => 0x88000040 + d.toNat * 0x200000 + a.toNat * 0x10000 + e.toNat * 128
  | .ldpl d a b c g => 0x8C000000 + d.toNat * 0x200000 + a.toNat * 0x10000 + b.toNat * 0x800 + c.toNat * 4 + g.toNat * 2
  | .stpl d a b c g => 0x8C000040 + d.toNat * 0x200000 + a.toNat * 0x10000 + b.toNat * 0x800 + c.toNat * 4 + g.toNat * 2
  | .ldplm k a c => 0x8C000001 + k.toNat * 0x200000 + a.toNat * 0x10000 + c.toNat * 4
  | .stplm k a c => 0x8C000041 + k.toNat * 0x200000 + a.toNat * 0x10000 + c.toNat * 4
  | .vgath d a b e c w => 0x90000000 + d.toNat * 0x200000 + a.toNat * 0x10000 + b.toNat * 0x800 + e.toNat * 128 + c.toNat * 4 + w.toNat * 2
  | .vgathNb d a b e c w => 0x90000001 + d.toNat * 0x200000 + a.toNat * 0x10000 + b.toNat * 0x800 + e.toNat * 128 + c.toNat * 4 + w.toNat * 2
  | .vscat d a b e c w => 0x90000040 + d.toNat * 0x200000 + a.toNat * 0x10000 + b.toNat * 0x800 + e.toNat * 128 + c.toNat * 4 + w.toNat * 2
  | .vgathNf d a b e c w n => 0x98000000 + d.toNat * 0x200000 + a.toNat * 0x10000 + b.toNat * 0x800 + e.toNat * 128 + c.toNat * 4 + w.toNat * 2 + n.toNat
  | .kvldNf d a v t => 0x98000040 + d.toNat * 0x200000 + a.toNat * 0x10000 + v.toNat * 128 + t.toNat
  | .kvld d a t v c => 0x94000000 + d.toNat * 0x200000 + a.toNat * 0x10000 + t.toNat * 64 + v.toNat * 32 + c.toNat * 2
  | .kvst d a c => 0x94001000 + d.toNat * 0x200000 + a.toNat * 0x10000 + c.toNat
  | .kvstT d a c => 0x94002000 + d.toNat * 0x200000 + a.toNat * 0x10000 + c.toNat
  | .kvapp d a c => 0x94003000 + d.toNat * 0x200000 + a.toNat * 0x10000 + c.toNat
  | .kvappT d a c => 0x94004000 + d.toNat * 0x200000 + a.toNat * 0x10000 + c.toNat
  | .kvfold d a c => 0x94005000 + d.toNat * 0x200000 + a.toNat * 0x10000 + c.toNat
  | .kvfoldT d a c => 0x94006000 + d.toNat * 0x200000 + a.toNat * 0x10000 + c.toNat
  | .cpy d a n t p sf m => 0xA0000000 + d.toNat * 0x200000 + a.toNat * 0x10000 + n.toNat * 512 + t.toNat * 8 + p.toNat * 4 + sf.toNat * 2 + m.toNat
  | .cpym d a n t p sf m => 0xA0004000 + d.toNat * 0x200000 + a.toNat * 0x10000 + n.toNat * 512 + t.toNat * 8 + p.toNat * 4 + sf.toNat * 2 + m.toNat
  | .cpyr d a n t p sf m => 0xA0008000 + d.toNat * 0x200000 + a.toNat * 0x10000 + n.toNat * 512 + t.toNat * 8 + p.toNat * 4 + sf.toNat * 2 + m.toNat
  | .cpyg d a imm t w m => 0xA4000000 + d.toNat * 0x200000 + a.toNat * 0x10000 + imm.toNat * 0x800 + t.toNat * 32 + w.toNat * 16 + m.toNat * 8
  | .twaitany d a => 0xA8000000 + d.toNat * 0x200000 + a.toNat * 0x10000
  | .twaitall d a => 0xA8001000 + d.toNat * 0x200000 + a.toNat * 0x10000
  | .tffr d a => 0xA8002000 + d.toNat * 0x200000 + a.toNat * 0x10000
  | .tclr a => 0xA8003000 + a.toNat * 0x10000
  | .tpln d a => 0xA8004000 + d.toNat * 0x200000 + a.toNat * 0x10000
  | .waitc l sf c t => 0xAC000000 + l.toNat * 0x1000 + sf.toNat * 256 + c.toNat * 4 + t.toNat
  | .pcmp k m c t => 0xB0000000 + k.toNat * 0x200000 + m.toNat * 0x10000 + c.toNat * 0x800 + t.toNat * 512
  | .pwr k m c l => 0xB0000001 + k.toNat * 0x200000 + m.toNat * 0x10000 + c.toNat * 0x800 + l.toNat * 256
  | .pcw k m c t => 0xB0000002 + k.toNat * 0x200000 + m.toNat * 0x10000 + c.toNat * 0x800 + t.toNat * 512
  | .pcol d sf imm => 0xB4000000 + d.toNat * 0x8000 + sf.toNat * 16 + imm.toNat * 8
  | .ptag d sf f => 0xB8000000 + d.toNat * 0x200000 + sf.toNat * 0x80000 + f.toNat * 0x10000
  | .pshift r j f sf => 0xB8800000 + r.toNat * 0x400000 + j.toNat * 0x20000 + f.toNat * 0x10000 + sf.toNat * 32
  | .pcnt d sf => 0xBC000000 + d.toNat * 0x200000 + sf.toNat * 128
  | .pany d sf => 0xBC040000 + d.toNat * 0x200000 + sf.toNat * 128
  | .pff d sf => 0xBC080000 + d.toNat * 0x200000 + sf.toNat * 128
  | .vadd d a b e x sf => 0xC0000000 + d.toNat * 0x200000 + a.toNat * 0x10000 + b.toNat * 0x800 + e.toNat * 128 + x.toNat * 64 + sf.toNat * 32
  | .vsub d a b e x sf => 0xC0000001 + d.toNat * 0x200000 + a.toNat * 0x10000 + b.toNat * 0x800 + e.toNat * 128 + x.toNat * 64 + sf.toNat * 32
  | .vrsub d a b e x sf => 0xC0000002 + d.toNat * 0x200000 + a.toNat * 0x10000 + b.toNat * 0x800 + e.toNat * 128 + x.toNat * 64 + sf.toNat * 32
  | .vand d a b e x => 0xC0000003 + d.toNat * 0x200000 + a.toNat * 0x10000 + b.toNat * 0x800 + e.toNat * 128 + x.toNat * 64
  | .vor d a b e x => 0xC0000004 + d.toNat * 0x200000 + a.toNat * 0x10000 + b.toNat * 0x800 + e.toNat * 128 + x.toNat * 64
  | .vxor d a b e x => 0xC0000005 + d.toNat * 0x200000 + a.toNat * 0x10000 + b.toNat * 0x800 + e.toNat * 128 + x.toNat * 64
  | .vmin d a b e x => 0xC0000006 + d.toNat * 0x200000 + a.toNat * 0x10000 + b.toNat * 0x800 + e.toNat * 128 + x.toNat * 64
  | .vmax d a b e x => 0xC0000007 + d.toNat * 0x200000 + a.toNat * 0x10000 + b.toNat * 0x800 + e.toNat * 128 + x.toNat * 64
  | .vmul d a b e x => 0xC4000000 + d.toNat * 0x200000 + a.toNat * 0x10000 + b.toNat * 0x800 + e.toNat * 128 + x.toNat * 64
  | .vmacc d a b e x => 0xC4000001 + d.toNat * 0x200000 + a.toNat * 0x10000 + b.toNat * 0x800 + e.toNat * 128 + x.toNat * 64
  | .vsll d a b e => 0xC4000042 + d.toNat * 0x200000 + a.toNat * 0x10000 + b.toNat * 0x800 + e.toNat * 128
  | .vsrl d a b e => 0xC4000043 + d.toNat * 0x200000 + a.toNat * 0x10000 + b.toNat * 0x800 + e.toNat * 128
  | .vsra d a b e => 0xC4000044 + d.toNat * 0x200000 + a.toNat * 0x10000 + b.toNat * 0x800 + e.toNat * 128
  | .vcmpEq k a b e x => 0xC4000008 + k.toNat * 0x200000 + a.toNat * 0x10000 + b.toNat * 0x800 + e.toNat * 128 + x.toNat * 64
  | .vcmpNe k a b e x => 0xC4000009 + k.toNat * 0x200000 + a.toNat * 0x10000 + b.toNat * 0x800 + e.toNat * 128 + x.toNat * 64
  | .vcmpLt k a b e x => 0xC400000A + k.toNat * 0x200000 + a.toNat * 0x10000 + b.toNat * 0x800 + e.toNat * 128 + x.toNat * 64
  | .vcmpLe k a b e x => 0xC400000B + k.toNat * 0x200000 + a.toNat * 0x10000 + b.toNat * 0x800 + e.toNat * 128 + x.toNat * 64
  | .vcmpGt k a b e x => 0xC400000C + k.toNat * 0x200000 + a.toNat * 0x10000 + b.toNat * 0x800 + e.toNat * 128 + x.toNat * 64
  | .vcmpGe k a b e x => 0xC400000D + k.toNat * 0x200000 + a.toNat * 0x10000 + b.toNat * 0x800 + e.toNat * 128 + x.toNat * 64
  | .vfadd d a b e r => 0xC8000000 + d.toNat * 0x200000 + a.toNat * 0x10000 + b.toNat * 0x800 + e.toNat * 128 + r.toNat
  | .vfsub d a b e r => 0xC8000008 + d.toNat * 0x200000 + a.toNat * 0x10000 + b.toNat * 0x800 + e.toNat * 128 + r.toNat
  | .vfmul d a b e r => 0xC8000010 + d.toNat * 0x200000 + a.toNat * 0x10000 + b.toNat * 0x800 + e.toNat * 128 + r.toNat
  | .vfma d a b e r => 0xC8000018 + d.toNat * 0x200000 + a.toNat * 0x10000 + b.toNat * 0x800 + e.toNat * 128 + r.toNat
  | .vfmin d a b e => 0xC8000020 + d.toNat * 0x200000 + a.toNat * 0x10000 + b.toNat * 0x800 + e.toNat * 128
  | .vfmax d a b e => 0xC8000028 + d.toNat * 0x200000 + a.toNat * 0x10000 + b.toNat * 0x800 + e.toNat * 128
  | .vfneg d a e => 0xC8000030 + d.toNat * 0x200000 + a.toNat * 0x10000 + e.toNat * 128
  | .vfabs d a e => 0xC8000038 + d.toNat * 0x200000 + a.toNat * 0x10000 + e.toNat * 128
  | .vfcmpEq k a b e => 0xC8000040 + k.toNat * 0x200000 + a.toNat * 0x10000 + b.toNat * 0x800 + e.toNat * 128
  | .vfcmpLt k a b e => 0xC8000048 + k.toNat * 0x200000 + a.toNat * 0x10000 + b.toNat * 0x800 + e.toNat * 128
  | .vfcmpLe k a b e => 0xC8000050 + k.toNat * 0x200000 + a.toNat * 0x10000 + b.toNat * 0x800 + e.toNat * 128
  | .vfaddX d a b e r => 0xC8000058 + d.toNat * 0x200000 + a.toNat * 0x10000 + b.toNat * 0x800 + e.toNat * 128 + r.toNat
  | .vfmulX d a b e r => 0xC8000060 + d.toNat * 0x200000 + a.toNat * 0x10000 + b.toNat * 0x800 + e.toNat * 128 + r.toNat
  | .vfmaX d a b e r => 0xC8000068 + d.toNat * 0x200000 + a.toNat * 0x10000 + b.toNat * 0x800 + e.toNat * 128 + r.toNat
  | .vcvt d a sf e r => 0xCC000000 + d.toNat * 0x200000 + a.toNat * 0x10000 + sf.toNat * 0x800 + e.toNat * 128 + r.toNat
  | .vqtb4 d a b e sf => 0xCC000008 + d.toNat * 0x200000 + a.toNat * 0x10000 + b.toNat * 0x800 + e.toNat * 128 + sf.toNat
  | .vqtb8 d a b e sf => 0xCC000010 + d.toNat * 0x200000 + a.toNat * 0x10000 + b.toNat * 0x800 + e.toNat * 128 + sf.toNat
  | .vdqtb4 d a b e r => 0xCC000018 + d.toNat * 0x200000 + a.toNat * 0x10000 + b.toNat * 0x800 + e.toNat * 128 + r.toNat
  | .vdqtb8 d a b e r => 0xCC000020 + d.toNat * 0x200000 + a.toNat * 0x10000 + b.toNat * 0x800 + e.toNat * 128 + r.toNat
  | .vexp2 d a e r => 0xCC000028 + d.toNat * 0x200000 + a.toNat * 0x10000 + e.toNat * 128 + r.toNat
  | .vrcp d a e r => 0xCC000030 + d.toNat * 0x200000 + a.toNat * 0x10000 + e.toNat * 128 + r.toNat
  | .vrsqrt d a e r => 0xCC000038 + d.toNat * 0x200000 + a.toNat * 0x10000 + e.toNat * 128 + r.toNat
  | .vmv d a e => 0xD0000000 + d.toNat * 0x200000 + a.toNat * 0x10000 + e.toNat * 128
  | .vbcx d a e => 0xD0000008 + d.toNat * 0x200000 + a.toNat * 0x10000 + e.toNat * 128
  | .vbcr d a b e => 0xD0000010 + d.toNat * 0x200000 + a.toNat * 0x10000 + b.toNat * 0x800 + e.toNat * 128
  | .vmvxr d a b e => 0xD0000018 + d.toNat * 0x200000 + a.toNat * 0x10000 + b.toNat * 0x800 + e.toNat * 128
  | .vslideup d a b e imm => 0xD0000020 + d.toNat * 0x200000 + a.toNat * 0x10000 + b.toNat * 0x800 + e.toNat * 128 + imm.toNat
  | .vslidedn d a b e imm => 0xD0000028 + d.toNat * 0x200000 + a.toNat * 0x10000 + b.toNat * 0x800 + e.toNat * 128 + imm.toNat
  | .vcompress d k e => 0xD0000030 + d.toNat * 0x200000 + k.toNat * 0x10000 + e.toNat * 128
  | .viota d a e => 0xD0000038 + d.toNat * 0x200000 + a.toNat * 0x10000 + e.toNat * 128
  | .vrsum d a e sf r => 0xD4000000 + d.toNat * 0x200000 + a.toNat * 0x10000 + e.toNat * 128 + sf.toNat * 8 + r.toNat
  | .vrmax d a e sf r => 0xD4000010 + d.toNat * 0x200000 + a.toNat * 0x10000 + e.toNat * 128 + sf.toNat * 8 + r.toNat
  | .vrmin d a e sf r => 0xD4000020 + d.toNat * 0x200000 + a.toNat * 0x10000 + e.toNat * 128 + sf.toNat * 8 + r.toNat
  | .vscan d a e r => 0xD4000030 + d.toNat * 0x200000 + a.toNat * 0x10000 + e.toNat * 128 + r.toNat
  | .vscanmax d a e r => 0xD4000040 + d.toNat * 0x200000 + a.toNat * 0x10000 + e.toNat * 128 + r.toNat
  | .vscanmin d a e r => 0xD4000050 + d.toNat * 0x200000 + a.toNat * 0x10000 + e.toNat * 128 + r.toNat
  | .setvl d a => 0xD8000000 + d.toNat * 0x200000 + a.toNat * 0x10000
  | .setvlf d a k c => 0xD8001000 + d.toNat * 0x200000 + a.toNat * 0x10000 + k.toNat * 512 + c.toNat
  | .setvlre d a c => 0xD8002000 + d.toNat * 0x200000 + a.toNat * 0x10000 + c.toNat
  | .vsrch k a b e t => 0xE0000000 + k.toNat * 0x200000 + a.toNat * 0x10000 + b.toNat * 0x800 + e.toNat * 128 + t.toNat * 4
  | .vham d a b e w c x => 0xE0000010 + d.toNat * 0x200000 + a.toNat * 0x10000 + b.toNat * 0x800 + e.toNat * 128 + w.toNat * 4 + c.toNat * 2 + x.toNat
  | .vtopk k a b e m => 0xE0000020 + k.toNat * 0x200000 + a.toNat * 0x10000 + b.toNat * 0x800 + e.toNat * 128 + m.toNat * 8
  | .tkinit a n sf => 0xE4000000 + a.toNat * 0x10000 + n.toNat * 0x4000 + sf.toNat * 0x400
  | .tkins d a n k v => 0xE4000800 + d.toNat * 0x200000 + a.toNat * 0x10000 + n.toNat * 0x4000 + k.toNat * 256 + v.toNat * 128
  | .tkmrg a n c => 0xE4001000 + a.toNat * 0x10000 + n.toNat * 0x4000 + c.toNat * 128
  | .tkrd d a n c => 0xE4001800 + d.toNat * 0x200000 + a.toNat * 0x10000 + n.toNat * 0x4000 + c.toNat * 128
  | .tkthr d n o => 0xE4002000 + d.toNat * 0x200000 + n.toNat * 0x4000 + o.toNat * 0x400
  | .vterm d a b e c => 0xE8000000 + d.toNat * 0x200000 + a.toNat * 0x10000 + b.toNat * 0x800 + e.toNat * 128 + c.toNat
  | .vdotv d a e p n => 0xE8000010 + d.toNat * 0x200000 + a.toNat * 0x10000 + e.toNat * 128 + p.toNat * 4 + n.toNat
  | .vselv d a b e m => 0xE8000020 + d.toNat * 0x200000 + a.toNat * 0x10000 + b.toNat * 0x800 + e.toNat * 128 + m.toNat * 4
  | .vmaskv k a e sf => 0xE8000030 + k.toNat * 0x200000 + a.toNat * 0x10000 + e.toNat * 128 + sf.toNat * 2
  | .vclrv d a b e => 0xE8000040 + d.toNat * 0x200000 + a.toNat * 0x10000 + b.toNat * 0x800 + e.toNat * 128
  | .sbind a c n => 0xF0000000 + a.toNat * 0x10000 + c.toNat * 4 + n.toNat
  | .sldb a c x => 0xF0000080 + a.toNat * 0x10000 + c.toNat * 2 + x.toNat
  | .sldbg a b c x => 0xF0000100 + a.toNat * 0x10000 + b.toNat * 0x800 + c.toNat * 2 + x.toNat
  | .stile d w => 0xF0000180 + d.toNat * 0x200000 + w.toNat
  | .smma a b => 0xF0000200 + a.toNat * 0x10000 + b.toNat * 0x800
  | .sdrainScratch a t r l => 0xF0000280 + a.toNat * 0x10000 + t.toNat * 0x800 + r.toNat * 16 + l.toNat
  | .sdrainVreg d t r l => 0xF0000288 + d.toNat * 0x200000 + t.toNat * 0x800 + r.toNat * 16 + l.toNat
  | .szero m t => 0xF0000300 + m.toNat * 8 + t.toNat
  | .miter d a t r m g => 0xF0000380 + d.toNat * 0x200000 + a.toNat * 0x10000 + t.toNat * 32 + r.toNat * 16 + m.toNat * 8 + g.toNat * 4
  | .mpoly a g => 0xF0000400 + a.toNat * 0x10000 + g.toNat * 4
  | .scoef a k => 0xF0000480 + a.toNat * 0x10000 + k.toNat
  | .fork d a => 0xF4000000 + d.toNat * 0x200000 + a.toNat * 0x10000
  | .rdv => 0xF4001000
  | .rdvEnd => 0xF4001001
  | .bar a sf => 0xF8000000 + a.toNat * 0x10000 + sf.toNat * 128
  | .mbinit d a p => 0xF8000400 + d.toNat * 0x200000 + a.toNat * 0x10000 + p.toNat * 512
  | .mbarrive a p sf => 0xF8000800 + a.toNat * 0x10000 + p.toNat * 512 + sf.toNat * 32
  | .mbexpect d a p sf => 0xF8000C00 + d.toNat * 0x200000 + a.toNat * 0x10000 + p.toNat * 512 + sf.toNat * 32
  | .mbarrivex d a p sf => 0xF8001000 + d.toNat * 0x200000 + a.toNat * 0x10000 + p.toNat * 512 + sf.toNat * 32
  | .mbwait d a p q sf => 0xF8001400 + d.toNat * 0x200000 + a.toNat * 0x10000 + p.toNat * 512 + q.toNat * 256 + sf.toNat * 32
  | .mbtest d a p sf => 0xF8001800 + d.toNat * 0x200000 + a.toNat * 0x10000 + p.toNat * 512 + sf.toNat * 32
  | .waitvEq d a o e => 0xF8001C00 + d.toNat * 0x200000 + a.toNat * 0x10000 + o.toNat * 32 + e.toNat
  | .waitvGe d a o e => 0xF8002000 + d.toNat * 0x200000 + a.toNat * 0x10000 + o.toNat * 32 + e.toNat
  | .csrr d n => 0xF8002400 + d.toNat * 0x200000 + n.toNat
  | .csrw d a n => 0xF8002800 + d.toNat * 0x200000 + a.toNat * 0x10000 + n.toNat
  | .csrs d a n => 0xF8002C00 + d.toNat * 0x200000 + a.toNat * 0x10000 + n.toNat
  | .csrc d a n => 0xF8003000 + d.toNat * 0x200000 + a.toNat * 0x10000 + n.toNat
  | .svc c => 0xF8003400 + c.toNat
  | .trap c => 0xF8003800 + c.toNat
  | .bkpt c => 0xF8003C00 + c.toNat
  | .eret => 0xF8004000
  | .yield => 0xF8004400
  | .endHart => 0xF8004800
  | .launch d a => 0xF8004C00 + d.toNat * 0x200000 + a.toNat * 0x10000
  | .quiesce d a => 0xF8005000 + d.toNat * 0x200000 + a.toNat * 0x10000
  | .tlbinv d a k => 0xF8005400 + d.toNat * 0x200000 + a.toNat * 0x10000 + k.toNat * 256
  | .icinv => 0xF8005800
  | .icinvAll => 0xF8005801
  | .sdcinv => 0xF8005C00
  | .pfx p v c r => 0xFC000000 + p.toNat * 0x800000 + v.toNat * 0x400000 + c.toNat * 0x200000 + r.toNat * 0x10000
  | .copyComplete _ _ _ => 0
  | .gatherElementArrive _ _ _ => 0
  | .planeSlotDelivered _ _ => 0
  | .slabOpComplete _ _ => 0
  | .bLoadComplete _ _ => 0
  | .tkmrgComplete _ _ => 0
  | .pageInComplete _ _ _ => 0
  | .walkStart _ => 0
  | .kvappWaitRetry _ _ => 0
  | .waitvPoll _ _ => 0
  | .ringHeadPoll _ => 0
  | .queueKick _ _ _ => 0
  | .queueEnable _ _ _ => 0
  | .queueDisable _ _ _ => 0
  | .queueSlotRetry _ => 0
  | .queueStall _ => 0
  | .launchRecordTake _ => 0
  | .codeObjectLoad _ => 0
  | .launchWaitPoll _ => 0
  | .placementDecision => 0
  | .coreReservation => 0
  | .launchComplete _ => 0
  | .preemptqWrite _ _ => 0
  | .gangSave _ _ => 0
  | .gangRestore _ _ => 0
  | .dqflush _ _ => 0
  | .debugHalt _ _ => 0
  | .debugResume _ _ => 0
  | .semacqRead _ _ _ _ _ => 0
  | .semrelWrite _ _ _ _ => 0
  | .semtimeWrite _ _ _ _ => 0
  | .semstatWrite _ _ _ => 0
  | .semaphoreExpiry _ => 0
  | .podidWrite _ _ _ => 0
  | .mctrlReset _ _ _ => 0
  | .testctlWrite _ _ => 0
  | .pgrqWrite _ _ _ => 0
  | .registerWrite _ _ _ _ _ => 0
  | .bar2Read _ _ _ => 0
  | .bar2Write _ _ _ _ => 0
  | .arrive _ => 0
  | .depart _ => 0
  | .refuse _ => 0
  | .podArriveSend _ => 0
  | .hostLinkDown _ => 0
  | .hostLinkUp _ => 0
  | .moduleReset => 0
  | .bootStage _ _ _ _ _ => 0
  | .getVersion _ => 0
  | .getCapabilities _ => 0
  | .negotiateAlgorithms _ => 0
  | .getDigests _ => 0
  | .getCertificate _ _ => 0
  | .challenge _ _ _ => 0
  | .getMeasurements _ _ => 0
  | .spdmUnsupportedRequest _ _ => 0
  | .mctpReadMsense _ => 0
  | .mctpReadBootstat _ => 0
  | .mctpReadLog _ => 0
  | .mctpHaltRequest _ _ => 0
  | .governorUpdate _ _ => 0
  | .powerRecoveryEnter _ => 0
  | .powerRecoveryExit _ => 0
  | .powerTokenPass _ => 0
  | .thermalThrottle _ => 0
  | .thermalRelease _ => 0
  | .thermalReset _ => 0
  | .illegalWord _ => 0
  | .ctxpartWrite _ _ _ => 0
  | .containedHardwareError _ => 0
  | .peerPortLinkUp _ => 0

end Sys2Proof
end

