-- ==== Sys2Proof/Config.lean ====
section
/-! DEFINITION. What one device fixes and the values the spec leaves open. A constant without a body stands for a value
of which nothing is known: no statement of this package rests on one. -/

namespace Sys2Proof.Config

/-- Cores of the package, 48 on each of four dies (R1, R350). -/
def numCores : Nat := 192

/-- Cores of a die. -/
def coresPerDie : Nat := 48

/-- Rows of a core pool (R114). -/
def numRows : Nat := 65536

/-- Size of HBM in bytes (R32). -/
def hbmSize : Nat := 0x8000000000

/-- An undefined bit of the spec: the n-th free choice of the run, at position p. -/
opaque freeBit : Nat → Nat → Bool

/-- Undefined columns of a row: the n-th free choice of the run, at core row r (R121, R229, R230). -/
opaque freeRow : Nat → Nat → BitVec 1024

/-- A choice the spec leaves open among several outcomes: the n-th free choice of the run. -/
opaque freeNat : Nat → Nat

/-- Core clock cycles that pass while the n-th step is performed: the spec's timing gives no result (log 12). -/
opaque elapsed : Nat → Nat

/-- By how much the cycle count of a die is ahead of the package's count: at most 4 (R350). -/
opaque skew : Nat → Fin 5

/-- What a check of an ML-DSA-44 signature answers: for a public key, the bytes that were signed, and the signature (R158,
R439). The spec gives no key and takes the algorithm from outside. -/
opaque signatureGood : List (BitVec 8) → List (BitVec 8) → List (BitVec 8) → Bool

/-- The fused root key (R439), which the spec does not give. -/
opaque rootKey : List (BitVec 8)

/-- The signature that Epvimond answers over a list of bytes (R440), under the leaf key that the digest of its firmware gives:
the key is not given. -/
opaque sign : List (BitVec 8) → List (BitVec 8) → List (BitVec 8)

/-- The device certificate chain (R440), by the digest of Epvimond's firmware: not given by the spec. -/
opaque certificate : List (BitVec 8) → List (BitVec 8)

/-- Cycles for which a walk that starts at a time occupies its walker (R46): the spec gives no latency. -/
opaque walkTime : Nat → Nat

/-- Whether the link of a port has negotiated Unordered I/O (R33): a property of the link partner. -/
opaque portUio : Nat → Bool

/-- The coolant's temperature at a time (R441). -/
opaque inlet : Nat → BitVec 8

end Sys2Proof.Config
end

