-- ==== Sys2Proof/Machine/State.lean ====
section
/-! DEFINITION. The state of the package: every register and memory that the spec names, as plain data, and the machine
right after module reset. Addresses kept in records of engines are natural numbers; registers are bit vectors. -/

namespace Sys2Proof.Machine

/-- Why a run stops with a fault. No meaning of an instruction word raises one: exceptions are next states. -/
inductive Fault where
  /-- The program counter of the party to run cannot be advanced because no party of the package can ever run again and
  no event is left: raised by nobody in this model, kept so that the type has a value. Safe. -/
  | stuck
deriving DecidableEq, Repr

/-- Why an instruction has no meaning in the model. -/
inductive Refusal where
  /-- The instruction's arm has no meaning yet: raised by the dispatcher. Safe. -/
  | notModelled (mnemonic : String)
deriving DecidableEq, Repr

/-- Who runs an instruction on a core: one of its harts, or its slab stream (R2, R295). -/
inductive Who where
  | hart (h : Fin 8)
  | stream
deriving DecidableEq, Repr

/-- The party whose instruction a step runs. -/
structure Party where
  core : Fin 192
  who : Who
deriving DecidableEq, Repr

/-- The scalar registers of a party (R2, R293): x0 is stored and never read. -/
structure Thread where
  x : Vector Word 32
  pc : Word
  frm : BitVec 2
  fflags : BitVec 5
deriving DecidableEq, Repr

/-- A slab or engine error that is held until its issuer meets it (R319). -/
structure HeldError where
  cause : BitVec 8
  faddr : Word
deriving DecidableEq, Repr

/-- What a hart waits for when the wait has a part that outlives its own check (R344, R355, R89). -/
inductive Wait where
  | none
  /-- arrived at a barrier and counted; the number of the barrier record (R344) -/
  | barrier (id : Nat)
  /-- arrived and released: BAR completes when the hart runs again -/
  | departed
  /-- arrival withdrawn by a REFUSE message: BARG is raised when the hart runs again (R23) -/
  | refused
  /-- at RDV, waiting for the other side (R295) -/
  | rdv
  /-- KVAPP waiting for a copy in progress on its page (R89) -/
  | kvapp
  /-- QUIESCE of a core that was halted when it looked: it waits for the operations of that core numbered below this
  (R356) -/
  | quiesce (bound : Nat)
deriving DecidableEq, Repr

/-- What of a wait outlives the saving of the party's gang: an arrival that is counted, or what has come of it (R344, R295,
log 34). Other waits begin again (R396). -/
def Wait.kept : Wait → Wait
  | .kvapp | .quiesce _ => .none
  | w => w

/-- The life of a hart in its pallet (R360, R377, R401, R411). -/
inductive HartState where
  /-- no such hart in the pallet, or no pallet -/
  | absent
  | running
  /-- executed END -/
  | ended
  /-- stopped by a debug halt -/
  | halted
  /-- taken by a pre-emption or a tier miss; its gang waits to be saved -/
  | taken
  /-- halted by a trap at system privilege, for the Launch Controller to terminate (R388) -/
  | failed
  /-- stopped when its pallet was terminated: it stays a participant of its gang's barriers (R343, R377) -/
  | killed
deriving DecidableEq, Repr

/-- A VDOTV in progress on one course (R282, R289). -/
structure VdotvCourse where
  course : Nat
  /-- terms done -/
  pos : Nat
  /-- the rows of a fresh walk have got their first values -/
  begun : Bool
  /-- the walk has ended -/
  ended : Bool
  /-- the walk has ended and every bound delivery has completed: the gates are clear and the instruction has completed in the
  course (R286) -/
  closed : Bool
  /-- the snapshot of the threshold, as OrdK (R274, R285) -/
  threshold : Nat
  /-- vector instructions from TPC onward that the course counts once it has completed this one -/
  lag : BitVec 4
  stopped : Option (BitVec 8 × Word)
  /-- the course stopped where it cannot be restarted (R396) -/
  norst : Bool
deriving DecidableEq, Repr

/-- A dispatched VDOTV: its term buffer, the virtual and physical address of its threshold word, its courses. -/
structure Walking where
  terms : List (BitVec 32)
  word : Option (Nat × Nat)
  courses : List VdotvCourse
deriving DecidableEq, Repr

/-- One hart: its thread, its CSRs, its trap record and its waits. -/
structure Hart where
  th : Thread
  /-- the pending PFX word (R149) -/
  pfx : Option (BitVec 32)
  vl : BitVec 17
  vseg : BitVec 3
  cmask : BitVec 3
  dcthr : BitVec 40
  kvfthr : BitVec 32
  vtestint : BitVec 16
  smbs : Vector Word 4
  tvec : Word
  tcause : Word
  tpc : Word
  tiaddr : Word
  tfaddr : Word
  tpfx : Word
  elag : Vector (BitVec 4) 8
  estart : Vector (BitVec 32) 8
  /-- the record of the pairs is being replayed (R395) -/
  replaying : Bool
  /-- system privilege (R387) -/
  sys : Bool
  /-- the pallet handler runs (R386) -/
  inh : Bool
  st : HartState
  /-- the VC bit of each vector register (R73) -/
  vc : BitVec 32
  /-- the landed bits of each vector register, one per brick slice (R133) -/
  landed : Vector (BitVec 32) 32
  /-- vector registers with landed data that no instruction has observed (R52, R196) -/
  unseen : BitVec 32
  wait : Wait
  /-- the value of State.epoch when the hart fell asleep in a wait -/
  sleep : Option Nat
  /-- the cycle count at which a WAITV began (R347) -/
  waitStart : Option Nat
  /-- issue cycles for which the hart is passed over (R353) -/
  yieldLeft : Nat
  /-- issue cycles since the hart last issued (R376) -/
  idle : Nat
  /-- the stream trapped: STRMTRAP is raised at the next instruction boundary (R397) -/
  strmTrap : Bool
  /-- a held error of a slab operation that this hart issued (R319) -/
  held : Option HeldError
  /-- a page-in that this hart's tier miss awaited failed: TIERFAIL with this code and address (R398) -/
  tierFail : Option (BitVec 8 × Word)
  /-- taken at a length-setting instruction: vector registers, masks and latches are not live (R401) -/
  bare : Bool
  /-- the VDOTV that the hart's courses walk (R283) -/
  walk : Option Walking
  /-- the trap record's pairs are those of a VDOTV in progress (R289, R404) -/
  verd : Bool
deriving DecidableEq, Repr

/-- The slab stream's own context (R293, R295, R397). -/
structure Stream where
  th : Thread
  running : Bool
  /-- the partner hart -/
  partner : Fin 8
  /-- stopped: trapped and reported to the partner, halted or taken (R397, R401, R411) -/
  stopped : Bool
  taken : Bool
  cause : BitVec 8
  /-- the cause that a halt replaced, or a failed page-in's FCODE (R398, R411) -/
  sub : BitVec 8
  faddr : Word
  held : Option HeldError
  /-- the stream has met an RDV.END since its FORK (R295, R401) -/
  ended : Bool
  /-- the stream has arrived at its RDV, and whether it is RDV.END -/
  rdv : Option Bool
  sleep : Option Nat
  tierFail : Option (BitVec 8 × Word)
deriving DecidableEq, Repr

/-- One row of the pool (R4, R114, R119): 1 024 data columns, the four latches, and the check columns as their
difference from the parity of the data, which is 0 when they agree. -/
structure Row where
  cols : BitVec 1024
  t : Bool
  c : Bool
  f0 : Bool
  f1 : Bool
  chk : BitVec 32
deriving DecidableEq, Repr

/-- Columns and latches (bit 0 T, 1 C, 2 F0, 3 F1) that became undefined in a range of core rows: they read as the free
choice `id` until written. -/
structure Mark where
  lo : Nat
  hi : Nat
  cols : BitVec 1024
  lats : BitVec 4
  id : Nat
deriving DecidableEq, Repr

/-- What a copy tag retains beside its CTAG and CTERR bits (R99, R186). -/
structure Tag where
  cause : BitVec 8
  addr : Word
  planes : Nat
deriving DecidableEq, Repr

/-- A top-k list (R271); `err` is the failure of a merge held on it (R277); `merged`, that a merge has ended and no
instruction has met the list since (R196). -/
structure TkList where
  init : Bool
  int32 : Bool
  cap : Nat
  entries : List (BitVec 32 × BitVec 32)
  err : Option HeldError
  busy : Bool
  merged : Bool
deriving DecidableEq, Repr

/-- The format of a B buffer or of a binding: a type code of R142 with the block width (R300, R302). -/
structure Fmt where
  code : BitVec 4
  tb8 : Bool
deriving DecidableEq, Repr

/-- A block of 32 elements of an operand: exponents and signed element codes, or none where nothing is stored. -/
structure Block where
  e0 : BitVec 8
  e1 : BitVec 8
  codes : List (Option (BitVec 8))
deriving DecidableEq, Repr

/-- The content of a B buffer (R293, R302). -/
structure BData where
  fmt : Fmt
  k : Nat
  n : Nat
  spmc : Nat
  spn : Nat
  /-- per column, its blocks along K -/
  columns : List (List Block)
deriving DecidableEq, Repr

/-- A B buffer: empty, loading, or loaded (R293). -/
inductive BBuf where
  | empty
  | loading (op : Nat)
  | full (d : BData)
deriving DecidableEq, Repr

/-- A stream binding: its record and cursor (R300, R301). -/
structure Binding where
  base : Nat
  scale : Nat
  stride : Nat
  mlen : Nat
  klen : Nat
  fmt : Fmt
  pool : Bool
  mFirst : Bool
  split : Nat
  oc : BitVec 4
  row : Nat
  col : Nat
deriving DecidableEq, Repr

/-- A parameter window of a pallet (R169). -/
structure Window where
  base : Word
  size : Word
deriving DecidableEq, Repr

/-- A cached leaf of the L1 TLB (R45): the page is VA[55:16] at level 0, VA[55:21] at 1, VA[55:30] at 2. -/
structure TlbEntry where
  ctxid : BitVec 16
  level : Nat
  page : Nat
  leaf : Word
  epa : Nat
deriving DecidableEq, Repr

/-- A 64-byte line that a cache may hold: its sector number and its bytes. -/
structure Line where
  sector : Nat
  bytes : List Byte
deriving DecidableEq, Repr

/-- An end of a copy: memory at a virtual address, or a pool locator in a hart's or core's rows (R95, R96). -/
inductive End where
  | mem (va : Nat)
  | pool (loc : Word)
deriving DecidableEq, Repr

/-- A barrier object: in memory at a virtual and a physical address, or in linear scratch (R199, R107). -/
inductive Mbar where
  | mem (va pa : Nat)
  | pool (off : Nat)
deriving DecidableEq, Repr

/-- The kinds of copy (R95). -/
inductive CopyKind where
  | cpy
  | cpym
  | cpyr
deriving DecidableEq, Repr

/-- What an outstanding engine operation does when it completes. -/
inductive OpKind where
  /-- R95: `dests` are the destination cores that have not completed (one for CPY and CPYR) -/
  | copy (kind : CopyKind) (tag : Nat) (hart : Fin 8) (src dst : End) (count : Nat) (binary32 : Bool)
      (mbar : Option Mbar) (dests : List Nat) (failed : Option (BitVec 8 × Word))
  /-- R182: per row, its source address; the destination locator -/
  | copyg (tag : Nat) (hart : Fin 8) (dst : Word) (rlen : Nat) (rows : List (Nat × Nat)) (mbar : Option Mbar)
  /-- R178: rows that have not arrived, with their addresses; element width in bytes -/
  | gather (hart : Fin 8) (vd : Nat) (copyReg : Option Nat) (bytes : Nat) (rows : List (Nat × Nat))
      (pending : List (Nat × Nat))
  /-- R186: rows with their token's page and index in it; `done` counts the slots delivered -/
  | planes (tag : Nat) (hart : Fin 8) (vbound : Bool) (boff np ptop d : Nat) (slots : Nat)
      (rows : List (Nat × Nat × Nat)) (settled : List Nat)
  /-- R307 -/
  | smma (bind : Binding) (bn : Nat) (buf : Nat) (data : BData) (tile : Nat) (kblk mt nt kt : Nat)
  /-- R309 -/
  | szero (tile : Nat) (int32 : Bool)
  /-- R310 with V = 0; the rounding mode is that at issue -/
  | sdrain (tile : Nat) (code : BitVec 4) (rm : BitVec 3) (off dld dm dn : Nat)
  /-- R303, R304: the buffer and the descriptor -/
  | bload (buf : Nat) (fmt : Fmt) (k n ld spmc spn split : Nat) (base : Nat) (pool : Bool)
      (gatherType : Option (BitVec 4)) (idx : List Nat)
  /-- R277: the list and the image's address -/
  | merge (list : Nat) (va : Nat)
deriving DecidableEq, Repr

/-- An outstanding engine operation: who issued it, the context and pages it translated through at issue. -/
structure EngineOp where
  id : Nat
  /-- the core on which it was issued, which numbered it (R356) -/
  home : Nat
  by_ : Who
  ctxid : BitVec 16
  /-- virtual pages of 64 KiB, the physical pages that they were translated to, and IDEM -/
  pages : List (Nat × Nat × Bool)
  /-- what the issuer's stores replaced that the operation, which is ordered after the accesses of its own class alone, may
  still find: the old bytes by physical address, one layer for each instruction, the latest first (R196) -/
  past : List (List (Nat × Byte))
  kind : OpKind
deriving DecidableEq, Repr

/-- A slice of a vector register whose copy or gather failed: a stall on it traps with this cause (R101, R178). -/
structure FailedSlice where
  hart : Fin 8
  vreg : Nat
  slice : Nat
  op : Nat
  cause : BitVec 8
  addr : Word
deriving DecidableEq, Repr

/-- The scoreboard states of a pallet that holds a core (R375). -/
inductive BoardState where
  | staged
  | ready
  | run
  | join
deriving DecidableEq, Repr

/-- The pallet on a core (R359, R375). -/
structure Pallet where
  launch : Nat
  gang : Nat
  index : Nat
  size : Nat
  ctx : Nat
  board : BoardState
  /-- stream copies that have not completed: source address, size, linear scratch offset (R367) -/
  streams : List (Nat × Nat × Nat)
  failed : Option (BitVec 8)
deriving DecidableEq, Repr

/-- A store of a hart or stream, while accesses of other classes of the same party are not ordered after it (R191): they
may still find the bytes that it replaced. `old` holds the bytes just before it in coherence order, `new` its own. The last
four fields say what follows it in the party's local order (R191, R194). -/
structure PastStore where
  who : Who
  cls : BitVec 4
  scalar : Bool
  pa : Nat
  old : List Byte
  new : List Byte
  /-- the step in which it was performed: the stores of one instruction share it -/
  tick : Nat
  /-- classes whose accesses from now on are not ordered after it -/
  unordered : BitVec 16
  /-- classes with an access ordered after it that has been performed: a FENCE that names one of them orders the store -/
  done : BitVec 16
  /-- the bytes of scalar accesses ordered after it: a scalar access that overlaps one of them is ordered after it too -/
  scal : List (Nat × Nat)
  /-- a device-class access is ordered after it: every later one is -/
  dev : Bool
deriving DecidableEq, Repr

/-- Where a delayed load puts its value: in a scalar register, with its sign or with zeros, or in a row: w bits from bit
`bit` on, at some columns of some vector registers. -/
inductive LoadDest where
  | reg (d : BitVec 5) (signed : Bool)
  | row (j : Nat) (regs cols : List Nat) (w bit : Nat)
deriving DecidableEq, Repr

/-- A load that a hart or stream has completed, while nothing that follows it in the party's local order has been performed
(R191): it may still take the value of a later moment (log 93). -/
structure LateLoad where
  who : Who
  cls : BitVec 4
  /-- classes whose later accesses follow it -/
  behind : BitVec 16
  scalar : Bool
  pa : Nat
  n : Nat
  /-- the step in which it was performed: the loads of one instruction share it -/
  tick : Nat
  dest : LoadDest
deriving DecidableEq, Repr

/-- One core. -/
structure Core where
  harts : Vector Hart 8
  pword : Word
  rows : List (Nat × Row)
  marks : List Mark
  /-- mode tags of the tiles: bit t is 1 for int32 (R293) -/
  tileInt : BitVec 8
  ptroot : Word
  vlpwr : BitVec 17
  ctag : Word
  cterr : Word
  tags : Vector Tag 64
  mcver : BitVec 32
  tokenHeld : Bool
  /-- SLTOKEN.MODE: 0 at reset, as R320's table has it (log 97) -/
  tokenMode : Bool
  lists : Vector TkList 4
  bb : Vector BBuf 2
  binds : Vector (Option Binding) 4
  coef : Vector (BitVec 32) 8
  stream : Stream
  sltol : BitVec 32
  slcap : BitVec 8
  sldiv : BitVec 32
  sliter : BitVec 8
  slphase : BitVec 5
  slrprev : BitVec 32
  wins : Vector Window 4
  tlb : List TlbEntry
  sdc : List Line
  icache : List Line
  /-- contexts with an object loaded since while this core was not of their partition: a pallet of theirs that is staged here
  finds the instruction cache empty (R53) -/
  icDue : List Nat
  /-- what earlier stores replaced and later accesses of other classes may still find, the latest store first (R191) -/
  past : List PastStore
  /-- loads that nothing after them has ended yet (R191; log 93) -/
  lates : List LateLoad
  /-- ports through which a party has posted writes that no zero-length read has flushed (R207) -/
  unflushed : List (Who × Nat)
  /-- hardware units of the core whose next use finds a failing check (R384) -/
  flaws : List HwUnit
  ops : List EngineOp
  nextOp : Nat
  failedSlices : List FailedSlice
  pallet : Option Pallet
  /-- a pre-emption request is posted to the parties of this core (R380) -/
  preempt : Bool
  dbgctl : Word
  dbgstat : Word
  /-- a halt has been requested and waits for the core to run (R412) -/
  haltHeld : Option (BitVec 8)
  /-- the hart that issued last (R376) -/
  last : Nat
deriving DecidableEq, Repr

/-- The five registers of a submission queue, and the retries of a failed slot read (R363, R364). -/
structure QueueRegs where
  base : Word
  cfg : Word
  tail : BitVec 32
  head : BitVec 32
  stat : BitVec 2
  tries : Nat
deriving DecidableEq, Repr

/-- A stream entry of a kernel (R162). -/
structure StreamEntry where
  off : Nat
  size : Nat
deriving DecidableEq, Repr

/-- A kernel of a context's kernel table (R162, R369). -/
structure Kernel where
  ctx : Nat
  va : Nat
  entry : Word
  shape : Nat
  nvc : Nat
  fwc : Nat
  acole : Nat
  scol8 : Nat
  check : Bool
  maxv : Nat
  maxew : Nat
  streams : List StreamEntry
  /-- the global or weak name that the entry is resolved by (R164); none for a local symbol -/
  sym : Option (List Byte)
deriving DecidableEq, Repr

/-- A place that a relocation of an earlier load patched with a symbol's value (R161, R164). -/
structure RelocUse where
  place : Nat
  kind : Nat
  addend : Int
  hi : Option (Nat × Int)
deriving DecidableEq, Repr

/-- A symbol of a context (R160, R164). -/
structure Symbol where
  ctx : Nat
  name : List Byte
  strong : Bool
  defined : Bool
  kind : Nat
  value : Word
  dhash : List Byte
  uses : List RelocUse
deriving DecidableEq, Repr

/-- Where an accepted launch stands (R369 to R371, R324). -/
inductive LaunchState where
  | waiting
  | placing
  | closing
  /-- the completion record is held by a full ring (R326, R378) -/
  | held
deriving DecidableEq, Repr

/-- An accepted launch (R365 to R371). -/
structure Launch where
  id : Nat
  queue : Nat
  home : Nat
  ctx : Nat
  prio : Nat
  gang : Nat
  count : Nat
  pword : Word
  seq : BitVec 32
  ring : Nat
  signal : Nat
  kernel : Kernel
  wins : List Window
  waits : List (Nat × Nat)
  streams : List (Nat × Nat × Nat × Nat)
  state : LaunchState
  /-- the lowest gang not placed yet; a refused launch keeps 0 and is closing -/
  nextGang : Nat
  since : Nat
  bytes : Nat
  pdone : Nat
  pfail : Nat
  /-- the failed pallet of lowest index and its cause (R325) -/
  firstFail : Option (Nat × BitVec 8)
  /-- ports through which a write of the launch has left (R324) -/
  ports : BitVec 4
  /-- pallets that were terminated -/
  killed : List Nat
  /-- when a full ring began to hold the record (R111) -/
  hold : Option Nat
  /-- DQFLUSH was written while the launch ran: its record is discarded if it would be held (R378) -/
  flushed : Bool
  /-- the step in which its last pallet was counted (R326) -/
  overAt : Option Nat
deriving DecidableEq, Repr

/-- An accepted load request (R368). -/
structure LoadReq where
  id : Nat
  queue : Nat
  home : Nat
  ctx : Nat
  object : Nat
  table : Nat
  status : Nat
  signed : Bool
  signal : Nat
  /-- a field of the record is malformed -/
  bad : Bool
deriving DecidableEq, Repr

/-- The short form in which a register or column is saved (R406). -/
inductive SaveForm where
  | raw
  | uniform
  | affine
  | narrow (nw : Nat)
deriving DecidableEq, Repr

/-- A saved pallet (R404 to R408). `bytes` is the image: header, section table and sections, where the shadow store
holds it; an image that lies in the spill area is `place` of HBM from its first block on. `core` is what the Launch
Controller keeps beside the image until its remap entries have retired, and what the sections are made of. -/
structure Image where
  launch : Nat
  gang : Nat
  index : Nat
  pgwait : Bool
  bytes : List Byte
  /-- physical address in the spill area -/
  place : Option Nat
  /-- registers, by hart, that copies were to land in through remap entries at the save: they stay raw (R112) -/
  raws : List (Nat × Nat)
  /-- blocks of 2,048 scratch rows that copies were to land in so: they stay raw, even of zeros (R112) -/
  rawBlocks : List Nat
  core : Core
  /-- the core that it was saved from -/
  home : Nat
  /-- pages whose page-ins the image awaits: leaf entry addresses (R398) -/
  awaits : List Nat
deriving DecidableEq, Repr

/-- A gang whose image is held in the shadow store or a spill area (R371, R403). -/
structure OutGang where
  launch : Nat
  gang : Nat
  /-- the die whose shadow store or spill area holds it -/
  die : Nat
  since : Nat
  images : List Image
  /-- the gang has ended in OUT (CTXGONE): its images are kept for the engine operations that are still outstanding (R324) -/
  gone : Bool
deriving DecidableEq, Repr

/-- A page-in request posted by the walker (R42, R399). -/
structure PageReq where
  id : Nat
  die : Nat
  va : Nat
  ctxid : BitVec 16
  epa : Nat
  tier : Nat
  core : Option Nat
  /-- written to the ring -/
  posted : Bool
  level : Nat
  /-- the leaf is stored and the record is still to be written: its FCODE, 0 for none (R400) -/
  fcode : Option (BitVec 8)
  /-- when a full ring began to hold the record (R111) -/
  hold : Option Nat
deriving DecidableEq, Repr

/-- An arrival at a barrier: which hart of which pallet, in arrival order. -/
structure Arrival where
  launch : Nat
  index : Nat
  hart : Nat
deriving DecidableEq, Repr

/-- What names a barrier (R343, R23). -/
inductive BarKey where
  /-- a = 0: the launch, gang, scope and instance -/
  | gang (launch gang scope inst : Nat)
  /-- a group word: context, scope, instance and BID -/
  | group (ctx scope inst bid : Nat)
  /-- pod scope: PODKEY and BID -/
  | pod (podkey bid : Nat)
deriving DecidableEq, Repr

/-- An open phase of a barrier (R343, R344; at pod scope R23: counts by sender, and what is unsent). -/
structure Barrier where
  id : Nat
  key : BarKey
  n : Nat
  arrived : List Arrival
  /-- home of a pod barrier: arrivals counted for this phase, by member, in order of receipt -/
  counts : List (Nat × Nat)
  unsent : Nat
deriving DecidableEq, Repr

/-- A semaphore (R19, R20). -/
structure Sem where
  held : Bool
  expired : Bool
  ownPort : BitVec 2
  ownRid : BitVec 16
  seq : BitVec 8
  timeout : BitVec 32
  /-- the cycle count when TLEFT was last loaded, and the value loaded (µs) -/
  loadedAt : Nat
  tleft : BitVec 32
deriving DecidableEq, Repr

/-- A log entry of Epvimond that has not been sent (R446). -/
structure LogEntry where
  addr : Word
  time : Word
  kind : BitVec 8
  cause : BitVec 8
  die : BitVec 8
  hand : BitVec 8
  core : BitVec 16
  aux : BitVec 32
deriving DecidableEq, Repr

/-- An answer of Epvimond on a DOE mailbox (R440). -/
inductive SpdmAnswer where
  | version
  | capabilities
  /-- the signature and hash algorithms in use -/
  | algorithms (signature hash : String)
  | digests (digest : List Byte)
  | certificate (slot : Nat) (chain : List Byte)
  | challengeAuth (signature : List Byte)
  | measurements (blocks : List (Nat × List Byte)) (signature : List Byte)
  /-- ERROR for a slot or block that does not exist -/
  | invalidRequest
  /-- ERROR with UnsupportedRequest, naming the request -/
  | unsupportedRequest (code : BitVec 8)
deriving DecidableEq, Repr

/-- What leaves the package beyond memory writes: read data answered to a requester, interrupts and pod messages. -/
inductive Output where
  /-- value returned by a register read at a port -/
  | regRead (port : Nat) (value : Word)
  /-- bytes returned by a BAR2 read, and whether the completion is poisoned (R29) -/
  | bar2Read (port : Nat) (data : List Byte) (poisoned : Bool)
  /-- a BAR2 read that ends without data: Completer Abort before READY (R438), else Unsupported Request (R14) -/
  | bar2Error (port : Nat) (abort : Bool)
  | msix (port vector : Nat)
  /-- a pod message to a member's BAR0 (R23) -/
  | podMessage (member : Nat) (port : Nat) (addr : Word) (msg : List Byte)
  | spdm (port : Nat) (answer : SpdmAnswer)
  /-- a vendor-defined management message's answer (R445); via 0, 1 a port, 2 the sideband -/
  | mctp (via : Nat) (data : List Byte)
  /-- a zero-length read that flushed a port (R324) -/
  | flush (port : Nat)
deriving DecidableEq, Repr

/-- What a request through a port asks for: a load, a store, or an AtomicOp of PCIe (R33, R171). -/
inductive ReqKind where
  | read
  | write
  | fetchAdd
  | swap
  | cas
deriving DecidableEq, Repr

/-- A request that leaves the package through a port's window (R33): UIO or ordinary, its kind, the fabric address, the
bytes of a write or the operands of an AtomicOp (of a CAS the compared value, then the new one), the number of bytes at the
address, and whether the data are sent poisoned (R323). -/
structure PortRequest where
  port : Nat
  uio : Bool
  kind : ReqKind
  addr : Nat
  data : List Byte
  size : Nat
  poisoned : Bool
deriving DecidableEq, Repr

/-- An entry of a port's MSI-X table (R14, R18): message address and data, and the mask bit of Vector Control. -/
structure MsixEntry where
  port : Nat
  vector : Nat
  addr : Word
  data : BitVec 32
  masked : Bool
deriving DecidableEq, Repr

/-- A line of a die cache (R48, R49): its sector of HBM and its priority. The data and the check are those of memory
(R48: coherent by construction). -/
structure DieLine where
  sector : Nat
  high : Bool
deriving DecidableEq, Repr

/-- The end of a walk (R34 to R39). -/
inductive Walk where
  | leaf (level : Nat) (entry : Word) (epa : Nat)
  | invalid
  | malformed (epa : Nat)
  | checkFail (epa : Nat)
deriving DecidableEq, Repr

/-- A walk in progress: CTXID, VA[55:16], the cycle at which its walker is free again, the core that asked for it, and its
result, which a request that joins it receives (R46, log 91). -/
structure WalkRun where
  ctxid : BitVec 16
  page : Nat
  until_ : Nat
  core : Nat
  result : Walk
deriving DecidableEq, Repr

/-- A walk request that waits for a walker: what it asks for, when it arrived, and from which core (R46). -/
structure WalkAsk where
  ctxid : BitVec 16
  page : Nat
  time : Nat
  core : Nat
deriving DecidableEq, Repr

/-- A leaf of a die's governor and token logic (R320, R381, R382, R441, R442). -/
structure Die where
  cap : BitVec 17
  /-- governor updates below the lower limit since CAP last changed (R381) -/
  low : Nat
  /-- governor updates for which CAP has stood at 2 048, and for which the power has been below 1 520 W without a break
  (R382) -/
  stood : Nat
  cool : Nat
  /-- causes that hold the die in power-token mode: boot, test, recovery, thermal -/
  boot : Bool
  test : Bool
  recovery : Bool
  thermal : Bool
  token : Nat
  spillb : Word
  spilln : Word
  pgrq : Word
  /-- a refused ring descriptor has been logged for the value of PGRQd (R399) -/
  pgrqLogged : Bool
  /-- device queue: launch records with the context of the issuing pallet (R355, R370) -/
  devq : List (List Byte × Nat)
  /-- pointer entries that the walker may hold: CTXID, level, VA prefix above the entry, table (R46) -/
  ptrs : List (BitVec 16 × Nat × Nat × Nat)
  /-- walks under way, and requests that wait for a walker, in the order in which they are to start (R46) -/
  walks : List WalkRun
  walkWait : List WalkAsk
  /-- the die cache's lines, the most recently used first (R48, R49) -/
  dcache : List DieLine
deriving DecidableEq, Repr

/-- The whole machine. -/
structure State where
  cores : Vector Core 192
  dies : Vector Die 4
  /-- HBM and the memory behind the port windows: bytes by physical address, canonical (R32, log 2, log 3) -/
  mem : List Host.Cell
  /-- sectors of HBM whose check fails (R24 to R29), ascending -/
  bad : List Nat
  -- Package registers
  sems : Vector Sem 16
  /-- the port that is served first in the next same-cycle tie: it lost the last one (R20) -/
  tieFirst : BitVec 1
  podbar : Vector Word 64
  podcfg : Vector Word 64
  ctxroot : Vector Word 64
  ctxpart : Vector Word 64
  pgnring : Vector Word 64
  pgnmode : Vector Word 64
  queues : Vector QueueRegs 32
  lcage : Word
  bootstat : Word
  podid : Word
  msense : Word
  testctl : Word
  logring : Word
  loglost : Word
  /-- a refused ring descriptor has been logged for the value of LOGRING -/
  logBad : Bool
  pwinbase : Vector Word 4
  pwinuio : Vector Word 4
  -- Configuration applied at boot (R438)
  roles : BitVec 2
  /-- bytes of BAR2 (R14); 0 before the configuration is applied -/
  bar2 : Nat
  sysVector : Word
  -- Security (R439, R440)
  /-- the fused minimum of the security version, by kind of image; a module reset keeps it -/
  svnMin : Vector (BitVec 32) 5
  /-- the code-signing public key of the signed configuration (R158, R438) -/
  signKey : List Byte
  /-- the signed configuration asks for the fused minima to be raised -/
  raiseMin : Bool
  /-- security versions of the images that this boot has accepted, by kind -/
  svnBoot : Vector (BitVec 32) 5
  /-- digests of what boot has loaded, by measurement block (R440) -/
  measured : List (Nat × List Byte)
  -- Links, interrupts, messages
  linkUp : Vector Bool 4
  msixPending : List (Nat × Nat)
  /-- entries of the ports' MSI-X tables that differ from their reset value (R14, R18) -/
  msixTable : List MsixEntry
  /-- requests that have left through the ports, the latest last (R33) -/
  requests : List PortRequest
  out : List Output
  log : List LogEntry
  -- Launch Controller
  launches : List Launch
  nextLaunch : Nat
  loads : List LoadReq
  nextLoad : Nat
  outs : List OutGang
  kernels : List Kernel
  symbols : List Symbol
  rotation : Nat
  burst : Nat
  /-- the blocked gang, the backfills since it blocked, and the cores reserved for it (R374) -/
  blocked : Option (Nat × Nat)
  backfills : Nat
  reserved : List Nat
  preemptHeld : List Nat
  reqs : List PageReq
  nextReq : Nat
  bars : List Barrier
  nextBar : Nat
  /-- pod barriers, as (PODKEY, BID), whose open phase has parity 1 (R23) -/
  podParity : List (Nat × Nat)
  /-- pod barriers and the cycle of the last ARRIVE message for them (R23) -/
  podSent : List ((Nat × Nat) × Nat)
  /-- core clock cycles since module reset (R350, log 12) -/
  time : Nat
  -- The model's own fields
  /-- the party whose instruction exec runs -/
  cur : Party
  /-- the party that moves next, where that is settled already; otherwise the choice is free (log 5) -/
  turn : Option Party
  /-- the party that ran in the last step: its issue cycle counts unless it has come to wait (R376) -/
  issued : Option Party
  /-- steps taken -/
  ticks : Nat
  /-- events in the order in which they happen (log 5) -/
  inbox : List Instr
  /-- how many free values have been used (log 4) -/
  free : Nat
  /-- counts the steps that could end a wait (log 5) -/
  epoch : Nat
  /-- the cycle in which an atomic unit took its last operation, and that operation's place among those of one cycle
  (R171, R202, log 104) -/
  unitLast : Nat × Nat
deriving DecidableEq, Repr

/-- A thread with every register 0. -/
def Thread.zero : Thread := { x := Vector.replicate 32 0, pc := 0, frm := 0, fflags := 0 }

/-- A hart outside a pallet, every CSR at its reset value (R360, R50, R93, R281). -/
def Hart.reset : Hart :=
  { th := .zero, pfx := none, vl := 0, vseg := 0, cmask := 0, dcthr := 262144, kvfthr := 0x3F800000,
    vtestint := 16, smbs := Vector.replicate 4 0, tvec := 0, tcause := 0, tpc := 0, tiaddr := 0, tfaddr := 0,
    tpfx := 0, elag := Vector.replicate 8 0, estart := Vector.replicate 8 0, replaying := false, sys := false,
    inh := false, st := .absent, vc := 0, landed := Vector.replicate 32 (BitVec.allOnes 32), unseen := 0, wait := .none,
    sleep := none, waitStart := none, yieldLeft := 0, idle := 0, strmTrap := false, held := none,
    tierFail := none, bare := false, walk := none, verd := false }

/-- No stream runs (R293). -/
def Stream.reset : Stream :=
  { th := .zero, running := false, partner := 0, stopped := false, taken := false, cause := 0, sub := 0, faddr := 0,
    held := none, ended := false, rdv := none, sleep := none, tierFail := none }

/-- A row of zeros whose check columns agree (R132). -/
def Row.zero : Row := { cols := 0, t := false, c := false, f0 := false, f1 := false, chk := 0 }

/-- A list with INIT = 0 (R271). -/
def TkList.reset : TkList := { init := false, int32 := false, cap := 0, entries := [], err := none, busy := false, merged := false }

/-- A core after module reset: no pallet; power-token mode (R382). -/
def Core.reset : Core :=
  { harts := Vector.replicate 8 .reset, pword := 0, rows := [], marks := [], tileInt := 0, ptroot := 0,
    vlpwr := 65536, ctag := BitVec.allOnes 64, cterr := 0,
    tags := Vector.replicate 64 { cause := 0, addr := 0, planes := 0 }, mcver := 0, tokenHeld := false,
    tokenMode := false, lists := Vector.replicate 4 .reset, bb := Vector.replicate 2 .empty,
    binds := Vector.replicate 4 none, coef := Vector.replicate 8 0, stream := .reset, sltol := 0x3727C5AC,
    slcap := 16, sldiv := 0x40000000, sliter := 0, slphase := 0, slrprev := 0x7F800000,
    wins := Vector.replicate 4 { base := 0, size := 0 }, tlb := [], sdc := [], icache := [], icDue := [], past := [], lates := [], unflushed := [], flaws := [], ops := [],
    nextOp := 0, failedSlices := [], pallet := none, preempt := false, dbgctl := 0, dbgstat := 0, haltHeld := none, last := 0 }

/-- A die after module reset. -/
def Die.reset : Die :=
  { cap := 65536, low := 0, stood := 0, cool := 0, boot := true, test := false, recovery := false, thermal := false, token := 0, spillb := 0,
    spilln := 0, pgrq := 0, pgrqLogged := false, devq := [], ptrs := [], walks := [], walkWait := [], dcache := [] }

/-- A free semaphore with the reset time-out (R19). -/
def Sem.reset : Sem :=
  { held := false, expired := false, ownPort := 0, ownRid := 0, seq := 0, timeout := 1000000, loadedAt := 0,
    tleft := 0 }

/-- A queue after reset (R363). -/
def QueueRegs.reset : QueueRegs := { base := 0, cfg := 0, tail := 0, head := 0, stat := 0, tries := 0 }

/-- The machine right after module reset, before boot stage 1 (R438). -/
def State.reset : State :=
  { cores := Vector.replicate 192 .reset, dies := Vector.replicate 4 .reset, mem := [], bad := [],
    sems := Vector.replicate 16 .reset, tieFirst := 0, podbar := Vector.replicate 64 0,
    podcfg := Vector.replicate 64 0, ctxroot := Vector.replicate 64 0, ctxpart := Vector.replicate 64 0,
    pgnring := Vector.replicate 64 0, pgnmode := Vector.replicate 64 0, queues := Vector.replicate 32 .reset,
    lcage := 1048576, bootstat := 0, podid := 0, msense := 0, testctl := 0, logring := 0, loglost := 0,
    logBad := false, pwinbase := Vector.replicate 4 0, pwinuio := Vector.replicate 4 0, roles := 0, bar2 := 0,
    sysVector := 0, svnMin := Vector.replicate 5 0, signKey := [], raiseMin := false, svnBoot := Vector.replicate 5 0, measured := [], linkUp := Vector.replicate 4 true, msixPending := [], msixTable := [], requests := [],
    out := [], log := [], launches := [], nextLaunch := 0, loads := [], nextLoad := 0, outs := [], kernels := [], symbols := [],
    rotation := 0, burst := 0, blocked := none, backfills := 0, reserved := [], preemptHeld := [], reqs := [],
    nextReq := 0, bars := [], nextBar := 0, podParity := [], podSent := [], time := 0,
    cur := { core := 0, who := .hart 0 }, turn := none, issued := none, ticks := 0, inbox := [], free := 0, epoch := 0, unitLast := (0, 0) }

end Sys2Proof.Machine
end

