-- ==== Sys2Proof/Machine/Ops.lean ====
section
/-! DEFINITION. The named operations over registers, memory, the trap record and the program counter that the meanings
share: reading and writing registers, the bytes of memory, taking an exception and returning from one, ending an
instruction. -/

namespace Sys2Proof.Machine

/-! ## Parties and their registers -/

/-- The core of the party that runs. -/
def State.core (s : State) : Core := s.cores[s.cur.core]

/-- The same machine with another content of the current core. -/
def State.setCore (s : State) (c : Core) : State := { s with cores := s.cores.set s.cur.core c }

def State.modCore (s : State) (f : Core → Core) : State := s.setCore (f s.core)

/-- A core by number, and its replacement. -/
def State.coreAt (s : State) (i : Fin 192) : Core := s.cores[i]

def State.modCoreAt (s : State) (i : Fin 192) (f : Core → Core) : State :=
  { s with cores := s.cores.set i (f s.cores[i]) }

/-- A core number as an index: numbers from 192 up name no core and are sent to core 0 by callers that checked. -/
def coreIx (n : Nat) : Fin 192 := if h : n < 192 then ⟨n, h⟩ else 0

/-- The hart whose CSRs the party uses; the stream has none of its own and hart 0 stands in. -/
def Who.hartIx : Who → Fin 8
  | .hart h => h
  | .stream => 0

def State.isStream (s : State) : Bool := s.cur.who == .stream

def State.hart (s : State) : Hart := s.core.harts[s.cur.who.hartIx]

def Core.modHart (c : Core) (h : Fin 8) (f : Hart → Hart) : Core := { c with harts := c.harts.set h (f c.harts[h]) }

def State.modHart (s : State) (f : Hart → Hart) : State := s.modCore (·.modHart s.cur.who.hartIx f)

def Core.th (c : Core) : Who → Thread
  | .hart h => c.harts[h].th
  | .stream => c.stream.th

def Core.modTh (c : Core) (w : Who) (f : Thread → Thread) : Core :=
  match w with
  | .hart h => c.modHart h fun k => { k with th := f k.th }
  | .stream => { c with stream := { c.stream with th := f c.stream.th } }

/-- The scalar registers of the party that runs. -/
def State.th (s : State) : Thread := s.core.th s.cur.who

def State.modTh (s : State) (f : Thread → Thread) : State := s.modCore (·.modTh s.cur.who f)

/-- Reading a scalar register: x0 reads as zero (R3). -/
def Thread.get (t : Thread) (r : Reg) : Word := if r = 0 then 0 else t.x[r.toNat]'(r.isLt)

/-- Writing a scalar register: writes to x0 are discarded (R3). -/
def Thread.set (t : Thread) (r : Reg) (v : Word) : Thread :=
  if r = 0 then t else { t with x := t.x.set r.toNat v r.isLt }

def State.getX (s : State) (r : Reg) : Word := s.th.get r

def State.setX (s : State) (r : Reg) (v : Word) : State := s.modTh (·.set r v)

def State.pc (s : State) : Word := s.th.pc

def State.setPc (s : State) (v : Word) : State := s.modTh fun t => { t with pc := v }

/-- The flags of the party ORed with new ones (R65). -/
def State.orFlags (s : State) (f : BitVec 5) : State := s.modTh fun t => { t with fflags := t.fflags ||| f }

/-- The die of a core (R350). -/
def dieOf (core : Nat) : Nat := core / 48

def vecIx (i : Nat) : Fin 8 := if h : i < 8 then ⟨i, h⟩ else 0

def dieIx (n : Nat) : Fin 4 := if h : n < 4 then ⟨n, h⟩ else 0

def State.dieNo (s : State) : Fin 4 := dieIx (dieOf s.cur.core)

def State.modDie (s : State) (d : Fin 4) (f : Die → Die) : State := { s with dies := s.dies.set d (f s.dies[d]) }

/-- The cycle count of a die (R350). -/
def State.cycle (s : State) (die : Nat) : Nat := if s.time = 0 then 0 else s.time + (Config.skew die).val

/-- The privilege of the party: a slab stream runs at pallet privilege (R360, R387). -/
def State.sys (s : State) : Bool := !s.isStream && s.hart.sys

/-- A number for the next free value (log 4), and the counter advanced. -/
def State.fresh (s : State) : Nat × State := (s.free, { s with free := s.free + 1 })

/-! ## The partition word (R125, R115) -/

def Core.shape (c : Core) : Nat := bitsOf c.pword.toNat 0 2
def Core.nharts (c : Core) : Nat := 2 ^ c.shape
def Core.vlmax (c : Core) : Nat := 65536 / c.nharts
/-- Registers the partition provides. -/
def Core.nv (c : Core) : Nat := 8 * (bitsOf c.pword.toNat 2 2 + 1)
/-- Columns of a register's field. The reserved code 3 never runs (R126). -/
def Core.fw (c : Core) : Nat := 16 * 2 ^ bitsOf c.pword.toNat 4 2
def Core.acol (c : Core) : Nat := 64 * bitsOf c.pword.toNat 6 1
def Core.scol (c : Core) : Nat := 8 * bitsOf c.pword.toNat 8 7
/-- First accumulator column, first scratch column, scratch bytes of a row (R128, R131). -/
def Core.acol0 (c : Core) : Nat := 8 + c.nv * c.fw
def Core.scol0 (c : Core) : Nat := c.acol0 + c.acol
def Core.sb (c : Core) : Nat := c.scol / 8
/-- The first core row of a hart (R115). -/
def Core.row0 (c : Core) (h : Nat) : Nat := h * c.vlmax

/-- Courses that a hart owns, and the course of a core row (R114, R115). -/
def Core.coursesOf (c : Core) (h : Nat) : List Nat := List.range' (h * (8 / c.nharts)) (8 / c.nharts)
def courseOfRow (row : Nat) : Nat := row / 8192

/-! ## Bytes of memory -/

/-- What an address that is not listed reads as (log 2, log 3). -/
def emptyByte : Byte := 0

/-- The byte at a physical address. -/
def readByte : List Host.Cell → Nat → Byte
  | [], _ => emptyByte
  | (b, v) :: m, a => if a = b then v else if a < b then emptyByte else readByte m a

/-- A write of one byte; a byte equal to what an unlisted address reads as is not listed. -/
def writeByte : List Host.Cell → Nat → Byte → List Host.Cell
  | [], a, v => if v = emptyByte then [] else [(a, v)]
  | (b, w) :: m, a, v =>
    if a < b then (if v = emptyByte then (b, w) :: m else (a, v) :: (b, w) :: m)
    else if a = b then (if v = emptyByte then m else (a, v) :: m)
    else (b, w) :: writeByte m a v

/-- The canonical form: addresses strictly rising from lo on, no listed byte equal to the empty byte. -/
def memWfFrom : Nat → List Host.Cell → Bool
  | _, [] => true
  | lo, (b, v) :: m => decide (lo ≤ b) && decide (v ≠ emptyByte) && memWfFrom (b + 1) m

/-- The memory keeps its canonical form. -/
def Memory.wf (m : List Host.Cell) : Bool := memWfFrom 0 m

/-- The part of the memory from an address on: a read of many bytes looks for its place once. -/
def seek (a : Nat) : List Host.Cell → List Host.Cell
  | [] => []
  | c :: m => if c.1 < a then seek a m else c :: m

/-- A list of bytes from an address. -/
def readBytes (m : List Host.Cell) (a n : Nat) : List Byte :=
  let t := seek a m
  (List.range n).map fun i => readByte t (a + i)

/-- Little-endian value of bytes, and bytes of a value (R8). -/
def leOfBytes : List Byte → Nat
  | [] => 0
  | b :: bs => b.toNat + 256 * leOfBytes bs

def bytesOfLe : Nat → Nat → List Byte
  | 0, _ => []
  | n + 1, v => BitVec.ofNat 8 v :: bytesOfLe n (v / 256)

/-- n bytes from an address, least significant first (R8). -/
def readLE (m : List Host.Cell) (a n : Nat) : Nat := leOfBytes (readBytes m a n)

/-- Storing the low 8n bits of a value, least significant byte first (R8). -/
def writeLE (m : List Host.Cell) (a : Nat) : Nat → Nat → List Host.Cell
  | 0, _ => m
  | n + 1, v => writeLE (writeByte m a (BitVec.ofNat 8 v)) (a + 1) n (v / 256)

def writeBytes (m : List Host.Cell) (a : Nat) : List Byte → List Host.Cell
  | [] => m
  | b :: bs => writeBytes (writeByte m a b) (a + 1) bs

/-- The regions of the physical address map (R32). -/
inductive Region where
  | hbm
  | regs
  | port (n : Nat)
  | none
deriving DecidableEq, Repr

/-- The region of a physical address, or of the place of a byte behind a port: places behind port n are numbered
2^64 · (n + 1) plus the fabric address (R33). -/
def regionOf (pa : Nat) : Region :=
  if pa < Config.hbmSize then .hbm
  else if 0x10000000000 ≤ pa ∧ pa < 0x10100000000 then .regs
  else if 0x8000000000000 ≤ pa ∧ pa < 0x10000000000000 then .port ((pa - 0x8000000000000) / 0x2000000000000)
  else if 2 ^ 64 ≤ pa ∧ pa < 5 * 2 ^ 64 then .port (pa / 2 ^ 64 - 1)
  else .none

/-- Whether the check of the sector that holds a physical address fails (R24, R29). -/
def State.sectorBad (s : State) (pa : Nat) : Bool := s.bad.contains (pa / 64)

/-- The sectors that n bytes from an address touch. -/
def sectorsOf (pa n : Nat) : List Nat := if n = 0 then [] else List.range' (pa / 64) ((pa + n - 1) / 64 + 1 - pa / 64)

def State.anyBad (s : State) (pa n : Nat) : Bool := s.bad != [] && (sectorsOf pa n).any s.bad.contains

/-- The address of the first sector of a range whose check fails; else that of the range's first sector. -/
def State.firstBadSector (s : State) (pa n : Nat) : Nat :=
  let ks := s.bad.filter fun k => decide (pa / 64 ≤ k ∧ 64 * k < pa + n)
  64 * (ks.foldl (fun (m : Option Nat) k => some (min k (m.getD k))) none).getD (pa / 64)

/-! ## CRC-32C (R24) -/

def crcStep (c : Nat) : Nat → Nat
  | 0 => c
  | k + 1 => crcStep (if c % 2 = 1 then (c / 2) ^^^ 0x82F63B78 else c / 2) k

/-- CRC-32C of bytes in ascending order: reflected, initial value and final exclusive-or all ones. -/
def crc32c (bs : List Byte) : BitVec 32 :=
  BitVec.ofNat 32 ((bs.foldl (fun c b => crcStep (c ^^^ b.toNat) 8) 0xFFFFFFFF) ^^^ 0xFFFFFFFF)

/-! ## Epvimond's log (R446) -/

/-- The die of a log entry (R29, R446): for a check failure of a memory sector and for a malformed entry, the die whose
HBM holds the address (R32); else the core's die. -/
def logDie (kind addr : Nat) (core : Option Nat) (hand : Nat) : Fin 4 :=
  if (kind = 1 && hand != 9 || kind = 2) && decide (addr < Config.hbmSize) then dieIx (addr / 0x2000000000)
  else dieIx (dieOf (core.getD 0))

/-- An event for the log; beyond 256 unsent entries the oldest is discarded and counted. -/
def State.logEvent (s : State) (kind cause : Nat) (addr : Nat) (core : Option Nat) (hand aux : Nat) : State :=
  let die := logDie kind addr core hand
  let e : LogEntry :=
    { addr := BitVec.ofNat 64 addr, time := BitVec.ofNat 64 (s.cycle die),
      kind := BitVec.ofNat 8 kind, cause := BitVec.ofNat 8 cause, die := BitVec.ofNat 8 die.val,
      hand := BitVec.ofNat 8 hand, core := match core with | some c => BitVec.ofNat 16 c | none => 0xFFFF,
      aux := BitVec.ofNat 32 aux }
  let l := s.log ++ [e]
  if l.length ≤ 256 then { s with log := l }
  else { s with log := l.drop 1, loglost := if s.loglost = BitVec.allOnes 64 then s.loglost else s.loglost + 1 }

/-! ## Results of an instruction -/

/-- An exception to be raised: the cause, TFADDR, TCAUSE.SUB, NORST, whether TPC is the next word (R351), TIADDR where
it is not the instruction's own address (STRMTRAP), and the pairs (course, ELAG, ESTART) that are not 0. -/
structure Trap where
  cause : BitVec 8
  faddr : Word := 0
  sub : BitVec 8 := 0
  norst : Bool := false
  next : Bool := false
  iaddr : Option Word := none
  pairs : List (Nat × BitVec 4 × BitVec 32) := []
deriving DecidableEq, Repr

/-- Why an instruction does not complete: it raises an exception in this state, or it goes on waiting. A wait in which a
pre-emption takes the party is `park`: the wait forms of R396, and a landed-bit stall (R402). -/
inductive Stop where
  | trap (t : Trap) (s : State)
  | wait (s : State)
  | park (s : State)
deriving DecidableEq, Repr

/-- The body of a meaning: reads and writes the state, and may stop. -/
abbrev Act := StateT State (Except Stop)

/-- Raise a cause. -/
def raise {α : Type} (cause : BitVec 8) (faddr : Word := 0) : Act α :=
  fun s => .error (.trap { cause := cause, faddr := faddr } s)

def raiseTrap {α : Type} (t : Trap) : Act α := fun s => .error (.trap t s)

/-- Go on waiting. -/
def stall {α : Type} : Act α := fun s => .error (.wait s)

/-- Go on waiting in a wait form of R396, or for landed bits. -/
def park {α : Type} : Act α := fun s => .error (.park s)

/-- Raise a cause when a condition holds. -/
def trapIf (b : Bool) (cause : BitVec 8) (faddr : Word := 0) : Act Unit :=
  fun s => if b then .error (.trap { cause := cause, faddr := faddr } s) else .ok ((), s)

/-- Change the state. -/
def upd (f : State → State) : Act Unit := fun s => .ok ((), f s)

/-- Look at the state. -/
def look {α : Type} (f : State → α) : Act α := fun s => .ok (f s, s)

def readX (r : Reg) : Act Word := look (·.getX r)
def writeX (r : Reg) (v : Word) : Act Unit := upd (·.setX r v)

/-! ## Ending an instruction and taking an exception -/

/-- Whether a cause is one that the Launch Controller handles: PREEMPT and a faulting TIERMISS (R384). -/
def causeToLc (c : BitVec 8) : Bool := c == 0x10 || (0x60 ≤ c.toNat && c.toNat ≤ 0x67)

/-- Category 2, delivered to the pallet handler when there is one (R384, R385). -/
def causeCat2 (c : BitVec 8) : Bool := 0x80 ≤ c.toNat && c.toNat ≤ 0xBF

/-- The bits of TCAUSE (R390). -/
def tcauseWord (cause sub : BitVec 8) (norst pinh ppriv : Bool) : Word :=
  BitVec.ofNat 64 (cause.toNat + (if ppriv then 256 else 0) + (if pinh then 512 else 0) +
    (if norst then 1024 else 0) + sub.toNat * 65536)

/-- TPFX of a hart whose pending prefix is p (R149). -/
def tpfxWord : Option (BitVec 32) → Word
  | none => 0
  | some w => BitVec.ofNat 64 (w.toNat + 0x100000000)

/-- All pairs 0 but for the listed courses (R391). -/
def elagOf (ps : List (Nat × BitVec 4 × BitVec 32)) : Vector (BitVec 4) 8 :=
  Vector.ofFn fun c => match ps.find? (·.1 == c.val) with | some p => p.2.1 | none => 0

def estartOf (ps : List (Nat × BitVec 4 × BitVec 32)) : Vector (BitVec 32) 8 :=
  Vector.ofFn fun c => match ps.find? (·.1 == c.val) with | some p => p.2.2 | none => 0

/-- Whether all pairs are 0: then nothing is replayed (R395). -/
def Hart.pairsZero (h : Hart) : Bool := h.elag == Vector.replicate 8 0 && h.estart == Vector.replicate 8 0

/-- The pairs of a walk: a course in which the instruction has completed, or the terms that it has done (R286, R289). -/
def Walking.pairs (w : Walking) : List (Nat × BitVec 4 × BitVec 32) :=
  w.courses.map fun c => if c.closed then (c.course, c.lag, 0) else (c.course, 0, BitVec.ofNat 32 c.pos)

/-- The trap record of a hart that stops at its next instruction or at a wait (R394, R149): every part but TCAUSE and
TFADDR. -/
def Hart.recordStop (h : Hart) : Hart :=
  { h with tpc := h.th.pc, tiaddr := if h.pfx = none then h.th.pc else h.th.pc - 4, tpfx := tpfxWord h.pfx,
           elag := match h.walk with
             | some w => elagOf w.pairs
             | none => if h.replaying then h.elag else Vector.replicate 8 0,
           estart := match h.walk with
             | some w => estartOf w.pairs
             | none => if h.replaying then h.estart else Vector.replicate 8 0,
           verd := h.walk.isSome || (h.replaying && h.verd), walk := none, sleep := none, waitStart := none }

/-- The record of a trap (R390, R149). -/
def Hart.record (h : Hart) (t : Trap) : Hart :=
  { h with tcause := tcauseWord t.cause t.sub t.norst h.inh h.sys, tfaddr := t.faddr,
           tpc := if t.next then h.th.pc + 4 else h.th.pc,
           tiaddr := match t.iaddr with
             | some a => a
             | none => if h.pfx = none then h.th.pc else h.th.pc - 4,
           tpfx := tpfxWord h.pfx,
           elag := match h.walk with
             | some w => elagOf w.pairs
             | none => if h.replaying && t.pairs.isEmpty then h.elag else elagOf t.pairs,
           estart := match h.walk with
             | some w => estartOf w.pairs
             | none => if h.replaying && t.pairs.isEmpty then h.estart else estartOf t.pairs,
           verd := h.walk.isSome || (h.replaying && t.pairs.isEmpty && h.verd), replaying := false, walk := none, pfx := none, sleep := none, waitStart := none, wait := .none }

/-- The bits of DBGSTAT: reason, pending, halted (R410). -/
def dbgstatWord (reason : BitVec 8) (pend halted : Bool) : Word :=
  BitVec.ofNat 64 (reason.toNat * 256 + (if pend then 2 else 0) + (if halted then 1 else 0))

/-- The cores that run pallets of one gang; a core outside a pallet stands for itself. -/
def State.gangCores (s : State) (core : Fin 192) : List (Fin 192) :=
  match s.cores[core].pallet with
  | none => [core]
  | some p => (List.finRange 192).filter fun i =>
      match s.cores[i].pallet with
      | some q => q.launch == p.launch && q.gang == p.gang
      | none => false

/-- The trap record of a party that a trap halts (R385, R411): as the trap writes it, with the halt's reason as CAUSE and
the trap's cause in SUB. -/
def Hart.recordHalt (h : Hart) (reason : BitVec 8) (t : Trap) : Hart :=
  { h.record t with tcause := tcauseWord reason t.cause t.norst h.inh h.sys }

/-- What the other parties record when one party's event stops a core (R411): 0x38 | h, or 0x34 where the stream caused
it; without a causing party, the reason itself. -/
def otherReason (reason : BitVec 8) : Option Who → BitVec 8
  | some (.hart h) => 0x38 ||| BitVec.ofNat 8 h.val
  | some .stream => 0x34
  | none => reason

/-- A core of the gang halts (R411): running harts record where they stand, the causing party its reason. `trap` is the
trap that became a halt. -/
def Core.halt (c : Core) (reason : BitVec 8) (by_ : Option Who) (trap : Option Trap) : Core :=
  { c with
    harts := Vector.ofFn fun k =>
      let h := c.harts[k]
      if h.st = .running then
        if by_ = some (.hart k) then
          match trap with
          | some t => { h.recordHalt reason t with st := .halted }
          | none => { h.recordStop with st := .halted, tcause := tcauseWord reason 0 false h.inh h.sys, tfaddr := 0 }
        else
          { h.recordStop with st := .halted, tcause := tcauseWord (otherReason reason by_) 0 false h.inh h.sys, tfaddr := 0 }
      else h
    stream := if c.stream.running && !c.stream.stopped then
        if by_ = some .stream then
          match trap with
          | some t => { c.stream with cause := reason, sub := t.cause, faddr := t.faddr, sleep := none }
          | none => { c.stream with cause := reason, sub := 0, faddr := 0, sleep := none }
        else { c.stream with cause := otherReason reason by_, sub := 0, faddr := 0, sleep := none }
      else c.stream
    dbgstat := dbgstatWord reason false true
    haltHeld := none }

/-- Whether a core is halted (R410). -/
def Core.halted (c : Core) : Bool := bitOf c.dbgstat.toNat 0

/-- A halt stops every core of the gang (R411). -/
def State.haltGang (s : State) (core : Fin 192) (reason : BitVec 8) (by_ : Option Who) (trap : Option Trap) : State :=
  (s.gangCores core).foldl (fun s i =>
    if i = core then s.modCoreAt i (·.halt reason by_ trap) else s.modCoreAt i (·.halt 0x35 none none)) s

/-- Termination of a pallet (R377): its remaining harts and its stream stop, and it waits to be joined with the cause of
its failure. -/
def Core.terminate (c : Core) (cause : BitVec 8) : Core :=
  { c with
    harts := c.harts.map fun h =>
      if h.st = .absent ∨ h.st = .ended then h else { h with st := .killed, pfx := none, wait := .none, sleep := none }
    stream := { c.stream with running := false }
    pallet := c.pallet.map fun p =>
      { p with board := .join, failed := match p.failed with | some f => some f | none => some cause } }

/-- The pallet of a core is terminated, and its launch knows (R343, R377). -/
def State.terminate (s : State) (i : Fin 192) (cause : BitVec 8) : State :=
  let t := s.modCoreAt i (·.terminate cause)
  match s.cores[i].pallet with
  | none => t
  | some p =>
    { t with launches := t.launches.map fun l => if l.id = p.launch then { l with killed := l.killed ++ [p.index] } else l }

/-- A trap at system privilege (R388): the record stands, the hart halts with reason 0x37, the event is logged, and the
pallet is terminated with DBLFLT. -/
def State.doubleFault (s : State) : State :=
  let s := s.modCore fun c => { c with dbgstat := dbgstatWord 0x37 false (bitOf c.dbgstat.toNat 0) }
  let s := s.logEvent 6 0x0F 0 (some s.cur.core.val) 0 0
  (s.terminate s.cur.core 0x0F).modHart fun h => { h with st := .failed }

/-- Every party of the gang stops for its image to be saved as a halt stops it (R398, R394): it keeps the record of where
it stands, with the cause that a halt gives it (log 80). A stream that its own trap has stopped keeps the cause, the program
counter and the address of that trap (R397). -/
def Core.takeAll (c : Core) (cause : BitVec 8) : Core :=
  { c with
    harts := c.harts.map fun h =>
      if h.st = .running then
        { h.recordStop with st := .taken, tcause := tcauseWord cause 0 false h.inh h.sys, tfaddr := 0 }
      else h
    stream := if c.stream.running && !c.stream.taken && !c.stream.stopped then
        { c.stream with taken := true, cause := cause, sub := 0, faddr := 0, sleep := none }
      else c.stream }

/-- The gang of a core stops because one of its parties missed a tier (R398). -/
def State.takeGang (s : State) (core : Fin 192) (by_ : Who) : State :=
  (s.gangCores core).foldl (fun s i =>
    s.modCoreAt i (·.takeAll (if i = core then otherReason 0 (some by_) else 0x35))) s

/-- Pre-emption or a tier miss of a hart (R385 delivery L, R398, R401): the record is written and the hart is taken; on
a tier miss every party of the gang stops. -/
def State.deliverLc (s : State) (t : Trap) : State :=
  let s := s.modHart fun h => { h.record t with st := .taken, bare := t.cause == 0x10 }
  if t.cause = 0x10 then s
  else s.takeGang s.cur.core s.cur.who

/-- Entry to the pallet handler (R386). -/
def Hart.enterPallet (h : Hart) : Hart :=
  { h with inh := true, th := { h.th with pc := h.tvec &&& 0x00FFFFFFFFFFFFFC } }

/-- Entry to system firmware (R387). -/
def Hart.enterSystem (h : Hart) (vector : Word) : Hart :=
  { h with sys := true, inh := false, th := { h.th with pc := vector } }

/-- What DBGCTL turns a trap into: BKPT by HOB, SSTEP by HOS, any other by HOT (R410). -/
def Core.haltReason (c : Core) (cause : BitVec 8) : Option (BitVec 8) :=
  if cause = 0x08 then (if bitOf c.dbgctl.toNat 2 then some 0x31 else none)
  else if cause = 0x09 then (if bitOf c.dbgctl.toNat 3 then some 0x32 else none)
  else if causeToLc cause then none
  else if bitOf c.dbgctl.toNat 4 then some 0x33
  else none

/-- Taking an exception on a hart: the one shared operation (R385 to R388, R390). -/
def State.takeHart (s : State) (t : Trap) : State :=
  let h := s.hart
  if h.sys then s.doubleFault
  else match s.core.haltReason t.cause with
  | some reason => s.haltGang s.cur.core reason (some s.cur.who) (some t)
  | none =>
    if causeToLc t.cause then s.deliverLc t
    else if causeCat2 t.cause && h.inh then
      s.modHart fun h => (h.record { t with cause := 0x0E, sub := t.cause }).enterSystem s.sysVector
    else if causeCat2 t.cause && bitOf h.tvec.toNat 0 then s.modHart fun h => (h.record t).enterPallet
    else s.modHart fun h => (h.record t).enterSystem s.sysVector

/-- A trap of the slab stream (R397): it stops, and the partner raises STRMTRAP; PREEMPT and a tier miss go to the
Launch Controller. -/
def State.takeStream (s : State) (t : Trap) : State :=
  match s.core.haltReason t.cause with
  | some _ =>
    s.haltGang s.cur.core (if t.cause = 0x08 then 0x34 else 0x33) (some .stream) (some t)
  | none =>
    let stop := fun (x : Stream) => { x with cause := t.cause, sub := t.sub, faddr := t.faddr, rdv := none, sleep := none }
    if t.cause = 0x10 then s.modCore fun c => { c with stream := { stop c.stream with taken := true } }
    else if causeToLc t.cause then
      (s.modCore fun c => { c with stream := { stop c.stream with taken := true } }).takeGang s.cur.core .stream
    else s.modCore fun c =>
      { c.modHart c.stream.partner (fun h => { h with strmTrap := true, sleep := none }) with
        stream := { stop c.stream with stopped := true } }

/-- Delayed loads that `f` takes keep the value they have (R191). -/
def Core.endLoads (c : Core) (f : LateLoad → Bool) : Core :=
  if c.lates = [] then c else { c with lates := c.lates.filter fun l => !f l }

/-- The delayed loads of the party that runs have been performed. -/
def State.endLoads (s : State) : State :=
  if s.core.lates = [] then s else s.modCore (·.endLoads (·.who == s.cur.who))

/-- Taking an exception (R385): what came before it has been performed. -/
def State.take (s : State) (t : Trap) : State :=
  let s := { s with epoch := s.epoch + 1 }.endLoads
  if s.isStream then s.takeStream t else s.takeHart t

/-- What a hart gives up when an instruction completes: its pending prefix and its wait (R149). -/
def Hart.complete (h : Hart) : Hart := { h with pfx := none, wait := .none, sleep := none, waitStart := none }

/-- The party's instruction has completed and the next one is at `pc`. -/
def State.complete (s : State) (pc : Word) : State :=
  let s := { s with epoch := s.epoch + 1 }
  match s.cur.who with
  | .stream => s.modCore fun c => { c with stream := { c.stream with th := { c.stream.th with pc := pc }, sleep := none,
                                                                       rdv := none } }
  | .hart _ => s.modHart fun h => { h.complete with th := { h.th with pc := pc } }

/-- Whether single stepping is on for the party at pallet privilege (R390, R410). -/
def State.stepping (s : State) : Bool :=
  match s.cur.who with
  | .stream => false
  | .hart h => !s.hart.sys && bitOf s.core.dbgctl.toNat (8 + h.val)

/-- An instruction completes; a hart that is single-stepped then raises SSTEP at the next instruction (R390). -/
def State.retireAt (s : State) (pc : Word) : State :=
  let t := s.complete pc
  if s.stepping then t.take { cause := 0x09 } else t

/-- The usual end: the next word (R138). -/
def State.retire (s : State) : State := s.retireAt (s.pc + 4)

/-- The launch, gang and pallet index that a core runs; a core outside a pallet stands for itself. -/
def Core.palletId (c : Core) (i : Nat) : Nat × Nat × Nat :=
  match c.pallet with
  | some p => (p.launch, p.gang, p.index)
  | none => (0, 0, i)

/-- The identity of the hart that runs, as a barrier counts it. -/
def State.arrival (s : State) : Arrival :=
  let p := s.core.palletId s.cur.core.val
  { launch := p.1, index := p.2.2, hart := s.cur.who.hartIx.val }

/-- The package's pod identifier (R443). -/
def State.podId (s : State) : Nat := bitsOf s.podid.toNat 0 6

/-- An arrival is taken back from an open phase (R402); one that a message has already carried to another package
stays. -/
def Barrier.withdraw (own : Nat) (a : Arrival) (b : Barrier) : Barrier :=
  if !b.arrived.contains a then b
  else match b.key with
  | .pod _ _ =>
    if 0 < b.unsent then { b with arrived := b.arrived.erase a, unsent := b.unsent - 1 }
    else if b.counts.contains (own, 1) then { b with arrived := b.arrived.erase a, counts := b.counts.erase (own, 1) }
    else b
  | _ => { b with arrived := b.arrived.erase a }

/-- An open phase that counts nobody is closed. -/
def Barrier.open (b : Barrier) : Bool := b.arrived != [] || b.counts != []

/-- The BAR arrival of the hart that runs is withdrawn from its phase. -/
def State.withdraw (s : State) : State :=
  match s.hart.wait with
  | .barrier id =>
    let bars := (s.bars.map fun b => if b.id = id then b.withdraw s.podId s.arrival else b).filter Barrier.open
    if bars.any fun b => b.id == id && b.arrived.contains s.arrival then s
    else { s with bars := bars }.modHart fun h => { h with wait := .none }
  | _ => s

/-- Some party of the gang has taken the pending pre-emption request (R401, R402). -/
def State.gangTaken (s : State) : Bool :=
  (s.gangCores s.cur.core).any fun i =>
    let c := s.cores[i]
    c.preempt && (c.stream.taken || c.stream.ended || c.harts.toList.any fun h => h.st == .taken || h.st == .ended)

/-- A waiting party is taken where it waits, once another party of its gang has been (R402). -/
def State.takeWaiting (s : State) : State :=
  let s := { s with epoch := s.epoch + 1 }
  match s.cur.who with
  | .stream => s.modCore fun c => { c with stream := { c.stream with taken := true, cause := 0x10, sub := 0, faddr := 0, rdv := none, sleep := none } }
  | .hart _ => s.withdraw.modHart fun h =>
      { h.recordStop with st := .taken, tcause := tcauseWord 0x10 0 false h.inh h.sys, tfaddr := 0 }

/-- A party that waits is asleep: the program counter stays at the instruction (R376). -/
def State.sleepHere (s : State) : State :=
  match s.cur.who with
  | .stream => s.modCore fun c => { c with stream := { c.stream with sleep := some s.epoch } }
  | .hart _ => s.modHart fun h => { h with sleep := some s.epoch }

/-- Whether a pre-emption takes the party where it waits (R402). -/
def State.takenHere (s : State) : Bool := s.core.preempt && !s.sys && s.gangTaken

/-- Falling asleep in a wait form of R396 or a landed-bit stall: a pending pre-emption takes the party there (R402). -/
def State.fallAsleep (s : State) : State := if s.takenHere then s.takeWaiting else s.sleepHere

/-- A stop as the state it leaves. -/
def Stop.resolve : Stop → State
  | .trap t s => s.take t
  | .wait s => s.sleepHere
  | .park s => s.fallAsleep

/-- Run a body whose instruction then retires to the next word. -/
def finish (m : Act Unit) (s : State) : Host.Outcome State Fault Refusal :=
  match m s with
  | .ok (_, t) => .next t.retire
  | .error e => .next e.resolve

/-- Run a body that answers the address of the next instruction. -/
def finishAt (m : Act Word) (s : State) : Host.Outcome State Fault Refusal :=
  match m s with
  | .ok (pc, t) => .next (t.retireAt pc)
  | .error e => .next e.resolve

/-! ## Returning from an exception (R352, R389, R395) -/

/-- Resuming by R395: at TPC, under the prefix of TPFX, replaying the pairs. -/
def Hart.resume (h : Hart) : Hart :=
  { h with th := { h.th with pc := h.tpc },
           pfx := if bitOf h.tpfx.toNat 32 then some (BitVec.ofNat 32 h.tpfx.toNat) else none,
           replaying := !h.pairsZero, sleep := none, waitStart := none }

/-- The partner's ERET also lets a stream go on that had trapped (R397). -/
def Core.resumeStream (c : Core) (h : Fin 8) : Core :=
  if c.stream.running && c.stream.stopped && c.stream.partner == h then
    { c with stream := { c.stream with stopped := false, sleep := none } }
  else c

/-- Return from system firmware, or from the pallet handler; KILL terminates the pallet (R389). -/
def State.eret (s : State) : State :=
  let h := s.hart
  let s := { s with epoch := s.epoch + 1 }
  if h.sys then
    if bitOf h.tcause.toNat 63 then
      let cause := BitVec.ofNat 8 h.tcause.toNat
      (s.terminate s.cur.core (if cause = 0 then 0x19 else cause)).modHart fun h =>
        { h with sys := bitOf h.tcause.toNat 8, inh := bitOf h.tcause.toNat 9 }
    else s.modCore fun c =>
      (c.modHart s.cur.who.hartIx fun h =>
        { h.resume with sys := bitOf h.tcause.toNat 8, inh := bitOf h.tcause.toNat 9 }).resumeStream s.cur.who.hartIx
  else s.modCore fun c =>
    (c.modHart s.cur.who.hartIx fun h => { h.resume with inh := false }).resumeStream s.cur.who.hartIx

/-! ## The checks before an instruction has any effect (R145, R296) -/

/-- What an instruction's entry says of the checks of R145. -/
structure Legal where
  /-- the word is no instruction -/
  ill : Bool := false
  /-- a reserved field is not zero -/
  rsv : Bool := false
  /-- accepts a predicate, accepts a destination copy (R147) -/
  pred : Bool := false
  copy : Bool := false
  /-- vector registers it reads (R148) -/
  vreads : List Nat := []
  /-- needs system privilege -/
  priv : Bool := false
  /-- names pod scope, which needs PODID to be valid (R21) -/
  pod : Bool := false
  /-- the type code is accepted -/
  ewOk : Bool := true
  /-- vector registers it names (R127), the widest element it names, columns of workspace (R230), a tile (R141) -/
  vregs : List Nat := []
  width : Nat := 0
  wk : Nat := 0
  tile : Bool := false
  /-- the slab stream may run it; a hart may run it (R296) -/
  stream : Bool := false
  hart : Bool := true

/-- The fields of a PFX word (R146). -/
def pfxPred (w : BitVec 32) : Nat := bitsOf w.toNat 23 3
def pfxInv (w : BitVec 32) : Bool := bitOf w.toNat 22
def pfxCopy (w : BitVec 32) : Option Nat := if bitOf w.toNat 21 then some (bitsOf w.toNat 16 5) else none

/-- The rules of R148 that the successor of a PFX can break. -/
def pfxBroken (l : Legal) : Option (BitVec 32) → Bool
  | none => false
  | some w =>
    (pfxPred w != 0 && !l.pred) || ((pfxCopy w).isSome && !l.copy) || (pfxPred w == 0 && (pfxCopy w).isNone) ||
    (match pfxCopy w with | some r => l.vreads.contains r | none => false)

/-- The prefix that the party's instruction runs under. -/
def State.pfx (s : State) : Option (BitVec 32) := if s.isStream then none else s.hart.pfx

/-- The first check of R145 that fails, or SLSTATE, which comes after them (R296), or none. A system instruction on the slab
stream, which runs at pallet privilege (R401), meets the check of privilege first: PRIV. -/
def Legal.cause (l : Legal) (s : State) : Option (BitVec 8) :=
  let c := s.core
  if l.ill then some 0x01
  else if l.rsv then some 0x02
  else if pfxBroken l s.pfx then some 0x03
  else if (l.priv && !s.sys) || (l.pod && !bitOf s.podid.toNat 8) then some 0x04
  else if !l.ewOk then some 0x06
  else if l.vregs.any (c.nv ≤ ·) || c.fw < l.width || c.scol < l.wk || (l.tile && c.acol == 0) ||
      (match s.pfx.bind pfxCopy with | some r => decide (c.nv ≤ r) | none => false) then some 0x05
  else if s.isStream && !l.stream then some 0x93
  else if !s.isStream && !l.hart then some 0x93
  else none

/-- The checks, then a body. -/
def Legal.check (l : Legal) : Act Unit := fun s =>
  match l.cause s with
  | some c => .error (.trap { cause := c } s)
  | none => .ok ((), s)

end Sys2Proof.Machine
end

