-- ==== Sys2Proof/Machine/Translate.lean ====
section
/-! DEFINITION. Physical memory with its sector checks, rings of records, page tables and the checks of R40 on every
access (R24 to R29, R31 to R47, R111, R399). -/

namespace Sys2Proof.Machine

/-! ## Physical memory with its checks -/

/-- Sectors all of whose bytes lie among n bytes from an address: they get a new check from the written data (R25). -/
def wholeSectors (pa n : Nat) : List Nat := (sectorsOf pa n).filter fun k => pa ≤ 64 * k ∧ 64 * k + 64 ≤ pa + n

/-- New checks after a write (R25): a sector written whole gets a good check; a sector of HBM written in part keeps a
failing one, which Epvimond logs (R29). Memory behind a port has its own protection: nothing is verified there (R323). -/
def State.recheck (s : State) (whole touched : List Nat) : State :=
  let s := { s with bad := s.bad.filter (!whole.contains ·) }
  touched.foldl
    (fun s k => if s.bad.contains k && regionOf (64 * k) == .hbm then s.logEvent 1 0 (64 * k) none 1 0 else s) s

/-- A write of bytes to HBM or behind a port: the bytes and the checks (R25, R29). -/
def State.store (s : State) (pa : Nat) (bs : List Byte) : State :=
  let s := { s with mem := writeBytes s.mem pa bs }
  if s.bad = [] then s else s.recheck (wholeSectors pa bs.length) (sectorsOf pa bs.length)

/-- A write of the low n bytes of a value (at most a sector's part). -/
def State.storeLE (s : State) (pa n v : Nat) : State :=
  if s.bad = [] then { s with mem := writeLE s.mem pa n v } else s.store pa (bytesOfLe n v)

/-- Bytes at scattered addresses: a sector all of whose bytes are written gets a good check (R25, R321). -/
def State.storeCells (s : State) (cs : List (Nat × Byte)) : State :=
  let s := { s with mem := cs.foldl (fun m c => writeByte m c.1 c.2) s.mem }
  if s.bad = [] then s
  else
    let touched := (cs.map (·.1 / 64)).eraseDups
    s.recheck (touched.filter fun k => (List.range 64).all fun i => cs.any fun c => c.1 == 64 * k + i) touched

/-- The physical address whose access leaves for a place behind a port (R33): the place itself elsewhere. -/
def State.physical (s : State) (place : Nat) : Nat :=
  match regionOf place with
  | .port n =>
    if place < 2 ^ 52 then place
    else 0x8000000000000 + n * 2 ^ 49 + (place % 2 ^ 64 + 2 ^ 64 - s.pwinbase[dieIx n].toNat) % 2 ^ 49
  | _ => place

/-- The physical address of a place's sector, as a log entry names it (R29, R446). -/
def State.logSector (s : State) (place : Nat) : Nat := s.physical place / 64 * 64

/-- A failing check met in memory, logged (R29): the cause and who read. -/
def State.logCheck (s : State) (cause pa : Nat) : State := s.logEvent 1 cause (s.logSector pa) (some s.cur.core.val) 1 0

/-! ## What passes on the way to memory: the die cache and the ports (R33, R48, R49) -/

/-- How an access uses a line of a die cache (R49): it allocates at high or low priority, or takes what is there. -/
inductive CacheUse where
  | high
  | low
  | none
deriving DecidableEq, Repr

/-- Sets of a die cache: 32 MiB in 16 ways of 64 bytes (R48); the set of a sector is its number modulo this (log 90). -/
def cacheSets : Nat := 32768

/-- The line that gives way in a set, the most recently used first (R49): the least recently used low-priority line, or
the least recently used one where all are high. -/
def cacheVictim (set : List DieLine) : Option DieLine :=
  match (set.filter (!·.high)).getLast? with
  | some l => some l
  | none => set.getLast?

/-- An access to a sector of the die's HBM (R49): a hit renews the line, at high priority where the access has it; a miss
allocates. -/
def Die.touchLine (d : Die) (use : CacheUse) (k : Nat) : Die :=
  match use with
  | .none => d
  | _ =>
    match d.dcache.find? (·.sector == k) with
    | some l => { d with dcache := { l with high := l.high || use == .high } :: d.dcache.erase l }
    | none =>
      let set := d.dcache.filter fun l => l.sector % cacheSets == k % cacheSets
      let kept := if set.length < 16 then d.dcache
        else match cacheVictim set with
          | some v => d.dcache.erase v
          | none => d.dcache
      { d with dcache := { sector := k, high := use == .high } :: kept }

/-- n bytes of HBM from an address pass the die cache of the die that owns them (R48). -/
def State.touchHbm (s : State) (use : CacheUse) (pa n : Nat) : State :=
  match use with
  | .none => s
  | _ => (sectorsOf pa n).foldl (fun s k => s.modDie (dieIx (64 * k / 0x2000000000)) (·.touchLine use k)) s

/-- Whether an access at an offset of port n's window leaves as Unordered I/O (R33). -/
def State.uio (s : State) (n o : Nat) : Bool :=
  let r := s.pwinuio[dieIx n].toNat
  bitOf r 63 && decide (bitsOf r 30 19 * 2 ^ 30 ≤ o) && Config.portUio n

/-- The place in memory of the fabric address that a physical address in a port window leaves with (R33, log 92). -/
def State.fabric (s : State) (pa : Nat) : Nat :=
  match regionOf pa with
  | .port n => if pa < 2 ^ 52 then 2 ^ 64 * (n + 1) + (s.pwinbase[dieIx n].toNat + pa % 2 ^ 49) % 2 ^ 64 else pa
  | _ => pa

/-- The core by which a failure of the data that next leave through a port stands recorded (log 95). -/
def State.outgoing (s : State) (port : Nat) : Option (Fin 192) :=
  (List.finRange 192).find? fun i => s.cores[i].flaws.contains (.outgoing (dieIx port))

/-- Data that leave through a port with a check that fails there are sent poisoned (R323, R29): the receiving memory keeps
them as poison, and Epvimond logs the hand-off (log 95). -/
def State.sendPoisoned (s : State) (core : Fin 192) (port place n : Nat) : State :=
  let t := s.modCoreAt core fun c => { c with flaws := c.flaws.erase (.outgoing (dieIx port)) }
  { t with bad := (sectorsOf place n).filter (!t.bad.contains ·) ++ t.bad }.logEvent 1 0 (s.logSector place)
    (some core.val) 7 0

/-- A request that leaves through a port (R33): a write may find the check of its data failing there. -/
def State.portRequest (s : State) (kind : ReqKind) (port place n : Nat) (data : List Byte) : State :=
  let fails := if kind = .write then s.outgoing port else none
  let t := { s with requests := s.requests ++
      [{ port := port, uio := s.uio port (place % 2 ^ 49), kind := kind, addr := place % 2 ^ 64, data := data, size := n,
         poisoned := fails.isSome }] }
  match fails with
  | some core => t.sendPoisoned core port place n
  | none => t

/-- An access of n bytes on its way: through the die cache, or out through a port. -/
def State.traffic (s : State) (use : CacheUse) (kind : ReqKind) (pa n : Nat) (data : List Byte) : State :=
  match regionOf pa with
  | .hbm => s.touchHbm use pa n
  | .port p => s.portRequest kind p pa n data
  | _ => s

/-- What a read-modify-write leaves a port as (R171): FetchAdd, Swap or CAS with its operands, or a read followed by a CAS. -/
inductive AtomKind where
  | add (v : Nat)
  | swap (v : Nat)
  | cas (compare v : Nat)
  | loop
deriving DecidableEq, Repr

/-- A read-modify-write of n bytes on its way (R171, R33): `old` and `new` are the bytes' values before and after it. -/
def State.atomicTraffic (s : State) (k : AtomKind) (pa n old new : Nat) : State :=
  match k with
  | .add v => s.traffic .high .fetchAdd pa n (bytesOfLe n v)
  | .swap v => s.traffic .high .swap pa n (bytesOfLe n v)
  | .cas c v => s.traffic .high .cas pa n (bytesOfLe n c ++ bytesOfLe n v)
  | .loop => (s.traffic .high .read pa n []).traffic .high .cas pa n (bytesOfLe n old ++ bytesOfLe n new)

/-- The place of a hart's operation among those that reach an atomic unit in one cycle: by global hart id (R171, R202). -/
def hartPlace (core hart : Nat) : Nat := 8 * core + hart

/-- The place of an engine's operation: after every hart's, by core and, within a core, by tag (R171, R202). -/
def enginePlace (core tag : Nat) : Nat := 1536 + 64 * core + tag

/-- An operation reaches an atomic unit: one that stands before the last one in the order of a cycle arrives in the cycle
after it (R202, log 104). -/
def State.reachUnit (s : State) (place : Nat) : State :=
  if s.unitLast.1 = s.time ∧ place < s.unitLast.2 then
    { s with time := s.time + 1, unitLast := (s.time + 1, place) }
  else { s with unitLast := (s.time, place) }

/-- The place of the party that runs: a stream's operations come after those of its core's harts. -/
def State.ownPlace (s : State) : Nat :=
  match s.cur.who with
  | .hart h => hartPlace s.cur.core.val h.val
  | .stream => enginePlace s.cur.core.val 0

/-! ## Rings (R111) -/

/-- What became of a record for a ring: written, held because the ring is full, or refused with a cause (0 where the
descriptor is malformed). -/
inductive RingResult where
  | written (s : State)
  | full
  | refused (cause : Nat)
deriving DecidableEq, Repr

/-- Whether a physical address lies behind a port whose link is down (R378). -/
def State.behindDown (s : State) (pa : Nat) : Bool :=
  match regionOf pa with
  | .port n => !s.linkUp[dieIx n]
  | _ => false

/-- Producing one record: `tr va write` answers the physical address of an access or the cause of its fault. `record`
makes the 32 bytes from the phase bit. -/
def State.ringProduce (s : State) (tr : Nat → Bool → Except Nat Nat) (desc : Nat) (record : Bool → List Byte) : RingResult :=
  if desc % 32 ≠ 0 then .refused 0 else
  match tr desc false with
  | .error c => .refused c
  | .ok d =>
  if s.behindDown d then .full else
  if s.anyBad d 32 then .refused 0x79 else
  let base := readLE s.mem d 8
  let log2n := readLE s.mem (d + 8) 1
  let pidx := readLE s.mem (d + 12) 4
  let headva := readLE s.mem (d + 16) 8
  if readLE s.mem (d + 9) 3 ≠ 0 ∨ readLE s.mem (d + 24) 8 ≠ 0 ∨ log2n < 4 ∨ 16 < log2n ∨
      base % (32 * 2 ^ log2n) ≠ 0 ∨ headva % 4 ≠ 0 then .refused 0 else
  match tr headva false with
  | .error c => .refused c
  | .ok h =>
  if s.behindDown h then .full else
  if s.anyBad h 4 then .refused 0x79 else
  let head := readLE s.mem h 4
  if 2 ^ log2n ≤ (pidx + 2 ^ 32 - head) % 2 ^ 32 then .full else
  match tr (base + 32 * (pidx % 2 ^ log2n)) true, tr desc true with
  | .ok r, .ok dw =>
    if s.behindDown r then .full
    else if s.anyBad r 32 then .refused 0x7A
    else
      let bs := record (!bitOf (pidx / 2 ^ log2n) 0)
      let s := ((s.traffic .low .read d 32 []).traffic .low .read h 4 []).traffic .low .write r 32 bs
      .written (((s.store r bs).storeLE (dw + 12) 4 (pidx + 1)).traffic .low .write (dw + 12) 4 (bytesOfLe 4 (pidx + 1)))
  | .error c, _ => .refused c
  | _, .error c => .refused c

/-- Access by physical address: any region that holds memory. -/
def State.physTr (s : State) (pa : Nat) (_ : Bool) : Except Nat Nat :=
  match regionOf pa with
  | .hbm | .port _ => .ok (s.fabric pa)
  | _ => .error 0x41

/-- A 32-byte record whose last four bytes are the CRC of the rest (R110, R399, R446). -/
def sealRecord (body : List Byte) : List Byte := body ++ bytesOfLe 4 (crc32c body).toNat

/-- The page-in request record of R399. -/
def PageReq.record (r : PageReq) (ph : Bool) : List Byte :=
  sealRecord (bytesOfLe 8 r.va ++ bytesOfLe 8 r.epa ++ bytesOfLe 2 r.ctxid.toNat ++ bytesOfLe 1 r.tier ++
    bytesOfLe 1 (if ph then 1 else 0) ++ bytesOfLe 2 (match r.core with | some c => c | none => 0xFFFF) ++ bytesOfLe 6 0)

/-- Producing a posted request into its die's ring; a request that the ring cannot take is held (R399), and the die's
later ones behind it: records stand in the order in which they were produced (R111). -/
def State.postRequest (s : State) (id : Nat) : State :=
  match s.reqs.find? (·.id == id) with
  | none => s
  | some r =>
    if r.posted || s.reqs.any fun q => q.die == r.die && !q.posted && decide (q.id < r.id) then s else
    let d := s.dies[dieIx r.die]
    if d.pgrq = 0 then s else
    match s.ringProduce s.physTr d.pgrq.toNat r.record with
    | .written t => { t with reqs := t.reqs.map fun q => if q.id = id then { q with posted := true } else q }
    | .full => s
    | .refused c =>
      if d.pgrqLogged then s
      else (s.modDie (dieIx r.die) fun d => { d with pgrqLogged := true }).logEvent 4 c d.pgrq.toNat none 0 0

/-! ## Page tables (R34 to R39) -/

/-- Index of a virtual address at a level (R35). -/
def tableIndex (level va : Nat) : Nat :=
  match level with
  | 0 => bitsOf va 16 5
  | 1 => bitsOf va 21 9
  | 2 => bitsOf va 30 9
  | _ => bitsOf va 39 17

/-- log2 of the page size that a leaf at a level maps. -/
def pageBits (level : Nat) : Nat :=
  match level with
  | 0 => 16
  | 1 => 21
  | _ => 30

def leafTier (e : Nat) : Nat := bitsOf e 8 2
def leafPromote (e : Nat) : Bool := bitOf e 7
def leafIdem (e : Nat) : Bool := bitOf e 6
def leafFrame (e : Nat) : Nat := bitsOf e 16 36 * 65536

/-- A page that lies wholly in one region. -/
def pageIn (base bits : Nat) (r : Region) : Bool := regionOf base == r && regionOf (base + 2 ^ bits - 1) == r

/-- A valid leaf that is malformed (R38). -/
def leafMalformed (level e : Nat) : Bool :=
  let tier := leafTier e
  bitsOf e 52 12 != 0 || bitOf e 15 || bitOf e 11 || 3 ≤ level ||
  (level == 1 && bitsOf e 16 5 != 0) || (level == 2 && bitsOf e 16 14 != 0) ||
  tier == 3 || (leafPromote e && tier != 1) || (bitOf e 10 && tier == 0) || (bitOf e 3 && !bitOf e 2) ||
  (tier == 0 && !pageIn (leafFrame e) (pageBits level) .hbm && !pageIn (leafFrame e) (pageBits level) .regs) ||
  (tier == 1 && !leafPromote e && !(List.range 4).any fun n => pageIn (leafFrame e) (pageBits level) (.port n))

/-- A valid pointer that is malformed (R37, R38). -/
def ptrMalformed (level e : Nat) : Bool :=
  level == 0 || bitsOf e 2 6 != 0 || bitsOf e 52 12 != 0 || (2 ≤ level && bitsOf e 8 4 != 0) ||
  Config.hbmSize ≤ bitsOf e 8 44 * 256

/-- A walk from a table of a level downward, and the pointers it read as (level, table). A root that names a table outside
HBM makes its entry malformed, as a pointer's table does (log 82). -/
def walkLevel (s : State) (va : Nat) : Nat → Nat → Walk × List (Nat × Nat)
  | level, table =>
    let epa := table + 8 * tableIndex level va
    if Config.hbmSize ≤ epa then (.malformed epa, []) else
    if s.sectorBad epa then (.checkFail epa, []) else
    let e := readLE s.mem epa 8
    if !bitOf e 0 then (.invalid, [])
    else if bitOf e 1 then (if leafMalformed level e then .malformed epa else .leaf level (BitVec.ofNat 64 e) epa, [])
    else if ptrMalformed level e then (.malformed epa, [])
    else match level with
      | 0 => (.malformed epa, [])
      | l + 1 =>
        let next := bitsOf e 8 44 * 256
        let w := walkLevel s va l next
        (w.1, (l + 1, next) :: w.2)

/-- On whose behalf an access is made: the core that translates, if any; PTROOT; privilege; the requesting die. -/
structure Agent where
  core : Option (Fin 192)
  root : Word
  sys : Bool
  die : Nat
deriving DecidableEq, Repr

def rootTable (root : Word) : Nat := bitsOf root.toNat 20 32 * 2 ^ 20
def rootCtxid (root : Word) : BitVec 16 := BitVec.ofNat 16 (root.toNat / 16)

/-- The party that runs, as an agent. -/
def State.agent (s : State) : Agent := { core := some s.cur.core, root := s.core.ptroot, sys := s.sys, die := dieOf s.cur.core }

/-- The VA prefix that a pointer entry of a level covers. -/
def vaPrefix (level va : Nat) : Nat := va / 2 ^ (match level with | 1 => 21 | 2 => 30 | _ => 39)

/-- The entries of a core's TLB that cover an address (R45). -/
def Core.tlbFor (c : Core) (ctxid : BitVec 16) (va : Nat) : List TlbEntry :=
  c.tlb.filter fun e => e.ctxid == ctxid && va / 2 ^ pageBits e.level == e.page

/-- Whether an access of an agent is served without a walk: its core's TLB holds the page (R45, R46). -/
def State.tlbHit (s : State) (a : Agent) (va : Nat) : Bool :=
  match a.core with
  | none => false
  | some c => s.cores[c].tlbFor (rootCtxid a.root) va != []

/-- Whether a walk is for a page of a context. -/
def WalkRun.isFor (w : WalkRun) (ctxid : BitVec 16) (page : Nat) : Bool := w.ctxid == ctxid && w.page == page

/-- A walk takes a walker of the die for some time (R46, log 91); a walk of the page before it is over. The walks of a
Launch Controller or a pager are not the walker's. -/
def Die.addWalk (d : Die) (w : WalkRun) : Die :=
  let ask := d.walkWait.filter fun k => !(k.ctxid == w.ctxid && k.page == w.page)
  let ws := d.walks.filter (!·.isFor w.ctxid w.page) ++ [w]
  { d with walks := ws.drop (ws.length - 384), walkWait := ask }

/-- What a walk leaves behind: its walker, the pointers that the walker may cache, and the table entries' lines in the die
caches (R46, R49). `w` is the walk from the root and the pointers that it read, `result` what the access receives. -/
def State.walked (s : State) (a : Agent) (va : Nat) (w : Walk × List (Nat × Nat)) (result : Walk) : State :=
  let ctxid := rootCtxid a.root
  let s := s.modDie (dieIx a.die) fun d =>
    { (match a.core with
       | some c => d.addWalk { ctxid := ctxid, page := va / 65536, until_ := s.time + Config.walkTime s.time, core := c.val,
                               result := result }
       | none => d) with
      ptrs := (w.2.map fun p => (ctxid, p.1, vaPrefix p.1 va, p.2)).filter (!d.ptrs.contains ·) ++ d.ptrs }
  ((4, rootTable a.root) :: w.2).foldl
    (fun s p => s.touchHbm .high (p.2 + 8 * tableIndex (p.1 - 1) va) 8) s

/-- The translations that an access may use: the walk's, and those of entries that the TLB or the walker's pointer cache
still holds (R45, R46, R47). Where they agree there is no choice; otherwise one is used and the spec does not say
which. -/
def State.walkFor (s : State) (a : Agent) (va : Nat) : Walk × State :=
  let w := walkLevel s va 3 (rootTable a.root)
  let ctxid := rootCtxid a.root
  let old := match a.core with
    | none => []
    | some c => (s.cores[c].tlbFor ctxid va).map fun e => Walk.leaf e.level e.leaf e.epa
  let viaPtr := (s.dies[dieIx a.die].ptrs.filter fun p => p.1 == ctxid && vaPrefix p.2.1 va == p.2.2.1).map fun p =>
    (walkLevel s va (p.2.1 - 1) p.2.2.2).1
  let others := (old ++ viaPtr).filter (· ≠ w.1)
  let end_ := fun (r : Walk) (s : State) => (r, if s.tlbHit a va then s else s.walked a va w r)
  if others = [] then end_ w.1 s
  else
    let n := s.fresh
    end_ ((w.1 :: others).getD (Config.freeNat n.1 % (others.length + 1)) w.1) n.2

/-- The walk in progress that a request of a core joins (R46): one for the same page that another core of the die asked
for. -/
def State.joinable (s : State) (a : Agent) (va : Nat) : Option WalkRun :=
  match a.core with
  | none => none
  | some c =>
    if s.tlbHit a va then none
    else s.dies[dieIx a.die].walks.find? fun w => w.isFor (rootCtxid a.root) (va / 65536) && w.core != c.val

/-- What an access translates by (R45, R46): the result of the walk that it joins, or its own. A walk whose fault has been
delivered is over: the access's restart walks again (R47). -/
def State.resolve (s : State) (a : Agent) (va : Nat) : Walk × State :=
  match s.joinable a va with
  | none => s.walkFor a va
  | some w =>
    match w.result with
    | .leaf _ _ _ => (w.result, s)
    | _ => (w.result, s.modDie (dieIx a.die) fun d => { d with walks := d.walks.erase w })

/-- Kinds of access (R40 step 4). -/
inductive AccKind where
  | fetch
  | load
  | store
  | atomic
deriving DecidableEq, Repr

/-- An access: its kind, the source of R40, whether it may touch device-class memory (R57), and whether it is one of the
non-faulting forms (R42, R179). -/
structure Acc where
  kind : AccKind
  source : Nat
  device : Bool := false
  /-- the alignment it needs -/
  align : Nat := 1
deriving DecidableEq, Repr

/-- The kinds of memory fault (R40). -/
def kNotPres : Nat := 0
def kProtR : Nat := 1
def kProtW : Nat := 2
def kProtX : Nat := 3
def kTierMiss : Nat := 4
def kAlign : Nat := 5
def kDevClass : Nat := 6
def kCheckFail : Nat := 7

/-- Not a kind of R40: the number that makes the cause PORTTO, 0xA8 | source (R384; log 78). -/
def kPortTo : Nat := 13

/-- Not kinds of R40: a Siroc transfer that failed after link recovery, SIROCERR, and a request to a port window that
completed with an error, PORTERR, 0xB8 | source (R384; log 95). -/
def kSiroc : Nat := 14
def kPortErr : Nat := 15

/-- The cause of a memory fault (R40), or of a failed transfer (R384). -/
def memCause (kind source : Nat) : BitVec 8 := if kind = kSiroc then 0xB7 else BitVec.ofNat 8 (0x40 + kind * 8 + source)

/-- TFADDR of a fault of an access to an address: SIROCERR gives none (R390). -/
def faultAddr (kind va : Nat) : Word := if kind = kSiroc then 0 else BitVec.ofNat 64 va

/-- Whether register space is reached through a leaf that R437 does not allow: SYS = 0 (the fault is log 94). -/
def openRegs (e : Nat) : Bool := regionOf (leafFrame e) == .regs && leafTier e == 0 && !bitOf e 5

/-- The permission that an access lacks (R40 step 4). -/
def permFault (kind : AccKind) (sys : Bool) (e : Nat) : Option Nat :=
  let r := bitOf e 2
  let w := bitOf e 3
  let hidden := (bitOf e 5 && !sys) || openRegs e
  match kind with
  | .fetch => if hidden || !bitOf e 4 then some kProtX else none
  | .load => if hidden || !r then some kProtR else none
  | .store => if hidden || !w then some kProtW else none
  | .atomic => if hidden || !r then some kProtR else if !w then some kProtW else none

/-- Posting a page-in (R42): one request for a page whose entry is not in flight. -/
def State.pageIn (s : State) (a : Agent) (va : Nat) (level : Nat) (e : Word) (epa : Nat) : State :=
  if bitOf e.toNat 10 then s
  else
    let s := (s.storeLE epa 8 (e.toNat + 1024)).touchHbm .high epa 8
    let die := if bitOf e.toNat 14 then bitsOf e.toNat 12 2 else a.die
    let r : PageReq :=
      { id := s.nextReq, die := die, va := va / 2 ^ pageBits level * 2 ^ pageBits level, ctxid := rootCtxid a.root,
        epa := epa, tier := leafTier e.toNat, core := a.core.map (·.val), posted := false,
        level := level, fcode := none, hold := none }
    { s with reqs := s.reqs ++ [r], nextReq := s.nextReq + 1 }.postRequest r.id

/-- A translated page: the physical address of the accessed byte and whether the page is idempotent memory. -/
structure Xlat where
  pa : Nat
  idem : Bool
deriving DecidableEq, Repr

/-- How a translation ends: an address or a fault. -/
inductive XlatResult where
  | ok (x : Xlat) (s : State)
  | fault (kind : Nat) (s : State)
deriving DecidableEq, Repr

/-- A transfer of a core that a failing unit stops (R384; log 95): a request to a port window, or one that crosses Siroc to
another die's HBM. The failure is over then. -/
def State.unitFault (s : State) (a : Agent) (pa : Nat) : Option (Nat × State) :=
  match a.core with
  | none => none
  | some c =>
    let used := fun (u : HwUnit) => s.modCoreAt c fun k => { k with flaws := k.flaws.erase u }
    match regionOf pa with
    | .port n => if s.cores[c].flaws.contains (.port (dieIx n)) then some (kPortErr, used (.port (dieIx n))) else none
    | .hbm => if pa / 0x2000000000 ≠ a.die ∧ s.cores[c].flaws.contains .siroc then some (kSiroc, used .siroc) else none
    | _ => none

/-- Steps 1 to 6 of R40; then a request of a core to a port window whose link is down times out (PORTTO, R384), and a
transfer may fail (R384). A page behind a port is the memory that its fabric address names (R33). -/
def State.translate (s : State) (a : Agent) (acc : Acc) (va : Nat) : XlatResult :=
  if 2 ^ 56 ≤ va then .fault kNotPres s
  else if va % acc.align ≠ 0 then .fault kAlign s
  else
  let (w, s) := s.resolve a va
  match w with
  | .invalid => .fault kNotPres s
  | .malformed epa => .fault kNotPres (s.logEvent 2 0 epa (a.core.map (·.val)) 0 0)
  | .checkFail epa => .fault kCheckFail (s.logEvent 1 (memCause kCheckFail acc.source).toNat (s.logSector epa) (a.core.map (·.val)) 1 0)
  | .leaf level e epa =>
    match permFault acc.kind a.sys e.toNat with
    | some k => .fault k s
    | none =>
      let tier := leafTier e.toNat
      let absent := tier == 2 || leafPromote e.toNat
      let pa := leafFrame e.toNat + va % 2 ^ pageBits level
      let idem := leafIdem e.toNat
      if (!idem && !acc.device) || (!absent && idem && regionOf pa == .regs) then .fault kDevClass s
      else if absent then .fault kTierMiss (s.pageIn a va level e epa)
      else if a.core.isSome && s.behindDown pa then .fault kPortTo s
      else match s.unitFault a pa with
      | some f => .fault f.1 f.2
      | none =>
        let entry : TlbEntry :=
          { ctxid := rootCtxid a.root, level := level, page := va / 2 ^ pageBits level, leaf := e, epa := epa }
        let t := match a.core with
          | none => s
          | some c => s.modCoreAt c fun k =>
              if k.tlb.contains entry then k else { k with tlb := (entry :: k.tlb).take 192 }
        .ok { pa := s.fabric pa, idem := idem } t

/-- The first address of a list whose walk has to wait: no entry of the TLB covers it, no walk for its page is under way,
and the free walkers are owed to requests that came before (R46). Later addresses wait within the instruction. -/
def State.lateWalk (s : State) (vas : List Nat) : Option Nat :=
  let d := s.dies[s.dieNo]
  let ctxid := rootCtxid s.core.ptroot
  match vas.find? fun va => decide (va < 2 ^ 56) && !s.tlbHit s.agent va with
  | none => none
  | some va =>
    if 384 ≤ d.walks.length + d.walkWait.length && !d.walks.any fun w => w.ctxid == ctxid && w.page == va / 65536
    then some va else none

/-- A request that waits for a walker, after those that came before it; in one cycle the lower core goes first (R46). -/
def insertAsk (w : WalkAsk) : List WalkAsk → List WalkAsk
  | [] => [w]
  | a :: as => if a.time == w.time && decide (w.core < a.core) then w :: a :: as else a :: insertAsk w as

/-- All walkers busy: the instruction waits for the page that its first walk needs, before it performs anything (R46). -/
def walkerGate (vas : List Nat) : Act Unit := fun s =>
  match s.lateWalk vas with
  | none => .ok ((), s)
  | some va =>
    let w : WalkAsk :=
      { ctxid := rootCtxid s.core.ptroot, page := va / 65536, time := s.time, core := s.cur.core.val }
    .error (.wait (s.modDie s.dieNo fun d =>
      if d.walkWait.any fun a => a.ctxid == w.ctxid && a.page == w.page then d
      else { d with walkWait := insertAsk w d.walkWait }))

/-- Steps 1 to 6 of R40 for the party that runs: an address, or the memory cause raised with TFADDR. -/
def xlat (acc : Acc) (va : Nat) : Act Xlat := fun s =>
  match s.translate s.agent acc va with
  | .ok x t => .ok (x, t)
  | .fault kind t =>
    .error (.trap { cause := memCause kind acc.source, faddr := faultAddr kind va } t)

/-- Step 7 of R40: a failing check of the data read. -/
def checkData (source va pa n : Nat) : Act Unit := fun s =>
  if s.anyBad pa n then
    .error (.trap { cause := memCause kCheckFail source, faddr := BitVec.ofNat 64 va }
      (s.logCheck (memCause kCheckFail source).toNat pa))
  else .ok ((), s)

/-! ## Ranges of memory -/

/-- Virtual pages of 64 KiB with the physical pages that they were translated to, and IDEM. -/
abbrev PageMap := List (Nat × Nat × Bool)

def PageMap.pa (p : PageMap) (va : Nat) : Nat :=
  match p.find? (·.1 == va / 65536) with
  | some e => e.2.1 * 65536 + va % 65536
  | none => 0

/-- Whether the page of an address is idempotent memory. -/
def PageMap.idem (p : PageMap) (va : Nat) : Bool :=
  match p.find? (·.1 == va / 65536) with
  | some e => e.2.2
  | none => true

/-- The first address of each 64 KiB page that a range touches. -/
def pageStarts (va n : Nat) : List Nat :=
  if n = 0 then []
  else (List.range' (va / 65536) ((va + n - 1) / 65536 + 1 - va / 65536)).map fun p => max va (p * 65536)

end Sys2Proof.Machine
end

