-- ==== Sys2Proof/Machine/Registers.lean ====
section
/-! DEFINITION. Register space: the registers of BAR0 and what reading and writing them does (R14, R19 to R22, R33, R361,
R363, R378, R380, R399, R400, R409 to R412, R437 to R446). Hosts reach them through BAR0 and device parties through
device-class pages. -/

namespace Sys2Proof.Machine

/-- Who accesses a register: a port (0, 1 hosts; 2 Epvimond), or a device party (3), and its requester ID. -/
structure Requester where
  port : Nat
  rid : BitVec 16
deriving DecidableEq, Repr

def State.bootReady (s : State) : Bool := bitOf s.bootstat.toNat 0

/-! ## MSI-X (R14, R18): BAR4 holds the table, and from 0x8000 the pending-bit array (log 99) -/

/-- A table entry at reset: masked, as MSI-X has it (log 99). -/
def MsixEntry.reset (port vector : Nat) : MsixEntry := { port := port, vector := vector, addr := 0, data := 0, masked := true }

def State.msixEntry (s : State) (port vector : Nat) : MsixEntry :=
  (s.msixTable.find? fun e => e.port == port && e.vector == vector).getD (.reset port vector)

/-- Pending vectors of a port whose messages can go: its link is up and they are unmasked (R18). -/
def State.msixSend (s : State) (port : Nat) : State :=
  let (go, stay) := s.msixPending.partition fun p =>
    p.1 == port && s.linkUp[dieIx port] && !(s.msixEntry p.1 p.2).masked
  { s with msixPending := stay, out := s.out ++ go.map fun (p : Nat × Nat) => Output.msix p.1 p.2 }

/-- An MSI-X vector raised on a port: its pending bit is set until the message is sent (R18). -/
def State.msix (s : State) (port vector : Nat) : State :=
  if s.msixPending.contains (port, vector) then s
  else { s with msixPending := s.msixPending ++ [(port, vector)] }.msixSend port

/-- The 64-bit word at an aligned offset of a port's BAR4. -/
def State.bar4Read (s : State) (port off : Nat) : Word :=
  if off < 0x8000 then
    let e := s.msixEntry port (off / 16)
    if off % 16 = 0 then e.addr else BitVec.ofNat 64 (e.data.toNat + if e.masked then 2 ^ 32 else 0)
  else if off < 0x8100 then
    BitVec.ofNat 64 (((List.range 64).filter fun i => s.msixPending.contains (port, 8 * (off - 0x8000) + i)).map (2 ^ ·)).sum
  else 0

/-- A write of 4 or 8 aligned bytes to a port's MSI-X table: unmasking sends what is pending. -/
def State.bar4Write (s : State) (port off n v : Nat) : State :=
  if 0x8000 ≤ off ∨ off % n ≠ 0 ∨ (n ≠ 4 ∧ n ≠ 8) then s
  else
    let e := s.msixEntry port (off / 16)
    let word := fun (old : Nat) => old - bitsOf old (8 * (off % 8)) (8 * n) * 2 ^ (8 * (off % 8)) + v % 2 ^ (8 * n) * 2 ^ (8 * (off % 8))
    let e := if off % 16 < 8 then { e with addr := BitVec.ofNat 64 (word e.addr.toNat) &&& ~~~3 }
      else
        let w := word (e.data.toNat + if e.masked then 2 ^ 32 else 0)
        { e with data := BitVec.ofNat 32 w, masked := bitOf w 32 }
    { s with msixTable := s.msixTable.filter (fun (x : MsixEntry) => !(x.port == port && x.vector == e.vector)) ++ [e] }.msixSend port

/-- Core clock cycles in a microsecond (R381). -/
def cyclesPerUs : Nat := 1100

/-! ## The semaphore block (R19, R20) -/

/-- Microseconds until the time-out; zero when free or disabled. -/
def Sem.left (m : Sem) (time : Nat) : Nat :=
  if m.held then m.tleft.toNat - (time - m.loadedAt) / cyclesPerUs else 0

/-- The layout that SEMACQ and SEMSTAT return. -/
def Sem.word (m : Sem) (time : Nat) (got : Bool) : Word :=
  BitVec.ofNat 64 ((if m.held then 2 ^ 63 else 0) + (if m.expired then 2 ^ 62 else 0) + (if got then 2 ^ 61 else 0) +
    m.ownPort.toNat * 2 ^ 58 + m.ownRid.toNat * 2 ^ 40 + m.seq.toNat * 2 ^ 32 + m.left time)

def semIx (n : Nat) : Fin 16 := if h : n < 16 then ⟨n, h⟩ else 0

def State.modSem (s : State) (n : Fin 16) (f : Sem → Sem) : State := { s with sems := s.sems.set n (f s.sems[n]) }

/-- A held semaphore with a time-out whose microseconds are over. -/
def Sem.due (m : Sem) (time : Nat) : Bool := m.held && m.tleft != 0 && m.left time == 0

/-- Freeing by expiry or by a link loss (R18, R20). -/
def Sem.expire (m : Sem) : Sem := { m with held := false, tleft := 0, expired := true }

/-- Expiry (R20): a semaphore whose time is over is freed before any other operation on it; vector 2 047 tells a host
port that owned it. -/
def State.semSettle (s : State) (n : Fin 16) : State :=
  let m := s.sems[n]
  if !m.due s.time then s
  else
    let t := { s with epoch := s.epoch + 1 }.modSem n Sem.expire
    if m.ownPort.toNat < 2 then t.msix m.ownPort.toNat 2047 else t

/-- A 64-bit SEMACQ read acquires a free semaphore and answers its state (R20). -/
def State.semAcquire (s : State) (n : Fin 16) (q : Requester) : Word × State :=
  let s := s.semSettle n
  let m := s.sems[n]
  if m.held then (m.word s.time false, s)
  else
    let m := { m with held := true, ownPort := BitVec.ofNat 2 q.port, ownRid := q.rid, seq := m.seq + 1,
                      loadedAt := s.time, tleft := m.timeout }
    (m.word s.time true, s.modSem n fun _ => m)

/-- A SEMREL write: effective only from the owner with the current SEQ and REL; any other is discarded and logged. -/
def State.semRelease (s : State) (n : Fin 16) (q : Requester) (v : Word) : State :=
  let s := s.semSettle n
  let m := s.sems[n]
  if m.held && bitOf v.toNat 0 && m.ownPort == BitVec.ofNat 2 q.port && m.ownRid == q.rid && m.seq == BitVec.ofNat 8 (v.toNat / 2 ^ 32)
  then s.modSem n fun m => { m with held := false, tleft := 0 }
  else s.logEvent 3 0 0 none 0 0

/-- A SEMTIME write: from the owner, or from any requester while the semaphore is free. -/
def State.semTime (s : State) (n : Fin 16) (q : Requester) (v : Word) : State :=
  let s := s.semSettle n
  let m := s.sems[n]
  let t := BitVec.ofNat 32 v.toNat
  if !m.held then s.modSem n fun m => { m with timeout := t }
  else if m.ownPort == BitVec.ofNat 2 q.port && m.ownRid == q.rid then
    s.modSem n fun m => { m with timeout := t, tleft := t, loadedAt := s.time }
  else s

/-- A SEMSTAT write: 1 to EXPIRED clears it. -/
def State.semStat (s : State) (n : Fin 16) (v : Word) : State :=
  let s := s.semSettle n
  if bitOf v.toNat 62 then s.modSem n fun m => { m with expired := false } else s

/-! ## The Launch Controller's memory accesses -/

/-- The Launch Controller of a die as an agent of a context (R361, R42). -/
def State.lcAgent (s : State) (ctx die : Nat) : Agent :=
  { core := none, root := s.ctxroot[ctx % 64]'(Nat.mod_lt _ (by decide)), sys := false, die := die }

/-- A translated access of the Launch Controller: an address or a cause, and what the access left behind. -/
def State.lcXlat (s : State) (a : Agent) (acc : Acc) (va : Nat) : Except Nat Nat × State :=
  match s.translate a acc va with
  | .ok x t => (.ok x.pa, t)
  | .fault kind t => (.error (memCause kind acc.source).toNat, t)

/-- A range cut at the 64 KiB pages: the first address and the length of each part. -/
def pageParts (va n : Nat) : List (Nat × Nat) :=
  (pageStarts va n).map fun a => (a, min ((a / 65536 + 1) * 65536) (va + n) - a)

/-- Reading the parts of a range, each with the checks of R40. The die caches see the access as one of the BTE (log 90). -/
def State.lcReadParts (s : State) (a : Agent) (source : Nat) : List (Nat × Nat) → Except Nat (List Byte) × State
  | [] => (.ok [], s)
  | p :: ps =>
    let r := s.lcXlat a { kind := .load, source := source } p.1
    match r.1 with
    | .error c => (.error c, r.2)
    | .ok pa =>
      if r.2.anyBad pa p.2 then
        (.error (memCause kCheckFail source).toNat,
          r.2.logEvent 1 (memCause kCheckFail source).toNat (r.2.logSector (r.2.firstBadSector pa p.2)) none 1 0)
      else
        let t := (r.2.traffic .low .read pa p.2 []).lcReadParts a source ps
        match t.1 with
        | .error c => (.error c, t.2)
        | .ok bs => (.ok (readBytes s.mem pa p.2 ++ bs), t.2)

/-- Reading n bytes at a virtual address. -/
def State.lcRead (s : State) (a : Agent) (source va n : Nat) : Except Nat (List Byte) × State :=
  s.lcReadParts a source (pageParts va n)

/-- Translation for a ring named by virtual addresses. -/
def State.ringTr (s : State) (a : Agent) (va : Nat) (write : Bool) : Except Nat Nat :=
  (s.lcXlat a { kind := if write then .store else .load, source := if write then 2 else 1 } va).1

/-- Adding 1 to an event signal; an add that faults is not performed and is logged (R324 step 5). -/
def State.signalAdd (s : State) (ctx die va : Nat) : State :=
  if va = 0 then s else
  let r := s.lcXlat (s.lcAgent ctx die) { kind := .atomic, source := 2, align := 8 } va
  match r.1 with
  | .error c => r.2.logEvent 11 c va none 0 0
  | .ok pa =>
    if r.2.sectorBad pa then r.2.logEvent 11 (memCause kCheckFail 2).toNat va none 0 0
    else
      let v := readLE r.2.mem pa 8 + 1
      (r.2.storeLE pa 8 v).atomicTraffic (.add 1) pa 8 (v - 1) v

/-! ## Launches that end without their pallets (R364, R371, R378, R384) -/

/-- A failure of n pallets, the lowest of index i, with a cause (R325). -/
def Launch.fail (l : Launch) (n i : Nat) (cause : BitVec 8) : Launch :=
  if n = 0 then l else
  { l with pfail := l.pfail + n,
           firstFail := match l.firstFail with
             | some (j, c) => if i < j then some (i, cause) else some (j, c)
             | none => some (i, cause) }

/-- Every gang of a launch that has not been placed ends without starting. -/
def Launch.stopUnplaced (l : Launch) (cause : BitVec 8) : Launch :=
  let first := l.nextGang * l.gang
  if l.state = .held ∨ l.state = .closing then l else
  { l.fail (l.count - first) first cause with nextGang := l.count / l.gang, state := .closing }

/-- Whether a launch's completion ring lies behind a port whose link is down (R378). -/
def State.ringDown (s : State) (l : Launch) : Bool :=
  let tr := s.ringTr (s.lcAgent l.ctx l.home)
  let down := fun (va : Nat) => match tr va false with
    | .ok pa => s.behindDown pa
    | .error _ => false
  down l.ring ||
    match tr l.ring false with
    | .error _ => false
    | .ok d => down (readLE s.mem (d + 16) 8) ||
        down (readLE s.mem d 8 + 32 * (readLE s.mem (d + 12) 4 % 2 ^ readLE s.mem (d + 8) 1))

/-- Held completion records are discarded and their signals incremented (R378). -/
def State.releaseHeld (s : State) (p : Launch → Bool) : State :=
  let (gone, kept) := s.launches.partition fun l => l.state == .held && p l
  gone.foldl (fun s l => s.signalAdd l.ctx l.home l.signal) { s with launches := kept }

/-- Writing EN = 0 to a queue (R364, R378): records held for a link that is down are released. -/
def State.queueDisable (s : State) (q : Nat) : State :=
  let s := { s with launches := s.launches.map fun (l : Launch) => if l.queue = q then l.stopUnplaced 0x1C else l }
  s.releaseHeld fun l => l.queue == q && s.ringDown l

/-! ## Pre-emption requests (R380, R403) -/

/-- The raw-sized space that a pallet's image is given: a pool of 8 MiB and what goes with it (log 17). -/
def rawImage : Nat := 9 * 2 ^ 20

/-- Images that a shadow store of 64 MiB holds, and that a die's spill area of SPILLN blocks of 2 MiB holds (R409). -/
def shadowImages : Nat := 64 * 2 ^ 20 / rawImage

def spillImages (d : Die) : Nat := bitsOf d.spilln.toNat 0 16 * 2 ^ 21 / rawImage

/-- Raw-sized space of a die that no image takes and no posted request has reserved (R403). -/
def State.imageRoom (s : State) (die : Fin 4) : Nat :=
  shadowImages + spillImages s.dies[die] -
    ((s.outs.filter fun g => g.die == die.val && !g.gone).map (·.images.length)).sum -
    ((List.finRange 192).filter fun i => dieOf i.val == die.val && s.cores[i].preempt).length

/-- Whether a core runs a pallet of a gang in RUN. -/
def Core.runs (c : Core) : Bool :=
  match c.pallet with
  | some p => p.board == .run
  | none => false

/-- The quads that a pre-emption of a quad concerns: all of its die's where a die gang touches it (R380). -/
def State.preemptQuads (s : State) (quad : Nat) : List Nat :=
  if (List.finRange 192).any fun i => i.val / 4 == quad && s.cores[i].runs &&
      match s.cores[i].pallet with
      | some p => p.size == 48
      | none => false
  then List.range' (quad / 12 * 12) 12 else [quad]

/-- The cores whose parties a pre-emption of a quad concerns: the running gangs that touch its quads. -/
def State.quadGangCores (s : State) (quad : Nat) : List (Fin 192) :=
  (List.finRange 192).filter fun i =>
    s.cores[i].runs && (s.gangCores i).any fun j => (s.preemptQuads quad).contains (j.val / 4) && s.cores[j].runs

/-- Posting a pre-emption request for a quad; it waits while no image space is free (R403). -/
def State.preemptQuad (s : State) (quad : Nat) : State :=
  let cs := (s.quadGangCores quad).filter fun i => !s.cores[i].preempt
  if cs = [] then s
  else if cs.length ≤ s.imageRoom (dieIx (quad / 12)) then
    cs.foldl (fun s i => s.modCoreAt i fun c => { c with preempt := true }) s
  else if s.preemptHeld.contains quad then s
  else { s with preemptHeld := s.preemptHeld ++ [quad] }

/-- Requests that waited for image space are posted where there is room now. -/
def State.retryPreempts (s : State) : State :=
  s.preemptHeld.foldl State.preemptQuad { s with preemptHeld := [] }

/-- A gang that has ended in OUT is kept while an engine operation of its pallets is outstanding (R324, R112). -/
def OutGang.kept (g : OutGang) : Bool := !g.gone || g.images.any fun m => m.core.ops != []

/-- Making a context slot invalid: its unplaced and saved gangs end with CTXGONE (R384 code 0x1E), and what their images
held is free. -/
def State.contextGone (s : State) (ctx : Nat) : State :=
  let mine := fun (g : OutGang) => !g.gone && s.launches.any fun l => l.id == g.launch && l.ctx == ctx
  let outs := s.outs.filter mine
  let end_ := fun (g : OutGang) => { g with gone := true, images := g.images.map fun m => { m with place := none } }
  let s := { s with outs := (s.outs.map fun g => if mine g then end_ g else g).filter OutGang.kept }
  let gone := fun (l : Launch) =>
    (outs.filter (·.launch == l.id)).foldl (fun (l : Launch) g => l.fail l.gang (g.gang * l.gang) 0x1E) (l.stopUnplaced 0x1E)
  { s with launches := s.launches.map fun (l : Launch) => if l.ctx = ctx then gone l else l }.retryPreempts

/-! ## Debug halt and resume (R410 to R412) -/

/-- The gang saved from a core, where the core runs no other: its images hold the halt (R412). -/
def OutGang.holdHalt (core : Nat) (reason : BitVec 8) (g : OutGang) : OutGang :=
  { g with images := g.images.map fun m =>
      if m.home = core ∧ !g.gone then { m with core := { m.core with haltHeld := some reason } } else m }

/-- A halt request for a core: held while its gang is being saved, out, or not yet in RUN; otherwise the gang halts at this
boundary. A held halt goes with its gang (R412). -/
def State.requestHalt (s : State) (core : Fin 192) (reason : BitVec 8) : State :=
  let c := s.cores[core]
  if c.halted then s
  else if c.runs && !(c.stream.taken || c.harts.toList.any (·.st == .taken)) then s.haltGang core reason none none
  else
    let pend := fun (c : Core) => ({ c with dbgstat := dbgstatWord 0 true false } : Core)
    if c.pallet.isNone && s.outs.any fun g => !g.gone && g.images.any (·.home == core.val) then
      { s with outs := s.outs.map fun (g : OutGang) => g.holdHalt core.val reason }.modCoreAt core pend
    else s.modCoreAt core fun c => { pend c with haltHeld := some reason }

/-- RESUME continues every party of the gang at the privilege it held (R412). -/
def Core.resume (c : Core) : Core :=
  { c with harts := c.harts.map fun h => if h.st = .halted then { h.resume with st := .running } else h,
           stream := { c.stream with sleep := none }, dbgstat := 0 }

def State.resumeGang (s : State) (core : Fin 192) : State :=
  (s.gangCores core).foldl (fun s i => s.modCoreAt i fun c => if c.halted then c.resume else c) s

/-- A write of DBGCTL: HALT and RESUME act, the other fields are stored. -/
def State.writeDbgctl (s : State) (core : Fin 192) (v : Word) : State :=
  let s := s.modCoreAt core fun c => { c with dbgctl := v &&& 0x1FF1C }
  let s := if bitOf v.toNat 1 then s.resumeGang core else s
  if bitOf v.toNat 0 then s.requestHalt core 0x30 else s

/-- Engine operations of a core that R356 waits for. -/
def Core.opsOutstanding (c : Core) : Bool := c.ops != []

/-- DBGSTAT as read: QUIET while halted with nothing outstanding. -/
def Core.dbgstatRead (c : Core) : Word :=
  if c.halted && !c.opsOutstanding then c.dbgstat ||| 4 else c.dbgstat

/-! ## Power-token mode (R382, R441, R442) -/

def Die.tokenMode (d : Die) : Bool := d.boot || d.test || d.recovery || d.thermal

/-- Every core of a die shows whether the mode is on; the token lies where the die holds it (R320). -/
def State.spreadToken (s : State) : State :=
  { s with cores := Vector.ofFn fun i =>
      let d := s.dies[dieIx (dieOf i.val)]
      { s.cores[i] with tokenMode := d.tokenMode, tokenHeld := d.tokenMode && i.val == d.token + 48 * dieOf i.val } }

/-- A write of TESTCTL. -/
def State.writeTestctl (s : State) (v : Word) : State :=
  { s with testctl := v &&& 0xF,
           dies := Vector.ofFn fun d => { s.dies[d] with test := bitOf v.toNat d.val } }.spreadToken

/-! ## Module reset (R438, R444) -/

/-- A fundamental reset: boot starts at stage 1. What survives: the fused SVN minima (R444), the contents behind the ports,
the link states, what has left the package, and the model's own fields. -/
def State.moduleReset (s : State) : State :=
  { State.reset with
    mem := s.mem.filter fun c => Config.hbmSize ≤ c.1
    bad := s.bad.filter fun k => Config.hbmSize ≤ 64 * k
    svnMin := s.svnMin, linkUp := s.linkUp, out := s.out, requests := s.requests, inbox := s.inbox, free := s.free,
    epoch := s.epoch + 1, ticks := s.ticks }

/-! ## Queues (R363, R364) -/

def qIx (n : Nat) : Fin 32 := if h : n < 32 then ⟨n, h⟩ else 0

def State.modQueue (s : State) (q : Fin 32) (f : QueueRegs → QueueRegs) : State :=
  { s with queues := s.queues.set q (f s.queues[q]) }

def QueueRegs.en (r : QueueRegs) : Bool := bitOf r.cfg.toNat 4
def QueueRegs.log2n (r : QueueRegs) : Nat := bitsOf r.cfg.toNat 0 4
def QueueRegs.home (r : QueueRegs) : Nat := bitsOf r.cfg.toNat 10 2
def QueueRegs.weight (r : QueueRegs) : Nat := bitsOf r.cfg.toNat 12 4
def QueueRegs.badcfg (r : QueueRegs) : Bool := r.stat.getLsbD 1
def QueueRegs.stalled (r : QueueRegs) : Bool := r.stat.getLsbD 0

/-- BADCFG is set when LOG2N is out of range while EN = 1, or when more records are announced than the ring has slots; it
stays until EN = 0. -/
def QueueRegs.checkCfg (r : QueueRegs) : QueueRegs :=
  if (r.en && (r.log2n < 2 || 12 < r.log2n)) || 2 ^ r.log2n < (r.tail - r.head).toNat then { r with stat := r.stat ||| 2 }
  else r

/-- Whether a port owns a queue, in the host role (R15): 0 to 15 belong to P0, 16 to 31 to P1. -/
def State.ownsQueue (s : State) (port q : Nat) : Bool := port == q / 16 && s.roles.getLsbD port

/-- QKICK (R363, R364): the tail is set, STALLED is cleared and the reads start afresh. -/
def State.queueKick (s : State) (q : Fin 32) (v : Word) : State :=
  s.modQueue q fun r => { r with tail := BitVec.ofNat 32 v.toNat, stat := r.stat &&& 2, tries := 0 }.checkCfg

/-- QCFG (R363, R364): EN from 0 to 1 sets HEAD and TAIL to 0 and ends BADCFG; EN = 0 stops the queue; LOG2N
is ignored while EN = 1. -/
def State.queueConfig (s : State) (q : Fin 32) (v : Word) : State :=
  let r := s.queues[q]
  let new := v &&& 0xFC1F
  if bitOf v.toNat 4 then
    if r.en then s.modQueue q fun r => { r with cfg := (new &&& 0xFFF0) ||| (r.cfg &&& 0xF) }
    else s.modQueue q fun r => { r with cfg := new, head := 0, tail := 0, stat := r.stat &&& 1, tries := 0 }.checkCfg
  else
    let s := s.modQueue q fun r =>
      { r with cfg := if r.en then (new &&& 0xFFF0) ||| (r.cfg &&& 0xF) else new }.checkCfg
    s.queueDisable q.val

/-! ## Reading and writing a register by its offset -/

def ix64 (n : Nat) : Fin 64 := if h : n < 64 then ⟨n, h⟩ else 0

def State.semRead (s : State) (q : Requester) (n : Fin 16) (o : Nat) : Word × State :=
  match o with
  | 0x00 => s.semAcquire n q
  | 0x08 => let s := s.semSettle n; (s.sems[n].word s.time false, s)
  | 0x18 => (s.sems[n].timeout.setWidth 64, s)
  | _ => (0, s)

def State.semWrite (s : State) (q : Requester) (n : Fin 16) (o : Nat) (v : Word) : State :=
  match o with
  | 0x08 => s.semStat n v
  | 0x10 => s.semRelease n q v
  | 0x18 => s.semTime n q v
  | _ => s

def QueueRegs.read (r : QueueRegs) (o : Nat) : Word :=
  match o with
  | 0x00 => r.base
  | 0x08 => r.cfg
  | 0x18 => r.head.setWidth 64
  | 0x20 => r.stat.setWidth 64
  | _ => 0

def State.queueWrite (s : State) (n : Fin 32) (o : Nat) (v : Word) : State :=
  match o with
  | 0x00 => if s.queues[n].en then s else s.modQueue n fun r => { r with base := v &&& 0xFFFFFFFFFFFC0 }
  | 0x08 => s.queueConfig n v
  | 0x10 => s.queueKick n v
  | _ => s

/-- A register of a pair that lies at +0x0 and +0x8 of 16 bytes. -/
def pairRead (lo hi : Word) (off : Nat) : Word := if off % 16 = 0 then lo else if off % 16 = 8 then hi else 0

def State.ctxRead (s : State) (n : Fin 64) (off : Nat) : Word := pairRead s.ctxroot[n] s.ctxpart[n] off
def State.pgnRead (s : State) (n : Fin 64) (off : Nat) : Word := pairRead s.pgnring[n] s.pgnmode[n] off
def State.podRead (s : State) (n : Fin 64) (off : Nat) : Word := pairRead s.podbar[n] s.podcfg[n] off
def Core.dbgRead (c : Core) (off : Nat) : Word := pairRead c.dbgctl c.dbgstatRead off
def Die.spillRead (d : Die) (off : Nat) : Word := pairRead d.spillb d.spilln off

def State.ctxWrite (s : State) (n : Fin 64) (off : Nat) (v : Word) : State :=
  if off % 16 = 0 then { s with ctxroot := s.ctxroot.set n v }
  else
    let s := { s with ctxpart := s.ctxpart.set n v }
    if bitOf v.toNat 63 then s else s.contextGone n.val

def State.pgnWrite (s : State) (n : Fin 64) (off : Nat) (v : Word) : State :=
  if off % 16 = 0 then { s with pgnring := s.pgnring.set n v }
  else { s with pgnmode := s.pgnmode.set n (v &&& 0x0FFFFFFFFFFFFFFF) }

def State.podWrite (s : State) (n : Fin 64) (off : Nat) (v : Word) : State :=
  if off % 16 = 0 then { s with podbar := s.podbar.set n (v &&& 0xFFFFFFFFFC000000) }
  else { s with podcfg := s.podcfg.set n (v &&& 0x103) }

/-- A write of PGRQd: held requests are produced once a usable ring is named (R399). -/
def State.pgrqWrite (s : State) (d : Fin 4) (v : Word) : State :=
  let s := s.modDie d fun k => { k with pgrq := v, pgrqLogged := false }
  (s.reqs.filter fun r => r.die == d.val && !r.posted).foldl (fun s r => s.postRequest r.id) s

def State.spillWrite (s : State) (d : Fin 4) (off : Nat) (v : Word) : State :=
  (s.modDie d fun k =>
    if off % 16 = 0 then { k with spillb := v &&& 0xFFFFFFFE00000 } else { k with spilln := v &&& 0xFFFF }).retryPreempts

/-- A write of MCTRL (R444): a module reset when the requester holds SEM15. -/
def State.mctrlWrite (s : State) (q : Requester) (v : Word) : State :=
  if !bitOf v.toNat 0 then s
  else
    let s := s.semSettle 15
    let m := s.sems[15]
    if m.held && m.ownPort == BitVec.ofNat 2 q.port && m.ownRid == q.rid then s.moduleReset
    else s.logEvent 9 0 0 none 0 0

def State.podidWrite (s : State) (v : Word) : State :=
  if bitOf s.podid.toNat 8 then s else { s with podid := (v &&& 0x3F) ||| 0x100 }

/-- DQFLUSH (R378): bit d releases every held record of device queue d, and of its launches that still run once it is
produced. -/
def State.dqflushWrite (s : State) (v : Word) : State :=
  let mine := fun (l : Launch) => decide (32 ≤ l.queue) && bitOf v.toNat (l.queue - 32)
  let mark := fun (l : Launch) => if mine l && l.state != .held then { l with flushed := true } else l
  { s with launches := s.launches.map mark }.releaseHeld mine

/-- BOOTSTAT as read: STAGE is 1 while stage 1 is under way (R438). -/
def State.bootstatRead (s : State) : Word := if s.bootstat = 0 then 0x100 else s.bootstat

/-- The registers of the management block (R437). -/
def State.mgmtRead (s : State) (off : Nat) : Word :=
  if off = 0x1000 then 0x4B590000C0C00001
  else if off = 0x1008 then s.bootstatRead
  else if off = 0x1010 then s.podid
  else if off = 0x1018 then s.msense
  else if off = 0x1020 then s.testctl
  else if off = 0x1028 then s.logring
  else if off = 0x1030 then s.loglost
  else if 0x1080 ≤ off ∧ off < 0x10A0 then s.pwinbase[dieIx ((off - 0x1080) / 8)]
  else if 0x10A0 ≤ off ∧ off < 0x10C0 then s.pwinuio[dieIx ((off - 0x10A0) / 8)]
  else 0

def State.mgmtWrite (s : State) (q : Requester) (off : Nat) (v : Word) : State :=
  if off = 0x1010 then s.podidWrite v
  else if off = 0x1020 then s.writeTestctl v
  else if off = 0x1028 then { s with logring := v, logBad := false }
  else if off = 0x1038 then s.mctrlWrite q v
  else if 0x1080 ≤ off ∧ off < 0x10A0 then
    { s with pwinbase := s.pwinbase.set (dieIx ((off - 0x1080) / 8)) (v &&& 0xFFFE000000000000) }
  else if 0x10A0 ≤ off ∧ off < 0x10C0 then
    { s with pwinuio := s.pwinuio.set (dieIx ((off - 0x10A0) / 8)) (v &&& 0x8001FFFFC0000000) }
  else s

/-- The 64-bit register at an 8-byte-aligned offset of BAR0, and what the read changes (R14, R437): a requester that
reads SEMACQ with 64 bits acquires. Until READY only the management block answers (R438). -/
def State.regRead (s : State) (q : Requester) (off : Nat) : Word × State :=
  if 0x1000 ≤ off ∧ off < 0x1100 then (s.mgmtRead off, s)
  else if !s.bootReady then (0, s)
  else if 0x2000 ≤ off ∧ off < 0x2800 then (s.queues[qIx ((off - 0x2000) / 64)].read (off % 64), s)
  else if off = 0x3000 then (s.lcage, s)
  else if 0x3020 ≤ off ∧ off < 0x3040 then (s.dies[dieIx ((off - 0x3020) / 8)].pgrq, s)
  else if 0x3040 ≤ off ∧ off < 0x3080 then (s.dies[dieIx ((off - 0x3040) / 16)].spillRead off, s)
  else if 0x4000 ≤ off ∧ off < 0x4400 then (s.ctxRead (ix64 ((off - 0x4000) / 16)) off, s)
  else if 0x4400 ≤ off ∧ off < 0x4800 then (s.pgnRead (ix64 ((off - 0x4400) / 16)) off, s)
  else if 0x5000 ≤ off ∧ off < 0x5400 then (s.podRead (ix64 ((off - 0x5000) / 16)) off, s)
  else if 0x8000 ≤ off ∧ off < 0x8C00 then (s.cores[coreIx ((off - 0x8000) / 16)].dbgRead off, s)
  else if 0x100000 ≤ off ∧ off < 0x100200 then s.semRead q (semIx ((off - 0x100000) / 32)) (off % 32)
  else (0, s)

/-- A read of some naturally aligned bytes: the addressed part of the register; narrower than 64 bits, SEMACQ and SEMREL
read zero and acquire nothing (R14). -/
def State.regReadPart (s : State) (q : Requester) (off n : Nat) : Nat × State :=
  if n = 8 then let r := s.regRead q off; (r.1.toNat, r.2)
  else
    let base := off / 8 * 8
    if 0x100000 ≤ base ∧ base < 0x100200 ∧ (base % 32 = 0 ∨ base % 32 = 0x10) then (0, s)
    else (bitsOf (s.regRead q base).1.toNat (8 * (off - base)) (8 * n), s)

/-- An aligned 64-bit write to a register (R9, R14): reserved and read-only fields keep their values. -/
def State.regWrite (s : State) (q : Requester) (off : Nat) (v : Word) : State :=
  if 0x1000 ≤ off ∧ off < 0x1100 then s.mgmtWrite q off v
  else if !s.bootReady then s
  else if 0x2000 ≤ off ∧ off < 0x2800 then
    if s.ownsQueue q.port ((off - 0x2000) / 64) then s.queueWrite (qIx ((off - 0x2000) / 64)) (off % 64) v else s
  else if off = 0x3000 then { s with lcage := v }
  else if off = 0x3008 then s.preemptQuad (bitsOf v.toNat 0 6)
  else if off = 0x3010 then s.dqflushWrite v
  else if 0x3020 ≤ off ∧ off < 0x3040 then s.pgrqWrite (dieIx ((off - 0x3020) / 8)) v
  else if 0x3040 ≤ off ∧ off < 0x3080 then s.spillWrite (dieIx ((off - 0x3040) / 16)) off v
  else if 0x4000 ≤ off ∧ off < 0x4400 then s.ctxWrite (ix64 ((off - 0x4000) / 16)) off v
  else if 0x4400 ≤ off ∧ off < 0x4800 then s.pgnWrite (ix64 ((off - 0x4400) / 16)) off v
  else if 0x5000 ≤ off ∧ off < 0x5400 then s.podWrite (ix64 ((off - 0x5000) / 16)) off v
  else if 0x8000 ≤ off ∧ off < 0x8C00 then
    if off % 16 = 0 then s.writeDbgctl (coreIx ((off - 0x8000) / 16)) v else s
  else if 0x100000 ≤ off ∧ off < 0x100200 then s.semWrite q (semIx ((off - 0x100000) / 32)) (off % 32) v
  else s

/-- A write of n bytes (R14): effective only as an aligned 64-bit write, or for QKICK an aligned 32-bit one. -/
def State.regWritePart (s : State) (q : Requester) (off n : Nat) (v : Nat) : State :=
  if n = 8 ∧ off % 8 = 0 then s.regWrite q off (BitVec.ofNat 64 v)
  else if n = 4 ∧ 0x2000 ≤ off ∧ off < 0x2800 ∧ off % 64 = 0x10 then s.regWrite q off (BitVec.ofNat 64 v)
  else s

/-- The requester that a device party is to a register (log 18). -/
def deviceRequester : Requester := { port := 3, rid := 0 }

end Sys2Proof.Machine
end

