-- ==== Sys2Proof/Machine/Access.lean ====
section
/-! DEFINITION. Accesses of the parties: scalar loads and stores, instruction fetch, the two caches that may hold old
bytes, and ranges of memory for engines (R40, R51 to R57, R138). -/

namespace Sys2Proof.Machine

/-- The source of a party's access in memory causes: a slab stream's is 7 (R296). -/
def State.source (s : State) (n : Nat) : Nat := if s.isStream then 7 else n

/-- The bytes of a sector. -/
def sectorBytes (m : List Host.Cell) (sector : Nat) : List Byte := readBytes m (64 * sector) 64

/-- The n bytes at offset o of a line. -/
def Line.part (l : Line) (o n : Nat) : List Byte := (l.bytes.drop o).take n

/-- A write of bytes into the lines that a cache holds (R51). -/
def patchLine (pa : Nat) (bs : List Byte) (l : Line) : Line :=
  { l with bytes := l.bytes.mapIdx fun i b =>
      let a := 64 * l.sector + i
      if pa ≤ a ∧ a < pa + bs.length then bs.getD (a - pa) b else b }

/-- A write by a party of a core reaches the lines of the core's scalar data cache (R51). -/
def State.sdcWrite (s : State) (pa : Nat) (bs : List Byte) : State :=
  s.modCore fun c => if c.sdc = [] then c else { c with sdc := c.sdc.map (patchLine pa bs) }

/-- The whole scalar data cache of the core is invalidated (R52). -/
def State.sdcInvalidate (s : State) : State := s.modCore fun c => { c with sdc := [] }

/-- What a cache that is not coherent gives for n bytes: the line's bytes or memory's; where they differ the spec does
not say which (R47, R52, R53). The line then holds what was used; filling one reads its sector through the die cache. -/
def pickCached (s : State) (ls : List Line) (pa n : Nat) : List Byte × List Line × State :=
  let k := pa / 64
  let now := readBytes s.mem pa n
  let fill := fun (ls : List Line) (s : State) =>
    (now, ({ sector := k, bytes := sectorBytes s.mem k } :: ls).take 1024, s.traffic .high .read (64 * k) 64 [])
  match ls.find? (·.sector == k) with
  | none => fill ls s
  | some l =>
    let old := l.part (pa % 64) n
    if old = now then (now, ls, s)
    else
      let f := s.fresh
      if Config.freeBit f.1 0 then (old, ls, f.2) else fill (ls.filter (·.sector != k)) f.2

/-- A write that leaves through a port is flushed at its launch's completion (R324), and by a release at pod scope where it
is a posted one (R207). -/
def State.notePort (s : State) (pa : Nat) : State :=
  match regionOf pa with
  | .port n =>
    let s := if s.uio n (pa % 2 ^ 49) || s.core.unflushed.contains (s.cur.who, n) then s
      else s.modCore fun c => { c with unflushed := c.unflushed ++ [(s.cur.who, n)] }
    match s.core.pallet with
    | some p =>
      { s with launches := s.launches.map fun l =>
          if l.id = p.launch then { l with ports := l.ports ||| BitVec.ofNat 4 (2 ^ n) } else l }
    | none => s
  | _ => s

/-- A release at pod scope (R207): zero-length reads flush the ports that the party has posted writes through, but for the
releasing write's own. -/
def State.podRelease (s : State) (own : Option Nat) : State :=
  let ps := (s.core.unflushed.filter fun p => p.1 == s.cur.who && some p.2 != own).map (·.2)
  if ps = [] then s
  else { s with out := s.out ++ ps.map fun n => Output.flush n }.modCore fun c =>
    { c with unflushed := c.unflushed.filter fun p => !(p.1 == s.cur.who && ps.contains p.2) }

/-- The port behind which an address lies. -/
def portOf (pa : Nat) : Option Nat :=
  match regionOf pa with
  | .port n => some n
  | _ => none

/-! ## Accesses that are not locally ordered (R191) -/

/-- How a party accesses memory: its ordering class, whether the access is scalar, its use of the die cache (R49), and
whether the core's store path assembles its sectors, so that their checks are made once for the whole instruction (R322). -/
structure Role where
  oc : BitVec 4 := 0
  scalar : Bool := true
  cache : CacheUse := .high
  assembled : Bool := false
deriving DecidableEq, Repr

/-- An access as the party's local order sees it: its class, whether it is scalar or of device class, and its bytes. -/
structure Touch where
  oc : BitVec 4
  scalar : Bool
  dev : Bool
  pa : Nat
  n : Nat
deriving DecidableEq, Repr

def Role.touch (r : Role) (pa n : Nat) (dev : Bool := false) : Touch :=
  { oc := r.oc, scalar := r.scalar, dev := dev, pa := pa, n := n }

def classBit (c : BitVec 4) : BitVec 16 := BitVec.ofNat 16 (2 ^ c.toNat)

/-- Whether two ranges share a byte. -/
def overlaps (a n b m : Nat) : Bool := decide (a < b + m ∧ b < a + n)

def PastStore.covers (p : PastStore) (a : Nat) : Bool := decide (p.pa ≤ a ∧ a < p.pa + p.old.length)
def PastStore.oldAt (p : PastStore) (a : Nat) : Byte := p.old.getD (a - p.pa) 0
def PastStore.newAt (p : PastStore) (a : Nat) : Byte := p.new.getD (a - p.pa) 0

/-- Whether a store is ordered before an access that the party makes now: one of a class for which an earlier access or a
FENCE has ordered it, a scalar one that overlaps a scalar access after it, or a device-class one after another (R191 cases
1, 2, 3 and 5, closed under R194). -/
def PastStore.precedes (p : PastStore) (x : Touch) : Bool :=
  !p.unordered.getLsbD x.oc.toNat || (x.scalar && p.scal.any fun k => overlaps k.1 k.2 x.pa x.n) || (x.dev && p.dev)

/-- A store after which an access is ordered: so is what is ordered after that access (R194). -/
def PastStore.follow (p : PastStore) (x : Touch) : PastStore :=
  { p with unordered := p.unordered &&& ~~~classBit x.oc, done := p.done ||| classBit x.oc,
           scal := if x.scalar && !p.scal.contains (x.pa, x.n) then (x.pa, x.n) :: p.scal else p.scal,
           dev := p.dev || x.dev }

/-- Some earlier stores change their place in the local order; one that every class is ordered after is dropped. -/
def Core.reorder (c : Core) (f : PastStore → PastStore) : Core :=
  if c.past = [] then c else { c with past := (c.past.map f).filter (·.unordered != 0) }

/-- Some earlier stores are ordered before every later access of the classes of a mask. -/
def Core.orderPast (c : Core) (f : PastStore → Bool) (mask : BitVec 16) : Core :=
  c.reorder fun p => if f p then { p with unordered := p.unordered &&& ~~~mask } else p

/-- Whether a delayed load comes before an access that the party makes now (R191 cases 1 to 3). The loads of one instruction
are not ordered among themselves. -/
def LateLoad.precedes (l : LateLoad) (x : Touch) (tick : Nat) : Bool :=
  l.tick != tick && (l.behind.getLsbD x.oc.toNat || (l.scalar && x.scalar && overlaps l.pa l.n x.pa x.n))

/-- The party makes an access: the loads before it have been performed. -/
def State.passLoads (s : State) (x : Touch) : State :=
  if s.core.lates = [] then s else s.modCore (·.endLoads fun l => l.who == s.cur.who && l.precedes x s.ticks)

/-- It follows the stores that it is ordered after, and those whose value or a later one it has returned: no access ordered
after it returns an older one (R195 rule 3). -/
def State.passStores (s : State) (x : Touch) (seen : PastStore → Bool := fun _ => false) : State :=
  if s.core.past = [] then s
  else s.modCore (·.reorder fun p => if p.who == s.cur.who && (p.precedes x || seen p) then p.follow x else p)

def State.pass (s : State) (x : Touch) (seen : PastStore → Bool := fun _ => false) : State := (s.passLoads x).passStores x seen

/-- A load of idempotent memory stays open to the value of a later moment until something that follows it in local order is
performed (R191). -/
def State.openLoad (s : State) (r : Role) (x : Xlat) (n : Nat) (dest : LoadDest) : State :=
  if x.idem && regionOf x.pa == .hbm then
    s.modCore fun c =>
      { c with lates := { who := s.cur.who, cls := r.oc, behind := classBit r.oc, scalar := r.scalar, pa := x.pa, n := n,
                          tick := s.ticks, dest := dest } :: c.lates }
  else s

/-- The party's earlier stores to some bytes, the latest first. -/
def State.ownPast (s : State) (pa n : Nat) : List PastStore :=
  s.core.past.filter fun p => p.who == s.cur.who && overlaps p.pa p.old.length pa n

/-- Those that an access of a role is not ordered after, up to the first that it is. -/
def State.unorderedPast (s : State) (r : Role) (pa n : Nat) : List PastStore :=
  (s.ownPast pa n).takeWhile fun p => !p.precedes (r.touch pa n)

/-- Bytes from an address with the bytes that an earlier store replaced put back. -/
def putBack (pa : Nat) (bs : List Byte) (e : Nat × List Byte) : List Byte :=
  bs.mapIdx fun i b => if e.1 ≤ pa + i ∧ pa + i < e.1 + e.2.length then e.2.getD (pa + i - e.1) b else b

/-! ### What an engine operation finds of its issuer's stores (R196) -/

/-- The old bytes of the stores that an operation of a class is not ordered after, where no later store that it is ordered
after covers them (`stop`), with the step of each store. -/
def forkCells (oc : BitVec 4) (stop : List PastStore) : List PastStore → List (Nat × List (Nat × Byte))
  | [] => []
  | p :: ps =>
    if p.unordered.getLsbD oc.toNat then
      (p.tick, (p.old.mapIdx fun i b => (p.pa + i, b)).filter fun c => !stop.any (·.covers c.1)) :: forkCells oc stop ps
    else forkCells oc (p :: stop) ps

/-- The stores of one instruction form one layer: an operation finds a sector before or after all of them (R27, R102). -/
def joinLayers : List (Nat × List (Nat × Byte)) → List (Nat × List (Nat × Byte))
  | [] => []
  | q :: qs =>
    match joinLayers qs with
    | r :: rs => if q.1 = r.1 then (q.1, q.2 ++ r.2) :: rs else q :: r :: rs
    | [] => [q]

/-- What an engine operation of the current party may find in memory in place of the party's earlier stores: its class
orders it after those that an access of that class is ordered after, and no others (R196). -/
def State.forkPast (s : State) (oc : BitVec 4) : List (List (Nat × Byte)) :=
  ((joinLayers (forkCells oc [] (s.core.past.filter (·.who == s.cur.who)))).map (·.2)).filter (· ≠ [])

/-- Memory with one sector as it was before the k latest layers. -/
def backOut (past : List (List (Nat × Byte))) (sector k : Nat) (m : List Host.Cell) : List Host.Cell :=
  (past.take k).foldl (fun m l => l.foldl (fun m c => if c.1 / 64 = sector then writeByte m c.1 c.2 else m) m) m

/-- The sectors that layers touch. -/
def forkSectors (past : List (List (Nat × Byte))) : List Nat := (past.flatMap (·.map (·.1 / 64))).eraseDups

/-- The memory that an operation finds: each sector as it is, or before some of its issuer's latest stores that the
operation is not ordered after (R196, R102). -/
def State.forkMem (s : State) (past : List (List (Nat × Byte))) : List Host.Cell × State :=
  (forkSectors past).foldl (fun q k =>
    let f := q.2.fresh
    (backOut past k (Config.freeNat f.1 % (past.length + 1)) q.1, f.2)) (s.mem, s)

/-! ### Orders -/

/-- Every earlier access of the party is ordered before every later one. -/
def State.orderAll (s : State) : State :=
  s.modCore fun c => (c.orderPast (·.who == s.cur.who) (BitVec.allOnes 16)).endLoads (·.who == s.cur.who)

/-- Delayed loads of the classes of a mask come before later accesses of these classes. -/
def Core.delayMask (c : Core) (w : Who) (m : BitVec 16) : Core :=
  if c.lates = [] then c
  else { c with lates := c.lates.map fun l =>
    if l.who = w ∧ m.getLsbD l.cls.toNat then { l with behind := l.behind ||| m } else l }

/-- A FENCE orders earlier accesses of the classes of its mask before later ones (R191 case 3): with them, the stores that
they follow (R194). -/
def State.orderMask (s : State) (m : BitVec 16) : State :=
  s.modCore fun c => (c.orderPast (fun p => p.who == s.cur.who && p.done &&& m != 0) m).delayMask s.cur.who m

/-- Whether another party has written over a store of a core: memory does not hold what the core's own latest store to one
of its bytes wrote. -/
def State.overtaken (s : State) (p : PastStore) : Bool :=
  (List.range p.old.length).any fun i =>
    match s.core.past.find? fun q => q.who == p.who && q.covers (p.pa + i) with
    | some q => q.newAt (p.pa + i) != readByte s.mem (p.pa + i)
    | none => false

/-- The acquire of a FENCE (R192, R193): later accesses of its mask follow what another party released, and so find nothing
older than what that party has written over (log 93). -/
def State.acquireMask (s : State) (m : BitVec 16) : State :=
  (s.modCore (·.orderPast (fun p => p.who == s.cur.who && s.overtaken p) m)).orderMask m

/-- What a load finds: memory's bytes, or those before some of the party's latest stores that it is not ordered after; the
spec does not say which. What is ordered after the load then finds nothing older (R195). -/
def State.pastRead (s : State) (r : Role) (pa : Nat) (bs : List Byte) : List Byte × State :=
  let x := r.touch pa bs.length
  match s.unorderedPast r pa bs.length with
  | [] => (bs, s.pass x)
  | es =>
    let f := s.fresh
    let k := Config.freeNat f.1 % (es.length + 1)
    ((es.take k).foldl (fun b p => putBack pa b (p.pa, p.old)) bs, f.2.pass x fun p => (es.drop k).contains p)

/-- Bytes of a store as they reach memory: with new checks, or for the store path to make them. -/
def State.putLE (s : State) (r : Role) (pa n v : Nat) : State :=
  if r.assembled then { s with mem := writeLE s.mem pa n v } else s.storeLE pa n v

def State.putCells (s : State) (r : Role) (cs : List (Nat × Byte)) : State :=
  if r.assembled then { s with mem := cs.foldl (fun m c => writeByte m c.1 c.2) s.mem } else s.storeCells cs

/-- A store of the party as it is remembered: what it replaces in memory, and that accesses of its class, scalar ones that
overlap it, and device-class ones after a device-class one follow it. -/
def State.pastStore (s : State) (r : Role) (pa n v : Nat) : PastStore :=
  { who := s.cur.who, cls := r.oc, scalar := r.scalar, pa := pa, old := readBytes s.mem pa n, new := bytesOfLe n v,
    tick := s.ticks, unordered := ~~~classBit r.oc, done := classBit r.oc, scal := if r.scalar then [(pa, n)] else [],
    dev := false }

/-- A store stays in reach of accesses that are not ordered after it, unless what it replaced is out of reach: a sector
whose check failed (R29). -/
def State.remember (s : State) (idem : Bool) (p : PastStore) (t : State) : State :=
  if idem && !s.anyBad p.pa p.old.length then t.modCore fun c => { c with past := p :: c.past } else t

/-- A store of the low n bytes of a value in program order. -/
def State.storeNext (s : State) (r : Role) (idem : Bool) (pa n v : Nat) : State :=
  let t := ((((s.pass (r.touch pa n (!idem))).putLE r pa n v).sdcWrite pa (bytesOfLe n v)).notePort pa).traffic
    (if idem then r.cache else .none) .write pa n (bytesOfLe n v)
  s.remember idem (s.pastStore r pa n v) t

/-- The list up to the k-th store that `hit` takes, and the rest. -/
def splitHits (hit : PastStore → Bool) : Nat → List PastStore → List PastStore × List PastStore
  | 0, ps => ([], ps)
  | _ + 1, [] => ([], [])
  | k + 1, p :: ps =>
    let r := splitHits hit (if hit p then k else k + 1) ps
    (p :: r.1, r.2)

/-- A store takes its place in coherence order before some stores, the latest first: at each common byte the earliest of
them now replaces it. What is left of the addresses `left` reaches memory. -/
def placeBefore (hit : PastStore → Bool) (e : PastStore) (left : List Nat) (later : List PastStore) :
    PastStore × List Nat × List PastStore :=
  later.foldr (fun p q =>
    if hit p then
      let mine := fun (a : Nat) => q.2.1.contains a && p.covers a
      ({ q.1 with old := q.1.old.mapIdx fun i b => if mine (e.pa + i) then p.oldAt (e.pa + i) else b },
       q.2.1.filter (!p.covers ·),
       { p with old := p.old.mapIdx fun i b => if mine (p.pa + i) then e.newAt (p.pa + i) else b } :: q.2.2)
    else (q.1, q.2.1, p :: q.2.2)) (e, left, [])

/-- A store that takes its place before the k latest of the party's stores to its bytes. -/
def State.storeBefore (s : State) (r : Role) (pa n v k : Nat) : State :=
  let hit := fun (p : PastStore) => p.who == s.cur.who && overlaps p.pa p.old.length pa n
  let t := s.pass (r.touch pa n)
  let ps := splitHits hit k t.core.past
  let q := placeBefore hit (s.pastStore r pa n v) ((List.range n).map (pa + ·)) ps.1
  let cells := ((bytesOfLe n v).mapIdx fun i b => (pa + i, b)).filter fun c => q.2.1.contains c.1
  let t := (cells.foldl (fun s c => s.sdcWrite c.1 [c.2]) (t.putCells r cells)).notePort pa
  (t.traffic r.cache .write pa n (bytesOfLe n v)).modCore fun c => { c with past := q.2.2 ++ q.1 :: ps.2 }

/-- A store of a party: it may take its place before some of the party's earlier stores that it is not ordered after. -/
def State.partyStore (s : State) (r : Role) (x : Xlat) (n v : Nat) : State :=
  match (if x.idem then s.unorderedPast r x.pa n else []) with
  | [] => s.storeNext r x.idem x.pa n v
  | es =>
    let f := s.fresh
    match Config.freeNat f.1 % (es.length + 1) with
    | 0 => f.2.storeNext r x.idem x.pa n v
    | k + 1 => f.2.storeBefore r x.pa n v (k + 1)

/-- An acquire of all classes, or an engine's completion observed: the scalar data cache is invalidated (R52), and what the
party has stored is ordered before its later accesses (R192, R196, log 93). -/
def acquire : Act Unit := upd fun s => s.sdcInvalidate.orderAll

/-! ## One access -/

/-- Reading n bytes at a translated address of memory or register space, past step 7 of R40. -/
def readAt (source : Nat) (va : Nat) (x : Xlat) (n : Nat) (r : Role) : Act Nat := do
  if regionOf x.pa = .regs then
    fun s =>
      let q := s.regReadPart deviceRequester (x.pa - 0x10000000000) n
      .ok (q.1, q.2.pass (r.touch x.pa n true))
  else do
    checkData source va x.pa n
    fun s =>
      if !x.idem then
        .ok (leOfBytes (readBytes s.mem x.pa n), (s.traffic .none .read x.pa n []).pass (r.touch x.pa n true))
      else
        let q : List Byte × State :=
          if r.scalar then
            let p := pickCached s s.core.sdc x.pa n
            (p.1, p.2.2.modCore fun c => { c with sdc := p.2.1 })
          else (readBytes s.mem x.pa n, s.traffic r.cache .read x.pa n [])
        let q := q.2.pastRead r x.pa q.1
        .ok (leOfBytes q.1, q.2)

/-- Writing the low 8n bits of a value at a translated address. -/
def writeAt (x : Xlat) (n v : Nat) (r : Role) : Act Unit := upd fun s =>
  if regionOf x.pa = .regs then
    (s.pass (r.touch x.pa n true)).regWritePart deviceRequester (x.pa - 0x10000000000) n v
  else s.partyStore r x n v

/-- A scalar load of n bytes (R168): naturally aligned, device-class memory allowed. Where it was made, and its value. -/
def loadScalarAt (va n : Nat) (oc : BitVec 4) : Act (Xlat × Nat) := do
  let src ← look (·.source 1)
  walkerGate [va]
  let x ← xlat { kind := .load, source := src, device := true, align := n } va
  let v ← readAt src va x n { oc := oc }
  pure (x, v)

def loadScalar (va n : Nat) (oc : BitVec 4) : Act Nat := do
  let q ← loadScalarAt va n oc
  pure q.2

/-- A scalar store of n bytes (R168). -/
def storeScalar (va n v : Nat) (oc : BitVec 4) : Act Unit := do
  let src ← look (·.source 2)
  walkerGate [va]
  let x ← xlat { kind := .store, source := src, device := true, align := n } va
  writeAt x n v { oc := oc }

/-! ## Ranges of memory -/

/-- The checks of R40 steps 1 to 6 on every page of a range in ascending order (R103): the page map. -/
def xlatPages (acc : Acc) : List Nat → Act PageMap
  | [] => pure []
  | a :: as => do
    let x ← xlat acc a
    let r ← xlatPages acc as
    pure ((a / 65536, x.pa / 65536, x.idem) :: r)

def xlatRange (acc : Acc) (va n : Nat) : Act PageMap :=
  if va % acc.align ≠ 0 then raise (memCause (if 2 ^ 56 ≤ va then kNotPres else kAlign) acc.source) (BitVec.ofNat 64 va)
  else do
    walkerGate (pageStarts va n)
    xlatPages { acc with align := 1 } (pageStarts va n)

/-- The bytes of a range through a page map. -/
def PageMap.read (p : PageMap) (m : List Host.Cell) (va n : Nat) : List Byte :=
  (List.range n).map fun i => readByte m (p.pa (va + i))

/-- The first byte of a range whose sector's check fails. -/
def PageMap.firstBad (p : PageMap) (s : State) (va n : Nat) : Option Nat :=
  if s.bad = [] then none else (List.range n).find? (fun i => s.sectorBad (p.pa (va + i))) |>.map (va + ·)

/-- A range through a page map passes the die caches and the ports. -/
def State.rangeTraffic (s : State) (p : PageMap) (use : CacheUse) (kind : ReqKind) (va n : Nat) (bs : List Byte) : State :=
  (pageParts va n).foldl (fun s q =>
    s.traffic (if p.idem q.1 then use else .none) kind (p.pa q.1) q.2 ((bs.drop (q.1 - va)).take q.2)) s

/-- The registers of a device-class page are read and written byte by byte (R57); other memory is bytes. -/
def State.engineByte (s : State) (pa : Nat) : Byte × State :=
  if regionOf pa = .regs then
    let r := s.regReadPart deviceRequester (pa - 0x10000000000) 1
    (BitVec.ofNat 8 r.1, r.2)
  else (readByte s.mem pa, s)

/-- The same for n bytes, in ascending order. -/
def State.deviceBytes (s : State) (pa : Nat) : Nat → List Byte × State
  | 0 => ([], s)
  | n + 1 =>
    let b := s.engineByte pa
    let r := b.2.deviceBytes (pa + 1) n
    (b.1 :: r.1, r.2)

/-- The bytes of a range of idempotent memory as loads of a class find them (R191). -/
def State.readRange (s : State) (r : Role) (p : PageMap) (va n : Nat) : List Byte × State :=
  (pageParts va n).foldl (fun q a =>
    let b := q.2.pastRead r (p.pa a.1) (readBytes q.2.mem (p.pa a.1) a.2)
    (q.1 ++ b.1, b.2)) ([], s.rangeTraffic p r.cache .read va n [])

/-- Reading a record of n bytes as loads of a class, with the checks of R40: device-class memory as the access allows. -/
def loadBytes (acc : Acc) (va n : Nat) (oc : BitVec 4 := 0) : Act (List Byte) := do
  let p ← xlatRange acc va n
  fun s => match p.firstBad s va n with
    | some a => .error (.trap { cause := memCause kCheckFail acc.source, faddr := BitVec.ofNat 64 a }
        (s.logCheck (memCause kCheckFail acc.source).toNat (p.pa a)))
    | none =>
      if regionOf (p.pa va) = .regs then .ok (s.deviceBytes (p.pa va) n)
      else .ok (s.readRange { oc := oc, scalar := false } p va n)

/-- Storing bytes through a page map: memory, the core's cache lines, and the ports passed. -/
def State.storeMapped (s : State) (p : PageMap) (va : Nat) (bs : List Byte) : State :=
  let cells := bs.mapIdx fun i b => (p.pa (va + i), b)
  let s := cells.foldl (fun s c => s.sdcWrite c.1 [c.2]) (s.storeCells cells)
  let s := s.rangeTraffic p .low .write va bs.length bs
  (pageStarts va bs.length).foldl (fun s a => s.notePort (p.pa a)) s

/-- What stores of a class through a page map replace stays in reach of accesses of other classes (R191). -/
def State.noteStores (s : State) (oc : BitVec 4) (p : PageMap) (va : Nat) (bs : List Byte) : State :=
  let r : Role := { oc := oc, scalar := false }
  (pageParts va bs.length).foldl (fun t a =>
    let e := s.pastStore r (p.pa a.1) a.2 (leOfBytes ((bs.drop (a.1 - va)).take a.2))
    s.remember true e (t.pass (r.touch (p.pa a.1) a.2))) s

/-- Storing bytes as stores of a class, with the checks of R40 first. -/
def storeBytes (acc : Acc) (va : Nat) (bs : List Byte) (oc : BitVec 4) : Act Unit := do
  let p ← xlatRange acc va bs.length
  upd fun s => (s.noteStores oc p va bs).storeMapped p va bs

/-- An instruction that aligns courses (R136) and makes accesses of its own: every earlier access of the hart is ordered
before them, and they are ordered before every later one (R191 case 6, R194; log 93). -/
def alignCourses : Act Unit := upd (·.orderAll)

/-! ## Instruction fetch (R138, R53) -/

/-- The word at an address: aligned, translated with X, in idempotent memory, with a good check; the instruction cache
may give an older word. -/
def fetchWord (pc : Word) : Act (BitVec 32) := do
  let src ← look (·.source 0)
  walkerGate [pc.toNat]
  let x ← xlat { kind := .fetch, source := src, align := 4 } pc.toNat
  checkData src pc.toNat x.pa 4
  fun s =>
    let r := pickCached s s.core.icache x.pa 4
    .ok (BitVec.ofNat 32 (leOfBytes r.1), r.2.2.modCore fun c => { c with icache := r.2.1 })

/-! ## Atomics (R171, R25) -/

/-- A read-modify-write at the atomic unit, which leaves a port as `k` says: the old value; the new one is stored where `f`
answers one. It returns the latest value of its bytes, stored or not (R195). -/
def atomicAt (source va : Nat) (x : Xlat) (n : Nat) (r : Role) (k : AtomKind) (f : Nat → Option Nat) : Act Nat := do
  checkData source va x.pa n
  upd fun s => (s.reachUnit s.ownPlace).pass (r.touch x.pa n) fun p => overlaps p.pa p.old.length x.pa n
  let old ← look fun s => readLE s.mem x.pa n
  match f old with
  | none => do
    upd (·.atomicTraffic k x.pa n old old)
    pure old
  | some v => do
    upd fun s => s.remember true (s.pastStore r x.pa n v)
      ((((s.storeLE x.pa n v).sdcWrite x.pa (bytesOfLe n v)).notePort x.pa).atomicTraffic k x.pa n old v)
    pure old

end Sys2Proof.Machine
end

