-- ==== Sys2Proof/Machine/Pool.lean ====
section
/-! DEFINITION. Rows of the core pool and the frame that every per-row instruction shares: the columns of registers, masks,
tiles and scratch (R114 to R131), check columns (R119 to R121), landed bits (R133, R134), VC bits (R73), the ABN check
(R74), replay (R395) and what an instruction leaves undefined (R121, R229, R230). -/

namespace Sys2Proof.Machine

/-! ## Columns of one row -/

/-- Columns lo to lo + w - 1. -/
def colMask (lo w : Nat) : BitVec 1024 := BitVec.ofNat 1024 ((2 ^ w - 1) * 2 ^ lo)

/-- The value that columns lo to lo + w - 1 hold, column lo least significant. -/
def Row.get (r : Row) (lo w : Nat) : Nat := bitsOf r.cols.toNat lo w

/-- The row with the low w bits of a value in columns lo to lo + w - 1. -/
def Row.put (r : Row) (lo w v : Nat) : Row :=
  { r with cols := (r.cols &&& ~~~colMask lo w) ||| BitVec.ofNat 1024 (v % 2 ^ w * 2 ^ lo) }

def Row.bit (r : Row) (col : Nat) : Bool := r.cols.getLsbD col

def Row.putBit (r : Row) (col : Nat) (b : Bool) : Row := r.put col 1 (if b then 1 else 0)

/-- The columns of mask register K; m0 has none. -/
def maskCols (k : Nat) : BitVec 1024 := if k = 0 then 0 else colMask k 1

/-- The first column of a register's field (R128). -/
def Core.vcol (c : Core) (reg : Nat) : Nat := 8 + reg * c.fw

/-! ## Rows of a core -/

/-- The undefined content that a mark gives to a row. -/
def Mark.apply (m : Mark) (n : Nat) (r : Row) : Row :=
  if n < m.lo ∨ m.hi ≤ n then r else
  { r with
    cols := (r.cols &&& ~~~m.cols) ||| (Config.freeRow m.id n &&& m.cols)
    t := if m.lats.getLsbD 0 then Config.freeBit m.id (4 * n) else r.t
    c := if m.lats.getLsbD 1 then Config.freeBit m.id (4 * n + 1) else r.c
    f0 := if m.lats.getLsbD 2 then Config.freeBit m.id (4 * n + 2) else r.f0
    f1 := if m.lats.getLsbD 3 then Config.freeBit m.id (4 * n + 3) else r.f1 }

def findRow (n : Nat) : List (Nat × Row) → Option Row
  | [] => none
  | (k, r) :: rs => if k = n then some r else if n < k then none else findRow n rs

def putRow (n : Nat) (r : Row) : List (Nat × Row) → List (Nat × Row)
  | [] => [(n, r)]
  | (k, q) :: rs => if n < k then (n, r) :: (k, q) :: rs else if k = n then (n, r) :: rs else (k, q) :: putRow n r rs

/-- The content of a core row: a row that is not listed holds zeros but for its marks (R132). -/
def Core.row (c : Core) (n : Nat) : Row :=
  match findRow n c.rows with
  | some r => r
  | none => c.marks.foldl (fun r m => m.apply n r) .zero

def Core.setRow (c : Core) (n : Nat) (r : Row) : Core := { c with rows := putRow n r c.rows }

/-- Whether a mark makes an earlier one pointless. -/
def Mark.covers (m k : Mark) : Bool :=
  m.lo ≤ k.lo && k.hi ≤ m.hi && (k.cols &&& ~~~m.cols) == 0 && (k.lats &&& ~~~m.lats) == 0

/-- Columns, and the latches if asked, of a range of core rows become undefined. -/
def Core.mark (c : Core) (m : Mark) : Core :=
  { c with rows := c.rows.map (fun p => (p.1, m.apply p.1 p.2)),
           marks := (c.marks.filter fun k => !m.covers k) ++ [m] }

def State.mark (s : State) (lo hi : Nat) (cols : BitVec 1024) (lats : BitVec 4) : State :=
  if cols = 0 ∧ lats = 0 then s
  else
    let m : Mark := { lo := lo, hi := hi, cols := cols, lats := lats, id := s.free }
    { s with free := s.free + 1 }.modCore (·.mark m)

/-- Columns of a range of core rows become zero. -/
def Core.clearCols (c : Core) (lo hi : Nat) (cols : BitVec 1024) : Core :=
  { c with
    rows := c.rows.map fun p =>
      if lo ≤ p.1 ∧ p.1 < hi then (p.1, { p.2 with cols := p.2.cols &&& ~~~cols }) else p
    marks := c.marks.flatMap fun m =>
      (if m.lo < min m.hi lo then [{ m with hi := min m.hi lo }] else []) ++
      (if max m.lo lo < min m.hi hi then [{ m with lo := max m.lo lo, hi := min m.hi hi, cols := m.cols &&& ~~~cols }] else []) ++
      (if max m.lo hi < m.hi then [{ m with lo := max m.lo hi }] else []) }

/-- Row j of the hart that runs. -/
def State.coreRow (s : State) (j : Nat) : Nat := s.core.row0 s.cur.who.hartIx.val + j
def State.row (s : State) (j : Nat) : Row := s.core.row (s.coreRow j)
def State.setRow (s : State) (j : Nat) (r : Row) : State := s.modCore (·.setRow (s.coreRow j) r)

/-- The element of width w of a vector register in row j. -/
def State.elem (s : State) (reg w j : Nat) : Nat := (s.row j).get (s.core.vcol reg) w

/-- Mask register K in row j; m0 is j < VL (R3, R128). -/
def State.maskBit (s : State) (k j : Nat) : Bool := if k = 0 then decide (j < s.hart.vl.toNat) else (s.row j).bit k

/-- The predicate of the pending prefix in row j (R146). -/
def State.pred (s : State) (j : Nat) : Bool :=
  match s.pfx with
  | none => true
  | some w => if pfxPred w = 0 then true else s.maskBit (pfxPred w) j != pfxInv w

/-- Active(): the ascending rows below VL whose predicate holds (R11). -/
def State.active (s : State) : List Nat := (List.range s.hart.vl.toNat).filter s.pred

/-- The pass rows: active rows whose gate bit is 0 (R209). -/
def State.passRows (s : State) : List Nat := s.active.filter fun j => !(s.row j).bit 0

/-- Whether the pending prefix predicates. -/
def State.predicated (s : State) : Bool := match s.pfx with | none => false | some w => pfxPred w != 0

/-- The register that the pending prefix copies the destination to. -/
def State.copyReg (s : State) : List Nat := match s.pfx.bind pfxCopy with | none => [] | some r => [r]

/-! ## Check columns (R119 to R121) -/

/-- The check columns of the groups that some columns lie in. -/
def groupBits (cols : BitVec 1024) : BitVec 32 :=
  BitVec.ofNat 32 ((List.range 16).foldl
    (fun a g => if bitsOf cols.toNat (64 * g) 64 = 0 then a else a + 3 * 4 ^ g) 0)

def Row.fails (r : Row) (cols : BitVec 1024) : Bool := r.chk &&& groupBits cols != 0

/-- The least of some numbers. -/
def least : List Nat → Option Nat
  | [] => none
  | n :: ns => some (ns.foldl min n)

/-- The rows, each once, in which a group that the instruction senses or writes there fails (R120). -/
def State.failRows (s : State) (rows : List Nat) (cols : Nat → BitVec 1024) : List Nat :=
  if s.core.rows.all (·.2.chk == 0) then [] else (rows.filter fun j => (s.row j).fails (cols j)).eraseDups

/-- The lowest of some rows whose groups fail for these columns. -/
def State.firstFail (s : State) (rows : List Nat) (cols : BitVec 1024) : Option Nat := least (s.failRows rows fun _ => cols)

/-- The groups sensed with some columns whose check columns fail. -/
def Row.failGroups (r : Row) (cols : BitVec 1024) : List Nat :=
  (List.range 16).filter fun g => bitsOf (r.chk &&& groupBits cols).toNat (2 * g) 2 != 0

/-- Epvimond logs every failure of a row: kind, core, core row, and the group, of those that were sensed with some columns
(R121, R446). A row port senses all of a row that it reads (R120). -/
def State.logRowOf (s : State) (kind : Nat) (core : Fin 192) (cause coreRow : Nat)
    (cols : BitVec 1024 := BitVec.allOnes 1024) : State :=
  ((s.cores[core].row coreRow).failGroups cols).foldl
    (fun s g => s.logEvent kind cause coreRow (some core.val) 9 g) s

/-- Every failing row of the hart is logged. -/
def State.logRows (s : State) (cause : Nat) (rows : List Nat) (cols : Nat → BitVec 1024) : State :=
  rows.foldl (fun s j => s.logRowOf 1 s.cur.core cause (s.coreRow j) (cols j)) s

/-- Failing rows of a core that an engine found. -/
def State.logRowsOf (s : State) (core : Fin 192) (cause : Nat) (rows : List Nat)
    (cols : BitVec 1024 := BitVec.allOnes 1024) : State :=
  rows.foldl (fun s n => s.logRowOf 1 core cause n cols) s

/-- The same for an engine of a core that failed in a row, or in memory at a physical address. -/
def State.logSite (s : State) (kind : Nat) (core : Fin 192) (cause : Nat) (row : Option Nat) (pa : Nat)
    (cols : BitVec 1024 := BitVec.allOnes 1024) : State :=
  match row with
  | some n => s.logRowOf kind core cause n cols
  | none => s.logEvent kind cause (s.logSector pa) (some core.val) 1 0

/-! ## Landed bits (R133, R134, R101) -/

/-- Whether the hart has more than one course: a move of rows then crosses a course boundary (R136, R219). -/
def Core.manyCourses (c : Core) : Bool := 1 < 8 / c.nharts

/-- Brick slices of the hart (R115). -/
def Core.slices (c : Core) : Nat := 32 / c.nharts

/-- Slices of some registers that have not landed, as (register, slice). -/
def State.unlanded (s : State) (regs : List Nat) : List (Nat × Nat) :=
  regs.flatMap fun r =>
    let bits := s.hart.landed[r % 32]'(Nat.mod_lt _ (by decide))
    if bits = BitVec.allOnes 32 then []
    else ((List.range s.core.slices).filter fun i => !bits.getLsbD i).map fun i => (r, i)

/-- The failure that a slice keeps. -/
def State.sliceFailure (s : State) (p : Nat × Nat) : Option FailedSlice :=
  s.core.failedSlices.find? fun f => f.hart == s.cur.who.hartIx && f.vreg == p.1 && f.slice == p.2

/-- The course of a slice of the hart. -/
def State.sliceCourse (s : State) (slice : Nat) : Nat := courseOfRow (s.coreRow (2048 * slice))

/-- Whether some registers hold landed data that no instruction has observed. -/
def State.observes (s : State) (regs : List Nat) : Bool := regs.any fun r => s.hart.unseen.getLsbD r

/-- Landed bits are an engine's completion object: observing them ends what the scalar data cache may hold (R52, R196). -/
def State.observe (s : State) (regs : List Nat) : State :=
  if s.observes regs then
    s.sdcInvalidate.orderAll.modHart fun h =>
      { h with unseen := regs.foldl (fun u r => u &&& ~~~BitVec.ofNat 32 (2 ^ r)) h.unseen }
  else s

/-- The failures that an instruction naming these registers meets; it waits while a slice can still land. -/
def landedGate (regs : List Nat) : Act (List FailedSlice) := fun s =>
  let u := s.unlanded regs
  let fs := u.filterMap s.sliceFailure
  if fs.length = u.length then .ok (fs, s.observe regs) else .error (.park s)

/-- The course where a failed slice stops the hart. -/
def State.failCourses (s : State) (fs : List FailedSlice) : List Nat := fs.map fun f => s.sliceCourse f.slice

/-- The failure of the lowest rows (R393). -/
def lowestSlice : List FailedSlice → Option FailedSlice
  | [] => none
  | f :: fs => some (fs.foldl (fun a b => if b.slice < a.slice then b else a) f)

/-- The trap of a landed-bit stall (R101, R396). -/
def landedTrap (fs : List FailedSlice) (pairs : List (Nat × BitVec 4 × BitVec 32)) : Trap :=
  match lowestSlice fs with
  | none => { cause := 0 }
  | some f => { cause := f.cause, faddr := f.addr, norst := true, pairs := pairs }

/-! ## VC bits (R73, R74) -/

def Hart.vcBit (h : Hart) (r : Nat) : Bool := h.vc.getLsbD r

def Hart.setVc (h : Hart) (r : Nat) (b : Bool) : Hart :=
  { h with vc := if b then h.vc ||| BitVec.ofNat 32 (2 ^ r) else h.vc &&& ~~~BitVec.ofNat 32 (2 ^ r) }

def State.setVc (s : State) (r : Nat) (b : Bool) : State := s.modHart (·.setVc r b)

/-- VC of a register that an ordinary instruction writes: cleared when every row is written. -/
def State.ordinaryVc (s : State) (r : Nat) : State :=
  if !s.predicated && s.hart.vl.toNat == s.core.vlmax then s.setVc r false else s

/-- VC after an ordinary write of a destination, and of its copy. -/
def State.destVc (s : State) (r : Nat) : State :=
  let t := s.ordinaryVc r
  s.copyReg.foldl (fun t k => t.setVc k (t.hart.vcBit r)) t

/-- How a source is read, for the check of R74. -/
inductive AbnKind where
  /-- an integer of this width -/
  | int (w : Nat)
  | binary32
  /-- .h, .bh, block types: any read fails -/
  | any
  /-- not an ordinary read -/
  | none
deriving DecidableEq, Repr

/-- Whether a pattern is ABN- or ABN+ (R71, R72). -/
def isAbn (k : AbnKind) (v : Nat) : Bool :=
  match k with
  | .int w => v == 2 ^ (w - 1) || (2 ≤ w && v == 2 ^ (w - 1) + 1)
  | .binary32 => v == 0xFF8AB000 || v == 0x7F8AB000
  | .any => true
  | .none => false

/-- The check of R74 on one source over some rows. A read of a type without ABN patterns fails even where no row is active
(log 83). -/
def State.abnFails (s : State) (rows : List Nat) (reg : Nat) (k : AbnKind) : Bool :=
  if !s.hart.vcBit reg then false else
  match k with
  | .int w => rows.any fun j => isAbn k (s.elem reg w j)
  | .binary32 => rows.any fun j => isAbn k (s.elem reg 32 j)
  | .any => true
  | .none => false

def abnCheck (rows : List Nat) (srcs : List (Nat × AbnKind)) : Act Unit := fun s =>
  if srcs.any fun p => s.abnFails rows p.1 p.2 then .error (.trap { cause := 0x80 } s) else .ok ((), s)

/-! ## Replay (R391, R395) -/

/-- Whether row j is still to be performed: its course has neither completed this instruction nor passed the row. -/
def State.pendingRow (s : State) (j : Nat) : Bool :=
  let h := s.hart
  if !h.replaying then true
  else
    let c := courseOfRow (s.coreRow j)
    if hc : c < 8 then h.elag[c] == 0 && h.estart[c].toNat ≤ j else true

/-- The pairs when some courses stop at a row of this vector instruction: the others have completed it. -/
def State.pairsOf (s : State) (stops : List (Nat × Nat)) : List (Nat × BitVec 4 × BitVec 32) :=
  (s.core.coursesOf s.cur.who.hartIx.val).map fun c =>
    let old : BitVec 4 := if s.hart.replaying then (if h : c < 8 then s.hart.elag[c] else 0) else 0
    match stops.find? (·.1 == c) with
    | some p => (c, 0, BitVec.ofNat 32 p.2)
    | none => (c, if old = 0 then 1 else old, 0)

/-- The same where an instruction cannot be restarted (R396): how far a stopped course came is not meaningful, a free
value. -/
def State.lostPairs (s : State) (courses : List Nat) : List (Nat × BitVec 4 × BitVec 32) :=
  s.pairsOf (courses.eraseDups.map fun c => (c, Config.freeNat (s.free + c)))

/-- The same for an instruction that aligns courses: no course has completed it, but for those that had before a replay. -/
def State.alignedPairs (s : State) (courses : List Nat) : List (Nat × BitVec 4 × BitVec 32) :=
  (s.core.coursesOf s.cur.who.hartIx.val).map fun c =>
    if courses.contains c then (c, 0, BitVec.ofNat 32 (Config.freeNat (s.free + c)))
    else if h : c < 8 then (if s.hart.replaying then (c, s.hart.elag[c], s.hart.estart[c]) else (c, 0, 0)) else (c, 0, 0)

/-- The free values of `lostPairs` and `alignedPairs` have been used. -/
def State.useLost (s : State) : State := { s with free := s.free + 8 }

/-- A landed-bit trap of an instruction that acts on all rows at once: nothing has happened. -/
def landedStop {α : Type} (fs : List FailedSlice) : Act α := fun s =>
  .error (.trap (landedTrap fs (s.alignedPairs (s.failCourses fs))) s.useLost)

/-- Waiting for every slice of some registers, for an instruction that acts on all rows at once: nothing has happened
when a slice failed. -/
def landedAll (regs : List Nat) : Act Unit := do
  let fs ← landedGate regs
  if fs = [] then pure () else landedStop fs

/-- One vector instruction is done in every course. -/
def Hart.replayStep (h : Hart) : Hart :=
  if !h.replaying then h
  else
    let e := h.elag.map fun e => if e = 0 then 0 else e - 1
    let st := Vector.ofFn fun c => if h.elag[c] = 0 then 0 else h.estart[c]
    { h with elag := e, estart := st, replaying := !(e == Vector.replicate 8 0 && st == Vector.replicate 8 0) }

def replayStep : Act Unit := upd (·.modHart Hart.replayStep)

/-! ## The frame of a per-row instruction -/

/-- Which latches of its active rows a microcoded instruction leaves undefined: none, T (R223), or all four (R229). -/
inductive Scramble where
  | none
  | t
  | all
deriving DecidableEq, Repr

/-- What a per-row instruction touches. -/
structure Plan where
  /-- registers it reads or writes, for landed bits -/
  regs : List Nat
  /-- columns it senses or writes, for the check columns -/
  cols : BitVec 1024
  /-- the same in the rows where it senses or writes fewer -/
  colsAt : Option (Nat → BitVec 1024) := none
  /-- columns it writes, undefined after a failure -/
  dcols : BitVec 1024
  /-- columns of workspace (R230) -/
  wk : Nat := 0
  /-- its columns are named by their numbers: they may be scratch or accumulator columns (R214) -/
  named : Bool := false
  /-- it aligns courses (R136) -/
  aligns : Bool := false
  /-- sources with how they are read (R74) -/
  srcs : List (Nat × AbnKind) := []
  /-- the vector destination, whose VC follows R73; the copy register is added -/
  dests : List Nat := []
  /-- what the VC of the destinations becomes where R73 gives no ordinary write -/
  vc : Option Bool := none
  /-- latches it writes, undefined after a failing check column (R121) -/
  dlats : BitVec 4 := 15
  /-- a failed slice leaves its destination and workspace undefined in the course (R232) -/
  spoils : Bool := true
  lats : Scramble := .all
  /-- a mason runs microcode for it, unlike a direct pass (R117) -/
  micro : Bool := true

/-- The columns of the low w bits of a register, and of its prefix copy. -/
def State.destCols (s : State) (reg w : Nat) : BitVec 1024 :=
  s.copyReg.foldl (fun a k => a ||| colMask (s.core.vcol k) w) (colMask (s.core.vcol reg) w)

def State.regCols (s : State) (reg w : Nat) : BitVec 1024 := colMask (s.core.vcol reg) w

/-- The workspace columns (R230). -/
def wkMask (wk : Nat) : BitVec 1024 := colMask (1024 - wk) wk

/-- An element written to a register and to its prefix copy (R147). -/
def putElem (c : Core) (regs : List Nat) (w v : Nat) (r : Row) : Row :=
  regs.foldl (fun r k => r.put (c.vcol k) w v) r

/-- The latches of a row that a microcoded instruction leaves undefined (R223, R229). -/
def Row.scramble (r : Row) (k : Scramble) (id n : Nat) : Row :=
  match k with
  | .none => r
  | .t => { r with t := Config.freeBit id (4 * n) }
  | .all => { r with t := Config.freeBit id (4 * n), c := Config.freeBit id (4 * n + 1),
                     f0 := Config.freeBit id (4 * n + 2), f1 := Config.freeBit id (4 * n + 3) }

/-- The latches of the rows of a microcoded instruction become undefined. -/
def State.scramble (s : State) (k : Scramble) (rows : List Nat) : State :=
  let f := s.fresh
  rows.foldl (fun s j => s.setRow j ((s.row j).scramble k f.1 (s.coreRow j))) f.2

/-- A hart's rows, as a range of core rows. -/
def State.hartLo (s : State) : Nat := s.coreRow 0
def State.hartHi (s : State) : Nat := s.coreRow 0 + s.core.vlmax

/-- What an instruction leaves undefined when a check column fails (R121): destination columns and latches, in every
row of the hart. -/
def State.spoil (s : State) (p : Plan) : State := s.mark s.hartLo s.hartHi (p.dcols ||| wkMask p.wk) p.dlats

/-- The columns that the instruction senses or writes in a row. -/
def Plan.at (p : Plan) (j : Nat) : BitVec 1024 :=
  match p.colsAt with
  | none => p.cols
  | some f => f j

/-- The rows in which a pass of the instruction fails its check (R120). -/
def State.planFails (s : State) (p : Plan) (rows : List Nat) : List Nat := s.failRows rows p.at

/-- The course of a row of the hart. -/
def State.courseAt (s : State) (j : Nat) : Nat := courseOfRow (s.coreRow j)

/-- ROWCHK (R121): the lowest failing core row is named. -/
def State.rowTrap (s : State) (bad : List Nat) (pairs : List (Nat × BitVec 4 × BitVec 32)) : Trap :=
  { cause := 0xB2, faddr := BitVec.ofNat 64 (s.coreRow ((least bad).getD 0)), norst := true, pairs := pairs }

/-- What ROWCHK leaves (R121): what the instruction writes is undefined, and every failure is logged. -/
def State.rowSpoil (s : State) (p : Plan) (bad : List Nat) : State := (s.spoil p).logRows 0xB2 bad p.at

/-- The first of some rows in each course whose mason finds its microcode failing (R384; log 95). -/
def State.masonRows (s : State) (rows : List Nat) : List Nat :=
  if s.core.flaws = [] then []
  else s.core.flaws.filterMap fun u => match u with
    | .microcode c => rows.find? fun j => c.val == s.courseAt j
    | _ => none

/-- MCFAIL, 0x98 | c: the failure of course c's mason shows at its next microcoded instruction, in its row j. -/
def State.masonTrap (s : State) (j : Nat) (pairs : List (Nat × BitVec 4 × BitVec 32)) : Trap :=
  { cause := 0x98 ||| BitVec.ofNat 8 (s.courseAt j), faddr := BitVec.ofNat 64 (s.coreRow j), norst := true, pairs := pairs }

/-- The masons of some rows' courses have shown their failures. -/
def State.clearMasons (s : State) (rows : List Nat) : State :=
  if rows = [] then s
  else s.modCore fun k => { k with flaws := k.flaws.filter fun u => match u with
    | .microcode c => !rows.any fun j => s.courseAt j == c.val
    | _ => true }

/-- The checks of an instruction that acts on all its rows at once: its masons' microcode, and the check columns of the rows
that it touches (R120, R121). -/
def rowCheck (p : Plan) (rows : List Nat) : Act Unit := fun s =>
  match s.masonRows (if p.micro then rows else []) with
  | j :: js =>
    let low := (least (j :: js)).getD j
    .error (.trap (s.masonTrap low (s.alignedPairs ((j :: js).map s.courseAt))) (s.useLost.clearMasons (j :: js)))
  | [] =>
    match s.planFails p rows with
    | [] => .ok ((), s)
    | bad => .error (.trap (s.rowTrap bad (s.alignedPairs (bad.map s.courseAt))) (s.useLost.rowSpoil p bad))

/-- A vector access of class oc0 to columns of the rows takes its place in the local order (R191, R231, R288). -/
def State.rowPass (s : State) : State := s.pass { oc := 0, scalar := false, dev := false, pa := 0, n := 0 }

/-- The accesses that an instruction makes to columns that are locations (R190), those of scratch, workspace and accumulator
columns, are vector accesses of class oc0 (R214, R231); an instruction that reads or writes an accumulator tile aligns
courses (R136), and one that aligns courses orders by them (R191 case 6). -/
def State.rowOrder (s : State) (p : Plan) : State :=
  if p.wk = 0 ∧ !p.named then s
  else
    let cols := (p.cols ||| wkMask p.wk).toNat
    if bitsOf cols s.core.acol0 1024 = 0 then s
    else if p.aligns || bitsOf cols s.core.acol0 s.core.acol != 0 then s.orderAll
    else s.rowPass

/-- The VC bits of the destinations after the instruction. -/
def State.planVc (s : State) (p : Plan) : State :=
  p.dests.foldl (fun s r =>
    match p.vc with
    | none => s.destVc r
    | some b => s.copyReg.foldl (fun t k => t.setVc k b) (s.setVc r b)) s

/-- Rows where a failed slice stops an instruction: destination and workspace are undefined there (R232). -/
def State.spoilCourses (s : State) (p : Plan) (courses : List Nat) : State :=
  if !p.spoils then s else
  courses.eraseDups.foldl (fun s c => s.mark (8192 * c) (8192 * c + 8192) (p.dcols ||| wkMask p.wk) 0) s

/-- What stops courses in a per-row instruction: slices that failed, rows of courses whose masons failed, and rows whose
check columns fail. -/
structure RowStops where
  slices : List FailedSlice
  masons : List Nat
  bad : List Nat
deriving DecidableEq, Repr

/-- The courses that stop. -/
def State.stoppedBy (s : State) (k : RowStops) : List Nat :=
  s.failCourses k.slices ++ (k.masons ++ k.bad).map s.courseAt

/-- The trap of the lowest faulting row (R393): the lowest of some traps by their rows. -/
def lowestTrap : List (Nat × Trap) → Option Trap
  | [] => none
  | t :: ts => some (ts.foldl (fun a b => if b.1 < a.1 then b else a) t).2

/-- The trap of an instruction that stopped in some courses; the others have completed it. -/
def State.stopTrap (s : State) (k : RowStops) : Trap :=
  let pairs := s.lostPairs (s.stoppedBy k)
  (lowestTrap (
    (k.slices.map fun f => (2048 * f.slice, landedTrap [f] pairs)) ++
    (k.masons.map fun j => (j, s.masonTrap j pairs)) ++
    k.bad.map fun j => (j, s.rowTrap [j] pairs))).getD { cause := 0 }

/-- A microcoded instruction on the active rows (R229 to R232): `f` gives the new content of a row and its flags, from
the state before the instruction. Courses that fault stop, and the others complete it (R393); the flags of the rows that
were written are kept (R65, log 101). -/
def perRow (p : Plan) (f : State → Nat → Row × BitVec 5) : Act Unit := do
  let fs ← landedGate p.regs
  let s ← look id
  abnCheck s.active p.srcs
  let due := s.passRows.filter s.pendingRow
  let held := s.failCourses fs
  let masons := s.masonRows (if p.micro then due.filter fun j => !held.contains (s.courseAt j) else [])
  let off := held ++ masons.map s.courseAt
  let rows := due.filter fun j => !off.contains (s.courseAt j)
  let stops : RowStops := { slices := fs, masons := masons, bad := s.planFails p rows }
  let outs := rows.map fun j => (j, f s j)
  upd fun s => outs.foldl (fun s o => s.setRow o.1 o.2.1) s
  upd (·.scramble p.lats rows)
  upd fun s => s.mark s.hartLo s.hartHi (wkMask p.wk) 0
  upd (·.rowOrder p)
  upd (·.orFlags ((outs.filter fun o => done s stops.bad o.1).foldl (fun a o => a ||| o.2.2) 0))
  if off = [] ∧ stops.bad = [] then do
    upd (·.planVc p)
    replayStep
  else failedRow p stops
where
  /-- Whether a row was written before its course stopped at a failing row. -/
  done (s : State) (bad : List Nat) (j : Nat) : Bool := bad.all fun b => s.courseAt b != s.courseAt j || decide (j < b)
  /-- The end of an instruction that some courses did not complete: failed slices leave undefined rows there (R232), a
  failing check column in every row (R121). -/
  failedRow (p : Plan) (k : RowStops) : Act Unit := do
    upd fun s => s.spoilCourses p (s.failCourses k.slices)
    fun t =>
      let u := t.useLost.clearMasons k.masons
      .error (.trap (t.stopTrap k) (if k.bad = [] then u else u.rowSpoil p k.bad))

/-- A replay skips some rows (R395): they keep what they held. -/
def State.keepSkipped (s : State) (old : State) : State :=
  if !old.hart.replaying then s
  else ((List.range s.core.vlmax).filter fun j => !old.pendingRow j).foldl (fun s j => s.setRow j (old.row j)) s

/-- An instruction over all rows at once: it waits for every slice, and an unlanded slice that failed leaves its
destination undefined in that course, with its ESTART a free value (R232). The body works on the state after the checks. In a replay the courses that have
done it are not written again; they still serve as sources (log 100). -/
def allRows (p : Plan) (rows : List Nat) (body : Act Unit) : Act Unit := do
  let fs ← landedGate p.regs
  let s ← look id
  if fs ≠ [] then do
    upd (·.spoilCourses p (s.failCourses fs))
    landedStop fs
  else do
    abnCheck s.active p.srcs
    rowCheck p rows
    body
    upd (·.rowOrder p)
    upd (·.keepSkipped s)
    upd fun s => s.mark s.hartLo s.hartHi (wkMask p.wk) 0
    replayStep

/-! ## Row ports (R117, R120) -/

/-- Where an engine or a unit finds a failing check: a VA, or a core row, and the columns sensed in the row. -/
abbrev Site := Nat × BitVec 1024

/-- Check columns of the groups that some columns cover in part, and of those they cover in full. -/
def partGroups (cols : BitVec 1024) (full : Bool) : BitVec 32 :=
  BitVec.ofNat 32 ((List.range 16).foldl
    (fun a g =>
      let x := bitsOf cols.toNat (64 * g) 64
      if x ≠ 0 ∧ (decide (x = 2 ^ 64 - 1) = full) then a + 3 * 4 ^ g else a) 0)

/-- Whether a row-port write of some columns finds a failing group that it covers in part (R120). -/
def Row.portFails (r : Row) (cols : BitVec 1024) : Bool := r.chk &&& partGroups cols false != 0

/-- The groups that a row-port write covers in full get their check columns from the new data. -/
def Row.portReset (r : Row) (cols : BitVec 1024) : Row := { r with chk := r.chk &&& ~~~partGroups cols true }

/-- A row-port write of some bytes: none when the check columns of a group that is written in part fail. -/
def Row.portWrite (r : Row) (cells : List (Nat × Byte)) : Option Row :=
  let cols := cells.foldl (fun a c => a ||| colMask c.1 8) 0
  if r.portFails cols then none else some (cells.foldl (fun r c => r.put c.1 8 c.2.toNat) (r.portReset cols))

/-- Bytes for rows, in order, grouped by row. -/
def groupRows : List (Nat × Nat × Byte) → List (Nat × List (Nat × Byte))
  | [] => []
  | (n, c, b) :: l =>
    match groupRows l with
    | (m, cs) :: g => if m = n then (n, (c, b) :: cs) :: g else (n, [(c, b)]) :: (m, cs) :: g
    | [] => [(n, [(c, b)])]

/-- The columns of some that lie in groups that they cover in part: a row-port write senses those groups (R120). -/
def partCols (cols : BitVec 1024) : BitVec 1024 :=
  BitVec.ofNat 1024 ((List.range 16).foldl
    (fun a g =>
      let x := bitsOf cols.toNat (64 * g) 64
      if x = 2 ^ 64 - 1 then a else a + x * 2 ^ (64 * g)) 0)

/-- The columns of some bytes of a row. -/
def cellCols (cells : List (Nat × Byte)) : BitVec 1024 := cells.foldl (fun a c => a ||| colMask c.1 8) 0

/-- Writing rows until one fails: how many bytes were written, and the failing core row with the columns sensed there. -/
def Core.portRows (c : Core) : List (Nat × List (Nat × Byte)) → Core × Nat × Option Site
  | [] => (c, 0, none)
  | (n, cells) :: g =>
    match (c.row n).portWrite cells with
    | none => (c, 0, some (n, partCols (cellCols cells)))
    | some r =>
      let x := (c.setRow n r).portRows g
      (x.1, cells.length + x.2.1, x.2.2)

/-! ## Linear and row-local scratch (R131) -/

/-- The core row and column of a linear scratch byte. -/
def Core.linearAt (c : Core) (a : Nat) : Nat × Nat := (a / c.sb, c.scol0 + 8 * (a % c.sb))

def Core.readLinear (c : Core) (a : Nat) : Byte :=
  let p := c.linearAt a
  BitVec.ofNat 8 ((c.row p.1).get p.2 8)

def Core.writeLinear (c : Core) (a : Nat) (b : Byte) : Core :=
  let p := c.linearAt a
  c.setRow p.1 ((c.row p.1).put p.2 8 b.toNat)

/-- n bytes of linear scratch. -/
def Core.readScratch (c : Core) (a n : Nat) : List Byte := (List.range n).map fun i => c.readLinear (a + i)

def Core.writeScratch (c : Core) (a : Nat) : List Byte → Core
  | [] => c
  | b :: bs => (c.writeLinear a b).writeScratch (a + 1) bs

/-- The lowest failing core row of a linear range (R120). -/
def Core.scratchFail (c : Core) (a n : Nat) : Option Nat :=
  if c.rows.all (·.2.chk == 0) || n == 0 then none
  else least (((List.range n).map fun i => (c.linearAt (a + i)).1).filter fun r => (c.row r).chk != 0)

/-- Bytes of linear scratch written through the row ports (R117, R120): the core, and the failing row that the write stops
at with the columns sensed there. -/
def Core.portScratch (c : Core) (a : Nat) (bs : List Byte) : Core × Option Site :=
  let x := c.portRows (groupRows (bs.mapIdx fun i b => let p := c.linearAt (a + i); (p.1, p.2, b)))
  (x.1, x.2.2)

/-! ## Accumulator tiles (R130) -/

/-- The core row and first column of element (m, n) of a tile. -/
def Core.tileAt (c : Core) (t m n : Nat) : Nat × Nat := (t % 4 * 16384 + m * 128 + n, c.acol0 + t / 4 * 32)

def Core.readTile (c : Core) (t m n : Nat) : BitVec 32 :=
  let p := c.tileAt t m n
  BitVec.ofNat 32 ((c.row p.1).get p.2 32)

def Core.writeTile (c : Core) (t m n : Nat) (v : BitVec 32) : Core :=
  let p := c.tileAt t m n
  c.setRow p.1 ((c.row p.1).put p.2 32 v.toNat)

/-! ## The slab stream's join (R297, R319) -/

def EngineOp.isSlab (o : EngineOp) : Bool :=
  match o.kind with
  | .smma .. | .szero .. | .sdrain .. | .bload .. => true
  | _ => false

/-- Slab operations of the current party that have not completed. -/
def State.slabBusy (s : State) : Bool := s.core.ops.any fun o => o.by_ == s.cur.who && o.isSlab

/-- The held slab error of the current party. -/
def State.heldError (s : State) : Option HeldError := if s.isStream then s.core.stream.held else s.hart.held

def State.clearHeld (s : State) : State :=
  if s.isStream then s.modCore fun c => { c with stream := { c.stream with held := none } }
  else s.modHart fun h => { h with held := none }

/-- A held error is raised before any effect (R319). -/
def raiseHeld : Act Unit := fun s =>
  match s.heldError with
  | none => .ok ((), s)
  | some e => .error (.trap { cause := e.cause, faddr := e.faddr } s.clearHeld)

/-- Waiting for every earlier slab operation of the party, then for its errors. -/
def slabJoin : Act Unit := do
  let b ← look (·.slabBusy)
  if b then stall else raiseHeld

/-- An instruction of major 0x3E on the stream (R297). -/
def streamJoin : Act Unit := do
  let b ← look (·.isStream)
  if b then slabJoin else pure ()

end Sys2Proof.Machine
end

