-- ==== Sys2Proof/Machine/Mbar.lean ====
section
/-! DEFINITION. Memory barrier objects (R199 to R204) and the checks that name one (R345, R107). -/

namespace Sys2Proof.Machine

/-- The fields of an object (R199); reserved bits stay as they are. -/
structure MbarObj where
  raw : Nat
  exp : Nat
  arr : Nat
  lerr : Bool
  err : Bool
  ph : Bool
  pend : BitVec 40
deriving DecidableEq, Repr

def mbarObj (n : Nat) : MbarObj :=
  { raw := n, exp := bitsOf n 80 16, arr := bitsOf n 64 16, lerr := bitOf n 50, err := bitOf n 49, ph := bitOf n 48,
    pend := BitVec.ofNat 40 n }

/-- A number with bits lo to lo + len - 1 replaced. -/
def setBits (n lo len v : Nat) : Nat := n - bitsOf n lo len * 2 ^ lo + v % 2 ^ len * 2 ^ lo

def MbarObj.word (o : MbarObj) : Nat :=
  let n := setBits o.raw 80 16 o.exp
  let n := setBits n 64 16 o.arr
  let n := setBits n 48 3 ((if o.lerr then 4 else 0) + (if o.err then 2 else 0) + if o.ph then 1 else 0)
  setBits n 0 40 o.pend.toNat

/-- The steps of R201. -/
inductive MbarStep where
  | init (e : Nat)
  | arrive
  | expect (b : BitVec 40)
  | arrivex (b : BitVec 40)
  | subtract (b : Nat) (failed : Bool)
deriving DecidableEq, Repr

/-- One arrival: an excess one sets ERR. -/
def MbarObj.arrival (o : MbarObj) : MbarObj := if o.arr = o.exp then { o with err := true } else { o with arr := o.arr + 1 }

/-- The end of a phase, tested after every step but INIT. -/
def MbarObj.settle (o : MbarObj) : MbarObj :=
  if o.arr = o.exp ∧ o.pend = 0 then { o with ph := !o.ph, lerr := o.err, err := false, arr := 0 } else o

def MbarObj.step (o : MbarObj) : MbarStep → MbarObj
  | .init e => { raw := 0, exp := e, arr := 0, lerr := false, err := false, ph := false, pend := 0 }
  | .arrive => o.arrival.settle
  | .expect b => { o with pend := o.pend + b }.settle
  | .arrivex b => ({ o with pend := o.pend + b } : MbarObj).arrival.settle
  | .subtract b f => { o with pend := o.pend - BitVec.ofNat 40 b, err := o.err || f }.settle

/-! ## Reaching an object -/

/-- The bytes of an object, or where its check fails. A row port reads all of a row (R120). -/
def State.mbarRead (s : State) (core : Fin 192) : Mbar → Except Site MbarObj
  | .mem va pa => if s.sectorBad pa then .error (va, 0) else .ok (mbarObj (readLE s.mem pa 16))
  | .pool off =>
    match s.cores[core].scratchFail off 16 with
    | some r => .error (r, BitVec.allOnes 1024)
    | none => .ok (mbarObj (leOfBytes (s.cores[core].readScratch off 16)))

/-- The object after a step. In rows it is a row-port write, which resets the groups that it covers in full (R120). -/
def State.mbarWrite (s : State) (core : Fin 192) (m : Mbar) (o : MbarObj) : State :=
  match m with
  | .mem _ pa => (s.storeLE pa 16 o.word).touchHbm .high pa 16
  | .pool off => s.modCoreAt core fun c => (c.portScratch off (bytesOfLe 16 o.word)).1

/-- INIT writes its object whole and reads nothing of it: it still verifies what it writes only in part, a sector of memory
(R25) or a group of a row (R120). -/
def State.mbarInit (s : State) (core : Fin 192) (m : Mbar) (o : MbarObj) : Except Site State :=
  match m with
  | .mem va pa => if s.sectorBad pa then .error (va, 0) else .ok (s.mbarWrite core m o)
  | .pool off =>
    match (s.cores[core].portScratch off (bytesOfLe 16 o.word)).2 with
    | some r => .error r
    | none => .ok (s.mbarWrite core m o)

/-- The subtract of an engine (R107), which reaches the unit by its core and tag (R202): none when the object's check fails,
with where. -/
def State.mbarSubtract (s : State) (core : Fin 192) (tag : Nat) (m : Mbar) (count : Nat) (failed : Bool) :
    Except Site State :=
  match s.mbarRead core m with
  | .error a => .error a
  | .ok o => .ok ((s.reachUnit (enginePlace core.val tag)).mbarWrite core m (o.step (.subtract count failed)))

/-! ## Naming an object -/

/-- Steps 1 to 4 of R40 for a read and a write of an object, then R200 (R345): its page must be TIER 0 IDEM HBM. -/
def mbarVa (source va : Nat) (kind : AccKind) : Act Mbar := fun s =>
  let fault := fun (k : Nat) (t : State) =>
    Except.error (Stop.trap { cause := memCause k source, faddr := BitVec.ofNat 64 va } t)
  if 2 ^ 56 ≤ va then fault kNotPres s
  else if va % 16 ≠ 0 then fault kAlign s
  else
    let r := s.resolve s.agent va
    match r.1 with
    | .invalid => fault kNotPres r.2
    | .malformed epa => fault kNotPres (r.2.logEvent 2 0 epa (some s.cur.core.val) 0 0)
    | .checkFail epa => fault kCheckFail (r.2.logCheck (memCause kCheckFail source).toNat epa)
    | .leaf level e _ =>
      match permFault kind s.sys e.toNat with
      | some k => fault k r.2
      | none =>
        let pa := leafFrame e.toNat + va % 2 ^ pageBits level
        if leafTier e.toNat = 0 && leafIdem e.toNat && regionOf pa = .hbm then .ok (.mem va pa, r.2)
        else .error (.trap { cause := 0xB5 } r.2)

/-- The fields of a pool locator (R96). -/
def locView (l : Word) : Nat := bitsOf l.toNat 62 2
def locOff (l : Word) : Nat := bitsOf l.toNat 0 40

/-- A LIN locator of a 16-byte object (R345, R181): anything else is POOLRANGE. -/
def mbarPool (l : Word) : Act Mbar := do
  let c ← look (·.core)
  trapIf (locView l != 0 || bitsOf l.toNat 40 22 != 0 || locOff l % 16 != 0 || decide (65536 * c.sb < locOff l + 16)) 0xB0
  pure (.pool (locOff l))

end Sys2Proof.Machine
end

