-- ==== Sys2Proof/Machine/Barrier.lean ====
section
/-! DEFINITION. The barrier networks and BAR (R343, R344), with the messages of pod-scope barriers (R23). -/

namespace Sys2Proof.Machine

/-- The scope codes of R170. -/
def scHart : Nat := 0
def scCore : Nat := 1
def scQuad : Nat := 2
def scDie : Nat := 3
def scPkg : Nat := 4
def scPod : Nat := 5

/-- The instance of a scope that a hart of a core lies in. -/
def scopeInst (sc core hart : Nat) : Nat :=
  if sc = scHart then 8 * core + hart else if sc = scCore then core else if sc = scQuad then core / 4
  else if sc = scDie then core / 48 else 0

/-- The instance inside a gang: pallet i of a gang lies on core i of its quad or die (R359). -/
def gangInst (sc i : Nat) : Nat := if sc = scHart ∨ sc = scCore then i else if sc = scQuad then i / 4 else 0

/-! ## Participants of a gang's barrier -/

/-- The harts of a core's pallet that have not executed END (R343). -/
def Core.barHarts (c : Core) (launch index : Nat) : List Arrival :=
  ((List.finRange 8).filter fun h => c.harts[h].st != .absent && c.harts[h].st != .ended).map fun h =>
    { launch := launch, index := index, hart := h.val }

/-- The gang size that counts pallets inside a gang. -/
def State.gangSize (s : State) (launch : Nat) : Nat :=
  match s.launches.find? (·.id == launch) with
  | some l => max l.gang 1
  | none => 1

/-- Pallets of a gang with their cores: those on cores, and those whose images are held. -/
def State.gangPallets (s : State) (launch gang : Nat) : List (Nat × Core) :=
  ((List.finRange 192).filterMap fun i =>
    let id := s.cores[i].palletId i.val
    if id.1 = launch ∧ id.2.1 = gang then some (id.2.2, s.cores[i]) else none) ++
  (s.outs.filter fun g => g.launch == launch && g.gang == gang).flatMap fun g => g.images.map fun m => (m.index, m.core)

/-- Whether some pallet of a gang in an instance was terminated: its harts stay participants (R343, R377). -/
def State.gangKilled (s : State) (launch gang sc inst : Nat) : Bool :=
  s.launches.any fun l => l.id == launch && l.killed.any fun i =>
    i / max l.gang 1 == gang && gangInst sc (i % max l.gang 1) == inst

/-- Whether a phase of a gang's barrier is complete. -/
def State.gangDone (s : State) (launch gang sc inst : Nat) (b : Barrier) : Bool :=
  let size := s.gangSize launch
  let ps := (s.gangPallets launch gang).filter fun p => gangInst sc (p.1 % size) == inst
  let hs := ps.flatMap fun p => p.2.barHarts launch p.1
  let hs := if sc = scHart then hs.filter b.arrived.contains else hs
  !s.gangKilled launch gang sc inst && hs.all b.arrived.contains

/-! ## Departure -/

/-- A change of a hart named by an arrival, wherever its pallet is. -/
def State.modArrived (s : State) (a : Arrival) (f : Hart → Hart) : State :=
  let h : Fin 8 := if h : a.hart < 8 then ⟨a.hart, h⟩ else 0
  { s with
    cores := Vector.ofFn fun i =>
      let id := s.cores[i].palletId i.val
      if id.1 = a.launch ∧ id.2.2 = a.index then s.cores[i].modHart h f else s.cores[i]
    outs := s.outs.map fun g =>
      if g.launch ≠ a.launch then g
      else { g with images := g.images.map fun m => if m.index = a.index then { m with core := m.core.modHart h f } else m } }

/-- Harts that waited depart: BAR completes when each runs again. -/
def State.depart (s : State) (as : List Arrival) : State :=
  as.foldl (fun s a => s.modArrived a fun h => { h with wait := .departed }) s

/-- Harts whose arrivals were refused raise BARG when they run again (R23). -/
def State.refuseArrivals (s : State) (as : List Arrival) : State :=
  as.foldl (fun s a => s.modArrived a fun h => { h with wait := .refused }) s

/-! ## Pod barriers (R23) -/

/-- The members of the pod: this package and the table's valid entries. -/
def State.podMembers (s : State) : List Nat :=
  (List.range 64).filter fun i => i == s.podId || bitOf (s.podcfg[ix64 i]).toNat 8

/-- The home of every pod barrier: the lowest member. -/
def State.podHome (s : State) : Nat := s.podMembers.headD s.podId

/-- The parity of a pod barrier's open phase, and its change. -/
def State.podPhase (s : State) (podkey bid : Nat) : Bool := s.podParity.contains (podkey, bid)

def State.setPodPhase (s : State) (podkey bid : Nat) (ph : Bool) : State :=
  { s with podParity := (if ph then [(podkey, bid)] else []) ++ s.podParity.filter (· != (podkey, bid)) }

/-- A barrier message: 60 bytes and their CRC. -/
def podMsg (type src bid : Nat) (ph : Bool) (podkey count n : Nat) : List Byte :=
  sealRecord (bytesOfLe 1 type ++ bytesOfLe 1 src ++ bytesOfLe 1 bid ++ bytesOfLe 1 (if ph then 1 else 0) ++
    bytesOfLe 2 podkey ++ bytesOfLe 2 0 ++ bytesOfLe 4 count ++ bytesOfLe 4 n ++ bytesOfLe 44 0)

/-- A posted write to the pod mailbox of a member. -/
def State.podSend (s : State) (member : Nat) (msg : List Byte) : State :=
  let cfg := (s.podcfg[ix64 member]).toNat
  { s with out := s.out ++ [.podMessage member (cfg % 4) (s.podbar[ix64 member] + 0x6000) msg] }

/-- How many arrivals a member has in some counts. -/
def countsOf (cs : List (Nat × Nat)) (m : Nat) : Nat := ((cs.filter (·.1 == m)).map (·.2)).sum

/-- The counts of the completing phase and what is left over: arrivals beyond n in the last message belong to the next
phase. -/
def splitCounts (n : Nat) (cs : List (Nat × Nat)) : List (Nat × Nat) × List (Nat × Nat) :=
  let excess := (cs.map (·.2)).sum - n
  match cs.reverse with
  | [] => ([], [])
  | (m, c) :: front => (front.reverse ++ [(m, c - excess)], if excess = 0 then [] else [(m, excess)])

/-- The record of an open phase; one that counts nobody is closed. -/
def State.putBarrier (s : State) (b : Barrier) : State :=
  { s with bars := (s.bars.map fun c => if c.id = b.id then b else c).filter Barrier.open }

/-- The home completes phases while enough arrivals are counted; every member is told how many of its own departed. -/
def State.podSettle (s : State) (podkey bid : Nat) (b : Barrier) : Nat → State
  | 0 => s.putBarrier b
  | k + 1 =>
    if b.n = 0 ∨ (b.counts.map (·.2)).sum < b.n then s.putBarrier b
    else
      let x := splitCounts b.n b.counts
      let own := countsOf x.1 s.podId
      let t := s.depart (b.arrived.take own)
      let ph := s.podPhase podkey bid
      let t := (s.podMembers.filter (· != s.podId)).foldl
        (fun t m => t.podSend m (podMsg 2 s.podId bid ph podkey (countsOf x.1 m) b.n)) t
      (t.setPodPhase podkey bid !ph).podSettle podkey bid
        { b with arrived := b.arrived.drop own, counts := x.2, n := if x.2 = [] then 0 else b.n } k

/-! ## Arrival -/

/-- Whether a record is the open phase that an arrival joins: away from home, arrivals with another N are kept apart. -/
def Barrier.joins (b : Barrier) (key : BarKey) (home : Bool) (n : Nat) : Bool :=
  b.key == key && match key with
    | .pod _ _ => home || b.n == n
    | _ => true

/-- The open phase of a barrier, if there is one. -/
def State.openPhase (s : State) (key : BarKey) (n : Nat) : Option Barrier :=
  s.bars.find? (·.joins key (s.podHome == s.podId) n)

/-- A phase completes when its last participant has arrived. -/
def State.settleBarrier (s : State) (b : Barrier) : State :=
  match b.key with
  | .gang launch gang sc inst =>
    if s.gangDone launch gang sc inst b then { s with bars := s.bars.filter (·.id != b.id) }.depart b.arrived else s
  | .group _ _ _ _ =>
    if b.arrived.length = b.n then { s with bars := s.bars.filter (·.id != b.id) }.depart b.arrived else s
  | .pod podkey bid => if s.podHome = s.podId then s.podSettle podkey bid b ((b.counts.map (·.2)).sum + 1) else s

/-- The arrival of the hart that runs is counted, and the phase completes if it was the last. -/
def State.arrive (s : State) (key : BarKey) (n : Nat) : State :=
  let home := s.podHome == s.podId
  let isPod := match key with | .pod _ _ => true | _ => false
  let old : Barrier := (s.openPhase key n).getD
    { id := s.nextBar, key := key, n := 0, arrived := [], counts := [], unsent := 0 }
  let b := { old with
    n := if old.n = 0 then n else old.n
    arrived := old.arrived ++ [s.arrival]
    counts := if isPod && home then old.counts ++ [(s.podId, 1)] else old.counts
    unsent := if isPod && !home then old.unsent + 1 else old.unsent }
  let s := if old.id = s.nextBar then { s with bars := s.bars ++ [b], nextBar := s.nextBar + 1 } else s.putBarrier b
  (s.modHart fun h => { h with wait := .barrier b.id }).settleBarrier b

/-- A hart that executed END leaves its gang's open phases, which may complete them (R343). -/
def State.leaveBarriers (s : State) : State :=
  let id := s.core.palletId s.cur.core.val
  (s.bars.filter fun b => match b.key with | .gang l g _ _ => l == id.1 && g == id.2.1 | _ => false).foldl
    (fun s b => s.settleBarrier b) s

/-! ## BAR (R343) -/

def groupN (w : Word) : Nat := bitsOf w.toNat 16 24
def groupBid (w : Word) : Nat := bitsOf w.toNat 0 8
def groupBad (w : Word) : Bool := bitsOf w.toNat 40 24 != 0 || bitsOf w.toNat 8 8 != 0 || groupN w == 0

/-- The context slot of the pallet. -/
def State.ctx (s : State) : Nat := match s.core.pallet with | some p => p.ctx | none => 0

/-- The PODKEY of a context slot (R361). -/
def State.podkey (s : State) (ctx : Nat) : Nat := bitsOf (s.ctxpart[ix64 ctx]).toNat 48 15

/-- What names the barrier that a BAR arrives at, and its N. -/
def State.barKey (s : State) (a : Reg) (sc : Nat) : BarKey × Nat :=
  let id := s.core.palletId s.cur.core.val
  if a = 0 then
    let i := id.2.2 % s.gangSize id.1
    (.gang id.1 id.2.1 sc (gangInst sc i), 0)
  else
    let w := s.getX a
    if sc = scPod then (.pod (s.podkey s.ctx) (groupBid w), groupN w)
    else (.group s.ctx sc (scopeInst sc s.cur.core.val s.cur.who.hartIx.val) (groupBid w), groupN w)

/-- The open phase fixes another N (R343). -/
def State.barMismatch (s : State) (key : BarKey) (n : Nat) : Bool :=
  match s.openPhase key n with
  | some b => b.n != 0 && n != 0 && b.n != n
  | none => false

/-- The end of a BAR: its wait is over. -/
def barDepart : Act Unit := acquire

/-- A BAR completes. A hart that waited for it while a pre-emption took another party of its gang is taken at the
instruction after it (R402, R413). -/
def State.retireBar (s : State) (waited : Bool) : State :=
  if waited && s.takenHere && !s.stepping then (s.complete (s.pc + 4)).takeWaiting else s.retire

def execBar (a : Reg) (sf : BitVec 3) (s : State) : Host.Outcome State Fault Refusal :=
  let waited := s.hart.wait == .departed
  let body : Act Unit := do
    ({} : Legal).check
    let s ← look id
    let sc := sf.toNat
    trapIf (scopeReserved sf || (a != 0 && sc == scHart)) 0x02
    trapIf (sc == scPod && !bitOf s.podid.toNat 8) 0x04
    match s.hart.wait with
    | .departed => barDepart
    | .refused => raise 0xB6
    | .barrier _ => park
    | _ => do
      trapIf (a != 0 && groupBad (s.getX a)) 0xB6
      let k := s.barKey a sc
      trapIf (s.barMismatch k.1 k.2) 0xB6
      if sc = scHart then barDepart
      else do
        if sc = scPod then upd (·.podRelease none) else pure ()
        upd fun s => (s.reachUnit s.ownPlace).arrive k.1 k.2
        let w ← look (·.hart.wait)
        if w = .departed then barDepart else park
  match body s with
  | .ok (_, t) => .next (t.retireBar waited)
  | .error e => .next e.resolve

/-! ## Messages from other packages (R23) -/

/-- The fields of a message. -/
def msgField (m : List Byte) (o n : Nat) : Nat := leOfBytes ((m.drop o).take n)

/-- A message that the mailbox accepts: 64 bytes, a good MCRC, a member as its source, reserved fields zero. A package is a
member of its own pod but sends itself nothing: its own SRC counts as malformed (log 81). -/
def State.podGood (s : State) (m : List Byte) : Bool :=
  m.length == 64 && msgField m 60 4 == (crc32c (m.take 60)).toNat && s.podMembers.contains (msgField m 1 1) &&
  msgField m 1 1 != s.podId && msgField m 16 44 == 0 && msgField m 6 2 == 0 && msgField m 4 2 < 2 ^ 15 && msgField m 3 1 < 2

/-- ARRIVE at the home: refused when N differs from the open phase's, counted otherwise. -/
def State.podArrive (s : State) (m : List Byte) : State :=
  let src := msgField m 1 1
  let bid := msgField m 2 1
  let podkey := msgField m 4 2
  let count := msgField m 8 4
  let n := msgField m 12 4
  let old : Barrier := ((s.bars.find? fun b => b.key == .pod podkey bid)).getD
    { id := s.nextBar, key := .pod podkey bid, n := 0, arrived := [], counts := [], unsent := 0 }
  if old.n ≠ 0 ∧ old.n ≠ n then s.podSend src (podMsg 3 s.podId bid (s.podPhase podkey bid) podkey count n)
  else
    let b := { old with n := n, counts := old.counts ++ [(src, count)] }
    let s := if old.id = s.nextBar then { s with bars := s.bars ++ [b], nextBar := s.nextBar + 1 } else s.putBarrier b
    s.podSettle podkey bid b ((b.counts.map (·.2)).sum + 1)

/-- The record away from home that a message answers. -/
def State.podRecord (s : State) (m : List Byte) : Option Barrier :=
  s.bars.find? fun b => b.key == .pod (msgField m 4 2) (msgField m 2 1) && b.n == msgField m 12 4

/-- DEPART: the phase of its parity is over, and the earliest arrivals depart. -/
def State.podDepart (s : State) (m : List Byte) : State :=
  let s := s.setPodPhase (msgField m 4 2) (msgField m 2 1) (msgField m 3 1 == 0)
  match s.podRecord m with
  | none => s
  | some b =>
    let k := msgField m 8 4
    (s.putBarrier { b with arrived := b.arrived.drop k }).depart (b.arrived.take k)

/-- REFUSE: the arrivals that the message carried are withdrawn. -/
def State.podRefuse (s : State) (m : List Byte) : State :=
  match s.podRecord m with
  | none => s
  | some b =>
    let k := msgField m 8 4
    (s.putBarrier { b with arrived := b.arrived.drop k }).refuseArrivals (b.arrived.take k)

/-- A write to the pod mailbox: a malformed message is discarded and logged. So is a TYPE that is none of 1 to 3, and an
ARRIVE at a package that is not the home is dropped without an entry (log 81). -/
def State.podReceive (s : State) (m : List Byte) : State :=
  let s := { s with epoch := s.epoch + 1 }
  if !s.podGood m then s.logEvent 10 0 0 none 0 0
  else if msgField m 0 1 = 1 then (if s.podHome = s.podId then s.podArrive m else s)
  else if msgField m 0 1 = 2 then s.podDepart m
  else if msgField m 0 1 = 3 then s.podRefuse m
  else s.logEvent 10 0 0 none 0 0

/-- Whether 64 cycles have passed since the last ARRIVE message of a barrier. -/
def State.podReady (s : State) (podkey bid : Nat) : Bool :=
  match s.podSent.find? (·.1 == (podkey, bid)) with
  | none => true
  | some p => decide (p.2 + 64 ≤ s.time)

/-- Sending the arrivals counted since the last message of a barrier, at most once in 64 cycles. -/
def State.podFlush (s : State) (id : Nat) : State :=
  match s.bars.find? (·.id == id) with
  | none => s
  | some b =>
    match b.key with
    | .pod podkey bid =>
      if b.unsent = 0 ∨ s.podHome = s.podId ∨ !s.podReady podkey bid then s
      else
        { (s.putBarrier { b with unsent := 0 }).podSend s.podHome
            (podMsg 1 s.podId bid (s.podPhase podkey bid) podkey b.unsent b.n) with
          podSent := ((podkey, bid), s.time) :: s.podSent.filter (·.1 != (podkey, bid)) }
    | _ => s

end Sys2Proof.Machine
end

