-- ==== Sys2Proof/Machine/Scalar.lean ====
section
/-! DEFINITION. Scalar integer instructions, majors 0x01 to 0x0B (R328 to R335). -/

namespace Sys2Proof.Machine

/-- The checks of majors 0x01 to 0x0B: no prefix; hart or stream (R328). -/
def scalarLegal : Legal := { stream := true }

/-- An instruction that writes a function of two registers (R329 to R331). -/
def alu (d a b : Reg) (f : Word → Word → Word) : Act Unit := do
  scalarLegal.check
  let x ← readX a
  let y ← readX b
  writeX d (f x y)

/-- An instruction that writes a function of one register (R332 to R335). -/
def aluImm (d a : Reg) (f : Word → Word) : Act Unit := do
  scalarLegal.check
  let x ← readX a
  writeX d (f x)

/-- 1 if a condition holds, else 0 (R329, R333). -/
def boolWord (b : Bool) : Word := if b then 1 else 0

/-- The shift amount of a register (R330). -/
def shiftAmount (b : Word) : Nat := b.toNat % 64

/-- Bits 127 to 64 of the signed product (R331). -/
def mulHigh (a b : Word) : Word := BitVec.ofInt 64 (a.toInt * b.toInt / 2 ^ 64)

/-- Bits 127 to 64 of the natural product (R331). -/
def mulHighU (a b : Word) : Word := BitVec.ofNat 64 (a.toNat * b.toNat / 2 ^ 64)

/-- Signed quotient, truncated toward zero; all ones for a divisor of 0; -2^63 by -1 gives -2^63 (R331). -/
def divSigned (a b : Word) : Word := if b = 0 then BitVec.allOnes 64 else BitVec.ofInt 64 (a.toInt.tdiv b.toInt)

/-- Signed remainder with the sign of A; A for a divisor of 0 (R331). -/
def remSigned (a b : Word) : Word := if b = 0 then a else BitVec.ofInt 64 (a.toInt.tmod b.toInt)

def divNatural (a b : Word) : Word := if b = 0 then BitVec.allOnes 64 else BitVec.ofNat 64 (a.toNat / b.toNat)

def remNatural (a b : Word) : Word := if b = 0 then a else BitVec.ofNat 64 (a.toNat % b.toNat)

/-- Bits P to P + L - 1 of a value, as a number (R334). -/
def fieldOf (a : Word) (p l : Nat) : Nat := bitsOf a.toNat p l

/-- The sign extension to 64 bits of the low l bits of a number (R334). -/
def signExtendNat (v l : Nat) : Word := if bitOf v (l - 1) then BitVec.ofInt 64 ((v : Int) - 2 ^ l) else BitVec.ofNat 64 v

/-- A value of n bytes extended to a register: with its sign, or with zeros. -/
def extendTo (signed : Bool) (n v : Nat) : Word := if signed then signExtendNat v (8 * n) else BitVec.ofNat 64 v

/-- The replacement of bits P to P + L - 1 of a value by the low L bits of another (R334). -/
def insertField (old new : Word) (p l : Nat) : Word :=
  let mask : Word := BitVec.ofNat 64 ((2 ^ l - 1) * 2 ^ p)
  (old &&& ~~~mask) ||| ((new <<< p) &&& mask)

/-! ## Major 0x01 -/

def execAdd (d a b : Reg) (s : State) : Host.Outcome State Fault Refusal :=
  finish (alu d a b (· + ·)) s

def execSub (d a b : Reg) (s : State) : Host.Outcome State Fault Refusal :=
  finish (alu d a b (· - ·)) s

def execAnd (d a b : Reg) (s : State) : Host.Outcome State Fault Refusal :=
  finish (alu d a b (· &&& ·)) s

def execOr (d a b : Reg) (s : State) : Host.Outcome State Fault Refusal :=
  finish (alu d a b (· ||| ·)) s

def execXor (d a b : Reg) (s : State) : Host.Outcome State Fault Refusal :=
  finish (alu d a b (· ^^^ ·)) s

def execAndn (d a b : Reg) (s : State) : Host.Outcome State Fault Refusal :=
  finish (alu d a b (fun x y => x &&& ~~~y)) s

def execSlt (d a b : Reg) (s : State) : Host.Outcome State Fault Refusal :=
  finish (alu d a b (fun x y => boolWord (x.slt y))) s

def execSltu (d a b : Reg) (s : State) : Host.Outcome State Fault Refusal :=
  finish (alu d a b (fun x y => boolWord (x.ult y))) s

def execSeq (d a b : Reg) (s : State) : Host.Outcome State Fault Refusal :=
  finish (alu d a b (fun x y => boolWord (x == y))) s

def execSne (d a b : Reg) (s : State) : Host.Outcome State Fault Refusal :=
  finish (alu d a b (fun x y => boolWord (x != y))) s

def execMin (d a b : Reg) (s : State) : Host.Outcome State Fault Refusal :=
  finish (alu d a b (fun x y => if x.slt y then x else y)) s

def execMax (d a b : Reg) (s : State) : Host.Outcome State Fault Refusal :=
  finish (alu d a b (fun x y => if x.slt y then y else x)) s

def execMinu (d a b : Reg) (s : State) : Host.Outcome State Fault Refusal :=
  finish (alu d a b (fun x y => if x.ult y then x else y)) s

def execMaxu (d a b : Reg) (s : State) : Host.Outcome State Fault Refusal :=
  finish (alu d a b (fun x y => if x.ult y then y else x)) s

/-! ## Major 0x02: shifts by a register -/

def execSll (d a b : Reg) (s : State) : Host.Outcome State Fault Refusal :=
  finish (alu d a b (fun x y => x <<< shiftAmount y)) s

def execSrl (d a b : Reg) (s : State) : Host.Outcome State Fault Refusal :=
  finish (alu d a b (fun x y => x >>> shiftAmount y)) s

def execSra (d a b : Reg) (s : State) : Host.Outcome State Fault Refusal :=
  finish (alu d a b (fun x y => x.sshiftRight (shiftAmount y))) s

def execRol (d a b : Reg) (s : State) : Host.Outcome State Fault Refusal :=
  finish (alu d a b (fun x y => x.rotateLeft (shiftAmount y))) s

def execRor (d a b : Reg) (s : State) : Host.Outcome State Fault Refusal :=
  finish (alu d a b (fun x y => x.rotateRight (shiftAmount y))) s

/-! ## Major 0x03: multiplication and division -/

def execMul (d a b : Reg) (s : State) : Host.Outcome State Fault Refusal :=
  finish (alu d a b (· * ·)) s

def execMulh (d a b : Reg) (s : State) : Host.Outcome State Fault Refusal :=
  finish (alu d a b mulHigh) s

def execMulhu (d a b : Reg) (s : State) : Host.Outcome State Fault Refusal :=
  finish (alu d a b mulHighU) s

def execDiv (d a b : Reg) (s : State) : Host.Outcome State Fault Refusal :=
  finish (alu d a b divSigned) s

def execDivu (d a b : Reg) (s : State) : Host.Outcome State Fault Refusal :=
  finish (alu d a b divNatural) s

def execRem (d a b : Reg) (s : State) : Host.Outcome State Fault Refusal :=
  finish (alu d a b remSigned) s

def execRemu (d a b : Reg) (s : State) : Host.Outcome State Fault Refusal :=
  finish (alu d a b remNatural) s

/-! ## Majors 0x04 to 0x07: 16-bit immediates -/

def execAddi (d a : Reg) (imm : BitVec 16) (s : State) : Host.Outcome State Fault Refusal :=
  finish (aluImm d a fun x => x + imm.signExtend 64) s

def execAndi (d a : Reg) (imm : BitVec 16) (s : State) : Host.Outcome State Fault Refusal :=
  finish (aluImm d a fun x => x &&& imm.setWidth 64) s

def execOri (d a : Reg) (imm : BitVec 16) (s : State) : Host.Outcome State Fault Refusal :=
  finish (aluImm d a fun x => x ||| imm.setWidth 64) s

def execXori (d a : Reg) (imm : BitVec 16) (s : State) : Host.Outcome State Fault Refusal :=
  finish (aluImm d a fun x => x ^^^ imm.setWidth 64) s

/-! ## Major 0x08: conditions with a 13-bit immediate -/

def execSeqi (d a : Reg) (imm : BitVec 13) (s : State) : Host.Outcome State Fault Refusal :=
  finish (aluImm d a fun x => boolWord (x == imm.signExtend 64)) s

def execSnei (d a : Reg) (imm : BitVec 13) (s : State) : Host.Outcome State Fault Refusal :=
  finish (aluImm d a fun x => boolWord (x != imm.signExtend 64)) s

def execSlti (d a : Reg) (imm : BitVec 13) (s : State) : Host.Outcome State Fault Refusal :=
  finish (aluImm d a fun x => boolWord (x.slt (imm.signExtend 64))) s

def execSgei (d a : Reg) (imm : BitVec 13) (s : State) : Host.Outcome State Fault Refusal :=
  finish (aluImm d a fun x => boolWord (!x.slt (imm.signExtend 64))) s

def execSltui (d a : Reg) (imm : BitVec 13) (s : State) : Host.Outcome State Fault Refusal :=
  finish (aluImm d a fun x => boolWord (x.ult (imm.signExtend 64))) s

def execSgeui (d a : Reg) (imm : BitVec 13) (s : State) : Host.Outcome State Fault Refusal :=
  finish (aluImm d a fun x => boolWord (!x.ult (imm.signExtend 64))) s

/-! ## Major 0x09: shifts by a constant and bit fields -/

def execSlli (d a : Reg) (sf : BitVec 6) (s : State) : Host.Outcome State Fault Refusal :=
  finish (aluImm d a fun x => x <<< sf.toNat) s

def execSrli (d a : Reg) (sf : BitVec 6) (s : State) : Host.Outcome State Fault Refusal :=
  finish (aluImm d a fun x => x >>> sf.toNat) s

def execSrai (d a : Reg) (sf : BitVec 6) (s : State) : Host.Outcome State Fault Refusal :=
  finish (aluImm d a fun x => x.sshiftRight sf.toNat) s

def execRori (d a : Reg) (sf : BitVec 6) (s : State) : Host.Outcome State Fault Refusal :=
  finish (aluImm d a fun x => x.rotateRight sf.toNat) s

/-- A bit-field form: P + L > 64 is no instruction (R334). -/
def fieldOp (d a : Reg) (p l : BitVec 6) (f : Word → Word → Word) : Act Unit := do
  ({ scalarLegal with ill := bitFieldBeyond p l } : Legal).check
  let x ← readX a
  let old ← readX d
  writeX d (f old x)

def execBext (d a : Reg) (p l : BitVec 6) (s : State) : Host.Outcome State Fault Refusal :=
  finish (fieldOp d a p l fun _ x => signExtendNat (fieldOf x p.toNat (l.toNat + 1)) (l.toNat + 1)) s

def execBextu (d a : Reg) (p l : BitVec 6) (s : State) : Host.Outcome State Fault Refusal :=
  finish (fieldOp d a p l fun _ x => BitVec.ofNat 64 (fieldOf x p.toNat (l.toNat + 1))) s

def execBins (d a : Reg) (p l : BitVec 6) (s : State) : Host.Outcome State Fault Refusal :=
  finish (fieldOp d a p l fun old x => insertField old x p.toNat (l.toNat + 1)) s

/-! ## Majors 0x0A and 0x0B: LUI and AUIPC (R335) -/

def execLui (d : Reg) (imm : BitVec 21) (s : State) : Host.Outcome State Fault Refusal :=
  finish (do scalarLegal.check; writeX d (imm.signExtend 64 * 65536)) s

def execAuipc (d : Reg) (imm : BitVec 21) (s : State) : Host.Outcome State Fault Refusal :=
  finish (do scalarLegal.check; let pc ← look (·.pc); writeX d (pc + imm.signExtend 64 * 65536)) s

end Sys2Proof.Machine
end

