-- ==== Sys2Proof/Machine/Branch.lean ====
section
/-! DEFINITION. Branches, jumps and the strip-mine branch (R336 to R341). -/

namespace Sys2Proof.Machine

/-- The target of a word offset (R140). -/
def branchTarget (pc : Word) {n : Nat} (off : BitVec n) : Word := pc + off.signExtend 64 * 4

/-- Compare and branch (R336). -/
def branchOn (a b : Reg) (f : BitVec 13) (cond : Word → Word → Bool) : Act Word := do
  scalarLegal.check
  let x ← readX a
  let y ← readX b
  let pc ← look (·.pc)
  pure (if cond x y then branchTarget pc f else pc + 4)

def execBeq (a b : Reg) (f : BitVec 13) (s : State) : Host.Outcome State Fault Refusal :=
  finishAt (branchOn a b f (· == ·)) s

def execBne (a b : Reg) (f : BitVec 13) (s : State) : Host.Outcome State Fault Refusal :=
  finishAt (branchOn a b f (· != ·)) s

def execBlt (a b : Reg) (f : BitVec 13) (s : State) : Host.Outcome State Fault Refusal :=
  finishAt (branchOn a b f BitVec.slt) s

def execBge (a b : Reg) (f : BitVec 13) (s : State) : Host.Outcome State Fault Refusal :=
  finishAt (branchOn a b f fun x y => !x.slt y) s

def execBltu (a b : Reg) (f : BitVec 13) (s : State) : Host.Outcome State Fault Refusal :=
  finishAt (branchOn a b f BitVec.ult) s

def execBgeu (a b : Reg) (f : BitVec 13) (s : State) : Host.Outcome State Fault Refusal :=
  finishAt (branchOn a b f fun x y => !x.ult y) s

/-- The plan of an instruction that senses some columns and writes none. -/
def sensePlan (regs : List Nat) (cols : BitVec 1024) : Plan := { regs := regs, cols := cols, dcols := 0, micro := false }

/-- Branch on mask (R337): the rows below VL are sensed as PANY senses them; a gated row is not
verified (R120). -/
def branchMask (k : BitVec 3) (f : BitVec 13) (cond : List Bool → Bool) : Act Word := do
  ({} : Legal).check
  let s ← look id
  rowCheck (sensePlan [] (maskCols k.toNat)) (if k = 0 then [] else s.passRows)
  let pc ← look (·.pc)
  pure (if cond (s.active.map (s.maskBit k.toNat)) then branchTarget pc f else pc + 4)

def execBmany (k : BitVec 3) (f : BitVec 13) (s : State) : Host.Outcome State Fault Refusal :=
  finishAt (branchMask k f fun l => l.any id) s

def execBmnone (k : BitVec 3) (f : BitVec 13) (s : State) : Host.Outcome State Fault Refusal :=
  finishAt (branchMask k f fun l => !l.any id) s

def execBmall (k : BitVec 3) (f : BitVec 13) (s : State) : Host.Outcome State Fault Refusal :=
  finishAt (branchMask k f fun l => l.all id) s

def execBmnall (k : BitVec 3) (f : BitVec 13) (s : State) : Host.Outcome State Fault Refusal :=
  finishAt (branchMask k f fun l => !l.all id) s

/-- R338. -/
def execJal (d : Reg) (f : BitVec 21) (s : State) : Host.Outcome State Fault Refusal :=
  finishAt (do
    scalarLegal.check
    let pc ← look (·.pc)
    writeX d (pc + 4)
    pure (branchTarget pc f)) s

/-- R339: the target comes from the old x[a]; a misaligned one traps at the fetch. -/
def execJalr (d a : Reg) (imm : BitVec 16) (s : State) : Host.Outcome State Fault Refusal :=
  finishAt (do
    scalarLegal.check
    let pc ← look (·.pc)
    let x ← readX a
    writeX d (pc + 4)
    pure (x + imm.signExtend 64)) s

def State.setSmbs (s : State) (i : BitVec 2) (v : Word) : State := s.modHart fun h => { h with smbs := h.smbs.set i.toNat v }

/-- R340. -/
def execSmbsImm (sf : BitVec 2) (imm : BitVec 15) (s : State) : Host.Outcome State Fault Refusal :=
  finish (do ({} : Legal).check; upd (·.setSmbs sf (imm.signExtend 64))) s

def execSmbsReg (sf : BitVec 2) (a : Reg) (s : State) : Host.Outcome State Fault Refusal :=
  finish (do ({} : Legal).check; let x ← readX a; upd (·.setSmbs sf x)) s

/-- Advancing the address registers of SMB, from x[A + i] on (R341). -/
def smbAdvance (a v : Nat) : List (Fin 4) → Act Unit
  | [] => pure ()
  | i :: is => do
    let h ← look (·.hart)
    let x ← readX (BitVec.ofNat 5 (a + i.val))
    writeX (BitVec.ofNat 5 (a + i.val)) (x + BitVec.ofNat 64 v * h.smbs[i])
    smbAdvance a v is

/-- R341. -/
def execSmb (c a : Reg) (n : BitVec 3) (f : BitVec 13) (s : State) : Host.Outcome State Fault Refusal :=
  finishAt (do
    ({ ill := smbIllegal c a n } : Legal).check
    let v ← look (·.hart.vl.toNat)
    let x ← readX c
    writeX c (if v ≤ x.toNat then x - BitVec.ofNat 64 v else 0)
    smbAdvance a.toNat v ((List.finRange 4).take n.toNat)
    let y ← readX c
    let pc ← look (·.pc)
    pure (if y ≠ 0 then branchTarget pc f else pc + 4)) s

end Sys2Proof.Machine
end

