-- ==== Sys2Proof/Machine/Float.lean ====
section
/-! DEFINITION. Floating formats and exact arithmetic (R60 to R66, R247, R252 to R254): values as integers times powers
of two, one rounding at the end. -/

namespace Sys2Proof.Machine

/-! ## Formats and flags -/

/-- The three floating types (R60). -/
inductive FFmt where
  | h
  | bh
  | f
deriving DecidableEq, Repr

/-- Fraction bits, exponent bits, bias. -/
def FFmt.frac : FFmt → Nat
  | .h => 10
  | .bh => 7
  | .f => 23
def FFmt.expBits : FFmt → Nat
  | .h => 5
  | .bh => 8
  | .f => 8
def FFmt.bias : FFmt → Nat
  | .h => 15
  | .bh => 127
  | .f => 127
def FFmt.width (t : FFmt) : Nat := 1 + t.expBits + t.frac

/-- +infinity, the canonical NaN, the sign bit and the largest finite magnitude of a format. -/
def FFmt.inf (t : FFmt) : Nat := (2 ^ t.expBits - 1) * 2 ^ t.frac
def FFmt.nan (t : FFmt) : Nat := t.inf + 2 ^ (t.frac - 1)
def FFmt.signBit (t : FFmt) : Nat := 2 ^ (t.width - 1)

/-- The least exponent of a unit in the last place. -/
def FFmt.qmin (t : FFmt) : Int := 1 - (t.bias : Int) - t.frac

/-- Rounding modes (R62). -/
inductive RMode where
  | rne
  | rtz
  | rdn
  | rup
deriving DecidableEq, Repr

def modeOf (n : Nat) : RMode :=
  match n with
  | 0 => .rne
  | 1 => .rtz
  | 2 => .rdn
  | _ => .rup

/-- The exceptions of R65, as bits of FFLAGS. -/
def flNV : BitVec 5 := 16
def flDZ : BitVec 5 := 8
def flOF : BitVec 5 := 4
def flUF : BitVec 5 := 2
def flNX : BitVec 5 := 1

/-- What a bit pattern stands for: a finite value is (-1)^neg * m * 2^e. -/
inductive FVal where
  | fin (neg : Bool) (m : Nat) (e : Int)
  | inf (neg : Bool)
  | nan (signalling : Bool)
deriving DecidableEq, Repr

/-- Interpretation of a pattern (R60). -/
def FFmt.decode (t : FFmt) (v : Nat) : FVal :=
  let neg := bitOf v (t.width - 1)
  let e := bitsOf v t.frac t.expBits
  let m := bitsOf v 0 t.frac
  if e = 2 ^ t.expBits - 1 then (if m = 0 then .inf neg else .nan (!bitOf v (t.frac - 1)))
  else if e = 0 then .fin neg m t.qmin
  else .fin neg (2 ^ t.frac + m) (t.qmin + (e - 1 : Nat))

/-! ## Rounding (R62) -/

/-- Whether a magnitude is rounded up, from its last kept bit, the half bit compared, and whether anything was cut:
`cut` is the part below the last place, `half` half a unit. -/
def roundsUp (rm : RMode) (neg odd : Bool) (cut half : Nat) : Bool :=
  match rm with
  | .rne => decide (half < cut) || (cut == half && odd && cut != 0)
  | .rtz => false
  | .rdn => neg && cut != 0
  | .rup => !neg && cut != 0

/-- m / 2^k rounded to an integer. -/
def roundShift (rm : RMode) (neg : Bool) (m k : Nat) : Nat :=
  if k = 0 then m
  else
    let q := m / 2 ^ k
    if roundsUp rm neg (bitOf q 0) (m % 2 ^ k) (2 ^ (k - 1)) then q + 1 else q

/-- m * 2^(e - q) rounded to an integer, and whether it was inexact. -/
def roundTo (rm : RMode) (neg : Bool) (m : Nat) (e q : Int) : Nat × Bool :=
  if q ≤ e then (m * 2 ^ (e - q).toNat, false)
  else
    let k := (q - e).toNat
    (roundShift rm neg m k, m % 2 ^ k != 0)

/-- What an overflow gives (R62). -/
def FFmt.overflow (t : FFmt) (rm : RMode) (neg : Bool) : Nat :=
  let big := match rm with
    | .rne => t.inf
    | .rtz => t.inf - 1
    | .rdn => if neg then t.inf else t.inf - 1
    | .rup => if neg then t.inf - 1 else t.inf
  big + if neg then t.signBit else 0

/-- Round of (-1)^neg * m * 2^e, m ≠ 0, with flags; tininess is detected after rounding (R61). -/
def FFmt.roundMag (t : FFmt) (rm : RMode) (neg : Bool) (m : Nat) (e : Int) : Nat × BitVec 5 :=
  let top : Int := e + Nat.log2 m
  let qn : Int := top - t.frac
  let q := max qn t.qmin
  let r := roundTo rm neg m e q
  let bits := (q - t.qmin).toNat * 2 ^ t.frac + r.1
  if t.inf ≤ bits then (t.overflow rm neg, flOF ||| flNX)
  else
    let tiny := qn < t.qmin && decide ((roundTo rm neg m e qn).1 < 2 ^ (t.qmin + t.frac - qn).toNat)
    (bits + (if neg then t.signBit else 0),
      if r.2 then flNX ||| (if tiny then flUF else 0) else 0)

/-- A zero with a sign. -/
def FFmt.zero (t : FFmt) (neg : Bool) : Nat := if neg then t.signBit else 0

/-- Round of an exact value whose zero has the sign `neg`. -/
def FFmt.round (t : FFmt) (rm : RMode) (neg : Bool) (m : Nat) (e : Int) : Nat × BitVec 5 :=
  if m = 0 then (t.zero neg, 0) else t.roundMag rm neg m e

/-- Round of a signed integer times 2^e, an exact zero with the sign of R62. -/
def FFmt.roundInt (t : FFmt) (rm : RMode) (v : Int) (e : Int) (zeroNeg : Bool) : Nat × BitVec 5 :=
  if v = 0 then (t.zero zeroNeg, 0) else t.roundMag rm (v < 0) v.natAbs e

def FFmt.infinity (t : FFmt) (neg : Bool) : Nat := t.inf + if neg then t.signBit else 0

/-! ## Arithmetic (R61, R247) -/

def FVal.signalling : FVal → Bool
  | .nan s => s
  | _ => false

def FVal.isNan : FVal → Bool
  | .nan _ => true
  | _ => false

/-- The canonical NaN, with NV where an operand is signalling or the operation is invalid. -/
def FFmt.nanOf (t : FFmt) (nv : Bool) : Nat × BitVec 5 := (t.nan, if nv then flNV else 0)

/-- (-1)^neg * m as an integer. -/
def signed (neg : Bool) (m : Nat) : Int := if neg then -(m : Int) else m

/-- The exact sum of two finite values, as an integer times a power of two. -/
def exactSum (n1 : Bool) (m1 : Nat) (e1 : Int) (n2 : Bool) (m2 : Nat) (e2 : Int) : Int × Int :=
  let e := min e1 e2
  (signed n1 m1 * 2 ^ (e1 - e).toNat + signed n2 m2 * 2 ^ (e2 - e).toNat, e)

/-- Round of the sum of two finite values; an exact zero of opposite signs is +0, or -0 under RDN (R62). -/
def FFmt.sum (t : FFmt) (rm : RMode) (n1 : Bool) (m1 : Nat) (e1 : Int) (n2 : Bool) (m2 : Nat) (e2 : Int) :
    Nat × BitVec 5 :=
  let x := exactSum n1 m1 e1 n2 m2 e2
  t.roundInt rm x.1 x.2 (if n1 = n2 then n1 else rm = .rdn)

def FFmt.add (t : FFmt) (rm : RMode) (a b : Nat) : Nat × BitVec 5 :=
  match t.decode a, t.decode b with
  | .nan s, y => t.nanOf (s || y.signalling)
  | _, .nan s => t.nanOf s
  | .inf n, .inf k => if n = k then (t.infinity n, 0) else t.nanOf true
  | .inf n, _ => (t.infinity n, 0)
  | _, .inf n => (t.infinity n, 0)
  | .fin n1 m1 e1, .fin n2 m2 e2 => t.sum rm n1 m1 e1 n2 m2 e2

def FFmt.negate (t : FFmt) (a : Nat) : Nat := a ^^^ t.signBit

/-- The product of two values as a value (NaN operands apart): 0 times infinity is invalid. -/
def FVal.mul : FVal → FVal → Option FVal
  | .fin n1 m1 e1, .fin n2 m2 e2 => some (.fin (n1 != n2) (m1 * m2) (e1 + e2))
  | .inf n, .inf k => some (.inf (n != k))
  | .inf n, .fin k m _ => if m = 0 then none else some (.inf (n != k))
  | .fin k m _, .inf n => if m = 0 then none else some (.inf (n != k))
  | _, _ => none

def FFmt.mul (t : FFmt) (rm : RMode) (a b : Nat) : Nat × BitVec 5 :=
  let x := t.decode a
  let y := t.decode b
  if x.isNan || y.isNan then t.nanOf (x.signalling || y.signalling)
  else match x.mul y with
    | none => t.nanOf true
    | some (.inf n) => (t.infinity n, 0)
    | some (.fin n m e) => t.round rm n m e
    | some (.nan _) => t.nanOf true

/-- Round of A * B + D with one rounding; a product 0 times infinity is invalid whatever D holds (R247). -/
def FFmt.fma (t : FFmt) (rm : RMode) (a b d : Nat) : Nat × BitVec 5 :=
  let x := t.decode a
  let y := t.decode b
  let z := t.decode d
  let sig := x.signalling || y.signalling || z.signalling
  if x.isNan || y.isNan then t.nanOf sig
  else match x.mul y with
    | none => t.nanOf true
    | some p =>
      match p, z with
      | _, .nan _ => t.nanOf sig
      | .inf n, .inf k => if n = k then (t.infinity n, 0) else t.nanOf true
      | .inf n, _ => (t.infinity n, 0)
      | _, .inf k => (t.infinity k, 0)
      | .fin n1 m1 e1, .fin n2 m2 e2 => t.sum rm n1 m1 e1 n2 m2 e2
      | .nan _, _ => t.nanOf true

/-- Order of two values that are not NaN: a < b; zeros are equal. -/
def FVal.lt : FVal → FVal → Bool
  | .inf n, .inf k => n && !k
  | .inf n, _ => n
  | _, .inf k => !k
  | .fin n1 m1 e1, .fin n2 m2 e2 =>
    let e := min e1 e2
    decide (signed n1 m1 * 2 ^ (e1 - e).toNat < signed n2 m2 * 2 ^ (e2 - e).toNat)
  | _, _ => false

def FVal.negSign : FVal → Bool
  | .fin n _ _ => n
  | .inf n => n
  | .nan _ => false

/-- Minimum or maximum (R247): -0 is below +0, a NaN gives way to the other operand. -/
def FFmt.minMax (t : FFmt) (wantMax : Bool) (a b : Nat) : Nat × BitVec 5 :=
  let x := t.decode a
  let y := t.decode b
  let fl := if x.signalling || y.signalling then flNV else 0
  if x.isNan && y.isNan then (t.nan, fl)
  else if x.isNan then (b, fl)
  else if y.isNan then (a, fl)
  else
    let less := x.lt y || (!y.lt x && x.negSign && !y.negSign)
    (if less != wantMax then a else b, fl)

/-- The comparisons of VFCMP (R247): the truth value and NV. -/
inductive FCond where
  | eq
  | lt
  | le
deriving DecidableEq, Repr

def FFmt.cmp (t : FFmt) (c : FCond) (a b : Nat) : Bool × BitVec 5 :=
  let x := t.decode a
  let y := t.decode b
  if x.isNan || y.isNan then
    (false, if c != .eq || x.signalling || y.signalling then flNV else 0)
  else
    match c with
    | .eq => (!x.lt y && !y.lt x, 0)
    | .lt => (x.lt y, 0)
    | .le => (!y.lt x, 0)

/-! ## Conversions (R66, R250) -/

/-- A floating value to an integer of width w (R66). -/
def FFmt.toInt (t : FFmt) (rm : RMode) (isSigned : Bool) (w : Nat) (a : Nat) : Nat × BitVec 5 :=
  let lo : Int := if isSigned then -(2 ^ (w - 1)) else 0
  let hi : Int := if isSigned then 2 ^ (w - 1) - 1 else 2 ^ w - 1
  match t.decode a with
  | .nan _ => (0, flNV)
  | .inf n => ((if n then lo else hi).emod (2 ^ w) |>.toNat, flNV)
  | .fin n m e =>
    let r := roundTo rm n m e 0
    let v := signed n r.1
    if hi < v then (hi.toNat, flNV)
    else if v < lo then ((lo.emod (2 ^ w)).toNat, flNV)
    else ((v.emod (2 ^ w)).toNat, if r.2 then flNX else 0)

/-- The integer that w bits stand for. -/
def intOf (isSigned : Bool) (w v : Nat) : Int := if isSigned && bitOf v (w - 1) then (v : Int) - 2 ^ w else v

def FFmt.ofInt (t : FFmt) (rm : RMode) (v : Int) : Nat × BitVec 5 := t.roundInt rm v 0 false

/-- From one floating type to another. -/
def FFmt.convert (src t : FFmt) (rm : RMode) (a : Nat) : Nat × BitVec 5 :=
  match src.decode a with
  | .nan s => t.nanOf s
  | .inf n => (t.infinity n, 0)
  | .fin n m e => t.round rm n m e

/-! ## Correctly rounded quotients and roots -/

/-- a / b as an integer times 2^-k with a sticky last bit, good for one rounding to at most k - 4 bits. -/
def stickyDiv (a b k : Nat) : Nat := 2 * (a * 2 ^ k / b) + if a * 2 ^ k % b = 0 then 0 else 1

/-- Integer square root by bisection: the largest r with r^2 ≤ n, below 2^bits. -/
def sqrtBits (n : Nat) : Nat → Nat → Nat
  | 0, r => r
  | k + 1, r => sqrtBits n k (if (r + 2 ^ k) * (r + 2 ^ k) ≤ n then r + 2 ^ k else r)

def isqrt (n : Nat) : Nat := sqrtBits n (Nat.log2 n / 2 + 1) 0

/-- Round of 1 / (m * 2^e), m ≠ 0. -/
def FFmt.recip (t : FFmt) (rm : RMode) (neg : Bool) (m : Nat) (e : Int) : Nat × BitVec 5 :=
  let k := Nat.log2 m + 64
  t.round rm neg (stickyDiv 1 m k) (-e - k - 1)

/-- Round of 1 / sqrt (m * 2^e), m ≠ 0: the square root of 2^(2k) / m for even e. -/
def FFmt.recipSqrt (t : FFmt) (rm : RMode) (m : Nat) (e : Int) : Nat × BitVec 5 :=
  let m' := if e % 2 = 0 then m else 2 * m
  let e' := if e % 2 = 0 then e else e - 1
  let k := Nat.log2 m + 64
  let q := 2 ^ (2 * k) / m'
  let r := isqrt q
  let exact := r * r * m' = 2 ^ (2 * k)
  t.round rm false (2 * r + if exact then 0 else 1) (-e' / 2 - k - 1)

/-! ## VEXP2, VRCP, VRSQRT (R252 to R254) -/

/-- Exp2Tab[j] = RoundRNE(2^(j/64), binary32) as an integer times 2^-23: the nearest 24-bit integer n, found by comparing
64th powers (2n + 1)^64 with 2^(j + 64 * 24). -/
def expTabSearch (j : Nat) : Nat → Nat → Nat
  | 0, r => r
  | k + 1, r => expTabSearch j k (if (2 * (r + 2 ^ k) - 1) ^ 64 ≤ 2 ^ (j + 64 * 24) then r + 2 ^ k else r)

def expTab (j : Nat) : Nat := if j = 0 then 2 ^ 23 else expTabSearch j 24 0

/-- c1, c2, c3 of R252 = RoundRNE((ln 2)^k / k!, binary32): significand and exponent. -/
def expC1 : Nat × Int := (0xB17218, -24)
def expC2 : Nat × Int := (0xF5FDF0, -26)
def expC3 : Nat × Int := (0xE35847, -28)

/-- A finite value, as an integer times 2^e. -/
structure Dy where
  v : Int
  e : Int
deriving DecidableEq, Repr

def Dy.add (a b : Dy) : Dy :=
  let e := min a.e b.e
  { v := a.v * 2 ^ (a.e - e).toNat + b.v * 2 ^ (b.e - e).toNat, e := e }
def Dy.mul (a b : Dy) : Dy := { v := a.v * b.v, e := a.e + b.e }
def Dy.neg (a : Dy) : Dy := { a with v := -a.v }
def Dy.ofNat (n : Nat) (e : Int) : Dy := { v := n, e := e }
def Dy.one : Dy := { v := 1, e := 0 }

/-- RoundRNE of an exact value to binary32, as an exact value. -/
def Dy.rne32 (a : Dy) : Dy :=
  match FFmt.f.decode (FFmt.f.roundInt .rne a.v a.e false).1 with
  | .fin n m e => { v := signed n m, e := e }
  | _ => { v := 0, e := 0 }

def Dy.round (a : Dy) (t : FFmt) (rm : RMode) : Nat × BitVec 5 := t.roundInt rm a.v a.e false

/-- Round to the nearest integer of v * 2^e, ties to even. -/
def Dy.nearest (a : Dy) : Int :=
  signed (a.v < 0) (roundTo .rne false a.v.natAbs a.e 0).1

/-- Whether v * 2^e is an integer. -/
def Dy.isInt (a : Dy) : Bool := 0 ≤ a.e || a.v.natAbs % 2 ^ (-a.e).toNat == 0

/-- 2^x for .f with n, j, k and r of R252; the flags are those of the rounding, and NX whenever x is no integer. -/
def exp2Core (rm : RMode) (x : Dy) : Nat × BitVec 5 :=
  let n := ({ x with e := x.e + 6 } : Dy).nearest
  let j := n.emod 64
  let k := (n - j) / 64
  let r := x.add { v := -n, e := -6 }
  let p := (Dy.add (.ofNat expC2.1 expC2.2) (r.mul (.ofNat expC3.1 expC3.2))).rne32
  let p := (Dy.add (.ofNat expC1.1 expC1.2) (r.mul p)).rne32
  let p := (Dy.add .one (r.mul p)).rne32
  let y := (Dy.mul (.ofNat (expTab j.toNat) (-23)) p).mul { v := 1, e := k }
  let z := y.round .f rm
  (z.1, if x.isInt then z.2 else z.2 ||| flNX ||| (if z.1 < 2 ^ 23 then flUF else 0))

/-- Round of 2^k. -/
def FFmt.pow2Int (t : FFmt) (rm : RMode) (k : Int) : Nat × BitVec 5 := t.round rm false 1 k

/-- 2^(f / 2^s) for 0 ≤ f < 2^s as an integer times 2^-p, rounded down: one square root for each bit of f. -/
def powFrac (p : Nat) (f : Nat) : Nat → Nat → Nat → Nat
  | 0, _, acc => acc
  | s + 1, root, acc =>
    let root := isqrt (root * 2 ^ p)
    powFrac p f s root (if bitOf f s then acc * root / 2 ^ p else acc)

/-- 2^x correctly rounded to .h or .bh: x = n + f / 2^s exactly; the value of 2^(f / 2^s) is taken to 96 bits and is
never a value or a midpoint of the format unless f = 0. -/
def FFmt.exp2 (t : FFmt) (rm : RMode) (x : Dy) : Nat × BitVec 5 :=
  if x.isInt then t.pow2Int rm (if 0 ≤ x.e then x.v * 2 ^ x.e.toNat else x.v / 2 ^ (-x.e).toNat)
  else
    let s := (-x.e).toNat
    let n := x.v.ediv (2 ^ s)
    let f := (x.v.emod (2 ^ s)).toNat
    let y := powFrac 160 f s (2 ^ 161) (2 ^ 160)
    t.round rm false (2 * (y / 2 ^ 64) + 1) (n - 97)

/-- Whether v * 2^e is below an integer. -/
def Dy.lt (a : Dy) (n : Int) : Bool := decide ((a.add { v := -n, e := 0 }).v < 0)

/-- VEXP2 (R252). Beyond the exponents of the type the rounding is that of an overflow or of a tiny value. -/
def FFmt.fnExp2 (t : FFmt) (rm : RMode) (v : Nat) : Nat × BitVec 5 :=
  match t.decode v with
  | .nan s => t.nanOf s
  | .inf n => if n then (0, 0) else (t.infinity false, 0)
  | .fin n m e =>
    let x : Dy := { v := signed n m, e := e }
    if m = 0 then t.pow2Int rm 0
    else if !x.lt (t.bias + 1) then (t.overflow rm false, flOF ||| flNX)
    else if x.lt (t.qmin - 1) then (if rm = .rup then 1 else 0, flUF ||| flNX)
    else if t = .f then exp2Core rm x
    else t.exp2 rm x

/-- The flags of an approximated result: NX and UF by whether it is exact (R253, R254), OF by the rounding. -/
def approxFlags (exact subnormal : Bool) (fl : BitVec 5) : BitVec 5 :=
  if fl &&& flOF != 0 then fl
  else if exact then 0
  else flNX ||| (if fl &&& flUF != 0 || subnormal then flUF else 0)

/-- Whether a result r times the value m * 2^e, or its square times it, is 1. -/
def isInverse (r : FVal) (square : Bool) (m : Nat) (e : Int) : Bool :=
  match r with
  | .fin _ k q =>
    let p := (if square then k * k else k) * m
    let x := (if square then 2 * q else q) + e
    decide (x ≤ 0) && p == 2 ^ (-x).toNat
  | _ => false

/-- VRCP of a finite non-zero .f value (R253). -/
def rcp32 (rm : RMode) (neg : Bool) (m : Nat) (e : Int) : Nat × BitVec 5 :=
  let l := Nat.log2 m
  let sig : Dy := .ofNat m (-l)
  let i := m * 128 / 2 ^ l - 128
  let y0 : Dy := match FFmt.f.decode (FFmt.f.recip .rne false (257 + 2 * i) (-8)).1 with
    | .fin _ a q => .ofNat a q
    | _ => .one
  let u := (Dy.one.add (sig.mul y0).neg).rne32
  let y1 := (y0.add (y0.mul u)).rne32
  let u2 := (Dy.one.add (sig.mul y1).neg).rne32
  let y := (y1.add (y1.mul u2)).mul { v := if neg then -1 else 1, e := -(e + l) }
  let z := y.round .f rm
  (z.1, approxFlags (isInverse (FFmt.f.decode z.1) false m e) (bitsOf z.1 0 31 < 2 ^ 23) z.2)

def FFmt.fnRcp (t : FFmt) (rm : RMode) (v : Nat) : Nat × BitVec 5 :=
  match t.decode v with
  | .nan s => t.nanOf s
  | .inf n => (t.zero n, 0)
  | .fin n m e =>
    if m = 0 then (t.infinity n, flDZ)
    else if t = .f then rcp32 rm n m e
    else t.recip rm n m e

/-- VRSQRT of a positive finite .f value (R254). -/
def rsqrt32 (rm : RMode) (m : Nat) (e : Int) : Nat × BitVec 5 :=
  let l := Nat.log2 m
  let odd := decide ((e + l) % 2 = 1)
  let ex : Int := if odd then e + l - 1 else e + l
  let sig : Dy := .ofNat (if odd then 2 * m else m) (-l)
  let i := (if odd then 2 * m else m) * 32 / 2 ^ l - 32
  let y0 : Dy := match FFmt.f.decode (FFmt.f.recipSqrt .rne (65 + 2 * i) (-6)).1 with
    | .fin _ a q => .ofNat a q
    | _ => .one
  let half := fun (a : Dy) => ({ a with e := a.e - 1 } : Dy)
  let t := (y0.mul y0).rne32
  let u := (Dy.one.add (sig.mul t).neg).rne32
  let y1 := (y0.add (y0.mul (half u))).rne32
  let t := (y1.mul y1).rne32
  let u2 := (Dy.one.add (sig.mul t).neg).rne32
  let y := (y1.add (y1.mul (half u2))).mul { v := 1, e := -ex / 2 }
  let z := y.round .f rm
  (z.1, approxFlags (isInverse (FFmt.f.decode z.1) true m e) (z.1 < 2 ^ 23) z.2)

def FFmt.fnRsqrt (t : FFmt) (rm : RMode) (v : Nat) : Nat × BitVec 5 :=
  match t.decode v with
  | .nan s => t.nanOf s
  | .inf n => if n then t.nanOf true else (0, 0)
  | .fin n m e =>
    if m = 0 then (t.infinity n, flDZ)
    else if n then t.nanOf true
    else if t = .f then rsqrt32 rm m e
    else t.recipSqrt rm m e

end Sys2Proof.Machine
end

