-- ==== Sys2Proof/Machine/VecMem.lean ====
section
/-! DEFINITION. Vector memory instructions (R174 to R179): unit-stride, strided, row-local, plane, gather and scatter. -/

namespace Sys2Proof.Machine

/-! ## Type codes (R142) -/

/-- Width of the elements of a type code; block types count their element. -/
def typeWidth (e : BitVec 4) : Nat :=
  match e.toNat with
  | 0 => 2
  | 1 => 4
  | 2 => 8
  | 3 => 16
  | 4 => 32
  | 5 => 64
  | 6 => 2
  | 7 => 4
  | 8 => 8
  | 9 => 16
  | 10 => 32
  | 11 => 64
  | 12 => 16
  | 13 => 16
  | 14 => 32
  | _ => 8

/-- Codes 0x0 to 0x5 are signed integers. -/
def typeSigned (e : BitVec 4) : Bool := e.toNat ≤ 5
def typeInt (e : BitVec 4) : Bool := e.toNat ≤ 11
def typeFloat (e : BitVec 4) : Bool := 12 ≤ e.toNat && e.toNat ≤ 14

/-- How an ordinary instruction reads a register of a type (R74). -/
def abnKind (e : BitVec 4) : AbnKind :=
  if typeInt e then .int (typeWidth e) else if e = 14 then .binary32 else .any

/-! ## Elements one after another (R393) -/

/-- What a row's access leaves to the store path: the address of the first byte that it touches, how many bytes it stores
to, 0 for a load, and the bits that it stores whole, counted from address 0: a plane store leaves the merge to the memory
controller and counts none (R321). -/
structure Stored where
  pa : Nat
  n : Nat
  bit : Nat
  w : Nat
deriving DecidableEq, Repr

/-- A load, the store of n bytes, and the store of w bits of a byte. -/
def Stored.load (pa : Nat) : Stored := { pa := pa, n := 0, bit := 0, w := 0 }
def Stored.bytes (pa n : Nat) : Stored := { pa := pa, n := n, bit := 8 * pa, w := 8 * n }
def Stored.part (pa bit w : Nat) : Stored := { pa := pa, n := 1, bit := 8 * pa + bit, w := w }

/-- The access of a row: it has not been performed where it answers `none`. -/
abbrev Element := Nat → Act (Option Stored)

/-- The progress of a vector access: the state, where courses stopped, the rows performed (last first), the bytes stored,
the trap of the lowest faulting row, and whether some course cannot be restarted. -/
structure Run where
  s : State
  stops : List (Nat × Nat)
  done : List Nat
  stored : List Stored
  first : Option (Nat × Trap)
  norst : Bool

/-- A course stops: the ones above it have not begun a device-class access, which performs its rows one after another
(R56). -/
def stopAt (strict : Bool) (c row : Nat) : List (Nat × Nat) :=
  (c, row) :: (if strict then (List.range' (c + 1) (7 - c)).map fun k => (k, 0) else [])

/-- One element: its course stops at its first fault. How far it came means nothing where it cannot be restarted
(R121). -/
def Run.row (strict : Bool) (el : Element) (r : Run) (j : Nat) : Run :=
  let c := courseOfRow (r.s.coreRow j)
  if r.stops.any (·.1 == c) then r
  else match el j r.s with
    | .ok (some w, t) => { r with s := t, done := j :: r.done, stored := if w.n = 0 then r.stored else w :: r.stored }
    | .ok (none, t) => { r with s := t }
    | .error (.trap t u) =>
      { r with s := if t.norst then u.useLost else u, first := r.first <|> some (j, t), norst := r.norst || t.norst,
               stops := stopAt strict c (if t.norst then Config.freeNat (u.free + c) else j) ++ r.stops }
    | .error (.wait u) => { r with s := u, stops := stopAt strict c j ++ r.stops }
    | .error (.park u) => { r with s := u, stops := stopAt strict c j ++ r.stops }

/-- The rows in ascending order; `bad` are courses that a failed slice stops. -/
def runRows (strict : Bool) (bad rows : List Nat) (el : Element) (s : State) : Run :=
  let stops := (bad.eraseDups.flatMap fun c => stopAt strict c (Config.freeNat (s.free + c)))
  rows.foldl (Run.row strict el)
    { s := if bad = [] then s else s.useLost, stops := stops, done := [], stored := [], first := none, norst := false }

/-- The trap that ends a run: that of the lowest row (R393). -/
def Run.trap (r : Run) (fs : List FailedSlice) : Option Trap :=
  let pairs := r.s.pairsOf r.stops
  let own := r.first.map fun p => (p.1, { p.2 with pairs := pairs, norst := r.norst || fs != [] })
  match own, lowestSlice fs with
  | none, none => none
  | none, some _ => some (landedTrap fs pairs)
  | some p, none => some p.2
  | some p, some f => some (if 2048 * f.slice ≤ p.1 then landedTrap fs pairs else p.2)

/-- The sectors that requests poisoned on their way out (R323). -/
def poisonedSectors (rs : List PortRequest) : List Nat :=
  (rs.filter (·.poisoned)).flatMap fun r => sectorsOf (2 ^ 64 * (r.port + 1) + r.addr) r.size

/-- The checks of the sectors that a vector store has written, from the state before it: new ones for those assembled whole,
every bit stored, a merge by the memory controller for the others (R321, R322). Data sent poisoned stay poison (R323). -/
def Run.sealed (r : Run) (before : State) : State :=
  if r.s.bad = [] then r.s
  else
    let touched := (r.stored.flatMap fun w => sectorsOf w.pa w.n).eraseDups
    let poison := poisonedSectors (r.s.requests.drop before.requests.length)
    r.s.recheck (touched.filter fun k => !poison.contains k && (List.range 512).all fun i =>
      r.stored.any fun w => decide (w.bit ≤ 512 * k + i ∧ 512 * k + i < w.bit + w.w)) touched

/-- Whether an address lies in a device-class page: no translation is left behind by asking. -/
def State.deviceVa (s : State) (acc : Acc) (va : Nat) : Bool :=
  acc.device && match s.translate s.agent acc va with
    | .ok x _ => !x.idem
    | _ => false

/-- The aligned addresses that are the first of their 64 KiB page in a list. -/
def pageFirsts (align : Nat) (vas : List Nat) : List Nat :=
  (vas.foldl (fun l va => if va % align ≠ 0 || l.any (· / 65536 == va / 65536) then l else va :: l) []).reverse

/-- The lowest element whose access breaks the device-class rules: R57 raises DEVCLASS before any element is performed. -/
def State.deviceFault (s : State) (acc : Acc) (vas : List Nat) : Option Nat :=
  (pageFirsts acc.align vas).find? fun va =>
    match s.translate s.agent acc va with
    | .fault kind _ => kind == kDevClass
    | _ => false

/-- CHECKFAIL found in rows by a vector access, with the access's source (R121): every failing row is logged, and TFADDR is
the lowest one. -/
def portTrap {α : Type} (source : Nat) (bad : List Nat) (cols : BitVec 1024) : Act α := fun s =>
  let cause := memCause kCheckFail source
  .error (.trap { cause := cause, faddr := BitVec.ofNat 64 (s.coreRow ((least bad).getD 0)), norst := true }
    (s.logRows cause.toNat bad fun _ => cols))

/-- A row port reads row j: all 16 groups are verified (R120). -/
def portRead (source j : Nat) : Act Unit := fun s =>
  if (s.row j).chk != 0 then portTrap source [j] (BitVec.allOnes 1024) s else .ok ((), s)

/-- A row port writes some columns of row j: the groups that it covers in part are verified, the others get new check
columns (R120). -/
def portWrite (source j : Nat) (cols : BitVec 1024) : Act Unit := fun s =>
  if (s.row j).portFails cols then portTrap source [j] (partCols cols) s
  else .ok ((), if (s.row j).chk = 0 then s else s.setRow j ((s.row j).portReset cols))

/-- m(MREG) after a gather or scatter that faulted or a non-faulting form (R167, R179): 1 in each active row that was
performed. -/
def State.writeCmask (s : State) (active : List Nat) (done : Nat → Bool) : State :=
  if s.hart.cmask = 0 then s
  else active.foldl (fun s j => s.setRow j ((s.row j).putBit s.hart.cmask.toNat (done j))) s

/-- A vector access. -/
structure VecAcc where
  /-- registers it reads or writes, for landed bits; a store waits for all their slices (R134) -/
  regs : List Nat
  store : Bool := false
  /-- sources with how they are read (R74) -/
  srcs : List (Nat × AbnKind) := []
  /-- the address of each row's element, and the access -/
  va : Nat → Nat
  acc : Acc
  /-- a gather or scatter reports its rows in m(MREG): what it reports of a row that a replay skips (R167); and whether it
  does so without a fault too (R179) -/
  cmask : Option (Nat → Bool) := none
  always : Bool := false
  dests : List Nat := []

/-- m(MREG) after a vector access: the rows performed. -/
def VecAcc.report (v : VecAcc) (s : State) (done : List Nat) (u : State) : State :=
  match v.cmask with
  | none => u
  | some f => u.writeCmask s.active fun j => if s.pendingRow j then done.contains j else f j

/-- A store waits for every slice of its registers (R134). A landed-bit trap of a gather or scatter is a fault of it, before
which no row was performed, and m(MREG) says so (R167, log 105). -/
def landedStore (v : VecAcc) : Act Unit := do
  let s ← look id
  let fs ← landedGate v.regs
  if fs = [] then pure ()
  else fun t => .error (.trap (landedTrap fs (t.alignedPairs (t.failCourses fs))) (v.report s [] t.useLost))

/-- A vector access of the active rows at their addresses: the landed bits, the check of R74, the check of R57, the
elements, then the trap or the end. An access to device-class memory aligns courses, and orders what comes before it before
what comes after (R136, R191). -/
def vecAccess (v : VecAcc) (el : State → Element) : Act Unit := do
  if v.store then landedStore v else pure ()
  let fs ← landedGate v.regs
  let s ← look id
  abnCheck s.active v.srcs
  let rows := s.active.filter s.pendingRow
  walkerGate (rows.map v.va)
  fun t =>
    match t.deviceFault v.acc (rows.map v.va) with
    | some x => .error (.trap { cause := memCause kDevClass v.acc.source, faddr := BitVec.ofNat 64 x } (v.report s [] t))
    | none =>
      let strict := rows.any fun j => t.deviceVa v.acc (v.va j)
      let r := runRows strict (s.failCourses fs) rows (el s) (if strict then t.orderAll else t)
      match r.trap fs with
      | none =>
        let u := if v.always then v.report s r.done (r.sealed t) else r.sealed t
        .ok ((), (v.dests.foldl (fun u d => u.destVc d) u).modHart Hart.replayStep)
      | some e => .error (.trap e (v.report s r.done (r.sealed t)))

/-- The footprint of a vector load against DCTHR decides its use of the die cache (R49, R50). The product saturates far
beyond every DCTHR. -/
def State.loadRole (s : State) (oc : BitVec 4) (footprint : Nat) : Role :=
  { oc := oc, scalar := false, cache := if footprint ≤ s.hart.dcthr.toNat then .high else .none }

/-- A vector or plane store allocates at low priority (R49). -/
def storeRole (oc : BitVec 4) : Role := { oc := oc, scalar := false, cache := .low, assembled := true }

/-- Bytes of VL elements one after another. -/
def State.vlBytes (s : State) (w : Nat) : Nat := (s.hart.vl.toNat * w + 7) / 8

/-! ## Unit-stride and strided (R174, R175) -/

/-- The virtual address of the first byte of element j of a packed array. -/
def packedVa (base w j : Nat) : Nat := (base + j * w / 8) % 2 ^ 64

/-- The access of an element of w bits: a byte or the element, naturally aligned (R40). -/
def elemAcc (kind : AccKind) (source w : Nat) (dev : Bool) : Acc :=
  { kind := kind, source := source, device := dev, align := (w + 7) / 8 }

/-- Loading element j from its translated address: w bits at their place in the byte or bytes. -/
def loadAt (source w va bit : Nat) (regs : List Nat) (r : Role) (x : Xlat) (j : Nat) : Act (Option Stored) := do
  let v ← readAt source va x ((w + 7) / 8) r
  let c ← look (·.core)
  portWrite source j (regs.foldl (fun a k => a ||| colMask (c.vcol k) w) 0)
  upd fun s => s.setRow j (putElem c regs w (v / 2 ^ bit) (s.row j)) |>.openLoad r x ((w + 7) / 8) (.row j regs (regs.map c.vcol) w bit)
  pure (some (.load x.pa))

/-- Loading element j. -/
def loadElem (source w va bit : Nat) (regs : List Nat) (dev : Bool) (r : Role) : Element := fun j => do
  let x ← xlat (elemAcc .load source w dev) va
  loadAt source w va bit regs r x j

/-- Storing element j: bits of a byte are merged (R175). -/
def storeElem (source w va bit : Nat) (reg : Nat) (dev : Bool) (r : Role) : Element := fun j => do
  let n := (w + 7) / 8
  let x ← xlat (elemAcc .store source w dev) va
  portRead source j
  let v ← look fun s => s.elem reg w j
  if 8 ≤ w then do
    writeAt x n v r
    pure (some (.bytes x.pa n))
  else do
    let old ← look fun s => readLE s.mem x.pa 1
    writeAt x 1 (old - bitsOf old bit w * 2 ^ bit + v * 2 ^ bit) r
    pure (some (.part x.pa bit w))

/-- The checks that LDV and STV share. -/
def ldvLegal (store : Bool) (d : Reg) (e : BitVec 4) : Legal :=
  { pred := true, copy := !store, vreads := if store then [d.toNat] else [], ewOk := e != 15, vregs := [d.toNat],
    width := typeWidth e }

def ldvVa (base : Word) (e : BitVec 4) (j : Nat) : Nat := packedVa base.toNat (typeWidth e) j
def ldvBit (e : BitVec 4) (j : Nat) : Nat := j * typeWidth e % 8

def execLdv (d a : Reg) (e c : BitVec 4) (s : State) : Host.Outcome State Fault Refusal :=
  finish (do
    (ldvLegal false d e).check
    let base ← readX a
    let regs ← look fun s => d.toNat :: s.copyReg
    vecAccess { regs := regs, va := ldvVa base e, acc := elemAcc .load 3 (typeWidth e) true, dests := [d.toNat] }
      fun s j => loadElem 3 (typeWidth e) (ldvVa base e j) (ldvBit e j) regs true
        (s.loadRole c (s.vlBytes (typeWidth e))) j) s

def execStv (d a : Reg) (e c : BitVec 4) (s : State) : Host.Outcome State Fault Refusal :=
  finish (do
    (ldvLegal true d e).check
    let base ← readX a
    vecAccess { regs := [d.toNat], store := true, va := ldvVa base e, acc := elemAcc .store 4 (typeWidth e) true }
      fun _ j => storeElem 4 (typeWidth e) (ldvVa base e j) (ldvBit e j) d.toNat true (storeRole c) j) s

/-- Types of at least a byte (R174). -/
def typeBytes (e : BitVec 4) : Bool := e != 15 && 8 ≤ typeWidth e

/-- The address of element j of a strided access, modulo 2^64. -/
def stridedVa (base stride : Word) (j : Nat) : Nat := (base + stride * BitVec.ofNat 64 j).toNat

def execLdvs (d a b : Reg) (e c : BitVec 4) (s : State) : Host.Outcome State Fault Refusal :=
  finish (do
    ({ ldvLegal false d e with ewOk := typeBytes e } : Legal).check
    let base ← readX a
    let stride ← readX b
    let regs ← look fun s => d.toNat :: s.copyReg
    vecAccess { regs := regs, va := stridedVa base stride, acc := elemAcc .load 3 (typeWidth e) false, dests := [d.toNat] }
      fun s j => loadElem 3 (typeWidth e) (stridedVa base stride j) 0 regs false
        (s.loadRole c (s.hart.vl.toNat * stride.toInt.natAbs)) j) s

def execStvs (d a b : Reg) (e c : BitVec 4) (s : State) : Host.Outcome State Fault Refusal :=
  finish (do
    ({ ldvLegal true d e with ewOk := typeBytes e } : Legal).check
    let base ← readX a
    let stride ← readX b
    vecAccess { regs := [d.toNat], store := true, va := stridedVa base stride, acc := elemAcc .store 4 (typeWidth e) false }
      fun _ j => storeElem 4 (typeWidth e) (stridedVa base stride j) 0 d.toNat false (storeRole c) j) s

/-! ## Row-local (R175) -/

/-- The plan of a row-local move. -/
def localPlan (s : State) (store : Bool) (d o w : Nat) : Plan :=
  let scratch := colMask (s.core.scol0 + 8 * o) w
  let regs := if store then [d] else d :: s.copyReg
  { regs := regs, cols := scratch ||| (if store then s.regCols d w else s.destCols d w),
    dcols := if store then scratch else s.destCols d w, dests := if store then [] else [d], lats := .t, named := true }

def rowLocal (store : Bool) (d a : Reg) (e : BitVec 4) : Act Unit := do
  ({ ldvLegal store d e with ewOk := typeBytes e } : Legal).check
  let o ← readX a
  let w := typeWidth e
  let s ← look id
  trapIf (decide (s.core.sb < o.toNat + w / 8)) 0xB0
  if store then landedAll [d.toNat] else pure ()
  perRow (localPlan s store d.toNat o.toNat w) fun s j =>
    let c := s.core
    let r := s.row j
    if store then (r.put (c.scol0 + 8 * o.toNat) w (r.get (c.vcol d.toNat) w), 0)
    else (putElem c (d.toNat :: s.copyReg) w (r.get (c.scol0 + 8 * o.toNat) w) r, 0)

def execLdvl (d a : Reg) (e : BitVec 4) (s : State) : Host.Outcome State Fault Refusal :=
  finish (rowLocal false d a e) s

def execStvl (d a : Reg) (e : BitVec 4) (s : State) : Host.Outcome State Fault Refusal :=
  finish (rowLocal true d a e) s

/-! ## Planes (R176) -/

/-- The failing rows of the bricks whose columns a plane port transfers (R120): the whole brick's column moves, and gated
rows are not verified. -/
def State.planeFails (s : State) (cols : BitVec 1024) (rows : List Nat) : List Nat :=
  if s.core.rows.all (·.2.chk == 0) then [] else
  (((rows.map (· / 2048)).eraseDups).flatMap fun b => (List.range 2048).map (b * 2048 + ·)).filter fun j =>
    decide (j < s.core.vlmax) && !(s.row j).bit 0 && (s.row j).fails cols

/-- The transfer of row j: it meets its brick's failing rows where the first of them is due, or at the brick's last row. -/
def planeCheck (source : Nat) (cols : BitVec 1024) (bad rows : List Nat) (j : Nat) : Act Unit :=
  match bad.filter (· / 2048 == j / 2048) with
  | [] => pure ()
  | fs =>
    if (least fs).getD 0 ≤ j || !rows.any fun k => decide (j < k) && k / 2048 == j / 2048 then portTrap source fs cols
    else pure ()

def planeVa (base : Word) (j : Nat) : Nat := (base.toNat + j / 8) % 2 ^ 64

/-- A plane load or store of one column (and its copies). -/
def planeOp (store : Bool) (l : Legal) (a : Reg) (oc : BitVec 4) (regs dests : List Nat) (cols : State → List Nat) :
    Act Unit := do
  l.check
  let base ← readX a
  let source := if store then 4 else 3
  let acc := elemAcc (if store then .store else .load) source 8 false
  vecAccess { regs := regs, store := store, va := planeVa base, acc := acc, dests := dests } fun s j => do
    let cs := cols s
    let rows := s.active.filter s.pendingRow
    let x ← xlat acc (planeVa base j)
    let mask := cs.foldl (fun m k => m ||| colMask k 1) 0
    planeCheck source mask (s.planeFails mask rows) rows j
    if store then do
      let old ← look fun s => readLE s.mem x.pa 1
      let b ← look fun s => (s.row j).bit (cs.headD 0)
      writeAt x 1 (old - bitsOf old (j % 8) 1 * 2 ^ (j % 8) + (if b then 2 ^ (j % 8) else 0)) (storeRole oc)
      pure (some (.part x.pa 0 0))
    else do
      let r := s.loadRole oc (rows.map (· / 8)).eraseDups.length
      let v ← readAt source (planeVa base j) x 1 r
      upd fun t =>
        let t := t.setRow j (cs.foldl (fun r k => r.putBit k (bitOf v (j % 8))) (t.row j))
        if regs = [] then t else t.openLoad r x 1 (.row j regs cs 1 (j % 8))
      pure (some (.load x.pa))

/-- The bit of the column index from its two fields. -/
def planeBit (b : Reg) (g : BitVec 1) : Nat := g.toNat * 32 + b.toNat

def execLdpl (d a b : Reg) (c : BitVec 4) (g : BitVec 1) (s : State) : Host.Outcome State Fault Refusal :=
  finish (planeOp false { pred := true, copy := true, vregs := [d.toNat], width := planeBit b g + 1 } a c
    (d.toNat :: s.copyReg) [d.toNat] fun s => (d.toNat :: s.copyReg).map fun k => s.core.vcol k + planeBit b g) s

def execStpl (d a b : Reg) (c : BitVec 4) (g : BitVec 1) (s : State) : Host.Outcome State Fault Refusal :=
  finish (planeOp true { pred := true, vreads := [d.toNat], vregs := [d.toNat], width := planeBit b g + 1 } a c [d.toNat] []
    fun s => [s.core.vcol d.toNat + planeBit b g]) s

/-- LDPLM writes no vector register, so it accepts no destination copy (R147, log 106). -/
def execLdplm (k : BitVec 3) (a : Reg) (c : BitVec 4) (s : State) : Host.Outcome State Fault Refusal :=
  finish (planeOp false { rsv := k == 0, pred := true } a c [] [] fun _ => [k.toNat]) s

def execStplm (k : BitVec 3) (a : Reg) (c : BitVec 4) (s : State) : Host.Outcome State Fault Refusal :=
  finish (planeOp true { rsv := k == 0, pred := true } a c [] [] fun _ => [k.toNat]) s

/-! ## Gathers and scatters (R177 to R179) -/

def indexWidth (w : BitVec 1) : Nat := if w = 0 then 32 else 64

/-- Element address of row j. -/
def gatherVa (s : State) (base : Word) (b : Reg) (w : BitVec 1) (e : BitVec 4) (j : Nat) : Nat :=
  (base.toNat + s.elem b.toNat (indexWidth w) j * (typeWidth e / 8)) % 2 ^ 64

def gatherLegal (store nf : Bool) (d b : Reg) (e : BitVec 4) (w : BitVec 1) : Legal :=
  { pred := true, copy := !store && !nf, vreads := if store then [d.toNat, b.toNat] else [b.toNat], ewOk := typeBytes e,
    vregs := [d.toNat, b.toNat], width := max (typeWidth e) (indexWidth w) }

/-- The addresses, with the indices read before any element is written. -/
def gatherVas (s : State) (base : Word) (b : Reg) (w : BitVec 1) (e : BitVec 4) (rows : List Nat) : List (Nat × Nat) :=
  rows.map fun j => (j, gatherVa s base b w e j)

/-- An element whose address comes from an index register: a row port reads the index in its row (R120). -/
def indexed (source : Nat) (el : Element) : Element := fun j => do
  portRead source j
  el j

def vaOf (l : List (Nat × Nat)) (j : Nat) : Nat := (l.find? (·.1 == j)).elim 0 (·.2)

def execVgath (d a b : Reg) (e c : BitVec 4) (w : BitVec 1) (s : State) : Host.Outcome State Fault Refusal :=
  finish (do
    (gatherLegal false false d b e w).check
    let base ← readX a
    let regs ← look fun s => d.toNat :: s.copyReg
    let vas ← look fun s => gatherVas s base b w e s.active
    vecAccess { regs := b.toNat :: regs, srcs := [(b.toNat, .int (indexWidth w))], va := vaOf vas,
                acc := elemAcc .load 5 (typeWidth e) false, cmask := some fun _ => true, dests := [d.toNat] }
      fun s => indexed 5 fun j =>
        loadElem 5 (typeWidth e) (vaOf vas j) 0 regs false (s.loadRole c (s.vlBytes (typeWidth e))) j) s

/-- Where several rows of a scatter name one address, which row's element remains is not defined (R177). -/
def State.scatterTies (s : State) (d w : Nat) (oc : BitVec 4) (rows : List (Nat × Nat)) : State :=
  rows.foldl (fun s p =>
    let same := rows.filter (·.2 == p.2)
    if same.length ≤ 1 ∨ same.head? ≠ some p then s
    else
      let f := s.fresh
      let j := (same.getD (Config.freeNat f.1 % same.length) p).1
      match (storeElem 5 w p.2 0 d false (storeRole oc) j) f.2 with
      | .ok (_, t) => t
      | .error _ => f.2) s

def execVscat (d a b : Reg) (e c : BitVec 4) (w : BitVec 1) (s : State) : Host.Outcome State Fault Refusal :=
  finish (do
    (gatherLegal true false d b e w).check
    let base ← readX a
    let vas ← look fun s => gatherVas s base b w e s.active
    vecAccess { regs := [d.toNat, b.toNat], store := true, srcs := [(b.toNat, .int (indexWidth w))], va := vaOf vas,
                acc := elemAcc .store 5 (typeWidth e) false, cmask := some fun _ => true }
      fun _ j => storeElem 5 (typeWidth e) (vaOf vas j) 0 d.toNat false (storeRole c) j
    upd (·.scatterTies d.toNat (typeWidth e) c vas)) s

/-! ### Non-blocking and non-faulting forms -/

/-- Clearing the landed bits of some slices of a register at the issue of an operation; a slice's earlier failure is
forgotten (R101, R133). -/
def Core.clearLanded (c : Core) (h : Fin 8) (reg : Nat) (slices : List Nat) : Core :=
  { c.modHart h fun k =>
      { k with landed := k.landed.set (reg % 32) (slices.foldl (fun b i => b &&& ~~~BitVec.ofNat 32 (2 ^ i))
          (k.landed[reg % 32]'(Nat.mod_lt _ (by decide)))) (Nat.mod_lt _ (by decide)) } with
    failedSlices := c.failedSlices.filter fun f => !(f.hart == h && f.vreg == reg && slices.contains f.slice) }

/-- A new outstanding operation of the current party, in ordering class oc. -/
def State.pushOp (s : State) (pages : PageMap) (oc : BitVec 4) (kind : OpKind) : State :=
  s.modCore fun c =>
    { c with nextOp := c.nextOp + 1,
             ops := c.ops ++ [{ id := c.nextOp, home := s.cur.core.val, by_ := s.cur.who, ctxid := rootCtxid c.ptroot, pages := pages,
                                past := s.forkPast oc, kind := kind }] }

/-- The checks of R40 at issue for every element in ascending order: the rows that pass with their addresses and pages;
`nf` skips a tier miss after its page-in is posted. -/
def issueRows (nf : Bool) (align : Nat) : List (Nat × Nat) → Act (List (Nat × Nat) × PageMap)
  | [] => pure ([], [])
  | p :: ps => fun s =>
    match s.translate s.agent { kind := .load, source := 5, align := align } p.2 with
    | .ok x t =>
      match issueRows nf align ps t with
      | .ok (r, u) => .ok ((p :: r.1, (p.2 / 65536, x.pa / 65536, x.idem) :: r.2), u)
      | .error e => .error e
    | .fault kind t =>
      if nf && kind == kTierMiss then issueRows nf align ps t
      else .error (.trap { cause := memCause kind 5, faddr := faultAddr kind p.2 } t)

/-- A body whose memory fault writes m(MREG) with no row performed but those that a replay skips (R167, R178). -/
def withCmask (before : State) (m : Act Unit) : Act Unit := fun s =>
  match m s with
  | .error (.trap t u) => .error (.trap t (u.writeCmask before.active fun j => !before.pendingRow j))
  | r => r

/-- The slices of the hart that hold some rows. -/
def slicesOf (rows : List Nat) : List Nat := (rows.map (· / 2048)).eraseDups

/-- Waiting until no slice of some registers can still land (R134). A slice that has failed is no obstacle to an operation
that is issued into it (R101). -/
def landedPending (regs : List Nat) : Act Unit := fun s =>
  if (s.unlanded regs).all fun p => (s.sliceFailure p).isSome then .ok ((), s) else .error (.park s)

/-- The index rows of an operation that takes its addresses at issue: a row port reads each, before any element is requested
(R120, log 108). -/
def indexCheck (rows : List Nat) : Act Unit := fun s =>
  match rows.filter fun j => (s.row j).chk != 0 with
  | [] => .ok ((), s)
  | bad => portTrap 5 bad (BitVec.allOnes 1024) s

/-- Issue of a non-blocking gather: every check, then the landed bits are cleared, the requests leave and the rows are
outstanding (R178). -/
def gatherNb (nf : Bool) (d b : Reg) (e : BitVec 4) (w : BitVec 1) (oc : BitVec 4) (base : Word) : Act Unit := do
  let s ← look id
  withCmask s (landedAll [b.toNat])
  let s ← look id
  let regs := d.toNat :: s.copyReg
  landedPending regs
  abnCheck s.active [(b.toNat, .int (indexWidth w))]
  let vas := gatherVas s base b w e (s.active.filter s.pendingRow)
  walkerGate (vas.map (·.2))
  withCmask s do
    indexCheck (vas.map (·.1))
    let r ← issueRows nf (typeWidth e / 8) vas
    upd fun t => regs.foldl (fun t k => t.modCore fun c => c.clearLanded s.cur.who.hartIx k (slicesOf (r.1.map (·.1)))) t
    upd fun t => r.1.foldl (fun t p =>
      t.traffic (s.loadRole oc (s.vlBytes (typeWidth e))).cache .read (PageMap.pa r.2 p.2) (typeWidth e / 8) []) t
    upd fun t => if r.1 = [] then t else
      t.pushOp r.2 oc (.gather s.cur.who.hartIx d.toNat s.copyReg.head? (typeWidth e / 8) r.1 r.1)
    upd (·.destVc d.toNat)
    if nf then upd fun t => t.writeCmask s.active fun j =>
        if s.pendingRow j then r.1.any (·.1 == j) else s.maskBit s.hart.cmask.toNat j
      else pure ()
  replayStep

def execVgathNb (d a b : Reg) (e c : BitVec 4) (w : BitVec 1) (s : State) : Host.Outcome State Fault Refusal :=
  finish (do
    (gatherLegal false false d b e w).check
    let base ← readX a
    gatherNb false d b e w c base) s

/-- An element of a non-faulting gather: one that would miss a tier is not loaded, and its page-in is posted (R179). -/
def loadElemNf (source w va : Nat) (regs : List Nat) (r : Role) : Element := fun j s =>
  match s.translate s.agent (elemAcc .load source w false) va with
  | .ok x t => loadAt source w va 0 regs r x j t
  | .fault kind t =>
    if kind = kTierMiss then .ok (none, t)
    else .error (.trap { cause := memCause kind source, faddr := faultAddr kind va } t)

/-- VGATH.NF (R179): m(MREG) tells which rows were loaded. -/
def execVgathNf (d a b : Reg) (e c : BitVec 4) (w n : BitVec 1) (s : State) : Host.Outcome State Fault Refusal :=
  finish (do
    (gatherLegal false true d b e w).check
    let h ← look (·.hart)
    trapIf (h.cmask == 0) 0xB4
    let base ← readX a
    if n = 1 then gatherNb true d b e w c base
    else do
      let s ← look id
      let vas := gatherVas s base b w e s.active
      vecAccess { regs := [d.toNat, b.toNat], srcs := [(b.toNat, .int (indexWidth w))], va := vaOf vas,
                  acc := elemAcc .load 5 (typeWidth e) false, cmask := some (s.maskBit s.hart.cmask.toNat), always := true,
                  dests := [d.toNat] }
        fun s => indexed 5 fun j =>
          loadElemNf 5 (typeWidth e) (vaOf vas j) [d.toNat] (s.loadRole c (s.vlBytes (typeWidth e))) j) s

end Sys2Proof.Machine
end

