-- ==== Sys2Proof/Machine/Copies.lean ====
section
/-! DEFINITION. The block-transfer engine's copies, their tags and waits, and their completion (R95 to R107, R180 to
R184). A copy's bytes move in one step, its completion (log 6). -/

namespace Sys2Proof.Machine

/-! ## Pool locators (R96, R97) -/

def locRlen (l : Word) : Nat := bitsOf l.toNat 48 8 + 1
def locBoff (l : Word) : Nat := bitsOf l.toNat 40 8
def locEwc (l : Word) : Nat := bitsOf l.toNat 37 3
def locReg (l : Word) : Nat := bitsOf l.toNat 32 5
def locRow0 (l : Word) : Nat := bitsOf l.toNat 0 16
/-- Element bytes of a VREG view. -/
def locBytes (l : Word) : Nat := 2 ^ (locEwc l - 1)

/-- Step 1 of R97: the form of a locator. -/
def locForm (l : Word) : Bool :=
  bitsOf l.toNat 56 6 == 0 &&
  match locView l with
  | 0 => bitsOf l.toNat 40 16 == 0
  | 1 => bitsOf l.toNat 16 24 == 0
  | 2 => bitsOf l.toNat 40 16 == 0 && bitsOf l.toNat 16 16 == 0 && 1 ≤ locEwc l && locEwc l ≤ 4
  | _ => false

/-- Step 2 of R97: the register and element width of a VREG view. -/
def locRegs (c : Core) (l : Word) : Bool := locView l != 2 || (locReg l < c.nv && 8 * locBytes l ≤ c.fw)

/-- Step 3 of R97 for a copy of count bytes. -/
def locRange (c : Core) (l : Word) (count : Nat) : Bool :=
  match locView l with
  | 0 => locOff l + count ≤ 65536 * c.sb
  | 1 => locRlen l ≤ 128 && locBoff l + locRlen l ≤ c.sb &&
      locRow0 l + (count + locRlen l - 1) / locRlen l ≤ c.vlmax
  | _ => count % locBytes l == 0 && locRow0 l + count / locBytes l ≤ c.vlmax

/-- The checks of R97 in their order. -/
def locCheck (l : Word) (range : Core → Bool) : Act Unit := do
  let c ← look (·.core)
  trapIf (!locForm l) 0xB0
  trapIf (!locRegs c l) 0x05
  trapIf (!range c) 0xB0

/-- The core row and first column of byte i of a copy at a locator of hart h (R96). -/
def locPlace (c : Core) (h : Nat) (l : Word) (i : Nat) : Nat × Nat :=
  match locView l with
  | 0 => c.linearAt (locOff l + i)
  | 1 => (c.row0 h + locRow0 l + i / locRlen l, c.scol0 + 8 * (locBoff l + i % locRlen l))
  | _ => (c.row0 h + locRow0 l + i / locBytes l, c.vcol (locReg l) + 8 * (i % locBytes l))

/-! ## The two ends -/

/-- Source bytes until a failing check: the bytes, where the failure lies, and the state after the reads. `mem` is the memory
that the operation finds (R102, `State.forkMem`). -/
def State.sourceBytes (s : State) (core : Fin 192) (h : Nat) (pages : PageMap) (mem : List Host.Cell) (e : End) :
    List Nat → List Byte × Option Site × State
  | [] => ([], none, s)
  | i :: is =>
    match e with
    | .mem va =>
      let pa := pages.pa (va + i)
      if s.sectorBad pa then ([], some (va + i, 0), s)
      else
        let b := if regionOf pa = .regs then s.engineByte pa else (readByte mem pa, s)
        let r := b.2.sourceBytes core h pages mem e is
        (b.1 :: r.1, r.2)
    | .pool l =>
      let c := s.cores[core]
      let p := locPlace c h l i
      if (c.row p.1).chk != 0 then ([], some (p.1, BitVec.allOnes 1024), s)
      else
        let r := s.sourceBytes core h pages mem e is
        (BitVec.ofNat 8 ((c.row p.1).get p.2 8) :: r.1, r.2)

/-- Bytes that an operation writes take their place in coherence order after every earlier store, or, where the issuer's
stores in `past` are not ordered before the operation, before those: then memory keeps what they wrote (R196). -/
def State.forkStore (s : State) (past : List (List (Nat × Byte))) (cells : List (Nat × Byte)) : State :=
  let hidden := fun (c : Nat × Byte) => past.any fun l => l.any fun d => d.1 == c.1
  if !cells.any hidden then s.storeCells cells
  else
    let f := s.fresh
    f.2.storeCells (if Config.freeBit f.1 0 then cells.filter (!hidden ·) else cells)

/-- Engine writes to memory: no cache of a core sees them (R51). They pass the die caches at low priority (R49), and the
ports that they leave through are noted. -/
def State.engineStore (s : State) (pages : PageMap) (past : List (List (Nat × Byte))) (va : Nat) (bs : List Byte) : State :=
  let cells := (bs.mapIdx fun i b => (pages.pa (va + i), b)).filter fun c => regionOf c.1 ≠ .regs
  let s := (s.forkStore past cells).rangeTraffic pages .low .write va bs.length bs
  (pageStarts va bs.length).foldl (fun s a => s.notePort (pages.pa a)) s

/-- The read-modify-write of an element of a CPYR in memory (R98, R171). -/
def State.engineAtomic (s : State) (pages : PageMap) (va old new : Nat) : State :=
  (((s.storeCells ((bytesOfLe 4 new).mapIdx fun i b => (pages.pa (va + i), b))).atomicTraffic .loop (pages.pa va) 4 old
    new)).notePort (pages.pa va)

/-- Writing bytes to an end: how many were written, and where a core row failed. -/
def State.engineWrite (s : State) (core : Fin 192) (h : Nat) (pages : PageMap) (past : List (List (Nat × Byte))) (e : End)
    (bs : List Byte) : State × Nat × Option Site :=
  match e with
  | .mem va => (s.engineStore pages past va bs, bs.length, none)
  | .pool l =>
    let c := s.cores[core]
    let x := c.portRows (groupRows (bs.mapIdx fun i b => let p := locPlace c h l i; (p.1, p.2, b)))
    (s.modCoreAt core fun _ => x.1, x.2.1, x.2.2)

/-- One add of a copy-reduce (R98): int32 wraps; binary32 rounds to nearest, with flags. -/
def cpyrAdd (binary32 : Bool) (dst src : Nat) : Nat × BitVec 5 :=
  if binary32 then FFmt.f.add .rne dst src else ((dst + src) % 2 ^ 32, 0)

/-- The elements of a CPYR in ascending order, until a check fails (R98). -/
def State.reduceBytes (s : State) (core : Fin 192) (h : Nat) (pages : PageMap) (dst : End) (f32 : Bool) :
    Nat → List Byte → State × Nat × Option Site × BitVec 5
  | k, b0 :: b1 :: b2 :: b3 :: bs =>
    let at_ : End := match dst with
      | .mem va => .mem (va + k)
      | .pool l => .pool l
    let idx := match dst with
      | .mem _ => [0, 1, 2, 3]
      | .pool _ => [k, k + 1, k + 2, k + 3]
    let old := s.sourceBytes core h pages s.mem at_ idx
    match old.2.1 with
    | some a => (s, 0, some a, 0)
    | none =>
      let r := cpyrAdd f32 (leOfBytes old.1) (leOfBytes [b0, b1, b2, b3])
      let new := bytesOfLe 4 r.1
      let w : State × Nat × Option Site := match dst with
        | .mem va => (s.engineAtomic pages (va + k) (leOfBytes old.1) r.1, 4, none)
        | .pool l =>
          let c := s.cores[core]
          let x := c.portRows (groupRows (new.mapIdx fun i b => let p := locPlace c h l (k + i); (p.1, p.2, b)))
          (s.modCoreAt core fun _ => x.1, x.2.1, x.2.2)
      match w.2.2 with
      | some a => (w.1, 0, some a, r.2)
      | none =>
        let t := w.1.reduceBytes core h pages dst f32 (k + 4) bs
        (t.1, 4 + t.2.1, t.2.2.1, r.2 ||| t.2.2.2)
  | _, _ => (s, 0, none, 0)

/-! ## Slices that an operation lands (R101, R133, R178) -/

/-- A slice of a register of a hart of a core. -/
structure SliceRef where
  core : Nat
  hart : Fin 8
  reg : Nat
  slice : Nat
deriving DecidableEq, Repr

/-- The hart rows that a VREG locator names for a copy of count bytes. -/
def locRows (l : Word) (count : Nat) : List Nat := List.range' (locRow0 l) (count / locBytes l)

/-- The slices that an outstanding operation has still to land. -/
def EngineOp.slices (issuer : Nat) (o : EngineOp) : List SliceRef :=
  match o.kind with
  | .copy _ _ h _ (.pool l) count _ _ dests _ =>
    if locView l = 2 then
      dests.flatMap fun d => (slicesOf (locRows l count)).map fun i => { core := d, hart := h, reg := locReg l, slice := i }
    else []
  | .copyg _ h l _ rows _ =>
    if locView l = 2 then
      (slicesOf (rows.map fun r => locRow0 l + r.1)).map fun i => { core := issuer, hart := h, reg := locReg l, slice := i }
    else []
  | .gather h vd copy _ _ pending =>
    (vd :: copy.toList).flatMap fun r =>
      (slicesOf (pending.map (·.1))).map fun i => { core := issuer, hart := h, reg := r, slice := i }
  | _ => []

/-- The core rows whose scratch an outstanding copy has still to write on a core (R96, R112). -/
def EngineOp.scratchRows (issuer core : Nat) (c : Core) (o : EngineOp) : List Nat :=
  match o.kind with
  | .copy _ _ h _ (.pool l) count _ _ dests _ =>
    let first := (locPlace c h.val l 0).1
    if locView l = 2 ∨ !dests.contains core ∨ count = 0 then []
    else List.range' first ((locPlace c h.val l (count - 1)).1 + 1 - first)
  | .copyg _ h l rlen rows _ =>
    if locView l = 2 ∨ issuer ≠ core then [] else rows.map fun r => (locPlace c h.val l (r.1 * rlen)).1
  | _ => []

/-- Whether some outstanding operation has still to land a slice. -/
def State.slicePending (s : State) (x : SliceRef) : Bool :=
  (List.finRange 192).any fun i => s.cores[i].ops.any fun o => (o.slices i.val).contains x

def regIx (n : Nat) : Fin 32 := if h : n < 32 then ⟨n, h⟩ else 0

/-- The landed bit of a slice is set: the next instruction that names the register observes it (R102). -/
def Hart.land (h : Hart) (r : Fin 32) (slice : Nat) : Hart :=
  { h with landed := h.landed.set r (h.landed[r] ||| BitVec.ofNat 32 (2 ^ slice)),
           unseen := h.unseen ||| BitVec.ofNat 32 (2 ^ r.val) }

/-- A slice lands once every operation that writes it has landed it and none failed (R101). -/
def State.landSlice (s : State) (x : SliceRef) : State :=
  let i := coreIx x.core
  if s.slicePending x || s.cores[i].failedSlices.any (fun f => f.hart == x.hart && f.vreg == x.reg && f.slice == x.slice)
  then s
  else s.modCoreAt i fun c => c.modHart x.hart fun h => h.land (regIx x.reg) x.slice

/-- A slice keeps the failure of an operation. -/
def State.failSlice (s : State) (x : SliceRef) (op : Nat) (cause : BitVec 8) (addr : Word) : State :=
  s.modCoreAt (coreIx x.core) fun c =>
    { c with failedSlices := c.failedSlices ++
        [{ hart := x.hart, vreg := x.reg, slice := x.slice, op := op, cause := cause, addr := addr }] }

/-! ## Tags (R99) -/

def tagIx (n : Nat) : Fin 64 := if h : n < 64 then ⟨n, h⟩ else 0

def Core.tagBusy (c : Core) (n : Nat) : Bool := !bitOf c.ctag.toNat n
def Core.tagFailed (c : Core) (n : Nat) : Bool := bitOf c.cterr.toNat n

def Core.setTag (c : Core) (n : Nat) (t : Tag) : Core := { c with tags := c.tags.set (tagIx n) t }

/-- Issue on a tag: BUSY, with nothing retained. -/
def Core.takeTag (c : Core) (n : Nat) : Core :=
  { c.setTag n { cause := 0, addr := 0, planes := 0 } with
    ctag := c.ctag &&& ~~~BitVec.ofNat 64 (2 ^ n), cterr := c.cterr &&& ~~~BitVec.ofNat 64 (2 ^ n) }

/-- Completion on a tag: DONE, or FAILED with the retained cause and address. -/
def Core.endTag (c : Core) (n : Nat) (f : Option (BitVec 8 × Word)) : Core :=
  let t := f.elim { cause := 0, addr := 0, planes := 0 } fun p => { cause := p.1, addr := p.2, planes := 0 }
  { c.setTag n t with
    ctag := c.ctag ||| BitVec.ofNat 64 (2 ^ n),
    cterr := if f.isSome then c.cterr ||| BitVec.ofNat 64 (2 ^ n) else c.cterr &&& ~~~BitVec.ofNat 64 (2 ^ n) }

/-! ## Completion of a copy (R95, R100, R104 to R107) -/

/-- A failure found in memory or in rows, as the tag keeps it. -/
def failAt (cause : BitVec 8) (a : Option Site) : Option (BitVec 8 × Word) := a.map fun x => (cause, BitVec.ofNat 64 x.1)

/-- Whether an end lies in rows. -/
def End.isPool : End → Bool
  | .mem _ => false
  | .pool _ => true

/-- Epvimond logs a failure of an engine, found in a row or in memory. -/
def State.logEngine (s : State) (core : Fin 192) (pages : PageMap) (cause : Nat) (row : Bool) (a : Option Site) : State :=
  match a with
  | none => s
  | some a => s.logSite 1 core cause (if row then some a.1 else none) (pages.pa a.1) a.2

/-- Epvimond logs a failing check of a barrier object. -/
def State.logMbar (s : State) (core : Fin 192) (cause : Nat) (a : Site) : Mbar → State
  | .mem _ pa => s.logSite 1 core cause none pa
  | .pool _ => s.logSite 1 core cause (some a.1) 0 a.2

/-- The MBAR subtract of a completion: a failing object check fails the copy (R107). -/
def State.subtractFor (s : State) (core : Fin 192) (tag : Nat) (m : Option Mbar) (cause : BitVec 8) (count : Nat)
    (f : Option (BitVec 8 × Word)) : State × Option (BitVec 8 × Word) :=
  match m with
  | none => (s, f)
  | some m =>
    match s.mbarSubtract core tag m count f.isSome with
    | .ok t => (t, f)
    | .error a => (s.logMbar core cause.toNat a m, some (f.getD (cause, BitVec.ofNat 64 a.1)))

/-- Replacing an outstanding operation, or removing it. -/
def Core.putOp (c : Core) (o : EngineOp) (new : Option OpKind) : Core :=
  { c with ops := c.ops.flatMap fun p =>
      if p.id = o.id then (match new with | none => [] | some k => [{ p with kind := k }]) else [p] }

/-- The slices of a VREG destination: those complete within the first bytes land, the others keep the failure. -/
def State.settleSlices (s : State) (o : EngineOp) (refs : List SliceRef) (written : Nat → Bool)
    (f : Option (BitVec 8 × Word)) : State :=
  refs.foldl (fun s x =>
    if written x.slice then s.landSlice x
    else match f with
      | some p => s.failSlice x o.id p.1 p.2
      | none => s.landSlice x) s

/-- The rows of a slice that a copy of count bytes writes hold their data after n bytes. -/
def sliceDone (l : Word) (count n slice : Nat) : Bool :=
  ((locRows l count).filter (· / 2048 == slice)).all fun r => (r + 1 - locRow0 l) * locBytes l ≤ n

/-- A copy's source in memory is read through the die caches at low priority (R49), or through ports. -/
def State.sourceTraffic (s : State) (pages : PageMap) (e : End) (n : Nat) : State :=
  match e with
  | .mem va => s.rangeTraffic pages .low .read va n []
  | .pool _ => s

/-- One destination of a copy completes (R100, R105). The issuer's tag keeps the failure of the first destination that
completes with one (log 87). -/
def State.completeCopy (s : State) (core : Fin 192) (o : EngineOp) (dest : Nat) : State :=
  match o.kind with
  | .copy kind tag h src dst count f32 mbar dests failed =>
    let d := coreIx dest
    let m := s.forkMem o.past
    let r := m.2.sourceBytes core h.val o.pages m.1 src (List.range count)
    let s := r.2.2.sourceTraffic o.pages src r.1.length
    let w : State × Nat × Option Site × BitVec 5 :=
      match kind with
      | .cpyr => (s.reachUnit (enginePlace core.val tag)).reduceBytes d h.val o.pages dst f32 0 r.1
      | _ => let x := s.engineWrite d h.val o.pages o.past dst r.1; (x.1, x.2.1, x.2.2, 0)
    let f := failAt 0x7E (match w.2.2.1 with | some a => some a | none => r.2.1)
    let t := (w.1.logEngine d o.pages 0x7E dst.isPool w.2.2.1).logEngine core o.pages 0x7E src.isPool r.2.1
    let x := t.subtractFor d tag mbar 0x7E count f
    let s := x.1
    let s := s.modCoreAt core fun c => c.modHart h fun k => { k with th := { k.th with fflags := k.th.fflags ||| w.2.2.2 } }
    let left := dests.filter (· != dest)
    let failed := failed <|> x.2
    let s := s.modCoreAt core fun c => c.putOp o (if left = [] then none
      else some (.copy kind tag h src dst count f32 mbar left failed))
    let s := match dst with
      | .pool l => if locView l = 2 then
          s.settleSlices o ((slicesOf (locRows l count)).map fun i => { core := dest, hart := h, reg := locReg l, slice := i })
            (sliceDone l count w.2.1) f
        else s
      | .mem _ => s
    let s := if kind = .cpym ∧ d ≠ core then s.modCoreAt d fun c => c.endTag tag x.2 else s
    if left = [] then s.modCoreAt core fun c => c.endTag tag failed else s
  | _ => s

/-- CPYG completes: the rows in order until a check fails. -/
def State.gatherRows (s : State) (core : Fin 192) (h : Nat) (pages : PageMap) (mem : List Host.Cell) (l : Word)
    (rlen : Nat) :
    List (Nat × Nat) → State × List Nat × Option (Bool × Site)
  | [] => (s, [], none)
  | (j, va) :: rs =>
    let r := s.sourceBytes core h pages mem (.mem va) (List.range rlen)
    let t := r.2.2.sourceTraffic pages (.mem va) r.1.length
    let c := t.cores[core]
    match r.2.1 with
    | some a => (t, [], some (false, a))
    | none =>
      let cells := r.1.mapIdx fun k b =>
        let p := locPlace c h l (j * rlen + k)
        (p.2, b)
      let n := (locPlace c h l (j * rlen)).1
      match (c.row n).portWrite cells with
      | none => (t, [], some (true, n, partCols (cellCols cells)))
      | some q =>
        let x := (t.modCoreAt core fun c => c.setRow n q).gatherRows core h pages mem l rlen rs
        (x.1, j :: x.2.1, x.2.2)

def State.completeCopyg (s : State) (core : Fin 192) (o : EngineOp) : State :=
  match o.kind with
  | .copyg tag h l rlen rows mbar =>
    let m := s.forkMem o.past
    let r := m.2.gatherRows core h.val o.pages m.1 l rlen rows
    let f := failAt 0x7D (r.2.2.map (·.2))
    let t := match r.2.2 with | some p => r.1.logEngine core o.pages 0x7D p.1 (some p.2) | none => r.1
    let x := t.subtractFor core tag mbar 0x7D (rows.length * rlen) f
    let s := x.1
    let s := s.modCoreAt core fun c => (c.putOp o none).endTag tag x.2
    if locView l = 2 then
      s.settleSlices o
        ((slicesOf (rows.map fun r => locRow0 l + r.1)).map fun i => { core := core.val, hart := h, reg := locReg l, slice := i })
        (fun i => (rows.filter fun q => (locRow0 l + q.1) / 2048 == i).all fun q => r.2.1.contains q.1) f
    else s
  | _ => s

/-! ## Issue (R103, R180 to R182) -/

/-- A memory range at issue: its pages, or nothing for a pool end. -/
def endPages (acc : Acc) (e : End) (count : Nat) : Act PageMap :=
  match e with
  | .mem va => if count = 0 then pure [] else xlatRange acc va count
  | .pool _ => pure []

/-- Naming the MBAR of a copy: the memory checks with source 6, or the locator (R103, R181). -/
def copyMbar (m mbp : Bool) (source : Nat) (r : Reg) : Act (Option Mbar) := do
  if !m then pure none
  else do
    let x ← readX r
    if mbp then pure () else walkerGate [x.toNat]
    let b ← if mbp then mbarPool x else mbarVa source x.toNat .store
    pure (some b)

/-- The page through which a copy's MBAR was translated (R357). -/
def mbarPages : Option Mbar → PageMap
  | some (.mem va pa) => [(va / 65536, pa / 65536, true)]
  | _ => []

/-- The pool form of an MBAR is checked with the locators, before the memory checks (R181 step 3). -/
def mbarForm (m mbp : Bool) (r : Reg) : Act Unit := do
  if m && mbp then do
    let x ← readX r
    let _ ← mbarPool x
  else pure ()

/-- COUNT within R95's limits. -/
def countOk (k : CopyKind) (n : Nat) : Bool :=
  match k with
  | .cpy => n ≤ 2 ^ 30
  | .cpym => 1 ≤ n && n ≤ 2 ^ 23
  | .cpyr => n % 4 == 0 && n ≤ 2 ^ 30

/-- The cores that a CPYM names, in the issuing die (R105). -/
def maskCores (die : Nat) (mask : Word) : List Nat := ((List.range 48).filter (bitOf mask.toNat)).map (48 * die + ·)

/-- Whether a destination runs a pallet of the issuer's gang with the issuer's shape (R106). -/
def State.sameGang (s : State) (i : Nat) : Bool :=
  match s.core.pallet, s.cores[coreIx i].pallet with
  | some p, some q => q.launch == p.launch && q.gang == p.gang && q.board == .run && s.cores[coreIx i].shape == s.core.shape
  | _, _ => false

/-- A locator of an end, checked (R181 step 3). -/
def endCheck (k : CopyKind) (e : End) (count : Nat) : Act Unit :=
  match e with
  | .mem _ => pure ()
  | .pool l => do
    locCheck l fun c => locRange c l count
    trapIf (k == .cpyr && locView l == 2) 0xB0
    trapIf (k == .cpyr && (if locView l = 0 then locOff l % 4 != 0 else locBoff l % 4 != 0 || locRlen l % 4 != 0)) 0xB0

/-- Whether the instruction is an ordinary write of every row (R73). -/
def State.writesAll (s : State) : Bool := !s.predicated && s.hart.vl.toNat == s.core.vlmax

/-- A copy into a view VREG is a write of that register in each destination core (R73): its slices have to land again
(R101), and its VC bit follows the issuing instruction. -/
def State.issueInto (s : State) (h : Fin 8) (dests : List Nat) (l : Word) (rows : List Nat) : State :=
  if locView l ≠ 2 ∨ rows = [] then s
  else
    let all := s.writesAll
    dests.foldl (fun s i => s.modCoreAt (coreIx i) fun c =>
      (c.clearLanded h (locReg l) (slicesOf rows)).modHart h fun k => if all then k.setVc (locReg l) false else k) s

/-- CPY, CPYM, CPYR (R180, R181). The locators are checked source first, then destination, then MBAR (log 86). -/
def copyOp (k : CopyKind) (d a n : Reg) (t : BitVec 6) (p sf m : BitVec 1) : Act Unit := do
  ({ rsv := copyRegsBeyond (k == .cpym) n m } : Legal).check
  let busy ← look (·.core.tagBusy t.toNat)
  if busy then stall else pure ()
  let w ← readX n
  let next ← readX (n + 1)
  let dstX ← readX d
  let srcX ← readX a
  let count := bitsOf w.toNat 0 31
  let mbp := bitOf w.toNat 37
  let f32 := bitOf w.toNat 36
  trapIf (bitsOf w.toNat 38 26 != 0 || bitOf w.toNat 31 || (f32 && k != .cpyr) || !countOk k count || (mbp && m == 0) ||
    (k == .cpym && p == 0) || (k == .cpym && bitsOf next.toNat 48 16 != 0)) 0xB3
  let src : End := if sf = 1 then .pool srcX else .mem srcX.toNat
  let dst : End := if p = 1 then .pool dstX else .mem dstX.toNat
  endCheck k src count
  endCheck k dst count
  let mreg := if k = .cpym then n + 2 else n + 1
  mbarForm (m == 1) mbp mreg
  let s ← look id
  let dests := if k = .cpym then maskCores s.dieNo.val next else [s.cur.core.val]
  trapIf (k == .cpym && (dests.isEmpty || decide (16 < dests.length) || !dests.all s.sameGang)) 0xB1
  let mb ← copyMbar (m == 1) mbp 6 mreg
  let align := if k = .cpyr then 4 else 1
  let ps ← endPages { kind := .load, source := 6, device := k == .cpy, align := align } src count
  let pd ← endPages { kind := if k = .cpyr then .atomic else .store, source := 6, device := k == .cpy, align := align } dst count
  upd (·.modCore fun c => c.takeTag t.toNat)
  let h := s.cur.who.hartIx
  let kind : OpKind := .copy k t.toNat h src dst count f32 mb dests none
  upd fun s => match dst with
    | .pool l => s.issueInto h dests l (locRows l count)
    | .mem _ => s
  upd (·.pushOp (ps ++ pd ++ mbarPages mb) (BitVec.ofNat 4 (bitsOf w.toNat 32 4)) kind)
  if count = 0 then
    upd fun s => match s.core.ops.getLast? with
      | some o => dests.foldl (fun s i => s.completeCopy s.cur.core o i) s
      | none => s
  else pure ()

def execCpy (d a n : Reg) (t : BitVec 6) (p sf m : BitVec 1) (s : State) : Host.Outcome State Fault Refusal :=
  finish (copyOp .cpy d a n t p sf m) s

def execCpym (d a n : Reg) (t : BitVec 6) (p sf m : BitVec 1) (s : State) : Host.Outcome State Fault Refusal :=
  finish (copyOp .cpym d a n t p sf m) s

def execCpyr (d a n : Reg) (t : BitVec 6) (p sf m : BitVec 1) (s : State) : Host.Outcome State Fault Refusal :=
  finish (copyOp .cpyr d a n t p sf m) s

/-- The range of a CPYG's destination (R97). -/
def copygRange (l : Word) (rows : List Nat) (c : Core) : Bool :=
  (locView l == 1 || locView l == 2) && (locView l != 1 || (locRlen l ≤ 128 && locBoff l + locRlen l ≤ c.sb)) &&
  rows.all fun j => locRow0 l + j < c.vlmax

/-- The checks of every page of the rows of a CPYG in ascending order: rows that pass, their pages, and the row and
trap where it stops (R103). -/
def copygRows (rlen : Nat) : List (Nat × Nat) → State → List (Nat × Nat) × PageMap × State × Option (Nat × Stop)
  | [], s => ([], [], s, none)
  | p :: ps, s =>
    match xlatRange { kind := .load, source := 5 } p.2 rlen s with
    | .error (.trap t u) => ([], [], u, some (p.1, .trap t u))
    | .error (.wait u) => ([], [], u, some (p.1, .wait u))
    | .error (.park u) => ([], [], u, some (p.1, .park u))
    | .ok (m, u) =>
      let r := copygRows rlen ps u
      (p :: r.1, m ++ r.2.1, r.2.2)

/-- Taking the tag for the rows that were issued (R103). -/
def State.issueCopyg (s : State) (t : Nat) (oc : BitVec 4) (l : Word) (rlen : Nat) (rows : List (Nat × Nat))
    (pages : PageMap) (mb : Option Mbar) : State :=
  let h := s.cur.who.hartIx
  let s := s.modCore fun c => c.takeTag t
  let s := s.issueInto h [s.cur.core.val] l (rows.map fun r => locRow0 l + r.1)
  s.pushOp (pages ++ mbarPages mb) oc (.copyg t h l rlen rows mb)

/-- CPYG (R182). -/
def execCpyg (d a imm : Reg) (t : BitVec 6) (w m : BitVec 1) (s : State) : Host.Outcome State Fault Refusal :=
  finish (do
    ({ pred := true, rsv := copyRegsBeyond true a m, vregs := [imm.toNat], vreads := [imm.toNat],
       width := indexWidth w } : Legal).check
    let busy ← look (·.core.tagBusy t.toNat)
    if busy then stall else pure ()
    let base ← readX a
    let word ← readX (a + 1)
    let l ← readX d
    let mbp := bitOf word.toNat 52
    trapIf (bitsOf word.toNat 53 11 != 0 || (mbp && m == 0)) 0xB3
    let s ← look id
    locCheck l (copygRange l s.active)
    mbarForm (m == 1) mbp (a + 2)
    landedAll [imm.toNat]
    abnCheck s.active [(imm.toNat, .int (indexWidth w))]
    indexCheck (s.active.filter s.pendingRow)
    let mb ← copyMbar (m == 1) mbp 5 (a + 2)
    let rlen := if locView l = 2 then locBytes l else locRlen l
    let oc := BitVec.ofNat 4 (bitsOf word.toNat 48 4)
    let stride := bitsOf word.toNat 0 48
    let rows := (s.active.filter s.pendingRow).map fun j =>
      (j, (base.toNat + s.elem imm.toNat (indexWidth w) j * stride) % 2 ^ 64)
    fun s =>
      let r := copygRows rlen rows s
      match r.2.2.2 with
      | some (_, .wait u) => .error (.wait u)
      | some (_, .park u) => .error (.park u)
      | some (j, .trap e _) =>
        let u := if r.1 = [] then r.2.2.1 else r.2.2.1.issueCopyg t.toNat oc l rlen r.1 r.2.1 mb
        let course := courseOfRow (s.coreRow j)
        let stops := (course, j) :: ((s.core.coursesOf s.cur.who.hartIx.val).filter (course < ·)).map fun c => (c, 0)
        .error (.trap { e with pairs := s.pairsOf stops } (u.writeCmask s.active fun k => k < j))
      | none =>
        let u := r.2.2.1.issueCopyg t.toNat oc l rlen r.1 r.2.1 mb
        let u := if r.1 = [] then
            (match u.core.ops.getLast? with | some o => u.completeCopyg u.cur.core o | none => u)
          else u
        .ok ((), u.modHart Hart.replayStep)) s

/-! ## Tag waits and WAITC (R183, R184) -/

/-- The tags that a mask names. -/
def tagList (x : Word) : List Nat := (List.range 64).filter (bitOf x.toNat)

def execTwaitany (d a : Reg) (s : State) : Host.Outcome State Fault Refusal :=
  finish (do
    ({} : Legal).check
    let x ← readX a
    if x = 0 then writeX d 64
    else do
      let c ← look (·.core)
      match tagList (c.ctag &&& x) with
      | [] => park
      | n :: _ => do
        acquire
        writeX d (BitVec.ofNat 64 n)) s

def execTwaitall (d a : Reg) (s : State) : Host.Outcome State Fault Refusal :=
  finish (do
    ({} : Legal).check
    let x ← readX a
    let c ← look (·.core)
    if c.ctag &&& x = x then do
      if x = 0 then pure () else acquire
      writeX d (c.cterr &&& x)
    else park) s

/-- The low six bits name a tag. -/
def tagOf (x : Word) : Nat := x.toNat % 64

def execTffr (d a : Reg) (s : State) : Host.Outcome State Fault Refusal :=
  finish (do
    ({} : Legal).check
    let x ← readX a
    let c ← look (·.core)
    let t := c.tags[tagIx (tagOf x)]
    if c.tagFailed (tagOf x) then do
      acquire
      writeX d (BitVec.ofNat 64 (t.cause.toNat * 2 ^ 56 + t.addr.toNat % 2 ^ 56))
    else writeX d 0) s

/-- Tags of the mask that are DONE or FAILED become IDLE. -/
def Core.clearTags (c : Core) (ns : List Nat) : Core :=
  ns.foldl (fun c n => if c.tagBusy n then c else c.endTag n none) c

def execTclr (a : Reg) (s : State) : Host.Outcome State Fault Refusal :=
  finish (do
    ({} : Legal).check
    let x ← readX a
    upd (·.modCore fun c => c.clearTags (tagList x))) s

def execTpln (d a : Reg) (s : State) : Host.Outcome State Fault Refusal :=
  finish (do
    ({} : Legal).check
    let x ← readX a
    let c ← look (·.core)
    let n := c.tags[tagIx (tagOf x)].planes
    if n = 0 then pure () else acquire
    writeX d (BitVec.ofNat 64 n)) s

/-- Kinds of outstanding operation, as WAITC counts them. -/
def EngineOp.isLoad (o : EngineOp) : Bool := match o.kind with | .gather .. => true | _ => false
def EngineOp.isCopy (o : EngineOp) : Bool :=
  match o.kind with
  | .copy .. | .copyg .. | .planes .. => true
  | _ => false

/-- Operations of the current party of a kind. -/
def State.outstanding (s : State) (p : EngineOp → Bool) : Nat :=
  (s.core.ops.filter fun o => o.by_ == s.cur.who && p o).length

/-- Whether a count is within a limit; the top value means any. -/
def within (count limit any : Nat) : Bool := limit == any || count ≤ limit

/-- WAITC (R184): vector stores are performed when their instruction ends (log 8). A limit of 0 on loads, copies or slab
operations observes those; another limit observes nothing. -/
def execWaitc (l sf : BitVec 4) (c : BitVec 6) (t : BitVec 2) (s : State) : Host.Outcome State Fault Refusal :=
  finish (do
    ({} : Legal).check
    let s ← look id
    if within (s.outstanding EngineOp.isLoad) l.toNat 15 && within 0 sf.toNat 15 &&
        within (s.outstanding EngineOp.isCopy) c.toNat 63 && within (s.outstanding EngineOp.isSlab) t.toNat 3
    then do
      if t = 0 then raiseHeld else pure ()
      if l = 0 ∨ c = 0 ∨ t = 0 then acquire else pure ()
    else stall) s

end Sys2Proof.Machine
end

