-- ==== Sys2Proof/Machine/Late.lean ====
section
/-! DEFINITION. Loads that take the value of a later moment: no case of R191 orders a load before a later access of another
class, so it may find what that access, or another party meanwhile, has stored (R195; log 93). -/

namespace Sys2Proof.Machine

/-- The scalar and the vector registers that an instruction names, for instructions that a load before them may outlast;
`none` for all others, at which every earlier load of the party has its value (log 93). -/
def outlasted (i : Instr) : Option (List Reg × List Reg) :=
  match i with
  | .ldN8 d b _ _ | .ldN16 d b _ _ | .ldN32 d b _ _ | .ldN64 d b _ _
  | .ldI8 d b _ _ | .ldI16 d b _ _ | .ldI32 d b _ _ | .ldI64 d b _ _
  | .ldpN8 d b _ _ | .ldpN16 d b _ _ | .ldpN32 d b _ _ | .ldpN64 d b _ _
  | .ldpI8 d b _ _ | .ldpI16 d b _ _ | .ldpI32 d b _ _ | .ldpI64 d b _ _
  | .stN8 d b _ _ | .stN16 d b _ _ | .stN32 d b _ _ | .stN64 d b _ _ => some ([d, b], [])
  | .ldv d a _ _ | .stv d a _ _ | .ldpl d a _ _ _ | .stpl d a _ _ _ => some ([a], [d])
  | .ldplm _ a _ | .stplm _ a _ => some ([a], [])
  | .ldvs d a b _ _ | .stvs d a b _ _ => some ([a, b], [d])
  | .vgath d a b _ _ _ | .vscat d a b _ _ _ => some ([a], [d, b])
  | .add d a b | .sub d a b => some ([d, a, b], [])
  | .addi d a _ | .slli d a _ => some ([d, a], [])
  | .lui d _ | .auipc d _ => some ([d], [])
  | .pfx .. | .fence .. => some ([], [])
  | _ => none

/-- Whether a delayed load may outlast an instruction: the instruction does not name its destination. -/
def State.outlasts (s : State) (i : Instr) (l : LateLoad) : Bool :=
  match outlasted i, l.dest with
  | none, _ => false
  | some r, .reg d _ => !r.1.contains d
  | some r, .row _ regs _ _ _ => !regs.any fun k => (r.2.map (·.toNat) ++ s.copyReg).contains k

/-- A delayed load is performed now: it takes what memory holds, and what follows it finds nothing older (R195 rule 3). -/
def State.loadNow (s : State) (l : LateLoad) : State :=
  let v := readLE s.mem l.pa l.n
  let s := s.passStores { oc := l.cls, scalar := l.scalar, dev := false, pa := l.pa, n := l.n } fun p =>
    overlaps p.pa p.old.length l.pa l.n
  match l.dest with
  | .reg d signed => s.setX d (extendTo signed l.n v)
  | .row j _ cols w bit => s.setRow j (cols.foldl (fun r k => r.put k w (v / 2 ^ bit)) (s.row j))

/-- What becomes of a delayed load before the party's next instruction: it has the value it has, or is performed now, or
stays open where the instruction allows it. Data whose check has come to fail is not what it was performed on (R29). -/
def State.settleLoad (i : Instr) (s : State) (l : LateLoad) : State :=
  let f := s.fresh
  let ended := fun (t : State) => t.modCore (·.endLoads (· == l))
  match Config.freeNat f.1 % 3 with
  | 0 => if s.outlasts i l then f.2 else ended f.2
  | 1 => if s.anyBad l.pa l.n then ended f.2 else ended (f.2.loadNow l)
  | _ => ended f.2

/-- The delayed loads of the party, the first one first. -/
def State.settleLoads (s : State) (i : Instr) : State :=
  ((s.core.lates.filter (·.who == s.cur.who)).reverse).foldl (State.settleLoad i) s

/-- A step that is no party's ends all delays. -/
def State.endDelays (s : State) : State :=
  if s.cores.toList.all (·.lates.isEmpty) then s else { s with cores := s.cores.map fun c => { c with lates := [] } }

end Sys2Proof.Machine
end

