-- ==== Sys2Proof/Machine/Schedule.lean ====
section
/-! DEFINITION. Who moves next, and how a party gets its next instruction: issue selection inside a core (R376, R353),
what is met at an instruction boundary (R397, R398, R412), fetch and decode (R138, R144, R145). -/

namespace Sys2Proof.Machine

/-- A hart that could move now: present and running, its core not halted, and not asleep. A hart that waits tests its wait again
after something has happened; unless the wait is over that takes no issue slot (R376, `State.countIssue`). -/
def State.hartAwake (s : State) (c : Core) (h : Fin 8) : Bool :=
  c.harts[h].st == .running && c.harts[h].sleep != some s.epoch && !c.halted

/-- A hart at the high level of R376 runs a trap handler. -/
def Hart.high (h : Hart) : Bool := h.sys || h.inh

/-- The harts in rotation order after the last issuer. -/
def Core.rotation (c : Core) : List (Fin 8) :=
  (List.finRange 8).map fun k => ⟨(c.last + 1 + k.val) % 8, Nat.mod_lt _ (by decide)⟩

/-- Whether the slab stream of a core can run its next instruction. -/
def State.streamReady (s : State) (i : Fin 192) : Bool :=
  let c := s.cores[i]
  c.stream.running && !c.stream.stopped && !c.stream.taken && c.stream.sleep != some s.epoch && !c.halted

/-- The hart that the scalar pipeline issues from (R376): a hart in a YIELD pass-over is ready only when nothing else
of the core is (R353). -/
def State.pickHart (s : State) (i : Fin 192) : Option (Fin 8) :=
  let c := s.cores[i]
  let awake := c.rotation.filter (s.hartAwake c)
  let fresh := awake.filter fun h => c.harts[h].yieldLeft == 0
  let ready := if fresh == [] && !s.streamReady i then awake else fresh
  match ready.find? (fun h => 8 ≤ c.harts[h].idle) with
  | some h => some h
  | none =>
    match ready.find? (fun h => c.harts[h].high) with
    | some h => some h
    | none => ready.head?

/-- The parties that could take the next step. -/
def State.parties (s : State) : List Party :=
  (List.finRange 192).flatMap fun i =>
    (match s.pickHart i with | some h => [{ core := i, who := .hart h }] | none => []) ++
    (if s.streamReady i then [{ core := i, who := .stream }] else [])

/-- The steps that engines and the Launch Controller take of their own accord. Each is one event of
spec/opcode_table.json. -/
inductive EngineStep where
  | copyComplete (core tag dest : Nat)
  | gatherElementArrive (core op row : Nat)
  | planeSlotDelivered (core tag : Nat)
  | slabOpComplete (core op : Nat)
  | bLoadComplete (core op : Nat)
  | tkmrgComplete (core list : Nat)
  | walkStart (die : Nat)
  | ringHeadPoll (held : Nat)
  | queueSlotRetry (q : Nat)
  | queueStall (q : Nat)
  | launchRecordTake (q : Nat)
  | codeObjectLoad (req : Nat)
  | launchWaitPoll (launch : Nat)
  | placementDecision
  | coreReservation
  | launchComplete (launch : Nat)
  | gangSave (launch gang : Nat)
  | gangRestore (launch gang : Nat)
  | semaphoreExpiry (sem : Nat)
  | podArriveSend (barrier : Nat)
deriving DecidableEq, Repr

/-- What happens next: a party's instruction, or a step of an engine or of the Launch Controller. -/
inductive Choice where
  | party (p : Party)
  | event (e : EngineStep)
deriving DecidableEq, Repr

/-- One of several possible next steps: the only one, or a free choice (log 5). -/
def State.choose (s : State) (cs : List Choice) : Option Choice × State :=
  match cs with
  | [] => (none, s)
  | [c] => (some c, s)
  | c :: _ => (some (cs.getD (Config.freeNat s.free % cs.length) c), { s with free := s.free + 1 })

/-- Counting the issue cycle in which a hart of a core has issued (R353, R376). -/
def Core.issue (c : Core) (h : Fin 8) : Core :=
  { c with last := h.val,
           harts := Vector.ofFn fun k =>
             if k = h then { c.harts[k] with idle := 0 }
             else { c.harts[k] with idle := c.harts[k].idle + 1, yieldLeft := c.harts[k].yieldLeft - 1 } }

/-- The stream of a core runs an instruction: it takes no slot, but an issue cycle passes for the harts that YIELD has set
aside (R353, log 103). -/
def Core.streamCycle (c : Core) : Core :=
  { c with harts := c.harts.map fun h => { h with yieldLeft := h.yieldLeft - 1 } }

/-- A party of a core that has come to wait, or waits on: it has used no issue slot (R376). -/
def Core.asleep (c : Core) (w : Who) : Bool :=
  match w with
  | .hart h => c.harts[h].sleep.isSome
  | .stream => c.stream.sleep.isSome

/-- The issue cycle of the party that ran in the last step. -/
def State.countIssue (s : State) : Vector Core 192 :=
  match s.issued with
  | none => s.cores
  | some p =>
    let c := s.cores[p.core]
    if c.asleep p.who then s.cores
    else s.cores.set p.core (match p.who with
      | .hart h => c.issue h
      | .stream => c.streamCycle)

/-- The party takes its turn: a YIELD pass-over of its own is over. -/
def State.enter (s : State) (p : Party) : State :=
  let s := { s with cur := p, turn := none, issued := some p }
  match p.who with
  | .hart _ => s.modHart fun h => { h with yieldLeft := 0 }
  | .stream => s

/-- What is met at an instruction boundary before the next word: a held halt, a stream's trap, a failed page-in. -/
def State.boundary (s : State) : Option State :=
  match s.core.haltHeld, s.core.pallet with
  | some reason, some p => if p.board = .run then some (s.haltGang s.cur.core reason none none) else none
  | _, _ =>
    match s.cur.who with
    | .stream =>
      match s.core.stream.tierFail with
      | some (code, va) =>
        some ((s.modCore fun c => { c with stream := { c.stream with tierFail := none } }).take
          { cause := 0x1A, sub := code, faddr := va })
      | none => none
    | .hart _ =>
      if s.hart.wait = .departed then none
      else if s.hart.strmTrap then
        some ((s.withdraw.modHart fun h => { h with strmTrap := false }).take
          { cause := 0x0D, sub := s.core.stream.cause, iaddr := some s.core.stream.th.pc,
            faddr := s.core.stream.faddr })
      else match s.hart.tierFail with
        | some (code, va) =>
          some ((s.withdraw.modHart fun h => { h with tierFail := none }).take { cause := 0x1A, sub := code, faddr := va })
        | none => none

/-- What a party's step comes to before its instruction: the state it stops in, or an instruction to run. -/
inductive Fetched where
  | stopped (s : State)
  | run (i : Instr) (s : State)
  | illegal (w : BitVec 32) (s : State)
deriving DecidableEq, Repr

/-- Fetch and decode for the current party. -/
def State.fetch (s : State) : Fetched :=
  match fetchWord s.pc s with
  | .error e => .stopped e.resolve
  | .ok (w, t) =>
    match decode w.toNat with
    | .ok i => .run i (t.settleLoads i)
    | .rsvfld => .stopped (t.take { cause := 0x02 })
    | _ => .illegal w t

/-- A party's turn up to its instruction. -/
def State.turnOf (s : State) (p : Party) : Fetched :=
  let s := s.enter p
  match s.boundary with
  | some t => .stopped t
  | none => s.fetch

/-- Nothing can move: time passes, and waits are tested again. -/
def State.idle (s : State) : State := { s with epoch := s.epoch + 1 }

/-- Walks whose time is over give their walkers back (R46, log 91). -/
def Die.freeWalkers (d : Die) (now : Nat) : Die := { d with walks := d.walks.filter fun w => decide (now < w.until_) }

/-- A launch has finished joining (R324 step 1): every pallet of it has retired or failed, and no engine operation is
outstanding that a gang of it issued before the gang ended in OUT. -/
def State.over (s : State) (l : Launch) : Bool :=
  l.state == .closing && l.pdone + l.pfail == l.count && !s.outs.any fun g => g.launch == l.id && g.gone

/-- A launch that is over since this step notes it: launches of one step have finished joining in one cycle (R326). -/
def State.stamp (s : State) (l : Launch) : Launch :=
  if s.over l && l.overAt.isNone then { l with overAt := some s.ticks } else l

/-- The clock advances with every step (log 12), and the issue cycle of the step before it is counted. -/
def State.tick (s : State) : State :=
  let now := s.time + Config.elapsed s.ticks
  { s with cores := s.countIssue, ticks := s.ticks + 1, time := now, dies := s.dies.map (·.freeWalkers now),
           launches := s.launches.map s.stamp }

end Sys2Proof.Machine
end

