-- ==== Sys2Proof/Machine/Sync.lean ====
section
/-! DEFINITION. Barrier-object instructions and WAITV (R345 to R347). -/

namespace Sys2Proof.Machine

/-! ## Barrier objects (R345, R346) -/

/-- The checks of R345 and R200, and the object. -/
def mbarOperand (a : Reg) (p : BitVec 1) : Act Mbar := do
  let x ← readX a
  let src ← look (·.source 2)
  if p = 0 then walkerGate [x.toNat] else pure ()
  if p = 1 then mbarPool x else mbarVa src x.toNat .atomic

/-- An object whose check fails: CHECKFAIL names its VA, or the core row. -/
def mbarFail {α : Type} (m : Mbar) (a : Site) : Act α := fun s =>
  let cause := memCause kCheckFail (s.source 2)
  .error (.trap { cause := cause, faddr := BitVec.ofNat 64 a.1 }
    (match m with
      | .mem _ pa => s.logSite 1 s.cur.core cause.toNat none pa
      | .pool _ => s.logSite 1 s.cur.core cause.toNat (some a.1) 0 a.2))

/-- Reading an object at its unit. -/
def mbarLoad (m : Mbar) : Act MbarObj := do
  let s ← look id
  match s.mbarRead s.cur.core m with
  | .ok o => do
    upd fun t => match m with
      | .mem _ pa => t.touchHbm .high pa 16
      | .pool _ => t
    pure o
  | .error a => mbarFail m a

/-- A write of an object in memory reaches the lines of the core's scalar data cache (R51). -/
def State.mbarSeen (s : State) (m : Mbar) (o : MbarObj) : State :=
  match m with
  | .mem _ pa => s.sdcWrite pa (bytesOfLe 16 o.word)
  | .pool _ => s

/-- Writing an object. -/
def mbarStore (m : Mbar) (o : MbarObj) : Act Unit := upd fun s => (s.mbarWrite s.cur.core m o).mbarSeen m o

/-- Writing a new object. -/
def mbarNew (m : Mbar) (o : MbarObj) : Act Unit := fun s =>
  match s.mbarInit s.cur.core m o with
  | .ok t => .ok ((), t.mbarSeen m o)
  | .error a => mbarFail m a s

def mbarLegal (sf : BitVec 3) : Legal := { stream := true, rsv := scopeReserved sf, pod := sf == 5 }

/-- One of the four steps that change an object; a value that the step refuses raises BARG. A release at pod scope first
waits for the ports (R207). -/
def mbarOp (sf : BitVec 3) (a : Reg) (p : BitVec 1) (bad : State → Bool) (step : State → MbarStep) : Act Unit := do
  (mbarLegal sf).check
  streamJoin
  let m ← mbarOperand a p
  let s ← look id
  trapIf (bad s) 0xB6
  alignCourses
  upd fun s => s.reachUnit s.ownPlace
  match step s with
  | .init e => mbarNew m ((mbarObj 0).step (.init e))
  | k => do
    if sf = 5 then upd (·.podRelease none) else pure ()
    let o ← mbarLoad m
    mbarStore m (o.step k)

def execMbinit (d a : Reg) (p : BitVec 1) (s : State) : Host.Outcome State Fault Refusal :=
  finish (mbarOp 0 a p (fun s => decide (65535 < (s.getX d).toNat)) fun s => .init (s.getX d).toNat) s

def execMbarrive (a : Reg) (p : BitVec 1) (sf : BitVec 3) (s : State) : Host.Outcome State Fault Refusal :=
  finish (mbarOp sf a p (fun _ => false) fun _ => .arrive) s

def execMbexpect (d a : Reg) (p : BitVec 1) (sf : BitVec 3) (s : State) : Host.Outcome State Fault Refusal :=
  finish (mbarOp sf a p (fun s => decide (2 ^ 40 ≤ (s.getX d).toNat)) fun s => .expect (BitVec.ofNat 40 (s.getX d).toNat)) s

def execMbarrivex (d a : Reg) (p : BitVec 1) (sf : BitVec 3) (s : State) : Host.Outcome State Fault Refusal :=
  finish (mbarOp sf a p (fun s => decide (2 ^ 40 ≤ (s.getX d).toNat)) fun s => .arrivex (BitVec.ofNat 40 (s.getX d).toNat)) s

def execMbwait (d a : Reg) (p q : BitVec 1) (sf : BitVec 3) (s : State) : Host.Outcome State Fault Refusal :=
  finish (do
    (mbarLegal sf).check
    streamJoin
    let m ← mbarOperand a p
    let o ← mbarLoad m
    if o.ph = (q == 1) then park
    else do
      acquire
      writeX d (if o.lerr then 1 else 0)) s

/-- What MBTEST returns. -/
def MbarObj.testWord (o : MbarObj) : Word :=
  BitVec.ofNat 64 ((if o.lerr then 2 ^ 57 else 0) + (if o.ph then 2 ^ 56 else 0) + o.arr * 2 ^ 40 + o.pend.toNat)

def execMbtest (d a : Reg) (p : BitVec 1) (sf : BitVec 3) (s : State) : Host.Outcome State Fault Refusal :=
  finish (do
    (mbarLegal sf).check
    streamJoin
    let m ← mbarOperand a p
    let o ← mbarLoad m
    acquire
    writeX d o.testWord) s

/-! ## WAITV (R347) -/

/-- Whether a flag meets its expected value. -/
def flagMet (ge : Bool) (f v : Nat) : Bool :=
  if ge then decide ((f + 2 ^ 32 - v) % 2 ^ 32 < 2 ^ 31) else f == v

/-- The flags of some rows, read after every address has passed its checks. -/
def checkFlags : List Nat → Act (List Nat)
  | [] => pure []
  | va :: vas => do
    let x ← xlat { kind := .load, source := 5, align := 4 } va
    let r ← checkFlags vas
    pure (x.pa :: r)

def readFlags : List (Nat × Nat) → Act (List Nat)
  | [] => pure []
  | (va, pa) :: l => do
    checkData 5 va pa 4
    let v ← look fun s => readLE s.mem pa 4
    upd (·.traffic .high .read pa 4 [])
    let r ← readFlags l
    pure (v :: r)

/-- The wait ends: m(MREG) tells which flags were met, x[a] how many were not. -/
def State.flagsDone (s : State) (a : Reg) (met : List (Nat × Bool)) : State :=
  let s := if s.hart.cmask = 0 then s
    else met.foldl (fun s p => s.setRow p.1 ((s.row p.1).putBit s.hart.cmask.toNat p.2)) s
  s.setX a (BitVec.ofNat 64 (met.filter fun p => !p.2).length)

def waitvOp (ge : Bool) (d a o e : Reg) : Act Unit := do
  ({ vregs := [o.toNat, e.toNat], vreads := [o.toNat, e.toNat], width := 32 } : Legal).check
  let base ← readX d
  let limit ← readX a
  landedAll [o.toNat, e.toNat]
  let s ← look id
  let rows := List.range s.hart.vl.toNat
  abnCheck rows [(o.toNat, .int 32), (e.toNat, .int 32)]
  let mcol := maskCols s.hart.cmask.toNat
  rowCheck { regs := [], cols := s.regCols o.toNat 32 ||| s.regCols e.toNat 32 ||| mcol, dcols := mcol, dlats := 0 }
    (rows.filter fun j => !(s.row j).bit 0)
  alignCourses
  let vas := rows.map fun j => (base.toNat + s.elem o.toNat 32 j) % 2 ^ 64
  walkerGate vas
  let pas ← checkFlags vas
  let fs ← readFlags (vas.zip pas)
  let met := (rows.zip fs).map fun p => (p.1, flagMet ge p.2 (s.elem e.toNat 32 p.1))
  let now ← look fun t => t.cycle (dieOf t.cur.core)
  let start := s.hart.waitStart.getD now
  if met.all (·.2) || (limit != BitVec.allOnes 64 && limit.toNat ≤ now - start) then do
    acquire
    upd (·.flagsDone a met)
  else do
    upd (·.modHart fun h => { h with waitStart := some start })
    park

def execWaitvEq (d a o e : Reg) (s : State) : Host.Outcome State Fault Refusal := finish (waitvOp false d a o e) s

def execWaitvGe (d a o e : Reg) (s : State) : Host.Outcome State Fault Refusal := finish (waitvOp true d a o e) s

end Sys2Proof.Machine
end

