-- ==== Sys2Proof/Machine/System.lean ====
section
/-! DEFINITION. Prefixes, illegal words, control and status registers, traps and returns, YIELD and END, LAUNCH, and the
maintenance instructions (R144 to R149, R348 to R358, R389). -/

namespace Sys2Proof.Machine

/-! ## PFX and words that are no instruction (R144, R146) -/

/-- The word of a PFX. -/
def pfxWord (p : BitVec 3) (v c : BitVec 1) (r : BitVec 5) : BitVec 32 :=
  BitVec.ofNat 32 (0xFC000000 + p.toNat * 8388608 + v.toNat * 4194304 + c.toNat * 2097152 + r.toNat * 65536)

/-- PFX is pending until its successor (R146, R149): it completes nothing of its own. -/
def execPfx (p : BitVec 3) (v c : BitVec 1) (r : BitVec 5) (s : State) : Host.Outcome State Fault Refusal :=
  match (do
      ({ rsv := (p == 0 && v == 1) || (c == 0 && r != 0) } : Legal).check
      upd fun s => (s.modHart fun h => { h with pfx := some (pfxWord p v c r) }).setPc (s.pc + 4) : Act Unit) s with
  | .ok (_, t) => .next { t with epoch := t.epoch + 1 }
  | .error e => .next e.resolve

/-- A word that decodes to no instruction: ILLZERO or ILLOP (R144). -/
def execIllegalWord (w : BitVec 32) (s : State) : Host.Outcome State Fault Refusal :=
  finish (raise (if w = 0 then 0x00 else 0x01)) s

/-! ## Control and status registers (R348 to R350) -/

/-- HARTID (R350). -/
def State.hartid (s : State) : Word :=
  BitVec.ofNat 64 (8 * s.cur.core.val + match s.cur.who with | .hart h => h.val | .stream => 2048)

def smbIx (i : Nat) : Fin 4 := if h : i < 4 then ⟨i, h⟩ else 0

/-- The value of a CSR for the party that runs. -/
def State.csrRead (s : State) (n : Nat) : Word :=
  let h := s.hart
  let c := s.core
  if n = 0x000 then h.vl.setWidth 64
  else if n = 0x001 then BitVec.ofNat 64 c.vlmax
  else if n = 0x002 then h.vseg.setWidth 64
  else if n = 0x003 then s.th.frm.setWidth 64
  else if n = 0x004 then s.th.fflags.setWidth 64
  else if n = 0x005 then h.cmask.setWidth 64
  else if n = 0x006 then h.dcthr.setWidth 64
  else if n = 0x007 then h.kvfthr.setWidth 64
  else if n = 0x008 then h.vtestint.setWidth 64
  else if 0x009 ≤ n ∧ n ≤ 0x00C then h.smbs[smbIx (n - 9)]
  else if n = 0x010 then s.hartid
  else if n = 0x011 then BitVec.ofNat 64 (s.cycle (dieOf s.cur.core))
  else if n = 0x012 then c.pword
  else if n = 0x013 then c.vlpwr.setWidth 64
  else if n = 0x014 then c.ctag
  else if n = 0x015 then c.cterr
  else if n = 0x016 then c.mcver.setWidth 64
  else if n = 0x017 then BitVec.ofNat 64 ((if c.tokenHeld then 2 else 0) + if c.tokenMode then 1 else 0)
  else if n = 0x020 then c.sltol.setWidth 64
  else if n = 0x021 then c.slcap.setWidth 64
  else if n = 0x022 then c.sldiv.setWidth 64
  else if n = 0x023 then c.sliter.setWidth 64
  else if n = 0x024 then c.slphase.setWidth 64
  else if n = 0x025 then c.slrprev.setWidth 64
  else if n = 0x040 then h.tvec
  else if n = 0x041 then h.tcause
  else if n = 0x042 then h.tpc
  else if n = 0x043 then h.tiaddr
  else if n = 0x044 then h.tfaddr
  else if n = 0x045 then h.tpfx
  else if 0x048 ≤ n ∧ n ≤ 0x04F then h.estart[vecIx (n - 0x48)].setWidth 64
  else if 0x050 ≤ n ∧ n ≤ 0x057 then h.elag[vecIx (n - 0x50)].setWidth 64
  else if n = 0x080 then c.ptroot
  else 0

/-- The fields of TCAUSE and TVEC that a write changes (R350, R390). -/
def tcauseMask : Word := 0x8000000000FF07FF
def tvecMask : Word := 0x00FFFFFFFFFFFFFD

/-- The fields of PTROOT: ROOT and CTXID; the others are reserved (R34, R10). -/
def ptrootMask : Word := 0x000FFFFFFFFFFFF0

/-- Whether the hart owns a course: pairs of other courses stay 0 (R349). -/
def State.ownsCourse (s : State) (c : Nat) : Bool := (s.core.coursesOf s.cur.who.hartIx.val).contains c

/-- A write of a CSR: reserved fields and read-only registers keep their values (R9). -/
def State.csrWrite (s : State) (n : Nat) (v : Word) : State :=
  if n = 0x002 then s.modHart fun h => { h with vseg := v.setWidth 3 }
  else if n = 0x003 then s.modTh fun t => { t with frm := v.setWidth 2 }
  else if n = 0x004 then s.modTh fun t => { t with fflags := v.setWidth 5 }
  else if n = 0x005 then s.modHart fun h => { h with cmask := v.setWidth 3 }
  else if n = 0x006 then s.modHart fun h => { h with dcthr := v.setWidth 40 }
  else if n = 0x007 then s.modHart fun h => { h with kvfthr := v.setWidth 32 }
  else if n = 0x008 then s.modHart fun h => { h with vtestint := v.setWidth 16 }
  else if 0x009 ≤ n ∧ n ≤ 0x00C then s.modHart fun h => { h with smbs := h.smbs.set (smbIx (n - 9)) v }
  else if n = 0x020 then s.modCore fun c => { c with sltol := v.setWidth 32 }
  else if n = 0x021 then s.modCore fun c => { c with slcap := v.setWidth 8 }
  else if n = 0x022 then s.modCore fun c => { c with sldiv := v.setWidth 32 }
  else if n = 0x023 then s.modCore fun c => { c with sliter := v.setWidth 8 }
  else if n = 0x024 then s.modCore fun c => { c with slphase := v.setWidth 5 }
  else if n = 0x025 then s.modCore fun c => { c with slrprev := v.setWidth 32 }
  else if n = 0x040 then s.modHart fun h => { h with tvec := v &&& tvecMask }
  else if n = 0x080 then s.modCore fun c => { c with ptroot := v &&& ptrootMask }
  else if !s.sys then s
  else if n = 0x041 then s.modHart fun h => { h with tcause := v &&& tcauseMask }
  else if n = 0x042 then s.modHart fun h => { h with tpc := v }
  else if n = 0x043 then s.modHart fun h => { h with tiaddr := v }
  else if n = 0x044 then s.modHart fun h => { h with tfaddr := v }
  else if n = 0x045 then s.modHart fun h => { h with tpfx := v &&& 0x1FFFFFFFF }
  else if 0x048 ≤ n ∧ n ≤ 0x04F then
    if s.ownsCourse (n - 0x48) then s.modHart fun h => { h with estart := h.estart.set (vecIx (n - 0x48)) (v.setWidth 32) } else s
  else if 0x050 ≤ n ∧ n ≤ 0x057 then
    if s.ownsCourse (n - 0x50) then s.modHart fun h => { h with elag := h.elag.set (vecIx (n - 0x50)) (v.setWidth 4) } else s
  else s

/-- The CSRs that the slab stream may reach (R349). -/
def csrStream (n : Nat) : Bool :=
  n == 0x003 || n == 0x004 || (0x010 ≤ n && n ≤ 0x012) || n == 0x016 || n == 0x017 || (0x020 ≤ n && n ≤ 0x025)

/-- What an access of a CSR raises, beyond R145 (R348). -/
def State.csrCause (s : State) (n : Nat) : Option (BitVec 8) :=
  if s.isStream then (if csrStream n then none else some 0x04)
  else if 0x020 ≤ n ∧ n ≤ 0x025 then some 0x93
  else if (n = 0x045 ∨ n = 0x080) ∧ !s.sys then some 0x04
  else none

/-- One CSR instruction: `f` gives the new value from the old one, where it writes. Every form reads the old value, and a
read of CTAG observes the tags (R99). -/
def csrOp (d : Reg) (n : BitVec 10) (f : State → Word → Option Word) : Act Unit := do
  ({ stream := true, ill := !csrAssigned n } : Legal).check
  let s ← look id
  match s.csrCause n.toNat with
  | some c => raise c
  | none => pure ()
  streamJoin
  let s ← look id
  let old := s.csrRead n.toNat
  if n = 0x014 then acquire else pure ()
  match f s old with
  | none => pure ()
  | some v => upd (·.csrWrite n.toNat v)
  writeX d old

def execCsrr (d : Reg) (n : BitVec 10) (s : State) : Host.Outcome State Fault Refusal :=
  finish (csrOp d n fun _ _ => none) s

def execCsrw (d a : Reg) (n : BitVec 10) (s : State) : Host.Outcome State Fault Refusal :=
  finish (csrOp d n fun s _ => some (s.getX a)) s

def execCsrs (d a : Reg) (n : BitVec 10) (s : State) : Host.Outcome State Fault Refusal :=
  finish (csrOp d n fun s old => some (old ||| s.getX a)) s

def execCsrc (d a : Reg) (n : BitVec 10) (s : State) : Host.Outcome State Fault Refusal :=
  finish (csrOp d n fun s old => some (old &&& ~~~s.getX a)) s

/-! ## Traps, return and end (R351 to R354) -/

/-- SVC, TRAP and BKPT raise their cause with the code in TFADDR. -/
def trapOp (stream : Bool) (cause : BitVec 8) (next : Bool) (code : BitVec 10) : Act Unit := do
  ({ stream := stream } : Legal).check
  streamJoin
  raiseTrap { cause := cause, faddr := code.setWidth 64, next := next }

def execSvc (c : BitVec 10) (s : State) : Host.Outcome State Fault Refusal := finish (trapOp false 0x0A true c) s

def execTrap (c : BitVec 10) (s : State) : Host.Outcome State Fault Refusal := finish (trapOp true 0x0B true c) s

def execBkpt (c : BitVec 10) (s : State) : Host.Outcome State Fault Refusal := finish (trapOp true 0x08 false c) s

/-- ERET (R352, R389), at system privilege or in the pallet handler; one that completes at pallet privilege is single
stepped. -/
def execEret (s : State) : Host.Outcome State Fault Refusal :=
  match (do
      ({} : Legal).check
      let h ← look (·.hart)
      trapIf (!h.sys && !h.inh) 0x04 : Act Unit) s with
  | .ok (_, t) => .next (if t.stepping then t.eret.take { cause := 0x09 } else t.eret)
  | .error e => .next e.resolve

def execYield (s : State) : Host.Outcome State Fault Refusal :=
  finish (do
    ({ stream := true } : Legal).check
    streamJoin
    upd fun s => if s.isStream then s else s.modHart fun h => { h with yieldLeft := 16 }) s

/-- The pallet of a core has no hart left to run: it waits to be joined (R375, R377). -/
def Core.joinIfDone (c : Core) : Core :=
  if (c.harts.toList.all fun h => h.st == .ended || h.st == .absent) && !c.stream.running then
    { c with pallet := c.pallet.map fun p => if p.board = .run then { p with board := .join } else p }
  else c

/-- END retires the hart (R354): it leaves its gang's barriers, and nothing reads its rows again. -/
def execEndHart (s : State) : Host.Outcome State Fault Refusal :=
  match (do
      ({} : Legal).check
      let s ← look id
      trapIf (s.core.stream.running && s.core.stream.partner == s.cur.who.hartIx) 0x93 : Act Unit) s with
  | .ok (_, t) =>
    let u := (t.complete (t.pc + 4)).modHart fun h => { h with st := .ended, walk := none, replaying := false }
    .next ((u.modCore Core.joinIfDone).leaveBarriers)
  | .error e => .next e.resolve

/-! ## LAUNCH (R355) -/

/-- A record whose last four bytes check. -/
def recordGood (bs : List Byte) : Bool := msgField bs (bs.length - 4) 4 == (crc32c (bs.take (bs.length - 4))).toNat

/-- What the Launch Controller answers to a record, and its queue afterwards. -/
def State.enqueueLaunch (s : State) (bs : List Byte) : Nat × State :=
  if !recordGood bs then (2, s)
  else if 64 ≤ s.dies[s.dieNo].devq.length then (1, s)
  else (0, s.modDie s.dieNo fun d => { d with devq := d.devq ++ [(bs, s.ctx)] })

def execLaunch (d a : Reg) (s : State) : Host.Outcome State Fault Refusal :=
  finish (do
    ({} : Legal).check
    let x ← readX a
    alignCourses
    let bs ← loadBytes { kind := .load, source := 1, device := true, align := 64 } x.toNat 64
    let r ← look fun s => s.enqueueLaunch bs
    upd fun _ => r.2
    writeX d (BitVec.ofNat 64 r.1)) s

/-! ## Maintenance (R356 to R358) -/

/-- Operations that a core issued before its operation numbered `bound` and that have not completed, wherever its gang is
now: on a core, or saved (R356). -/
def State.opsBefore (s : State) (core : Fin 192) (bound : Nat) : Bool :=
  let before := fun (o : EngineOp) => o.home == core.val && decide (o.id < bound)
  (s.cores.toList.any fun c => c.ops.any before) || s.outs.any fun g => g.images.any fun m => m.core.ops.any before

/-- QUIESCE (R356): the cases are tested once. A core that was halted is waited for, whatever becomes of it since. -/
def execQuiesce (d a : Reg) (s : State) : Host.Outcome State Fault Refusal :=
  finish (do
    ({ priv := true } : Legal).check
    let x ← readX a
    if 192 ≤ x.toNat then writeX d 2
    else do
      let c ← look fun s => s.cores[coreIx x.toNat]
      let h ← look (·.hart)
      let bound := match h.wait with
        | .quiesce b => some b
        | _ => if c.halted then some c.nextOp else none
      match bound with
      | none => writeX d 1
      | some b => do
        let busy ← look fun s => s.opsBefore (coreIx x.toNat) b
        if busy then do
          upd (·.modHart fun h => { h with wait := .quiesce b })
          stall
        else do
          acquire
          writeX d 0) s

/-- What a TLBINV names: a page of a context, a context, everything. -/
structure Inval where
  kind : BitVec 2
  ctxid : BitVec 16
  va : Nat
deriving DecidableEq, Repr

def Inval.tlb (k : Inval) (e : TlbEntry) : Bool :=
  if k.kind = 2 then true else e.ctxid == k.ctxid && (k.kind == 1 || k.va / 2 ^ pageBits e.level == e.page)

def Inval.ptr (k : Inval) (p : BitVec 16 × Nat × Nat × Nat) : Bool :=
  if k.kind = 2 then true else p.1 == k.ctxid && (k.kind == 1 || vaPrefix p.2.1 k.va == p.2.2.1)

/-- An operation that may have translated through a removed entry: the largest page that covers the address counts
(log 9). -/
def Inval.op (k : Inval) (o : EngineOp) : Bool :=
  if k.kind = 2 then true
  else o.ctxid == k.ctxid && (k.kind == 1 || o.pages.any fun p => p.1 / 2 ^ 14 == k.va / 2 ^ 30)

/-- A walk in progress whose result is a removed entry, or that is for its page: no later access receives it. -/
def Inval.walk (k : Inval) (w : WalkRun) : Bool :=
  if k.kind = 2 then true
  else w.ctxid == k.ctxid && (k.kind == 1 || match w.result with
    | .leaf level _ _ => w.page * 65536 / 2 ^ pageBits level == k.va / 2 ^ pageBits level
    | _ => w.page == k.va / 65536)

def Inval.req (k : Inval) (r : PageReq) : Bool :=
  if k.kind = 2 then true else r.ctxid == k.ctxid && (k.kind == 1 || r.va / 2 ^ 30 == k.va / 2 ^ 30)

/-- The matching entries leave every TLB and every walker's pointer cache, and walks in progress that found them end. -/
def State.tlbInvalidate (s : State) (k : Inval) : State :=
  { s with
    cores := s.cores.map fun c => { c with tlb := c.tlb.filter fun e => !k.tlb e }
    dies := s.dies.map fun d => { d with ptrs := d.ptrs.filter fun p => !k.ptr p, walks := d.walks.filter fun w => !k.walk w } }

/-- Something that translated through a removed entry is not over. -/
def State.tlbBusy (s : State) (k : Inval) : Bool :=
  s.reqs.any k.req || (s.cores.toList.any fun c => c.ops.any k.op) ||
    s.outs.any fun g => g.images.any fun m => m.core.ops.any k.op

/-- TLBINV (R357). A register field that a kind does not use, a of CTX, d and a of ALL, is read and its value ignored, like
x[d][63:16]: the entry names the operands x[d] and x[a] for all kinds, so the fields are not reserved (R342, log 107). -/
def execTlbinv (d a : Reg) (k : BitVec 2) (s : State) : Host.Outcome State Fault Refusal :=
  finish (do
    ({ priv := true, rsv := k == 3 } : Legal).check
    let x ← readX d
    let va ← readX a
    let i : Inval := { kind := k, ctxid := x.setWidth 16, va := va.toNat }
    upd (·.tlbInvalidate i)
    let b ← look (·.tlbBusy i)
    if b then stall else pure ()) s

def execIcinv (s : State) : Host.Outcome State Fault Refusal :=
  finish (do
    ({} : Legal).check
    upd (·.modCore fun c => { c with icache := [] })) s

def execIcinvAll (s : State) : Host.Outcome State Fault Refusal :=
  finish (do
    ({ priv := true } : Legal).check
    upd fun s => { s with cores := s.cores.map fun c => { c with icache := [] } }) s

def execSdcinv (s : State) : Host.Outcome State Fault Refusal :=
  finish (do
    ({ stream := true } : Legal).check
    streamJoin
    upd (·.sdcInvalidate)) s

end Sys2Proof.Machine
end

