-- ==== Sys2Proof/Machine/Launch.lean ====
section
/-! DEFINITION. The Launch Controller: submission queues, launch records, acceptance, placement, the scoreboard,
retirement and completion (R110, R324 to R326, R359 to R378). -/

namespace Sys2Proof.Machine

/-! ## Pallets that leave their cores (R375, R377) -/

/-- A pallet in JOIN whose stream and engine operations are over. -/
def Core.joined (c : Core) : Bool :=
  match c.pallet with
  | some p => p.board == .join && p.streams == [] && c.ops == [] && !c.stream.running
  | none => false

/-- A core without a pallet. -/
def Core.free (c : Core) : Core :=
  { c with pallet := none, harts := c.harts.map fun h => { h with st := .absent }, preempt := false,
           dbgstat := c.dbgstat &&& ~~~1 }

/-- One pallet is counted: by its cause of failure, or in PDONE. -/
def Launch.count1 (l : Launch) (index : Nat) (failed : Option (BitVec 8)) : Launch :=
  match failed with
  | none => { l with pdone := l.pdone + 1 }
  | some c => l.fail 1 index c

def State.modLaunch (s : State) (id : Nat) (f : Launch → Launch) : State :=
  { s with launches := s.launches.map fun l => if l.id = id then f l else l }

def State.launch? (s : State) (id : Nat) : Option Launch := s.launches.find? (·.id == id)

/-- The pallet of a core retires once it has joined. -/
def State.retireCore (s : State) (i : Fin 192) : State :=
  match s.cores[i].pallet with
  | some p =>
    if s.cores[i].joined then (s.modCoreAt i Core.free).modLaunch p.launch (·.count1 p.index p.failed) else s
  | none => s

/-- Every pallet that has joined retires; pre-emption requests that wait for image space are tried again (R403). -/
def State.retirePallets (s : State) : State :=
  let t := (List.finRange 192).foldl State.retireCore s
  if t.preemptHeld = [] then t else t.retryPreempts

/-! ## Completion (R110, R324 to R326) -/

/-- The body of a completion record; the producer seals it. -/
def completionRecord (id bytes kind : Nat) (fcode : Option (BitVec 8)) (aux : Nat) (ph : Bool) : List Byte :=
  sealRecord (bytesOfLe 8 id ++ bytesOfLe 8 bytes ++ bytesOfLe 1 kind ++ bytesOfLe 1 (if fcode.isSome then 1 else 0) ++
    bytesOfLe 1 (fcode.elim 0 (·.toNat)) ++ bytesOfLe 1 (if ph then 1 else 0) ++ bytesOfLe 8 aux)

/-- The KIND 2 record (R325). -/
def Launch.record (l : Launch) : Bool → List Byte :=
  completionRecord l.seq.toNat l.bytes 2 (l.firstFail.map (·.2)) (l.pdone + l.pfail * 2 ^ 25)

/-- The context slot of a request: the first valid one with its CTXID. -/
def State.slotOf (s : State) (ctxid : BitVec 16) : Option Nat :=
  (List.range 64).find? fun n =>
    bitOf (s.ctxpart[ix64 n]).toNat 63 && rootCtxid (s.ctxroot[ix64 n]) == ctxid

/-- Where the descriptor of a completion ring lies that a context names by an address. -/
def State.ringPlace (s : State) (ctx home ring : Nat) : Option Nat := (s.ringTr (s.lcAgent ctx home) ring false).toOption

/-- The rings that held records wait for, with the time since when: each by its context, its home, its address. -/
def State.heldRings (s : State) : List ((Nat × Nat × Nat) × Nat) :=
  (s.launches.filterMap fun l => l.hold.map fun h => ((l.ctx, l.home, l.ring), h)) ++
  s.reqs.filterMap fun r => r.hold.bind fun h => (s.slotOf r.ctxid).map fun c => ((c, r.die, (s.pgnring[ix64 c]).toNat), h)

/-- A ring that another record, held since earlier, waits for (R326): one descriptor, under whatever context and address it is
named. -/
def State.ringQueue (s : State) (ctx home ring before : Nat) : Bool :=
  s.heldRings.any fun x => decide (x.2 < before) &&
    ((x.1.1 == ctx && x.1.2.2 == ring) ||
      match s.ringPlace x.1.1 x.1.2.1 x.1.2.2, s.ringPlace ctx home ring with
      | some a, some b => a == b
      | _, _ => false)

/-- The port behind which the next record of a completion ring will stand. -/
def State.ringPort (s : State) (l : Launch) : Option Nat :=
  if l.ring = 0 then none
  else
    let tr := fun (va : Nat) => (s.ringTr (s.lcAgent l.ctx l.home) va false).toOption
    (tr l.ring).bind fun d =>
      (tr (readLE s.mem d 8 + 32 * (readLE s.mem (d + 12) 4 % 2 ^ readLE s.mem (d + 8) 1))).bind portOf

/-- Ports through which writes of the launch left, but for that of its record's store (R324 step 2, R207). The zero-length reads
complete at once, on a port whose link is down as well: R324 does not say what becomes of its flush then (log 115). -/
def State.flushPorts (s : State) (l : Launch) : State :=
  let own := s.ringPort l
  let ps := (List.range 4).filter fun n => l.ports.getLsbD n && own != some n
  { s with out := s.out ++ ps.map fun n => Output.flush n }

/-- Steps 4 and 5 of R324, or the record is held: one that DQFLUSH concerns is discarded then (R378). A ring that receives
nothing is logged with its descriptor's VA (R111). -/
def State.recordLaunch (s : State) (l : Launch) : State :=
  let gone := fun (t : State) =>
    ({ t with launches := t.launches.filter (·.id != l.id) }).signalAdd l.ctx l.home l.signal
  let hold := fun (t : State) =>
    if l.flushed then gone t
    else { t with launches :=
      (t.launches.filter (·.id != l.id)) ++ [{ l with state := .held, hold := some (l.hold.getD s.ticks) }] }
  if l.ring = 0 then gone s
  else if s.ringQueue l.ctx l.home l.ring (l.hold.getD s.ticks) then hold s
  else match s.ringProduce (s.ringTr (s.lcAgent l.ctx l.home)) l.ring l.record with
    | .written t => gone t
    | .full => hold s
    | .refused c => gone (s.logEvent 4 c l.ring none 0 0)

/-- A launch of the same home that finished joining in the same cycle and has a lower sequence number goes first (R326). -/
def State.lowerSeq (s : State) (l : Launch) : Bool :=
  s.launches.any fun k => s.over k && k.overAt == l.overAt && k.home == l.home && decide (k.seq < l.seq)

/-- LAUNCH_COMPLETE: join, flush, release, record, signal (R324). -/
def State.completeLaunch (s : State) (id : Nat) : State :=
  let s := { s with epoch := s.epoch + 1 }.retirePallets
  match s.launch? id with
  | some l => if s.over l && !s.lowerSeq l then (s.flushPorts l).recordLaunch l else s
  | none => s

def execLaunchComplete (launch : Nat) (s : State) : Host.Outcome State Fault Refusal := .next (s.completeLaunch launch)

/-! ## Acceptance (R126, R157, R365 to R370) -/

/-- Whether a partition word breaks R126 or a kernel's minima. -/
def pwordBad (w : Word) (k : Kernel) : Bool :=
  let n := w.toNat
  let nv := 8 * (bitsOf n 2 2 + 1)
  let fw := 16 * 2 ^ bitsOf n 4 2
  bitsOf n 15 49 != 0 || bitOf n 7 || bitsOf n 4 2 == 3 || 8 + nv * fw + 64 * bitsOf n 6 1 + 8 * bitsOf n 8 7 != 1024 ||
  decide (bitsOf n 0 2 < k.shape) || decide (bitsOf n 2 2 < k.nvc) || decide (bitsOf n 4 2 < k.fwc) ||
  decide (bitsOf n 6 1 < k.acole) || decide (bitsOf n 8 7 < k.scol8) || (k.check && (nv ≤ k.maxv || fw < k.maxew))

/-- A VA of a record: aligned, bits [63:56] zero. -/
def vaOk (va align : Nat) : Bool := va < 2 ^ 56 && va % align == 0

def gangOf (code : Nat) : Nat := if code = 1 then 4 else if code = 2 then 48 else 1

/-- No kernel: what a refused launch carries. -/
def Kernel.none : Kernel :=
  { ctx := 0, va := 0, entry := 0, shape := 0, nvc := 0, fwc := 0, acole := 0, scol8 := 0, check := false, maxv := 0,
    maxew := 0, streams := [], sym := Option.none }

/-- The launch that a record's fields give. -/
def launchOf (id queue home ctx now : Nat) (f : Nat → Nat → Nat) : Launch :=
  { id := id, queue := queue, home := home, ctx := ctx, prio := bitsOf (f 0x33 1) 2 2, gang := gangOf (f 0x33 1 % 4),
    count := f 0x30 3 + 1, pword := BitVec.ofNat 64 (f 0x28 8), seq := BitVec.ofNat 32 (f 0x38 4), ring := f 0x18 8,
    signal := f 0x20 8, kernel := .none, wins := [], waits := [], streams := [], state := .waiting, nextGang := 0,
    since := now, bytes := 0, pdone := 0, pfail := 0, firstFail := none, ports := 0, killed := [], hold := none, flushed := false,
    overAt := none }

/-- The first reason to refuse a record (R369 order 1). -/
def recordBad (s : State) (l : Launch) (f : Nat → Nat → Nat) : Bool :=
  f 0x36 2 != 0 || 1 < f 0x35 1 || 64 ≤ f 0x34 1 || 16 ≤ f 0x33 1 || f 0x33 1 % 4 == 3 ||
  !bitOf (s.ctxpart[ix64 l.ctx]).toNat 63 || l.count % l.gang != 0 || !vaOk (f 0 8) 1 || !vaOk (f 8 8) 64 ||
  !vaOk (f 0x10 8) 16 || !vaOk l.ring 32 || !vaOk l.signal 8

/-- The windows and waits of an argument table, or none where it breaks R366. -/
def argTable (bs : List Byte) : Option (List Window × List (Nat × Nat)) :=
  let f := msgField bs
  let wins := (List.range 4).map fun w => (f (16 * w) 8, f (16 * w + 8) 8)
  let waits := [(f 0x40 8, f 0x48 8), (f 0x50 8, f 0x58 8)]
  if f 0x60 32 != 0 || (wins.any fun w => w.2 != 0 && !vaOk w.1 8) || waits.any fun w => !vaOk w.1 8 then none
  else some (wins.map fun w => { base := BitVec.ofNat 64 w.1, size := BitVec.ofNat 64 w.2 }, waits.filter (·.1 != 0))

/-- The streams of a launch (R367), or none where the list breaks its rules. -/
def streamList (k : Kernel) (pword : Word) (bs : List Byte) : Option (List (Nat × Nat × Nat × Nat)) :=
  let es := k.streams.mapIdx fun i e => (msgField bs (16 * i) 8, msgField bs (16 * i + 8) 4, msgField bs (16 * i + 12) 4, e)
  if es.any fun x => decide (x.2.2.2.size < x.2.1) || decide (65536 * bitsOf pword.toNat 8 7 < x.2.2.2.off + x.2.2.2.size)
  then none
  else some (es.map fun x => (x.1, x.2.1, x.2.2.1, x.2.2.2.off))

/-- Some whole die for a gang of 48, some quad otherwise (R369 order 8). -/
def partOk (mask : Nat) (gang : Nat) : Bool :=
  if gang = 48 then (List.range 4).any fun d => bitsOf mask (12 * d) 12 == 4095 else bitsOf mask 0 48 != 0

/-- The checks of R369 in their order: the launch to hold, or a cause. -/
def State.examine (s : State) (l : Launch) (f : Nat → Nat → Nat) : Except Nat Launch × State :=
  if recordBad s l f then (.error 0x14, s) else
  let a := s.lcAgent l.ctx l.home
  let r := if f 8 8 = 0 then (.ok (List.replicate 128 0), s) else s.lcRead a 1 (f 8 8) 128
  match r.1 with
  | .error c => (.error c, r.2)
  | .ok args =>
    match argTable args with
    | none => (.error 0x14, r.2)
    | some t =>
      match r.2.kernels.find? fun k => k.ctx == l.ctx && k.va == f 0 8 with
      | none => (.error 0x15, r.2)
      | some k =>
        if pwordBad l.pword k then (.error 0x13, r.2)
        else
          let q := if f 0x10 8 = 0 then (.ok [], r.2) else r.2.lcRead a 1 (f 0x10 8) (16 * k.streams.length)
          match q.1 with
          | .error c => (.error c, q.2)
          | .ok list =>
            if f 0x10 8 = 0 && k.streams != [] then (.error 0x16, q.2)
            else match streamList k l.pword list with
              | none => (.error 0x16, q.2)
              | some ss =>
                if !partOk (q.2.ctxpart[ix64 l.ctx]).toNat l.gang then (.error 0x17, q.2)
                else (.ok { l with kernel := k, wins := t.1, waits := t.2, streams := ss }, q.2)

/-- A load request's reserved fields, its context and its addresses (R368). -/
def State.loadBad (s : State) (ctx : Nat) (f : Nat → Nat → Nat) : Bool :=
  f 0x18 8 != 0 || 1 < f 0x28 1 || f 0x29 7 != 0 || f 0x30 4 != 0 || 64 ≤ f 0x34 1 || f 0x36 2 != 0 ||
  !bitOf (s.ctxpart[ix64 ctx]).toNat 63 || !vaOk (f 0 8) 1 || !vaOk (f 8 8) 1 || !vaOk (f 0x10 8) 1 || !vaOk (f 0x20 8) 8

/-- A load request's fields (R368). -/
def recordLoad (id queue home ctx : Nat) (bad : Bool) (f : Nat → Nat → Nat) : LoadReq :=
  { id := id, queue := queue, home := home, ctx := ctx, object := f 0 8, table := f 8 8, status := f 0x10 8,
    signed := bitOf (f 0x28 1) 0, signal := f 0x20 8, bad := bad }

/-- The home LC takes a record: a launch is held or refused, a load request is held. -/
def State.takeRecord (s : State) (queue home ctx : Nat) (bs : List Byte) : State :=
  let f := msgField bs
  if f 0x35 1 = 1 then
    { s with loads := s.loads ++ [recordLoad s.nextLoad queue home ctx (s.loadBad ctx f) f], nextLoad := s.nextLoad + 1 }
  else
    let l := launchOf s.nextLaunch queue home ctx s.time f
    let r := { s with nextLaunch := s.nextLaunch + 1 }.examine l f
    match r.1 with
    | .ok m => { r.2 with launches := r.2.launches ++ [m] }
    | .error c =>
      let m := { l with state := .closing, pfail := l.count, firstFail := some (0, BitVec.ofNat 8 c) }
      { r.2 with launches := r.2.launches ++ [m] }

/-! ## Queues (R363, R364, R370) -/

/-- Launches that a home LC holds as accepted: refused ones only wait for their records. -/
def State.accepted (s : State) (home : Nat) : Nat :=
  (s.launches.filter fun l => l.home == home && !(l.nextGang == 0 && (l.state == .closing || l.state == .held))).length

/-- Whether a queue's home has room, and no load request of the queue is outstanding. -/
def State.mayTake (s : State) (queue home : Nat) : Bool := s.accepted home < 512 && !s.loads.any (·.queue == queue)

/-- Whether a record of a host queue is due to be read. -/
def State.queueDue (s : State) (q : Fin 32) : Bool :=
  let r := s.queues[q]
  r.en && r.stat == 0 && r.head != r.tail && s.ownsQueue (q.val / 16) q.val && s.mayTake q.val r.home

/-- Whether the LC reads a host queue's slot: it takes nothing while the port's link is down (R18). -/
def State.queueReads (s : State) (q : Fin 32) : Bool := s.queueDue q && s.linkUp[dieIx (q.val / 16)]

/-- The 64 bytes of the slot at HEAD, when the read succeeds and they check. -/
def State.slotRead (s : State) (q : Fin 32) : Option (List Byte) × State :=
  let r := s.queues[q]
  let pa := r.base.toNat + 64 * (r.head.toNat % 2 ^ r.log2n)
  match s.physTr pa false with
  | .error _ => (none, s)
  | .ok pa =>
    if s.behindDown pa then (none, s)
    else if s.anyBad pa 64 then (none, s.logEvent 1 0 (s.logSector pa) none 1 0)
    else
      let bs := readBytes s.mem pa 64
      (if msgField bs 0x38 4 = r.head.toNat ∧ recordGood bs then some bs else none, s.traffic .low .read pa 64 [])

/-- A read of the slot: the record is taken, or one more failed read is counted. -/
def State.queueRead (s : State) (q : Fin 32) : State :=
  let r := s.slotRead q
  match r.1 with
  | some bs =>
    (r.2.modQueue q fun k => { k with head := k.head + 1, tries := 0 }).takeRecord q.val s.queues[q].home
      (msgField bs 0x34 1 % 64) bs
  | none => r.2.modQueue q fun k => { k with tries := k.tries + 1 }

/-- The device queue of a die: its oldest record is taken. -/
def State.deviceTake (s : State) (d : Fin 4) : State :=
  match s.dies[d].devq with
  | (bs, ctx) :: rest =>
    if s.mayTake (32 + d.val) d.val then
      (s.modDie d fun k => { k with devq := rest }).takeRecord (32 + d.val) d.val ctx bs
    else s
  | [] => s

/-- LAUNCH_RECORD_TAKE. -/
def State.recordTake (s : State) (q : Nat) : State :=
  if q < 32 then (if s.queueReads (qIx q) && s.queues[qIx q].tries == 0 then s.queueRead (qIx q) else s)
  else if q < 36 then s.deviceTake (dieIx (q - 32))
  else s

def execLaunchRecordTake (q : Nat) (s : State) : Host.Outcome State Fault Refusal :=
  .next { s.recordTake q with epoch := s.epoch + 1 }

/-- QUEUE_SLOT_RETRY: one of up to 16 more reads. -/
def execQueueSlotRetry (q : Nat) (s : State) : Host.Outcome State Fault Refusal :=
  .next (if q < 32 ∧ s.queueReads (qIx q) ∧ 1 ≤ s.queues[qIx q].tries ∧ s.queues[qIx q].tries ≤ 16 then
    { s.queueRead (qIx q) with epoch := s.epoch + 1 } else s)

/-- QUEUE_STALL: every read failed. The vector pends where the link is down (R18). -/
def execQueueStall (q : Nat) (s : State) : Host.Outcome State Fault Refusal :=
  .next (if q < 32 ∧ s.queueDue (qIx q) ∧ 17 ≤ s.queues[qIx q].tries then
    (s.modQueue (qIx q) fun r => { r with stat := r.stat ||| 1 }).msix (q / 16) (q % 16) else s)

/-! ## Waits (R366, R371) -/

/-- The first launch of a queue that has gangs to place. -/
def State.queueHead (s : State) (q : Nat) : Option Launch :=
  s.launches.find? fun l => l.queue == q && (l.state == .waiting || l.state == .placing)

/-- Whether every wait of a launch is met. -/
def State.waitsMet (s : State) (a : Agent) : List (Nat × Nat) → Except Nat Bool × State
  | [] => (.ok true, s)
  | w :: ws =>
    let r := s.lcRead a 1 w.1 8
    match r.1 with
    | .error c => (.error c, r.2)
    | .ok bs => if w.2 ≤ leOfBytes bs then r.2.waitsMet a ws else (.ok false, r.2)

/-- LAUNCH_WAIT_POLL: the launch at the head of its queue becomes a candidate, or ends on a fault. -/
def State.waitPoll (s : State) (id : Nat) : State :=
  match s.launch? id with
  | none => s
  | some l =>
    if l.state ≠ .waiting ∨ (s.queueHead l.queue).map (·.id) ≠ some id then s
    else
      let r := s.waitsMet (s.lcAgent l.ctx l.home) l.waits
      match r.1 with
      | .ok true => r.2.modLaunch id fun l => { l with state := .placing, since := s.time }
      | .ok false => r.2
      | .error c => r.2.modLaunch id (·.stopUnplaced (BitVec.ofNat 8 c))

def execLaunchWaitPoll (launch : Nat) (s : State) : Host.Outcome State Fault Refusal :=
  .next { s.waitPoll launch with epoch := s.epoch + 1 }

/-! ## Candidates and fit (R371 to R373) -/

/-- A gang that asks for cores. -/
structure Cand where
  queue : Nat
  launch : Nat
  gang : Nat
  saved : Bool
  prio : Nat
deriving DecidableEq, Repr

/-- Effective priority: one level per LCAGE cycles of waiting. -/
def State.effPrio (s : State) (prio since : Nat) : Nat :=
  if s.lcage = 0 then prio else prio - (s.time - since) / s.lcage.toNat

/-- Whether some core holds a pallet of a gang. -/
def State.gangOnCores (s : State) (launch gang : Nat) : Bool :=
  (List.finRange 192).any fun i =>
    match s.cores[i].pallet with
    | some p => p.launch == launch && p.gang == gang
    | none => false

/-- Gangs that wait in OUT. -/
def State.outWaiting (s : State) : List OutGang := s.outs.filter fun g => !g.gone && !s.gangOnCores g.launch g.gang

/-- The candidates of a queue, in its own order. -/
def State.queueCands (s : State) (q : Nat) : List Cand :=
  let outs := s.outWaiting.filter fun g => (s.launch? g.launch).any (·.queue == q)
  if outs ≠ [] then
    (outs.filter fun g => g.images.all (·.awaits == [])).filterMap fun g =>
      (s.launch? g.launch).map fun l =>
        { queue := q, launch := g.launch, gang := g.gang, saved := true, prio := s.effPrio l.prio g.since }
  else match s.queueHead q with
    | some l =>
      if l.state = .placing then
        [{ queue := q, launch := l.id, gang := l.nextGang, saved := false, prio := s.effPrio l.prio l.since }]
      else []
    | none => []

def State.cands (s : State) : List Cand := (List.range 36).flatMap s.queueCands

/-- Dies in the order in which a home tries them (R373). -/
def dieOrder (home : Nat) : List Nat :=
  if home = 0 then [0, 1, 2, 3] else if home = 1 then [1, 0, 3, 2] else if home = 2 then [2, 0, 3, 1] else [3, 1, 2, 0]

/-- The groups of n cores of a die that a gang of n may take. -/
def groupsOf (die n : Nat) : List (List Nat) := (List.range (48 / n)).map fun k => List.range' (48 * die + k * n) n

/-- Whether a core admits the context and is free. -/
def State.coreFits (s : State) (mask : Nat) (reserved : Bool) (c : Nat) : Bool :=
  s.cores[coreIx c].pallet.isNone && bitOf mask (c / 4) && (reserved || !s.reserved.contains c)

/-- The cores that a gang takes (R373). -/
def State.fit (s : State) (x : Cand) (reserved : Bool) : Option (List Nat) :=
  match s.launch? x.launch with
  | none => none
  | some l =>
    let mask := (s.ctxpart[ix64 l.ctx]).toNat
    (dieOrder l.home).findSome? fun d => (groupsOf d l.gang).find? fun g => g.all (s.coreFits mask reserved)

/-! ## Staging and start (R132, R360, R375) -/

/-- Whether a unit's failure outlives the pallet whose data it held: what staging loads or resets is whole again. -/
def HwUnit.lasting : HwUnit → Bool
  | .buffer _ | .list _ | .terms _ => false
  | _ => true

/-- A core as the LC resets it for a pallet: what belongs to the core itself stays. A halt that was requested of the core
while it had no pallet, or of a gang that has left it, is not the new pallet's (R412). The instruction cache is empty where an
object of the context was loaded while the core was not of its partition (R53, log 65). -/
def Core.stage (c : Core) (p : Pallet) (pword root : Word) (wins : List Window) : Core :=
  { Core.reset with
    vlpwr := c.vlpwr, tokenHeld := c.tokenHeld, tokenMode := c.tokenMode, mcver := c.mcver, tlb := c.tlb,
    icache := if c.icDue.contains p.ctx then [] else c.icache, icDue := c.icDue.filter (· != p.ctx), nextOp := c.nextOp,
    dbgctl := c.dbgctl, dbgstat := c.dbgstat &&& ~~~2,
    flaws := c.flaws.filter HwUnit.lasting, pword := pword, ptroot := root &&& ptrootMask, pallet := some p,
    wins := Vector.ofFn fun w => wins.getD w.val { base := 0, size := 0 } }

/-- The harts of a pallet start (R360), with an acquire at pkg scope. -/
def Core.start (c : Core) (entry : Word) (count : Nat) : Core :=
  match c.pallet with
  | none => c
  | some p =>
    { c with
      pallet := some { p with board := .run }
      sdc := []
      harts := Vector.ofFn fun h =>
        if h.val < c.nharts then
          { Hart.reset with
            st := .running
            th := { x := ((((Vector.replicate 32 0).set 1 (BitVec.ofNat 64 p.index)).set 2 (BitVec.ofNat 64 h.val)).set 3
                      (BitVec.ofNat 64 count)), pc := entry, frm := 0, fflags := 0 } }
        else Hart.reset }

/-- The cores that hold a gang. -/
def State.coresOfGang (s : State) (launch gang : Nat) : List (Fin 192) :=
  (List.finRange 192).filter fun i =>
    match s.cores[i].pallet with
    | some p => p.launch == launch && p.gang == gang
    | none => false

/-- A staged pallet goes to JOIN without starting, with a cause. -/
def Core.joinFailed (cause : BitVec 8) (c : Core) : Core :=
  { c with pallet := c.pallet.map fun p => { p with board := .join, failed := some cause } }

/-- Every pallet of a gang is READY: the gang runs (R375). -/
def State.gangReady (s : State) (launch gang : Nat) : State :=
  let cs := s.coresOfGang launch gang
  let ps := cs.filterMap fun i => s.cores[i].pallet
  match s.launch? launch with
  | none => s
  | some l =>
    if ps = [] ∨ ps.any fun p => p.board != .ready then s
    else cs.foldl (fun s i => s.modCoreAt i fun c => c.start l.kernel.entry l.count) s

/-- A pallet fails in STAGED with its own cause: the gang's other pallets fail with GANGFAIL (R375). -/
def State.gangFailed (s : State) (launch gang : Nat) (core : Fin 192) (cause : BitVec 8) : State :=
  ((s.coresOfGang launch gang).foldl
    (fun s i => s.modCoreAt i (·.joinFailed (if i = core then cause else 0x18))) s).retirePallets

/-- The pallet that pallet i of a gang becomes on a core: READY at once where it has no stream. -/
def Launch.palletOf (l : Launch) (gang i : Nat) : Pallet :=
  { launch := l.id, gang := gang, index := gang * l.gang + i, size := l.gang, ctx := l.ctx,
    board := if l.streams = [] then .ready else .staged,
    streams := l.streams.map fun x => ((x.1 + (gang * l.gang + i) * x.2.2.1) % 2 ^ 64, x.2.1, x.2.2.2), failed := none }

/-- The next gang of a launch has been placed. -/
def Launch.placedOne (l : Launch) (now : Nat) : Launch :=
  { l with nextGang := l.nextGang + 1, since := now,
           state := if l.nextGang + 1 = l.count / l.gang then .closing else .placing }

/-- A gang takes cores: a fresh one is staged, a saved one waits there for its restore. -/
def State.placeGang (s : State) (x : Cand) (cs : List Nat) : State :=
  match s.launch? x.launch with
  | none => s
  | some l =>
    let root := s.ctxroot[ix64 l.ctx]
    if x.saved then
      let images := ((s.outs.find? fun g => g.launch == x.launch && g.gang == x.gang).map (·.images)).getD []
      let s := images.foldl (fun s m =>
        let c := cs.getD (m.index % l.gang) 0
        s.modCoreAt (coreIx c) fun k =>
          k.stage { l.palletOf x.gang (m.index % l.gang) with streams := [], board := .staged } l.pword root l.wins) s
      s.modLaunch l.id fun l => { l with since := s.time }
    else
      let s := (List.range cs.length).foldl (fun s i =>
        s.modCoreAt (coreIx (cs.getD i 0)) fun k => k.stage (l.palletOf x.gang i) l.pword root l.wins) s
      (s.modLaunch l.id (·.placedOne s.time)).gangReady x.launch x.gang

/-! ## Decisions (R372, R374) -/

/-- Gangs that a queue places in consecutive decisions. -/
def State.weight (s : State) (q : Nat) : Nat := if q < 32 then s.queues[qIx q].weight + 1 else 4

def Cand.isBlocked (x : Cand) (s : State) : Bool := s.blocked == some (x.launch, x.gang)

/-- The reservation and the count of backfills end. -/
def State.unblock (s : State) : State := { s with blocked := none, backfills := 0, reserved := [] }

/-- A gang of 1 never blocks while a core of its partition is free. -/
def State.blocks (s : State) (x : Cand) : Bool :=
  match s.launch? x.launch with
  | none => false
  | some l =>
    l.gang != 1 || !(List.range 192).any fun c =>
      s.cores[coreIx c].pallet.isNone && bitOf (s.ctxpart[ix64 l.ctx]).toNat (c / 4)

/-- A rotation of a list of queue numbers to start at the first one not below p. -/
def rotateFrom (p : Nat) (qs : List Nat) : List Nat := qs.filter (p ≤ ·) ++ qs.filter (· < p)

/-- The queues of the class in the order in which the pointer meets them. -/
def State.queueOrder (s : State) (qs : List Nat) : List Nat :=
  if qs.contains s.rotation && s.burst < s.weight s.rotation then rotateFrom s.rotation qs
  else rotateFrom (s.rotation + 1) qs

/-- Trying the queues in order: the first whose gang fits places it; one that does not fit may become the blocked gang. -/
def State.tryQueues (s : State) (class_ : List Cand) : List Nat → State
  | [] => s
  | q :: qs =>
    match class_.find? (·.queue == q) with
    | none => s.tryQueues class_ qs
    | some x =>
      match s.fit x false with
      | some cs =>
        let s := { s with burst := if q = s.rotation ∧ s.burst < s.weight q then s.burst + 1 else 1, rotation := q,
                          backfills := if s.blocked.isSome then s.backfills + 1 else s.backfills }
        s.placeGang x cs
      | none =>
        let s := if s.blocked.isNone && s.blocks x then
            { s with blocked := some (x.launch, x.gang), backfills := 0 } else s
        s.tryQueues class_ qs

/-- The group of cores of the partition with the most free cores, the lowest on a tie. -/
def State.reserveFor (s : State) (l : Launch) : List Nat :=
  let mask := (s.ctxpart[ix64 l.ctx]).toNat
  let gs := ((List.range 4).flatMap fun d => groupsOf d l.gang).filter fun g => g.all fun c => bitOf mask (c / 4)
  let free := fun (g : List Nat) => (g.filter fun c => s.cores[coreIx c].pallet.isNone).length
  gs.foldl (fun b g => if b = [] ∨ free b < free g then g else b) []

/-- The cores that CORE_RESERVATION is due to reserve: after 8 backfills, for a gang of more than one (R374). -/
def State.reserveDue (s : State) : List Nat :=
  match s.blocked.bind fun b => s.launch? b.1 with
  | some l => if 8 ≤ s.backfills ∧ s.reserved = [] ∧ l.gang ≠ 1 then s.reserveFor l else []
  | none => []

/-- One decision (R372): a blocked gang that fits goes first, the others compete without it. No ninth backfill comes before
the reservation (R374). -/
def State.decide (s : State) : State :=
  let all := s.cands
  let blocked := all.find? (·.isBlocked s)
  let best := fun (xs : List Cand) => xs.foldl (fun m x => min m x.prio) 4
  let s := match blocked with
    | some b => if best all < b.prio then s.unblock else s
    | none => s.unblock
  match (if s.blocked.isSome then blocked.bind fun b => (s.fit b true).map fun cs => (b, cs) else none) with
  | some (b, cs) =>
    let s := { s with burst := if b.queue = s.rotation then s.burst + 1 else s.burst }
    s.unblock.placeGang b cs
  | none =>
    if s.reserveDue ≠ [] then s else
    let rest := all.filter fun x => !x.isBlocked s
    let class_ := rest.filter (·.prio == best rest)
    s.tryQueues class_ (s.queueOrder (class_.map (·.queue)).eraseDups)

/-- PLACEMENT_DECISION. -/
def execPlacementDecision (s : State) : Host.Outcome State Fault Refusal :=
  .next { s.retirePallets.decide with epoch := s.epoch + 1 }

/-- CORE_RESERVATION: after 8 backfills (R374). -/
def State.reserve (s : State) : State := if s.reserveDue = [] then s else { s with reserved := s.reserveDue }

def execCoreReservation (s : State) : Host.Outcome State Fault Refusal := .next s.reserve

/-! ## Stream copies (R367, R375) -/

/-- Reading a stream's source with the LC's rights (source 6): its bytes or a cause. -/
def State.streamRead (s : State) (a : Agent) (va n : Nat) : Except Nat (List Byte) × State := s.lcRead a 6 va n

/-- A stream copy of a pallet is over; with the last one a staged pallet is READY. -/
def Pallet.streamOver (p : Pallet) (k : Nat) : Pallet :=
  let left := p.streams.eraseIdx k
  { p with streams := left, board := if left = [] ∧ p.board = .staged then .ready else p.board }

/-- Stream copy k of a core's pallet completes, or fails and with it the gang. A gang that has failed already joins as its
copies end (R375). -/
def State.streamComplete (s : State) (i : Fin 192) (k : Nat) : State :=
  match s.cores[i].pallet with
  | none => s
  | some p =>
    match p.streams[k]? with
    | none => s
    | some (src, size, off) =>
      let a : Agent := { s.lcAgent p.ctx (dieOf i.val) with root := s.cores[i].ptroot }
      let r := s.streamRead a src size
      let gone := fun (c : Core) => { c with pallet := some (p.streamOver k) }
      match r.1 with
      | .error c =>
        let t := r.2.modCoreAt i gone
        if p.board = .staged then t.gangFailed p.launch p.gang i (BitVec.ofNat 8 c) else t.retirePallets
      | .ok bs =>
        let t := (r.2.modCoreAt i fun c => gone (c.writeScratch off bs)).modLaunch p.launch fun l =>
          { l with bytes := l.bytes + size }
        (t.gangReady p.launch p.gang).retirePallets

end Sys2Proof.Machine
end

