-- ==== Sys2Proof/Machine/Load.lean ====
section
/-! DEFINITION. Code objects: SHA3-256, the parts of an object, the checks of a load, symbols and relocations
(R158 to R165, R368). -/

namespace Sys2Proof.Machine

/-! ## SHA3-256 -/

/-- A lane of the 25; lane (x, y) is number x + 5y. -/
def lane (a : List (BitVec 64)) (x y : Nat) : BitVec 64 := a.getD (x % 5 + 5 * (y % 5)) 0

/-- The rotation of each lane. -/
def keccakRot : List Nat :=
  [0, 1, 62, 28, 27, 36, 44, 6, 55, 20, 3, 10, 43, 25, 39, 41, 45, 15, 21, 8, 18, 2, 61, 56, 14]

def keccakRc : List (BitVec 64) :=
  [0x0000000000000001, 0x0000000000008082, 0x800000000000808A, 0x8000000080008000, 0x000000000000808B,
   0x0000000080000001, 0x8000000080008081, 0x8000000000008009, 0x000000000000008A, 0x0000000000000088,
   0x0000000080008009, 0x000000008000000A] ++
  [0x000000008000808B, 0x800000000000008B, 0x8000000000008089, 0x8000000000008003, 0x8000000000008002,
   0x8000000000000080, 0x000000000000800A, 0x800000008000000A, 0x8000000080008081, 0x8000000000008080,
   0x0000000080000001, 0x8000000080008008]

/-- One round of Keccak-f[1600]. -/
def keccakRound (a : List (BitVec 64)) (rc : BitVec 64) : List (BitVec 64) :=
  let c := (List.range 5).map fun x => lane a x 0 ^^^ lane a x 1 ^^^ lane a x 2 ^^^ lane a x 3 ^^^ lane a x 4
  let t := a.mapIdx fun i v => v ^^^ c.getD ((i % 5 + 4) % 5) 0 ^^^ (c.getD ((i % 5 + 1) % 5) 0).rotateLeft 1
  let r := t.mapIdx fun i v => v.rotateLeft (keccakRot.getD i 0)
  let b := (List.range 25).map fun i => lane r (i % 5 + 3 * (i / 5)) (i % 5)
  let n := b.mapIdx fun i v => v ^^^ (~~~lane b (i % 5 + 1) (i / 5) &&& lane b (i % 5 + 2) (i / 5))
  match n with
  | v :: vs => (v ^^^ rc) :: vs
  | [] => []

def keccakF (a : List (BitVec 64)) : List (BitVec 64) := keccakRc.foldl keccakRound a

/-- Blocks of 136 bytes absorbed one after another. -/
def absorb (a : List (BitVec 64)) (bs : List Byte) : Nat → List (BitVec 64)
  | 0 => a
  | n + 1 =>
    let x := a.mapIdx fun i v => if i < 17 then v ^^^ BitVec.ofNat 64 (leOfBytes ((bs.drop (8 * i)).take 8)) else v
    absorb (keccakF x) (bs.drop 136) n

/-- SHA3-256 of bytes. -/
def sha3 (bs : List Byte) : List Byte :=
  let n := bs.length / 136 + 1
  let pad := 136 * n - bs.length
  let tail : List Byte := if pad = 1 then [0x86] else 0x06 :: (List.replicate (pad - 2) 0 ++ [0x80])
  ((absorb (List.replicate 25 0) (bs ++ tail) n).take 4).flatMap fun v => bytesOfLe 8 v.toNat

/-! ## The parts of an object (R158 to R162) -/

/-- A section table entry (R159). -/
structure ObjSection where
  type : Nat
  align : Nat
  info : Nat
  off : Nat
  size : Nat
deriving DecidableEq, Repr

/-- A symbol entry (R160). -/
structure ObjSymbol where
  name : List Byte
  sect : Nat
  bind : Nat
  kind : Nat
  value : Nat
  size : Nat
  dhash : List Byte
deriving DecidableEq, Repr

/-- A relocation entry (R161) of a section: the section that it patches, and the entry's fields. -/
structure ObjReloc where
  sect : Nat
  off : Nat
  sym : Nat
  kind : Nat
  addend : Int
  /-- the entry before it in the table, for a PCLO16: its place and its addend and symbol -/
  hi : Option (Nat × Int × Nat)
deriving DecidableEq, Repr

/-- A parameter or stream entry of a kernel (R162): its name, window, offset and size. -/
structure ObjParam where
  name : List Byte
  win : Nat
  off : Nat
  size : Nat
deriving DecidableEq, Repr

/-- A kernel descriptor with its offset in its section (R162). -/
structure ObjKernel where
  sect : Nat
  off : Nat
  ksym : Nat
  extent : Nat
  params : List ObjParam
  strms : List ObjParam
  desc : Kernel
deriving DecidableEq, Repr

/-- A malformed object may concern a symbol. -/
abbrev Checked := Except Nat

/-- The bytes n from o on of an object, as a number. -/
def objField (b : List Byte) (o n : Nat) : Nat := leOfBytes ((b.drop o).take n)

/-- The header (R158). -/
def headerOk (h : List Byte) : Bool :=
  objField h 0 4 == 0x4F584C4B && objField h 4 2 == 1 && objField h 6 2 == 0 && objField h 0x1C 4 == 0 &&
  1 ≤ objField h 8 4 && objField h 8 4 ≤ 4096 && objField h 12 4 % 8 == 0 &&
  (objField h 0x18 4 == 0 || objField h 0x18 4 == 2420) && 64 ≤ objField h 0x10 8 &&
  decide (objField h 12 4 + 32 * objField h 8 4 ≤ objField h 0x10 8)

/-- A section table entry's fields. -/
def sectionAt (b : List Byte) (i : Nat) : ObjSection :=
  let o := objField b 12 4 + 32 * i
  { type := objField b (o + 4) 1, align := objField b (o + 6) 1, info := objField b (o + 8) 4,
    off := objField b (o + 12) 8, size := objField b (o + 20) 8 }

/-- Sections that a load writes: TEXT, DATA, RODATA, BSS and KERNEL (R368). -/
def ObjSection.placed (x : ObjSection) : Bool := x.type == 8 || (1 ≤ x.type && x.type ≤ 4)

def sectionOk (b : List Byte) (ss : List ObjSection) (i : Nat) (x : ObjSection) : Bool :=
  let o := objField b 12 4 + 32 * i
  let target := fun (p : ObjSection → Bool) => (ss[x.info]?).any p
  objField b (o + 5) 1 == 0 && objField b (o + 7) 1 == 0 && objField b (o + 28) 4 == 0 &&
  1 ≤ x.type && x.type ≤ 8 && x.align ≤ 20 && (x.type != 1 || 2 ≤ x.align) &&
  (if x.type = 4 then x.off == 0 else decide (x.off + x.size ≤ b.length)) &&
  (if x.type = 7 then target ObjSection.placed else if x.type = 5 then target (·.type == 6) else x.info == 0) &&
  (x.type != 5 || x.size % 64 == 0) && (x.type != 7 || x.size % 24 == 0)

/-- A zero-terminated string at an offset of a string table. -/
def stringAt (b : List Byte) (tab : ObjSection) (o : Nat) : Option (List Byte) :=
  let rest := ((b.drop tab.off).take tab.size).drop o
  let name := rest.takeWhile (· != 0)
  if name.length < rest.length then some name else none

def ObjSymbol.defined (x : ObjSymbol) : Bool := x.sect != 0

/-- Symbol i of a symbol table, or none where a field is malformed: among these an undefined symbol that is neither extern
nor weak, or that has a VALUE or SIZE (log 89). -/
def symbolAt (b : List Byte) (ss : List ObjSection) (tab str : ObjSection) (i : Nat) : Option ObjSymbol :=
  let o := tab.off + 64 * i
  let f := fun k n => objField b (o + k) n
  match stringAt b str (f 0 4) with
  | none => none
  | some name =>
    let x : ObjSymbol :=
      { name := name, sect := f 4 2, bind := f 6 1, kind := f 7 1, value := f 12 8, size := f 20 8,
        dhash := (b.drop (o + 32)).take 32 }
    let home := if x.sect = 0 then none else ss[x.sect - 1]?
    if f 8 4 ≠ 0 ∨ f 28 4 ≠ 0 ∨ 3 < x.bind ∨ 3 < x.kind then none
    else if x.sect = 0 then
      (if (x.bind == 2 || x.bind == 3) && x.value == 0 && x.size == 0 && x.dhash.all (· == 0) then some x else none)
    else if x.bind = 3 then none
    else if home.any fun h => h.placed && decide (x.value + x.size ≤ h.size) then some x
    else none

/-- Bytes that a relocation kind patches. -/
def relocBytes (kind : Nat) : Nat := if kind = 1 then 8 else 4

def signed64 (n : Nat) : Int := (BitVec.ofNat 64 n).toInt

/-- Entry i of a RELOC section, or none. -/
def relocAt (b : List Byte) (ss : List ObjSection) (nsym : Nat) (tab : ObjSection) (i : Nat) : Option ObjReloc :=
  let o := tab.off + 24 * i
  let f := fun k n => objField b (o + k) n
  let g := fun k n => objField b (o - 24 + k) n
  let size := ((ss[tab.info]?).map (·.size)).getD 0
  if f 13 3 ≠ 0 ∨ f 12 1 < 1 ∨ 6 < f 12 1 ∨ nsym ≤ f 8 4 ∨ size < f 0 8 + relocBytes (f 12 1) then none
  else if f 12 1 = 6 then
    if i ≠ 0 ∧ g 12 1 = 5 then
      some { sect := tab.info, off := f 0 8, sym := g 8 4, kind := 6, addend := signed64 (f 16 8),
             hi := some (g 0 8, signed64 (g 16 8), g 8 4) }
    else none
  else some { sect := tab.info, off := f 0 8, sym := f 8 4, kind := f 12 1, addend := signed64 (f 16 8), hi := none }

/-- All of a list, or none. -/
def allSome {α : Type} : List (Option α) → Option (List α)
  | [] => some []
  | none :: _ => none
  | some x :: xs => (allSome xs).map (x :: ·)

/-- A name in the first string table; without one only NAME 0 stands (log 89). -/
def nameAt (b : List Byte) (str : Option ObjSection) (n : Nat) : Option (List Byte) :=
  match str with
  | some t => stringAt b t n
  | none => if n = 0 then some [] else none

/-- A parameter or stream entry at an offset of the object. -/
def paramAt (b : List Byte) (str : Option ObjSection) (strm : Bool) (o : Nat) : Option ObjParam :=
  let f := fun k n => objField b (o + k) n
  if (if strm then f 4 4 != 0 else decide (3 < f 4 1) || f 5 3 != 0) then none
  else (nameAt b str (f 0 4)).map fun name => { name := name, win := f 4 1, off := f 8 4, size := f 12 4 }

/-- Whether a symbol is a kernel of this object whose code lies within its section. -/
def kernelSym (ss : List ObjSection) (extent : Nat) (y : ObjSymbol) : Bool :=
  y.defined && y.kind == 3 && (ss[y.sect - 1]?).any fun h => decide (y.value + extent ≤ h.size)

/-- The descriptors of a KERNEL section from an offset on; each step takes one. -/
def kernelsFrom (b : List Byte) (ss : List ObjSection) (str : Option ObjSection) (sect : Nat) (tab : ObjSection)
    (syms : List ObjSymbol) : Nat → Nat → Option (List ObjKernel)
  | 0, o => if o = tab.size then some [] else none
  | k + 1, o =>
    if o = tab.size then some []
    else if tab.size < o + 32 then none
    else
      let f := fun p n => objField b (tab.off + o + p) n
      let np := f 24 2
      let ns := f 26 2
      let next := o + 32 + 16 * (np + ns)
      let entry := fun strm i => paramAt b str strm (tab.off + o + 32 + 16 * i)
      let ps := allSome ((List.range np).map (entry false))
      let sts := allSome ((List.range ns).map fun i => entry true (np + i))
      let check := bitOf (f 21 1) 0
      let d : Kernel :=
        { ctx := 0, va := 0, entry := 0, shape := f 16 1, nvc := f 17 1, fwc := f 18 1, acole := f 19 1, scol8 := f 20 1,
          check := check, maxv := f 22 1, maxew := f 23 1,
          streams := (sts.getD []).map fun x => { off := x.off, size := x.size }, sym := none }
      if tab.size < next ∨ f 28 4 ≠ 0 ∨ f 4 4 ≠ 0 ∨ 1 < f 21 1 ∨ 3 < d.shape ∨ 3 < d.nvc ∨ 2 < d.fwc ∨ 1 < d.acole ∨
          127 < d.scol8 ∨ 31 < d.maxv ∨ (!check ∧ (d.maxv ≠ 0 ∨ d.maxew ≠ 0)) ∨
          !((syms[f 0 4]?).any (kernelSym ss (f 8 8))) ∨ ps.isNone ∨ sts.isNone then none
      else (kernelsFrom b ss str sect tab syms k next).map
        ({ sect := sect, off := o, ksym := f 0 4, extent := f 8 8, params := ps.getD [], strms := sts.getD [], desc := d } :: ·)

/-- A code object taken apart. -/
structure CodeObject where
  sections : List ObjSection
  symbols : List ObjSymbol
  relocs : List ObjReloc
  kernels : List ObjKernel
deriving DecidableEq, Repr

/-- Whether two definitions of the object share a name in the context's table, global or weak (R164, log 89). -/
def twiceDefined : List ObjSymbol → Bool
  | [] => false
  | x :: xs => (x.defined && x.bind != 0 && xs.any fun y => y.defined && y.bind != 0 && y.name == x.name) || twiceDefined xs

/-- The parts of an object of TOTAL bytes, or BADFMT with the index of the symbol concerned (R163 order 1): the first malformed
symbol of the table; 0 for all else, two definitions of one name among it (log 112). -/
def parseObject (b : List Byte) : Checked CodeObject :=
  let ss := (List.range (objField b 8 4)).map (sectionAt b)
  let tabs := ss.filter (·.type == 5)
  let str := ss.find? (·.type == 6)
  let named := fun i => (nameAt b str (objField b (objField b 12 4 + 32 * i) 4)).isSome
  if !(List.range ss.length).all (fun i => (ss[i]?).any (sectionOk b ss i) && named i) then .error 0
  else if 1 < tabs.length then .error 0
  else
    let raw := match tabs with
      | t :: _ => (List.range (t.size / 64)).map fun i => (ss[t.info]?).bind fun u => symbolAt b ss t u i
      | [] => []
    match allSome raw with
    | none => .error (raw.findIdx (·.isNone))
    | some syms =>
      let rels := (ss.filter (·.type == 7)).flatMap fun t =>
        (List.range (t.size / 24)).map fun i => relocAt b ss syms.length t i
      let kers := (List.range ss.length).map fun i =>
        match ss[i]? with
        | some t => if t.type = 8 then kernelsFrom b ss str i t syms (t.size / 32) 0 else some []
        | none => some []
      match allSome rels, allSome kers with
      | some rs, some ks =>
        if twiceDefined syms then .error 0
        else .ok { sections := ss, symbols := syms, relocs := rs, kernels := ks.flatten }
      | _, _ => .error 0

/-! ## Relocation (R161) -/

/-- An arithmetic shift right by 16. -/
def hiPart (v : Int) : Int := (v + 0x8000) / 65536

def fitsSigned (v : Int) (bits : Nat) : Bool := decide (-(2 ^ (bits - 1) : Int) ≤ v) && decide (v < 2 ^ (bits - 1))

/-- The value that a relocation writes, where it keeps its limit. -/
def RelocUse.value (u : RelocUse) (s : Nat) : Option Nat :=
  let sum : Int := s + u.addend
  let v := sum - u.place
  if u.kind = 1 then some (sum % 2 ^ 64).toNat
  else if u.kind = 2 then (if 0 ≤ sum ∧ sum < 2 ^ 32 then some sum.toNat else none)
  else if u.kind = 3 then (if v % 4 = 0 ∧ fitsSigned (v / 4) 13 then some (v / 4 % 2 ^ 13).toNat else none)
  else if u.kind = 4 then (if v % 4 = 0 ∧ fitsSigned (v / 4) 21 then some (v / 4 % 2 ^ 21).toNat else none)
  else if u.kind = 5 then (if fitsSigned (hiPart v) 21 then some (hiPart v % 2 ^ 21).toNat else none)
  else match u.hi with
    | some (p, a) =>
      let w : Int := s + a - p
      if fitsSigned (hiPart w) 21 then some ((w - hiPart w * 65536) % 65536).toNat else none
    | none => none

/-- Width of the field of the patched word that a kind writes, at bit 0 (R139). -/
def relocField (kind : Nat) : Nat := if kind = 3 then 13 else if kind = 6 then 16 else 21

/-- The patched bytes, from the bytes that stand there. -/
def RelocUse.patch (u : RelocUse) (old : Nat) (v : Nat) : List Byte :=
  if u.kind = 1 then bytesOfLe 8 v
  else if u.kind = 2 then bytesOfLe 4 v
  else bytesOfLe 4 (setBits old 0 (relocField u.kind) v)

/-! ## The load's accesses (R40, R368) -/

/-- Physical addresses of n bytes that the LC is to write, or a cause. -/
def State.lcPlaces (s : State) (a : Agent) (va : Nat) : Nat → Except Nat (List Nat) × State
  | 0 => (.ok [], s)
  | n + 1 =>
    let r := s.lcXlat a { kind := .store, source := 2 } va
    match r.1 with
    | .error c => (.error c, r.2)
    | .ok pa =>
      let t := r.2.lcPlaces a (va + 1) n
      match t.1 with
      | .error c => (.error c, t.2)
      | .ok ps => (.ok (pa :: ps), t.2)

/-- Bytes that the LC writes at translated addresses. -/
def State.lcPut (s : State) (va : Nat) (ps : List Nat) (bs : List Byte) : State :=
  (pageParts va bs.length).foldl (fun t q =>
    t.traffic .low .write (ps.getD (q.1 - va) 0) q.2 ((bs.drop (q.1 - va)).take q.2)) (s.storeCells (ps.zip bs))

/-- Bytes written with the LC's rights; an access that faults writes nothing. -/
def State.lcWrite (s : State) (a : Agent) (va : Nat) (bs : List Byte) : Bool × State :=
  let r := s.lcPlaces a va bs.length
  match r.1 with
  | .error _ => (false, r.2)
  | .ok ps => (true, r.2.lcPut va ps bs)

/-- A relocation applied in memory: the bytes are read, and written as all that the LC writes. -/
def State.applyUse (s : State) (a : Agent) (u : RelocUse) (v : Nat) : Bool × State :=
  let r := s.lcPlaces a u.place (relocBytes u.kind)
  match r.1 with
  | .error _ => (false, r.2)
  | .ok ps =>
    let t := (pageParts u.place (relocBytes u.kind)).foldl (fun t q =>
      t.traffic .low .read (ps.getD (q.1 - u.place) 0) q.2 []) r.2
    (true, t.lcPut u.place ps (u.patch (leOfBytes (ps.map (readByte t.mem))) v))

/-- A list of writes until one faults. -/
def State.each {α : Type} (f : State → α → Bool × State) : State → List α → Bool × State
  | s, [] => (true, s)
  | s, x :: xs => let r := f s x; if r.1 then State.each f r.2 xs else r

/-! ## Symbols (R164) -/

/-- The object with where its sections go. -/
structure Placing where
  obj : CodeObject
  ctx : Nat
  places : List Nat
deriving DecidableEq, Repr

/-- The address that a definition of the object has. -/
def Placing.addr (p : Placing) (x : ObjSymbol) : Nat := p.places.getD (x.sect - 1) 0 + x.value

def Placing.use (p : Placing) (r : ObjReloc) : RelocUse :=
  let base := p.places.getD r.sect 0
  { place := base + r.off, kind := r.kind, addend := r.addend, hi := r.hi.map fun h => (base + h.1, h.2.1) }

def State.symbol? (s : State) (ctx : Nat) (name : List Byte) : Option Symbol :=
  s.symbols.find? fun y => y.ctx == ctx && y.name == name

/-- The definition of a name among the object's own. -/
def Placing.own (p : Placing) (name : List Byte) : Option ObjSymbol :=
  p.obj.symbols.find? fun x => x.defined && x.bind != 0 && x.name == name

/-- Whether a definition of the object takes the place of the context's. -/
def wins (old : Option Symbol) (x : ObjSymbol) : Bool :=
  match old with
  | none => true
  | some e => !e.defined || (!e.strong && x.bind == 1)

/-- What a name stands for after the load; none where it is defined nowhere. -/
def Placing.resolve (p : Placing) (s : State) (name : List Byte) : Option Nat :=
  let old := s.symbol? p.ctx name
  match p.own name with
  | some x => if wins old x then some (p.addr x) else old.map (·.value.toNat)
  | none => old.bind fun e => if e.defined then some e.value.toNat else none

/-- The resolved address of a symbol of the object: a local one is its own, an unresolved weak reference 0. -/
def Placing.value (p : Placing) (s : State) (x : ObjSymbol) : Nat :=
  if x.bind = 0 then p.addr x else (p.resolve s x.name).getD 0

/-- Two strong definitions that differ. -/
def Placing.conflict (p : Placing) (s : State) (x : ObjSymbol) : Bool :=
  x.defined && x.bind == 1 && match s.symbol? p.ctx x.name with
    | some e => e.defined && e.strong && e.dhash != x.dhash
    | none => false

/-- A value in the context that the load would change. -/
def Placing.changes (p : Placing) (s : State) (x : ObjSymbol) : Bool :=
  x.defined && x.bind != 0 && match s.symbol? p.ctx x.name with
    | some e => wins (some e) x && e.value.toNat != p.addr x
    | none => false

/-- A pallet of the context is placed or queued. -/
def State.ctxBusy (s : State) (ctx : Nat) : Bool :=
  (s.launches.any fun l => l.ctx == ctx && l.state != .held && l.pdone + l.pfail != l.count) ||
  (List.finRange 192).any fun i => (s.cores[i].pallet).any (·.ctx == ctx)

/-- The symbols of the context after the load. -/
def Placing.table (p : Placing) (s : State) : List Symbol :=
  let uses := fun (name : List Byte) => p.obj.relocs.filterMap fun r =>
    match p.obj.symbols[r.sym]? with
    | some x => if x.bind != 0 && x.name == name then some (p.use r) else none
    | none => none
  let entry := fun (name : List Byte) =>
    let old := s.symbol? p.ctx name
    let kept : Symbol := old.getD
      { ctx := p.ctx, name := name, strong := false, defined := false, kind := 0, value := 0, dhash := [], uses := [] }
    let next : Symbol := match p.own name with
      | some x => if wins old x then
          { kept with strong := x.bind == 1, defined := true, kind := x.kind, value := BitVec.ofNat 64 (p.addr x), dhash := x.dhash }
        else kept
      | none => kept
    { next with uses := kept.uses ++ uses name }
  let names := ((p.obj.symbols.filter (·.bind != 0)).map (·.name)).eraseDups
  (s.symbols.filter fun y => !(y.ctx == p.ctx && names.contains y.name)) ++ names.map entry

/-! ## Performing a load (R163, R368) -/

/-- The content that a section gets. -/
def sectionBytes (b : List Byte) (x : ObjSection) : List Byte :=
  if x.type = 4 then List.replicate x.size 0 else (b.drop x.off).take x.size

/-- A status: the code and the index of the symbol concerned. -/
abbrev LoadStatus := Nat × Nat

/-- Relocations with the values that they write, or the symbol of the first that breaks its limit. -/
def patchList : List (RelocUse × Nat × Nat) → Except Nat (List (RelocUse × Nat))
  | [] => .ok []
  | (u, s, i) :: rest =>
    match u.value s with
    | none => .error i
    | some v => (patchList rest).map ((u, v) :: ·)

/-- The relocations of the object, and those of earlier loads that a replaced definition concerns. -/
def Placing.patches (p : Placing) (s : State) : List (RelocUse × Nat × Nat) :=
  (p.obj.relocs.map fun r => (p.use r, ((p.obj.symbols[r.sym]?).map (p.value s)).getD 0, r.sym)) ++
  (p.obj.symbols.mapIdx fun i x =>
    if p.changes s x then
      ((s.symbol? p.ctx x.name).map fun e => e.uses.map fun u => (u, p.addr x, i)).getD []
    else []).flatten

/-- Checks 4 to 7 in order, and what is to be patched. Where several symbols fail one of them, the status names the first in
table order (log 112). -/
def Placing.examine (p : Placing) (s : State) : Except LoadStatus (List (RelocUse × Nat)) :=
  let first := fun (q : ObjSymbol → Bool) => p.obj.symbols.findIdx? q
  match first fun x => x.bind == 3 && (p.resolve s x.name).isNone with
  | some i => .error (4, i)
  | none =>
    match first (p.conflict s) with
    | some i => .error (5, i)
    | none =>
      match (if s.ctxBusy p.ctx then first (p.changes s) else none) with
      | some i => .error (6, i)
      | none =>
        match patchList (p.patches s) with
        | .error i => .error (7, i)
        | .ok us => .ok us

/-- The kernels that the load enters in the context's table (R369 order 4). -/
def Placing.kernels (p : Placing) (s : State) : List Kernel :=
  p.obj.kernels.map fun k =>
    { k.desc with
      ctx := p.ctx, va := p.places.getD k.sect 0 + k.off
      entry := BitVec.ofNat 64 (((p.obj.symbols[k.ksym]?).map (p.value s)).getD 0)
      sym := (p.obj.symbols[k.ksym]?).bind fun x => if x.bind = 0 then none else some x.name }

/-- A kernel of an earlier load, by the definition that its name has now (R164). -/
def Placing.reresolve (p : Placing) (s : State) (k : Kernel) : Kernel :=
  if k.ctx ≠ p.ctx then k
  else match k.sym.bind fun n => (p.table s).find? fun y => y.ctx == p.ctx && y.name == n && y.defined with
    | some y => { k with entry := y.value }
    | none => k

/-- The instruction cache of a core after a load for a context (R53): empty in a core of the context's partition. Any other core
that comes to run the object finds it empty when a pallet of the context is staged there (log 65). -/
def Core.afterLoad (c : Core) (ctx : Nat) (mine : Bool) : Core :=
  if mine then { c with icache := [] } else { c with icDue := ctx :: c.icDue.filter (· != ctx) }

/-- Whether n bytes at an address can be written, with what the accesses leave behind. -/
def State.probe (s : State) (a : Agent) (x : Nat × Nat) : Bool × State :=
  let r := s.lcPlaces a x.1 x.2
  (match r.1 with | .ok _ => true | .error _ => false, r.2)

/-- The ranges that a load writes. -/
def Placing.ranges (p : Placing) (us : List (RelocUse × Nat)) : List (Nat × Nat) :=
  ((p.obj.sections.zip p.places).filter (·.1.placed)).map (fun x => (x.2, x.1.size)) ++
  us.map fun u => (u.1.place, relocBytes u.1.kind)

/-- Everything that a load changes, or nothing where an access faults. -/
def Placing.perform (p : Placing) (b : List Byte) (us : List (RelocUse × Nat)) (a : Agent) (s : State) : Bool × State :=
  let secs := (p.obj.sections.zip p.places).filter (·.1.placed)
  let r := State.each (fun t x => t.lcWrite a x.2 (sectionBytes b x.1)) s secs
  if !r.1 then r else
  let q := State.each (fun t x => t.applyUse a x.1 x.2) r.2 us
  if !q.1 then q else
  let ks := p.kernels s
  (true, { q.2 with
    symbols := p.table s
    kernels := ((q.2.kernels.filter fun k => !(k.ctx == p.ctx && ks.any (·.va == k.va))).map (p.reresolve s)) ++ ks
    cores := Vector.ofFn fun i =>
      q.2.cores[i].afterLoad p.ctx (bitOf (s.ctxpart[ix64 p.ctx]).toNat (i.val / 4)) })

/-- A load up to its status; a failed one changes neither the context nor memory. -/
def State.tryLoad (s : State) (r : LoadReq) : LoadStatus × State :=
  let a : Agent := { s.lcAgent r.ctx r.home with sys := true }
  if r.bad then ((1, 0), s) else
  let h := s.lcRead a 1 r.object 64
  match h.1 with
  | .error _ => ((1, 0), h.2)
  | .ok hd =>
  if !headerOk hd then ((1, 0), h.2) else
  let o := h.2.lcRead a 1 r.object (objField hd 0x10 8 + objField hd 0x18 4)
  match o.1 with
  | .error _ => ((1, 0), o.2)
  | .ok all =>
  let b := all.take (objField hd 0x10 8)
  let n := objField hd 8 4
  let t := o.2.lcRead a 1 r.table (8 * n)
  match t.1 with
  | .error _ => ((1, 0), t.2)
  | .ok tab =>
  let places := (List.range n).map fun i => objField tab (8 * i) 8
  match parseObject b with
  | .error i => ((1, i), t.2)
  | .ok obj =>
  let p : Placing := { obj := obj, ctx := r.ctx, places := places }
  if (obj.sections.zip places).any fun x => x.1.placed && !(vaOk x.2 (2 ^ x.1.align)) then ((1, 0), t.2)
  else if sha3 (b.take 32 ++ List.replicate 32 0 ++ b.drop 64) ≠ (b.drop 32).take 32 then ((2, 0), t.2)
  else if (r.signed && objField hd 0x18 4 == 0) ||
      (objField hd 0x18 4 != 0 && !Config.signatureGood t.2.signKey hd (all.drop (objField hd 0x10 8))) then ((3, 0), t.2)
  else match p.examine t.2 with
    | .error e => (e, t.2)
    | .ok us =>
      let w := State.each (fun u x => u.probe a x) t.2 (p.ranges us)
      if !w.1 then ((1, 0), w.2) else
      let q := p.perform b us a w.2
      if q.1 then ((0, 0), q.2) else ((1, 0), w.2)

/-- The status block (R163). -/
def statusBytes (x : LoadStatus) : List Byte := bytesOfLe 4 x.1 ++ bytesOfLe 4 x.2 ++ bytesOfLe 8 0

/-- A load may run when it is the context's oldest and no launch before it in its queue waits for cores (R165, R368). -/
def State.loadReady (s : State) (r : LoadReq) : Bool :=
  ((s.loads.find? (·.ctx == r.ctx)).map (·.id)) == some r.id && (s.queueHead r.queue).isNone

/-- CODE_OBJECT_LOAD: the status block is written and the signal is incremented. -/
def State.loadObject (s : State) (req : Nat) : State :=
  match s.loads.find? (·.id == req) with
  | none => s
  | some r =>
    if !s.loadReady r then s else
    let x := s.tryLoad r
    let a : Agent := { s.lcAgent r.ctx r.home with sys := true }
    let t := (x.2.lcWrite a r.status (statusBytes x.1)).2
    { t with loads := t.loads.filter (·.id != req), epoch := t.epoch + 1 }.signalAdd r.ctx r.home r.signal

def execCodeObjectLoad (req : Nat) (s : State) : Host.Outcome State Fault Refusal := .next (s.loadObject req)

end Sys2Proof.Machine
end

