-- ==== Sys2Proof/Machine/Image.lean ====
section
/-! DEFINITION. The bytes of a context image: its header and section table (R404), its sections (R405), the short forms of
columns (R406), and how a restore reads them (R407, R408). The spec names the content of the sections 0, 5, 6 and 7 and not
its order: that is the model's (log 96). -/

namespace Sys2Proof.Machine

/-! ## How values become bytes and are read back -/

/-- A kind of content as bytes, and its reading from the front of some bytes. -/
structure Codec (α : Type) where
  enc : α → List Byte
  dec : List Byte → α × List Byte

/-- A bit vector in whole bytes, least significant first. -/
def Codec.bits (w : Nat) : Codec (BitVec w) where
  enc v := bytesOfLe ((w + 7) / 8) v.toNat
  dec bs := (BitVec.ofNat w (leOfBytes (bs.take ((w + 7) / 8))), bs.drop ((w + 7) / 8))

/-- A number in 8 bytes. -/
def Codec.nat : Codec Nat where
  enc v := bytesOfLe 8 v
  dec bs := (leOfBytes (bs.take 8), bs.drop 8)

/-- The same content seen as another type. -/
def Codec.iso {α β : Type} (c : Codec α) (f : α → β) (g : β → α) : Codec β where
  enc b := c.enc (g b)
  dec bs :=
    let r := c.dec bs
    (f r.1, r.2)

/-- One content after another. -/
def Codec.and {α β : Type} (a : Codec α) (b : Codec β) : Codec (α × β) where
  enc p := a.enc p.1 ++ b.enc p.2
  dec bs :=
    let x := a.dec bs
    let y := b.dec x.2
    ((x.1, y.1), y.2)

def Codec.bool : Codec Bool := (Codec.bits 1).iso (· == 1) fun b => if b then 1 else 0

/-- A byte 0 for nothing, 1 before something. -/
def Codec.option {α : Type} (c : Codec α) : Codec (Option α) where
  enc o := match o with
    | none => [0]
    | some a => 1 :: c.enc a
  dec bs := match bs with
    | [] => (none, [])
    | b :: rest =>
      if b = 0 then (none, rest)
      else
        let r := c.dec rest
        (some r.1, r.2)

/-- n contents in a row. -/
def Codec.decN {α : Type} (c : Codec α) : Nat → List Byte → List α × List Byte
  | 0, bs => ([], bs)
  | n + 1, bs =>
    let x := c.dec bs
    let r := c.decN n x.2
    (x.1 :: r.1, r.2)

/-- A list behind its length. -/
def Codec.list {α : Type} (c : Codec α) : Codec (List α) where
  enc l := bytesOfLe 4 l.length ++ l.flatMap c.enc
  dec bs := c.decN (leOfBytes (bs.take 4)) (bs.drop 4)

/-- The elements of a vector; z stands for none. -/
def Codec.vec {α : Type} (n : Nat) (z : α) (c : Codec α) : Codec (Vector α n) where
  enc v := v.toList.flatMap c.enc
  dec bs :=
    let l := c.decN n bs
    (Vector.ofFn fun i => l.1.getD i.val z, l.2)

/-! ## Section 0: harts -/

def threadCodec : Codec Thread :=
  ((Codec.vec 32 0 (.bits 64)).and ((Codec.bits 64).and ((Codec.bits 2).and (.bits 5)))).iso
    (fun p => { x := p.1, pc := p.2.1, frm := p.2.2.1, fflags := p.2.2.2 })
    fun t => (t.x, t.pc, t.frm, t.fflags)

def heldCodec : Codec HeldError :=
  ((Codec.bits 8).and (.bits 64)).iso (fun p => { cause := p.1, faddr := p.2 }) fun e => (e.cause, e.faddr)

def tierFailCodec : Codec (Option (BitVec 8 × Word)) := Codec.option ((Codec.bits 8).and (.bits 64))

/-- The lives of a hart, numbered. -/
def hartStates : List HartState := [.absent, .running, .ended, .halted, .taken, .failed, .killed]

def hartStateCodec : Codec HartState :=
  (Codec.bits 8).iso (fun b => hartStates.getD b.toNat .absent) fun x => BitVec.ofNat 8 (hartStates.idxOf x)

/-- The CSRs of a hart that no trap writes (R348). -/
def csrCodec : Codec (BitVec 17 × BitVec 3 × BitVec 3 × BitVec 40 × BitVec 32 × BitVec 16 × Vector Word 4 × Word) :=
  (Codec.bits 17).and ((Codec.bits 3).and ((Codec.bits 3).and ((Codec.bits 40).and ((Codec.bits 32).and
    ((Codec.bits 16).and ((Codec.vec 4 0 (.bits 64)).and (.bits 64)))))))

/-- The trap record (R390, R391, R149), and whether it is being replayed. -/
def recordCodec : Codec (Word × Word × Word × Word × Word × Vector (BitVec 4) 8 × Vector (BitVec 32) 8 × Bool) :=
  (Codec.bits 64).and ((Codec.bits 64).and ((Codec.bits 64).and ((Codec.bits 64).and ((Codec.bits 64).and
    ((Codec.vec 8 0 (.bits 4)).and ((Codec.vec 8 0 (.bits 32)).and .bool))))))

/-- Privilege, INH, the hart's life, what it meets when it runs again, and whether its vector state is live (R401). -/
def statusCodec : Codec (Bool × Bool × HartState × Bool × Option HeldError × Option (BitVec 8 × Word) × Bool × Bool ×
    Option (BitVec 32)) :=
  Codec.bool.and (Codec.bool.and (hartStateCodec.and (Codec.bool.and ((Codec.option heldCodec).and
    (tierFailCodec.and (Codec.bool.and (Codec.bool.and (.option (.bits 32)))))))))

/-- A hart of an image. Its VC and landed bits lie in section 1; an arrival that still counts, at a BAR or an RDV, is not
among its bytes: the Launch Controller keeps it beside the image (`Wait.kept`, log 34). -/
def hartCodec : Codec Hart :=
  (threadCodec.and (csrCodec.and (recordCodec.and statusCodec))).iso
    (fun p =>
      let (th, (vl, vseg, cmask, dcthr, kvfthr, vtestint, smbs, tvec),
        (tcause, tpc, tiaddr, tfaddr, tpfx, elag, estart, replaying), sys, inh, st, strm, held, tierFail, bare, verd, pfx) := p
      { Hart.reset with
        th := th, vl := vl, vseg := vseg, cmask := cmask, dcthr := dcthr, kvfthr := kvfthr, vtestint := vtestint, smbs := smbs,
        tvec := tvec, tcause := tcause, tpc := tpc, tiaddr := tiaddr, tfaddr := tfaddr, tpfx := tpfx, elag := elag,
        estart := estart, replaying := replaying, sys := sys, inh := inh, st := st, strmTrap := strm, held := held,
        tierFail := tierFail, bare := bare, verd := verd, pfx := pfx })
    fun h => (h.th, (h.vl, h.vseg, h.cmask, h.dcthr, h.kvfthr, h.vtestint, h.smbs, h.tvec),
      (h.tcause, h.tpc, h.tiaddr, h.tfaddr, h.tpfx, h.elag, h.estart, h.replaying),
      h.sys, h.inh, h.st, h.strmTrap, h.held, h.tierFail, h.bare, h.verd, h.pfx)

def hartsCodec : Codec (Vector Hart 8) := Codec.vec 8 .reset hartCodec

/-! ## Sections 5, 6 and 7: the slab stream, lists, tags -/

def hartNoCodec : Codec (Fin 8) := (Codec.bits 8).iso (fun b => vecIx b.toNat) fun h => BitVec.ofNat 8 h.val

def streamCodec : Codec Stream :=
  (threadCodec.and (Codec.bool.and (hartNoCodec.and (Codec.bool.and (Codec.bool.and ((Codec.bits 8).and ((Codec.bits 8).and
    ((Codec.bits 64).and ((Codec.option heldCodec).and (Codec.bool.and ((Codec.option .bool).and tierFailCodec))))))))))).iso
    (fun p =>
      let (th, running, partner, stopped, taken, cause, sub, faddr, held, ended, rdv, tierFail) := p
      { th := th, running := running, partner := partner, stopped := stopped, taken := taken, cause := cause, sub := sub,
        faddr := faddr, held := held, ended := ended, rdv := rdv, sleep := none, tierFail := tierFail })
    fun x => (x.th, x.running, x.partner, x.stopped, x.taken, x.cause, x.sub, x.faddr, x.held, x.ended, x.rdv, x.tierFail)

def fmtCodec : Codec Fmt := ((Codec.bits 4).and .bool).iso (fun p => { code := p.1, tb8 := p.2 }) fun f => (f.code, f.tb8)

def blockCodec : Codec Block :=
  ((Codec.bits 8).and ((Codec.bits 8).and (Codec.list (.option (.bits 8))))).iso
    (fun p => { e0 := p.1, e1 := p.2.1, codes := p.2.2 }) fun b => (b.e0, b.e1, b.codes)

def bdataCodec : Codec BData :=
  (fmtCodec.and (Codec.nat.and (Codec.nat.and (Codec.nat.and (Codec.nat.and (Codec.list (.list blockCodec))))))).iso
    (fun p => { fmt := p.1, k := p.2.1, n := p.2.2.1, spmc := p.2.2.2.1, spn := p.2.2.2.2.1, columns := p.2.2.2.2.2 })
    fun d => (d.fmt, d.k, d.n, d.spmc, d.spn, d.columns)

/-- A save waits for loads (R403): a buffer is empty or full. -/
def bbufCodec : Codec BBuf :=
  (Codec.option bdataCodec).iso (fun o => match o with | none => .empty | some d => .full d)
    fun b => match b with | .full d => some d | _ => none

def bindingCodec : Codec Binding :=
  (Codec.nat.and (Codec.nat.and (Codec.nat.and (Codec.nat.and (Codec.nat.and (fmtCodec.and (Codec.bool.and (Codec.bool.and
    (Codec.nat.and ((Codec.bits 4).and (Codec.nat.and .nat))))))))))).iso
    (fun p =>
      let (base, scale, stride, mlen, klen, fmt, pool, mFirst, split, oc, row, col) := p
      { base := base, scale := scale, stride := stride, mlen := mlen, klen := klen, fmt := fmt, pool := pool,
        mFirst := mFirst, split := split, oc := oc, row := row, col := col })
    fun b => (b.base, b.scale, b.stride, b.mlen, b.klen, b.fmt, b.pool, b.mFirst, b.split, b.oc, b.row, b.col)

/-- SLTOL, SLCAP, SLDIV, SLITER, SLPHASE and SLRPREV (R317). -/
def loopCodec : Codec (BitVec 32 × BitVec 8 × BitVec 32 × BitVec 8 × BitVec 5 × BitVec 32) :=
  (Codec.bits 32).and ((Codec.bits 8).and ((Codec.bits 32).and ((Codec.bits 8).and ((Codec.bits 5).and (.bits 32)))))

/-- Section 5 of a core. -/
def slabCodec : Codec (Stream × Vector BBuf 2 × Vector (Option Binding) 4 × Vector (BitVec 32) 8 ×
    (BitVec 32 × BitVec 8 × BitVec 32 × BitVec 8 × BitVec 5 × BitVec 32)) :=
  streamCodec.and ((Codec.vec 2 .empty bbufCodec).and ((Codec.vec 4 none (.option bindingCodec)).and
    ((Codec.vec 8 0 (.bits 32)).and loopCodec)))

/-- A list of section 6: a save waits for its merge (R403). -/
def tkCodec : Codec TkList :=
  (Codec.bool.and (Codec.bool.and (Codec.nat.and ((Codec.list ((Codec.bits 32).and (.bits 32))).and (.option heldCodec))))).iso
    (fun p => { init := p.1, int32 := p.2.1, cap := p.2.2.1, entries := p.2.2.2.1, err := p.2.2.2.2, busy := false, merged := false })
    fun l => (l.init, l.int32, l.cap, l.entries, l.err)

def listsCodec : Codec (Vector TkList 4) := Codec.vec 4 .reset tkCodec

def tagCodec : Codec Tag :=
  ((Codec.bits 8).and ((Codec.bits 64).and .nat)).iso (fun p => { cause := p.1, addr := p.2.1, planes := p.2.2 })
    fun t => (t.cause, t.addr, t.planes)

def failedCodec : Codec FailedSlice :=
  (hartNoCodec.and (Codec.nat.and (Codec.nat.and (Codec.nat.and ((Codec.bits 8).and (.bits 64)))))).iso
    (fun p => { hart := p.1, vreg := p.2.1, slice := p.2.2.1, op := p.2.2.2.1, cause := p.2.2.2.2.1, addr := p.2.2.2.2.2 })
    fun f => (f.hart, f.vreg, f.slice, f.op, f.cause, f.addr)

/-- Section 7 of a core: CTAG, CTERR, what the tags retain, slices whose copies failed, mode tags of the tiles, the count
of operations, and the remap entries by operation. -/
def tagsCodec : Codec (Word × Word × Vector Tag 64 × List FailedSlice × BitVec 8 × Nat × List Nat) :=
  (Codec.bits 64).and ((Codec.bits 64).and ((Codec.vec 64 { cause := 0, addr := 0, planes := 0 } tagCodec).and
    ((Codec.list failedCodec).and ((Codec.bits 8).and (Codec.nat.and (.list .nat))))))

/-! ## Columns in a short form (R59, R406) -/

/-- Values of w bits, packed from bit 0 on. -/
def packFields (w : Nat) (f : List Nat) : Nat := f.foldr (fun v a => v % 2 ^ w + 2 ^ w * a) 0

/-- The low n bits of a value, sign-extended to w bits. -/
def signExt (n w v : Nat) : Nat := if n < w ∧ bitOf v (n - 1) then v % 2 ^ n + (2 ^ w - 2 ^ n) else v % 2 ^ n

/-- The step of an affine column. -/
def stepOf (fw : Nat) (f : List Nat) : Nat := ((f.drop 1).headD 0 + 2 ^ fw - f.headD 0) % 2 ^ fw

/-- The first form that holds, in the order of R406. -/
def saveForm (fw : Nat) (f : List Nat) : SaveForm :=
  if f.all (· == f.headD 0) then .uniform
  else if (f.zipIdx.all fun x => x.1 == (f.headD 0 + x.2 * stepOf fw f) % 2 ^ fw) then .affine
  else match (List.range 7).find? fun w => decide (2 ^ w < fw) && f.all fun v => v == signExt (2 ^ w) fw v with
    | some w => .narrow w
    | none => .raw

/-- FORM and NW of a head. -/
def SaveForm.head : SaveForm → Nat
  | .raw => 0
  | .uniform => 1
  | .affine => 2
  | .narrow k => 3 + 4 * k

/-- The payload of a column of n fields of fw bits. -/
def SaveForm.payload (fw : Nat) (f : List Nat) : SaveForm → List Byte
  | .raw => bytesOfLe (f.length * fw / 8) (packFields fw f)
  | .uniform => bytesOfLe 8 (f.headD 0)
  | .affine => bytesOfLe 8 (f.headD 0) ++ bytesOfLe 8 (stepOf fw f)
  | .narrow k => bytesOfLe ((f.length * 2 ^ k + 63) / 64 * 8) (packFields (2 ^ k) f)

/-- A column: its head and its payload. -/
def columnBytes (fw : Nat) (vc : Bool) (landed : BitVec 32) (form : SaveForm) (f : List Nat) : List Byte :=
  bytesOfLe 8 (form.head + (if vc then 32 else 0) + landed.toNat * 2 ^ 32) ++ form.payload fw f

/-- A column as a restore reads it: its VC bit, its landed bits, the field of each row. -/
structure Column where
  vc : Bool
  landed : BitVec 32
  field : Nat → Nat

/-- A column that a hart left not live (R401). -/
def Column.dead : Column := { vc := false, landed := BitVec.allOnes 32, field := fun _ => 0 }

/-- Reading a column of n fields of fw bits. Bits [31:6] of its head, which a save writes 0, are not looked at: R407 checks the
reserved fields of the header (log 109). -/
def readColumn (fw n : Nat) (bs : List Byte) : Column × List Byte :=
  let head := leOfBytes (bs.take 8)
  let rest := bs.drop 8
  let k := 2 ^ bitsOf head 2 3
  let form := head % 4
  let size := if form = 0 then n * fw / 8 else if form = 1 then 8 else if form = 2 then 16 else (n * k + 63) / 64 * 8
  let v := leOfBytes (rest.take size)
  let field := fun (j : Nat) =>
    if form = 0 then bitsOf v (j * fw) fw
    else if form = 1 then v % 2 ^ fw
    else if form = 2 then (v % 2 ^ 64 + j * (v / 2 ^ 64)) % 2 ^ fw
    else signExt k fw (bitsOf v (j * k) k)
  ({ vc := bitOf head 5, landed := BitVec.ofNat 32 (head / 2 ^ 32), field := field }, rest.drop size)

/-- Reading m columns. -/
def readColumns (fw n : Nat) : Nat → List Byte → List Column × List Byte
  | 0, bs => ([], bs)
  | m + 1, bs =>
    let c := readColumn fw n bs
    let r := readColumns fw n m c.2
    (c.1 :: r.1, r.2)

/-! ## What a core puts into its sections -/

/-- Harts of the partition that left live vector state (R401). -/
def Core.liveHarts (c : Core) : List (Fin 8) :=
  (List.finRange 8).filter fun h => decide (h.val < c.nharts) && !c.harts[h].bare

/-- The rows of a hart. -/
def Core.hartRows (c : Core) (h : Nat) : List Nat := List.range' (c.row0 h) c.vlmax

/-- Field j of a register in the hart's rows, as natural numbers. -/
def Core.fields (c : Core) (h r : Nat) : List Nat := (c.hartRows h).map fun n => (c.row n).get (c.vcol r) c.fw

/-- Section 1: `raws` are the registers that were under a remap entry at the save (R112). -/
def Core.section1 (c : Core) (raws : List (Nat × Nat)) : List Byte :=
  c.liveHarts.flatMap fun h => (List.range c.nv).flatMap fun r =>
    let f := c.fields h.val r
    columnBytes c.fw (c.harts[h].vc.getLsbD r) c.harts[h].landed[regIx r]
      (if raws.contains (h.val, r) then .raw else saveForm c.fw f) f

/-- The columns of a hart's masks and G, then the latches T, C, F0 and F1, of one row. -/
def Row.flagBit (r : Row) (i : Nat) : Bool :=
  if i < 8 then r.bit i else if i = 8 then r.t else if i = 9 then r.c else if i = 10 then r.f0 else r.f1

/-- Section 2: each column uniform or raw. -/
def Core.section2 (c : Core) : List Byte :=
  c.liveHarts.flatMap fun h => (List.range 12).flatMap fun i =>
    let f := (c.hartRows h.val).map fun n => if (c.row n).flagBit i then 1 else 0
    columnBytes 1 false 0 (if f.all (· == f.headD 0) then .uniform else .raw) f

/-- Blocks of rows: a bitmap of those that hold something or that copies are still to land in (`raws`, R112), then those
(R405). A row gives w bits from column lo on. -/
def Core.blockBytes (c : Core) (lo w rows : Nat) (raws : List Nat) : List Byte :=
  if w = 0 then []
  else
    let blocks := (List.range (65536 / rows)).map fun b => (List.range' (b * rows) rows).map fun n => (c.row n).get lo w
    let live := fun (x : List Nat × Nat) => raws.contains x.2 || !x.1.all (· == 0)
    bytesOfLe (65536 / rows / 8) (packFields 1 (blocks.zipIdx.map fun x => if live x then 1 else 0)) ++
      (blocks.zipIdx.filter live).flatMap fun x => bytesOfLe (rows * w / 8) (packFields w x.1)

/-- Reading such blocks: the w bits of a row. -/
def readBlocks (bs : List Byte) (w rows : Nat) (n : Nat) : Nat :=
  if w = 0 then 0
  else
    let map_ := leOfBytes (bs.take (65536 / rows / 8))
    let b := n / rows
    if !bitOf map_ b then 0
    else
      let before := ((List.range b).filter (bitOf map_)).length
      let block := (bs.drop (65536 / rows / 8 + before * (rows * w / 8))).take (rows * w / 8)
      bitsOf (leOfBytes block) (n % rows * w) w

/-- The sections of a core, in order. -/
def Core.sections (c : Core) (raws : List (Nat × Nat)) (blocks : List Nat) : List (List Byte) :=
  [hartsCodec.enc c.harts, c.section1 raws, c.section2, c.blockBytes c.scol0 c.scol 2048 blocks,
   c.blockBytes c.acol0 c.acol 128 [],
   slabCodec.enc (c.stream, c.bb, c.binds, c.coef, c.sltol, c.slcap, c.sldiv, c.sliter, c.slphase, c.slrprev),
   listsCodec.enc c.lists,
   tagsCodec.enc (c.ctag, c.cterr, c.tags, c.failedSlices, c.tileInt, c.nextOp, c.ops.map (·.id))]

/-! ## Header and section table (R404) -/

/-- Where the sections begin: behind the header and the table. -/
def imageHead : Nat := 64 + 8 * 16

/-- The section table's entries from an offset on. -/
def tableBytes : Nat → List (List Byte) → List Byte
  | _, [] => []
  | off, s :: ss =>
    bytesOfLe 8 off ++ bytesOfLe 4 s.length ++ bytesOfLe 4 (crc32c s).toNat ++ tableBytes (off + s.length) ss

/-- FLAGS: LDEP, PGWAIT, USED. -/
def imageFlags (ldep pgwait used : Bool) : Nat :=
  (if ldep then 1 else 0) + (if pgwait then 2 else 0) + (if used then 4 else 0)

/-- The header but for HCRC. -/
def Core.header (c : Core) (p : Pallet) (live flags len : Nat) : List Byte :=
  bytesOfLe 4 0x49584C4B ++ bytesOfLe 2 1 ++ bytesOfLe 1 flags ++ bytesOfLe 1 c.nharts ++ bytesOfLe 8 c.pword.toNat ++
  bytesOfLe 4 c.vlmax ++ bytesOfLe 4 len ++ bytesOfLe 8 0xFF ++ bytesOfLe 8 live ++ bytesOfLe 8 0 ++
  bytesOfLe 2 (rootCtxid c.ptroot).toNat ++ bytesOfLe 1 p.ctx ++ bytesOfLe 1 0 ++ bytesOfLe 4 p.index ++
  bytesOfLe 2 (c.mcver.toNat / 65536) ++ bytesOfLe 2 0

/-- The header with HCRC, before the section table. -/
def sealHeader (head table : List Byte) : List Byte := head ++ bytesOfLe 4 (crc32c (head ++ table)).toNat ++ table

/-- The features that hold live state: VEC, MASK, SCR, TILE, SLAB, LIST, TAG, VERD. A VDOTV in progress is one that a course
has walked in part (R289, R404). -/
def Core.liveBits (c : Core) : Nat :=
  let colsLive := fun (lo w : Nat) => c.rows.any fun p => p.2.get lo w != 0
  let slab := c.stream.running || c.bb.toList.any (· != .empty) || c.binds.toList.any Option.isSome
  (if c.liveHarts != [] then 3 else 0) + (if colsLive c.scol0 c.scol then 4 else 0) +
  (if colsLive c.acol0 c.acol then 8 else 0) + (if slab then 16 else 0) +
  (if c.lists.toList.any (·.init) then 32 else 0) + (if c.ctag != BitVec.allOnes 64 || c.cterr != 0 then 64 else 0) +
  (if c.harts.toList.any fun h => h.st == .taken && !h.bare && h.verd then 128 else 0)

/-- LDEP is 1 exactly when VEC, MASK or VERD is live. -/
def lengthDependent (live : Nat) : Bool := live &&& 0x83 != 0

/-- The image of a core's pallet (R404). -/
def Core.imageBytes (c : Core) (p : Pallet) (raws : List (Nat × Nat)) (blocks : List Nat) (pgwait : Bool) : List Byte :=
  let secs := c.sections raws blocks
  let len := imageHead + (secs.map List.length).sum
  sealHeader (c.header p c.liveBits (imageFlags (lengthDependent c.liveBits) pgwait false) len) (tableBytes imageHead secs) ++
    secs.flatten

/-- The bytes of an image as they follow from what the Launch Controller holds of it. -/
def Image.rendered (m : Image) : List Byte :=
  match m.core.pallet with
  | some p => m.core.imageBytes p m.raws m.rawBlocks m.pgwait
  | none => []

/-- Bytes that the Launch Controller or the pager writes to HBM, through the die caches at low priority (R48, R49, log 90). -/
def State.storeLow (s : State) (pa : Nat) (bs : List Byte) : State := (s.store pa bs).touchHbm .low pa bs.length

/-- What the Launch Controller holds of an image has changed: its bytes follow, in the shadow store or in the spill area
(R113, R409). -/
def State.reseal (s : State) (m : Image) : Image × State :=
  match m.place with
  | none => ({ m with bytes := m.rendered }, s)
  | some a => (m, s.storeLow a m.rendered)

/-- The same for several images. -/
def State.resealAll (s : State) : List Image → List Image × State
  | [] => ([], s)
  | m :: ms =>
    let r := s.reseal m
    let t := r.2.resealAll ms
    (r.1 :: t.1, t.2)

/-! ## Reading an image (R407, R408) -/

/-- A field of an image. -/
def imageField (d : List Byte) (a n : Nat) : Nat := leOfBytes ((d.drop a).take n)

/-- Section s of an image: its offset, its length, its CRC. -/
def sectionEntry (d : List Byte) (s : Nat) : Nat × Nat × Nat :=
  (imageField d (64 + 16 * s) 8, imageField d (72 + 16 * s) 4, imageField d (76 + 16 * s) 4)

def imageSection (d : List Byte) (s : Nat) : List Byte := (d.drop (sectionEntry d s).1).take (sectionEntry d s).2.1

/-- The content of a section does not agree with its entry. -/
def sectionFails (d : List Byte) (s : Nat) : Bool :=
  (imageSection d s).length != (sectionEntry d s).2.1 || (crc32c (imageSection d s)).toNat != (sectionEntry d s).2.2

/-- HCRC does not agree with the header and the section table. -/
def headerFails (d : List Byte) : Bool :=
  (crc32c (d.take 60 ++ (d.drop 64).take 128)).toNat != imageField d 0x3C 4

/-- A reserved field of the header is not zero. -/
def headerReserved (d : List Byte) : Bool :=
  imageField d 6 1 / 8 != 0 || imageField d 0x28 8 != 0 || imageField d 0x33 1 != 0 || imageField d 0x3A 2 != 0

/-- The columns of the live harts of an image: per hart those of section 1 and those of section 2. -/
def readHartColumns (nv fw n : Nat) : List (Fin 8) → List Byte → List Byte → List (Fin 8 × List Column × List Column)
  | [], _, _ => []
  | h :: hs, b1, b2 =>
    let v := readColumns fw n nv b1
    let m := readColumns 1 n 12 b2
    (h, v.1, m.1) :: readHartColumns nv fw n hs v.2 m.2

/-- The value of column i in row j. -/
def columnAt (cs : List Column) (i j : Nat) : Nat := (cs.getD i .dead).field j

/-- A pool row of an image. -/
def imageRow (nv fw scol0 scol acol0 acol : Nat) (vs ms : List Column) (b3 b4 : List Byte) (j n : Nat) : Row :=
  let regs := packFields fw ((List.range nv).map fun r => columnAt vs r j)
  let low := packFields 1 ((List.range 8).map fun i => columnAt ms i j)
  { cols := BitVec.ofNat 1024 (low + 2 ^ 8 * regs + 2 ^ scol0 * readBlocks b3 scol 2048 n + 2 ^ acol0 * readBlocks b4 acol 128 n)
    t := columnAt ms 8 j != 0, c := columnAt ms 9 j != 0, f0 := columnAt ms 10 j != 0, f1 := columnAt ms 11 j != 0, chk := 0 }

/-- The content that the sections of an image give a core of the image's partition word. -/
def Core.load (k : Core) (d : List Byte) : Core :=
  let nhart := imageField d 7 1
  let vlmax := imageField d 0x10 4
  let harts := (hartsCodec.dec (imageSection d 0)).1
  let cols := readHartColumns k.nv k.fw vlmax
    ((List.finRange 8).filter fun h => decide (h.val < nhart) && !harts[h].bare) (imageSection d 1) (imageSection d 2)
  let of := fun (h : Nat) => (cols.find? (·.1.val == h)).map (·.2)
  let row := fun (n : Nat) =>
    let q := (of (n / vlmax)).getD ([], [])
    imageRow k.nv k.fw k.scol0 k.scol k.acol0 k.acol q.1 q.2 (imageSection d 3) (imageSection d 4) (n % vlmax) n
  let slab := (slabCodec.dec (imageSection d 5)).1
  let tags := (tagsCodec.dec (imageSection d 7)).1
  let vcs := fun (h : Nat) => ((of h).getD ([], [])).1
  { k with
    harts := Vector.ofFn fun h =>
      { harts[h] with
        vc := BitVec.ofNat 32 (packFields 1 ((List.range 32).map fun r => if ((vcs h).getD r .dead).vc then 1 else 0))
        landed := Vector.ofFn fun r => ((vcs h).getD r.val .dead).landed
        bare := false }
    rows := (List.range 65536).filterMap fun n => if row n = .zero then none else some (n, row n)
    marks := []
    stream := slab.1, bb := slab.2.1, binds := slab.2.2.1, coef := slab.2.2.2.1
    sltol := slab.2.2.2.2.1, slcap := slab.2.2.2.2.2.1, sldiv := slab.2.2.2.2.2.2.1, sliter := slab.2.2.2.2.2.2.2.1
    slphase := slab.2.2.2.2.2.2.2.2.1, slrprev := slab.2.2.2.2.2.2.2.2.2
    lists := (listsCodec.dec (imageSection d 6)).1
    ctag := tags.1, cterr := tags.2.1, tags := tags.2.2.1, failedSlices := tags.2.2.2.1, tileInt := tags.2.2.2.2.1
    nextOp := max k.nextOp tags.2.2.2.2.2.1 }

end Sys2Proof.Machine
end

