-- ==== Sys2Proof/Machine/Block.lean ====
section
/-! DEFINITION. Twin-exponent blocks (R67 to R70), and the fixed order of sums (R76). -/

namespace Sys2Proof.Machine

/-- The largest magnitude of an element of w bits (R67). -/
def tbMax (w : Nat) : Nat := 2 ^ (w - 2) - 1

/-- SEL, sign and magnitude of an element code (R67). -/
def tbSel (w code : Nat) : Bool := bitOf code (w - 1)
def tbSign (w code : Nat) : Bool := bitOf code (w - 2)
def tbMag (w code : Nat) : Nat := bitsOf code 0 (w - 2)

/-- The value of an element with its exponents: a magnitude 0 is +0 (R67). -/
def tbValue (w e0 e1 code : Nat) : FVal :=
  let e := if tbSel w code then e1 else e0
  if e = 255 then .nan false
  else if tbMag w code = 0 then .fin false 0 0
  else .fin (tbSign w code) (tbMag w code) ((e : Int) - 127)

/-- Decoding an element to a floating type (R69). -/
def tbDecode (t : FFmt) (rm : RMode) (w e0 e1 code : Nat) : Nat × BitVec 5 :=
  match tbValue w e0 e1 code with
  | .fin n m e => t.round rm n m e
  | .inf n => (t.infinity n, 0)
  | .nan _ => (t.nan, 0)

/-- Q of R70: a magnitude scaled to an exponent, rounded to an integer. -/
def tbScale (m : Nat) (e : Int) (ex : Nat) : Nat := (roundTo .rne false m (e + 127 - ex) 0).1

/-- The larger of two finite magnitudes. -/
def magMax (a b : Nat × Int) : Nat × Int :=
  let e := min a.2 b.2
  if a.1 * 2 ^ (a.2 - e).toNat < b.1 * 2 ^ (b.2 - e).toNat then b else a

/-- An encoded block: exponents, codes, flags. -/
structure TbBlock where
  e0 : Nat
  e1 : Nat
  codes : List Nat
  flags : BitVec 5
deriving DecidableEq, Repr

/-- One element of an encoding (R70): its code and flags. -/
def tbCode (w e0 e1 : Nat) (hasnan : Bool) : FVal → Nat × BitVec 5
  | .nan _ => (0, flNV)
  | .inf n => (2 ^ (w - 1) + (if n then 2 ^ (w - 2) else 0) + tbMax w, flOF ||| flNX)
  | .fin n m e =>
    let low := !hasnan && tbScale m e e0 ≤ tbMax w
    let q := if low then tbScale m e e0 else tbScale m e e1
    let ex := if low then e0 else e1
    let exact := m = 0 || (q != 0 && magMax (m, e) (q, (ex : Int) - 127) == (m, e) &&
      magMax (q, (ex : Int) - 127) (m, e) == (q, (ex : Int) - 127))
    ((if low then 0 else 2 ^ (w - 1)) + (if n && q != 0 then 2 ^ (w - 2) else 0) + q,
      (if exact then 0 else flNX) ||| (if m ≠ 0 ∧ q = 0 then flUF else 0))

/-- Encoding 32 values into a block of elements of width w with split s (R70). -/
def tbEncode (w s : Nat) (xs : List FVal) : TbBlock :=
  let amax := xs.foldl (fun a x => match x with | .fin _ m e => magMax a (m, e) | _ => a) (0, 0)
  let e1 := ((List.range 255).find? fun e => tbScale amax.1 amax.2 e ≤ tbMax w).getD 254
  let e0 := e1 - s
  let hasnan := xs.any FVal.isNan
  let cs := xs.map (tbCode w e0 e1 hasnan)
  { e0 := if hasnan then 255 else e0, e1 := e1, codes := cs.map (·.1), flags := cs.foldl (fun a c => a ||| c.2) 0 }

/-- The bytes of a block: E0, E1, the packed elements (R68, R59). -/
def TbBlock.bytes (b : TbBlock) (w : Nat) : List Byte :=
  let packed := b.codes.foldr (fun c acc => acc * 2 ^ w + c) 0
  BitVec.ofNat 8 b.e0 :: BitVec.ofNat 8 b.e1 :: (List.range (4 * w)).map fun i => BitVec.ofNat 8 (packed / 256 ^ i)

/-! ## Trees of operations (R76) -/

/-- One level: neighbours combined, with flags. -/
def treeLevel (op : Nat → Nat → Nat × BitVec 5) : List Nat → List Nat × BitVec 5
  | a :: b :: l =>
    let x := op a b
    let r := treeLevel op l
    (x.1 :: r.1, x.2 ||| r.2)
  | l => (l, 0)

/-- Levels until one node is left: as many as log2 of the number of leaves. -/
def treeRun (op : Nat → Nat → Nat × BitVec 5) : Nat → List Nat → Nat × BitVec 5
  | 0, l => (l.headD 0, 0)
  | k + 1, l =>
    let x := treeLevel op l
    let r := treeRun op k x.1
    (r.1, x.2 ||| r.2)

/-- log2 of the smallest power of two ≥ n. -/
def ceilLog2 (n : Nat) : Nat := if n ≤ 1 then 0 else Nat.log2 (n - 1) + 1

/-- The tree over some leaves, padded with the identity to a power of two; no leaf gives the identity. -/
def treeOf (op : Nat → Nat → Nat × BitVec 5) (ident : Nat) (leaves : List Nat) : Nat × BitVec 5 :=
  if leaves = [] then (ident, 0)
  else
    let k := ceilLog2 leaves.length
    treeRun op k (leaves ++ List.replicate (2 ^ k - leaves.length) ident)

end Sys2Proof.Machine
end

