-- ==== Sys2Proof/Machine/Vector.lean ====
section
/-! DEFINITION. Vector arithmetic, conversion, moves, reductions, scans and length setting (R228 to R264). -/

namespace Sys2Proof.Machine

/-! ## The frame of an element instruction -/

/-- A source register: its number, the width read, and how R74 sees it. -/
structure Src where
  reg : Nat
  width : Nat
  kind : AbnKind
deriving DecidableEq, Repr

def src (r : Reg) (e : BitVec 4) : Src := { reg := r.toNat, width := typeWidth e, kind := abnKind e }

/-- The columns of some sources. -/
def State.srcCols (s : State) (srcs : List Src) : BitVec 1024 := srcs.foldl (fun a x => a ||| s.regCols x.reg x.width) 0

/-- The checks of an instruction that writes one vector register. -/
def vecLegal (d : Reg) (dw : Nat) (srcs : List Src) (wk : Nat) (ok : Bool) : Legal :=
  { pred := true, copy := true, vreads := srcs.map (·.reg), ewOk := ok, vregs := d.toNat :: srcs.map (·.reg),
    width := (srcs.map (·.width)).foldl max dw, wk := wk }

/-- The plan of an instruction that writes elements of width dw of one register. The mask column of a PFX predicate tells
the rows and is not among the columns that the instruction senses (log 88). -/
def State.elemPlan (s : State) (d : Reg) (dw : Nat) (srcs : List Src) (wk : Nat) : Plan :=
  { regs := d.toNat :: s.copyReg ++ srcs.map (·.reg), cols := s.destCols d.toNat dw ||| s.srcCols srcs ||| wkMask wk,
    dcols := s.destCols d.toNat dw, wk := wk, srcs := srcs.map fun x => (x.reg, x.kind), dests := [d.toNat] }

/-- An element per active row: `f` answers the bits and the flags from the state before the instruction. -/
def elemOp (l : Legal) (d : Reg) (dw : Nat) (srcs : List Src) (f : State → Nat → Nat × BitVec 5) : Act Unit := do
  l.check
  let s ← look id
  perRow (s.elemPlan d dw srcs l.wk) fun s j =>
    let r := f s j
    (putElem s.core (d.toNat :: s.copyReg) dw r.1 (s.row j), r.2)

/-- A bit of mask register K per active row (R245, R247): writes to m0 are discarded. -/
def maskOp (l : Legal) (k : BitVec 3) (srcs : List Src) (f : State → Nat → Bool × BitVec 5) : Act Unit := do
  l.check
  let s ← look id
  perRow { regs := srcs.map (·.reg), cols := maskCols k.toNat ||| s.srcCols srcs ||| wkMask l.wk, dcols := maskCols k.toNat,
           wk := l.wk, srcs := srcs.map fun x => (x.reg, x.kind) } fun s j =>
    let r := f s j
    (if k = 0 then s.row j else (s.row j).putBit k.toNat r.1, r.2)

/-- The checks of an instruction that writes a mask register. -/
def maskLegal (srcs : List Src) (wk : Nat) (ok : Bool) : Legal :=
  { pred := true, ewOk := ok, vreads := srcs.map (·.reg), vregs := srcs.map (·.reg),
    width := (srcs.map (·.width)).foldl max 0, wk := wk }

/-! ## Integers (R239 to R245) -/

/-- The exact integer to w bits: wrapped, or saturated to the type (R240). -/
def narrow (sat : Bool) (e : BitVec 4) (v : Int) : Nat :=
  let w := typeWidth e
  let lo : Int := if typeSigned e then -(2 ^ (w - 1)) else 0
  let hi : Int := if typeSigned e then 2 ^ (w - 1) - 1 else 2 ^ w - 1
  let r := if sat then min (max v lo) hi else v
  (r.emod (2 ^ w)).toNat

/-- The integer that an element's bits stand for. -/
def elemInt (e : BitVec 4) (v : Nat) : Int := intOf (typeSigned e) (typeWidth e) v

/-- The second operand: element j of vb, or the low bits of x[vb] (R240). -/
def State.operandB (s : State) (x : BitVec 1) (b : Reg) (w j : Nat) : Nat :=
  if x = 1 then (s.getX b).toNat % 2 ^ w else s.elem b.toNat w j

/-- The vector sources of a two-operand form. -/
def srcs2 (x : BitVec 1) (a b : Reg) (e : BitVec 4) : List Src := if x = 1 then [src a e] else [src a e, src b e]

/-- A two-operand integer instruction on w-bit patterns. -/
def intOp (wk : Nat) (d a b : Reg) (e : BitVec 4) (x : BitVec 1) (f : Nat → Nat → Nat) : Act Unit :=
  let w := typeWidth e
  elemOp (vecLegal d w (srcs2 x a b e) wk (typeInt e)) d w (srcs2 x a b e) fun s j =>
    (f (s.elem a.toNat w j) (s.operandB x b w j), 0)

/-- Workspace of major 0x30 (R241): the X forms, and the subtractions that cannot be done in place. -/
def wkAdd (x : BitVec 1) (e : BitVec 4) (clash : Bool) : Nat := if x = 1 || clash then typeWidth e else 0

def execVadd (d a b : Reg) (e : BitVec 4) (x sf : BitVec 1) (s : State) : Host.Outcome State Fault Refusal :=
  finish (intOp (wkAdd x e false) d a b e x fun p q => narrow (sf == 1) e (elemInt e p + elemInt e q)) s

def execVsub (d a b : Reg) (e : BitVec 4) (x sf : BitVec 1) (s : State) : Host.Outcome State Fault Refusal :=
  finish (intOp (wkAdd x e (d == b && a != b)) d a b e x fun p q => narrow (sf == 1) e (elemInt e p - elemInt e q)) s

def execVrsub (d a b : Reg) (e : BitVec 4) (x sf : BitVec 1) (s : State) : Host.Outcome State Fault Refusal :=
  finish (intOp (wkAdd x e (d == a && a != b)) d a b e x fun p q => narrow (sf == 1) e (elemInt e q - elemInt e p)) s

def execVand (d a b : Reg) (e : BitVec 4) (x : BitVec 1) (s : State) : Host.Outcome State Fault Refusal :=
  finish (intOp (wkAdd x e false) d a b e x fun p q => p &&& q) s

def execVor (d a b : Reg) (e : BitVec 4) (x : BitVec 1) (s : State) : Host.Outcome State Fault Refusal :=
  finish (intOp (wkAdd x e false) d a b e x fun p q => p ||| q) s

def execVxor (d a b : Reg) (e : BitVec 4) (x : BitVec 1) (s : State) : Host.Outcome State Fault Refusal :=
  finish (intOp (wkAdd x e false) d a b e x fun p q => p ^^^ q) s

def execVmin (d a b : Reg) (e : BitVec 4) (x : BitVec 1) (s : State) : Host.Outcome State Fault Refusal :=
  finish (intOp (wkAdd x e false) d a b e x fun p q => if elemInt e p ≤ elemInt e q then p else q) s

def execVmax (d a b : Reg) (e : BitVec 4) (x : BitVec 1) (s : State) : Host.Outcome State Fault Refusal :=
  finish (intOp (wkAdd x e false) d a b e x fun p q => if elemInt e p ≤ elemInt e q then q else p) s

/-- Workspace of VMUL and VMACC (R243). -/
def wkMul (x : BitVec 1) (e : BitVec 4) : Nat := if x = 1 then 2 * typeWidth e else typeWidth e

def execVmul (d a b : Reg) (e : BitVec 4) (x : BitVec 1) (s : State) : Host.Outcome State Fault Refusal :=
  finish (intOp (wkMul x e) d a b e x fun p q => p * q % 2 ^ typeWidth e) s

/-- VMACC reads the old element of vd (R243). -/
def execVmacc (d a b : Reg) (e : BitVec 4) (x : BitVec 1) (s : State) : Host.Outcome State Fault Refusal :=
  finish (
    let w := typeWidth e
    let srcs := src d e :: srcs2 x a b e
    elemOp (vecLegal d w srcs (wkMul x e) (typeInt e)) d w srcs fun s j =>
      ((s.elem d.toNat w j + s.elem a.toNat w j * s.operandB x b w j) % 2 ^ w, 0)) s

/-- A shift by x[vb]; a count of the width or more leaves only the fill (R244). -/
def shiftOp (d a b : Reg) (e : BitVec 4) (f : Nat → Nat → Nat → Nat) : Act Unit :=
  let w := typeWidth e
  elemOp (vecLegal d w [src a e] 0 (typeInt e)) d w [src a e] fun s j =>
    (f w (s.elem a.toNat w j) (min (s.getX b).toNat w), 0)

def execVsll (d a b : Reg) (e : BitVec 4) (s : State) : Host.Outcome State Fault Refusal :=
  finish (shiftOp d a b e fun w v n => v * 2 ^ n % 2 ^ w) s

def execVsrl (d a b : Reg) (e : BitVec 4) (s : State) : Host.Outcome State Fault Refusal :=
  finish (shiftOp d a b e fun _ v n => v / 2 ^ n) s

def execVsra (d a b : Reg) (e : BitVec 4) (s : State) : Host.Outcome State Fault Refusal :=
  finish (shiftOp d a b e fun w v n => ((intOf true w v / 2 ^ n).emod (2 ^ w)).toNat) s

/-- VCMP (R245). -/
def cmpOp (k : BitVec 3) (a b : Reg) (e : BitVec 4) (x : BitVec 1) (f : Int → Int → Bool) : Act Unit :=
  let w := typeWidth e
  maskOp (maskLegal (srcs2 x a b e) (if x = 1 then w else 0) (typeInt e)) k (srcs2 x a b e) fun s j =>
    (f (elemInt e (s.elem a.toNat w j)) (elemInt e (s.operandB x b w j)), 0)

def execVcmpEq (k : BitVec 3) (a b : Reg) (e : BitVec 4) (x : BitVec 1) (s : State) : Host.Outcome State Fault Refusal :=
  finish (cmpOp k a b e x fun p q => p == q) s

def execVcmpNe (k : BitVec 3) (a b : Reg) (e : BitVec 4) (x : BitVec 1) (s : State) : Host.Outcome State Fault Refusal :=
  finish (cmpOp k a b e x fun p q => p != q) s

def execVcmpLt (k : BitVec 3) (a b : Reg) (e : BitVec 4) (x : BitVec 1) (s : State) : Host.Outcome State Fault Refusal :=
  finish (cmpOp k a b e x fun p q => decide (p < q)) s

def execVcmpLe (k : BitVec 3) (a b : Reg) (e : BitVec 4) (x : BitVec 1) (s : State) : Host.Outcome State Fault Refusal :=
  finish (cmpOp k a b e x fun p q => decide (p ≤ q)) s

def execVcmpGt (k : BitVec 3) (a b : Reg) (e : BitVec 4) (x : BitVec 1) (s : State) : Host.Outcome State Fault Refusal :=
  finish (cmpOp k a b e x fun p q => decide (q < p)) s

def execVcmpGe (k : BitVec 3) (a b : Reg) (e : BitVec 4) (x : BitVec 1) (s : State) : Host.Outcome State Fault Refusal :=
  finish (cmpOp k a b e x fun p q => decide (q ≤ p)) s

/-! ## Floating arithmetic (R246 to R248) -/

/-- The floating type of a code 0xC to 0xE. -/
def fmtOf (e : BitVec 4) : FFmt := if e = 12 then .h else if e = 13 then .bh else .f

/-- The mode of a rounding field: 4 takes FRM (R63). -/
def State.mode (s : State) (r : BitVec 3) : RMode := modeOf (if r = 4 then s.th.frm.toNat else r.toNat)

/-- Workspace by type (R248, R255): .h and .bh, or .f. -/
def wkFloat (e : BitVec 4) (small big : Nat) : Nat := if e = 14 then big else small

def floatOp (l : Legal) (d : Reg) (e : BitVec 4) (srcs : List Src) (f : State → Nat → Nat × BitVec 5) : Act Unit :=
  elemOp l d (typeWidth e) srcs f

def floatLegal (d : Reg) (e : BitVec 4) (srcs : List Src) (wk : Nat) (r : BitVec 3) : Legal :=
  { vecLegal d (typeWidth e) srcs wk (typeFloat e) with rsv := rmReserved r }

/-- A two-operand floating instruction; the X forms read x[vb]. -/
def float2 (x : BitVec 1) (wk : Nat) (d a b : Reg) (e : BitVec 4) (r : BitVec 3)
    (f : FFmt → RMode → Nat → Nat → Nat × BitVec 5) : Act Unit :=
  let w := typeWidth e
  floatOp (floatLegal d e (srcs2 x a b e) wk r) d e (srcs2 x a b e) fun s j =>
    f (fmtOf e) (s.mode r) (s.elem a.toNat w j) (s.operandB x b w j)

/-- VFMA: the old element of vd is added (R246). -/
def float3 (x : BitVec 1) (d a b : Reg) (e : BitVec 4) (r : BitVec 3) : Act Unit :=
  let w := typeWidth e
  let srcs := src d e :: srcs2 x a b e
  floatOp (floatLegal d e srcs (wkFloat e 64 128) r) d e srcs fun s j =>
    (fmtOf e).fma (s.mode r) (s.elem a.toNat w j) (s.operandB x b w j) (s.elem d.toNat w j)

def execVfadd (d a b : Reg) (e : BitVec 4) (r : BitVec 3) (s : State) : Host.Outcome State Fault Refusal :=
  finish (float2 0 (wkFloat e 32 64) d a b e r fun t m p q => t.add m p q) s

def execVfsub (d a b : Reg) (e : BitVec 4) (r : BitVec 3) (s : State) : Host.Outcome State Fault Refusal :=
  finish (float2 0 (wkFloat e 32 64) d a b e r fun t m p q => t.add m p (t.negate q)) s

def execVfmul (d a b : Reg) (e : BitVec 4) (r : BitVec 3) (s : State) : Host.Outcome State Fault Refusal :=
  finish (float2 0 (wkFloat e 48 96) d a b e r fun t m p q => t.mul m p q) s

def execVfaddX (d a b : Reg) (e : BitVec 4) (r : BitVec 3) (s : State) : Host.Outcome State Fault Refusal :=
  finish (float2 1 (wkFloat e 32 64) d a b e r fun t m p q => t.add m p q) s

def execVfmulX (d a b : Reg) (e : BitVec 4) (r : BitVec 3) (s : State) : Host.Outcome State Fault Refusal :=
  finish (float2 1 (wkFloat e 48 96) d a b e r fun t m p q => t.mul m p q) s

def execVfma (d a b : Reg) (e : BitVec 4) (r : BitVec 3) (s : State) : Host.Outcome State Fault Refusal :=
  finish (float3 0 d a b e r) s

def execVfmaX (d a b : Reg) (e : BitVec 4) (r : BitVec 3) (s : State) : Host.Outcome State Fault Refusal :=
  finish (float3 1 d a b e r) s

def execVfmin (d a b : Reg) (e : BitVec 4) (s : State) : Host.Outcome State Fault Refusal :=
  finish (float2 0 (wkFloat e 16 32) d a b e 0 fun t _ p q => t.minMax false p q) s

def execVfmax (d a b : Reg) (e : BitVec 4) (s : State) : Host.Outcome State Fault Refusal :=
  finish (float2 0 (wkFloat e 16 32) d a b e 0 fun t _ p q => t.minMax true p q) s

def execVfneg (d a : Reg) (e : BitVec 4) (s : State) : Host.Outcome State Fault Refusal :=
  finish (floatOp (floatLegal d e [src a e] 0 0) d e [src a e] fun s j =>
    let t := fmtOf e
    let v := s.elem a.toNat (typeWidth e) j
    (t.negate v, 0)) s

def execVfabs (d a : Reg) (e : BitVec 4) (s : State) : Host.Outcome State Fault Refusal :=
  finish (floatOp (floatLegal d e [src a e] 0 0) d e [src a e] fun s j =>
    let t := fmtOf e
    let v := s.elem a.toNat (typeWidth e) j
    (v % t.signBit, 0)) s

def fcmpOp (k : BitVec 3) (a b : Reg) (e : BitVec 4) (c : FCond) : Act Unit :=
  let w := typeWidth e
  maskOp (maskLegal [src a e, src b e] 0 (typeFloat e)) k [src a e, src b e] fun s j =>
    (fmtOf e).cmp c (s.elem a.toNat w j) (s.elem b.toNat w j)

def execVfcmpEq (k : BitVec 3) (a b : Reg) (e : BitVec 4) (s : State) : Host.Outcome State Fault Refusal :=
  finish (fcmpOp k a b e .eq) s

def execVfcmpLt (k : BitVec 3) (a b : Reg) (e : BitVec 4) (s : State) : Host.Outcome State Fault Refusal :=
  finish (fcmpOp k a b e .lt) s

def execVfcmpLe (k : BitVec 3) (a b : Reg) (e : BitVec 4) (s : State) : Host.Outcome State Fault Refusal :=
  finish (fcmpOp k a b e .le) s

/-! ## Conversions and functions (R249 to R255) -/

/-- VCVT of one element (R250). -/
def convertElem (sf e : BitVec 4) (m : RMode) (v : Nat) : Nat × BitVec 5 :=
  match typeInt sf, typeInt e with
  | true, true => (narrow false e (elemInt sf v), 0)
  | false, true => (fmtOf sf).toInt m (typeSigned e) (typeWidth e) v
  | true, false => (fmtOf e).ofInt m (elemInt sf v)
  | false, false => (fmtOf sf).convert (fmtOf e) m v

def execVcvt (d a : Reg) (sf e : BitVec 4) (r : BitVec 3) (s : State) : Host.Outcome State Fault Refusal :=
  finish (
    let ints := typeInt sf && typeInt e
    elemOp { vecLegal d (typeWidth e) [src a sf] (if ints then 0 else 64) (e != 15 && sf != 15) with
             rsv := rmReservedFor (!codeNotInteger sf && !codeNotInteger e) r } d (typeWidth e) [src a sf] fun s j =>
      convertElem sf e (s.mode r) (s.elem a.toNat (typeWidth sf) j)) s

/-- The block of row j: the values of va in the active rows of its 32 rows, +0 elsewhere (R251). -/
def State.blockOf (s : State) (a : Reg) (e : BitVec 4) (j : Nat) : List FVal :=
  let act := s.active
  (List.range 32).map fun i =>
    let k := j / 32 * 32 + i
    if act.contains k then (fmtOf e).decode (s.elem a.toNat (typeWidth e) k) else .fin false 0 0

/-- VQTB4 and VQTB8 (R251): codes of cw bits into vd, exponents into vb. -/
def quantise (cw : Nat) (d a b : Reg) (e : BitVec 4) (sf : BitVec 3) : Act Unit := do
  ({ pred := true, ewOk := typeFloat e, vreads := [a.toNat], vregs := [d.toNat, a.toNat, b.toNat], width := typeWidth e,
     wk := 64 } : Legal).check
  trapIf (d == b) 0x0C
  let s ← look id
  let split := if sf = 0 then 3 else sf.toNat
  perRow { regs := [d.toNat, b.toNat, a.toNat],
           cols := s.regCols d.toNat cw ||| s.regCols b.toNat 16 ||| s.regCols a.toNat (typeWidth e) ||| wkMask 64,
           dcols := s.regCols d.toNat cw ||| s.regCols b.toNat 16, wk := 64, srcs := [(a.toNat, abnKind e)],
           dests := [d.toNat, b.toNat] } fun s j =>
    let blk := tbEncode cw split (s.blockOf a e j)
    let c := s.core
    (((s.row j).put (c.vcol d.toNat) cw (blk.codes.getD (j % 32) 0)).put (c.vcol b.toNat) 16 (blk.e0 + 256 * blk.e1),
      blk.flags)

def execVqtb4 (d a b : Reg) (e : BitVec 4) (sf : BitVec 3) (s : State) : Host.Outcome State Fault Refusal :=
  finish (quantise 4 d a b e sf) s

def execVqtb8 (d a b : Reg) (e : BitVec 4) (sf : BitVec 3) (s : State) : Host.Outcome State Fault Refusal :=
  finish (quantise 8 d a b e sf) s

/-- VDQTB4 and VDQTB8 (R251). -/
def dequantise (cw : Nat) (d a b : Reg) (e : BitVec 4) (r : BitVec 3) : Act Unit :=
  let srcs : List Src := [{ reg := a.toNat, width := cw, kind := .any }, { reg := b.toNat, width := 16, kind := .int 16 }]
  floatOp (floatLegal d e srcs 64 r) d e srcs fun s j =>
    let x := s.elem b.toNat 16 j
    tbDecode (fmtOf e) (s.mode r) cw (x % 256) (x / 256) (s.elem a.toNat cw j)

def execVdqtb4 (d a b : Reg) (e : BitVec 4) (r : BitVec 3) (s : State) : Host.Outcome State Fault Refusal :=
  finish (dequantise 4 d a b e r) s

def execVdqtb8 (d a b : Reg) (e : BitVec 4) (r : BitVec 3) (s : State) : Host.Outcome State Fault Refusal :=
  finish (dequantise 8 d a b e r) s

def float1 (d a : Reg) (e : BitVec 4) (r : BitVec 3) (f : FFmt → RMode → Nat → Nat × BitVec 5) : Act Unit :=
  floatOp (floatLegal d e [src a e] (wkFloat e 64 128) r) d e [src a e] fun s j =>
    f (fmtOf e) (s.mode r) (s.elem a.toNat (typeWidth e) j)

def execVexp2 (d a : Reg) (e : BitVec 4) (r : BitVec 3) (s : State) : Host.Outcome State Fault Refusal :=
  finish (float1 d a e r FFmt.fnExp2) s

def execVrcp (d a : Reg) (e : BitVec 4) (r : BitVec 3) (s : State) : Host.Outcome State Fault Refusal :=
  finish (float1 d a e r FFmt.fnRcp) s

def execVrsqrt (d a : Reg) (e : BitVec 4) (r : BitVec 3) (s : State) : Host.Outcome State Fault Refusal :=
  finish (float1 d a e r FFmt.fnRsqrt) s

/-! ## Moves, broadcasts, slides, VCOMPRESS, VIOTA (R256 to R260) -/

/-- A source that is copied without the check of R74. -/
def srcRaw (r : Reg) (e : BitVec 4) : Src := { src r e with kind := .none }

/-- A row that a pass senses: gated rows are not (R120). -/
def State.ungated (s : State) (rows : List Nat) : List Nat := rows.filter fun j => !(s.row j).bit 0

/-- A move within each row that copies bits: its destination's VC becomes the source's (R73). -/
def moveOp (l : Legal) (d a : Reg) (e : BitVec 4) (f : State → Nat → Nat) : Act Unit := do
  l.check
  let s ← look id
  let w := typeWidth e
  perRow { s.elemPlan d w [srcRaw a e] l.wk with vc := some (s.hart.vcBit a.toNat) } fun t j =>
    (putElem s.core (d.toNat :: s.copyReg) w (f s j) (t.row j), 0)

/-- A move between rows: it senses `from'` in the source rows, and its destination and workspace in the rows that it
writes (R120). -/
def crossOp (l : Legal) (d a : Reg) (e : BitVec 4) (from' : BitVec 1024) (srcs : State → List Nat) (f : State → Nat → Nat) :
    Act Unit := do
  l.check
  let s ← look id
  let w := typeWidth e
  let dst := s.destCols d.toNat w ||| wkMask l.wk
  let p := { s.elemPlan d w [srcRaw a e] l.wk with
    vc := some (s.hart.vcBit a.toNat)
    aligns := s.core.manyCourses
    colsAt := some fun j => (if (srcs s).contains j then from' else 0) ||| (if s.passRows.contains j then dst else 0) }
  allRows p (srcs s ++ s.passRows) do
    upd fun t => s.passRows.foldl (fun t j => t.setRow j (putElem s.core (d.toNat :: s.copyReg) w (f s j) (t.row j))) t
    upd (·.scramble .all s.passRows)
    upd (·.planVc p)

def execVmv (d a : Reg) (e : BitVec 4) (s : State) : Host.Outcome State Fault Refusal :=
  finish (moveOp (vecLegal d (typeWidth e) [srcRaw a e] 0 (e != 15)) d a e
    fun s j => s.elem a.toNat (typeWidth e) j) s

def execVbcx (d a : Reg) (e : BitVec 4) (s : State) : Host.Outcome State Fault Refusal :=
  finish (elemOp (vecLegal d (typeWidth e) [] 0 (e != 15)) d (typeWidth e) [] fun s _ => ((s.getX a).toNat, 0)) s

/-- Element i of va, or 0 when i ≥ VL (R257). -/
def State.pick (s : State) (a : Reg) (e : BitVec 4) (i : Nat) : Nat :=
  if i < s.hart.vl.toNat then s.elem a.toNat (typeWidth e) i else 0

/-- The row that a pick reads. -/
def State.pickRow (s : State) (i : Nat) : List Nat := if i < s.hart.vl.toNat then [i] else []

/-- The picked row is read through its row port, which verifies all its groups (R257, R120). -/
def execVbcr (d a b : Reg) (e : BitVec 4) (s : State) : Host.Outcome State Fault Refusal :=
  finish (crossOp (vecLegal d (typeWidth e) [srcRaw a e] 0 (e != 15)) d a e (BitVec.allOnes 1024)
    (fun s => s.pickRow (s.getX b).toNat) fun s _ => s.pick a e (s.getX b).toNat) s

def execVmvxr (d a b : Reg) (e : BitVec 4) (s : State) : Host.Outcome State Fault Refusal :=
  finish (do
    ({ ewOk := e != 15, vregs := [a.toNat], width := typeWidth e } : Legal).check
    let s ← look id
    let i := (s.getX b).toNat
    allRows { regs := [a.toNat], cols := BitVec.allOnes 1024, dcols := 0, aligns := true } (s.pickRow i) do
      upd (·.scramble .all s.passRows)
      writeX d (if typeInt e then BitVec.ofInt 64 (elemInt e (s.pick a e i)) else BitVec.ofNat 64 (s.pick a e i))) s

/-- The identity value of a slide (R258). -/
def slideIdent (e : BitVec 4) (imm : BitVec 3) : Nat :=
  let w := typeWidth e
  let t := fmtOf e
  match imm.toNat with
  | 0 => 0
  | 1 => if typeFloat e then t.bias * 2 ^ t.frac else 1
  | 2 => if typeFloat e then t.inf + t.signBit else if typeSigned e then 2 ^ (w - 1) else 0
  | 3 => if typeFloat e then t.inf else if typeSigned e then 2 ^ (w - 1) - 1 else 2 ^ w - 1
  | _ => 2 ^ w - 1

def slideOp (up : Bool) (d a b : Reg) (e : BitVec 4) (imm : BitVec 3) : Act Unit := do
  let w := typeWidth e
  let c ← look (·.core)
  let from' := fun (s : State) j =>
    let n := (s.getX b).toNat
    if up then (if n ≤ j then some (j - n) else none) else (if j + n < s.hart.vl.toNat then some (j + n) else none)
  crossOp { vecLegal d w [srcRaw a e] w (e != 15) with rsv := 5 ≤ imm.toNat } d a e (colMask (c.vcol a.toNat) w)
    (fun s => s.ungated (s.passRows.filterMap (from' s)))
    fun s j => match from' s j with | some k => s.elem a.toNat w k | none => slideIdent e imm

def execVslideup (d a b : Reg) (e : BitVec 4) (imm : BitVec 3) (s : State) : Host.Outcome State Fault Refusal :=
  finish (slideOp true d a b e imm) s

def execVslidedn (d a b : Reg) (e : BitVec 4) (imm : BitVec 3) (s : State) : Host.Outcome State Fault Refusal :=
  finish (slideOp false d a b e imm) s

/-- VCOMPRESS (R259): entry q of the list goes to row q where that row is active. -/
def execVcompress (d : Reg) (k : BitVec 3) (e : BitVec 4) (s : State) : Host.Outcome State Fault Refusal :=
  finish (do
    (vecLegal d (typeWidth e) [] 0 (9 ≤ e.toNat && e.toNat ≤ 11)).check
    let s ← look id
    let w := typeWidth e
    let p := s.elemPlan d w [] 0
    let l := s.passRows.filter (s.maskBit k.toNat)
    allRows { p with aligns := true, colsAt := some fun j => maskCols k.toNat ||| (if j < l.length then p.cols else 0) } s.passRows do
      upd fun t => (l.mapIdx fun q j => (q, j)).foldl (fun t x =>
        if s.passRows.contains x.1 then t.setRow x.1 (putElem s.core (d.toNat :: s.copyReg) w x.2 (t.row x.1)) else t) t
      upd (·.scramble .all s.passRows)
      upd (·.planVc p)) s

def execViota (d a : Reg) (e : BitVec 4) (s : State) : Host.Outcome State Fault Refusal :=
  finish (do
    let x ← readX a
    let w := typeWidth e
    elemOp (vecLegal d w [] (if x = 0 then 0 else w) (typeInt e)) d w [] fun _ j => ((j + x.toNat) % 2 ^ w, 0)) s

/-! ## Reductions and scans (R261 to R264) -/

/-- The operations of major 0x35. -/
inductive RedOp where
  | sum
  | max
  | min
deriving DecidableEq, Repr

/-- The identity of an operation (R261, R76). -/
def RedOp.ident (o : RedOp) (e : BitVec 4) (m : RMode) : Nat :=
  match o with
  | .sum => if typeFloat e && m != .rdn then (fmtOf e).signBit else 0
  | .max => slideIdent e 2
  | .min => slideIdent e 3

/-- The operation on two elements. -/
def RedOp.apply (o : RedOp) (e : BitVec 4) (m : RMode) (a b : Nat) : Nat × BitVec 5 :=
  if typeFloat e then
    match o with
    | .sum => (fmtOf e).add m a b
    | .max => (fmtOf e).minMax true a b
    | .min => (fmtOf e).minMax false a b
  else
    match o with
    | .sum => ((a + b) % 2 ^ typeWidth e, 0)
    | .max => (if elemInt e a ≤ elemInt e b then b else a, 0)
    | .min => (if elemInt e a ≤ elemInt e b then a else b, 0)

/-- The segments of the rows below VL (R236), as first row and length. -/
def State.segments (s : State) : List (Nat × Nat) :=
  let vl := s.hart.vl.toNat
  let starts := (List.range vl).filter fun j => j = 0 || (s.hart.vseg != 0 && s.maskBit s.hart.vseg.toNat j)
  starts.mapIdx fun i g => (g, (starts.getD (i + 1) vl) - g)

/-- The values of a segment: a row outside Active() supplies the identity. -/
def State.segValues (s : State) (act : List Nat) (a : Reg) (e : BitVec 4) (ident : Nat) (g : Nat × Nat) : List Nat :=
  (List.range' g.1 g.2).map fun j => if act.contains j then s.elem a.toNat (typeWidth e) j else ident

/-- The result of a reduction of one segment: for an integer sum the exact sum as an integer, else bits. -/
def reduceSeg (o : RedOp) (e : BitVec 4) (m : RMode) (vals : List Nat) : Int × BitVec 5 :=
  if typeInt e && o == .sum then (vals.foldl (fun a v => a + elemInt e v) 0, 0)
  else
    let r := treeOf (o.apply e m) (o.ident e m) vals
    (r.1, r.2)

/-- Inclusive prefixes in the order of R263, each with the flags of its row's steps: `fuel` doublings of the distance. -/
def scanRun (op : Nat → Nat → Nat × BitVec 5) : Nat → Nat → List (Nat × BitVec 5) → List (Nat × BitVec 5)
  | 0, _, y => y
  | fuel + 1, h, y =>
    if y.length ≤ h then y
    else scanRun op fuel (2 * h) (y.mapIdx fun i v =>
      if h ≤ i then
        let r := op (y.getD (i - h) (0, 0)).1 v.1
        (r.1, v.2 ||| r.2)
      else v)

/-- The checks of major 0x35. -/
def redLegal (toX : Bool) (d a : Reg) (e : BitVec 4) (o : RedOp) (r : BitVec 3) (wk : Nat) : Legal :=
  { pred := true, copy := !toX, rsv := if o == .sum then rmReservedFor (!codeNotInteger e) r else r != 0,
    ewOk := e != 15, vreads := [a.toNat], vregs := if toX then [a.toNat] else [d.toNat, a.toNat], width := typeWidth e,
    wk := wk }

/-- The columns that a reduction touches. -/
def State.redPlan (s : State) (toX : Bool) (d a : Reg) (e : BitVec 4) (wk : Nat) : Plan :=
  let w := typeWidth e
  let p := s.elemPlan d w [src a e] wk
  let cols := if toX then s.regCols a.toNat w ||| wkMask wk else p.cols
  let q := { p with
    aligns := true
    cols := cols ||| maskCols s.hart.vseg.toNat
    colsAt := some fun j => maskCols s.hart.vseg.toNat ||| if s.passRows.contains j then cols else 0 }
  if toX then { q with regs := [a.toNat], dcols := 0, dests := [] } else q

/-- The rows that a reduction or scan senses: the pass rows, and the segment bits of every row below VL (R236). -/
def State.redRows (s : State) : List Nat :=
  if s.hart.vseg = 0 then s.passRows else s.ungated (List.range s.hart.vl.toNat)

/-- Writing a value to the active rows of each segment. -/
def State.putSegs (s : State) (t : State) (d : Reg) (w : Nat) (rows : List (Nat × Nat)) : State :=
  rows.foldl (fun t x => t.setRow x.1 (putElem s.core (d.toNat :: s.copyReg) w x.2 (t.row x.1))) t

/-- A reduction (R262). -/
def reduceOp (o : RedOp) (d a : Reg) (e : BitVec 4) (sf : BitVec 1) (r : BitVec 3) : Act Unit := do
  let toX := sf == 1
  let seg ← look (·.hart.vseg)
  let wk := if toX && typeInt e && seg == 0 then 0 else 128
  (redLegal toX d a e o r wk).check
  let s ← look id
  let m := s.mode r
  let w := typeWidth e
  let act := s.passRows
  let p := s.redPlan toX d a e wk
  allRows p s.redRows do
    let segs := s.segments
    let res := segs.map fun g => (g, reduceSeg o e m (s.segValues act a e (o.ident e m) g))
    let used := if toX then (res.reverse.take 1) else res.filter fun x => act.any fun j => x.1.1 ≤ j && j < x.1.1 + x.1.2
    upd (·.orFlags (used.foldl (fun f x => f ||| x.2.2) 0))
    if toX then
      let v : Int := match used with | x :: _ => x.2.1 | [] => o.ident e m
      writeX d (if typeInt e && o == .sum then BitVec.ofInt 64 v
        else if typeInt e then BitVec.ofInt 64 (elemInt e v.toNat) else BitVec.ofInt 64 v)
    else
      upd fun t => s.putSegs t d w (used.flatMap fun x =>
        (act.filter fun j => x.1.1 ≤ j && j < x.1.1 + x.1.2).map fun j => (j, (x.2.1.emod (2 ^ w)).toNat))
    upd (·.scramble .all act)
    upd (·.planVc p)

def scanOp (o : RedOp) (d a : Reg) (e : BitVec 4) (r : BitVec 3) : Act Unit := do
  (redLegal false d a e o r 128).check
  let s ← look id
  let m := s.mode r
  let w := typeWidth e
  let act := s.passRows
  let p := s.redPlan false d a e 128
  allRows p s.redRows do
    let res := s.segments.flatMap fun g =>
      let y := scanRun (o.apply e m) 17 1 ((s.segValues act a e (o.ident e m) g).map fun v => (v, 0))
      (act.filter fun j => g.1 ≤ j && j < g.1 + g.2).map fun j => (j, y.getD (j - g.1) (0, 0))
    upd (·.orFlags (res.foldl (fun f x => f ||| x.2.2) 0))
    upd fun t => s.putSegs t d w (res.map fun x => (x.1, x.2.1))
    upd (·.scramble .all act)
    upd (·.planVc p)

def execVrsum (d a : Reg) (e : BitVec 4) (sf : BitVec 1) (r : BitVec 3) (s : State) : Host.Outcome State Fault Refusal :=
  finish (reduceOp .sum d a e sf r) s

def execVrmax (d a : Reg) (e : BitVec 4) (sf : BitVec 1) (r : BitVec 3) (s : State) : Host.Outcome State Fault Refusal :=
  finish (reduceOp .max d a e sf r) s

def execVrmin (d a : Reg) (e : BitVec 4) (sf : BitVec 1) (r : BitVec 3) (s : State) : Host.Outcome State Fault Refusal :=
  finish (reduceOp .min d a e sf r) s

def execVscan (d a : Reg) (e : BitVec 4) (r : BitVec 3) (s : State) : Host.Outcome State Fault Refusal :=
  finish (scanOp .sum d a e r) s

def execVscanmax (d a : Reg) (e : BitVec 4) (r : BitVec 3) (s : State) : Host.Outcome State Fault Refusal :=
  finish (scanOp .max d a e r) s

def execVscanmin (d a : Reg) (e : BitVec 4) (r : BitVec 3) (s : State) : Host.Outcome State Fault Refusal :=
  finish (scanOp .min d a e r) s

/-! ## Length setting (R233 to R238) -/

/-- CAPV = min(CAP, VLMAX) (R233). -/
def State.capv (s : State) : Nat := min s.core.vlpwr.toNat s.core.vlmax

/-- A pending pre-emption request is taken at a length setting, at pallet privilege (R234, R401). -/
def preemptPoint : Act Unit := do
  let s ← look id
  trapIf (s.core.preempt && !s.sys) 0x10

/-- The grant of a length: the latches of the active rows are undefined afterwards (R229); rows at or above the new VL keep
theirs (R116, R234). -/
def State.setVl (s : State) (n : Nat) (seg : BitVec 3) : State :=
  let t := s.mark s.hartLo (s.hartLo + min n s.hart.vl.toNat) 0 15
  t.modHart fun h => { h with vl := BitVec.ofNat 17 n, vseg := seg }

/-- R235. -/
def execSetvl (d a : Reg) (s : State) : Host.Outcome State Fault Refusal :=
  finish (do
    ({} : Legal).check
    preemptPoint
    let x ← readX a
    let n ← look fun s => min x.toNat s.capv
    upd (·.setVl n 0)
    writeX d (BitVec.ofNat 64 n)) s

/-- The fibres that fit (R237): the first rows of the fibres of non-zero length, their number, the rows, LONG. -/
def packFibres (va cap : Nat) (oc : BitVec 4) : Nat → Nat → Nat → List Nat → Act (List Nat × Nat × Nat × Bool)
  | 0, f, sum, starts => pure (starts, f, sum, false)
  | n + 1, f, sum, starts => do
    let l ← loadScalar ((va + 4 * f) % 2 ^ 64) 4 oc
    if cap < sum + l then pure (starts, f, sum, decide (cap < l))
    else packFibres va cap oc n (f + 1) (sum + l) (if l = 0 then starts else starts ++ [sum])

/-- The three registers x[a], x[a + 1], x[a + 2]. -/
def readX3 (a : Reg) : Act (Word × Word × Word) := do
  let x ← readX a
  let y ← readX (a + 1)
  let z ← readX (a + 2)
  pure (x, y, z)

/-- R237. -/
def execSetvlf (d a : Reg) (k : BitVec 3) (c : BitVec 4) (s : State) : Host.Outcome State Fault Refusal :=
  finish (do
    ({ rsv := k == 0 || 30 ≤ a.toNat } : Legal).check
    preemptPoint
    alignCourses
    let x ← readX3 a
    let cap ← look fun s => min x.2.2.toNat s.capv
    let r ← packFibres x.1.toNat cap c (min x.2.1.toNat 1024) 0 0 []
    rowCheck { regs := [], cols := maskCols k.toNat, dcols := maskCols k.toNat } (List.range r.2.2.1)
    upd (·.setVl r.2.2.1 k)
    upd fun t => (List.range r.2.2.1).foldl (fun t j => t.setRow j ((t.row j).putBit k.toNat (r.1.contains j))) t
    writeX d (BitVec.ofNat 64 ((if r.2.2.2 then 2 ^ 63 else 0) + r.2.1))) s

end Sys2Proof.Machine
end

