-- ==== Sys2Proof/Machine/Kv.lean ====
section
/-! DEFINITION. Key-value pages: headers and images, sequences and runs, KVLD and its plane deliveries, KVST, KVAPP,
KVFOLD and SETVLRE (R78 to R93, R108, R109, R185 to R188, R238). -/

namespace Sys2Proof.Machine

/-! ## Sequences and runs (R84, R85) -/

/-- A sequence descriptor. -/
structure SeqDesc where
  plist : Nat
  npg : Nat
  dcode : Nat
deriving DecidableEq, Repr

/-- The dimension of a DCODE. -/
def kvDim (dcode : Nat) : Nat := 64 * 2 ^ dcode

/-- The descriptor in 32 bytes, or none where it is malformed. -/
def seqDesc (bs : List Byte) : Option SeqDesc :=
  let p := msgField bs 0 8
  if msgField bs 13 19 ≠ 0 ∨ 2 < msgField bs 12 1 ∨ p % 16 ≠ 0 ∨ 2 ^ 56 ≤ p then none
  else some { plist := p, npg := msgField bs 8 4, dcode := msgField bs 12 1 }

/-- A page list entry. -/
structure SeqEntry where
  nt : Nat
  vpage : Nat
  kpage : Nat
deriving DecidableEq, Repr

def seqEntry (n : Nat) : Option SeqEntry :=
  if bitOf n 127 || bitsOf n 56 8 != 0 || 64 < bitsOf n 120 7 then none
  else some { nt := bitsOf n 120 7, vpage := bitsOf n 64 56, kpage := bitsOf n 0 56 }

/-- How an instruction reads n bytes of a descriptor or an entry. -/
abbrev SeqRead := Nat → Nat → Act (List Byte)

def kvBad {α : Type} (o : Option α) : Act α :=
  match o with
  | some a => pure a
  | none => raise 0xA1

def readDesc (rd : SeqRead) (va : Nat) : Act SeqDesc := do
  let bs ← rd va 32
  kvBad (seqDesc bs)

def readEntry (rd : SeqRead) (sd : SeqDesc) (i : Nat) : Act SeqEntry := do
  let bs ← rd ((sd.plist + 16 * i) % 2 ^ 64) 16
  kvBad (seqEntry (leOfBytes bs))

/-- The loop of R85: the tokens of the run, and the entries that were read. -/
def runFrom (rd : SeqRead) (sd : SeqDesc) (c i r : Nat) (e : SeqEntry) : Nat → Act (Nat × List (Nat × SeqEntry))
  | 0 => pure (r, [(i, e)])
  | fuel + 1 =>
    if r < c ∧ e.nt = 64 ∧ i + 1 < sd.npg then do
      let f ← readEntry rd sd (i + 1)
      if f.vpage ≠ e.vpage + 68 * kvDim sd.dcode then pure (r, [(i, e), (i + 1, f)])
      else do
        let x ← runFrom rd sd c (i + 1) (r + f.nt) f fuel
        pure (x.1, (i, e) :: x.2)
    else pure (r, [(i, e)])

/-- Remaining of R85, and the entries that it read. -/
def remaining (rd : SeqRead) (sd : SeqDesc) (pos c : Nat) : Act (Nat × List (Nat × SeqEntry)) :=
  if sd.npg ≤ pos / 64 then pure (0, [])
  else do
    let e ← readEntry rd sd (pos / 64)
    if e.nt ≤ pos % 64 then pure (0, [(pos / 64, e)])
    else runFrom rd sd c (pos / 64) (e.nt - pos % 64) e (c / 64 + 2)

/-! ## SETVLRE (R238) -/

/-- n bytes as naturally aligned scalar loads of eight bytes. -/
def loadWords (oc : BitVec 4) (va : Nat) : Nat → Act (List Byte)
  | 0 => pure []
  | k + 1 => do
    let v ← loadScalar (va % 2 ^ 64) 8 oc
    let r ← loadWords oc (va + 8) k
    pure (bytesOfLe 8 v ++ r)

def scalarSeq (oc : BitVec 4) (va n : Nat) : Act (List Byte) := do
  trapIf (va % n != 0) (memCause (if 2 ^ 56 ≤ va then kNotPres else kAlign) 1) (BitVec.ofNat 64 va)
  loadWords oc va (n / 8)

def execSetvlre (d a : Reg) (c : BitVec 4) (s : State) : Host.Outcome State Fault Refusal :=
  finish (do
    ({ rsv := decide (30 ≤ a.toNat) } : Legal).check
    preemptPoint
    alignCourses
    let x ← readX3 a
    let sd ← readDesc (scalarSeq c) x.1.toNat
    let q ← look fun s => min x.2.2.toNat s.capv
    let r ← remaining (scalarSeq c) sd x.2.1.toNat q
    let n := min q r.1
    upd (·.setVl n 0)
    writeX d (BitVec.ofNat 64 n)) s

/-! ## Key page headers (R78 to R81) -/

/-- The fields of a header and its arrays that instructions use. -/
structure KvHeader where
  dcode : Nat
  npl : Nat
  chop : Bool
  pbm : Nat
  ntok : Nat
  plen : Nat
  cap : Nat
  swtag : Nat
deriving DecidableEq, Repr

def KvHeader.t (h : KvHeader) : Nat := 15 - h.npl

/-- Present planes, highest first. -/
def planesOf (pbm : Nat) : List Nat := (List.range 15).reverse.filter (bitOf pbm)

/-- Bytes 0x00–0x2F and 0x40–0xBF. -/
def hcrc (bs : List Byte) : BitVec 32 := crc32c (bs.take 48 ++ (bs.drop 64).take 128)

/-- The largest and the smallest token exponent. -/
def etokRange (es : List Nat) : Nat × Nat :=
  match es with
  | [] => (0, 0)
  | e :: l => (l.foldl max e, l.foldl min e)

/-- A header of R80 in the first 192 bytes of a page, or none where it is malformed. -/
def kvHeader (bs : List Byte) : Option KvHeader :=
  let f := msgField bs
  let dcode := f 1 1
  let npl := f 2 1
  let pbm := f 4 2
  let ntok := f 6 1
  let r := etokRange (((bs.drop 64).take (min ntok 64)).map (·.toNat))
  if f 0 1 ≠ 1 ∨ 2 < dcode ∨ npl = 0 ∨ 15 < npl ∨ bitsOf pbm 0 (15 - npl) ≠ 0 ∨ bitOf pbm 15 ∨ 64 < ntok ∨
      f 12 4 ≠ 192 + 8 * kvDim dcode * (1 + (planesOf pbm).length) ∨ f 16 4 < f 12 4 ∨
      f 7 1 ≠ r.1 ∨ f 8 1 ≠ r.2 ∨ f 48 2 = 0 ∨ f 3 1 / 4 ≠ 0 ∨ f 9 3 ≠ 0 ∨ f 20 4 ≠ 0 ∨ f 40 8 ≠ 0 ∨ f 52 8 ≠ 0 ∨
      f 60 4 ≠ (hcrc bs).toNat then none
  else some { dcode := dcode, npl := npl, chop := bitOf (f 3 1) 0, pbm := pbm, ntok := ntok, plen := f 12 4,
              cap := f 16 4, swtag := f 32 8 }

/-- A token of a key page: exponent, multiplicity byte, signs and aligned magnitudes. -/
structure KeyTok where
  etok : Nat
  mult : Nat
  elems : List (Bool × Nat)
deriving DecidableEq, Repr

/-- Offset of the i-th stored plane of a page of dimension d. -/
def planeOff (d i : Nat) : Nat := 192 + 8 * d * (1 + i)

/-- Bit i of token k in a plane that starts at some bytes. -/
def planeBitAt (bs : List Byte) (off d k i : Nat) : Bool :=
  bitOf (bs.getD (off + (k * d + i) / 8) 0).toNat ((k * d + i) % 8)

/-- Token k of a page's bytes (R81). -/
def keyTok (bs : List Byte) (h : KvHeader) (k : Nat) : KeyTok :=
  let d := kvDim h.dcode
  let ps := (planesOf h.pbm).mapIdx fun i b => (b, planeOff d i)
  { etok := (bs.getD (64 + k) 0).toNat, mult := (bs.getD (128 + k) 0).toNat,
    elems := (List.range d).map fun i =>
      (planeBitAt bs 192 d k i, (ps.map fun p => if planeBitAt bs p.2 d k i then 2 ^ p.1 else 0).sum) }

/-! ## Encoding a token (R82) -/

/-- Qk: a magnitude rounded to a multiple of 2^t at exponent e. -/
def kvQ (m : Nat) (ex : Int) (e t : Nat) : Nat := 2 ^ t * (roundTo .rne false m (ex + 141 - e - t) 0).1

/-- One element: sign and magnitude, with flags. -/
def kvElem (etok t : Nat) : FVal → (Bool × Nat) × BitVec 5
  | .nan _ => ((false, 0), flNV)
  | .inf n => ((n, 2 ^ 15 - 2 ^ t), flOF ||| flNX)
  | .fin n m e =>
    let q := kvQ m e etok t
    let top := 2 ^ 15 - 2 ^ t
    let mag := if top < q then top else q
    let v : Nat × Int := (mag, (etok : Int) - 141)
    let exact := if m = 0 then mag == 0 else mag != 0 && magMax (m, e) v == (m, e) && magMax v (m, e) == v
    ((n && mag != 0, mag), (if top < q then flOF ||| flNX else 0) ||| (if exact then 0 else flNX) |||
      (if m ≠ 0 ∧ mag = 0 then flUF else 0))

/-- R82: a token with multiplicity 1, and its flags. -/
def kvEncode (t : Nat) (xs : List FVal) : KeyTok × BitVec 5 :=
  let amax := xs.foldl (fun a x => match x with | .fin _ m e => magMax a (m, e) | _ => a) (0, 0)
  let etok := ((List.range 255).find? fun e => kvQ amax.1 amax.2 e t ≤ 2 ^ 15 - 2 ^ t).getD 254
  let es := xs.map (kvElem etok t)
  ({ etok := etok, mult := 1, elems := es.map (·.1) }, es.foldl (fun a x => a ||| x.2) 0)

/-- Lists of n elements. -/
def chunk {α : Type} (n : Nat) (l : List α) : Nat → List (List α)
  | 0 => []
  | k + 1 => l.take n :: chunk n (l.drop n) k

/-- The value blocks of a token (R83) by R70 with split s. -/
def valueTok (d s : Nat) (xs : List FVal) : List Byte × BitVec 5 :=
  let bs := (chunk 32 xs (d / 32)).map (tbEncode 8 s)
  (bs.flatMap (·.bytes 8), bs.foldl (fun a b => a ||| b.flags) 0)

/-- Bytes of a token in a value page. -/
def vtok (d : Nat) : Nat := 34 * (d / 32)

/-! ## The image of a key page (R86, R88) -/

/-- What a write stores beside the tokens. -/
structure KvImage where
  d : Nat
  t : Nat
  cap : Nat
  chop : Bool
  swtag : Nat
  refc : Nat
  toks : List KeyTok
deriving DecidableEq, Repr

/-- The planes that hold a 1 bit. -/
def KvImage.planes (g : KvImage) : List Nat :=
  (List.range 15).reverse.filter fun b => g.t ≤ b && g.toks.any fun k => k.elems.any fun e => bitOf e.2 b

def KvImage.base (g : KvImage) : Nat := 192 + 8 * g.d

/-- The capacity test. -/
def KvImage.fits (g : KvImage) : Bool := g.base + (if g.planes = [] then 0 else 8 * g.d) ≤ g.cap

/-- How many planes are stored, and the truncation plane. -/
def KvImage.kept (g : KvImage) : Nat := min g.planes.length ((g.cap - g.base) / (8 * g.d))
def KvImage.dropped (g : KvImage) : Bool := g.kept < g.planes.length
def KvImage.tOut (g : KvImage) : Nat := if g.dropped then g.planes.getD g.kept 0 + 1 else g.t

/-- Bits packed eight to a byte. -/
def packBits (bs : List Bool) (n : Nat) : List Byte :=
  bytesOfLe n (bs.foldr (fun b a => 2 * a + if b then 1 else 0) 0)

/-- A plane of 64 tokens, of which those listed are stored. -/
def KvImage.plane (g : KvImage) (f : Bool × Nat → Bool) : List Byte :=
  packBits (g.toks.flatMap fun k => k.elems.map f) (8 * g.d)

/-- Etok, multiplicities, sign plane and planes: everything from 0x40 on. -/
def KvImage.body (g : KvImage) : List Byte :=
  let arr : (KeyTok → Nat) → List Byte := fun f =>
    (List.range 64).map fun k => match g.toks[k]? with | some t => BitVec.ofNat 8 (f t) | none => 0
  arr (·.etok) ++ arr (·.mult) ++ g.plane (·.1) ++
    ((g.planes.take g.kept).map fun b => g.plane fun e => bitOf e.2 b).flatten

def KvImage.plen (g : KvImage) : Nat := g.base + 8 * g.d * g.kept

/-- The header with a version. -/
def KvImage.header (g : KvImage) (seqv : Nat) : List Byte :=
  let r := etokRange (g.toks.map (·.etok))
  let flags := (if g.chop || g.dropped then 1 else 0) + if g.toks.any fun k => 1 < k.mult then 2 else 0
  let dcode := if g.d = 64 then 0 else if g.d = 128 then 1 else 2
  let front := bytesOfLe 1 1 ++ bytesOfLe 1 dcode ++ bytesOfLe 1 (15 - g.tOut) ++ bytesOfLe 1 flags ++
    bytesOfLe 2 ((g.planes.take g.kept).map (2 ^ ·)).sum ++ bytesOfLe 1 g.toks.length ++ bytesOfLe 1 r.1 ++
    bytesOfLe 1 r.2 ++ bytesOfLe 3 0 ++ bytesOfLe 4 g.plen ++ bytesOfLe 4 g.cap ++ bytesOfLe 4 0 ++
    bytesOfLe 8 (seqv + 1) ++ bytesOfLe 8 g.swtag ++ bytesOfLe 8 0
  front ++ bytesOfLe 4 g.refc ++ bytesOfLe 8 0 ++ bytesOfLe 4 (crc32c (front ++ g.body.take 128)).toNat

/-- The status word. -/
def kvWord (status copied npl ntok plen : Nat) : Word :=
  BitVec.ofNat 64 (status * 2 ^ 56 + copied * 2 ^ 48 + npl * 2 ^ 40 + ntok * 2 ^ 32 + plen)

def KvImage.word (g : KvImage) (copied : Nat) : Word :=
  kvWord (if g.dropped then 1 else 0) copied (15 - g.tOut) g.toks.length g.plen

/-! ## The request block and the phase of R87 (R187) -/

structure KvReq where
  kslot : Nat
  vpage : Nat
  ksrc : Nat
  vsrc : Nat
  spk : Nat
  spv : Nat
  spcap : Nat
  cap : Nat
  nt : Nat
  dcode : Nat
  stype : Nat
  trunc : Nat
  split : Nat
deriving DecidableEq, Repr

inductive KvMinor where
  | st
  | app
  | fold
deriving DecidableEq, Repr

def kvReq (b : List Byte) : KvReq :=
  { kslot := msgField b 0 8, vpage := msgField b 8 8, ksrc := msgField b 16 8, vsrc := msgField b 24 8,
    spk := msgField b 32 8, spv := msgField b 40 8, spcap := msgField b 48 4, cap := msgField b 52 4,
    nt := msgField b 56 1, dcode := msgField b 57 1, stype := msgField b 58 1, trunc := msgField b 59 1,
    split := msgField b 60 1 }

def KvReq.d (r : KvReq) : Nat := kvDim r.dcode

/-- A used field out of range (R187). -/
def KvReq.bad (r : KvReq) (k : KvMinor) : Bool :=
  2 < r.dcode || (k != .fold && (64 < r.nt || r.stype < 12 || 14 < r.stype || r.split == 0 || 7 < r.split)) ||
  (k == .st && (14 < r.trunc || r.cap % 64 != 0)) || (k == .app && r.spcap % 64 != 0)

def KvReq.fmt (r : KvReq) : FFmt := if r.stype = 12 then .h else if r.stype = 13 then .bh else .f
def KvReq.eb (r : KvReq) : Nat := r.fmt.width / 8

def readReq (k : KvMinor) (a : Reg) : Act KvReq := do
  let x ← readX a
  let bs ← loadBytes { kind := .load, source := 1, align := 64 } x.toNat 64
  let r := kvReq bs
  trapIf (msgField bs 61 3 != 0 || r.bad k) 0xB3
  pure r

/-- A range that the phase checks: how it is accessed, and the part of it whose data is read. -/
structure KvRange where
  kind : AccKind
  align : Nat
  va : Nat
  n : Nat
  rlo : Nat := 0
  rlen : Nat := 0
deriving DecidableEq, Repr

/-- What the phase has found. -/
structure KvPhase where
  pages : PageMap := []
  fault : Option Trap := none
  miss : Option Nat := none
  s : State
deriving DecidableEq, Repr

def KvPhase.fail (p : KvPhase) (cause : BitVec 8) (va : Nat) : KvPhase :=
  { p with fault := p.fault <|> some { cause := cause, faddr := BitVec.ofNat 64 va } }

/-- The data of some bytes at a translated address: those that the instruction reads are verified, and pass the die
caches (log 90). -/
def KvPhase.data (p : KvPhase) (g : KvRange) (a pa n : Nat) : KvPhase :=
  let lo := max a (g.va + g.rlo)
  let m := min (a + n) (g.va + g.rlo + g.rlen) - lo
  let p := if m = 0 then p else { p with s := p.s.traffic .low .read (pa + (lo - a)) m [] }
  if p.s.bad = [] then p else
  match (List.range m).find? fun i => p.s.sectorBad (pa + (lo - a) + i) with
  | none => p
  | some i => { p with s := p.s.logCheck (memCause kCheckFail 6).toNat (pa + (lo - a) + i) }.fail (memCause kCheckFail 6) (lo + i)

/-- The bytes of a range in one 64 KiB page. -/
def KvPhase.page (g : KvRange) (p : KvPhase) (a : Nat) : KvPhase :=
  match p.s.translate p.s.agent { kind := g.kind, source := 6 } a with
  | .fault kind t =>
    if kind = kTierMiss then { p with s := t, miss := p.miss <|> some a }
    else { p with s := t }.fail (memCause kind 6) (faultAddr kind a).toNat
  | .ok x t =>
    { p with s := t, pages := (a / 65536, x.pa / 65536, x.idem) :: p.pages }.data g a x.pa
      (min (a / 65536 * 65536 + 65536) (g.va + g.n) - a)

def KvPhase.range (p : KvPhase) (g : KvRange) : KvPhase :=
  if g.n = 0 then p
  else if g.va % g.align ≠ 0 then p.fail (memCause (if 2 ^ 56 ≤ g.va then kNotPres else kAlign) 6) g.va
  else (pageStarts g.va g.n).foldl (KvPhase.page g) p

/-- The key page of KVAPP and KVFOLD: its header is read when the phase reaches it. Where the header cannot be read, or is
malformed, the slot's capacity is unknown and its first 192 bytes are all that is checked (log 84). -/
def KvPhase.keyPage (p : KvPhase) (r : KvReq) : KvPhase × Option KvHeader :=
  let p := p.range { kind := .atomic, align := 64, va := r.kslot, n := 192, rlen := 192 }
  if p.fault.isSome || p.miss.isSome then (p, none)
  else
    match kvHeader (PageMap.read p.pages p.s.mem r.kslot 192) with
    | none => (p.fail 0xA1 0, none)
    | some h =>
      let p := if h.dcode = r.dcode then p else p.fail 0xA1 0
      (p.range { kind := .atomic, align := 1, va := r.kslot + 192, n := h.cap - 192, rlen := h.plen - 192 }, some h)

/-- The first walk of the phase waits for a walker before anything is checked (R46). -/
def kvGate (gs : List KvRange) : Act Unit := walkerGate (gs.flatMap fun g => pageStarts g.va g.n)

/-- The end of the phase: the pages, or the first fault, or the tier miss. -/
def KvPhase.finish (p : KvPhase) : Except Stop (PageMap × State) :=
  match p.fault, p.miss with
  | some t, _ => .error (.trap t p.s)
  | none, some a => .error (.trap { cause := memCause kTierMiss 6, faddr := BitVec.ofNat 64 a } p.s)
  | none, none => .ok (p.pages, p.s)

/-- The sources: n elements of each. -/
def KvReq.sources (r : KvReq) (n : Nat) : List KvRange :=
  [{ kind := .load, align := r.eb, va := r.ksrc, n := n * r.eb, rlen := n * r.eb },
   { kind := .load, align := r.eb, va := r.vsrc, n := n * r.eb, rlen := n * r.eb }]

def kvPhaseSt (r : KvReq) : Act PageMap := do
  let gs : List KvRange :=
    [{ kind := .store, align := 64, va := r.kslot, n := r.cap, rlo := 24, rlen := 8 },
     { kind := .store, align := 64, va := r.vpage, n := 68 * r.d }] ++ r.sources (r.nt * r.d)
  kvGate gs
  fun s => (gs.foldl KvPhase.range ({ s := s } : KvPhase)).finish

/-- The header, where the phase read one; the phase ended without a fault. -/
def phaseHeader (h : Option KvHeader) (m : PageMap × State) : Except Stop ((PageMap × KvHeader) × State) :=
  match h with
  | some h => .ok ((m.1, h), m.2)
  | none => .error (.trap { cause := 0xA1 } m.2)

/-- The data read of VPAGE are the tokens that a copy takes along, and those of SPK its old SEQV (R89, R188). -/
def kvPhaseApp (r : KvReq) : Act (PageMap × KvHeader) := do
  let gs : List KvRange :=
    [{ kind := .atomic, align := 64, va := r.vpage, n := 68 * r.d, rlen := r.nt * vtok r.d },
     { kind := .store, align := 64, va := r.spk, n := r.spcap, rlo := 24, rlen := 8 },
     { kind := .store, align := 64, va := r.spv, n := 68 * r.d }] ++ r.sources r.d
  kvGate ({ kind := .atomic, align := 64, va := r.kslot, n := 192 } :: gs)
  fun s => do
    let x := KvPhase.keyPage { s := s } r
    let m ← (gs.foldl KvPhase.range x.1).finish
    phaseHeader x.2 m

def kvPhaseFold (r : KvReq) : Act (PageMap × KvHeader) := do
  kvGate [{ kind := .atomic, align := 64, va := r.kslot, n := 192 }, { kind := .atomic, align := 64, va := r.vpage, n := 68 * r.d }]
  fun s => do
    let x := KvPhase.keyPage { s := s } r
    let n := match x.2 with | some h => h.ntok * vtok r.d | none => 0
    let m ← (x.1.range { kind := .atomic, align := 64, va := r.vpage, n := 68 * r.d, rlen := n }).finish
    phaseHeader x.2 m

/-! ## The three writers (R88 to R93, R188) -/

/-- n elements of a source. -/
def kvSource (r : KvReq) (ps : PageMap) (va n : Nat) : Act (List FVal) :=
  look fun s => (List.range n).map fun i => r.fmt.decode (leOfBytes (ps.read s.mem (va + i * r.eb) r.eb))

/-- The failing capacity test: NOFIT, or KVNOFIT for the .T forms. -/
def kvNofit (t : Bool) : Act Word := if t then raise 0xA0 else pure (kvWord 2 0 0 0 0)

/-- The stores of an image, after its values: the body, then the header; flags with a stored page. -/
def kvStore (ps : PageMap) (slot : Nat) (g : KvImage) (seqv : Nat) (fl : BitVec 5) : Act Unit := do
  upd (·.storeMapped ps (slot + 64) g.body)
  upd (·.storeMapped ps slot (g.header seqv))
  upd (·.orFlags fl)

def kvRead (ps : PageMap) (va n : Nat) : Act (List Byte) := look fun s => ps.read s.mem va n

/-- The checks of data read after the phase. -/
def kvCheckRead (ps : PageMap) (va n : Nat) : Act Unit := fun s =>
  match ps.firstBad s va n with
  | none => .ok ((), s)
  | some a => .error (.trap { cause := memCause kCheckFail 6, faddr := BitVec.ofNat 64 a }
      (s.logCheck (memCause kCheckFail 6).toNat (ps.pa a)))

/-- KVST. -/
def kvstOp (t : Bool) (r : KvReq) : Act Word := do
  let ps ← kvPhaseSt r
  let ks ← kvSource r ps r.ksrc (r.nt * r.d)
  let vs ← kvSource r ps r.vsrc (r.nt * r.d)
  let es := (chunk r.d ks r.nt).map (kvEncode r.trunc)
  let vals := (chunk r.d vs r.nt).map (valueTok r.d r.split)
  let g : KvImage := { d := r.d, t := r.trunc, cap := r.cap, chop := false, swtag := 0, refc := 1, toks := es.map (·.1) }
  if !g.fits then kvNofit t
  else do
    let old ← kvRead ps (r.kslot + 24) 8
    let bytes := vals.flatMap (·.1)
    upd (·.storeMapped ps r.vpage (bytes ++ List.replicate (68 * r.d - bytes.length) 0))
    kvStore ps r.kslot g (leOfBytes old)
      (es.foldl (fun a e => a ||| e.2) 0 ||| vals.foldl (fun a v => a ||| v.2) 0)
    pure (g.word 0)

/-- REFC as the atomic unit sees it: COUNT and COPIERS. -/
def refcOf (n : Nat) : Nat × Nat := (bitsOf n 0 16, bitsOf n 16 16)

def readRefc (ps : PageMap) (slot : Nat) : Act (Nat × Nat) := do
  upd fun s => s.reachUnit s.ownPlace
  let bs ← kvRead ps (slot + 48) 4
  pure (refcOf (leOfBytes bs))

/-- An atomic change of COUNT and COPIERS, modulo 2^16 each. -/
def State.writeRefc (s : State) (ps : PageMap) (slot : Nat) (f : Nat × Nat → Nat × Nat) : State :=
  let pa := ps.pa (slot + 48)
  let v := f (refcOf (readLE s.mem pa 4))
  let old := readLE s.mem pa 4
  let bs := bytesOfLe 4 (v.1 % 65536 + v.2 % 65536 * 65536)
  (((s.storeLE pa 4 (leOfBytes bs)).sdcWrite pa bs).notePort pa).atomicTraffic .loop pa 4 old (leOfBytes bs)

/-- A fault or a failed capacity test on the copy path is undone in REFC first (R90). -/
def withUndo (undo : State → State) (m : Act Word) : Act Word := fun s =>
  match m s with
  | .error (.trap t u) => .error (.trap t (undo u))
  | r => r

/-- The new token of KVAPP: keys and values. -/
def kvNew (r : KvReq) (ps : PageMap) (t : Nat) : Act (KeyTok × List Byte × BitVec 5) := do
  let ks ← kvSource r ps r.ksrc r.d
  let vs ← kvSource r ps r.vsrc r.d
  let e := kvEncode t ks
  let v := valueTok r.d r.split vs
  pure (e.1, v.1, e.2 ||| v.2)

/-- The copy path after its first atomic (R89). -/
def kvCopy (t : Bool) (r : KvReq) (ps : PageMap) (h : KvHeader) : Act Word := do
  let undoBoth := fun (s : State) => s.writeRefc ps r.kslot fun p => (p.1 + 1, p.2 + 65535)
  let undoCount := fun (s : State) => s.writeRefc ps r.kslot fun p => (p.1 + 1, p.2)
  let page ← kvRead ps r.kslot h.plen
  let new ← kvNew r ps h.t
  let g : KvImage :=
    { d := r.d, t := h.t, cap := r.spcap, chop := h.chop, swtag := h.swtag, refc := 1,
      toks := (List.range r.nt).map (keyTok page h) ++ [new.1] }
  if !g.fits then do
    upd undoBoth
    kvNofit t
  else do
    let n := r.nt * vtok r.d
    let vals ← kvRead ps r.vpage n
    let _ ← withUndo undoBoth do
      kvCheckRead ps r.vpage n
      pure 0
    upd (·.storeMapped ps r.spv vals)
    upd (·.writeRefc ps r.kslot fun p => (p.1, p.2 + 65535))
    let _ ← withUndo undoCount do
      kvCheckRead ps (r.spk + 24) 8
      pure 0
    let old ← kvRead ps (r.spk + 24) 8
    upd (·.storeMapped ps (r.spv + n) (new.2.1 ++ List.replicate (68 * r.d - n - vtok r.d) 0))
    kvStore ps r.spk g (leOfBytes old) new.2.2
    pure (g.word 1)

/-- The path in place. -/
def kvInPlace (t : Bool) (r : KvReq) (ps : PageMap) (h : KvHeader) : Act Word := do
  if r.nt ≠ h.ntok then pure (kvWord 5 0 0 0 0)
  else do
    let page ← kvRead ps r.kslot h.plen
    let new ← kvNew r ps h.t
    let g : KvImage :=
      { d := r.d, t := h.t, cap := h.cap, chop := h.chop, swtag := h.swtag, refc := msgField page 48 4,
        toks := (List.range r.nt).map (keyTok page h) ++ [new.1] }
    if !g.fits then kvNofit t
    else do
      upd (·.storeMapped ps (r.vpage + r.nt * vtok r.d) new.2.1)
      kvStore ps r.kslot g (msgField page 24 8) new.2.2
      pure (g.word 0)

/-- KVAPP: one hart finds the page shared and copies, or appends in place, or waits for a copy in progress. The REFC atomic
is an acquire and a release at pkg scope (R89). -/
def kvappOp (t : Bool) (r : KvReq) : Act Word := do
  let x ← kvPhaseApp r
  if r.nt = 64 then pure (kvWord 3 0 0 0 0)
  else if x.2.ntok < r.nt then pure (kvWord 5 0 0 0 0)
  else do
    let c ← readRefc x.1 r.kslot
    acquire
    if 1 < c.1 then do
      upd (·.writeRefc x.1 r.kslot fun p => (p.1 - 1, p.2 + 1))
      kvCopy t r x.1 x.2
    else if c.2 = 0 then kvInPlace t r x.1 x.2
    else do
      upd (·.modHart fun h => { h with wait := .kvapp })
      park

/-! ### Folding (R92, R93) -/

/-- A token in a fold: its multiplicity, its key and its value blocks. -/
structure FoldTok where
  m : Nat
  key : KeyTok
  vals : List Byte
  flags : BitVec 5
deriving DecidableEq, Repr

/-- a × 2^x ≤ b × 2^y. -/
def scaledLe (a : Nat) (x : Int) (b : Nat) (y : Int) : Bool :=
  let e := min x y
  a * 2 ^ (x - e).toNat ≤ b * 2 ^ (y - e).toNat

def signedElem (e : Bool × Nat) : Int := if e.1 then -(e.2 : Int) else e.2

/-- Similar of R93. -/
def similar (theta : Nat) (a b : KeyTok) : Bool :=
  let xs := a.elems.map signedElem
  let ys := b.elems.map signedElem
  let d := (List.zipWith (· * ·) xs ys).sum
  let n1 := (xs.map fun x => (x * x).toNat).sum
  let n2 := (ys.map fun y => (y * y).toNat).sum
  let d2 := (d * d).toNat
  if n1 = 0 ∨ n2 = 0 then false
  else match FFmt.f.decode theta with
    | .nan _ => false
    | .inf n => n
    | .fin n m e =>
      if n || m = 0 then decide (0 ≤ d) || scaledLe d2 0 (m * m * n1 * n2) (2 * e)
      else decide (0 ≤ d) && scaledLe (m * m * n1 * n2) (2 * e) d2 0

/-- The weighted mean of two values, rounded to odd far below every bit that an encoding keeps. -/
def meanOf (m1 m2 : Nat) (a b : FVal) : FVal :=
  match a, b with
  | .fin n1 v1 e1, .fin n2 v2 e2 =>
    let s := exactSum n1 (m1 * v1) e1 n2 (m2 * v2) e2
    let top := s.1.natAbs * 2 ^ (s.2 + 200).toNat
    let q := top / (m1 + m2)
    .fin (s.1 < 0) (2 * q + if top % (m1 + m2) = 0 then 0 else 1) (-201)
  | _, _ => .nan false

/-- A key element as a value (R81). -/
def keyValue (k : KeyTok) (e : Bool × Nat) : FVal := .fin e.1 e.2 ((k.etok : Int) - 141)

/-- The values of a token's blocks (R67, R83). -/
def valuesOf (bs : List Byte) (d : Nat) : List FVal :=
  (List.range d).map fun i =>
    let o := i / 32 * 34
    tbValue 8 (bs.getD o 0).toNat (bs.getD (o + 1) 0).toNat (bs.getD (o + 2 + i % 32) 0).toNat

/-- Two tokens merged. -/
def mergeTok (d t : Nat) (a b : FoldTok) : FoldTok :=
  let k := kvEncode t (List.zipWith (meanOf a.m b.m) (a.key.elems.map (keyValue a.key)) (b.key.elems.map (keyValue b.key)))
  let v := valueTok d 3 (List.zipWith (meanOf a.m b.m) (valuesOf a.vals d) (valuesOf b.vals d))
  { m := min 255 (a.m + b.m), key := k.1, vals := v.1, flags := a.flags ||| b.flags ||| k.2 ||| v.2 }

/-- The tokens that remain, and whether some pair merged. -/
def foldToks (theta d t : Nat) (cur : FoldTok) : List FoldTok → List FoldTok × Bool
  | [] => ([cur], false)
  | n :: l =>
    if similar theta cur.key n.key then ((foldToks theta d t (mergeTok d t cur n) l).1, true)
    else
      let r := foldToks theta d t n l
      (cur :: r.1, r.2)

/-- KVFOLD. -/
def kvfoldOp (t : Bool) (r : KvReq) : Act Word := do
  let x ← kvPhaseFold r
  let h := x.2
  let c ← readRefc x.1 r.kslot
  acquire
  if c.1 ≠ 1 ∨ c.2 ≠ 0 then pure (kvWord 4 0 0 0 0)
  else do
    let page ← kvRead x.1 r.kslot h.plen
    let vals ← kvRead x.1 r.vpage (h.ntok * vtok r.d)
    let theta ← look (·.hart.kvfthr.toNat)
    let toks := (List.range h.ntok).map fun k =>
      let q := keyTok page h k
      { m := max 1 q.mult, key := q, vals := (vals.drop (k * vtok r.d)).take (vtok r.d), flags := 0 : FoldTok }
    match toks with
    | [] => pure (kvWord 0 0 0 0 0)
    | first :: rest =>
      let f := foldToks theta r.d h.t first rest
      if !f.2 then pure (kvWord 0 0 0 0 0)
      else
        let g : KvImage :=
          { d := r.d, t := h.t, cap := h.cap, chop := h.chop, swtag := h.swtag, refc := msgField page 48 4,
            toks := f.1.map fun k => { k.key with mult := k.m } }
        if !g.fits then kvNofit t
        else do
          let bytes := f.1.flatMap (·.vals)
          upd (·.storeMapped x.1 r.vpage (bytes ++ List.replicate (68 * r.d - bytes.length) 0))
          kvStore x.1 r.kslot g (msgField page 24 8) (f.1.foldl (fun a k => a ||| k.flags) 0)
          pure (g.word 0)

/-- A writer: its request, its work, its status word. It aligns courses, so its class orders nothing more (R188, R191). -/
def kvWrite (k : KvMinor) (op : KvReq → Act Word) (d a : Reg) : Act Unit := do
  ({} : Legal).check
  alignCourses
  let r ← readReq k a
  let w ← op r
  writeX d w

def execKvst (d a : Reg) (_c : BitVec 4) (s : State) : Host.Outcome State Fault Refusal :=
  finish (kvWrite .st (kvstOp false) d a) s

def execKvstT (d a : Reg) (_c : BitVec 4) (s : State) : Host.Outcome State Fault Refusal :=
  finish (kvWrite .st (kvstOp true) d a) s

def execKvapp (d a : Reg) (_c : BitVec 4) (s : State) : Host.Outcome State Fault Refusal :=
  finish (kvWrite .app (kvappOp false) d a) s

def execKvappT (d a : Reg) (_c : BitVec 4) (s : State) : Host.Outcome State Fault Refusal :=
  finish (kvWrite .app (kvappOp true) d a) s

def execKvfold (d a : Reg) (_c : BitVec 4) (s : State) : Host.Outcome State Fault Refusal :=
  finish (kvWrite .fold (kvfoldOp false) d a) s

def execKvfoldT (d a : Reg) (_c : BitVec 4) (s : State) : Host.Outcome State Fault Refusal :=
  finish (kvWrite .fold (kvfoldOp true) d a) s

/-- A KVAPP that waits for a copy tries REFC again (R89). -/
def execKvappWaitRetry (core hart : Nat) (s : State) : Host.Outcome State Fault Refusal :=
  .next (if core < 192 ∧ hart < 8 then
    { s with epoch := s.epoch + 1 }.modCoreAt (coreIx core) fun c =>
      c.modHart (vecIx hart) fun h => if h.wait = Wait.kvapp then { h with sleep := none } else h
  else s)

/-! ## KVLD (R186) -/

/-- The control word. -/
structure KvldCtl where
  np : Nat
  ptop : Nat
  boff : Nat
  pos : Nat
deriving DecidableEq, Repr

def kvldCtl (w : Word) : KvldCtl :=
  { np := bitsOf w.toNat 44 4, ptop := bitsOf w.toNat 40 4, boff := bitsOf w.toNat 32 8, pos := bitsOf w.toNat 0 32 }

/-- Reading with the checks of R40, source 6, no device-class memory. -/
def kvSeq (oc : BitVec 4) (va n : Nat) : Act (List Byte) := loadBytes { kind := .load, source := 6, align := n } va n oc

/-- The non-faulting form goes on past a tier miss, whose page-in has been posted. -/
def orMiss {α : Type} (nf : Bool) (m : Act α) : Act (Option α) := fun s =>
  match m s with
  | .ok (a, t) => .ok (some a, t)
  | .error (.trap t u) => if nf && t.cause == memCause kTierMiss 6 then .ok (none, u) else .error (.trap t u)
  | .error e => .error e

/-- The header of a page whose dimension must be the descriptor's. -/
def kvldHeader (oc : BitVec 4) (sd : SeqDesc) (kpage : Nat) : Act KvHeader := do
  let bs ← loadBytes { kind := .load, source := 6, align := 64 } kpage 192 oc
  let h ← kvBad (kvHeader bs)
  trapIf (h.dcode != sd.dcode) 0xA1
  pure h

/-- Headers of some pages in order: none for a page that misses a tier. -/
def kvldHeaders (nf : Bool) (oc : BitVec 4) (sd : SeqDesc) : List Nat → Act (List (Nat × Option KvHeader))
  | [] => pure []
  | k :: ks => do
    let h ← orMiss nf (kvldHeader oc sd k)
    let r ← kvldHeaders nf oc sd ks
    pure ((k, h) :: r)

/-- Byte ranges of a key slot that a plane slot takes for token k: slot 0 is the arrays and the sign plane, slot q + 1
plane PTOP − q. -/
def slotRanges (d : Nat) (h : KvHeader) (ptop slot k : Nat) : List (Nat × Nat) :=
  if slot = 0 then [(64 + k, 1), (128 + k, 1), (192 + k * d / 8, d / 8)]
  else
    let b := ptop + 1 - slot
    match (planesOf h.pbm).idxOf? b with
    | some i => [(planeOff d i + k * d / 8, d / 8)]
    | none => []

/-- Pairs in ascending order of their first number. -/
def insertFst {α : Type} (p : Nat × α) : List (Nat × α) → List (Nat × α)
  | [] => [p]
  | q :: l => if p.1 ≤ q.1 then p :: q :: l else q :: insertFst p l

def sortFst {α : Type} : List (Nat × α) → List (Nat × α)
  | [] => []
  | p :: l => insertFst p (sortFst l)

/-- Every key slot byte range to be read for a page, in ascending order. -/
def pageRanges (d : Nat) (h : KvHeader) (c : KvldCtl) (ks : List Nat) : List (Nat × Nat) :=
  let live := ks.filter (· < h.ntok)
  sortFst ((List.range (c.np + 1)).flatMap fun q => live.flatMap (slotRanges d h c.ptop q))

/-- The checks of R103 on the bytes of a page, and its pages. -/
def kvldPages (kpage : Nat) : List (Nat × Nat) → Act PageMap
  | [] => pure []
  | r :: rs => do
    let m ← xlatRange { kind := .load, source := 6 } (kpage + r.1) r.2
    let ms ← kvldPages kpage rs
    pure (m ++ ms)

/-- The pages of every key slot, in ascending order of their addresses: none for one that misses a tier. -/
def kvldSlots (nf : Bool) (d : Nat) (c : KvldCtl) (ks : Nat → List Nat) :
    List (Nat × Option KvHeader) → Act (PageMap × List Nat)
  | [] => pure ([], [])
  | (_, none) :: ps => kvldSlots nf d c ks ps
  | (k, some h) :: ps => do
    let m ← orMiss nf (do
      let a ← kvldPages k [(0, 192)]
      let b ← kvldPages k (pageRanges d h c (ks k))
      pure (a ++ b))
    let r ← kvldSlots nf d c ks ps
    pure (match m with | some m => (m ++ r.1, k :: r.2) | none => r)

/-- Issue of a plane delivery. -/
def kvldOp (nf : Bool) (l : Legal) (oc : BitVec 4) (d a : Reg) (v : BitVec 1) (t : BitVec 6) : Act Unit := do
  l.check
  let hart ← look (·.hart)
  trapIf (nf && hart.cmask == 0) 0xB4
  let busy ← look (·.core.tagBusy t.toNat)
  if busy then stall else pure ()
  let w ← readX a
  let c := kvldCtl w
  trapIf (bitsOf w.toNat 48 16 != 0 || c.ptop == 15 || c.ptop + 1 < c.np) 0xB3
  let x ← readX d
  let sd ← readDesc (kvSeq oc) x.toNat
  let dim := kvDim sd.dcode
  let s ← look id
  trapIf (decide (s.core.sb < c.boff + 4 + (1 + c.np) * (dim / 8))) 0xB0
  let run ← remaining (kvSeq oc) sd c.pos s.hart.vl.toNat
  let held := s.active.filterMap fun j =>
    (run.2.find? fun e => e.1 == (c.pos + j) / 64).map fun e => (j, e.2.kpage, (c.pos + j) % 64)
  let hs ← kvldHeaders nf oc sd (held.map (·.2.1)).eraseDups
  trapIf (decide (run.1 < s.hart.vl.toNat)) 0xA2
  let ps ← kvldSlots nf dim c (fun k => (held.filter (·.2.1 == k)).map (·.2.2)) (sortFst hs)
  let rows := held.filter fun r => ps.2.contains r.2.1
  upd (·.modCore fun c => c.takeTag t.toNat)
  upd (·.pushOp ps.1 oc (.planes t.toNat s.cur.who.hartIx (v == 1) c.boff c.np c.ptop dim 0 rows []))
  if nf then upd fun u => u.writeCmask s.active fun j => rows.any (·.1 == j) else pure ()

def execKvld (d a : Reg) (t : BitVec 6) (v : BitVec 1) (c : BitVec 4) (s : State) : Host.Outcome State Fault Refusal :=
  finish (kvldOp false { pred := true } c d a v t) s

def execKvldNf (d a : Reg) (v : BitVec 1) (t : BitVec 6) (s : State) : Host.Outcome State Fault Refusal :=
  finish (kvldOp true {} 0 d a v t) s

/-! ## Plane deliveries (R108, R109, R186) -/

/-- The header fields that a delivery uses, as memory holds them. -/
def deliveryHeader (bs : List Byte) (d : Nat) : KvHeader :=
  { dcode := msgField bs 1 1, npl := msgField bs 2 1, chop := false, pbm := msgField bs 4 2, ntok := msgField bs 6 1,
    plen := 192 + 8 * d, cap := 0, swtag := 0 }

/-- The bytes that a row receives in a slot (R186): zeros for a token at or above NTOK. -/
def slotBytes (h : KvHeader) (d slot k : Nat) (parts : List (List Byte)) : List Byte :=
  let width := if slot = 0 then 4 + d / 8 else d / 8
  if h.ntok ≤ k then List.replicate width 0
  else if slot = 0 then
    match parts with
    | [e, m, sg] => e ++ [if m = [0] then 1 else m.headD 0] ++ [BitVec.ofNat 8 (15 - h.npl), 0] ++ sg
    | _ => []
  else match parts with
    | [p] => p
    | _ => List.replicate width 0

/-- Offset of a slot in the row-local layout. -/
def slotOff (d boff slot : Nat) : Nat := if slot = 0 then boff else boff + 4 + slot * (d / 8)

/-- The parts of a slot in the order in which a page is delivered (R108): slot 0 is the arrays, then the sign plane. Of
each, the offset in the slot and the width, and which of the row's source ranges it reads. -/
def slotParts (d slot : Nat) : List ((Nat × Nat) × Nat × Nat) :=
  if slot = 0 then [((0, 4), 0, 2), ((4, d / 8), 2, 1)] else [((0, d / 8), 0, 1)]

/-- The core rows of the bricks of some core rows. -/
def brickRows (rows : List Nat) : List Nat := ((rows.map (· / 2048)).eraseDups).flatMap fun b => List.range' (2048 * b) 2048

/-- Rows of a hart's bricks whose groups fail when a plane port transfers some columns (R120): gated rows are not
verified. -/
def Core.planePortFails (c : Core) (cols : BitVec 1024) (rows : List Nat) : List Nat :=
  if c.rows.all (·.2.chk == 0) then []
  else (brickRows rows).filter fun n => !(c.row n).bit 0 && (c.row n).fails cols

/-- A delivery under way: where it runs, what it reads through, and how its layout lies. -/
structure Delivery where
  core : Fin 192
  hart : Nat
  pages : PageMap
  d : Nat
  boff : Nat
  ptop : Nat
  slot : Nat

/-- The source ranges of a row: hart row, key page, token. -/
def Delivery.ranges (v : Delivery) (h : KvHeader) (r : Nat × Nat × Nat) : List (Nat × Nat) :=
  if r.2.2 < h.ntok then (slotRanges v.d h v.ptop v.slot r.2.2).map fun p => (r.2.1 + p.1, p.2) else []

/-- One part of a slot for the rows of one page: the rows before the first source sector that fails are laid, unless a row
of their bricks fails its check columns (R104, R120, R121). -/
def State.deliverPart (s : State) (v : Delivery) (mem : List Host.Cell) (h : KvHeader) (rows : List (Nat × Nat × Nat))
    (part : (Nat × Nat) × Nat × Nat) : State × Option (Bool × Nat) :=
  let c := s.cores[v.core]
  let src := fun r => ((v.ranges h r).drop part.2.1).take part.2.2
  let badAt := fun r => (src r).findSome? fun p => v.pages.firstBad s p.1 p.2
  let good := rows.takeWhile fun r => (badAt r).isNone
  let at_ := fun (r : Nat × Nat × Nat) => c.row0 v.hart + r.1
  let col := c.scol0 + 8 * (slotOff v.d v.boff v.slot + part.1.1)
  match c.planePortFails (colMask col (8 * part.1.2)) (good.map at_) with
  | b :: bs => (s.logRowsOf v.core 0x7E (b :: bs) (colMask col (8 * part.1.2)), some (true, (least (b :: bs)).getD b))
  | [] =>
    let bytes := fun r => ((slotBytes h v.d v.slot r.2.2 ((v.ranges h r).map fun p => v.pages.read mem p.1 p.2)).drop part.1.1).take part.1.2
    let t := good.foldl (fun t r => (src r).foldl (fun t p => t.rangeTraffic v.pages .low .read p.1 p.2 []) t) s
    let t := t.modCoreAt v.core fun c => good.foldl (fun c r =>
      c.setRow (at_ r) ((c.row (at_ r)).put col (8 * part.1.2) (leOfBytes (bytes r)))) c
    (t, ((rows.drop good.length).head?.bind badAt).map fun a => (false, a))

/-- One slot of one page, whose header the delivery reads again (log 54): the state, and where a check failed. -/
def State.deliverPage (s : State) (v : Delivery) (mem : List Host.Cell) (rows : List (Nat × Nat × Nat)) (page : Nat) :
    State × Option (Bool × Nat) :=
  if s.sectorBad (v.pages.pa page) then (s, some (false, page))
  else
    let h := deliveryHeader (v.pages.read mem page 64) v.d
    (slotParts v.d v.slot).foldl (fun q p => if q.2.isSome then q else
      q.1.deliverPart v mem h (rows.filter fun r => r.2.1 == page) p)
      (s.rangeTraffic v.pages .low .read page 64 [], none)

/-- A slot of some rows, page after page. -/
def State.deliverRows (s : State) (v : Delivery) (mem : List Host.Cell) (rows : List (Nat × Nat × Nat)) :
    State × Option (Bool × Nat) :=
  ((rows.map (·.2.1)).eraseDups).foldl (fun q p => if q.2.isSome then q else q.1.deliverPage v mem rows p) (s, none)

/-- Whether the VDOTV that a delivery is bound to has started in the course of a core row (R286). -/
def Core.dotStarted (c : Core) (hart : Fin 8) (n : Nat) : Bool :=
  match c.harts[hart].walk with
  | none => false
  | some w => w.courses.any fun x => x.course == courseOfRow n && (x.begun || x.ended)

/-- Pages all of whose sampled rows are abandoned or settled (R109). Rows of a course where the bound VDOTV has not started
count as live (R286). -/
def State.settledPages (s : State) (core : Fin 192) (hart : Fin 8) (pages : PageMap) (d : Nat)
    (rows : List (Nat × Nat × Nat)) : List Nat :=
  let c := s.cores[core]
  ((rows.map (·.2.1)).eraseDups).filter fun k =>
    let h := deliveryHeader (pages.read s.mem k 64) d
    !s.sectorBad (pages.pa k) && (rows.filter fun r => r.2.1 == k && r.2.2 < h.ntok).all fun r =>
      let n := c.row0 hart.val + r.1
      c.dotStarted hart n && (c.row n).bit 0

/-- The next plane slot of a delivery has been laid or skipped in every row: DPLN counts it. After the last one the tag
completes; it fails when a check fails (R104). The rows of a bound delivery are sampled before every magnitude slot, one
whose plane is absent from PBM too (log 85). -/
def State.deliverSlot (s : State) (core : Fin 192) (o : EngineOp) : State :=
  match o.kind with
  | .planes tag h vb boff np ptop d slots rows settled =>
    if np < slots then s.modCoreAt core fun c => (c.putOp o none).endTag tag none
    else
      let settled := if vb && slots != 0 then
          settled ++ (s.settledPages core h o.pages d rows).filter fun k => !settled.contains k
        else settled
      let m := s.forkMem o.past
      let r := m.2.deliverRows { core := core, hart := h.val, pages := o.pages, d := d, boff := boff, ptop := ptop, slot := slots }
        m.1 (rows.filter fun r => !settled.contains r.2.1)
      match r.2 with
      | some p =>
        let t := if p.1 then r.1 else r.1.logEngine core o.pages 0x7E false (some p.2)
        t.modCoreAt core fun c => (c.putOp o none).endTag tag (some (0x7E, BitVec.ofNat 64 p.2))
      | none => r.1.modCoreAt core fun c =>
        let c := c.putOp o (some (.planes tag h vb boff np ptop d (slots + 1) rows settled))
        { c with tags := c.tags.set (tagIx tag) { c.tags[tagIx tag] with planes := slots + 1 } }
  | _ => s

end Sys2Proof.Machine
end

