-- ==== Sys2Proof/Machine/Select.lean ====
section
/-! DEFINITION. Search and selection, the list unit, and verdict-class accumulation (R265 to R292). -/

namespace Sys2Proof.Machine

/-! ## Search (R268, R269) -/

/-- A source that R74 sees as an integer of a width. -/
def srcInt (r : Reg) (w : Nat) : Src := { reg := r.toNat, width := w, kind := .int w }

def execVsrch (k : BitVec 3) (a b : Reg) (e : BitVec 4) (t : BitVec 2) (s : State) : Host.Outcome State Fault Refusal :=
  finish (do
    let w := typeWidth e
    let l := maskLegal [src a e] 0 (e != 15)
    ({ l with rsv := b == 31 } : Legal).check
    maskOp { l with rsv := b == 31 } k [src a e] fun s j =>
      let m := ((s.elem a.toNat w j ^^^ (s.getX b).toNat) &&& (s.getX (b + 1)).toNat) % 2 ^ w == 0
      let old := s.maskBit k.toNat j
      (if t = 0 then m else if t = 1 then old && m else if t = 2 then old || m else old && !m, 0)) s

/-- The number of ones in the low w bits. -/
def popBits (v : Nat) : Nat → Nat
  | 0 => 0
  | w + 1 => (if bitOf v w then 1 else 0) + popBits v w

def execVham (d a b : Reg) (e : BitVec 4) (w : BitVec 2) (c x : BitVec 1) (s : State) : Host.Outcome State Fault Refusal :=
  finish (do
    let kw := 8 * 2 ^ w.toNat
    let dw := typeWidth e
    let srcs := (if c = 1 then [src d e] else []) ++ srcInt a kw :: (if x = 1 then [] else [srcInt b kw])
    let l := { vecLegal d dw srcs 0 (8 ≤ e.toNat && e.toNat ≤ 10) with width := max dw kw }
    l.check
    trapIf (d == a || (x == 0 && d == b)) 0x0C
    elemOp l d dw srcs fun s j =>
      let h := popBits (s.elem a.toNat kw j ^^^ s.operandB x b kw j) kw
      (if c = 1 then (s.elem d.toNat dw j + h) % 2 ^ dw else h, 0)) s

/-! ## VTOPK (R270) -/

/-- The ordered key of a pattern. -/
def ordKey (e : BitVec 4) (v : Nat) : Nat :=
  let w := typeWidth e
  if typeFloat e then (if bitOf v (w - 1) then v ^^^ (2 ^ w - 1) else v ^^^ 2 ^ (w - 1))
  else if typeSigned e then v ^^^ 2 ^ (w - 1) else v

/-- ABN- and ABN+ of the two verdict types (R71, R72). -/
def abnMinus (e : BitVec 4) : Nat := if e = 14 then 0xFF8AB000 else 0x80000000
def abnPlus (e : BitVec 4) : Nat := if e = 14 then 0x7F8AB000 else 0x80000001

/-- The walk over the bits of the keys: candidates as (row, key), what is still needed, what is selected. -/
def radixWalk : Nat → List (Nat × Nat) → Nat → List Nat → List Nat
  | 0, cd, need, sel => sel ++ (cd.take need).map (·.1)
  | b + 1, cd, need, sel =>
    let t := cd.filter fun p => bitOf p.2 b
    if need ≤ t.length then radixWalk b t need sel
    else radixWalk b (cd.filter fun p => !bitOf p.2 b) (need - t.length) (sel ++ t.map (·.1))

/-- The rows that VTOPK selects among some rows. -/
def State.topk (s : State) (rows : List Nat) (a : Reg) (e : BitVec 4) (min : Bool) (k : Nat) : List Nat :=
  let w := typeWidth e
  let verdict := s.hart.vcBit a.toNat && (e == 4 || e == 14)
  let val := fun j => s.elem a.toNat w j
  let plus := fun j => verdict && val j == abnPlus e
  let nan := fun j => typeFloat e && ((fmtOf e).decode (val j)).isNan && !plus j
  let el := rows.filter fun j => !nan j && !(verdict && val j == abnMinus e) && !(min && plus j)
  let need := Nat.min k el.length
  let p := (if min then [] else el.filter plus).take need
  let cd := (el.filter fun j => min || !plus j).map fun j =>
    (j, if min then ordKey e (val j) ^^^ (2 ^ w - 1) else ordKey e (val j))
  radixWalk w cd (need - p.length) p

def execVtopk (k : BitVec 3) (a b : Reg) (e : BitVec 4) (m : BitVec 1) (s : State) : Host.Outcome State Fault Refusal :=
  finish (do
    let sr := if e = 4 ∨ e = 14 then srcRaw a e else src a e
    (maskLegal [sr] 0 (e != 15)).check
    let n ← readX b
    let s ← look id
    allRows { regs := [a.toNat], cols := maskCols k.toNat ||| s.srcCols [sr], dcols := maskCols k.toNat,
              aligns := true, srcs := [(sr.reg, sr.kind)] } s.passRows do
      let sel := s.topk s.passRows a e (m == 1) n.toNat
      upd fun t => if k = 0 then t
        else s.passRows.foldl (fun t j => t.setRow j ((t.row j).putBit k.toNat (sel.contains j))) t
      upd (·.scramble .all s.passRows)) s

/-! ## The list unit (R271 to R278) -/

/-- A score as a natural key in score order: OrdK (R274). -/
def ordScore (int32 : Bool) (v : Nat) : Nat := ordKey (if int32 then 4 else 14) v

/-- The binary32 pattern of an OrdK. -/
def ordDecode (k : Nat) : Nat := if bitOf k 31 then k ^^^ 0x80000000 else k ^^^ 0xFFFFFFFF

/-- The threshold of a list (R271). -/
def TkList.theta (l : TkList) : Nat :=
  if l.entries.length = l.cap then (match l.entries.getLast? with | some e => e.1.toNat | none => 0)
  else if l.int32 then 0x80000000 else 0xFF800000

/-- A pair in list order: descending score, ascending id. -/
def TkList.insert (int32 : Bool) (p : BitVec 32 × BitVec 32) : List (BitVec 32 × BitVec 32) → List (BitVec 32 × BitVec 32)
  | [] => [p]
  | q :: l =>
    let a := ordScore int32 p.1.toNat
    let b := ordScore int32 q.1.toNat
    if b < a ∨ (a = b ∧ p.2.toNat < q.2.toNat) then p :: q :: l else q :: TkList.insert int32 p l

/-- One offer (R272). -/
def TkList.offer (l : TkList) (p : BitVec 32 × BitVec 32) : TkList :=
  if !l.int32 && (FFmt.f.decode p.1.toNat).isNan then l
  else
    let put := fun es => { l with entries := (TkList.insert l.int32 p es).take l.cap }
    match l.entries.find? (·.2 == p.2) with
    | some e =>
      if ordScore l.int32 e.1.toNat < ordScore l.int32 p.1.toNat then put (l.entries.filter (·.2 != p.2)) else l
    | none => put l.entries

def listIx (n : BitVec 2) : Fin 4 := n.toFin

def Core.modList (c : Core) (n : Fin 4) (f : TkList → TkList) : Core := { c with lists := c.lists.set n (f c.lists[n]) }
def State.modList (s : State) (n : Fin 4) (f : TkList → TkList) : State := s.modCore (·.modList n f)

/-- TKCHK: a list whose storage fails its check loses INIT (R384, log 95). -/
def listCheck (n : Fin 4) : Act Unit := fun s =>
  if s.core.flaws.contains (.list n) then
    .error (.trap { cause := 0xA6 }
      ((s.modList n fun l => { l with init := false }).modCore fun c => { c with flaws := c.flaws.erase (.list n) }))
  else .ok ((), s)

/-- What an operation on a list waits for and raises first: a merge, whose end it observes (R52, R196), its failure
(R277), a failing check. -/
def listJoin (n : Fin 4) : Act TkList := do
  let l ← look fun s => s.core.lists[n]
  if l.busy then stall else pure ()
  if l.merged then do
    acquire
    upd (·.modList n fun l => { l with merged := false, err := none })
  else pure ()
  match l.err with
  | some e => raise e.cause e.faddr
  | none => pure ()
  listCheck n
  pure l

/-- The same, and INIT = 0 is refused (R274). -/
def listGate (n : BitVec 2) (init : Bool) : Act TkList := do
  let l ← listJoin (listIx n)
  trapIf (init && !l.init) 0xA4
  pure l

def execTkinit (a : Reg) (n : BitVec 2) (sf : BitVec 1) (s : State) : Host.Outcome State Fault Refusal :=
  finish (do
    ({} : Legal).check
    let _ ← listGate n false
    let k ← readX a
    trapIf (k == 0 || decide (64 < k.toNat)) 0xA4
    upd (·.modList (listIx n) fun _ => { init := true, int32 := sf == 1, cap := k.toNat, entries := [], err := none, busy := false, merged := false })) s

/-- The score that a row offers: none for ABN-, the highest value for ABN+ (R274). -/
def State.offerScore (s : State) (a : Reg) (int32 : Bool) (j : Nat) : Option Nat :=
  let v := s.elem a.toNat 32 j
  let e : BitVec 4 := if int32 then 4 else 14
  if !s.hart.vcBit a.toNat then some v
  else if v = abnMinus e then none
  else if v = abnPlus e then some (if int32 then 0x7FFFFFFF else 0x7F800000)
  else some v

def execTkins (d a : Reg) (n : BitVec 2) (k : BitVec 3) (v : BitVec 1) (s : State) : Host.Outcome State Fault Refusal :=
  finish (do
    let ids := if v = 1 then [d.toNat] else []
    ({ vregs := a.toNat :: ids, vreads := a.toNat :: ids, width := 32 } : Legal).check
    let l ← listGate n true
    let base ← readX d
    landedAll (a.toNat :: ids)
    let s ← look id
    let all := List.range s.hart.vl.toNat
    abnCheck all (ids.map fun i => (i, .int 32))
    rowCheck { regs := [], cols := s.regCols a.toNat 32 ||| maskCols k.toNat |||
                 ids.foldl (fun m i => m ||| s.regCols i 32) 0, dcols := 0, dlats := 0 } (s.ungated all)
    let rows := all.filter (s.maskBit k.toNat)
    let offers := rows.filterMap fun j => (s.offerScore a l.int32 j).map fun sc =>
      (BitVec.ofNat 32 sc, if v = 1 then BitVec.ofNat 32 (s.elem d.toNat 32 j) else BitVec.ofNat 32 (base.toNat + j))
    upd (·.modList (listIx n) fun l => offers.foldl (fun l p => l.offer p) l)
    upd (·.scramble .all all)
    replayStep) s

/-- The image of a list (R275): its entries, then zero entries up to its capacity. -/
def TkList.image (l : TkList) : List Byte :=
  let entries := l.entries.flatMap fun e => bytesOfLe 4 e.1.toNat ++ bytesOfLe 4 e.2.toNat
  [BitVec.ofNat 8 l.entries.length, BitVec.ofNat 8 l.cap, if l.int32 then 1 else 0, 0, 0, 0, 0, 0] ++ entries ++
    List.replicate (8 * (l.cap - l.entries.length)) 0

def execTkrd (d a : Reg) (n : BitVec 2) (c : BitVec 4) (s : State) : Host.Outcome State Fault Refusal :=
  finish (do
    ({} : Legal).check
    let l ← listGate n true
    let x ← readX a
    storeBytes { kind := .store, source := 2, align := 8 } x.toNat l.image c
    writeX d (BitVec.ofNat 64 l.entries.length)) s

def execTkmrg (a : Reg) (n : BitVec 2) (c : BitVec 4) (s : State) : Host.Outcome State Fault Refusal :=
  finish (do
    ({} : Legal).check
    let _ ← listGate n true
    let x ← readX a
    let p ← xlatRange { kind := .load, source := 6, align := 8 } x.toNat 520
    upd (·.modList (listIx n) fun l => { l with busy := true })
    upd (·.pushOp p c (.merge n.toNat x.toNat))) s

def execTkthr (d : Reg) (n : BitVec 2) (o : BitVec 1) (s : State) : Host.Outcome State Fault Refusal :=
  finish (do
    ({} : Legal).check
    let l ← listGate n true
    let t := l.theta
    writeX d (if o = 1 then BitVec.ofNat 64 (ordScore l.int32 t)
      else if l.int32 then signExtendNat t 32 else BitVec.ofNat 64 t)) s

/-- Whether an image cannot be merged into a list (R277). -/
def TkList.refuses (l : TkList) (bs : List Byte) : Bool :=
  ((bs.drop 3).take 5).any (· != 0) || decide (64 < (bs.getD 0 0).toNat) || bs.getD 2 0 != (if l.int32 then 1 else 0)

/-- The entries of an image. -/
def imageEntries (bs : List Byte) : List (BitVec 32 × BitVec 32) :=
  (List.range (bs.getD 0 0).toNat).map fun e =>
    (BitVec.ofNat 32 (leOfBytes ((bs.drop (8 + 8 * e)).take 4)), BitVec.ofNat 32 (leOfBytes ((bs.drop (12 + 8 * e)).take 4)))

/-- A merge ends: offers, or a failure held on the list (R277). -/
def State.completeMerge (s : State) (core : Fin 192) (o : EngineOp) : State :=
  match o.kind with
  | .merge list va =>
    let n : Fin 4 := dieIx list
    let done := fun (t : State) (f : TkList → TkList) => t.modCoreAt core fun c =>
      (c.putOp o none).modList n fun l => { f l with busy := false, merged := true }
    match PageMap.firstBad o.pages s va 520 with
    | some a =>
      done (s.logSite 1 core 0x7E none (PageMap.pa o.pages a)) fun l => { l with err := some { cause := 0x7E, faddr := BitVec.ofNat 64 a } }
    | none =>
      let m := s.forkMem o.past
      let s := m.2.rangeTraffic o.pages .low .read va 520 []
      let bs := PageMap.read o.pages m.1 va 520
      if s.cores[core].lists[n].refuses bs then done s fun l => { l with err := some { cause := 0xA4, faddr := 0 } }
      else done s fun l => (imageEntries bs).foldl (fun l p => l.offer p) l
  | _ => s

/-! ## VTERM (R279, R280) -/

/-- A term entry's fields (R279). -/
def termQ (t : BitVec 32) : Nat := bitsOf t.toNat 16 8
def termNeg (t : BitVec 32) : Bool := bitOf t.toNat 12
def termPl (t : BitVec 32) : Nat := bitsOf t.toNat 8 4
def termI (t : BitVec 32) : Nat := bitsOf t.toNat 0 8
def termWeight (t : BitVec 32) : Nat := termQ t * 2 ^ termPl t

def mkTerm (q : Int) (pl i : Nat) : BitVec 32 :=
  BitVec.ofNat 32 (q.natAbs * 65536 + (if q < 0 then 4096 else 0) + pl * 256 + i)

/-- Term order: descending weight, then higher PL, then lower I. -/
def termBefore (a b : BitVec 32) : Bool :=
  decide (termWeight b < termWeight a) ||
  (termWeight a == termWeight b && (decide (termPl b < termPl a) || (termPl a == termPl b && decide (termI a < termI b))))

def termInsert (t : BitVec 32) : List (BitVec 32) → List (BitVec 32)
  | [] => [t]
  | u :: l => if termBefore t u then t :: u :: l else u :: termInsert t l

/-- The dimension of a DCODE. -/
def dimOf (dcode : Nat) : Nat := 64 * 2 ^ dcode

/-- VTERM. A PHI of 15 lies outside the range that the control word's table gives and is refused as the other bad fields are
(log 113); the query is read in class oc, which the entry gives its stores (log 114). -/
def execVterm (d a b : Reg) (e c : BitVec 4) (s : State) : Host.Outcome State Fault Refusal :=
  finish (do
    ({ rsv := b == 31, ewOk := e == 1 || e == 2 } : Legal).check
    let q ← readX a
    let l ← readX b
    let w ← readX (b + 1)
    let plo := bitsOf w.toNat 6 4
    let phi := bitsOf w.toNat 2 4
    trapIf (bitsOf w.toNat 10 54 != 0 || bitsOf w.toNat 0 2 == 3 || decide (phi < plo) || phi == 15) 0xA5
    let dim := dimOf (bitsOf w.toNat 0 2)
    let bs ← loadBytes { kind := .load, source := 1 } q.toNat (dim * typeWidth e / 8) c
    let qs := (List.range dim).map fun i =>
      intOf true (typeWidth e) (bitsOf (leOfBytes ((bs.drop (i * typeWidth e / 8)).take 1)) (i * typeWidth e % 8) (typeWidth e))
    let terms := (qs.zipIdx.flatMap fun p =>
      if p.1 = 0 then [] else (List.range' plo (phi + 1 - plo)).map fun pl => mkTerm p.1 pl p.2).foldl
        (fun l t => termInsert t l) []
    storeBytes { kind := .store, source := 2, align := 4 } l.toNat (terms.flatMap fun t => bytesOfLe 4 t.toNat) c
    writeX d (BitVec.ofNat 64 terms.length)) s

/-! ## VDOTV (R281 to R289) -/

/-- What a VDOTV works with: the fields of its verdict word, its predicate, its list and its threshold. -/
structure DotWord where
  eb : Nat
  tag : Nat
  wait : Bool
  np : Nat
  ptop : Nat
  dim : Nat
  boff : Nat
  nterm : Nat
  /-- 0 SIGN, 1 TOPK, 2 THRC -/
  pred : Nat
  list : Fin 4
  theta : Nat
deriving DecidableEq, Repr

def dotWord (w : Word) (p n : BitVec 2) (x2 : Word) : DotWord :=
  let v := w.toNat
  { eb := bitsOf v 48 8, tag := bitsOf v 39 6, wait := bitOf v 38, np := bitsOf v 30 4, ptop := bitsOf v 26 4,
    dim := dimOf (bitsOf v 24 2), boff := bitsOf v 16 8, nterm := bitsOf v 0 12, pred := p.toNat, list := listIx n,
    theta := x2.toNat % 2 ^ 32 }

/-- Check 1 of R282. -/
def dotBad (c : Core) (w : Word) (k : DotWord) (x2 : Word) : Bool :=
  let v := w.toNat
  bitsOf v 56 8 != 0 || bitsOf v 45 3 != 0 || bitOf v 34 || bitsOf v 12 4 != 0 || bitsOf v 24 2 == 3 || k.nterm == 0 ||
  decide (3840 < k.nterm) || k.ptop == 15 || decide (k.ptop + 1 < k.np) || decide (5 < bitsOf v 35 3) ||
  (k.pred == 2 && decide (2 ^ 32 ≤ x2.toNat)) || (k.pred == 1 && (!c.lists[k.list].init || c.lists[k.list].int32))

/-- An entry of a term list that is not well formed. -/
def termBad (k : DotWord) (t : BitVec 32) : Bool :=
  bitsOf t.toNat 24 8 != 0 || bitsOf t.toNat 13 3 != 0 || decide (k.dim ≤ termI t) || termQ t == 0 ||
  decide (128 < termQ t) || decide (k.ptop < termPl t) || decide (termPl t + k.np < k.ptop + 1)

def termsOrdered : List (BitVec 32) → Bool
  | a :: b :: l => termBefore a b && termsOrdered (b :: l)
  | _ => true

/-! ### The layout in a row (R186, R283) -/

/-- Row-local byte o of a row. -/
def Core.localByte (c : Core) (r : Row) (o : Nat) : Nat := r.get (c.scol0 + 8 * o) 8

def dotMul (c : Core) (k : DotWord) (r : Row) : Nat := c.localByte r (k.boff + 1)
def dotTok (c : Core) (k : DotWord) (r : Row) : Nat := c.localByte r k.boff
def dotSgn (c : Core) (k : DotWord) (r : Row) (i : Nat) : Bool := bitOf (c.localByte r (k.boff + 4 + i / 8)) (i % 8)
def dotKey (c : Core) (k : DotWord) (r : Row) (i pl : Nat) : Bool :=
  bitOf (c.localByte r (k.boff + 4 + k.dim / 8 * (1 + k.ptop - pl) + i / 8)) (i % 8)

/-- The verdict of a row as an integer. -/
def verdictInt (v : Nat) : Int := intOf true 32 v
def ofInt32 (v : Int) : Nat := (v.emod (2 ^ 32)).toNat

/-- A sum in the legal range of an int32 verdict (R71). -/
def legalVerdict (v : Int) : Int := max (-(2 ^ 31) + 2) (min v (2 ^ 31 - 1))

/-- The columns that every pass of a VDOTV senses or writes: vd, its copy and the gate. -/
def State.dotDest (s : State) (d : Nat) : BitVec 1024 := s.destCols d 32 ||| colMask 0 1

/-- The columns of row-local byte o. -/
def Core.byteCols (c : Core) (o : Nat) : BitVec 1024 := colMask (c.scol0 + 8 * o) 8

/-- The columns of a row that the passes of a term sense: the sign and the plane's bit. -/
def Core.termCols (c : Core) (k : DotWord) (t : BitVec 32) : BitVec 1024 :=
  c.byteCols (k.boff + 4 + termI t / 8) |||
    c.byteCols (k.boff + 4 + k.dim / 8 * (1 + k.ptop - termPl t) + termI t / 8)

/-! ### One course -/

/-- Whether a plane delivery is under way on a tag. -/
def Core.delivering (c : Core) (tag : Nat) : Bool :=
  c.ops.any fun o => match o.kind with | .planes t .. => t == tag | _ => false

/-- What a wait for n delivered slots finds: nothing to wait for, a wait, or a failed tag. -/
inductive PlaneWait where
  | go
  | wait
  | failed (cause : BitVec 8) (addr : Word)
deriving DecidableEq, Repr

def Core.planeWait (c : Core) (k : DotWord) (n : Nat) : PlaneWait :=
  if !k.wait || n ≤ c.tags[tagIx k.tag].planes then .go
  else if c.tagFailed k.tag then .failed c.tags[tagIx k.tag].cause c.tags[tagIx k.tag].addr
  else if c.delivering k.tag then .wait
  else .go

/-- The first values of a fresh walk: an empty slot is settled at once (R283). -/
def dotStart (k : DotWord) (regs : List Nat) (c : Core) (r : Row) : Row :=
  if dotMul c k r = 0 then (putElem c regs 32 (if k.pred = 0 then 0 else 0x80000000) r).putBit 0 true
  else putElem c regs 32 0 r

/-- One term on a live row. -/
def dotTerm (k : DotWord) (regs : List Nat) (t : BitVec 32) (c : Core) (r : Row) : Row :=
  if r.bit 0 || !dotKey c k r (termI t) (termPl t) then r
  else
    let v := verdictInt (r.get (c.vcol (regs.headD 0)) 32)
    let q := signed (termNeg t != dotSgn c k r (termI t)) (termWeight t)
    putElem c regs 32 (ofInt32 (legalVerdict (v + q))) r

/-- The threshold scaled to a class: the smallest integer not below theta * 2^c, clamped (R284). -/
def scaleTheta (v : FVal) (c : Nat) : Option Int :=
  let clamp := fun (x : Int) => max (-(2 ^ 49)) (min (2 ^ 49) x)
  match v with
  | .nan _ => none
  | .inf true => none
  | .inf false => some (2 ^ 49)
  | .fin n m e =>
    let q : Int := e + c
    some (clamp (if 0 ≤ q then signed n (m * 2 ^ q.toNat)
      else if n then -((m / 2 ^ (-q).toNat : Nat) : Int)
      else (((m + 2 ^ (-q).toNat - 1) / 2 ^ (-q).toNat : Nat) : Int)))

def FVal.positive : FVal → Bool
  | .fin n m _ => !n && m != 0
  | .inf n => !n
  | .nan _ => false

/-- Test(n) on a live row with B the weight still to come. -/
def dotTest (k : DotWord) (regs : List Nat) (theta : FVal) (b : Nat) (c : Core) (r : Row) : Row :=
  if r.bit 0 then r
  else
    let v := verdictInt (r.get (c.vcol (regs.headD 0)) 32)
    if k.pred = 0 then
      if (b : Int) < v then (putElem c regs 32 0x80000001 r).putBit 0 true
      else if v < -(b : Int) then (putElem c regs 32 0x80000000 r).putBit 0 true
      else r
    else if k.eb < dotTok c k r then r
    else
      let cl := k.eb - dotTok c k r
      if 15 < cl && !theta.positive then r
      else match scaleTheta theta (min cl 15) with
        | none => r
        | some t => if v + b < t then (putElem c regs 32 0x80000000 r).putBit 0 true else r

/-- Some rows of the hart changed by a function of their content. -/
def State.mapRows (s : State) (rows : List Nat) (f : Core → Row → Row) : State :=
  rows.foldl (fun s j => s.setRow j (f s.core (s.row j))) s

/-- A snapshot of the threshold (R285): the largest of the earlier one, the list's and the word's; a failing check of
the word stops the course. -/
def State.snapshot (s : State) (k : DotWord) (word : Option (Nat × Nat)) (old : Nat) : Except (BitVec 8 × Word) Nat :=
  if k.pred ≠ 1 then .ok old
  else
    let a := max old (ordScore false (s.core.lists[k.list].theta))
    match word with
    | none => .ok a
    | some a' =>
      if s.sectorBad a'.2 then .error (0x79, BitVec.ofNat 64 a'.1)
      else
        let w := readLE s.mem a'.2 4
        .ok (if (FFmt.f.decode (ordDecode w)).isNan then a else max a w)

def weightOf (ts : List (BitVec 32)) : Nat := (ts.map termWeight).sum

/-- A course stops where it cannot be restarted: how far it came means nothing (R121, R232, R396). -/
def VdotvCourse.lost (x : VdotvCourse) (s : State) (cause : BitVec 8) (addr : Word) : State × VdotvCourse × Bool :=
  let f := s.fresh
  (f.2, { x with stopped := some (cause, addr), pos := Config.freeNat f.1, norst := true }, false)

/-- The live rows of a course whose groups fail in a pass over some columns are logged, and the course stops at the lowest
(R121); otherwise the walk goes on. -/
def State.dotPass (s : State) (rows : List Nat) (cols : BitVec 1024) (x : VdotvCourse)
    (go : State × VdotvCourse × Bool) : State × VdotvCourse × Bool :=
  match s.failRows (s.ungated rows) fun _ => cols with
  | [] => go
  | bad => x.lost (s.logRows 0xB2 bad fun _ => cols) 0xB2 (BitVec.ofNat 64 (s.coreRow ((least bad).getD 0)))

/-- The terms of a course from where it stands: the state, the course, and whether it waits for a plane, or at a test for
a merge into its list (R278). -/
def State.walkTerms (s : State) (k : DotWord) (regs rows : List Nat) (int : Nat) (word : Option (Nat × Nat)) (x : VdotvCourse) :
    List (BitVec 32) → State × VdotvCourse × Bool
  | [] => (s, { x with ended := true }, false)
  | t :: ts =>
    let test := int != 0 && (x.pos + 1) % int == 0 && ts != []
    match s.core.planeWait k (k.ptop - termPl t + 2) with
    | .wait => (s, x, true)
    | .failed c a => (s, { x with stopped := some (c, a) }, false)
    | .go =>
      if test && k.pred == 1 && s.core.lists[k.list].busy then (s, x, true) else
      let etok := if test && k.pred != 0 then s.core.byteCols k.boff else 0
      s.dotPass rows (s.dotDest (regs.headD 0) ||| s.core.termCols k t ||| etok) x <|
      let s := s.mapRows rows (dotTerm k regs t)
      let x := { x with pos := x.pos + 1 }
      let s := if test && k.pred == 1 then word.elim s fun w => s.traffic .high .read w.2 4 [] else s
      match (if test then s.snapshot k word x.threshold else .ok x.threshold) with
      | .error e => (word.elim s (fun w => s.logCheck 0x79 w.2), { x with stopped := some e }, false)
      | .ok th =>
        let theta := FFmt.f.decode (if k.pred = 1 then ordDecode th else k.theta)
        let s := if test then s.mapRows rows (dotTest k regs theta (weightOf ts)) else s
        let x := { x with threshold := th }
        if rows.all fun j => (s.row j).bit 0 then (s, { x with ended := true }, false)
        else s.walkTerms k regs rows int word x ts

/-- The active rows of a course. -/
def State.courseRows (s : State) (c : Nat) : List Nat := s.active.filter fun j => courseOfRow (s.coreRow j) == c

/-- A course's mason finds its microcode, or its term buffer, failing its check (R384, log 95). -/
def State.walkFlaw (s : State) (c : Nat) (rows : List Nat) : Option (BitVec 8 × Word × State) :=
  let drop := fun (u : HwUnit) => s.modCore fun k => { k with flaws := k.flaws.erase u }
  if s.core.flaws.contains (.microcode (vecIx c)) then
    some (0x98 ||| BitVec.ofNat 8 c, BitVec.ofNat 64 (s.coreRow (rows.headD 0)), drop (.microcode (vecIx c)))
  else if s.core.flaws.contains (.terms (vecIx c)) then some (0xA7, 0, drop (.terms (vecIx c)))
  else none

/-- A slice of vd or of its copy that failed in a course: the course traps with its rows of them undefined (R101, R232). -/
def State.walkSlice (s : State) (d : Nat) (fs : List FailedSlice) (x : VdotvCourse) : Option (State × VdotvCourse × Bool) :=
  (lowestSlice (fs.filter fun f => s.sliceCourse f.slice == x.course)).map fun f =>
    x.lost (s.mark (8192 * x.course) (8192 * x.course + 8192) (s.destCols d 32) 0) f.cause f.addr

/-- A course goes on as far as it can: after its landed bits and plane slot 0, its rows' first values, then the terms
(R134, R283). -/
def State.walkCourse (s : State) (k : DotWord) (regs : List Nat) (fs : List FailedSlice) (w : Walking) (x : VdotvCourse) :
    State × VdotvCourse × Bool :=
  if x.ended || x.stopped.isSome then (s, x, false)
  else match s.walkSlice (regs.headD 0) fs x with
  | some r => r
  | none =>
    let rows := s.courseRows x.course
    match s.core.planeWait k 2 with
    | .wait => (s, x, true)
    | .failed c a => (s, { x with stopped := some (c, a) }, false)
    | .go =>
      match s.walkFlaw x.course rows with
      | some f => x.lost f.2.2 f.1 f.2.1
      | none =>
        let walk := fun (s : State) =>
          s.walkTerms k regs rows s.hart.vtestint.toNat w.word { x with begun := true } (w.terms.drop x.pos)
        if x.begun then walk s
        else s.dotPass rows (s.dotDest (regs.headD 0) ||| s.core.byteCols (k.boff + 1)) x
          (walk (s.mapRows rows (dotStart k regs)))

def State.walkCourses (s : State) (k : DotWord) (regs : List Nat) (fs : List FailedSlice) (w : Walking) :
    List VdotvCourse → State × List VdotvCourse × Bool
  | [] => (s, [], false)
  | x :: xs =>
    let r := s.walkCourse k regs fs w x
    let q := r.1.walkCourses k regs fs w xs
    (q.1, r.2.1 :: q.2.1, r.2.2 || q.2.2)

/-! ### The instruction -/

/-- The courses of a fresh issue, or of a restart (R289). -/
def State.freshCourses (s : State) : List VdotvCourse :=
  (s.core.coursesOf s.cur.who.hartIx.val).map fun c =>
    let lag := if s.hart.replaying then s.hart.elag[vecIx c] else 0
    let pos := if s.hart.replaying then s.hart.estart[vecIx c].toNat else 0
    { course := c, pos := pos, begun := pos != 0, ended := lag != 0, closed := lag != 0, threshold := 0,
      lag := if lag = 0 then 1 else lag, stopped := none, norst := false }

/-- The checks of R282 and the dispatch. TOPK is an instruction on its list (R274, R277, log 102). -/
def dotIssue (k : DotWord) (w x0 x2 : Word) : Act Unit := do
  if k.pred = 1 then do
    let _ ← listJoin k.list
  else pure ()
  let c ← look (·.core)
  trapIf (dotBad c w k x2) 0xA5
  trapIf (decide (c.sb < k.boff + 4 + (1 + k.np) * (k.dim / 8))) 0xB0
  let p ← xlatRange { kind := .load, source := 1, align := 4 } x0.toNat (4 * k.nterm)
  let word ← if k.pred = 1 ∧ x2 ≠ 0 then do
      let x ← xlat { kind := .load, source := 1, align := 4 } x2.toNat
      pure (some (x2.toNat, x.pa))
    else pure none
  let s ← look id
  match p.firstBad s x0.toNat (4 * k.nterm) with
  | some a => do
    upd (·.logCheck 0x79 (p.pa a))
    raise 0x79 (BitVec.ofNat 64 a)
  | none => pure ()
  let bs ← fun s => .ok (s.readRange { oc := 0, scalar := false } p x0.toNat (4 * k.nterm))
  let terms := (List.range k.nterm).map fun i => BitVec.ofNat 32 (leOfBytes ((bs.drop (4 * i)).take 4))
  trapIf (terms.any (termBad k) || !termsOrdered terms) 0xA3
  upd fun s => s.modHart fun h => { h with walk := some { terms := terms, word := word, courses := s.freshCourses } }

/-- A delivery that is bound to the hart's VDOTV (R286). -/
def State.boundDelivery (s : State) : Bool :=
  s.core.ops.any fun o => o.by_ == s.cur.who && match o.kind with | .planes _ _ vb .. => vb | _ => false

/-- The instruction completes in the courses that have ended their walk: their gate column is cleared (R286). -/
def State.endCourses (s : State) (cs : List VdotvCourse) : State :=
  let done := (cs.filter fun x => x.ended && !x.closed).map (·.course)
  let rows := s.active.filter fun j => done.contains (courseOfRow (s.coreRow j))
  (done.foldl (fun t c => t.modCore (·.clearCols (8192 * c) (8192 * c + 8192) (colMask 0 1))) s).scramble .all rows

/-- The courses after a turn: without a bound delivery outstanding, those that have ended their walk are closed. -/
def State.closeCourses (s : State) (w : Walking) (cs : List VdotvCourse) : State :=
  let put := fun (t : State) (l : List VdotvCourse) => t.modHart fun h => { h with walk := some { w with courses := l } }
  if s.boundDelivery then put s cs else put (s.endCourses cs) (cs.map fun x => { x with closed := x.ended })

/-- The walk is over in every course: vd and its copy are verdicts (R73). -/
def State.endWalk (s : State) (d : Reg) : State :=
  let t := s.copyReg.foldl (fun t r => t.setVc r true) (s.setVc d.toNat true)
  t.modHart fun h => { h with walk := none }.replayStep

/-- Some course has stopped: the trap of the lowest one. ROWCHK leaves vd, the gates and the latches undefined in every row
of the hart (R121). -/
def State.dotTrap (s : State) (d : Nat) (cs : List VdotvCourse) (t : BitVec 8 × Word) : Trap × State :=
  let causes := (cs.filterMap VdotvCourse.stopped).map (·.1)
  ({ cause := t.1, faddr := t.2, norst := cs.any (·.norst) },
    if causes.contains 0xB2 then s.mark s.hartLo s.hartHi (s.dotDest d) 15 else s)

def execVdotv (d a : Reg) (e : BitVec 4) (p n : BitVec 2) (s : State) : Host.Outcome State Fault Refusal :=
  finish (do
    ({ pred := true, copy := true, rsv := p == 3 || (p != 1 && n != 0) || decide (30 ≤ a.toNat), ewOk := e == 4,
       vregs := [d.toNat], width := 32 } : Legal).check
    let x0 ← readX a
    let w ← readX (a + 1)
    let x2 ← readX (a + 2)
    let k := dotWord w p n x2
    let old ← look (·.hart.walk)
    if old.isNone then dotIssue k w x0 x2 else pure ()
    let regs ← look fun s => d.toNat :: s.copyReg
    let fs ← landedGate regs
    let s ← look id
    match s.hart.walk with
    | none => pure ()
    | some wk => do
      let r := s.rowPass.walkCourses k regs fs wk wk.courses
      upd fun _ => r.1.closeCourses wk r.2.1
      let b ← look (·.boundDelivery)
      if r.2.2 || b then stall
      else do
        match r.2.1.findSome? VdotvCourse.stopped with
        | some t => fun s => let f := s.dotTrap d.toNat r.2.1 t; .error (.trap f.1 f.2)
        | none => upd (·.endWalk d)) s

/-! ## Leaving verdict class (R290 to R292) -/

/-- LNM[m], the multiplicity bias of R94: ln m rounded to binary32, for m from 0 (unused) to 255. -/
def lnm : List Nat :=
  [0x00000000, 0x00000000, 0x3F317218, 0x3F8C9F54, 0x3FB17218, 0x3FCE0210, 0x3FE55860, 0x3FF91395] ++
  [0x40051592, 0x400C9F54, 0x40135D8E, 0x4019771E, 0x401F08B6, 0x40242821, 0x4028E651, 0x402D50B2] ++
  [0x40317218, 0x4035535E, 0x4038FBDA, 0x403C71B0, 0x403FBA14, 0x4042D975, 0x4045D3A4, 0x4048ABF0] ++
  [0x404B653C, 0x404E0210, 0x405084A7, 0x4052EEFE, 0x405542D7, 0x405781C6, 0x4059AD38, 0x405BC672] ++
  [0x405DCE9E, 0x405FC6C8, 0x4061AFE4, 0x40638AD3, 0x40655860, 0x40671947, 0x4068CE36, 0x406A77CB] ++
  [0x406C169A, 0x406DAB2A, 0x406F35FB, 0x4070B781, 0x4072302A, 0x4073A05C, 0x40750876, 0x407668D1] ++
  [0x4077C1C2, 0x40791395, 0x407A5E96, 0x407BA308, 0x407CE12D, 0x407E1943, 0x407F4B84, 0x40803C13] ++
  [0x4080CFAE, 0x408160AD, 0x4081EF26, 0x40827B30, 0x408304DF, 0x40838C47, 0x4084117C, 0x4084948F] ++
  [0x40851592, 0x40859495, 0x408611A7, 0x40868CD8, 0x40870635, 0x40877DCD, 0x4087F3AC, 0x408867E0] ++
  [0x4088DA73, 0x40894B72, 0x4089BAE7, 0x408A28DD, 0x408A955E, 0x408B0074, 0x408B6A29, 0x408BD284] ++
  [0x408C3990, 0x408C9F54, 0x408D03D8, 0x408D6724, 0x408DC940, 0x408E2A33, 0x408E8A03, 0x408EE8B8] ++
  [0x408F4658, 0x408FA2E9, 0x408FFE71, 0x409058F6, 0x4090B27E, 0x40910B0E, 0x409162AC, 0x4091B95C] ++
  [0x40920F24, 0x40926408, 0x4092B80E, 0x40930B39, 0x40935D8E, 0x4093AF11, 0x4093FFC7, 0x40944FB3] ++
  [0x40949EDA, 0x4094ED3E, 0x40953AE5, 0x409587D0, 0x4095D405, 0x40961F86, 0x40966A56, 0x4096B479] ++
  [0x4096FDF1, 0x409746C3, 0x40978EF0, 0x4097D67C, 0x40981D69, 0x409863BB, 0x4098A973, 0x4098EE94] ++
  [0x40993322, 0x4099771E, 0x4099BA8A, 0x4099FD6A, 0x409A3FBF, 0x409A818C, 0x409AC2D2, 0x409B0395] ++
  [0x409B43D5, 0x409B8395, 0x409BC2D8, 0x409C019E, 0x409C3FEA, 0x409C7DBD, 0x409CBB1B, 0x409CF803] ++
  [0x409D3478, 0x409D707C, 0x409DAC10, 0x409DE736, 0x409E21EF, 0x409E5C3E, 0x409E9623, 0x409ECFA0] ++
  [0x409F08B6, 0x409F4167, 0x409F79B5, 0x409FB1A0, 0x409FE92A, 0x40A02054, 0x40A05720, 0x40A08D8E] ++
  [0x40A0C3A1, 0x40A0F959, 0x40A12EB7, 0x40A163BD, 0x40A1986C, 0x40A1CCC4, 0x40A200C7, 0x40A23477] ++
  [0x40A267D3, 0x40A29ADD, 0x40A2CD97, 0x40A30000, 0x40A3321B, 0x40A363E8, 0x40A39567, 0x40A3C69B] ++
  [0x40A3F783, 0x40A42821, 0x40A45876, 0x40A48882, 0x40A4B846, 0x40A4E7C4, 0x40A516FB, 0x40A545ED] ++
  [0x40A5749B, 0x40A5A305, 0x40A5D12C, 0x40A5FF11, 0x40A62CB4, 0x40A65A16, 0x40A68739, 0x40A6B41C] ++
  [0x40A6E0C1, 0x40A70D28, 0x40A73951, 0x40A7653E, 0x40A790EF, 0x40A7BC64, 0x40A7E79F, 0x40A812A0] ++
  [0x40A83D67, 0x40A867F5, 0x40A8924B, 0x40A8BC6A, 0x40A8E651, 0x40A91001, 0x40A9397C, 0x40A962C1] ++
  [0x40A98BD1, 0x40A9B4AC, 0x40A9DD54, 0x40AA05C9, 0x40AA2E0A, 0x40AA5619, 0x40AA7DF6, 0x40AAA5A2] ++
  [0x40AACD1D, 0x40AAF467, 0x40AB1B81, 0x40AB426C, 0x40AB6928, 0x40AB8FB5, 0x40ABB613, 0x40ABDC44] ++
  [0x40AC0248, 0x40AC281E, 0x40AC4DC9, 0x40AC7347, 0x40AC9899, 0x40ACBDC0, 0x40ACE2BC, 0x40AD078D] ++
  [0x40AD2C34, 0x40AD50B2, 0x40AD7506, 0x40AD9931, 0x40ADBD33, 0x40ADE10D, 0x40AE04BF, 0x40AE2849] ++
  [0x40AE4BAC, 0x40AE6EE8, 0x40AE91FE, 0x40AEB4ED, 0x40AED7B6, 0x40AEFA59, 0x40AF1CD7, 0x40AF3F30] ++
  [0x40AF6165, 0x40AF8375, 0x40AFA561, 0x40AFC729, 0x40AFE8CD, 0x40B00A4F, 0x40B02BAD, 0x40B04CE9] ++
  [0x40B06E02, 0x40B08EF9, 0x40B0AFCF, 0x40B0D083, 0x40B0F115, 0x40B11187, 0x40B131D8, 0x40B15208]
/-- A binary32 value. -/
def f32 (v : Nat) : FVal := FFmt.f.decode v

/-- LOGIT: D * 2^(E - EB) * k + bias, rounded once; a bias of 0 is a term of the sum, so that an exact zero has the sign that
R62 gives a sum. -/
def logit (m : RMode) (d : Int) (e : Int) (k bias : Nat) : Nat × BitVec 5 :=
  let x : FVal := .fin (d < 0) d.natAbs e
  if (f32 k).isNan then FFmt.f.nanOf (f32 k).signalling
  else match x.mul (f32 k), f32 bias with
    | some (.fin n1 m1 e1), .fin n2 m2 e2 =>
      FFmt.f.sum m n1 m1 e1 n2 m2 e2
    | some (.inf n), _ => (FFmt.f.infinity n, 0)
    | _, _ => FFmt.f.nanOf true

/-- VSELV of one row. -/
def selectElem (c : Core) (mode : BitVec 2) (rm : RMode) (w : Nat) (r : Row) (v : Nat) : Nat × BitVec 5 :=
  let repl := bitsOf w 32 32
  let boff := bitsOf w 0 8
  let e : Int := (c.localByte r boff : Int) - bitsOf w 8 8
  if mode = 0 then
    (if v = 0x80000000 then repl else if v = 0x80000001 then (2 ^ 32 - repl) % 2 ^ 32 else v, 0)
  else if v = 0x80000000 then (0xFF800000, 0)
  else if v = 0x80000001 then (0x7F800000, 0)
  else if mode = 1 then FFmt.f.roundInt .rdn (verdictInt v) e false
  else
    let m := c.localByte r (boff + 1)
    logit rm (verdictInt v) e (c.coef[bitsOf w 16 3 % 8]'(Nat.mod_lt _ (by decide))).toNat
      (if bitOf w 19 then lnm.getD (if m = 0 then 1 else m) 0 else 0)

def execVselv (d a b : Reg) (e : BitVec 4) (m : BitVec 2) (s : State) : Host.Outcome State Fault Refusal :=
  finish (do
    let wk := if m = 0 then 0 else if m = 1 then 64 else 128
    let sr : Src := { reg := a.toNat, width := 32, kind := .none }
    let l := { vecLegal d 32 [sr] wk (e == (if m = 0 then 4 else 14)) with rsv := m == 3 }
    l.check
    let w ← readX b
    trapIf (bitsOf w.toNat 23 9 != 0 || decide (4 < bitsOf w.toNat 20 3)) 0xA5
    let c ← look (·.core)
    trapIf (m != 0 && decide (c.sb < bitsOf w.toNat 0 8 + 2)) 0xB0
    let s ← look id
    let p := s.elemPlan d 32 [sr] wk
    let sc := if m = 0 then 0 else colMask (c.scol0 + 8 * bitsOf w.toNat 0 8) 16
    perRow { p with cols := p.cols ||| sc } fun s j =>
      let rm := s.mode (BitVec.ofNat 3 (bitsOf w.toNat 20 3))
      let r := selectElem s.core m rm w.toNat (s.row j) (s.elem a.toNat 32 j)
      (putElem s.core (d.toNat :: s.copyReg) 32 r.1 (s.row j), r.2)) s

/-- What VMASKV selects. -/
def maskv (e : BitVec 4) (sf : BitVec 3) (v : Nat) : Bool :=
  let minus := v == abnMinus e
  let plus := v == abnPlus e
  match sf.toNat with
  | 0 => !minus && !plus
  | 1 => minus
  | 2 => plus
  | 3 => minus || plus
  | _ => plus || (!minus && if e = 14 then (f32 v).positive else decide (verdictInt v > 0))

def execVmaskv (k : BitVec 3) (a : Reg) (e : BitVec 4) (sf : BitVec 3) (s : State) : Host.Outcome State Fault Refusal :=
  finish (
    let sr : Src := { reg := a.toNat, width := 32, kind := .none }
    maskOp { maskLegal [sr] 0 (e == 4 || e == 14) with rsv := decide (5 ≤ sf.toNat) } k [sr] fun s j =>
      (maskv e sf (s.elem a.toNat 32 j), 0)) s

def execVclrv (d a b : Reg) (e : BitVec 4) (s : State) : Host.Outcome State Fault Refusal :=
  finish (do
    let sr : Src := { reg := a.toNat, width := 32, kind := .none }
    (vecLegal d 32 [sr] 0 (e == 4 || e == 14)).check
    let w ← readX b
    let s ← look id
    perRow { s.elemPlan d 32 [sr] 0 with vc := some false } fun s j =>
      let v := s.elem a.toNat 32 j
      let r := if v = abnMinus e then bitsOf w.toNat 0 32 else if v = abnPlus e then bitsOf w.toNat 32 32 else v
      (putElem s.core (d.toNat :: s.copyReg) 32 r (s.row j), 0)) s

end Sys2Proof.Machine
end

