-- ==== Sys2Proof/Machine/SlabData.lean ====
section
/-! DEFINITION. The slab's operands and arithmetic: bindings and strips (R300, R301), B buffers (R302 to R304), products
(R77, R307), and the steps of the resident iterations (R313, R314). -/

namespace Sys2Proof.Machine

/-! ## Formats (R294, R300) -/

/-- Width of a stored element of a format. -/
def Fmt.width (f : Fmt) : Nat :=
  match f.code.toNat with
  | 0 => 2
  | 1 => 4
  | 2 => 8
  | 12 => 16
  | 13 => 16
  | _ => if f.tb8 then 8 else 4

/-- A block type, counting the floating types that are encoded into TB8. -/
def Fmt.isBlock (f : Fmt) : Bool := 12 ≤ f.code.toNat
def Fmt.isTeb (f : Fmt) : Bool := f.code == 15
def Fmt.isFloat (f : Fmt) : Bool := f.code == 12 || f.code == 13

/-- The width of the elements that the slab multiplies: floating rows become TB8. -/
def Fmt.operandWidth (f : Fmt) : Nat := if f.isFloat then 8 else f.width

/-- B width 4 allows 256 K rows, B width 8 only 128 (R294, R302). -/
def Fmt.maxK (f : Fmt) : Nat := if f.width ≤ 4 then 256 else 128

/-- Bytes of an inline block (R68). -/
def tebBytes (w : Nat) : Nat := 2 + 4 * w

/-- Element i of a packed array in some bytes (R59). -/
def packedAt (rd : Nat → Byte) (base w i : Nat) : Nat :=
  if w < 8 then bitsOf (rd (base + i * w / 8)).toNat (i * w % 8) w
  else leOfBytes ((List.range (w / 8)).map fun k => rd (base + i * (w / 8) + k))

/-! ## Blocks of A (R301) -/

/-- Address of row m of a binding, counted from its first row. -/
def Binding.rowAt (b : Binding) (m : Nat) : Nat := (b.base + m * b.stride) % 2 ^ 64

/-- Blocks of a row. -/
def Binding.kb (b : Binding) : Nat := (b.klen + 31) / 32

/-- Address of the exponents and of the codes of block k of row m. -/
def Binding.expAt (b : Binding) (m k : Nat) : Nat :=
  if b.scale = 0 then (b.rowAt m + k * tebBytes b.fmt.width) % 2 ^ 64 else (b.scale + 2 * (m * b.kb + k)) % 2 ^ 64
def Binding.codesAt (b : Binding) (m k : Nat) : Nat :=
  if b.scale = 0 then (b.expAt m k + 2) % 2 ^ 64 else (b.rowAt m + k * 4 * b.fmt.width) % 2 ^ 64

/-- The bytes that elements col to col + n - 1 of row m need, as (start, length). -/
def Binding.segments (b : Binding) (m col n : Nat) : List (Nat × Nat) :=
  let last := min (col + n) b.klen
  if b.mlen ≤ m ∨ last ≤ col then []
  else
    let w := b.fmt.width
    let k0 := col / 32
    let k1 := (last + 31) / 32
    if b.fmt.isTeb then
      if b.scale = 0 then [(b.expAt m k0, (k1 - k0) * tebBytes w)]
      else [(b.codesAt m k0, (k1 - k0) * 4 * w), (b.expAt m k0, 2 * (k1 - k0))]
    else if b.fmt.isFloat then [((b.rowAt m + 64 * k0) % 2 ^ 64, 2 * (min (32 * k1) b.klen - 32 * k0))]
    else [((b.rowAt m + col * w / 8) % 2 ^ 64, (last * w + 7) / 8 - col * w / 8)]

/-- A block of A as exponents and codes; floating rows are encoded into TB8. -/
def Binding.block (b : Binding) (rd : Nat → Byte) (m k : Nat) : TbBlock :=
  if b.fmt.isFloat then
    let t : FFmt := if b.fmt.code = 12 then .h else .bh
    tbEncode 8 b.split ((List.range 32).map fun i =>
      if 32 * k + i < b.klen then t.decode (packedAt rd (b.rowAt m) 16 (32 * k + i)) else .fin false 0 0)
  else
    { e0 := (rd (b.expAt m k)).toNat, e1 := (rd (b.expAt m k + 1)).toNat,
      codes := (List.range 32).map fun i => packedAt rd (b.codesAt m k) b.fmt.width i, flags := 0 }

/-- A block of zeros, for rows at or above MLEN. -/
def zeroBlock : TbBlock := { e0 := 0, e1 := 0, codes := List.replicate 32 0, flags := 0 }

/-- The cursor after a strip (R301). -/
def Binding.advance (b : Binding) (mt kt : Nat) : Binding :=
  if b.mFirst then
    if b.mlen ≤ b.row + mt then { b with row := 0, col := b.col + kt } else { b with row := b.row + mt }
  else if b.klen ≤ b.col + kt then { b with col := 0, row := b.row + mt }
  else { b with col := b.col + kt }

def Binding.exhausted (b : Binding) : Bool := if b.mFirst then b.klen ≤ b.col else b.mlen ≤ b.row

/-! ## Products (R77, R307) -/

/-- One addition to a binary32 accumulator: an exact S * 2^e. -/
def accAdd (acc : Nat) (s : Int) (e : Int) : Nat × BitVec 5 :=
  match FFmt.f.decode acc with
  | .nan g => FFmt.f.nanOf g
  | .inf n => (FFmt.f.infinity n, 0)
  | .fin n m q => FFmt.f.sum .rne n m q (s < 0) s.natAbs e

/-- The signed magnitude of a code. -/
def tbInt (w code : Nat) : Int := signed (tbSign w code) (tbMag w code)

/-- S_ab of a pair of blocks: none where the pair has no K positions. -/
def pairSum (wa wb : Nat) (ps : List (Nat × Nat)) (a b : Bool) : Option Int :=
  let qs := ps.filter fun p => tbSel wa p.1 == a && tbSel wb p.2 == b
  if qs = [] then none else some ((qs.map fun p => tbInt wa p.1 * tbInt wb p.2).sum)

/-- The update of one accumulator by one pair of blocks: `ps` are the codes at the K positions. -/
def accBlock (wa wb : Nat) (ea : Nat × Nat) (eb : Nat × Nat) (ps : List (Nat × Nat)) (acc : Nat × BitVec 5) : Nat × BitVec 5 :=
  [(false, false), (false, true), (true, false), (true, true)].foldl (fun acc p =>
    match pairSum wa wb ps p.1 p.2 with
    | none => acc
    | some s =>
      let x := if p.1 then ea.2 else ea.1
      let y := if p.2 then eb.2 else eb.1
      if x = 255 ∨ y = 255 then (FFmt.f.nan, acc.2 ||| flNV)
      else
        let r := accAdd acc.1 s ((x : Int) + y - 254)
        (r.1, acc.2 ||| r.2)) acc

/-- The codes of two blocks at their common K positions, below a limit. -/
def positions (a : List Nat) (b : List (Option (BitVec 8))) (limit : Nat) : List (Nat × Nat) :=
  ((a.zip b).take limit).filterMap fun p => p.2.map fun c => (p.1, c.toNat)

/-- A signed element of an integer buffer. -/
def intCode (w : Nat) (c : Nat) : Int := intOf true w c

/-- One element of an SMMA of block types: the blocks of the row of A with the column of B from block kblk on; kpos is
the number of K positions of the strip. -/
def smmaBlocks (wa wb kpos : Nat) (row : List TbBlock) (column : List Block) (acc : Nat) : Nat × BitVec 5 :=
  ((row.zip column).zipIdx).foldl (fun acc p =>
    accBlock wa wb (p.1.1.e0, p.1.1.e1) (p.1.2.e0.toNat, p.1.2.e1.toNat)
      (positions p.1.1.codes p.1.2.codes (kpos - 32 * p.2)) acc) (acc, 0)

/-- One element of an SMMA of integer types. -/
def smmaInts (wa wb : Nat) (row : List Nat) (column : List (Option (BitVec 8))) (acc : Nat) : Nat :=
  let t := (positions row column row.length).foldl (fun t p => t + intCode wa p.1 * intCode wb p.2) (acc : Int)
  (t.emod (2 ^ 32)).toNat

/-! ## B buffers (R303, R304) -/

/-- Stored codes of a sparse block, and bytes of its two parts. -/
def sparseS (spmc spn : Nat) : Nat := 32 * spn / 2 ^ (spmc + 1)

/-- Bytes of a block of a column. -/
def Fmt.blockBytes (f : Fmt) (spmc spn : Nat) : Nat :=
  let e := if f.isTeb then 2 else 0
  if spmc = 0 then e + 4 * f.width
  else e + (sparseS spmc spn * f.width + 7) / 8 + (sparseS spmc spn * (spmc + 1) + 7) / 8

/-- The bits of an index field: index q of L bits (R303). -/
def indexAt (rd : Nat → Byte) (base l q : Nat) : Nat :=
  bitsOf (leOfBytes [rd (base + q * l / 8), rd (base + q * l / 8 + 1)]) (q * l % 8) l

/-- Strictly ascending. -/
def ascending : List Nat → Bool
  | a :: b :: l => decide (a < b) && ascending (b :: l)
  | _ => true

/-- A stored block; none where a group's indices are not strictly ascending (SLMETA). -/
def loadBlock (f : Fmt) (rd : Nat → Byte) (base spmc spn : Nat) : Option Block :=
  let e := if f.isTeb then 2 else 0
  let e0 := if f.isTeb then rd base else 0
  let e1 := if f.isTeb then rd (base + 1) else 0
  let w := f.width
  if spmc = 0 then
    some { e0 := e0, e1 := e1, codes := (List.range 32).map fun i => some (BitVec.ofNat 8 (packedAt rd (base + e) w i)) }
  else
    let n := sparseS spmc spn
    let l := spmc + 1
    let ix := (List.range n).map fun q => indexAt rd (base + e + (n * w + 7) / 8) l q
    let groups := (List.range (32 / 2 ^ l)).map fun g => (ix.drop (g * spn)).take spn
    if !groups.all ascending then none
    else
      let placed := ix.zipIdx.map fun p => (p.2 / spn * 2 ^ l + p.1, packedAt rd (base + e) w p.2)
      some { e0 := e0, e1 := e1,
             codes := (List.range 32).map fun i => (placed.find? (·.1 == i)).map fun p => BitVec.ofNat 8 p.2 }

/-- Positions at or above K are not stored. -/
def Block.cut (b : Block) (kb k : Nat) : Block :=
  { b with codes := b.codes.mapIdx fun i c => if 32 * kb + i < k then c else none }

/-- A dense or sparse column: its blocks, or SLMETA. -/
def loadColumn (f : Fmt) (rd : Nat → Byte) (base spmc spn k : Nat) : List Nat → Option (List Block)
  | [] => some []
  | kb :: r =>
    match loadBlock f rd (base + kb * f.blockBytes spmc spn) spmc spn, loadColumn f rd base spmc spn k r with
    | some b, some bs => some (b.cut kb k :: bs)
    | _, _ => none

def loadColumns (f : Fmt) (rd : Nat → Byte) (base ld spmc spn k : Nat) : List Nat → Option (List (List Block))
  | [] => some []
  | n :: r =>
    match loadColumn f rd ((base + n * ld) % 2 ^ 64) spmc spn k (List.range ((k + 31) / 32)),
      loadColumns f rd base ld spmc spn k r with
    | some b, some bs => some (b :: bs)
    | _, _ => none

/-- Bytes of a source row of SLDBG. -/
def gatherRowBytes (t : BitVec 4) (n : Nat) : Nat :=
  if t = 15 then (n + 31) / 32 * 34 else if t = 14 then 4 * n else 2 * n

/-- Element n of a source row as an exact value. -/
def gatherValue (t : BitVec 4) (rd : Nat → Byte) (base n : Nat) : FVal :=
  if t = 15 then
    let b := base + n / 32 * 34
    tbValue 8 (rd b).toNat (rd (b + 1)).toNat (rd (b + 2 + n % 32)).toNat
  else if t = 14 then FFmt.f.decode (packedAt rd base 32 n)
  else (if t = 12 then FFmt.h else FFmt.bh).decode (packedAt rd base 16 n)

/-- A column of a gathered and transposed B: its blocks and the flags of their encoding. -/
def gatherColumn (w split : Nat) (t : BitVec 4) (rd : Nat → Byte) (rows : List Nat) (n : Nat) : List Block × BitVec 5 :=
  let xs := rows.map fun a => gatherValue t rd a n
  let bs := (List.range ((rows.length + 31) / 32)).map fun kb =>
    let b := tbEncode w split ((List.range 32).map fun i => xs.getD (32 * kb + i) (.fin false 0 0))
    (({ e0 := BitVec.ofNat 8 b.e0, e1 := BitVec.ofNat 8 b.e1, codes := b.codes.map fun c => some (BitVec.ofNat 8 c) } : Block).cut
      kb rows.length, b.flags)
  (bs.map (·.1), bs.foldl (fun a b => a ||| b.2) 0)

/-! ## Matrices of binary32 (R313, R314) -/

/-- A value with flags collected. -/
abbrev Flagged := StateM (BitVec 5)

def flag (r : Nat × BitVec 5) : Flagged Nat := fun f => (r.1, f ||| r.2)

/-- An n by n matrix as a list of rows. -/
abbrev Mat := List (List Nat)

def Mat.at (x : Mat) (m p : Nat) : Nat := (x.getD m []).getD p 0

def Mat.transpose (n : Nat) (x : Mat) : Mat := (List.range n).map fun p => (List.range n).map fun m => x.at m p

/-- A matrix built element by element. -/
def Mat.build (n : Nat) (f : Nat → Nat → Flagged Nat) : Flagged Mat :=
  (List.range n).mapM fun m => (List.range n).mapM fun p => f m p

/-- A row cut into TB8 blocks of 32, positions at or above n counting as +0. -/
def encodeRow (split n : Nat) (row : List Nat) : Flagged (List TbBlock) :=
  (List.range ((n + 31) / 32)).mapM fun kb => fun f =>
    let b := tbEncode 8 split ((List.range 32).map fun i =>
      if 32 * kb + i < n then FFmt.f.decode (row.getD (32 * kb + i) 0) else .fin false 0 0)
    (b, f ||| b.flags)

/-- One element of MM. -/
def mmElem (n : Nat) (p q : List TbBlock) : Nat × BitVec 5 :=
  ((p.zip q).zipIdx).foldl (fun acc x =>
    accBlock 8 8 (x.1.1.e0, x.1.1.e1) (x.1.2.e0, x.1.2.e1) ((x.1.1.codes.zip x.1.2.codes).take (n - 32 * x.2)) acc) (0, 0)

/-- MM(P, Q) of R313. -/
def matMul (split n : Nat) (p q : Mat) : Flagged Mat := do
  let ps ← (List.range n).mapM fun m => encodeRow split n (p.getD m [])
  let qs ← (List.range n).mapM fun c => encodeRow split n ((Mat.transpose n q).getD c [])
  Mat.build n fun m c => flag (mmElem n (ps.getD m []) (qs.getD c []))

/-- Round of a sum of two exact products a * b + c * d. -/
def sumProducts (a b c d : Nat) : Nat × BitVec 5 :=
  let t := FFmt.f
  let vs := [t.decode a, t.decode b, t.decode c, t.decode d]
  if vs.any FVal.isNan then t.nanOf (vs.any FVal.signalling)
  else match (t.decode a).mul (t.decode b), (t.decode c).mul (t.decode d) with
    | some (.fin n1 m1 e1), some (.fin n2 m2 e2) => t.sum .rne n1 m1 e1 n2 m2 e2
    | some (.inf n), some (.inf k) => if n = k then (t.infinity n, 0) else t.nanOf true
    | some (.inf n), some _ => (t.infinity n, 0)
    | some _, some (.inf k) => (t.infinity k, 0)
    | _, _ => t.nanOf true

/-- binary32 1.0. -/
def one32 : Nat := 0x3F800000

/-- The quintic of MODE 0: G, H and Y (R313). -/
def newtonSchulz (split n : Nat) (k : Nat → Nat) (tr : Bool) (x : Mat) : Flagged Mat := do
  let xt := Mat.transpose n x
  let g ← if tr then matMul split n xt x else matMul split n x xt
  let gg ← matMul split n g g
  let h ← Mat.build n fun m p => flag (sumProducts (k 1) (g.at m p) (k 2) (gg.at m p))
  let hx ← if tr then matMul split n x h else matMul split n h x
  Mat.build n fun m p => flag (sumProducts (k 0) (x.at m p) one32 (hx.at m p))

/-- The Horner rule of MODE 1: from P = k_J * I down to k_0. -/
def hornerFrom (split n : Nat) (k : Nat → Nat) (x : Mat) : Nat → Mat → Flagged Mat
  | 0, p => pure p
  | j + 1, p => do
    let px ← matMul split n p x
    let q ← Mat.build n fun m c => flag (sumProducts one32 (px.at m c) (k j) (if m = c then one32 else 0))
    hornerFrom split n k x j q

def horner (split n j : Nat) (k : Nat → Nat) (x : Mat) : Flagged Mat := do
  let p ← Mat.build n fun m c => flag (FFmt.f.mul .rne (k j) (if m = c then one32 else 0))
  hornerFrom split n k x j p

/-- Round of a quotient of two values, the divisor not zero. -/
def FFmt.div (t : FFmt) (a b : Nat) : Nat × BitVec 5 :=
  match t.decode a, t.decode b with
  | .nan s, y => t.nanOf (s || y.signalling)
  | _, .nan s => t.nanOf s
  | .inf _, .inf _ => t.nanOf true
  | .inf n, .fin k _ _ => (t.infinity (n != k), 0)
  | .fin n _ _, .inf k => (t.zero (n != k), 0)
  | .fin n m e, .fin k q g =>
    if m = 0 then (t.zero (n != k), 0)
    else
      let sh := Nat.log2 q + 64
      t.round .rne (n != k) (stickyDiv m q sh) (e - g - sh - 1)

/-- Round of a square root; negative values are invalid. -/
def FFmt.sqrt (t : FFmt) (a : Nat) : Nat × BitVec 5 :=
  match t.decode a with
  | .nan s => t.nanOf s
  | .inf n => if n then t.nanOf true else (t.infinity false, 0)
  | .fin n m e =>
    if m = 0 then (t.zero n, 0)
    else if n then t.nanOf true
    else
      let odd := decide (e % 2 = 1)
      let big := (if odd then 2 * m else m) * 2 ^ 128
      let r := isqrt big
      t.round .rne false (2 * r + if r * r = big then 0 else 1) ((if odd then e - 1 else e) / 2 - 64 - 1)

/-- Residual(X, Y) (R314). -/
def residual (n : Nat) (x y : Mat) : Flagged Nat := do
  let t := FFmt.f
  let ds ← (List.range (n * n)).mapM fun e => flag (t.add .rne (y.at (e / n) (e % n)) (t.negate (x.at (e / n) (e % n))))
  let us ← ds.mapM fun d => flag (t.mul .rne d d)
  let ws ← (List.range (n * n)).mapM fun e => flag (t.mul .rne (y.at (e / n) (e % n)) (y.at (e / n) (e % n)))
  let sd ← flag (treeOf (t.add .rne) t.signBit us)
  let sy ← flag (treeOf (t.add .rne) t.signBit ws)
  if sy % t.signBit = 0 then pure (if sd % t.signBit = 0 then 0 else if (t.decode sd).isNan then t.nan else t.inf)
  else do
    let q ← flag (t.div sd sy)
    flag (t.sqrt q)

end Sys2Proof.Machine
end

