-- ==== Sys2Proof/Machine/Slab.lean ====
section
/-! DEFINITION. The slab engine: FORK and RDV, bindings and buffers, SMMA, tiles, MITER and MPOLY, and the completion of
slab operations (R293 to R320). -/

namespace Sys2Proof.Machine

/-! ## FORK and RDV (R295) -/

/-- The stream starts at an address with x1 an argument. -/
def Core.fork (c : Core) (partner : Fin 8) (entry arg : Word) : Core :=
  { c with binds := Vector.replicate 4 none,
           stream := { Stream.reset with running := true, partner := partner,
                                         th := { (Thread.zero.set 1 arg) with pc := entry } } }

def execFork (d a : Reg) (s : State) : Host.Outcome State Fault Refusal :=
  finish (do
    ({} : Legal).check
    let b ← look (·.core.stream.running)
    trapIf b 0x93
    let x ← readX d
    let y ← readX a
    upd fun s => s.modCore (·.fork s.cur.who.hartIx x y)) s

/-- The stream's RDV is over: it goes on at the next instruction, or has ended (R295). -/
def Stream.meet (x : Stream) (last : Bool) : Stream :=
  if last then { x with rdv := none, sleep := none, running := false, ended := true }
  else { x with rdv := none, sleep := none, th := { x.th with pc := x.th.pc + 4 } }

/-- What the stream has stored is ordered before its later accesses: the meeting is an acquire of both sides. -/
def Core.meetStream (c : Core) (last : Bool) : Core :=
  { c.orderPast (·.who == .stream) (BitVec.allOnes 16) with stream := c.stream.meet last }

/-- RDV of a hart: it waits for its slab operations and for the stream. Where the stream waits already, the two meet at
once. -/
def rdvHart : Act Unit := do
  let s ← look id
  if s.hart.wait = .departed then acquire
  else do
    trapIf (!s.core.stream.running || s.core.stream.partner != s.cur.who.hartIx) 0x93
    slabJoin
    match s.core.stream.rdv with
    | some last => do
      upd (·.modCore (·.meetStream last))
      acquire
    | none => do
      upd (·.modHart fun h => { h with wait := .rdv })
      park

/-- RDV of the stream; with END it ends. -/
def rdvStream (last : Bool) : Act Unit := do
  let s ← look id
  let partner := s.core.harts[s.core.stream.partner]
  slabJoin
  if partner.wait = .rdv ∧ partner.st = .running then do
    upd (·.modCore fun c => c.modHart c.stream.partner fun h => { h with wait := .departed })
    acquire
    if last then upd (·.modCore fun c => { c with stream := { c.stream with running := false, ended := true } }) else pure ()
  else do
    upd (·.modCore fun c => { c with stream := { c.stream with rdv := some last } })
    park

def execRdv (s : State) : Host.Outcome State Fault Refusal :=
  finish (do
    ({ stream := true } : Legal).check
    let b ← look (·.isStream)
    if b then rdvStream false else rdvHart) s

def execRdvEnd (s : State) : Host.Outcome State Fault Refusal :=
  finish (do
    ({ stream := true, hart := false } : Legal).check
    rdvStream true) s

/-! ## Legality and shared checks of major 0x3C (R296, R299, R319) -/

/-- An instruction of the stream only. -/
def slabLegal (tile : Bool) : Legal := { stream := true, hart := false, tile := tile }

/-- A slab instruction of the stream first raises a held error. -/
def streamHeld : Act Unit := do
  let b ← look (·.isStream)
  if b then raiseHeld else pure ()

/-- SLARG. -/
def slarg (b : Bool) : Act Unit := trapIf b 0x92

/-- A LIN locator of a record: its offset, or a malformed record. -/
def linOk (pool : Bool) (base : Nat) : Bool := !pool || base < 2 ^ 40

/-! ## SBIND (R300) -/

/-- A byte, and n bytes as a number, of a record. -/
def msgByte (bs : List Byte) (o : Nat) : Nat := (bs.getD o 0).toNat
def bytesAt (bs : List Byte) (o n : Nat) : Nat := leOfBytes ((bs.drop o).take n)

/-- A binding record, or none where it is malformed. -/
def bindingOf (bs : List Byte) : Option (Binding) :=
  let fmt := msgByte bs 0x1C
  let flags := msgByte bs 0x1D
  let misc := msgByte bs 0x1E
  let mlen := bytesAt bs 0x14 4
  let klen := bytesAt bs 0x18 4
  let base := bytesAt bs 0 8
  let scale := bytesAt bs 8 8
  let pool := bitOf flags 0
  if msgByte bs 0x1F ≠ 0 ∨ bitOf misc 3 ∨ 8 ≤ flags ∨ !([0, 1, 2, 12, 13, 15].contains fmt) ∨ mlen = 0 ∨ 2 ^ 31 < mlen ∨
      klen = 0 ∨ 2 ^ 31 < klen ∨ (scale ≠ 0 ∧ fmt ≠ 15) ∨ !linOk pool base then none
  else some
    { base := base, scale := scale, stride := bytesAt bs 0x10 4, mlen := mlen, klen := klen,
      fmt := { code := BitVec.ofNat 4 fmt, tb8 := bitOf flags 2 }, pool := pool, mFirst := bitOf flags 1,
      split := if misc % 8 = 0 then 3 else misc % 8, oc := BitVec.ofNat 4 (misc / 16), row := 0, col := 0 }

/-- Reading a 32-byte record. As all that the slab reads, it may not lie in a device-class page: DEVCLASS, although the list of
R57 does not name it (log 110). -/
def loadRecord (a : Reg) (oc : BitVec 4) : Act (List Byte) := do
  let x ← readX a
  loadBytes { kind := .load, source := 7, align := 8 } x.toNat 32 oc

def execSbind (a : Reg) (c : BitVec 4) (n : BitVec 2) (s : State) : Host.Outcome State Fault Refusal :=
  finish (do
    (slabLegal false).check
    streamHeld
    let bs ← loadRecord a c
    match bindingOf bs with
    | none => slarg true
    | some b => upd (·.modCore fun c => { c with binds := c.binds.set n.toNat (some b) })) s

/-! ## Reading operands: memory or linear scratch -/

/-- The checks of R40 steps 1 to 6, or the range of the scratch, on some segments in order. -/
def checkSegments (pool : Bool) : List (Nat × Nat) → Act PageMap
  | [] => pure []
  | (a, n) :: l => do
    let c ← look (·.core)
    trapIf (pool && decide (65536 * c.sb < a + n)) 0xB0
    let p ← if pool then pure [] else xlatRange { kind := .load, source := 7 } a n
    let r ← checkSegments pool l
    pure (p ++ r)

/-- The first failing check of some segments: CHECKFAIL with its address, or ROWCHK with its core row. -/
def State.segmentsFail (s : State) (core : Fin 192) (pool : Bool) (pages : PageMap) (segs : List (Nat × Nat)) :
    Option HeldError :=
  segs.findSome? fun g =>
    if pool then (s.cores[core].scratchFail g.1 g.2).map fun r => { cause := 0xB2, faddr := BitVec.ofNat 64 r }
    else (pages.firstBad s g.1 g.2).map fun a => { cause := memCause kCheckFail 7, faddr := BitVec.ofNat 64 a }

/-- A byte of an operand, of the memory that the operation finds. -/
def operandByte (c : Core) (mem : List Host.Cell) (pool : Bool) (pages : PageMap) (a : Nat) : Byte :=
  if pool then c.readLinear a else readByte mem (pages.pa a)

/-- The operands that a slab operation reads from memory pass the die caches as an engine's do (log 90). -/
def State.operandTraffic (s : State) (pool : Bool) (pages : PageMap) (segs : List (Nat × Nat)) : State :=
  if pool then s else segs.foldl (fun s g => s.rangeTraffic pages .low .read g.1 g.2 []) s

/-- An error of an operation is held for its issuer, unless one is held already, and logged: a failing check of rows with
every row where it was found, and the groups of the columns sensed there (R121). -/
def State.holdError (s : State) (core : Fin 192) (by_ : Who) (pages : PageMap) (e : HeldError)
    (sites : List Site := [(e.faddr.toNat, BitVec.allOnes 1024)]) : State :=
  let s :=
    if e.cause = 0xB2 then sites.foldl (fun s x => s.logSite 7 core 0xB2 (some x.1) 0 x.2) s
    else if e.cause = 0x7F then s.logSite 7 core 0x7F none (pages.pa e.faddr.toNat)
    else s.logEvent 7 e.cause.toNat 0 (some core.val) 0 0
  s.modCoreAt core fun c =>
    match by_ with
    | .stream => { c with stream := { c.stream with held := some (c.stream.held.getD e) } }
    | .hart h => c.modHart h fun k => { k with held := some (k.held.getD e) }

/-- ROWCHK of an operation that meets failing rows: it names the lowest and logs each (R121, R319). -/
def State.holdRows (s : State) (core : Fin 192) (by_ : Who) (rows : List Nat) (cols : BitVec 1024) : State :=
  s.holdError core by_ [] { cause := 0xB2, faddr := BitVec.ofNat 64 ((least rows).getD 0) } (rows.map fun r => (r, cols))

/-! ## SLDB and SLDBG (R302 to R305) -/

/-- A B descriptor's fields, or none where one is out of range. -/
structure BDesc where
  base : Nat
  ld : Nat
  k : Nat
  n : Nat
  fmt : Fmt
  pool : Bool
  spmc : Nat
  spn : Nat
  split : Nat
  stype : Nat
deriving DecidableEq, Repr

def bdescOf (gather : Bool) (bs : List Byte) : Option BDesc :=
  let b := fun o => (bs.getD o 0).toNat
  let base := leOfBytes (bs.take 8)
  let k := leOfBytes ((bs.drop 0xC).take 2)
  let spmc := b 0x11
  let spn := b 0x12
  let fmt : Fmt := { code := BitVec.ofNat 4 (b 0xF), tb8 := bitOf (b 0x10) 1 }
  let sparse := 1 ≤ spmc && spmc ≤ 4 && 1 ≤ spn && spn ≤ 2 ^ (spmc + 1)
  if (bs.drop 0x15).any (· != 0) || 4 ≤ b 0x10 || !([0, 1, 2, 15].contains (b 0xF)) || 128 ≤ b 0xE || k == 0 ||
      fmt.maxK < k || !((spmc == 0 && spn == 0) || sparse) || !linOk (bitOf (b 0x10) 0) base ||
      (if gather then b 0xF != 15 || spmc != 0 || 8 ≤ b 0x13 || !(12 ≤ b 0x14 && b 0x14 ≤ 15)
       else b 0x13 != 0 || b 0x14 != 0) then none
  else some
    { base := base, ld := leOfBytes ((bs.drop 8).take 4), k := k, n := b 0xE + 1, fmt := fmt, pool := bitOf (b 0x10) 0,
      spmc := spmc, spn := spn, split := if b 0x13 = 0 then 3 else b 0x13, stype := b 0x14 }

/-- The bytes that a load will read: columns of a dense or sparse B, or source rows. -/
def loadSegments (fmt : Fmt) (k n ld spmc spn base : Nat) (g : Option (BitVec 4)) (idx : List Nat) : List (Nat × Nat) :=
  match g with
  | none => (List.range n).map fun c => ((base + c * ld) % 2 ^ 64, (k + 31) / 32 * fmt.blockBytes spmc spn)
  | some t => idx.map fun i => ((base + i * ld) % 2 ^ 64, gatherRowBytes t n)

/-- Issue of a load: the buffer is loading until it completes. -/
def issueLoad (x : BitVec 1) (oc : BitVec 4) (d : BDesc) (g : Option (BitVec 4)) (idx : List Nat) : Act Unit := do
  let p ← checkSegments d.pool (loadSegments d.fmt d.k d.n d.ld d.spmc d.spn d.base g idx)
  upd (·.modCore fun c => { c with bb := c.bb.set x.toNat (.loading c.nextOp) })
  upd (·.pushOp p oc (.bload x.toNat d.fmt d.k d.n d.ld d.spmc d.spn d.split d.base d.pool g idx))

def execSldb (a : Reg) (c : BitVec 4) (x : BitVec 1) (s : State) : Host.Outcome State Fault Refusal :=
  finish (do
    (slabLegal false).check
    streamHeld
    let bs ← loadRecord a c
    match bdescOf false bs with
    | none => slarg true
    | some d => issueLoad x c d none []) s

/-- An index list whose sector fails its check is a failure after issue: only steps 1 to 6 of R40 are precise (R305). -/
def execSldbg (a b : Reg) (c : BitVec 4) (x : BitVec 1) (s : State) : Host.Outcome State Fault Refusal :=
  finish (do
    (slabLegal false).check
    streamHeld
    let bs ← loadRecord a c
    match bdescOf true bs with
    | none => slarg true
    | some d => do
      let va ← readX b
      let p ← xlatRange { kind := .load, source := 7, align := 4 } va.toNat (4 * d.k)
      let s ← look id
      match p.firstBad s va.toNat (4 * d.k) with
      | some v =>
        let e : HeldError := { cause := memCause kCheckFail 7, faddr := BitVec.ofNat 64 v }
        upd fun t => State.holdError (t.modCore fun c => { c with bb := c.bb.set x.toNat .empty }) s.cur.core s.cur.who p e
      | none => do
        let ix ← fun s => .ok (s.readRange { oc := c, scalar := false } p va.toNat (4 * d.k))
        issueLoad x c d (some (BitVec.ofNat 4 d.stype)) ((List.range d.k).map fun i => leOfBytes ((ix.drop (4 * i)).take 4))) s

/-! ## STILE and SCOEF (R306, R311) -/

/-- The pre-emption points of the stream (R401). -/
def streamPreempt : Act Unit := do
  let b ← look (·.core.preempt)
  trapIf b 0x10

def execStile (d : Reg) (w : BitVec 1) (s : State) : Host.Outcome State Fault Refusal :=
  finish (do
    ({ slabLegal false with rsv := firstOfThreeBad d } : Legal).check
    streamPreempt
    raiseHeld
    let x ← readX d
    let y ← readX (d + 1)
    let z ← readX (d + 2)
    writeX d (BitVec.ofNat 64 (min x.toNat 128))
    writeX (d + 1) (BitVec.ofNat 64 (min y.toNat 128))
    writeX (d + 2) (BitVec.ofNat 64 (min z.toNat (if w = 1 then 128 else 256)))) s

def execScoef (a : Reg) (k : BitVec 3) (s : State) : Host.Outcome State Fault Refusal :=
  finish (do
    (slabLegal false).check
    raiseHeld
    let x ← readX a
    upd (·.modCore fun c => { c with coef := c.coef.set k.toNat (x.setWidth 32) })) s

/-! ## SMMA (R307) -/

def bufIx (n : Nat) : Fin 2 := if n = 0 then 0 else 1

/-- The strip's bytes: rows below MLEN in ascending order. -/
def Binding.strip (b : Binding) (mt kt : Nat) : List (Nat × Nat) :=
  (List.range mt).flatMap fun m => b.segments (b.row + m) b.col kt

/-- Check 5 of R307: the types of the operands and of the tile agree. -/
def smmaTypes (c : Core) (b : Binding) (d : BData) (tile : Nat) : Bool :=
  b.fmt.isBlock == d.fmt.isBlock && c.tileInt.getLsbD tile == !b.fmt.isBlock && (!b.fmt.isBlock || b.col % 32 == 0)

def execSmma (a b : Reg) (s : State) : Host.Outcome State Fault Refusal :=
  finish (do
    ({ slabLegal true with rsv := firstOfThreeBad b } : Legal).check
    let w ← readX a
    let mt ← readX b
    let nt ← readX (b + 1)
    let kt ← readX (b + 2)
    if mt = 0 ∨ nt = 0 ∨ kt = 0 then pure ()
    else do
      raiseHeld
      slarg (bitsOf w.toNat 19 45 != 0 || bitOf w.toNat 4)
      let c ← look (·.core)
      let bn := bitsOf w.toNat 5 2
      let buf := bitsOf w.toNat 3 1
      let tile := bitsOf w.toNat 0 3
      match c.bb[bufIx buf] with
      | .empty => slarg true
      | .loading _ => stall
      | .full d => do
        slarg (bitsOf w.toNat 10 3 != d.spmc || bitsOf w.toNat 13 6 != d.spn)
        let kblk := bitsOf w.toNat 7 3
        slarg (decide (128 < mt.toNat) || decide (d.n < nt.toNat) || decide (d.k < 32 * kblk + kt.toNat))
        match c.binds[dieIx bn] with
        | none => raise 0x94
        | some bd => do
          trapIf bd.exhausted 0x94
          slarg (!smmaTypes c bd d tile)
          let p ← checkSegments bd.pool (bd.strip mt.toNat kt.toNat)
          upd (·.pushOp p bd.oc (.smma bd bn buf d tile kblk mt.toNat nt.toNat kt.toNat))
          upd (·.modCore fun c => { c with binds := c.binds.set (dieIx bn) (some (bd.advance mt.toNat kt.toNat)) })) s

/-! ## SZERO and SDRAIN (R309, R310) -/

/-- A slab operation that a hart issues aligns its courses (R298); the stream has none. -/
def alignHart : Act Unit := do
  let b ← look (·.isStream)
  if b then pure () else alignCourses

/-- The columns of a tile. -/
def Core.tileCols (c : Core) (t : Nat) : BitVec 1024 := colMask (c.acol0 + t / 4 * 32) 32

def execSzero (m : BitVec 1) (t : BitVec 3) (s : State) : Host.Outcome State Fault Refusal :=
  finish (do
    ({ stream := true, tile := true } : Legal).check
    streamHeld
    alignHart
    upd (·.pushOp [] 0 (.szero t.toNat (m == 1)))
    upd (·.modCore fun c =>
      { c with tileInt := if m = 1 then c.tileInt ||| BitVec.ofNat 8 (2 ^ t.toNat)
                          else c.tileInt &&& ~~~BitVec.ofNat 8 (2 ^ t.toNat) })) s

/-- The type codes that a tile's mode accepts (R310). -/
def drainOk (int32 : Bool) (e : BitVec 4) : Bool :=
  if int32 then e == 4 || e == 2 || e == 3 else e == 14 || e == 12 || e == 13

/-- The conversion of one element. -/
def drainElem (int32 : Bool) (e : BitVec 4) (m : RMode) (v : Nat) : Nat × BitVec 5 :=
  if int32 then (narrow true e (intOf true 32 v), 0)
  else if e = 14 then (v, 0)
  else FFmt.f.convert (fmtOf e) m v

def drainLegal (c : Core) (e : BitVec 4) (r l : BitVec 3) : Legal :=
  let int32 := c.tileInt.getLsbD l.toNat
  { stream := true, tile := true, rsv := rmReserved r || (int32 && r != 0), ewOk := drainOk int32 e }

def execSdrainScratch (a : Reg) (t : BitVec 4) (r l : BitVec 3) (s : State) : Host.Outcome State Fault Refusal :=
  finish (do
    let c ← look (·.core)
    (drainLegal c t r l).check
    streamHeld
    let w ← readX a
    let off := bitsOf w.toNat 0 23
    let dld := bitsOf w.toNat 23 16
    let dm := bitsOf w.toNat 39 7 + 1
    let dn := bitsOf w.toNat 46 7 + 1
    let eb := typeWidth t / 8
    slarg (bitsOf w.toNat 53 11 != 0 || decide (dld < dn))
    trapIf (off % eb != 0 || decide (65536 * c.sb < off + ((dm - 1) * dld + dn) * eb)) 0xB0
    let m ← look fun s => if r = 4 then (s.th.frm.setWidth 3 : BitVec 3) else r
    alignHart
    upd (·.pushOp [] 0 (.sdrain l.toNat t m off dld dm dn))) s

/-- Whether a core row lies in a tile's rows. -/
def inTile (t row : Nat) : Bool := row / 16384 == t % 4

def execSdrainVreg (d : Reg) (t : BitVec 4) (r l : BitVec 3) (s : State) : Host.Outcome State Fault Refusal :=
  finish (do
    let c ← look (·.core)
    let int32 := c.tileInt.getLsbD l.toNat
    ({ drainLegal c t r l with stream := false, vregs := [d.toNat], width := typeWidth t,
                               wk := if t = 12 ∨ t = 13 then 32 else 0 } : Legal).check
    let wk := if t = 12 ∨ t = 13 then 32 else 0
    let s0 ← look id
    let cols := colMask (c.vcol d.toNat) (typeWidth t) ||| c.tileCols l.toNat ||| wkMask wk
    perRow { regs := [d.toNat], cols := cols,
             colsAt := some fun j => if inTile l.toNat (s0.coreRow j) then cols else 0,
             dcols := colMask (c.vcol d.toNat) (typeWidth t), wk := wk, named := true, dests := [d.toNat], lats := .t }
      fun s j =>
      if inTile l.toNat (s.coreRow j) then
        let v := drainElem int32 t (s.mode r) ((s.row j).get (c.acol0 + l.toNat / 4 * 32) 32)
        ((s.row j).put (c.vcol d.toNat) (typeWidth t) v.1, v.2)
      else (s.row j, 0)) s

/-! ## MITER and MPOLY (R313 to R317) -/

/-- The n by n corner of a tile. -/
def Core.corner (c : Core) (t n : Nat) : Mat :=
  (List.range n).map fun m => (List.range n).map fun p => (c.readTile t m p).toNat

def Core.putCorner (c : Core) (t : Nat) (x : Mat) : Core :=
  x.zipIdx.foldl (fun c r => r.1.zipIdx.foldl (fun c e => c.writeTile t r.2 e.2 (BitVec.ofNat 32 e.1)) c) c

/-- The elements (m, n), m < mt and n < nt, of a tile of a core become undefined. -/
def State.blurTile (s : State) (core : Fin 192) (t mt nt : Nat) : State :=
  let lo := t % 4 * 16384
  (List.range mt).foldl (fun s m =>
    let k : Mark := { lo := lo + m * 128, hi := lo + m * 128 + nt, cols := s.cores[core].tileCols t, lats := 0, id := s.free }
    { s with free := s.free + 1 }.modCoreAt core (·.mark k)) s

/-- The core rows of a corner whose check columns fail, and the lowest; the row ports verify whole rows (R120). -/
def Core.tileFails (c : Core) (t mt nt : Nat) : List Nat :=
  if c.rows.all (·.2.chk == 0) then []
  else ((List.range mt).flatMap fun m => (List.range nt).map fun n => (c.tileAt t m n).1).filter fun r => (c.row r).chk != 0

/-- The operand word: n, J and the split; SLARG where it is out of range. -/
def iterWord (a : Reg) (horner : Bool) : Act (Nat × Nat × Nat) := do
  let w ← readX a
  let n := bitsOf w.toNat 0 8
  let j := bitsOf w.toNat 8 3
  let sp := bitsOf w.toNat 11 3
  slarg (bitsOf w.toNat 14 50 != 0 || n == 0 || decide (128 < n) || (if horner then j == 0 else j != 0))
  pure (n, j, if sp = 0 then 3 else sp)

/-- The four tiles must be binary32, a check made before issue (R319). -/
def iterModes (g : Nat) : Act Unit := do
  let c ← look (·.core)
  slarg ([0, 1, 2, 3].any fun i => c.tileInt.getLsbD (g + i))

/-- ROWCHK on one of the rows leaves the tiles undefined (R316) and names the lowest (R121). -/
def iterTiles (g n : Nat) (tiles : List Nat) : Act Unit := do
  let c ← look (·.core)
  match (tiles.flatMap fun i => c.tileFails (g + i) n n).eraseDups with
  | [] => pure ()
  | bad => do
    upd fun s => bad.foldl (fun s r => s.logSite 7 s.cur.core 0xB2 (some r) 0)
      (tiles.foldl (fun s i => s.blurTile s.cur.core (g + i) n n) s)
    raise 0xB2 (BitVec.ofNat 64 ((least bad).getD 0))

/-- The coefficient registers. -/
def Core.coefAt (c : Core) (i : Nat) : Nat := (c.coef[i % 8]'(Nat.mod_lt _ (by decide))).toNat

/-- One iteration of MITER, from X in the current pair tile; the stream stays at MITER until the loop ends (R315,
R316: executing it again goes on with the next iteration). Answers whether it has ended, and OUT. The flags of an iteration
that ends in SLDIVERGE or SLCAP stay in the stream's FFLAGS: R65 keeps those of what a faulting instruction has computed, and
R315 calls the state unchanged (log 111). -/
def miterStep (t : Bool) (tr horn : Bool) (g n j sp : Nat) : Act (Option Nat) := do
  let c ← look (·.core)
  let cur := bitsOf c.slphase.toNat 1 1
  let x := c.corner (g + cur) n
  let r := (do
      let y ← if horn then horner sp n j c.coefAt x else newtonSchulz sp n c.coefAt tr x
      let q ← residual n x y
      pure (y, q) : Flagged (Mat × Nat)).run 0
  let lim := FFmt.f.mul .rne c.sldiv.toNat c.slrprev.toNat
  let tested := decide (1 ≤ c.sliter.toNat) && c.sldiv != 0
  upd (·.orFlags (r.2 ||| if tested then lim.2 else 0))
  upd (·.modCore fun c => c.putCorner (g + 1 - cur) r.1.1)
  upd fun s => (s.blurTile s.cur.core (g + 2) n n).blurTile s.cur.core (g + 3) n n
  let res := r.1.2
  trapIf ((FFmt.f.decode res).isNan || (tested && (FFmt.f.cmp .lt lim.1 res).1)) 0x90
  upd (·.modCore fun c => { c with slrprev := BitVec.ofNat 32 res, sliter := c.sliter + 1, slphase := c.slphase ^^^ 2 })
  if (FFmt.f.cmp .le res c.sltol.toNat).1 then pure (some 0)
  else if c.slcap.toNat ≤ c.sliter.toNat + 1 then do
    if t then do
      upd (·.modCore fun c => { c with slphase := c.slphase &&& 0x1E })
      raise 0x91
    else pure (some 1)
  else do
    streamPreempt
    pure none

/-- SLPHASE as MITER records it. -/
def phaseWord (g tr m : BitVec 1) : BitVec 5 := BitVec.ofNat 5 (g.toNat * 16 + tr.toNat * 8 + m.toNat * 4 + 1)

/-- MITER: the checks that R319 makes before issue, of R315's first words among them, then the loop's state, then one
iteration. -/
def miterOp (d a : Reg) (t tr m g : BitVec 1) : Act Bool := do
  (slabLegal true).check
  slabJoin
  let w ← iterWord a (m == 1)
  slarg (m == 1 && tr == 1)
  let c ← look (·.core)
  let g4 := 4 * g.toNat
  let act := bitOf c.slphase.toNat 0
  slarg (act && (c.slphase &&& 0x1C) != (phaseWord g tr m &&& 0x1C))
  iterModes g4
  if act then streamPreempt
  else upd (·.modCore fun c => { c with sliter := 0, slrprev := 0x7F800000, slphase := phaseWord g tr m })
  slarg (c.slcap == 0)
  iterTiles g4 w.1 [0, 1, 2, 3]
  let r ← miterStep (t == 1) (tr == 1) (m == 1) g4 w.1 w.2.1 w.2.2
  match r with
  | none => pure false
  | some out => do
    let c ← look (·.core)
    upd (·.modCore fun c => { c with slphase := c.slphase &&& 0x1E })
    writeX d (BitVec.ofNat 64 (c.slrprev.toNat * 2 ^ 32 + c.sliter.toNat * 256 + bitsOf c.slphase.toNat 1 1 * 4 + out))
    pure true

def execMiter (d a : Reg) (t r m g : BitVec 1) (s : State) : Host.Outcome State Fault Refusal :=
  finishAt (do
    let pc ← look (·.pc)
    let e ← miterOp d a t r m g
    pure (if e then pc + 4 else pc)) s

def execMpoly (a : Reg) (g : BitVec 1) (s : State) : Host.Outcome State Fault Refusal :=
  finish (do
    (slabLegal true).check
    slabJoin
    let w ← iterWord a true
    let g4 := 4 * g.toNat
    iterModes g4
    iterTiles g4 w.1 [0, 1, 2]
    let c ← look (·.core)
    let r := (horner w.2.2 w.1 w.2.1 c.coefAt (c.corner g4 w.1)).run 0
    upd (·.orFlags r.2)
    upd (·.modCore fun c => c.putCorner (g4 + 1) r.1)
    upd fun s => (s.blurTile s.cur.core (g4 + 2) w.1 w.1).blurTile s.cur.core (g4 + 3) w.1 w.1) s

/-! ## Completion of slab operations (R297, R305, R319) -/

/-- Flags go to the issuer's FFLAGS. -/
def State.issuerFlags (s : State) (core : Fin 192) (by_ : Who) (f : BitVec 5) : State :=
  s.modCoreAt core (·.modTh by_ fun t => { t with fflags := t.fflags ||| f })

/-- The tiles, buffer and binding that an operation uses, as numbers of one space. -/
def OpKind.resources : OpKind → List Nat
  | .smma _ bn buf _ tile _ _ _ _ => [tile, 8 + buf, 10 + bn]
  | .szero tile _ => [tile]
  | .sdrain tile .. => [tile]
  | .bload buf .. => [8 + buf]
  | _ => []

/-- An earlier operation of the same issuer shares a tile, a buffer or a binding (R297). -/
def Core.slabBlocked (c : Core) (o : EngineOp) : Bool :=
  (c.ops.takeWhile fun p => p.id != o.id).any fun p =>
    p.by_ == o.by_ && p.kind.resources.any o.kind.resources.contains

/-- A buffer's internal check failed: it is empty when the operation that meets it has failed (R384; log 95). -/
def Core.emptyBuffer (c : Core) (x : Fin 2) : Core :=
  { c with bb := c.bb.set x .empty, flaws := c.flaws.filter (· != .buffer x) }

/-- The product of a strip with a buffer, into a tile. -/
def State.completeSmma (s0 : State) (core : Fin 192) (o : EngineOp) (b : Binding) (buf : Nat) (d : BData)
    (tile kblk mt nt kt : Nat) : State :=
  let by_ := o.by_
  let pages := o.pages
  let f := (s0.operandTraffic b.pool pages (b.strip mt kt)).forkMem o.past
  let s := f.2
  if s.cores[core].flaws.contains (.buffer (bufIx buf)) then
    ((s.blurTile core tile mt nt).modCoreAt core (·.emptyBuffer (bufIx buf))).holdError core by_ []
      { cause := 0x96 ||| BitVec.ofNat 8 (bufIx buf).val, faddr := 0 }
  else
  match s.segmentsFail core b.pool pages (b.strip mt kt) with
  | some e => (s.blurTile core tile mt nt).holdError core by_ pages e
  | none =>
    match s.cores[core].tileFails tile mt nt with
    | r :: rs => (s.blurTile core tile mt nt).holdRows core by_ (r :: rs) (BitVec.allOnes 1024)
    | [] =>
      let rd := operandByte s.cores[core] f.1 b.pool pages
      let kpos := min kt (b.klen - b.col)
      let cols := (List.range nt).map fun n => (d.columns.getD n []).drop kblk
      if b.fmt.isBlock then
        let rows := (List.range mt).map fun m => (List.range ((kpos + 31) / 32)).map fun k =>
          if b.row + m < b.mlen then b.block rd (b.row + m) (b.col / 32 + k) else zeroBlock
        let c := s.cores[core]
        let outs := rows.zipIdx.flatMap fun r => cols.zipIdx.map fun q =>
          (r.2, q.2, smmaBlocks b.fmt.operandWidth d.fmt.width kpos r.1 q.1 (c.readTile tile r.2 q.2).toNat)
        let f := outs.foldl (fun a o => a ||| o.2.2.2) ((rows.flatMap id).foldl (fun a t => a ||| t.flags) 0)
        (s.modCoreAt core fun c => outs.foldl (fun c o => c.writeTile tile o.1 o.2.1 (BitVec.ofNat 32 o.2.2.1)) c).issuerFlags
          core by_ f
      else
        let c := s.cores[core]
        let row := fun m => (List.range kpos).map fun k =>
          if b.row + m < b.mlen then packedAt rd (b.rowAt (b.row + m)) b.fmt.width (b.col + k) else 0
        let outs := (List.range mt).flatMap fun m => cols.zipIdx.map fun q =>
          (m, q.2, smmaInts b.fmt.width d.fmt.width (row m) (q.1.flatMap fun b => b.codes) (c.readTile tile m q.2).toNat)
        s.modCoreAt core fun c => outs.foldl (fun c o => c.writeTile tile o.1 o.2.1 (BitVec.ofNat 32 o.2.2)) c

/-- A write pass over the rows of a tile (R309). -/
def State.completeSzero (s : State) (core : Fin 192) (by_ : Who) (t : Nat) : State :=
  let c := s.cores[core]
  let lo := t % 4 * 16384
  match (c.rows.filter fun p => inTile t p.1 && p.2.fails (c.tileCols t)).map (·.1) with
  | r :: rs => (s.blurTile core t 128 128).holdRows core by_ (r :: rs) (c.tileCols t)
  | [] => s.modCoreAt core (·.clearCols lo (lo + 16384) (c.tileCols t))

/-- The bytes of the elements that a drain writes, in order. -/
def drainCells (c : Core) (off dld eb : Nat) (els : List (Nat × Nat × Nat)) : List (Nat × Nat × Byte) :=
  els.flatMap fun e => (bytesOfLe eb e.2.2).zipIdx.map fun b =>
    let p := c.linearAt (off + (e.1 * dld + e.2.1) * eb + b.2)
    (p.1, p.2, b.1)

/-- A tile goes to the linear scratch (R310), with the mode that it had at issue: the type code names it. -/
def State.completeSdrain (s : State) (core : Fin 192) (by_ : Who) (t : Nat) (e : BitVec 4) (r : BitVec 3)
    (off dld dm dn : Nat) : State :=
  let c := s.cores[core]
  match c.tileFails t dm dn with
  | q :: qs => s.holdRows core by_ (q :: qs) (BitVec.allOnes 1024)
  | [] =>
    let els := (List.range dm).flatMap fun m => (List.range dn).map fun n =>
      (m, n, drainElem (typeInt e) e (modeOf r.toNat) (c.readTile t m n).toNat)
    let x := c.portRows (groupRows (drainCells c off dld (typeWidth e / 8) (els.map fun q => (q.1, q.2.1, q.2.2.1))))
    let s := (s.modCoreAt core fun _ => x.1).issuerFlags core by_ (els.foldl (fun a q => a ||| q.2.2.2) 0)
    match x.2.2 with
    | some x => s.holdError core by_ [] { cause := 0xB2, faddr := BitVec.ofNat 64 x.1 } [x]
    | none => s

/-- A slab operation completes. -/
def State.completeSlab (s : State) (core : Fin 192) (o : EngineOp) : State :=
  if s.cores[core].slabBlocked o then s
  else
    let t := s.modCoreAt core fun c => c.putOp o none
    match o.kind with
    | .smma b _ buf d tile kblk mt nt kt => t.completeSmma core o b buf d tile kblk mt nt kt
    | .szero tile _ => t.completeSzero core o.by_ tile
    | .sdrain tile e r off dld dm dn => t.completeSdrain core o.by_ tile e r off dld dm dn
    | _ => s

/-- The content of a buffer once its load is done, with flags; none for SLMETA. -/
def loadData (rd : Nat → Byte) (fmt : Fmt) (k n ld spmc spn split base : Nat) (g : Option (BitVec 4)) (idx : List Nat) :
    Option (BData × BitVec 5) :=
  let mk := fun cols => ({ fmt := fmt, k := k, n := n, spmc := spmc, spn := spn, columns := cols } : BData)
  match g with
  | none => (loadColumns fmt rd base ld spmc spn k (List.range n)).map fun c => (mk c, 0)
  | some t =>
    let rows := idx.map fun i => (base + i * ld) % 2 ^ 64
    let cs := (List.range n).map fun c => gatherColumn fmt.width split t rd rows c
    some (mk (cs.map (·.1)), cs.foldl (fun a c => a ||| c.2) 0)

/-- A load of a buffer completes: full, or empty with a held error (R293, R305). -/
def State.completeLoad (s : State) (core : Fin 192) (o : EngineOp) : State :=
  match o.kind with
  | .bload buf fmt k n ld spmc spn split base pool g idx =>
    if s.cores[core].slabBlocked o then s else
    let x := bufIx buf
    let put := fun (t : State) (b : BBuf) => t.modCoreAt core fun c =>
      if c.bb[x] = .loading o.id then { c with bb := c.bb.set x b, flaws := c.flaws.filter (· != .buffer x) } else c
    let f := (s.operandTraffic pool o.pages (loadSegments fmt k n ld spmc spn base g idx)).forkMem o.past
    let t := f.2.modCoreAt core fun c => c.putOp o none
    match s.segmentsFail core pool o.pages (loadSegments fmt k n ld spmc spn base g idx) with
    | some e => (put t .empty).holdError core o.by_ o.pages e
    | none =>
      match loadData (operandByte s.cores[core] f.1 pool o.pages) fmt k n ld spmc spn split base g idx with
      | none => (put t .empty).holdError core o.by_ o.pages { cause := 0x95, faddr := 0 }
      | some d => (put t (.full d.1)).issuerFlags core o.by_ d.2
  | _ => s

end Sys2Proof.Machine
end

