-- ==== Sys2Proof/Machine/Engines.lean ====
section
/-! DEFINITION. The steps in which engine operations complete (R100, R112, R113, R178, R186, R277, R297, R305), walks start
and waiting parties test again (R46, R347), and page-ins complete (R43, R110, R398 to R400). -/

namespace Sys2Proof.Machine

/-! ## Where an outstanding operation is (R112, R113) -/

/-- The cores of a saved gang put back where they were, for an operation that lands through its remap entries. -/
def State.swapIn (s : State) (g : OutGang) : State :=
  g.images.foldl (fun s m => s.modCoreAt (coreIx m.home) fun _ => m.core) s

/-- The gang's cores taken out again, with what has landed in their images; the cores of the package are as they were. -/
def State.swapOut (s old : State) (g : OutGang) : State :=
  let r := s.resealAll (g.images.map fun m => { m with core := s.cores[coreIx m.home] })
  { r.2 with
    cores := Vector.ofFn fun i => if g.images.any fun m => m.home == i.val then old.cores[i] else s.cores[i]
    outs := s.outs.map fun h => if h.launch = g.launch ∧ h.gang = g.gang then { g with images := r.1 } else h }

/-- Acting for the issuer of an operation: the party that runs is restored afterwards, and waits are tested again. -/
def State.actFor (s : State) (core : Fin 192) (o : EngineOp) (f : State → State) : State :=
  let t := f { s with cur := { core := core, who := o.by_ }, epoch := s.epoch + 1 }
  { t with cur := s.cur }

/-- An operation of a core that meets a condition completes: in the core, or in the image of a gang saved from it. A gang that
ended in OUT is gone for good with its last operation (R324). -/
def State.onOp (s : State) (core : Nat) (p : EngineOp → Bool) (f : State → EngineOp → State) : State :=
  if 192 ≤ core then s else
  match s.cores[coreIx core].ops.find? p with
  | some o => (s.actFor (coreIx core) o fun t => f t o).retirePallets
  | none =>
    match s.outs.findSome? fun g => (g.images.find? (·.home == core)).bind fun m => (m.core.ops.find? p).map fun o => (g, o) with
    | some (g, o) =>
      let t := ((s.swapIn g).actFor (coreIx core) o fun t => f t o).swapOut s g
      { t with outs := t.outs.filter OutGang.kept }
    | none => s

/-! ## Completions -/

def EngineOp.copyOn (tag dest : Nat) (o : EngineOp) : Bool :=
  match o.kind with
  | .copy _ t _ _ _ _ _ _ dests _ => t == tag && dests.contains dest
  | .copyg t .. => t == tag
  | _ => false

/-- COPY_COMPLETE: tags from 64 up are the Launch Controller's own, for the streams of the core's pallet. -/
def State.copyDone (s : State) (core tag dest : Nat) : State :=
  if 64 ≤ tag then
    if core < 192 then { s.streamComplete (coreIx core) (tag - 64) with epoch := s.epoch + 1 } else s
  else s.onOp core (·.copyOn tag dest) fun t o =>
    match o.kind with
    | .copyg .. => t.completeCopyg (coreIx core) o
    | _ => t.completeCopy (coreIx core) o dest

def execCopyComplete (core tag dest : Nat) (s : State) : Host.Outcome State Fault Refusal := .next (s.copyDone core tag dest)

/-- The element of a row arrives: its bytes go to the destination registers, or the row's slice keeps a failure. -/
def State.arriveElement (s : State) (core : Fin 192) (o : EngineOp) (row : Nat) : State :=
  match o.kind with
  | .gather h vd copy bytes rows pending =>
    match pending.find? (·.1 == row) with
    | none => s
    | some (j, va) =>
      let left := pending.filter (·.1 != row)
      let regs := vd :: copy.toList
      let s := s.modCoreAt core fun c =>
        c.putOp o (if left = [] then none else some (.gather h vd copy bytes rows left))
      let refs := regs.map fun r => ({ core := core.val, hart := h, reg := r, slice := j / 2048 } : SliceRef)
      let fail := fun (t : State) (a : Nat) (row : Option Nat) (cols : BitVec 1024) =>
        refs.foldl (fun t x => t.failSlice x o.id 0x7D (BitVec.ofNat 64 a)) (t.logSite 1 core 0x7D row (PageMap.pa o.pages a) cols)
      match PageMap.firstBad o.pages s va bytes with
      | some a => fail s a none 0
      | none =>
        let q := s.forkMem o.past
        let s := q.2
        let v := leOfBytes (PageMap.read o.pages q.1 va bytes)
        let c := s.cores[core]
        let n := c.row0 h.val + j
        let cells := regs.flatMap fun r => (bytesOfLe bytes v).mapIdx fun i b => (c.vcol r + 8 * i, b)
        match (c.row n).portWrite cells with
        | none => fail s n (some n) (partCols (cellCols cells))
        | some q => refs.foldl State.landSlice (s.modCoreAt core fun c => c.setRow n q)
  | _ => s

def execGatherElementArrive (core op row : Nat) (s : State) : Host.Outcome State Fault Refusal :=
  .next (s.onOp core (fun o => o.id == op) fun t o => t.arriveElement (coreIx core) o row)

def EngineOp.planesOn (tag : Nat) (o : EngineOp) : Bool :=
  match o.kind with
  | .planes t .. => t == tag
  | _ => false

def execPlaneSlotDelivered (core tag : Nat) (s : State) : Host.Outcome State Fault Refusal :=
  .next (s.onOp core (·.planesOn tag) fun t o => t.deliverSlot (coreIx core) o)

def execSlabOpComplete (core op : Nat) (s : State) : Host.Outcome State Fault Refusal :=
  .next (s.onOp core (fun o => o.id == op) fun t o => t.completeSlab (coreIx core) o)

def execBLoadComplete (core op : Nat) (s : State) : Host.Outcome State Fault Refusal :=
  .next (s.onOp core (fun o => o.id == op) fun t o => t.completeLoad (coreIx core) o)

def EngineOp.mergeOn (list : Nat) (o : EngineOp) : Bool :=
  match o.kind with
  | .merge l _ => l == list
  | _ => false

def execTkmrgComplete (core list : Nat) (s : State) : Host.Outcome State Fault Refusal :=
  .next (s.onOp core (·.mergeOn list) fun t o => t.completeMerge (coreIx core) o)

/-! ## Walks and waits -/

/-- WALK_START: the first waiting request takes a free walker, for the core that made it; the waiting parties try again (R46).
The request of a core that has left the context since is dropped. -/
def State.startWalk (s : State) (d : Fin 4) : State :=
  match s.dies[d].walkWait with
  | w :: ws =>
    if 384 ≤ s.dies[d].walks.length then s
    else
      let c := coreIx w.core
      let a : Agent := { core := some c, root := s.cores[c].ptroot, sys := false, die := d.val }
      let t := { s with epoch := s.epoch + 1 }.modDie d fun k => { k with walkWait := ws }
      if rootCtxid a.root = w.ctxid then (t.walkFor a (w.page * 65536)).2 else t
  | [] => s

def execWalkStart (die : Nat) (s : State) : Host.Outcome State Fault Refusal :=
  .next (if die < 4 then s.startWalk (dieIx die) else s)

/-- WAITV_POLL: a sleeping WAITV reads its flags again (R347). -/
def execWaitvPoll (core hart : Nat) (s : State) : Host.Outcome State Fault Refusal :=
  .next (if core < 192 ∧ hart < 8 then
    { s with epoch := s.epoch + 1 }.modCoreAt (coreIx core) fun c =>
      c.modHart (vecIx hart) fun h => if h.waitStart.isSome then { h with sleep := none } else h
  else s)

/-! ## Page-ins (R43, R398 to R400) -/

/-- Cells from an address on, n addresses, moved by a distance: the bytes of a range. -/
def cellsIn (m : List Host.Cell) (a n : Nat) : List Host.Cell := m.filter fun c => a ≤ c.1 && c.1 < a + n

/-- Copying n bytes between ranges that do not overlap. -/
def copyRange (m : List Host.Cell) (src dst n : Nat) : List Host.Cell :=
  let rest := m.filter fun c => !(dst ≤ c.1 && c.1 < dst + n)
  (cellsIn m src n).foldl (fun m c => writeByte m (c.1 - src + dst) c.2) rest

/-- The pager copies a page of tier 1 into its HBM frame: bytes with new checks, on their way as an engine's (R25, R43). -/
def State.copyPage (s : State) (src dst n : Nat) : State :=
  let t := { s with mem := copyRange s.mem src dst n, bad := s.bad.filter fun k => !(dst / 64 ≤ k && k < (dst + n) / 64) }
  (t.traffic .low .read src n []).traffic .low .write dst n []

/-- The new leaf of a completed page-in: TIER 0, INFL 0, PROMOTE 0, another frame (R43). -/
def residentLeaf (e : Nat) (frame : Nat) : Nat :=
  setBits (setBits (setBits (setBits e 16 36 frame) 10 1 0) 8 2 0) 7 1 0

/-- A page of a request as a party's faulting address. -/
def PageReq.covers (r : PageReq) (root : Word) (va : Nat) : Bool :=
  rootCtxid root == r.ctxid && va / 2 ^ pageBits r.level == r.va / 2 ^ pageBits r.level

/-- A faulting tier miss (R398). -/
def isTierMiss (cause : BitVec 8) : Bool := 0x60 ≤ cause.toNat && cause.toNat ≤ 0x67

/-- Parties that a failed page-in leaves without their page raise TIERFAIL when they run again (R398). -/
def Core.tierFailed (c : Core) (r : PageReq) (code : BitVec 8) : Core :=
  { c with
    harts := c.harts.map fun h =>
      if h.st = .taken && isTierMiss (h.tcause.setWidth 8) && r.covers c.ptroot h.tfaddr.toNat then
        { h with tierFail := some (code, h.tfaddr) } else h
    stream := if c.stream.taken && isTierMiss c.stream.cause && r.covers c.ptroot c.stream.faddr.toNat then
        { c.stream with tierFail := some (code, c.stream.faddr) } else c.stream }

/-- Images that awaited a page wait no longer for it; a failure is noted in them. -/
def State.arriveImages (s : State) (r : PageReq) (fix : Core → Core) (failed : Bool) : List Image → List Image × State
  | [] => ([], s)
  | m :: ms =>
    let new := { m with core := fix m.core, awaits := m.awaits.filter (· != r.epa) }
    let q := if failed && m.awaits.contains r.epa then s.reseal new else (new, s)
    let t := q.2.arriveImages r fix failed ms
    (q.1 :: t.1, t.2)

def State.arriveOuts (s : State) (r : PageReq) (fix : Core → Core) (failed : Bool) : List OutGang → List OutGang × State
  | [] => ([], s)
  | g :: gs =>
    let q := s.arriveImages r fix failed g.images
    let since := if g.images.any fun m => m.awaits.contains r.epa then s.time else g.since
    let t := q.2.arriveOuts r fix failed gs
    ({ g with since := since, images := q.1 } :: t.1, t.2)

/-- A page-in is over for the parties that wait for it (R398). -/
def State.pageArrived (s : State) (r : PageReq) (code : BitVec 8) : State :=
  let fix := fun (c : Core) => if code = 0 then c else c.tierFailed r code
  let q := s.arriveOuts r fix (code != 0) s.outs
  { q.2 with cores := s.cores.map fix, outs := q.1 }

/-- Step 4 of R400, MODE 1: SUBTRACT of the page's size. In the order of a cycle it stands after every core's engines
(log 104). -/
def State.notifyMbar (s : State) (ctx : Nat) (r : PageReq) (failed : Bool) (mode : Nat) : State :=
  let va := bitsOf mode 8 52 * 16
  let a := s.lcAgent ctx r.die
  let refused := fun (t : State) (cause : Nat) => t.logEvent 11 cause va none 0 0
  match s.translate a { kind := .atomic, source := 2, device := true, align := 16 } va with
  | .ok x t =>
    if !x.idem || regionOf x.pa != .hbm then refused t 0xB5
    else match t.mbarSubtract 191 64 (.mem va x.pa) (2 ^ pageBits r.level) failed with
      | .ok u => u
      | .error _ => refused t (memCause kCheckFail 2).toNat
  | .fault kind t => refused t (memCause kind 2).toNat

/-- Step 4 of R400, MODE 2: the tag's bits in the requesting core. -/
def State.notifyTag (s : State) (ctx : Nat) (r : PageReq) (code : BitVec 8) (tag : Nat) : State :=
  match r.core with
  | none => s
  | some c =>
    if (s.cores[coreIx c].pallet).any fun p => p.ctx == ctx && p.board == .run then
      s.modCoreAt (coreIx c) fun k =>
        k.endTag tag (if code = 0 then none else some (code, BitVec.ofNat 64 r.va))
    else s

def State.notifyPage (s : State) (ctx : Nat) (r : PageReq) (code : BitVec 8) : State :=
  let mode := (s.pgnmode[ix64 ctx]).toNat
  if mode % 4 = 1 then s.notifyMbar ctx r (code != 0) mode
  else if mode % 4 = 2 then s.notifyTag ctx r code (bitsOf mode 2 6)
  else s

/-- Steps 3 and 4 of R400: the record, then the notification; a full ring holds both. -/
def State.reportPage (s : State) (r : PageReq) (code : BitVec 8) : State :=
  let drop := fun (t : State) => { t with reqs := t.reqs.filter (·.id != r.id) }
  match s.slotOf r.ctxid with
  | none => drop s
  | some ctx =>
    let ring := (s.pgnring[ix64 ctx]).toNat
    let done := fun (t : State) => drop (t.notifyPage ctx r code)
    let hold := fun (t : State) =>
      { t with reqs := t.reqs.map fun q => if q.id = r.id then { q with fcode := some code, hold := some (q.hold.getD s.ticks) } else q }
    if ring = 0 then done s
    else if s.ringQueue ctx r.die ring (r.hold.getD s.ticks) then hold s
    else
      let bytes := if code = 0 then 2 ^ pageBits r.level else 0
      let rec_ := completionRecord r.va bytes 1 (if code = 0 then none else some code) r.ctxid.toNat
      match s.ringProduce (s.ringTr (s.lcAgent ctx r.die)) ring rec_ with
      | .written t => done t
      | .full => hold s
      | .refused c => done (s.logEvent 4 c ring none 0 0)

/-- What FCODE may hold: 0 on success, a cause from 0x81 to 0x8F, or a memory cause (R400). -/
def fcodeValid (c : BitVec 8) : Bool := c == 0 || (0x81 ≤ c.toNat && c.toNat ≤ 0x8F) || (0x40 ≤ c.toNat && c.toNat ≤ 0x7F)

/-- The first sector that the pager's reads of a page-in find failing: the leaf's, or one of a tier-1 copy (R26, R29). -/
def State.pagerFails (s : State) (r : PageReq) (src size : Nat) : Option Nat :=
  if s.sectorBad r.epa then some (s.logSector r.epa)
  else if r.tier = 1 ∧ s.anyBad src size then some (s.logSector (s.firstBadSector src size))
  else none

/-- PAGE_IN_COMPLETE: the pager has moved the page to an HBM frame, or failed with a code (R400). The content of a tier-1
copy behind a port is read here; tier-2 data has arrived by the drive's own writes, and their checks with it (R28). -/
def State.pageInDone (s : State) (id frame : Nat) (fcode : BitVec 8) : State :=
  match s.reqs.find? (·.id == id) with
  | none => s
  | some r =>
    let size := 2 ^ pageBits r.level
    if !r.posted || r.fcode.isSome || !fcodeValid fcode ||
        (fcode == 0 && (frame * 65536 % size != 0 || Config.hbmSize < frame * 65536 + size)) then s
    else
      let e := readLE s.mem r.epa 8
      let src := s.fabric (leafFrame e)
      let failed := if fcode = 0 then s.pagerFails r src size
        else if fcode = 0x7E then some ((s.pagerFails r src size).getD (s.logSector src)) else none
      let code : BitVec 8 := if failed.isSome then 0x7E else fcode
      let s := failed.elim s fun a => s.logEvent 1 0x7E a none 1 1
      let leaf := if code = 0 then residentLeaf e frame else setBits e 10 1 0
      let s := if code = 0 ∧ r.tier = 1 then s.copyPage src (frame * 65536) size else s
      let s := ((s.traffic .low .read r.epa 8 []).storeLE r.epa 8 leaf).traffic .low .write r.epa 8 (bytesOfLe 8 leaf)
      ({ s with epoch := s.epoch + 1 }.pageArrived r code).reportPage r code

def execPageInComplete (req frame : Nat) (fcode : BitVec 8) (s : State) : Host.Outcome State Fault Refusal :=
  .next (s.pageInDone req frame fcode)

/-! ## Records that a ring could not take (R111, R326, R399, R446) -/

/-- A log entry's bytes (R446). -/
def LogEntry.bytes (e : LogEntry) (ph : Bool) : List Byte :=
  sealRecord (bytesOfLe 8 e.addr.toNat ++ bytesOfLe 8 e.time.toNat ++ bytesOfLe 1 0 ++ bytesOfLe 1 (if ph then 1 else 0) ++
    bytesOfLe 1 e.kind.toNat ++ bytesOfLe 1 e.cause.toNat ++ bytesOfLe 1 e.die.toNat ++ bytesOfLe 1 e.hand.toNat ++
    bytesOfLe 2 e.core.toNat ++ bytesOfLe 4 e.aux.toNat)

/-- Epvimond sends its oldest unsent entry; a refused descriptor drops it and is itself logged once. -/
def State.sendLog (s : State) : State :=
  if s.logring = 0 then s else
  match s.log with
  | [] => s
  | e :: rest =>
    match s.ringProduce s.physTr s.logring.toNat e.bytes with
    | .written t => { t with log := rest }
    | .full => s
    | .refused c =>
      let t := { s with log := rest }
      if s.logBad then t
      else { t with logBad := true }.logEvent 4 c s.logring.toNat none 0 0

/-- RING_HEAD_POLL: the producer of a held record tries again. Number 3i is launch i, 3i + 1 page-in request i, and 3i + 2
the log. -/
def State.pollHeld (s : State) (held : Nat) : State :=
  if held % 3 = 0 then
    match s.launch? (held / 3) with
    | some l => if l.state = .held then s.recordLaunch l else s
    | none => s
  else if held % 3 = 1 then
    match s.reqs.find? (·.id == held / 3) with
    | some r => (match r.fcode with | some c => s.reportPage r c | none => s.postRequest r.id)
    | none => s
  else s.sendLog

def execRingHeadPoll (held : Nat) (s : State) : Host.Outcome State Fault Refusal :=
  .next { s.pollHeld held with epoch := s.epoch + 1 }

end Sys2Proof.Machine
end

