-- ==== Sys2Proof/Machine/Save.lean ====
section
/-! DEFINITION. Context images: when a gang can be saved, what its images hold, and the restore (R112, R113, R371, R398,
R401 to R409). -/

namespace Sys2Proof.Machine

/-! ## When a gang can be saved (R402, R403) -/

/-- A hart that stays where it is until its gang is saved, or that has ended. -/
def Hart.stopped (h : Hart) : Bool := h.st == .taken || h.st == .ended || h.st == .absent

/-- Every party of a core has been taken or has ended. -/
def Core.quiet (c : Core) : Bool :=
  c.harts.toList.all Hart.stopped && (!c.stream.running || c.stream.taken || c.stream.stopped)

/-- Some party of the core has been taken. -/
def Core.anyTaken (c : Core) : Bool := (c.harts.toList.any fun h => h.st == .taken) || (c.stream.running && c.stream.taken)

/-- An operation that the save waits for: all but copies into the pool from memory (R112, R403, R406). -/
def EngineOp.blocksSave (o : EngineOp) : Bool :=
  match o.kind with
  | .copy _ _ _ (.mem _) (.pool _) .. => false
  | .copyg .. => false
  | _ => true

/-- Destination cores of an operation. -/
def EngineOp.dests (issuer : Nat) (o : EngineOp) : List Nat :=
  match o.kind with
  | .copy _ _ _ _ _ _ _ _ dests _ => dests
  | _ => [issuer]

/-- The cores that hold running pallets of a gang. -/
def State.runCores (s : State) (launch gang : Nat) : List (Fin 192) :=
  (s.coresOfGang launch gang).filter fun i => (s.cores[i].pallet).any (·.board == .run)

/-- Remap entries of a die in use (R112). -/
def State.remaps (s : State) (die : Nat) : Nat :=
  ((s.outs.filter (·.die == die)).map fun g => (g.images.map fun m => (m.core.ops.map fun o => (o.dests m.home).length).sum).sum).sum

/-- Whether the Launch Controller can save a gang now. -/
def State.canSave (s : State) (launch gang : Nat) : Bool :=
  let cs := s.runCores launch gang
  match cs with
  | [] => false
  | i :: _ =>
    let die := dieOf i.val
    let copies := (cs.map fun j => (s.cores[j].ops.map fun o => (o.dests j.val).length).sum).sum
    (cs.all fun j => s.cores[j].quiet && !s.cores[j].ops.any EngineOp.blocksSave) && (cs.any fun j => s.cores[j].anyTaken) &&
    (s.coresOfGang launch gang).all (fun j => (s.cores[j].pallet).all fun p => p.board == .run || p.board == .join) &&
    !((List.finRange 192).any fun j => !cs.contains j &&
        s.cores[j].ops.any fun o => (o.dests j.val).any fun d => cs.any fun k => k.val == d) &&
    s.remaps die + copies ≤ 512 &&
    (cs.all (fun j => s.cores[j].preempt) || cs.length ≤ s.imageRoom (dieIx die))

/-! ## What an image holds (R112, R401, R404, R409) -/

/-- Whether a slice of the register is still to land through a remap entry. -/
def Core.landing (c : Core) (core : Nat) (h : Fin 8) (r : Nat) : Bool :=
  c.ops.any fun o => (o.slices core).any fun x => x.core == core && x.hart == h && x.reg == r

/-- The registers of live harts that copies are still to land in: they are saved raw (R112). -/
def Core.rawRegs (c : Core) (core : Nat) : List (Nat × Nat) :=
  c.liveHarts.flatMap fun h => ((List.range c.nv).filter (c.landing core h)).map fun r => (h.val, r)

/-- The blocks of scratch that copies are still to land in: they are saved raw (R112). -/
def Core.rawBlocks (c : Core) (core : Nat) : List Nat :=
  ((c.ops.flatMap fun o => o.scratchRows core core c).map (· / 2048)).eraseDups

/-- Columns that hold a hart's masks, G and vector registers. -/
def Core.regCols (c : Core) : BitVec 1024 := colMask 0 c.acol0

/-- Columns that are live in a row: scratch and tiles alone where the row's hart left nothing live (R401). -/
def Core.liveCols (c : Core) (n : Nat) : BitVec 1024 :=
  if (c.harts[vecIx (n / c.vlmax)]).bare then ~~~c.regCols else BitVec.allOnes 1024

/-- Rows whose checks fail when the image is written. -/
def Core.saveFails (c : Core) : List Nat := (c.rows.filter fun p => p.2.fails (c.liveCols p.1)).map (·.1)

/-- Each of them is logged, with the groups that fail in the columns that the save reads (R121, R403). -/
def State.logSaveFails (s : State) (i : Fin 192) : State :=
  s.cores[i].saveFails.foldl (fun t n => t.logRowOf 1 i 0x1F n (s.cores[i].liveCols n)) s

/-- Pages that the tier misses of a core still await (R398). -/
def State.awaited (s : State) (c : Core) : List Nat :=
  let missed := (c.harts.toList.filter fun h => h.st == .taken && isTierMiss (h.tcause.setWidth 8)).map (·.tfaddr.toNat) ++
    (if c.stream.taken && isTierMiss c.stream.cause then [c.stream.faddr.toNat] else [])
  ((s.reqs.filter fun r => r.fcode.isNone && missed.any (r.covers c.ptroot)).map (·.epa)).eraseDups

/-- Whether some party missed a tier: PGWAIT. -/
def Core.pgwait (c : Core) : Bool :=
  (c.harts.toList.any fun h => h.st == .taken && isTierMiss (h.tcause.setWidth 8)) || (c.stream.taken && isTierMiss c.stream.cause)

/-- The places of a spill area that no image takes (R409): raw-sized, one after the other (log 17). -/
def State.spillPlaces (s : State) (die : Fin 4) : List Nat :=
  ((List.range (spillImages s.dies[die])).map fun k => bitsOf s.dies[die].spillb.toNat 21 31 * 2 ^ 21 + k * rawImage).filter
    fun a => !s.outs.any fun g => g.images.any fun m => m.place == some a

/-- Where the next image of a die lies: in the shadow store, or in the spill area when that is full (R409). -/
def State.imagePlace (s : State) (die : Fin 4) : Option Nat :=
  if ((s.outs.filter fun g => g.die == die.val && !g.gone).map fun g => (g.images.filter (·.place.isNone)).length).sum <
      shadowImages then none
  else (s.spillPlaces die).head?

/-- The image of one pallet, without its bytes. -/
def State.imageOf (s : State) (i : Fin 192) (p : Pallet) : Image :=
  let c := s.cores[i]
  { launch := p.launch, gang := p.gang, index := p.index, pgwait := c.pgwait, bytes := [], place := none,
    raws := c.rawRegs i.val, rawBlocks := c.rawBlocks i.val, core := { c with preempt := false, past := [], lates := [] }, home := i.val,
    awaits := s.awaited c }

/-! ## GANG_SAVE -/

/-- A core whose pallet has been saved is free; a halt that it held goes with the gang (R412). -/
def Core.vacate (c : Core) : Core := { c.free with ops := [], failedSlices := [], haltHeld := none }

/-- A gang's images take their places one after the other: those that the gang's images have taken already count. -/
def State.placeImages (s : State) (g : OutGang) : List Image → State
  | [] => s
  | m :: ms =>
    let r := s.reseal { m with place := s.imagePlace (dieIx g.die) }
    let t := { r.2 with outs := r.2.outs.map fun (h : OutGang) =>
      if h.launch = g.launch ∧ h.gang = g.gang then { h with images := h.images ++ [r.1] } else h }
    t.placeImages g ms

/-- The gang's images are written and its cores are free; a failing check ends every pallet with SAVEFAIL (R403). -/
def State.saveGang (s : State) (launch gang : Nat) : State :=
  if !s.canSave launch gang then s else
  let cs := s.runCores launch gang
  let s := { s with epoch := s.epoch + 1 }
  if cs.any fun i => s.cores[i].saveFails != [] then
    let t := cs.foldl (fun t i => t.logSaveFails i) s
    (cs.foldl (fun (t : State) j => t.terminate j 0x1F) t).retirePallets
  else
    let images := cs.filterMap fun i => (s.cores[i].pallet).map (s.imageOf i)
    let die := dieOf ((cs.map (·.val)).headD 0)
    let g : OutGang := { launch := launch, gang := gang, die := die, since := s.time, images := [], gone := false }
    { cs.foldl (fun (t : State) i => t.modCoreAt i Core.vacate) s with outs := s.outs ++ [g] }.placeImages g images

def execGangSave (launch gang : Nat) (s : State) : Host.Outcome State Fault Refusal := .next (s.saveGang launch gang)

/-! ## GANG_RESTORE (R407, R408) -/

/-- The bytes of an image, where they lie (R409). -/
def State.imageData (s : State) (m : Image) : List Byte :=
  match m.place with
  | none => m.bytes
  | some a => readBytes s.mem a (readLE s.mem (a + 0x14) 4)

/-- The images of some gang are read: those in a spill area pass the die caches (R48, log 90). -/
def State.readImages (s : State) (ms : List Image) : State :=
  ms.foldl (fun t m => m.place.elim t fun a => t.touchHbm .low a (s.imageData m).length) s

/-- Whether HBM gives some bytes of an image with a failing check. -/
def State.imageBad (s : State) (m : Image) (off n : Nat) : Bool :=
  match m.place with
  | none => false
  | some a => s.anyBad (a + off) n

/-- The first section whose check fails (R407 step 10). -/
def State.badSection (s : State) (m : Image) (d : List Byte) : Option Nat :=
  (List.range 8).find? fun k => s.imageBad m (sectionEntry d k).1 (sectionEntry d k).2.1 || sectionFails d k

/-- The first check of R407 that an image fails on its target core. -/
def State.imageRefused (s : State) (m : Image) (t : Core) : Option Nat :=
  let d := s.imageData m
  let saved : Core := { t with pword := BitVec.ofNat 64 (imageField d 8 8) }
  if imageField d 0 4 ≠ 0x49584C4B ∨ headerReserved d then some 0x22
  else if imageField d 4 2 ≠ 1 then some 0x23
  else if s.imageBad m 0 imageHead || headerFails d then some 0x28
  else if imageField d 0x18 8 &&& imageField d 0x20 8 &&& 0xFFFFFFFFFFFFFF00 ≠ 0 then some 0x20
  else if saved.nv ≠ t.nv ∨ saved.fw ≠ t.fw ∨ saved.acol ≠ t.acol ∨ saved.scol ≠ t.scol ∨ t.nharts < imageField d 7 1 then
    some 0x24
  else if bitOf (imageField d 6 1) 0 ∧ imageField d 0x10 4 ≠ t.vlmax then some 0x21
  else if imageField d 0x38 2 ≠ t.mcver.toNat / 65536 then some 0x25
  else if imageField d 0x30 2 ≠ (rootCtxid t.ptroot).toNat ∨ (t.pallet.any fun p => p.ctx != imageField d 0x32 1) then some 0x26
  else if bitOf (imageField d 6 1) 2 then some 0x27
  else (s.badSection m d).map (0x28 ||| ·)

/-- A hart goes on where its record stands (R395, R408). -/
def Hart.restore (fresh : Bool) (h : Hart) : Hart :=
  let h := if h.st = .taken then { h.resume with st := .running } else h
  if fresh then { h with vl := 0 } else h

/-- An image's content on its target core: what belongs to the core itself stays, and what the Launch Controller kept beside
the image comes with it: a halt that the gang held (R408, R412), arrivals that still count (R344, R295), and the ports that its
parties have still to flush (R207). -/
def Core.restore (t : Core) (d : List Byte) (m : Core) : Core :=
  let k := t.load d
  let fresh := !bitOf (imageField d 6 1) 0 && imageField d 0x10 4 != t.vlmax
  { k with
    sdc := [], haltHeld := m.haltHeld.or t.haltHeld, preempt := false, ops := [], unflushed := m.unflushed
    pallet := t.pallet.map fun p => { p with board := .run }
    harts := Vector.ofFn fun h => { k.harts[h].restore fresh with wait := m.harts[h].wait.kept }
    stream := { k.stream with taken := false, sleep := none } }

/-- USED in an image that lies in the spill area, with the header's check made again (R408). -/
def State.markUsed (s : State) (m : Image) : State :=
  match m.place with
  | none => s
  | some a =>
    let d := s.imageData m
    s.storeLow a (sealHeader (d.take 6 ++ [BitVec.ofNat 8 (imageField d 6 1 ||| 4)] ++ (d.drop 7).take 53) ((d.drop 64).take 128))

/-- The core that a staged pallet waits on. -/
def State.targetOf (s : State) (m : Image) : Option (Fin 192) :=
  (List.finRange 192).find? fun i =>
    match s.cores[i].pallet with
    | some p => p.launch == m.launch && p.gang == m.gang && p.index == m.index && p.board == .staged
    | none => false

/-- A gang whose images all have a core, and whose remap entries have retired. -/
def State.canRestore (s : State) (g : OutGang) : Bool :=
  !g.gone && g.images.all fun m => m.core.ops == [] && (s.targetOf m).isSome

def State.restoreGang (s : State) (launch gang : Nat) : State :=
  match s.outs.find? fun g => g.launch == launch && g.gang == gang && !g.gone with
  | none => s
  | some g =>
    if !s.canRestore g then s else
    let s := { s with epoch := s.epoch + 1 }
    let pairs := g.images.filterMap fun m => (s.targetOf m).map fun i => (m, i)
    let gone := { s.readImages g.images with outs := s.outs.filter fun h => !(h.launch == launch && h.gang == gang) }
    match pairs.findSome? fun p => (s.imageRefused p.1 s.cores[p.2]).map fun c => (p.2, c) with
    | some (i, c) =>
      (pairs.foldl (fun s p => s.terminate p.2 0x1B) (gone.logEvent 5 c 0 (some i.val) 0 0)).retirePallets.retryPreempts
    | none =>
      let t := pairs.foldl (fun t p => t.modCoreAt p.2 (·.restore (s.imageData p.1) p.1.core)) gone
      (pairs.foldl (fun t p => t.markUsed p.1) t).retryPreempts

def execGangRestore (launch gang : Nat) (s : State) : Host.Outcome State Fault Refusal := .next (s.restoreGang launch gang)

end Sys2Proof.Machine
end

