-- ==== Sys2Proof/Machine/Platform.lean ====
section
/-! DEFINITION. What reaches the package from outside, and Epvimond: register and BAR2 accesses, pod messages, links,
boot, attestation and management messages, power and temperature (R14 to R23, R29, R320, R378, R380 to R382, R437 to
R446). -/

namespace Sys2Proof.Machine

/-! ## Who may reach the registers (R14, R15, R438) -/

def State.bootStageNo (s : State) : Nat := max 1 (bitsOf s.bootstat.toNat 8 8)
def State.bootFailed (s : State) : Bool := bitOf s.bootstat.toNat 1

/-- The ports have been trained: stage 5 is over. -/
def State.trained (s : State) : Bool := 6 ≤ bitsOf s.bootstat.toNat 8 8

/-- A port in the host role whose link is up. -/
def State.hostPort (s : State) (port : Nat) : Bool :=
  port < 2 && s.roles.getLsbD port && s.linkUp[dieIx port] && s.trained

/-- Who may access the registers of BAR0: the host ports, and Epvimond as 2. -/
def State.reaches (s : State) (port : Nat) : Bool := s.hostPort port || port == 2

/-- Epvimond's own requester ID is zero (R19). -/
def requester (port : Nat) (rid : BitVec 16) : Requester := { port := port, rid := if port = 2 then 0 else rid }

/-- Where BAR4 lies among the offsets of an event: behind the 64 MiB of BAR0 (R14). -/
def bar4Base : Nat := 0x4000000

/-- A write from outside: waits are tested again. -/
def State.outsideWrite (s : State) (port : Nat) (rid : BitVec 16) (off size : Nat) (v : Word) : State :=
  if off < bar4Base then
    if s.reaches port then { s.regWritePart (requester port rid) off size v.toNat with epoch := s.epoch + 1 } else s
  else if s.hostPort port && off < bar4Base + 0x10000 then s.bar4Write port (off - bar4Base) size v.toNat
  else s

/-- REGISTER_WRITE: a write of some width to BAR0, or behind it to BAR4 (R14). -/
def execRegisterWrite (port : Nat) (rid : BitVec 16) (off size : Nat) (value : Word) (s : State) :
    Host.Outcome State Fault Refusal :=
  .next (s.outsideWrite port rid off size value)

/-! ## Queues, pre-emption, rings, debug (R363, R364, R378, R380, R399, R410) -/

def execQueueKick (port q : Nat) (value : Word) (s : State) : Host.Outcome State Fault Refusal :=
  .next (if q < 32 then s.outsideWrite port 0 (0x2010 + 64 * q) 8 value else s)

/-- A write of QCFG with EN = 1. -/
def execQueueEnable (port q : Nat) (value : Word) (s : State) : Host.Outcome State Fault Refusal :=
  .next (if q < 32 ∧ bitOf value.toNat 4 then s.outsideWrite port 0 (0x2008 + 64 * q) 8 value else s)

/-- A write of QCFG with EN = 0. -/
def execQueueDisable (port q : Nat) (value : Word) (s : State) : Host.Outcome State Fault Refusal :=
  .next (if q < 32 ∧ !bitOf value.toNat 4 then s.outsideWrite port 0 (0x2008 + 64 * q) 8 value else s)

def execPreemptqWrite (port : Nat) (value : Word) (s : State) : Host.Outcome State Fault Refusal :=
  .next (s.outsideWrite port 0 0x3008 8 value)

def execDqflush (port : Nat) (value : Word) (s : State) : Host.Outcome State Fault Refusal :=
  .next (s.outsideWrite port 0 0x3010 8 value)

def execPgrqWrite (port die : Nat) (value : Word) (s : State) : Host.Outcome State Fault Refusal :=
  .next (if die < 4 then s.outsideWrite port 0 (0x3020 + 8 * die) 8 value else s)

/-- A write of CTXPART. -/
def execCtxpartWrite (port slot : Nat) (value : Word) (s : State) : Host.Outcome State Fault Refusal :=
  .next (if slot < 64 then s.outsideWrite port 0 (0x4008 + 16 * slot) 8 value else s)

/-- A write of DBGCTL by system software with HALT = 1. -/
def execDebugHalt (core : Nat) (value : Word) (s : State) : Host.Outcome State Fault Refusal :=
  .next (if core < 192 ∧ bitOf value.toNat 0 then s.outsideWrite 2 0 (0x8000 + 16 * core) 8 value else s)

/-- A write of DBGCTL by system software with RESUME = 1. -/
def execDebugResume (core : Nat) (value : Word) (s : State) : Host.Outcome State Fault Refusal :=
  .next (if core < 192 ∧ bitOf value.toNat 1 then s.outsideWrite 2 0 (0x8000 + 16 * core) 8 value else s)

def execTestctlWrite (port : Nat) (value : Word) (s : State) : Host.Outcome State Fault Refusal :=
  .next (s.outsideWrite port 0 0x1020 8 value)

def execMctrlReset (port : Nat) (rid : BitVec 16) (value : Word) (s : State) : Host.Outcome State Fault Refusal :=
  .next (s.outsideWrite port rid 0x1038 8 value)

/-! ## Semaphores (R19, R20) -/

/-- The aligned word of BAR4 that holds an offset, cut to the addressed bytes. -/
def State.bar4Part (s : State) (port off size : Nat) : Nat :=
  bitsOf (s.bar4Read port (off / 8 * 8)).toNat (8 * (off % 8)) (8 * size)

/-- A read of a register, answered to its requester. -/
def State.outsideRead (s : State) (port : Nat) (rid : BitVec 16) (off size : Nat) : State :=
  if off < bar4Base then
    if s.reaches port then
      let r := s.regReadPart (requester port rid) off size
      { r.2 with out := r.2.out ++ [.regRead port (BitVec.ofNat 64 r.1)], epoch := s.epoch + 1 }
    else s
  else if s.hostPort port && off < bar4Base + 0x10000 then
    { s with out := s.out ++ [.regRead port (BitVec.ofNat 64 (s.bar4Part port (off - bar4Base) size))] }
  else s

/-- The semaphore whose SEMACQ lies at an offset. -/
def semacqAt (off : Nat) : Option (Fin 16) :=
  if 0x100000 ≤ off ∧ off < 0x100200 ∧ off % 32 = 0 then some (semIx ((off - 0x100000) / 32)) else none

/-- Whether a semaphore is free once its time has been looked at (R20). -/
def State.semFree (s : State) (n : Fin 16) : Bool := !(s.semSettle n).sems[n].held

/-- The port that goes first in a tie, and what becomes of the record of ties: the loser goes first in the next one. -/
def State.tied (s : State) : Nat × State := (s.tieFirst.toNat, { s with tieFirst := ~~~s.tieFirst })

/-- SEMACQ_READ: a read of SEMACQ, or of any other register (R14). With `tie`, the other host port's read, of that requester
ID, arrives in the same cycle; a tie counts when the semaphore is free and both reads could acquire. -/
def State.semacq (s : State) (port : Nat) (rid : BitVec 16) (off size : Nat) (tie : Option (BitVec 16)) : State :=
  match tie with
  | none => s.outsideRead port rid off size
  | some rid' =>
    let other := 1 - port
    if 2 ≤ port ∨ !(semacqAt off).any s.semFree ∨ size ≠ 8 ∨ !s.bootReady ∨ !s.hostPort port ∨ !s.hostPort other then
      if port < 2 then (s.outsideRead port rid off size).outsideRead other rid' off size else s.outsideRead port rid off size
    else
      let t := s.tied
      if t.1 = port then (t.2.outsideRead port rid off size).outsideRead other rid' off size
      else (t.2.outsideRead other rid' off size).outsideRead port rid off size

def execSemacqRead (port : Nat) (rid : BitVec 16) (off size : Nat) (tie : Option (BitVec 16)) (s : State) :
    Host.Outcome State Fault Refusal :=
  .next (s.semacq port rid off size tie)

def execSemrelWrite (port : Nat) (rid : BitVec 16) (sem : Nat) (value : Word) (s : State) :
    Host.Outcome State Fault Refusal :=
  .next (if sem < 16 then s.outsideWrite port rid (0x100010 + 32 * sem) 8 value else s)

def execSemtimeWrite (port : Nat) (rid : BitVec 16) (sem : Nat) (value : Word) (s : State) :
    Host.Outcome State Fault Refusal :=
  .next (if sem < 16 then s.outsideWrite port rid (0x100018 + 32 * sem) 8 value else s)

def execSemstatWrite (port sem : Nat) (value : Word) (s : State) : Host.Outcome State Fault Refusal :=
  .next (if sem < 16 then s.outsideWrite port 0 (0x100008 + 32 * sem) 8 value else s)

/-- SEMAPHORE_EXPIRY: a semaphore whose time is over is freed (R20). -/
def execSemaphoreExpiry (sem : Nat) (s : State) : Host.Outcome State Fault Refusal :=
  .next (if sem < 16 then s.semSettle (semIx sem) else s)

/-- PODID_WRITE. With `tie`, the other host port's write arrives in the same cycle (R443). -/
def execPodidWrite (port : Nat) (value : Word) (tie : Option Word) (s : State) : Host.Outcome State Fault Refusal :=
  .next (match tie with
    | none => s.outsideWrite port 0 0x1010 8 value
    | some v =>
      let other := 1 - port
      if 2 ≤ port ∨ !s.hostPort port ∨ !s.hostPort other then s.outsideWrite port 0 0x1010 8 value
      else
        let t := s.tied
        if t.1 = port then (t.2.outsideWrite port 0 0x1010 8 value).outsideWrite other 0 0x1010 8 v
        else (t.2.outsideWrite other 0 0x1010 8 v).outsideWrite port 0 0x1010 8 value)

/-! ## BAR2 (R14, R25, R28, R29, R438) -/

/-- Whether n bytes at an offset lie in the window and in the installed HBM. -/
def State.inBar2 (s : State) (addr n : Nat) : Bool := s.bar2 ≠ 0 && addr + n ≤ min s.bar2 Config.hbmSize

/-- A port through which the package is reached. -/
def State.portUp (s : State) (port : Nat) : Bool := port < 4 && s.linkUp[dieIx port] && s.trained

/-- BAR2_READ: bytes of HBM, poisoned where a sector's check fails; Completer Abort until READY, Unsupported Request beyond
the window. The die cache serves it and keeps its lines as they are (R49). -/
def State.bar2Answer (s : State) (port addr len : Nat) : State :=
  if !s.bootReady then { s with out := s.out ++ [.bar2Error port true] }
  else if !s.inBar2 addr len then { s with out := s.out ++ [.bar2Error port false] }
  else
    let bad := (sectorsOf addr len).filter s.bad.contains
    let t := bad.foldl (fun s k => s.logEvent 1 0 (64 * k) none 1 0) s
    { t with out := t.out ++ [.bar2Read port (readBytes s.mem addr len) (bad != [])] }

def execBar2Read (port addr len : Nat) (s : State) : Host.Outcome State Fault Refusal :=
  .next (if s.portUp port then s.bar2Answer port addr len else s)

/-- Bytes that come in from outside: poisoned data is stored with a check that fails (R28). -/
def State.takeIn (s : State) (pa : Nat) (data : List Byte) (poisoned : Bool) : State :=
  let t := { s.store pa data with epoch := s.epoch + 1 }
  if poisoned then { t with bad := ((sectorsOf pa data.length).filter (!t.bad.contains ·)) ++ t.bad } else t

/-- BAR2_WRITE: bytes to HBM. With an address of a port window, what an outside agent writes into the memory there; poisoned,
that memory answers with poison from then on (log 92). -/
def execBar2Write (port addr : Nat) (data : List (BitVec 8)) (poisoned : Bool) (s : State) :
    Host.Outcome State Fault Refusal :=
  .next (
    if (portOf addr).isSome then s.takeIn (s.fabric addr) data poisoned
    else if !s.portUp port || !s.bootReady || !s.inBar2 addr data.length then s
    else (s.takeIn addr data poisoned).touchHbm .low addr data.length)

/-! ## Pod messages (R23) -/

/-- A 64-byte write to the pod mailbox. -/
def State.mailbox (s : State) (m : List Byte) : State := if s.bootReady then s.podReceive m else s

def execArrive (msg : List (BitVec 8)) (s : State) : Host.Outcome State Fault Refusal := .next (s.mailbox msg)

def execDepart (msg : List (BitVec 8)) (s : State) : Host.Outcome State Fault Refusal := .next (s.mailbox msg)

def execRefuse (msg : List (BitVec 8)) (s : State) : Host.Outcome State Fault Refusal := .next (s.mailbox msg)

def execPodArriveSend (barrier : Nat) (s : State) : Host.Outcome State Fault Refusal :=
  .next { s.podFlush barrier with epoch := s.epoch + 1 }

/-! ## Links (R18, R378) -/

/-- The producers of held records try again. -/
def State.retryHeld (s : State) : State :=
  let ls := (s.launches.filter fun l => l.state == .held).map fun l => 3 * l.id
  let rs := s.reqs.map fun r => 3 * r.id + 1
  (ls ++ rs).foldl State.pollHeld s

/-- The link of a port goes down: a host port's semaphores are freed with EXPIRED. One whose TLEFT has reached zero before has
expired as R20 says. -/
def execHostLinkDown (port : Nat) (s : State) : Host.Outcome State Fault Refusal :=
  .next (if port < 4 then
    let s := (List.finRange 16).foldl State.semSettle s
    { s with
      linkUp := s.linkUp.set (dieIx port) false
      epoch := s.epoch + 1
      sems := s.sems.map fun m => if port < 2 ∧ m.held ∧ m.ownPort = BitVec.ofNat 2 port then m.expire else m }
  else s)

/-- The link of a host port returns: pending vectors that are unmasked are sent, held records written. -/
def execHostLinkUp (port : Nat) (s : State) : Host.Outcome State Fault Refusal :=
  .next (if port < 4 then
    ({ s with linkUp := s.linkUp.set (dieIx port) true, epoch := s.epoch + 1 }.msixSend port).retryHeld
  else s)

/-- The link of a peer port returns. -/
def execPeerPortLinkUp (port : Nat) (s : State) : Host.Outcome State Fault Refusal :=
  .next (if port < 4 then
    { s with linkUp := s.linkUp.set (dieIx port) true, epoch := s.epoch + 1 }.retryHeld
  else s)

/-! ## Boot and reset (R438, R444) -/

def execModuleReset (s : State) : Host.Outcome State Fault Refusal := .next s.moduleReset

def bootWord (code : BitVec 8) (stage : Nat) (fail ready : Bool) : Word :=
  BitVec.ofNat 64 (code.toNat * 65536 + stage * 256 + (if fail then 2 else 0) + if ready then 1 else 0)

/-- The 64 bytes of an image's header (log 79). -/
def fwHeader (f : FwImage) : List Byte :=
  bytesOfLe 4 f.magic.toNat ++ bytesOfLe 4 f.kind ++ bytesOfLe 4 f.svn.toNat ++ bytesOfLe 4 f.len ++ f.digest.take 32 ++
    List.replicate 16 0

def kindIx (n : Nat) : Fin 5 := if h : n < 5 then ⟨n, h⟩ else 0

/-- CODE of an image that boot does not accept, or 0: malformed, signature, digest, rollback (R438, R439; the order is log
98). -/
def State.imageCode (s : State) (f : FwImage) : BitVec 8 :=
  if f.magic ≠ 0x3157464B ∨ f.digest.length ≠ 32 ∨ f.len ≠ f.body.length ∨ f.signature.length ≠ 2420 then 4
  else if !Config.signatureGood Config.rootKey (fwHeader f) f.signature then 1
  else if sha3 f.body ≠ f.digest then 2
  else if f.svn < s.svnMin[kindIx f.kind] then 3
  else 0

/-- The kinds of image that a stage reads. -/
def stageImages (n : Nat) : List Nat := if n = 1 then [0] else if n = 2 then [1] else if n = 3 then [2, 3, 4] else []

/-- What a boot stage reads (R438): its images, what the signed configuration says, the table's MINOR, and whether the
training of the Siroc links and HBM (stage 4) or of the ports (stage 5) fails. -/
structure BootInput extends SignedConfig where
  images : List FwImage
  minor : BitVec 16
  linksFail : Bool
  portsFail : Bool
deriving DecidableEq, Repr

/-- Why a stage fails: an image missing or not accepted, or training (R438). -/
def State.stageCode (s : State) (n : Nat) (b : BootInput) : BitVec 8 :=
  if n = 4 then (if b.linksFail then 5 else 0)
  else if n = 5 then (if b.portsFail then 5 else 0)
  else if b.images.map (·.kind) ≠ stageImages n then 4
  else ((b.images.map s.imageCode).find? (· != 0)).getD 0

/-- What is measured of an image: its body, and for the microcode table MCVER with it (R440). -/
def State.measure (s : State) (mcver : BitVec 32) (f : FwImage) : State :=
  { s with
    measured := s.measured ++ [(f.kind + 1, sha3 (f.body ++ if f.kind = 2 then bytesOfLe 4 mcver.toNat else []))]
    svnBoot := s.svnBoot.set (kindIx f.kind) f.svn }

/-- The fused minima rise to the accepted versions when the signed configuration asks for it (R439). -/
def State.raiseMinima (s : State) : State :=
  if s.raiseMin then
    { s with svnMin := Vector.ofFn fun k => if s.svnMin[k] < s.svnBoot[k] then s.svnBoot[k] else s.svnMin[k] }
  else s

/-- MCVER of the table that boot loads: MAJOR 1 (R222). -/
def mcverOf (minor : BitVec 16) : BitVec 32 := 0x10000 ||| minor.setWidth 32

/-- What a boot stage leaves. Link and port training, stages 4 and 5, take no image and measure none. -/
def State.bootEffect (s : State) (n : Nat) (b : BootInput) : State :=
  let s := if n = 4 ∨ n = 5 then s else b.images.foldl (fun s f => s.measure (mcverOf b.minor) f) s
  if n = 2 then
    { s with roles := b.roles, bar2 := 2 ^ (30 + b.bar2.val), signKey := b.signKey, sysVector := b.vector,
             raiseMin := b.raiseMin }.raiseMinima
  else if n = 3 then { s with cores := s.cores.map fun (c : Core) => { c with mcver := mcverOf b.minor } }.raiseMinima
  else if n = 4 then { s with mem := s.mem.filter fun c => Config.hbmSize ≤ c.1, bad := s.bad.filter fun k => Config.hbmSize ≤ 64 * k }
  else if n = 5 then { s with dies := s.dies.map fun (d : Die) => { d with boot := false } }.spreadToken
  else if n = 6 then
    { s with measured := s.measured ++
        [(6, sha3 (s.svnMin.toList.flatMap (fun (v : BitVec 32) => bytesOfLe 4 v.toNat) ++ sha3 Config.rootKey))] }
  else s

/-- BOOT_STAGE: the stage under way ends, with a code when it fails. A boot that a thermal reset stopped waits (R441). -/
def State.boot (s : State) (b : BootInput) : State :=
  let n := s.bootStageNo
  if s.bootFailed || s.bootReady then s
  else if s.stageCode n b ≠ 0 then { s with bootstat := bootWord (s.stageCode n b) n true false }
  else
    let t := s.bootEffect n b
    { t with bootstat := (if n < 6 then bootWord 0 (n + 1) false false else bootWord 0 6 false true), epoch := t.epoch + 1 }

def execBootStage (images : List FwImage) (config : SignedConfig) (minor : BitVec 16) (linksFail portsFail : Bool) (s : State) :
    Host.Outcome State Fault Refusal :=
  .next (s.boot { config with images := images, minor := minor, linksFail := linksFail, portsFail := portsFail })

/-! ## Attestation (R440) -/

/-- MCTP by VDM on a host port, or by the sideband (2) (R445). -/
def State.mctpReaches (s : State) (via : Nat) : Bool := s.hostPort via || via == 2

/-- An answer on a port's mailbox, or over MCTP. -/
def State.answer (s : State) (port : Nat) (a : SpdmAnswer) : State :=
  if s.mctpReaches port then { s with out := s.out ++ [.spdm port a] } else s

def execGetVersion (port : Nat) (s : State) : Host.Outcome State Fault Refusal := .next (s.answer port .version)

def execGetCapabilities (port : Nat) (s : State) : Host.Outcome State Fault Refusal := .next (s.answer port .capabilities)

def execNegotiateAlgorithms (port : Nat) (s : State) : Host.Outcome State Fault Refusal :=
  .next (s.answer port (.algorithms "ML-DSA-44" "SHA3-256"))

/-- The digest of a measured block; none before boot has measured it. -/
def State.measured? (s : State) (n : Nat) : Option (Nat × List Byte) := s.measured.find? (·.1 == n)

/-- The digest of Epvimond's firmware, from which the leaf key is derived. -/
def State.firmware (s : State) : List Byte := ((s.measured? 1).map (·.2)).getD []

/-- The one chain, in slot 0. -/
def State.chain (s : State) : List Byte := Config.certificate s.firmware

/-- The digest of the chain in slot 0. -/
def execGetDigests (port : Nat) (s : State) : Host.Outcome State Fault Refusal :=
  .next (s.answer port (.digests (sha3 s.chain)))

def execGetCertificate (port slot : Nat) (s : State) : Host.Outcome State Fault Refusal :=
  .next (s.answer port (if slot = 0 then .certificate 0 s.chain else .invalidRequest))

/-- A signature over the chain's digest and the nonce (log 30). -/
def execChallenge (port slot nonce : Nat) (s : State) : Host.Outcome State Fault Refusal :=
  .next (s.answer port
    (if slot = 0 then .challengeAuth (Config.sign s.firmware (sha3 s.chain ++ bytesOfLe 32 nonce)) else .invalidRequest))

/-- The blocks that a request of an index names: all by 0xFF. -/
def State.measurements (s : State) (index : Nat) : List (Nat × List Byte) :=
  (if index = 0xFF then List.range' 1 6 else [index]).filterMap s.measured?

/-- GET_MEASUREMENTS of one block, or of all by 0xFF; both mailboxes answer the same. -/
def execGetMeasurements (port index : Nat) (s : State) : Host.Outcome State Fault Refusal :=
  .next (s.answer port
    (if s.measurements index = [] then .invalidRequest
     else .measurements (s.measurements index) (Config.sign s.firmware ((s.measurements index).flatMap (·.2)))))

def execSpdmUnsupportedRequest (port : Nat) (code : BitVec 8) (s : State) : Host.Outcome State Fault Refusal :=
  .next (s.answer port (.unsupportedRequest code))

/-! ## Management messages (R445) -/

def State.mctpAnswer (s : State) (via : Nat) (bs : List Byte) : State :=
  if s.mctpReaches via then { s with out := s.out ++ [.mctp via bs] } else s

def execMctpReadMsense (via : Nat) (s : State) : Host.Outcome State Fault Refusal :=
  .next (s.mctpAnswer via (bytesOfLe 8 s.msense.toNat))

def execMctpReadBootstat (via : Nat) (s : State) : Host.Outcome State Fault Refusal :=
  .next (s.mctpAnswer via (bytesOfLe 8 s.bootstatRead.toNat))

/-- The unsent entries, oldest first. -/
def execMctpReadLog (via : Nat) (s : State) : Host.Outcome State Fault Refusal :=
  .next (s.mctpAnswer via (s.log.flatMap fun e => e.bytes false))

def execMctpHaltRequest (via core : Nat) (s : State) : Host.Outcome State Fault Refusal :=
  .next (if s.mctpReaches via ∧ core < 192 then { s with epoch := s.epoch + 1 }.requestHalt (coreIx core) 0x36 else s)

/-! ## Power (R320, R381, R382, R441) -/

/-- A die's CAP, in the VLPWR of its 48 cores. -/
def State.setCap (s : State) (d : Fin 4) (cap : BitVec 17) : State :=
  let s := s.modDie d fun k => { k with cap := cap }
  { s with cores := Vector.ofFn fun i => if dieOf i.val = d.val then { s.cores[i] with vlpwr := cap } else s.cores[i] }

/-- The next CAP and the count of updates below 1 520 W. -/
def nextCap (d : Die) (power : Nat) : Nat × Nat :=
  let cap := d.cap.toNat
  if d.thermal then (2048, 0)
  else if 16000 < power then (max 2048 (cap / 2 / 2048 * 2048), 0)
  else if power < 15200 then (if 9 ≤ d.low then (min 65536 (cap + 2048), 0) else (cap, d.low + 1))
  else (cap, 0)

/-- MSENSE.PWR and TIN at a governor's update; TJMAX follows the temperature's readings (R441). -/
def State.setPower (s : State) (p : BitVec 16) : State :=
  { s with msense := (s.msense &&& 0x0000FF0000000000) ||| p.setWidth 64 ||| ((Config.inlet s.time).setWidth 64 <<< 32) }
def State.power (s : State) : Nat := bitsOf s.msense.toNat 0 16
def State.setTj (s : State) (t : BitVec 8) : State :=
  { s with msense := (s.msense &&& 0xFFFF00FFFFFFFFFF) ||| (t.setWidth 64 <<< 40) }

/-- GOVERNOR_UPDATE of a die, every microsecond, from the module's power: `stood` and `cool` count the microseconds of R382. -/
def State.govern (s : State) (d : Fin 4) (power : BitVec 16) : State :=
  let n := nextCap s.dies[d] power.toNat
  ((s.setPower power).modDie d fun k =>
    { k with low := n.2, stood := if n.1 = 2048 then k.stood + 1 else 0,
             cool := if power.toNat < 15200 then k.cool + 1 else 0 }).setCap d (BitVec.ofNat 17 n.1)

def execGovernorUpdate (die : Nat) (power : BitVec 16) (s : State) : Host.Outcome State Fault Refusal :=
  .next (if die < 4 then s.govern (dieIx die) power else s)

/-- Recovery begins once CAP has stood at 2 048 for 100 µs with the power still above 1 600 W (R382). -/
def execPowerRecoveryEnter (die : Nat) (s : State) : Host.Outcome State Fault Refusal :=
  .next (if die < 4 ∧ 100 ≤ s.dies[dieIx die].stood ∧ 16000 < s.power then
    (s.modDie (dieIx die) fun k => { k with recovery := true }).spreadToken else s)

/-- It ends once the power has stayed below 1 520 W for 1 ms. -/
def execPowerRecoveryExit (die : Nat) (s : State) : Host.Outcome State Fault Refusal :=
  .next (if die < 4 ∧ 1000 ≤ s.dies[dieIx die].cool then
    (s.modDie (dieIx die) fun k => { k with recovery := false }).spreadToken else s)

/-- The token goes to the next core of the die, from 47 to 0. -/
def execPowerTokenPass (die : Nat) (s : State) : Host.Outcome State Fault Refusal :=
  .next (if die < 4 ∧ s.dies[dieIx die].tokenMode then
    (s.modDie (dieIx die) fun k => { k with token := (k.token + 1) % 48 }).spreadToken else s)

/-! ## Temperature (R441) -/

def State.setThermal (s : State) (b : Bool) : State :=
  { s with dies := s.dies.map fun (d : Die) => { d with thermal := b } }.spreadToken

/-- Every die is held in power-token mode with CAP 2 048. -/
def State.throttle (s : State) : State := (List.finRange 4).foldl (fun t d => t.setCap d 2048) (s.setThermal true)

/-- Below 95 °C both holds end, and a boot that a thermal reset stopped runs again. -/
def State.thermalRelease (s : State) : State :=
  let t := s.setThermal false
  if t.bootstat = bootWord 6 (bitsOf t.bootstat.toNat 8 8) true false then { t with bootstat := 0 } else t

/-- At 115 °C or above: a thermal log entry and a module reset, after which BOOTSTAT shows FAIL with CODE 6; the holds of the
higher temperature stay. -/
def State.thermalReset (s : State) (tj : BitVec 8) : State :=
  let e := s.logEvent 8 0 0 none 0 0
  let t := (s.moduleReset.setTj tj).throttle
  { t with log := e.log.drop (e.log.length - 1), bootstat := bootWord 6 0 true false }

/-- What the device does at a reading of TJMAX: the temperature alone decides, whichever event reports it (R441). -/
def State.readTj (s : State) (tj : BitVec 8) : State :=
  if 115 ≤ tj.toNat then s.thermalReset tj
  else if 105 < tj.toNat then (s.setTj tj).throttle
  else if tj.toNat < 95 then (s.setTj tj).thermalRelease
  else s.setTj tj

def execThermalThrottle (tj : BitVec 8) (s : State) : Host.Outcome State Fault Refusal := .next (s.readTj tj)

def execThermalRelease (tj : BitVec 8) (s : State) : Host.Outcome State Fault Refusal := .next (s.readTj tj)

def execThermalReset (tj : BitVec 8) (s : State) : Host.Outcome State Fault Refusal := .next (s.readTj tj)

/-! ## Contained hardware errors (R384) -/

/-- Epvimond halts the core with reason 0x37 and the pallet ends with HWERR. -/
def State.hardwareError (s : State) (core : Fin 192) : State :=
  if s.cores[core].pallet.isSome then
    ({ s with epoch := s.epoch + 1 }.haltGang core 0x37 none none).terminate core 0x1D
  else s

/-- A failure contained to a pallet ends it; that of a single unit is found by the unit's next use (log 95). -/
def execContainedHardwareError (place : HwPlace) (s : State) : Host.Outcome State Fault Refusal :=
  let core := place.core
  .next (if core < 192 then
    match place.unit with
    | .pallet => s.hardwareError (coreIx core)
    | u => s.modCoreAt (coreIx core) fun c => if c.flaws.contains u then c else { c with flaws := c.flaws ++ [u] }
  else s)

end Sys2Proof.Machine
end

