-- ==== Sys2Proof/Machine/Run.lean ====
section
/-! DEFINITION. Performing a step of an engine or of the Launch Controller: the meaning of its event. -/

namespace Sys2Proof.Machine

/-- The meaning of an engine's step. -/
def EngineStep.perform (e : EngineStep) (s : State) : Host.Outcome State Fault Refusal :=
  match e with
  | .copyComplete core tag dest => execCopyComplete core tag dest s
  | .gatherElementArrive core op row => execGatherElementArrive core op row s
  | .planeSlotDelivered core tag => execPlaneSlotDelivered core tag s
  | .slabOpComplete core op => execSlabOpComplete core op s
  | .bLoadComplete core op => execBLoadComplete core op s
  | .tkmrgComplete core list => execTkmrgComplete core list s
  | .walkStart die => execWalkStart die s
  | .ringHeadPoll held => execRingHeadPoll held s
  | .queueSlotRetry q => execQueueSlotRetry q s
  | .queueStall q => execQueueStall q s
  | .launchRecordTake q => execLaunchRecordTake q s
  | .codeObjectLoad req => execCodeObjectLoad req s
  | .launchWaitPoll launch => execLaunchWaitPoll launch s
  | .placementDecision => execPlacementDecision s
  | .coreReservation => execCoreReservation s
  | .launchComplete launch => execLaunchComplete launch s
  | .gangSave launch gang => execGangSave launch gang s
  | .gangRestore launch gang => execGangRestore launch gang s
  | .semaphoreExpiry sem => execSemaphoreExpiry sem s
  | .podArriveSend barrier => execPodArriveSend barrier s

end Sys2Proof.Machine
end

