-- ==== Sys2Proof/Machine/Engine.lean ====
section
/-! DEFINITION. The steps of engines and of the Launch Controller that can be taken in a state without the outside. -/

namespace Sys2Proof.Machine

/-- Completion events of one outstanding operation. -/
def EngineOp.events (core : Nat) (o : EngineOp) : List EngineStep :=
  match o.kind with
  | .copy _ tag _ _ _ _ _ _ dests _ => dests.map fun d => .copyComplete core tag d
  | .copyg tag .. => [.copyComplete core tag core]
  | .gather _ _ _ _ _ pending => pending.map fun p => .gatherElementArrive core o.id p.1
  | .planes tag .. => [.planeSlotDelivered core tag]
  | .smma .. | .szero .. | .sdrain .. => [.slabOpComplete core o.id]
  | .bload .. => [.bLoadComplete core o.id]
  | .merge list _ => [.tkmrgComplete core list]

/-- The stream copies of a core's pallet. -/
def Core.streamEvents (c : Core) (core : Nat) : List EngineStep :=
  match c.pallet with
  | some p => (List.range p.streams.length).map fun k => .copyComplete core (64 + k) core
  | none => []

/-- Operations outstanding in cores and in saved images. -/
def State.opEvents (s : State) : List EngineStep :=
  ((List.finRange 192).flatMap fun i => s.cores[i].ops.flatMap (·.events i.val) ++ s.cores[i].streamEvents i.val) ++
  s.outs.flatMap fun g => g.images.flatMap fun m => m.core.ops.flatMap (·.events m.home)

/-- Dies with a walk request that waits and a free walker (R46). -/
def State.walkEvents (s : State) : List EngineStep :=
  ((List.finRange 4).filter fun d => s.dies[d].walkWait != [] && s.dies[d].walks.length < 384).map fun d => .walkStart d.val

/-- Records that wait for room in a ring. -/
def State.ringEvents (s : State) : List EngineStep :=
  ((s.launches.filter fun l => l.state == .held).map fun l => .ringHeadPoll (3 * l.id)) ++
  ((s.reqs.filter fun r => r.fcode.isSome || !r.posted).map fun r => .ringHeadPoll (3 * r.id + 1)) ++
  (if s.logring ≠ 0 ∧ s.log ≠ [] then [.ringHeadPoll 2] else [])

/-- What the Launch Controller can do with a queue. -/
def State.queueEvents (s : State) (q : Nat) : List EngineStep :=
  (if q < 32 then
    if s.queueDue (qIx q) && 17 ≤ s.queues[qIx q].tries then [.queueStall q]
    else if s.queueReads (qIx q) then [if s.queues[qIx q].tries = 0 then .launchRecordTake q else .queueSlotRetry q]
    else []
  else if s.dies[dieIx (q - 32)].devq != [] && s.mayTake q (q - 32) then [.launchRecordTake q] else []) ++
  match s.queueHead q with
  | some l => if l.state = .waiting then [.launchWaitPoll l.id] else []
  | none => []

/-- Gangs that run, each once. -/
def State.runningGangs (s : State) : List (Nat × Nat) :=
  ((List.finRange 192).filterMap fun i => (s.cores[i].pallet).map fun p => (p.launch, p.gang)).eraseDups

/-- What the Launch Controller can do with launches and gangs. -/
def State.launchEvents (s : State) : List EngineStep :=
  ((s.loads.filter s.loadReady).map fun r => .codeObjectLoad r.id) ++
  (if s.cands ≠ [] ∨ (List.finRange 192).any fun i => s.cores[i].joined then [.placementDecision] else []) ++
  (if s.reserveDue ≠ [] then [.coreReservation] else []) ++
  ((s.launches.filter fun l => s.over l && !s.lowerSeq l).map fun l => .launchComplete l.id) ++
  ((s.runningGangs.filter fun g => s.canSave g.1 g.2).map fun g => .gangSave g.1 g.2) ++
  ((s.outs.filter s.canRestore).map fun g => .gangRestore g.launch g.gang)

/-- Semaphores whose time is over, and pod barriers whose next message may go (R20, R23). -/
def State.blockEvents (s : State) : List EngineStep :=
  ((List.finRange 16).filter fun n => s.sems[n].due s.time).map (fun n => .semaphoreExpiry n.val) ++
  (s.bars.filter fun b => b.unsent != 0 && match b.key with
    | .pod podkey bid => s.podReady podkey bid
    | _ => false).map fun b => .podArriveSend b.id

def State.engineEvents (s : State) : List EngineStep :=
  s.opEvents ++ s.walkEvents ++ s.ringEvents ++ (List.range 36).flatMap s.queueEvents ++ s.launchEvents ++ s.blockEvents

/-- Everything that can happen next. -/
def State.choices (s : State) : List Choice :=
  match s.turn with
  | some p => [.party p]
  | none => s.parties.map .party ++ s.engineEvents.map .event

end Sys2Proof.Machine
end

