-- ==== Sys2Proof/Machine/Memory.lean ====
section
/-! DEFINITION. Scalar memory instructions (R166 to R173): loads and stores, parameter loads, atomics, FENCE and PREF. -/

namespace Sys2Proof.Machine

/-- The address of a scalar access of n bytes (R168). -/
def scalarAddr (x : Word) (f : BitVec 8) (n : Nat) : Nat := (x + f.signExtend 64 * BitVec.ofNat 64 n).toNat

/-- LD (R168), in ordering class c. -/
def loadOp (signed : Bool) (n : Nat) (d b : Reg) (c : BitVec 4) (f : BitVec 8) : Act Unit := do
  scalarLegal.check
  let x ← readX b
  let q ← loadScalarAt (scalarAddr x f n) n c
  upd (·.openLoad { oc := c } q.1 n (.reg d signed))
  writeX d (extendTo signed n q.2)

/-- ST (R168), in ordering class c. -/
def storeOp (n : Nat) (d b : Reg) (c : BitVec 4) (f : BitVec 8) : Act Unit := do
  scalarLegal.check
  let x ← readX b
  let v ← readX d
  storeScalar (scalarAddr x f n) n (v.toNat % 2 ^ (8 * n)) c

/-- LDP (R169): the bounds are those of the window, and the checks come in the order of the rule. -/
def ldpOp (signed : Bool) (n : Nat) (d b : Reg) (w : BitVec 2) (f : BitVec 8) : Act Unit := do
  scalarLegal.check
  let x ← readX b
  let win ← look fun s => s.core.wins[w.toNat]
  let off := (x + f.signExtend 64 * BitVec.ofNat 64 n).toInt
  let src ← look (·.source 1)
  trapIf (win.size == 0) 0x11
  trapIf (decide (off < 0) || decide ((win.size.toNat : Int) < off + n)) 0x12
  let va := (win.base + BitVec.ofInt 64 off).toNat
  trapIf (off % n != 0) (memCause kAlign src) (BitVec.ofNat 64 va)
  let q ← loadScalarAt va n 0
  upd (·.openLoad {} q.1 n (.reg d signed))
  writeX d (extendTo signed n q.2)

def execLdN8 (d b : Reg) (c : BitVec 4) (f : BitVec 8) (s : State) : Host.Outcome State Fault Refusal :=
  finish (loadOp false 1 d b c f) s

def execLdN16 (d b : Reg) (c : BitVec 4) (f : BitVec 8) (s : State) : Host.Outcome State Fault Refusal :=
  finish (loadOp false 2 d b c f) s

def execLdN32 (d b : Reg) (c : BitVec 4) (f : BitVec 8) (s : State) : Host.Outcome State Fault Refusal :=
  finish (loadOp false 4 d b c f) s

def execLdN64 (d b : Reg) (c : BitVec 4) (f : BitVec 8) (s : State) : Host.Outcome State Fault Refusal :=
  finish (loadOp false 8 d b c f) s

def execLdI8 (d b : Reg) (c : BitVec 4) (f : BitVec 8) (s : State) : Host.Outcome State Fault Refusal :=
  finish (loadOp true 1 d b c f) s

def execLdI16 (d b : Reg) (c : BitVec 4) (f : BitVec 8) (s : State) : Host.Outcome State Fault Refusal :=
  finish (loadOp true 2 d b c f) s

def execLdI32 (d b : Reg) (c : BitVec 4) (f : BitVec 8) (s : State) : Host.Outcome State Fault Refusal :=
  finish (loadOp true 4 d b c f) s

def execLdI64 (d b : Reg) (c : BitVec 4) (f : BitVec 8) (s : State) : Host.Outcome State Fault Refusal :=
  finish (loadOp true 8 d b c f) s

def execStN8 (d b : Reg) (c : BitVec 4) (f : BitVec 8) (s : State) : Host.Outcome State Fault Refusal :=
  finish (storeOp 1 d b c f) s

def execStN16 (d b : Reg) (c : BitVec 4) (f : BitVec 8) (s : State) : Host.Outcome State Fault Refusal :=
  finish (storeOp 2 d b c f) s

def execStN32 (d b : Reg) (c : BitVec 4) (f : BitVec 8) (s : State) : Host.Outcome State Fault Refusal :=
  finish (storeOp 4 d b c f) s

def execStN64 (d b : Reg) (c : BitVec 4) (f : BitVec 8) (s : State) : Host.Outcome State Fault Refusal :=
  finish (storeOp 8 d b c f) s

def execLdpN8 (d b : Reg) (w : BitVec 2) (f : BitVec 8) (s : State) : Host.Outcome State Fault Refusal :=
  finish (ldpOp false 1 d b w f) s

def execLdpN16 (d b : Reg) (w : BitVec 2) (f : BitVec 8) (s : State) : Host.Outcome State Fault Refusal :=
  finish (ldpOp false 2 d b w f) s

def execLdpN32 (d b : Reg) (w : BitVec 2) (f : BitVec 8) (s : State) : Host.Outcome State Fault Refusal :=
  finish (ldpOp false 4 d b w f) s

def execLdpN64 (d b : Reg) (w : BitVec 2) (f : BitVec 8) (s : State) : Host.Outcome State Fault Refusal :=
  finish (ldpOp false 8 d b w f) s

def execLdpI8 (d b : Reg) (w : BitVec 2) (f : BitVec 8) (s : State) : Host.Outcome State Fault Refusal :=
  finish (ldpOp true 1 d b w f) s

def execLdpI16 (d b : Reg) (w : BitVec 2) (f : BitVec 8) (s : State) : Host.Outcome State Fault Refusal :=
  finish (ldpOp true 2 d b w f) s

def execLdpI32 (d b : Reg) (w : BitVec 2) (f : BitVec 8) (s : State) : Host.Outcome State Fault Refusal :=
  finish (ldpOp true 4 d b w f) s

def execLdpI64 (d b : Reg) (w : BitVec 2) (f : BitVec 8) (s : State) : Host.Outcome State Fault Refusal :=
  finish (ldpOp true 8 d b w f) s

/-! ## Atomics (R170, R171) -/

/-- Signed order of two values of n bytes. -/
def signedLt (n a b : Nat) : Bool := (BitVec.ofNat (8 * n) a).slt (BitVec.ofNat (8 * n) b)

/-- An atomic: `new` answers what is stored, from the old value, the operand and the old x[d]; the old value goes to
x[d], sign-extended for the signed 4-byte forms. `kind` says how it leaves a port, from the operand and the old x[d]. One
with acquire or release ordering aligns courses (R136) and orders all classes (R171). -/
def amoOp (signed : Bool) (d a b : Reg) (z : BitVec 1) (o : BitVec 2) (q : BitVec 4) (kind : Nat → Nat → AtomKind)
    (new : Nat → Nat → Nat → Nat → Option Nat) : Act Unit := do
  ({ scalarLegal with rsv := amoReserved o q, pod := o != 0 && q == 5 } : Legal).check
  let n := if z = 0 then 4 else 8
  let x ← readX a
  let opnd ← readX b
  let exp ← readX d
  let src ← look (·.source 2)
  walkerGate [x.toNat]
  let y ← xlat { kind := .atomic, source := src, align := n } x.toNat
  if o = 0 then pure () else alignCourses
  if 2 ≤ o ∧ q = 5 then upd (·.podRelease (portOf y.pa)) else pure ()
  let old ← atomicAt src x.toNat y n { oc := if o = 0 then q else 0 }
    (kind (opnd.toNat % 2 ^ (8 * n)) (exp.toNat % 2 ^ (8 * n))) fun old =>
    new n old (opnd.toNat % 2 ^ (8 * n)) (exp.toNat % 2 ^ (8 * n))
  if o = 1 ∨ o = 3 then acquire else if o = 2 then alignCourses else pure ()
  writeX d (extendTo (signed && n == 4) n old)

def execAmoadd (d a b : Reg) (z : BitVec 1) (o : BitVec 2) (q : BitVec 4) (s : State) : Host.Outcome State Fault Refusal :=
  finish (amoOp false d a b z o q (fun v _ => .add v) fun n old v _ => some ((old + v) % 2 ^ (8 * n))) s

def execAmoand (d a b : Reg) (z : BitVec 1) (o : BitVec 2) (q : BitVec 4) (s : State) : Host.Outcome State Fault Refusal :=
  finish (amoOp false d a b z o q (fun _ _ => .loop) fun _ old v _ => some (old &&& v)) s

def execAmoor (d a b : Reg) (z : BitVec 1) (o : BitVec 2) (q : BitVec 4) (s : State) : Host.Outcome State Fault Refusal :=
  finish (amoOp false d a b z o q (fun _ _ => .loop) fun _ old v _ => some (old ||| v)) s

def execAmoxor (d a b : Reg) (z : BitVec 1) (o : BitVec 2) (q : BitVec 4) (s : State) : Host.Outcome State Fault Refusal :=
  finish (amoOp false d a b z o q (fun _ _ => .loop) fun _ old v _ => some (old ^^^ v)) s

def execAmominI (d a b : Reg) (z : BitVec 1) (o : BitVec 2) (q : BitVec 4) (s : State) : Host.Outcome State Fault Refusal :=
  finish (amoOp true d a b z o q (fun _ _ => .loop) fun n old v _ => some (if signedLt n v old then v else old)) s

def execAmomaxI (d a b : Reg) (z : BitVec 1) (o : BitVec 2) (q : BitVec 4) (s : State) : Host.Outcome State Fault Refusal :=
  finish (amoOp true d a b z o q (fun _ _ => .loop) fun n old v _ => some (if signedLt n old v then v else old)) s

def execAmominN (d a b : Reg) (z : BitVec 1) (o : BitVec 2) (q : BitVec 4) (s : State) : Host.Outcome State Fault Refusal :=
  finish (amoOp false d a b z o q (fun _ _ => .loop) fun _ old v _ => some (min old v)) s

def execAmomaxN (d a b : Reg) (z : BitVec 1) (o : BitVec 2) (q : BitVec 4) (s : State) : Host.Outcome State Fault Refusal :=
  finish (amoOp false d a b z o q (fun _ _ => .loop) fun _ old v _ => some (max old v)) s

def execAmoswap (d a b : Reg) (z : BitVec 1) (o : BitVec 2) (q : BitVec 4) (s : State) : Host.Outcome State Fault Refusal :=
  finish (amoOp false d a b z o q (fun v _ => .swap v) fun _ _ v _ => some v) s

def execAmocas (d a b : Reg) (z : BitVec 1) (o : BitVec 2) (q : BitVec 4) (s : State) : Host.Outcome State Fault Refusal :=
  finish (amoOp false d a b z o q (fun v e => .cas e v) fun _ old v e => if old = e then some v else none) s

/-! ## FENCE and PREF -/

/-- FENCE (R172, R191): accesses of the classes of the mask are ordered; the acquire kinds invalidate the scalar data
cache and order what they acquire before the mask's accesses, and a release at pod scope waits for the ports (R207). A machine that performs accesses one after another has
nothing else left to order (log 8). -/
def execFence (k : BitVec 2) (sf : BitVec 3) (m : BitVec 16) (s : State) : Host.Outcome State Fault Refusal :=
  finish (do
    ({ scalarLegal with ill := m == 0, rsv := scopeReserved sf, pod := sf == 5 } : Legal).check
    if 2 ≤ k ∧ sf = 5 then upd (·.podRelease none) else pure ()
    if k = 1 ∨ k = 3 then upd (·.sdcInvalidate.acquireMask m) else upd (·.orderMask m)) s

/-- The page-in that PREF with PGIN posts (R173): exactly the post of an access that would raise TIERMISS. -/
def State.prefetchPage (s : State) (va : Nat) : State :=
  match s.translate s.agent { kind := .load, source := 1 } va with
  | .fault kind t => if kind = kTierMiss then t else s
  | _ => s

/-- A prefetch into the scalar data cache: the sector of an address whose load would succeed. -/
def State.prefetchLine (s : State) (va : Nat) : State :=
  match s.translate s.agent { kind := .load, source := 1 } va with
  | .ok x t => if t.sectorBad x.pa then s else (pickCached t t.core.sdc x.pa 1).2.2.modCore fun c =>
      { c with sdc := (pickCached t t.core.sdc x.pa 1).2.1 }
  | _ => s

/-- A prefetch into the die cache, at high or low priority (R49). -/
def State.prefetchDie (s : State) (use : CacheUse) (va : Nat) : State :=
  match s.translate s.agent { kind := .load, source := 1 } va with
  | .ok x t => if regionOf x.pa = .hbm && !t.sectorBad x.pa then t.touchHbm use x.pa 1 else s
  | _ => s

/-- What PREF does beyond its decode checks (R173): the page-in of PGIN, and the sector brought to its target. Whatever
would fault is dropped. -/
def State.prefetch (s : State) (p : BitVec 1) (t : BitVec 2) (va : Nat) : State :=
  let s := if p = 1 then s.prefetchPage va else s
  if t = 2 then s.prefetchLine va else s.prefetchDie (if t = 0 then .high else .low) va

/-- PREF (R173): it changes no architectural state but by the page-in of PGIN. -/
def execPref (p : BitVec 1) (t : BitVec 2) (b : Reg) (w : BitVec 2) (f : BitVec 8) (s : State) :
    Host.Outcome State Fault Refusal :=
  finish (do
    ({ scalarLegal with rsv := t == 3 } : Legal).check
    let x ← readX b
    walkerGate [scalarAddr x f (2 ^ w.toNat)]
    upd (·.prefetch p t (scalarAddr x f (2 ^ w.toNat)))) s

end Sys2Proof.Machine
end

