-- ==== Sys2Proof/Machine/Passes.lean ====
section
/-! DEFINITION. The associative passes (R209 to R220). -/

namespace Sys2Proof.Machine

/-! ## Selectors and descriptors (R210 to R212) -/

/-- What an 11-bit selector names: data column 1 to 1 023, latch 0 T, 1 C, 2 F0, 3 F1, or nothing. -/
inductive Selector where
  | col (n : Nat)
  | lat (n : Nat)
  | nothing
deriving DecidableEq, Repr

def selectorOf (sf : BitVec 11) : Selector :=
  let n := sf.toNat
  if n = 0 then .nothing else if n < 1024 then .col n else if n < 1028 then .lat (n - 1024) else .nothing

def Row.lat (r : Row) : Nat → Bool
  | 0 => r.t
  | 1 => r.c
  | 2 => r.f0
  | _ => r.f1

def Row.setLat (r : Row) (n : Nat) (b : Bool) : Row :=
  match n with
  | 0 => { r with t := b }
  | 1 => { r with c := b }
  | 2 => { r with f0 := b }
  | _ => { r with f1 := b }

def Row.sel (r : Row) : Selector → Bool
  | .col n => r.bit n
  | .lat n => r.lat n
  | .nothing => false

def Row.setSel (r : Row) (s : Selector) (b : Bool) : Row :=
  match s with
  | .col n => r.putBit n b
  | .lat n => r.setLat n b
  | .nothing => r

def Selector.cols : Selector → List Nat
  | .col n => [n]
  | _ => []

def Selector.lats : Selector → BitVec 4
  | .lat n => BitVec.ofNat 4 (2 ^ n)
  | _ => 0

/-- A pass descriptor (R211). -/
structure PassDesc where
  col1 : Nat
  n1 : Nat
  col2 : Nat
  n2 : Nat
  reserved : Bool
deriving DecidableEq, Repr

def passDesc (w : Word) : PassDesc :=
  { col1 := bitsOf w.toNat 0 10, n1 := bitsOf w.toNat 10 7, col2 := bitsOf w.toNat 17 10, n2 := bitsOf w.toNat 27 7,
    reserved := bitsOf w.toNat 34 30 != 0 }

/-- A range that names column 0 or passes column 1 023. -/
def rangeBad (col n : Nat) : Bool := n != 0 && (col == 0 || 1024 < col + n)

/-- Whether R212 refuses a descriptor. -/
def PassDesc.bad (d : PassDesc) : Bool :=
  d.reserved || 61 < d.n1 + d.n2 || rangeBad d.col1 d.n1 || rangeBad d.col2 d.n2 ||
  (d.n1 != 0 && d.n2 != 0 && decide (d.col1 < d.col2 + d.n2) && decide (d.col2 < d.col1 + d.n1))

/-- ColOf (R213). -/
def PassDesc.colOf (d : PassDesc) (q : Nat) : Nat := if q < d.n1 then d.col1 + q else d.col2 + (q - d.n1)

/-- The bits of a mask that name columns, and those that name the latches C, F0, F1. -/
def PassDesc.colBits (d : PassDesc) (m : Word) : List Nat := (List.range (d.n1 + d.n2)).filter (bitOf m.toNat)
def latBits (m : Word) : List Nat := [61, 62, 63].filter (bitOf m.toNat)

/-- Match (R213). -/
def PassDesc.matches (d : PassDesc) (r : Row) (key msk : Word) : Bool :=
  (d.colBits msk).all (fun q => r.bit (d.colOf q) == bitOf key.toNat q) &&
  (latBits msk).all fun q => r.lat (q - 60) == bitOf key.toNat q

/-- Write (R216). -/
def PassDesc.write (d : PassDesc) (r : Row) (pat wm : Word) : Row :=
  let r := (d.colBits wm).foldl (fun r q => r.putBit (d.colOf q) (bitOf pat.toNat q)) r
  (latBits wm).foldl (fun r q => r.setLat (q - 60) (bitOf pat.toNat q)) r

/-- Combine (R213). -/
def combineTag (t m : Bool) (top : BitVec 2) : Bool :=
  match top.toNat with
  | 0 => m
  | 1 => t && m
  | 2 => t || m
  | _ => t && !m

/-! ## The frame of a pass (R214) -/

/-- The registers in whose fields some columns lie. -/
def Core.regsOfCols (c : Core) (cols : List Nat) : List Nat :=
  ((cols.filter fun n => 8 ≤ n && n < 8 + c.nv * c.fw).map fun n => (n - 8) / c.fw).eraseDups

def colsMask (cols : List Nat) : BitVec 1024 := cols.foldl (fun a n => a ||| colMask n 1) 0

/-- The plan of a pass that senses and writes some columns and latches. -/
def passPlan (c : Core) (sense write : List Nat) (lats : BitVec 4) : Plan :=
  { regs := c.regsOfCols (sense ++ write), cols := colsMask (sense ++ write), dcols := colsMask write, dlats := lats,
    spoils := false, lats := .none, micro := false, named := true }

/-- VC of the registers in which a pass writes a column. -/
def State.passVc (s : State) (write : List Nat) : State := (s.core.regsOfCols write).foldl (fun s r => s.ordinaryVc r) s

def passLegal : Legal := { pred := true }

/-- One pass over the rows, each by itself; `wr` tells the rows that it writes, for the others' groups are not touched
(R120). -/
def passRow (sense write : List Nat) (lats : BitVec 4) (f : Row → Row) (wr : Row → Bool := fun _ => true) : Act Unit := do
  let s ← look id
  perRow { passPlan s.core sense write lats with
      colsAt := some fun j => colsMask (sense ++ if wr (s.row j) then write else []) }
    fun s j => (f (s.row j), 0)
  upd (·.passVc write)

/-! ## PCMP, PWR, PCW (R215, R216) -/

/-- The latches that a write mask names. -/
def latMask (wm : Word) : BitVec 4 := BitVec.ofNat 4 (2 * bitsOf wm.toNat 61 3)

def execPcmp (k m c : Reg) (t : BitVec 2) (s : State) : Host.Outcome State Fault Refusal :=
  finish (do
    passLegal.check
    let key ← readX k
    let msk ← readX m
    let d := passDesc (s.getX c)
    trapIf d.bad 0x07
    passRow ((d.colBits msk).map d.colOf) [] 1 fun r => { r with t := combineTag r.t (d.matches r key msk) t }) s

def execPwr (k m c : Reg) (l : BitVec 1) (s : State) : Host.Outcome State Fault Refusal :=
  finish (do
    passLegal.check
    let pat ← readX k
    let wm ← readX m
    let d := passDesc (s.getX c)
    trapIf d.bad 0x07
    passRow [] ((d.colBits wm).map d.colOf) (latMask wm) (fun r => if l = 1 || r.t then d.write r pat wm else r)
      fun r => l = 1 || r.t) s

/-- The register after a register: x[r + 1]; only asked for r < 31. -/
def nextReg (r : Reg) : Reg := r + 1

def execPcw (k m c : Reg) (t : BitVec 2) (s : State) : Host.Outcome State Fault Refusal :=
  finish (do
    ({ passLegal with rsv := k == 31 || m == 31 } : Legal).check
    let key ← readX k
    let pat ← readX (nextReg k)
    let msk ← readX m
    let wm ← readX (nextReg m)
    let d := passDesc (s.getX c)
    trapIf d.bad 0x07
    let tag := fun (r : Row) => combineTag r.t (d.matches r key msk) t
    passRow ((d.colBits msk).map d.colOf) ((d.colBits wm).map d.colOf) (latMask wm ||| 1)
      (fun r =>
        let q := { r with t := tag r }
        if tag r then d.write q pat wm else q) tag) s

/-! ## PCOL, PTAG, PSHIFT (R217 to R219) -/

def execPcol (d sf : BitVec 11) (imm : BitVec 1) (s : State) : Host.Outcome State Fault Refusal :=
  finish (do
    passLegal.check
    let dst := selectorOf d
    let src := selectorOf sf
    trapIf (dst == .nothing || src == .nothing) 0x07
    passRow src.cols dst.cols dst.lats fun r => r.setSel dst (r.sel src != (imm == 1))) s

/-- The functions of PTAG. -/
def tagFn (f : BitVec 3) (d s : Bool) : Bool :=
  match f.toNat with
  | 0 => s
  | 1 => d && s
  | 2 => d || s
  | 3 => d != s
  | 4 => d && !s
  | 5 => !s
  | 6 => false
  | _ => true

def execPtag (d sf : BitVec 2) (f : BitVec 3) (s : State) : Host.Outcome State Fault Refusal :=
  finish (do
    ({ passLegal with rsv := 6 ≤ f.toNat && sf != 0 } : Legal).check
    passRow [] [] (BitVec.ofNat 4 (2 ^ d.toNat)) fun r => r.setLat d.toNat (tagFn f (r.lat d.toNat) (r.lat sf.toNat))) s

/-- The source row of a shift, if it lies in the hart's rows (R219). -/
def shiftSource (down : Bool) (j dist vlmax : Nat) : Option Nat :=
  if down then (if j + dist < vlmax then some (j + dist) else none)
  else (if dist ≤ j then some (j - dist) else none)

def execPshift (r : BitVec 1) (j : Reg) (f : BitVec 1) (sf : BitVec 11) (s : State) :
    Host.Outcome State Fault Refusal :=
  finish (do
    passLegal.check
    let sel := selectorOf sf
    trapIf (sel == .nothing || 2 ≤ sel.lats.toNat || 16 < j.toNat) 0x07
    let s ← look id
    let src := fun i => shiftSource (r == 1) i (2 ^ j.toNat) s.core.vlmax
    let bit := fun i => match src i with | some k => (s.row k).sel sel | none => f == 1
    let rows := s.passRows
    allRows { passPlan s.core sel.cols sel.cols sel.lats with aligns := s.core.manyCourses } (rows ++ (rows.filterMap src).filter fun i => !(s.row i).bit 0)
      (upd fun t => (rows.foldl (fun t i => t.setRow i ((s.row i).setSel sel (bit i))) t).passVc sel.cols)) s

/-! ## PCNT, PANY, PFF (R220) -/

/-- Sensing one bit of the pass rows; the result of the mortar network goes to x[d]. -/
def senseOp (d : Reg) (sf : BitVec 11) (f : State → List Nat → Word) : Act Unit := do
  passLegal.check
  let sel := selectorOf sf
  trapIf (sel == .nothing) 0x07
  let s ← look id
  allRows { passPlan s.core sel.cols [] 0 with aligns := true } s.passRows
    (writeX d (f s (s.passRows.filter fun i => (s.row i).sel sel)))

def execPcnt (d : Reg) (sf : BitVec 11) (s : State) : Host.Outcome State Fault Refusal :=
  finish (senseOp d sf fun _ l => BitVec.ofNat 64 l.length) s

def execPany (d : Reg) (sf : BitVec 11) (s : State) : Host.Outcome State Fault Refusal :=
  finish (senseOp d sf fun _ l => boolWord !l.isEmpty) s

def execPff (d : Reg) (sf : BitVec 11) (s : State) : Host.Outcome State Fault Refusal :=
  finish (senseOp d sf fun _ l => match l with | [] => BitVec.allOnes 64 | j :: _ => BitVec.ofNat 64 j) s

end Sys2Proof.Machine
end

