-- ==== Sys2Proof/Machine/Dispatch.lean ====
section
/-! DEFINITION. The dispatcher: one arm per constructor of Instr, each one call of its meaning. -/

namespace Sys2Proof.Machine

def exec (i : Instr) (s : State) : Host.Outcome State Fault Refusal :=
  match i with
  | .add d a b => Sys2Proof.Machine.execAdd d a b s
  | .sub d a b => Sys2Proof.Machine.execSub d a b s
  | .and d a b => Sys2Proof.Machine.execAnd d a b s
  | .or d a b => Sys2Proof.Machine.execOr d a b s
  | .xor d a b => Sys2Proof.Machine.execXor d a b s
  | .andn d a b => Sys2Proof.Machine.execAndn d a b s
  | .slt d a b => Sys2Proof.Machine.execSlt d a b s
  | .sltu d a b => Sys2Proof.Machine.execSltu d a b s
  | .seq d a b => Sys2Proof.Machine.execSeq d a b s
  | .sne d a b => Sys2Proof.Machine.execSne d a b s
  | .min d a b => Sys2Proof.Machine.execMin d a b s
  | .max d a b => Sys2Proof.Machine.execMax d a b s
  | .minu d a b => Sys2Proof.Machine.execMinu d a b s
  | .maxu d a b => Sys2Proof.Machine.execMaxu d a b s
  | .sll d a b => Sys2Proof.Machine.execSll d a b s
  | .srl d a b => Sys2Proof.Machine.execSrl d a b s
  | .sra d a b => Sys2Proof.Machine.execSra d a b s
  | .rol d a b => Sys2Proof.Machine.execRol d a b s
  | .ror d a b => Sys2Proof.Machine.execRor d a b s
  | .mul d a b => Sys2Proof.Machine.execMul d a b s
  | .mulh d a b => Sys2Proof.Machine.execMulh d a b s
  | .mulhu d a b => Sys2Proof.Machine.execMulhu d a b s
  | .div d a b => Sys2Proof.Machine.execDiv d a b s
  | .divu d a b => Sys2Proof.Machine.execDivu d a b s
  | .rem d a b => Sys2Proof.Machine.execRem d a b s
  | .remu d a b => Sys2Proof.Machine.execRemu d a b s
  | .addi d a imm => Sys2Proof.Machine.execAddi d a imm s
  | .andi d a imm => Sys2Proof.Machine.execAndi d a imm s
  | .ori d a imm => Sys2Proof.Machine.execOri d a imm s
  | .xori d a imm => Sys2Proof.Machine.execXori d a imm s
  | .seqi d a imm => Sys2Proof.Machine.execSeqi d a imm s
  | .snei d a imm => Sys2Proof.Machine.execSnei d a imm s
  | .slti d a imm => Sys2Proof.Machine.execSlti d a imm s
  | .sgei d a imm => Sys2Proof.Machine.execSgei d a imm s
  | .sltui d a imm => Sys2Proof.Machine.execSltui d a imm s
  | .sgeui d a imm => Sys2Proof.Machine.execSgeui d a imm s
  | .slli d a sf => Sys2Proof.Machine.execSlli d a sf s
  | .srli d a sf => Sys2Proof.Machine.execSrli d a sf s
  | .srai d a sf => Sys2Proof.Machine.execSrai d a sf s
  | .rori d a sf => Sys2Proof.Machine.execRori d a sf s
  | .bext d a p l => Sys2Proof.Machine.execBext d a p l s
  | .bextu d a p l => Sys2Proof.Machine.execBextu d a p l s
  | .bins d a p l => Sys2Proof.Machine.execBins d a p l s
  | .lui d imm => Sys2Proof.Machine.execLui d imm s
  | .auipc d imm => Sys2Proof.Machine.execAuipc d imm s
  | .beq a b f => Sys2Proof.Machine.execBeq a b f s
  | .bne a b f => Sys2Proof.Machine.execBne a b f s
  | .blt a b f => Sys2Proof.Machine.execBlt a b f s
  | .bge a b f => Sys2Proof.Machine.execBge a b f s
  | .bltu a b f => Sys2Proof.Machine.execBltu a b f s
  | .bgeu a b f => Sys2Proof.Machine.execBgeu a b f s
  | .bmany k f => Sys2Proof.Machine.execBmany k f s
  | .bmnone k f => Sys2Proof.Machine.execBmnone k f s
  | .bmall k f => Sys2Proof.Machine.execBmall k f s
  | .bmnall k f => Sys2Proof.Machine.execBmnall k f s
  | .jal d f => Sys2Proof.Machine.execJal d f s
  | .jalr d a imm => Sys2Proof.Machine.execJalr d a imm s
  | .smb c a n f => Sys2Proof.Machine.execSmb c a n f s
  | .smbsImm sf imm => Sys2Proof.Machine.execSmbsImm sf imm s
  | .smbsReg sf a => Sys2Proof.Machine.execSmbsReg sf a s
  | .ldN8 d b c f => Sys2Proof.Machine.execLdN8 d b c f s
  | .ldN16 d b c f => Sys2Proof.Machine.execLdN16 d b c f s
  | .ldN32 d b c f => Sys2Proof.Machine.execLdN32 d b c f s
  | .ldN64 d b c f => Sys2Proof.Machine.execLdN64 d b c f s
  | .ldI8 d b c f => Sys2Proof.Machine.execLdI8 d b c f s
  | .ldI16 d b c f => Sys2Proof.Machine.execLdI16 d b c f s
  | .ldI32 d b c f => Sys2Proof.Machine.execLdI32 d b c f s
  | .ldI64 d b c f => Sys2Proof.Machine.execLdI64 d b c f s
  | .stN8 d b c f => Sys2Proof.Machine.execStN8 d b c f s
  | .stN16 d b c f => Sys2Proof.Machine.execStN16 d b c f s
  | .stN32 d b c f => Sys2Proof.Machine.execStN32 d b c f s
  | .stN64 d b c f => Sys2Proof.Machine.execStN64 d b c f s
  | .ldpN8 d b w f => Sys2Proof.Machine.execLdpN8 d b w f s
  | .ldpN16 d b w f => Sys2Proof.Machine.execLdpN16 d b w f s
  | .ldpN32 d b w f => Sys2Proof.Machine.execLdpN32 d b w f s
  | .ldpN64 d b w f => Sys2Proof.Machine.execLdpN64 d b w f s
  | .ldpI8 d b w f => Sys2Proof.Machine.execLdpI8 d b w f s
  | .ldpI16 d b w f => Sys2Proof.Machine.execLdpI16 d b w f s
  | .ldpI32 d b w f => Sys2Proof.Machine.execLdpI32 d b w f s
  | .ldpI64 d b w f => Sys2Proof.Machine.execLdpI64 d b w f s
  | .amoadd d a b z o q => Sys2Proof.Machine.execAmoadd d a b z o q s
  | .amoand d a b z o q => Sys2Proof.Machine.execAmoand d a b z o q s
  | .amoor d a b z o q => Sys2Proof.Machine.execAmoor d a b z o q s
  | .amoxor d a b z o q => Sys2Proof.Machine.execAmoxor d a b z o q s
  | .amominI d a b z o q => Sys2Proof.Machine.execAmominI d a b z o q s
  | .amomaxI d a b z o q => Sys2Proof.Machine.execAmomaxI d a b z o q s
  | .amominN d a b z o q => Sys2Proof.Machine.execAmominN d a b z o q s
  | .amomaxN d a b z o q => Sys2Proof.Machine.execAmomaxN d a b z o q s
  | .amoswap d a b z o q => Sys2Proof.Machine.execAmoswap d a b z o q s
  | .amocas d a b z o q => Sys2Proof.Machine.execAmocas d a b z o q s
  | .fence k sf m => Sys2Proof.Machine.execFence k sf m s
  | .pref p t b w f => Sys2Proof.Machine.execPref p t b w f s
  | .ldv d a e c => Sys2Proof.Machine.execLdv d a e c s
  | .stv d a e c => Sys2Proof.Machine.execStv d a e c s
  | .ldvs d a b e c => Sys2Proof.Machine.execLdvs d a b e c s
  | .stvs d a b e c => Sys2Proof.Machine.execStvs d a b e c s
  | .ldvl d a e => Sys2Proof.Machine.execLdvl d a e s
  | .stvl d a e => Sys2Proof.Machine.execStvl d a e s
  | .ldpl d a b c g => Sys2Proof.Machine.execLdpl d a b c g s
  | .stpl d a b c g => Sys2Proof.Machine.execStpl d a b c g s
  | .ldplm k a c => Sys2Proof.Machine.execLdplm k a c s
  | .stplm k a c => Sys2Proof.Machine.execStplm k a c s
  | .vgath d a b e c w => Sys2Proof.Machine.execVgath d a b e c w s
  | .vgathNb d a b e c w => Sys2Proof.Machine.execVgathNb d a b e c w s
  | .vscat d a b e c w => Sys2Proof.Machine.execVscat d a b e c w s
  | .vgathNf d a b e c w n => Sys2Proof.Machine.execVgathNf d a b e c w n s
  | .kvldNf d a v t => Sys2Proof.Machine.execKvldNf d a v t s
  | .kvld d a t v c => Sys2Proof.Machine.execKvld d a t v c s
  | .kvst d a c => Sys2Proof.Machine.execKvst d a c s
  | .kvstT d a c => Sys2Proof.Machine.execKvstT d a c s
  | .kvapp d a c => Sys2Proof.Machine.execKvapp d a c s
  | .kvappT d a c => Sys2Proof.Machine.execKvappT d a c s
  | .kvfold d a c => Sys2Proof.Machine.execKvfold d a c s
  | .kvfoldT d a c => Sys2Proof.Machine.execKvfoldT d a c s
  | .cpy d a n t p sf m => Sys2Proof.Machine.execCpy d a n t p sf m s
  | .cpym d a n t p sf m => Sys2Proof.Machine.execCpym d a n t p sf m s
  | .cpyr d a n t p sf m => Sys2Proof.Machine.execCpyr d a n t p sf m s
  | .cpyg d a imm t w m => Sys2Proof.Machine.execCpyg d a imm t w m s
  | .twaitany d a => Sys2Proof.Machine.execTwaitany d a s
  | .twaitall d a => Sys2Proof.Machine.execTwaitall d a s
  | .tffr d a => Sys2Proof.Machine.execTffr d a s
  | .tclr a => Sys2Proof.Machine.execTclr a s
  | .tpln d a => Sys2Proof.Machine.execTpln d a s
  | .waitc l sf c t => Sys2Proof.Machine.execWaitc l sf c t s
  | .pcmp k m c t => Sys2Proof.Machine.execPcmp k m c t s
  | .pwr k m c l => Sys2Proof.Machine.execPwr k m c l s
  | .pcw k m c t => Sys2Proof.Machine.execPcw k m c t s
  | .pcol d sf imm => Sys2Proof.Machine.execPcol d sf imm s
  | .ptag d sf f => Sys2Proof.Machine.execPtag d sf f s
  | .pshift r j f sf => Sys2Proof.Machine.execPshift r j f sf s
  | .pcnt d sf => Sys2Proof.Machine.execPcnt d sf s
  | .pany d sf => Sys2Proof.Machine.execPany d sf s
  | .pff d sf => Sys2Proof.Machine.execPff d sf s
  | .vadd d a b e x sf => Sys2Proof.Machine.execVadd d a b e x sf s
  | .vsub d a b e x sf => Sys2Proof.Machine.execVsub d a b e x sf s
  | .vrsub d a b e x sf => Sys2Proof.Machine.execVrsub d a b e x sf s
  | .vand d a b e x => Sys2Proof.Machine.execVand d a b e x s
  | .vor d a b e x => Sys2Proof.Machine.execVor d a b e x s
  | .vxor d a b e x => Sys2Proof.Machine.execVxor d a b e x s
  | .vmin d a b e x => Sys2Proof.Machine.execVmin d a b e x s
  | .vmax d a b e x => Sys2Proof.Machine.execVmax d a b e x s
  | .vmul d a b e x => Sys2Proof.Machine.execVmul d a b e x s
  | .vmacc d a b e x => Sys2Proof.Machine.execVmacc d a b e x s
  | .vsll d a b e => Sys2Proof.Machine.execVsll d a b e s
  | .vsrl d a b e => Sys2Proof.Machine.execVsrl d a b e s
  | .vsra d a b e => Sys2Proof.Machine.execVsra d a b e s
  | .vcmpEq k a b e x => Sys2Proof.Machine.execVcmpEq k a b e x s
  | .vcmpNe k a b e x => Sys2Proof.Machine.execVcmpNe k a b e x s
  | .vcmpLt k a b e x => Sys2Proof.Machine.execVcmpLt k a b e x s
  | .vcmpLe k a b e x => Sys2Proof.Machine.execVcmpLe k a b e x s
  | .vcmpGt k a b e x => Sys2Proof.Machine.execVcmpGt k a b e x s
  | .vcmpGe k a b e x => Sys2Proof.Machine.execVcmpGe k a b e x s
  | .vfadd d a b e r => Sys2Proof.Machine.execVfadd d a b e r s
  | .vfsub d a b e r => Sys2Proof.Machine.execVfsub d a b e r s
  | .vfmul d a b e r => Sys2Proof.Machine.execVfmul d a b e r s
  | .vfma d a b e r => Sys2Proof.Machine.execVfma d a b e r s
  | .vfmin d a b e => Sys2Proof.Machine.execVfmin d a b e s
  | .vfmax d a b e => Sys2Proof.Machine.execVfmax d a b e s
  | .vfneg d a e => Sys2Proof.Machine.execVfneg d a e s
  | .vfabs d a e => Sys2Proof.Machine.execVfabs d a e s
  | .vfcmpEq k a b e => Sys2Proof.Machine.execVfcmpEq k a b e s
  | .vfcmpLt k a b e => Sys2Proof.Machine.execVfcmpLt k a b e s
  | .vfcmpLe k a b e => Sys2Proof.Machine.execVfcmpLe k a b e s
  | .vfaddX d a b e r => Sys2Proof.Machine.execVfaddX d a b e r s
  | .vfmulX d a b e r => Sys2Proof.Machine.execVfmulX d a b e r s
  | .vfmaX d a b e r => Sys2Proof.Machine.execVfmaX d a b e r s
  | .vcvt d a sf e r => Sys2Proof.Machine.execVcvt d a sf e r s
  | .vqtb4 d a b e sf => Sys2Proof.Machine.execVqtb4 d a b e sf s
  | .vqtb8 d a b e sf => Sys2Proof.Machine.execVqtb8 d a b e sf s
  | .vdqtb4 d a b e r => Sys2Proof.Machine.execVdqtb4 d a b e r s
  | .vdqtb8 d a b e r => Sys2Proof.Machine.execVdqtb8 d a b e r s
  | .vexp2 d a e r => Sys2Proof.Machine.execVexp2 d a e r s
  | .vrcp d a e r => Sys2Proof.Machine.execVrcp d a e r s
  | .vrsqrt d a e r => Sys2Proof.Machine.execVrsqrt d a e r s
  | .vmv d a e => Sys2Proof.Machine.execVmv d a e s
  | .vbcx d a e => Sys2Proof.Machine.execVbcx d a e s
  | .vbcr d a b e => Sys2Proof.Machine.execVbcr d a b e s
  | .vmvxr d a b e => Sys2Proof.Machine.execVmvxr d a b e s
  | .vslideup d a b e imm => Sys2Proof.Machine.execVslideup d a b e imm s
  | .vslidedn d a b e imm => Sys2Proof.Machine.execVslidedn d a b e imm s
  | .vcompress d k e => Sys2Proof.Machine.execVcompress d k e s
  | .viota d a e => Sys2Proof.Machine.execViota d a e s
  | .vrsum d a e sf r => Sys2Proof.Machine.execVrsum d a e sf r s
  | .vrmax d a e sf r => Sys2Proof.Machine.execVrmax d a e sf r s
  | .vrmin d a e sf r => Sys2Proof.Machine.execVrmin d a e sf r s
  | .vscan d a e r => Sys2Proof.Machine.execVscan d a e r s
  | .vscanmax d a e r => Sys2Proof.Machine.execVscanmax d a e r s
  | .vscanmin d a e r => Sys2Proof.Machine.execVscanmin d a e r s
  | .setvl d a => Sys2Proof.Machine.execSetvl d a s
  | .setvlf d a k c => Sys2Proof.Machine.execSetvlf d a k c s
  | .setvlre d a c => Sys2Proof.Machine.execSetvlre d a c s
  | .vsrch k a b e t => Sys2Proof.Machine.execVsrch k a b e t s
  | .vham d a b e w c x => Sys2Proof.Machine.execVham d a b e w c x s
  | .vtopk k a b e m => Sys2Proof.Machine.execVtopk k a b e m s
  | .tkinit a n sf => Sys2Proof.Machine.execTkinit a n sf s
  | .tkins d a n k v => Sys2Proof.Machine.execTkins d a n k v s
  | .tkmrg a n c => Sys2Proof.Machine.execTkmrg a n c s
  | .tkrd d a n c => Sys2Proof.Machine.execTkrd d a n c s
  | .tkthr d n o => Sys2Proof.Machine.execTkthr d n o s
  | .vterm d a b e c => Sys2Proof.Machine.execVterm d a b e c s
  | .vdotv d a e p n => Sys2Proof.Machine.execVdotv d a e p n s
  | .vselv d a b e m => Sys2Proof.Machine.execVselv d a b e m s
  | .vmaskv k a e sf => Sys2Proof.Machine.execVmaskv k a e sf s
  | .vclrv d a b e => Sys2Proof.Machine.execVclrv d a b e s
  | .sbind a c n => Sys2Proof.Machine.execSbind a c n s
  | .sldb a c x => Sys2Proof.Machine.execSldb a c x s
  | .sldbg a b c x => Sys2Proof.Machine.execSldbg a b c x s
  | .stile d w => Sys2Proof.Machine.execStile d w s
  | .smma a b => Sys2Proof.Machine.execSmma a b s
  | .sdrainScratch a t r l => Sys2Proof.Machine.execSdrainScratch a t r l s
  | .sdrainVreg d t r l => Sys2Proof.Machine.execSdrainVreg d t r l s
  | .szero m t => Sys2Proof.Machine.execSzero m t s
  | .miter d a t r m g => Sys2Proof.Machine.execMiter d a t r m g s
  | .mpoly a g => Sys2Proof.Machine.execMpoly a g s
  | .scoef a k => Sys2Proof.Machine.execScoef a k s
  | .fork d a => Sys2Proof.Machine.execFork d a s
  | .rdv => Sys2Proof.Machine.execRdv s
  | .rdvEnd => Sys2Proof.Machine.execRdvEnd s
  | .bar a sf => Sys2Proof.Machine.execBar a sf s
  | .mbinit d a p => Sys2Proof.Machine.execMbinit d a p s
  | .mbarrive a p sf => Sys2Proof.Machine.execMbarrive a p sf s
  | .mbexpect d a p sf => Sys2Proof.Machine.execMbexpect d a p sf s
  | .mbarrivex d a p sf => Sys2Proof.Machine.execMbarrivex d a p sf s
  | .mbwait d a p q sf => Sys2Proof.Machine.execMbwait d a p q sf s
  | .mbtest d a p sf => Sys2Proof.Machine.execMbtest d a p sf s
  | .waitvEq d a o e => Sys2Proof.Machine.execWaitvEq d a o e s
  | .waitvGe d a o e => Sys2Proof.Machine.execWaitvGe d a o e s
  | .csrr d n => Sys2Proof.Machine.execCsrr d n s
  | .csrw d a n => Sys2Proof.Machine.execCsrw d a n s
  | .csrs d a n => Sys2Proof.Machine.execCsrs d a n s
  | .csrc d a n => Sys2Proof.Machine.execCsrc d a n s
  | .svc c => Sys2Proof.Machine.execSvc c s
  | .trap c => Sys2Proof.Machine.execTrap c s
  | .bkpt c => Sys2Proof.Machine.execBkpt c s
  | .eret => Sys2Proof.Machine.execEret s
  | .yield => Sys2Proof.Machine.execYield s
  | .endHart => Sys2Proof.Machine.execEndHart s
  | .launch d a => Sys2Proof.Machine.execLaunch d a s
  | .quiesce d a => Sys2Proof.Machine.execQuiesce d a s
  | .tlbinv d a k => Sys2Proof.Machine.execTlbinv d a k s
  | .icinv => Sys2Proof.Machine.execIcinv s
  | .icinvAll => Sys2Proof.Machine.execIcinvAll s
  | .sdcinv => Sys2Proof.Machine.execSdcinv s
  | .pfx p v c r => Sys2Proof.Machine.execPfx p v c r s
  | .copyComplete core tag dest => Sys2Proof.Machine.execCopyComplete core tag dest s
  | .gatherElementArrive core op row => Sys2Proof.Machine.execGatherElementArrive core op row s
  | .planeSlotDelivered core tag => Sys2Proof.Machine.execPlaneSlotDelivered core tag s
  | .slabOpComplete core op => Sys2Proof.Machine.execSlabOpComplete core op s
  | .bLoadComplete core op => Sys2Proof.Machine.execBLoadComplete core op s
  | .tkmrgComplete core list => Sys2Proof.Machine.execTkmrgComplete core list s
  | .pageInComplete req frame fcode => Sys2Proof.Machine.execPageInComplete req frame fcode s
  | .walkStart die => Sys2Proof.Machine.execWalkStart die s
  | .kvappWaitRetry core hart => Sys2Proof.Machine.execKvappWaitRetry core hart s
  | .waitvPoll core hart => Sys2Proof.Machine.execWaitvPoll core hart s
  | .ringHeadPoll held => Sys2Proof.Machine.execRingHeadPoll held s
  | .queueKick port q value => Sys2Proof.Machine.execQueueKick port q value s
  | .queueEnable port q value => Sys2Proof.Machine.execQueueEnable port q value s
  | .queueDisable port q value => Sys2Proof.Machine.execQueueDisable port q value s
  | .queueSlotRetry q => Sys2Proof.Machine.execQueueSlotRetry q s
  | .queueStall q => Sys2Proof.Machine.execQueueStall q s
  | .launchRecordTake q => Sys2Proof.Machine.execLaunchRecordTake q s
  | .codeObjectLoad req => Sys2Proof.Machine.execCodeObjectLoad req s
  | .launchWaitPoll launch => Sys2Proof.Machine.execLaunchWaitPoll launch s
  | .placementDecision => Sys2Proof.Machine.execPlacementDecision s
  | .coreReservation => Sys2Proof.Machine.execCoreReservation s
  | .launchComplete launch => Sys2Proof.Machine.execLaunchComplete launch s
  | .preemptqWrite port value => Sys2Proof.Machine.execPreemptqWrite port value s
  | .gangSave launch gang => Sys2Proof.Machine.execGangSave launch gang s
  | .gangRestore launch gang => Sys2Proof.Machine.execGangRestore launch gang s
  | .dqflush port value => Sys2Proof.Machine.execDqflush port value s
  | .debugHalt core value => Sys2Proof.Machine.execDebugHalt core value s
  | .debugResume core value => Sys2Proof.Machine.execDebugResume core value s
  | .semacqRead port rid off size tie => Sys2Proof.Machine.execSemacqRead port rid off size tie s
  | .semrelWrite port rid sem value => Sys2Proof.Machine.execSemrelWrite port rid sem value s
  | .semtimeWrite port rid sem value => Sys2Proof.Machine.execSemtimeWrite port rid sem value s
  | .semstatWrite port sem value => Sys2Proof.Machine.execSemstatWrite port sem value s
  | .semaphoreExpiry sem => Sys2Proof.Machine.execSemaphoreExpiry sem s
  | .podidWrite port value tie => Sys2Proof.Machine.execPodidWrite port value tie s
  | .mctrlReset port rid value => Sys2Proof.Machine.execMctrlReset port rid value s
  | .testctlWrite port value => Sys2Proof.Machine.execTestctlWrite port value s
  | .pgrqWrite port die value => Sys2Proof.Machine.execPgrqWrite port die value s
  | .registerWrite port rid off size value => Sys2Proof.Machine.execRegisterWrite port rid off size value s
  | .bar2Read port addr len => Sys2Proof.Machine.execBar2Read port addr len s
  | .bar2Write port addr data poisoned => Sys2Proof.Machine.execBar2Write port addr data poisoned s
  | .arrive msg => Sys2Proof.Machine.execArrive msg s
  | .depart msg => Sys2Proof.Machine.execDepart msg s
  | .refuse msg => Sys2Proof.Machine.execRefuse msg s
  | .podArriveSend barrier => Sys2Proof.Machine.execPodArriveSend barrier s
  | .hostLinkDown port => Sys2Proof.Machine.execHostLinkDown port s
  | .hostLinkUp port => Sys2Proof.Machine.execHostLinkUp port s
  | .moduleReset => Sys2Proof.Machine.execModuleReset s
  | .bootStage images config minor linksFail portsFail => Sys2Proof.Machine.execBootStage images config minor linksFail portsFail s
  | .getVersion port => Sys2Proof.Machine.execGetVersion port s
  | .getCapabilities port => Sys2Proof.Machine.execGetCapabilities port s
  | .negotiateAlgorithms port => Sys2Proof.Machine.execNegotiateAlgorithms port s
  | .getDigests port => Sys2Proof.Machine.execGetDigests port s
  | .getCertificate port slot => Sys2Proof.Machine.execGetCertificate port slot s
  | .challenge port slot nonce => Sys2Proof.Machine.execChallenge port slot nonce s
  | .getMeasurements port index => Sys2Proof.Machine.execGetMeasurements port index s
  | .spdmUnsupportedRequest port code => Sys2Proof.Machine.execSpdmUnsupportedRequest port code s
  | .mctpReadMsense via => Sys2Proof.Machine.execMctpReadMsense via s
  | .mctpReadBootstat via => Sys2Proof.Machine.execMctpReadBootstat via s
  | .mctpReadLog via => Sys2Proof.Machine.execMctpReadLog via s
  | .mctpHaltRequest via core => Sys2Proof.Machine.execMctpHaltRequest via core s
  | .governorUpdate die power => Sys2Proof.Machine.execGovernorUpdate die power s
  | .powerRecoveryEnter die => Sys2Proof.Machine.execPowerRecoveryEnter die s
  | .powerRecoveryExit die => Sys2Proof.Machine.execPowerRecoveryExit die s
  | .powerTokenPass die => Sys2Proof.Machine.execPowerTokenPass die s
  | .thermalThrottle tj => Sys2Proof.Machine.execThermalThrottle tj s
  | .thermalRelease tj => Sys2Proof.Machine.execThermalRelease tj s
  | .thermalReset tj => Sys2Proof.Machine.execThermalReset tj s
  | .illegalWord w => Sys2Proof.Machine.execIllegalWord w s
  | .ctxpartWrite port slot value => Sys2Proof.Machine.execCtxpartWrite port slot value s
  | .containedHardwareError place => Sys2Proof.Machine.execContainedHardwareError place s
  | .peerPortLinkUp port => Sys2Proof.Machine.execPeerPortLinkUp port s

end Sys2Proof.Machine
end

