-- ==== Sys2Proof/Machine/Step.lean ====
section
/-! DEFINITION. One step of the machine, and where a test's instruction is placed. -/

namespace Sys2Proof.Machine

/-- One step: the next event of the inbox, or a party's next instruction, or a step of an engine; with nothing left to
do, time passes (log 5). -/
def step (s : State) : Host.Outcome State Fault Refusal :=
  let s := s.tick
  match s.inbox with
  | e :: rest => if e.isWord then .next { s with inbox := rest } else exec e { s with inbox := rest }.endDelays
  | [] =>
    match s.choose s.choices with
    | (none, t) => .next t.idle
    | (some (.event e), t) => e.perform t.endDelays
    | (some (.party p), t) =>
      match t.turnOf p with
      | .stopped u => .next u
      | .run i u => exec i u
      | .illegal w u => execIllegalWord w u

/-- The state with an instruction word where the next step fetches: hart 0 of core 0 runs at address 0, whose 1 GiB page
an identity table maps, and moves next (log 14). -/
def State.withFetchWord (s : State) (_nbits w : Nat) : State :=
  let m := writeLE s.mem 0 4 w
  let m := writeLE m 0x100000 8 0x200001
  let m := writeLE m 0x200000 8 0x5F
  let s := { s with mem := m, bad := [], inbox := [], turn := some { core := 0, who := .hart 0 } }
  let s := s.modDie 0 fun d => { d with ptrs := [], walks := [], walkWait := [] }
  s.modCoreAt 0 fun c =>
    { c.modHart 0 fun h => { h with st := .running, pfx := none, strmTrap := false, tierFail := none, wait := .none,
                                    th := { h.th with pc := 0 } } with
      ptroot := 0x100000, tlb := [], icache := [], haltHeld := none, dbgstat := 0 }

end Sys2Proof.Machine
end

