-- ==== Sys2Proof/Safety.lean ====
section
/-! DEFINITION. The terms in which the statements of this package speak: when an instruction completes, when it takes an
exception, what it leaves alone, and when a vector instruction finds its operands ready. -/

namespace Sys2Proof.Machine

/-! ## How an instruction ends -/

/-- The instruction completes with its own effect and the next instruction is the next word (R138): `u` is the state with
the effect, at the same party and program counter, and `P` says what the effect is. -/
def Retires (i : Instr) (s : State) (P : State → Prop) : Prop :=
  ∃ u : State, exec i s = .next u.retire ∧ u.cur = s.cur ∧ u.pc = s.pc ∧ P u

/-- The instruction takes an exception, with nothing else of its effect. -/
def Traps (i : Instr) (s : State) (t : Trap) : Prop := exec i s = .next (s.take t)

/-- A step of the world or of an engine, described by what holds afterwards. -/
def Becomes (i : Instr) (s : State) (P : State → Prop) : Prop := ∃ t : State, exec i s = .next t ∧ P t

/-- The trap record that R390 and R149 ask for. -/
def Recorded (s u : State) (t : Trap) : Prop :=
  u.hart.tcause = BitVec.ofNat 64 (t.cause.toNat + (if s.hart.sys then 256 else 0) + (if s.hart.inh then 512 else 0) +
    (if t.norst then 1024 else 0) + t.sub.toNat * 65536) ∧
  u.hart.tfaddr = t.faddr ∧ u.hart.tpc = (if t.next then s.pc + 4 else s.pc) ∧
  u.hart.tiaddr = t.iaddr.getD (if s.hart.pfx = none then s.pc else s.pc - 4) ∧
  u.hart.tpfx = (match s.hart.pfx with | none => 0 | some w => BitVec.ofNat 64 (w.toNat + 0x100000000)) ∧
  u.hart.pfx = none ∧
  (s.hart.walk = none → s.hart.replaying = false → u.hart.elag = elagOf t.pairs ∧ u.hart.estart = estartOf t.pairs)

/-! ## What stays as it was -/

/-- Outside the current core nothing changed but the counter of free values (log 4). -/
def OnlyCore (s u : State) : Prop := u = { s with cores := s.cores.set s.cur.core u.core, free := u.free }

/-- Inside the current core nothing changed but the hart that runs and the rows of the pool, and what observing landed
data does to the scalar data cache and to the order of earlier accesses (R52, R191, R196). -/
def OnlyHartAndRows (s u : State) : Prop :=
  OnlyCore s u ∧
  u.core = { s.core with harts := s.core.harts.set s.cur.who.hartIx u.hart, rows := u.core.rows, marks := u.core.marks,
                         sdc := u.core.sdc, past := u.core.past, lates := u.core.lates }

/-- In every core nothing changed but what its caches hold (TLB, scalar data cache, instruction cache) and which earlier
stores and loads later accesses are ordered after (R191). -/
def CoreTraces (s u : State) : Prop :=
  ∀ c : Fin 192, u.cores[c] =
    { s.cores[c] with tlb := u.cores[c].tlb, sdc := u.cores[c].sdc, icache := u.cores[c].icache, past := u.cores[c].past,
                      lates := u.cores[c].lates }

/-- The same after a store: a core also keeps the ports that it has posted writes through (R207), and forgets a failing
transfer once it has happened (log 95). -/
def CoreStores (s u : State) : Prop :=
  ∀ c : Fin 192, u.cores[c] =
    { s.cores[c] with tlb := u.cores[c].tlb, sdc := u.cores[c].sdc, icache := u.cores[c].icache, past := u.cores[c].past,
                      lates := u.cores[c].lates, unflushed := u.cores[c].unflushed, flaws := u.cores[c].flaws }

/-- In every die nothing changed but the walker's pointer cache, the walkers in use, and the lines of the die cache. -/
def DieTraces (s u : State) : Prop :=
  ∀ d : Fin 4, u.dies[d] = { s.dies[d] with ptrs := u.dies[d].ptrs, walks := u.dies[d].walks,
                                            walkWait := u.dies[d].walkWait, dcache := u.dies[d].dcache }

/-- Nothing changed but what translations and caches leave behind, the requests that left through ports, and the counter of
free values. -/
def OnlyTraces (s u : State) : Prop :=
  u = { s with cores := u.cores, dies := u.dies, requests := u.requests, free := u.free } ∧ CoreTraces s u ∧ DieTraces s u

/-- A store: beyond `OnlyTraces`, memory, the good and failing checks with their log, and the note that a port was
passed (R324, R207). -/
def OnlyStore (s u : State) : Prop :=
  u = { s with cores := u.cores, dies := u.dies, requests := u.requests, free := u.free, mem := u.mem, bad := u.bad,
               log := u.log, loglost := u.loglost, launches := u.launches } ∧
  u.launches.map (fun l => { l with ports := 0 }) = s.launches.map (fun l => { l with ports := 0 }) ∧
  CoreStores s u ∧ DieTraces s u

/-- The bytes of memory after a store of the low n bytes of a value at a physical address: every other byte reads as
before. -/
def StoredLE (s u : State) (pa n v : Nat) : Prop :=
  ∀ a : Nat, readByte u.mem a =
    if pa ≤ a ∧ a < pa + n then BitVec.ofNat 8 (v / 256 ^ (a - pa)) else readByte s.mem a

/-- The memory afterwards where a store of the low n bytes of a value takes its place before the latest few of the party's
earlier stores that it is not ordered after: a byte that one of these wrote stays (R191). -/
def StoredInClass (s u : State) (r : Role) (pa n v : Nat) : Prop :=
  ∃ k : Nat, ∀ a : Nat, readByte u.mem a =
    if pa ≤ a ∧ a < pa + n ∧ (((s.unorderedPast r pa n).take k).any fun p => p.covers a) = false
    then BitVec.ofNat 8 (v / 256 ^ (a - pa)) else readByte s.mem a

/-! ## Memory operands -/

/-- Where an access of the party that runs is made, if it passes steps 1 to 6 of R40. -/
def State.reach (s : State) (acc : Acc) (va : Nat) : Option Xlat :=
  match s.translate s.agent acc va with
  | .ok x _ => some x
  | _ => none

/-- The bytes are memory, and their checks are good (R40 step 7). -/
def State.goodData (s : State) (pa n : Nat) : Bool := regionOf pa != .regs && !s.anyBad pa n

/-- What a load of n bytes may find (R191): the memory, or the memory before the latest few of the party's own stores that
the load is not ordered after. -/
def State.mayFind (s : State) (r : Role) (pa n v : Nat) : Prop :=
  ∃ k : Nat, v = leOfBytes (((s.unorderedPast r pa n).take k).foldl (fun b p => putBack pa b (p.pa, p.old))
    (readBytes s.mem pa n))

/-- Every earlier store of the party is ordered before its accesses of a class (R191). -/
def State.classOrdered (s : State) (oc : BitVec 4) : Bool :=
  s.core.past.all fun p => p.who != s.cur.who || !p.unordered.getLsbD oc.toNat

/-- The party's earlier stores and loads are ordered before what follows (R191, R192). -/
def State.ordered (s : State) : Prop := (∀ p ∈ s.core.past, p.who ≠ s.cur.who) ∧ ∀ l ∈ s.core.lates, l.who ≠ s.cur.who

/-- The party's acquire or join has been performed: its scalar data cache is empty, and its earlier accesses are ordered
before what follows (R52, R192). -/
def State.acquired (s : State) : Prop := s.core.sdc = [] ∧ s.ordered

/-- The scalar data cache holds no older copy of the sector. -/
def State.notCached (s : State) (x : Xlat) : Bool := !x.idem || s.core.sdc.all fun l => l.sector != x.pa / 64

/-- A scalar access of n bytes (R168): naturally aligned, in memory of either class. -/
def scalarAcc (s : State) (kind : AccKind) (n : Nat) : Acc :=
  { kind := kind, source := s.source (if kind = .load then 1 else 2), device := true, align := n }

/-- The scalar loads of R168, each with whether it extends the sign, and its bytes. -/
def scalarLoads (d b : Reg) (c : BitVec 4) (f : BitVec 8) : List (Instr × Bool × Nat) :=
  [(.ldN8 d b c f, false, 1), (.ldN16 d b c f, false, 2), (.ldN32 d b c f, false, 4), (.ldN64 d b c f, false, 8),
   (.ldI8 d b c f, true, 1), (.ldI16 d b c f, true, 2), (.ldI32 d b c f, true, 4), (.ldI64 d b c f, true, 8)]

/-- The scalar stores of R168, each with its bytes. -/
def scalarStores (d b : Reg) (c : BitVec 4) (f : BitVec 8) : List (Instr × Nat) :=
  [(.stN8 d b c f, 1), (.stN16 d b c f, 2), (.stN32 d b c f, 4), (.stN64 d b c f, 8)]

/-- n bytes extended to 64 bits, with the sign or with zeros (R168). -/
def extended (sign : Bool) (n v : Nat) : Word := if sign then (BitVec.ofNat (8 * n) v).signExtend 64 else BitVec.ofNat 64 v

/-- In the pool only these columns of these rows of the hart changed, the latches of these rows, and the workspace
columns of the hart's rows (R230); no check column came to disagree. -/
def RowsChanged (s u : State) (rows : List Nat) (cols : BitVec 1024) (wk : Nat) : Prop :=
  ∀ n : Nat,
    (u.core.row n).chk = (s.core.row n).chk ∧
    (∀ col : Nat, col < 1024 →
      (cols.getLsbD col = false ∨ n ∉ rows.map s.coreRow) →
      (col < 1024 - wk ∨ n < s.hartLo ∨ s.hartHi ≤ n) →
      (u.core.row n).bit col = (s.core.row n).bit col) ∧
    (n ∉ rows.map s.coreRow →
      (u.core.row n).t = (s.core.row n).t ∧ (u.core.row n).c = (s.core.row n).c ∧
      (u.core.row n).f0 = (s.core.row n).f0 ∧ (u.core.row n).f1 = (s.core.row n).f1)

/-- Beyond `OnlyTraces`, only the hart that runs and the rows of its core changed. -/
def OnlyPoolAndTraces (s u : State) : Prop :=
  u = { s with cores := u.cores, dies := u.dies, requests := u.requests, free := u.free } ∧ DieTraces s u ∧
  (∀ c : Fin 192, c ≠ s.cur.core → u.cores[c] = s.cores[c]) ∧
  u.core = { s.core with harts := s.core.harts.set s.cur.who.hartIx u.hart, rows := u.core.rows, marks := u.core.marks,
                         tlb := u.core.tlb, sdc := u.core.sdc, past := u.core.past, lates := u.core.lates }

/-- Beyond `OnlyStore`, only the hart that runs changed. -/
def OnlyHartAndStore (s u : State) : Prop :=
  u = { s with cores := u.cores, dies := u.dies, requests := u.requests, free := u.free, mem := u.mem, bad := u.bad,
               log := u.log, loglost := u.loglost, launches := u.launches } ∧
  u.launches.map (fun l => { l with ports := 0 }) = s.launches.map (fun l => { l with ports := 0 }) ∧ DieTraces s u ∧
  (∀ c : Fin 192, c ≠ s.cur.core → u.cores[c] = s.cores[c]) ∧
  u.core = { s.core with harts := s.core.harts.set s.cur.who.hartIx u.hart,
                         tlb := u.core.tlb, sdc := u.core.sdc, past := u.core.past, lates := u.core.lates,
                         unflushed := u.core.unflushed, flaws := u.core.flaws }

/-- What a part of an instruction that reads and checks its operands finds in a state, and the machine afterwards: none
where a check fails or has to wait. -/
def State.finds {α : Type} (s : State) (m : Act α) : Option (α × State) :=
  match m s with
  | .ok q => some q
  | .error _ => none

/-- Scalar loads of n bytes of a class one after another, if each passes its checks: the values, and the machine
afterwards. -/
def State.scalarsTo (s : State) (n : Nat) (oc : BitVec 4) : List Nat → Option (List Nat × State)
  | [] => some ([], s)
  | va :: vas =>
    match s.finds (loadScalar va n oc) with
    | some q => (q.2.scalarsTo n oc vas).map fun r => (q.1 :: r.1, r.2)
    | none => none

/-! ## Several accesses in order -/

/-- No access has to wait for a walker, and none breaks the rules of device-class memory (R46, R57). -/
def State.accessReady (s : State) (acc : Acc) (vas : List Nat) : Bool :=
  (s.lateWalk vas).isNone && (s.deviceFault acc vas).isNone

/-- Accesses that are translated one after another, if each passes steps 1 to 6 of R40: where they are made, and the machine
afterwards. -/
def State.mapsTo (s : State) (acc : Acc) : List Nat → Option (List Xlat × State)
  | [] => some ([], s)
  | va :: vas =>
    match s.translate s.agent acc va with
    | .ok x t => (t.mapsTo acc vas).map fun r => (x :: r.1, r.2)
    | _ => none

/-- The physical addresses. -/
def State.mapsEach (s : State) (acc : Acc) (vas : List Nat) : Option (List Nat) :=
  (s.mapsTo acc vas).map fun r => r.1.map (·.pa)

/-- Loads of n bytes in a role, one after another, each of good data: the physical addresses, and the machine afterwards. -/
def State.loadsInOrder (s : State) (acc : Acc) (n : Nat) (use : CacheUse) : List Nat → Option (List Nat × State)
  | [] => some ([], s)
  | va :: vas =>
    match s.translate s.agent acc va with
    | .ok x t =>
      if t.goodData x.pa n then
        ((t.traffic (if x.idem then use else .none) .read x.pa n []).loadsInOrder acc n use vas).map fun r =>
          (x.pa :: r.1, r.2)
      else none
    | _ => none

/-- The physical addresses of loads of n bytes of a class that all succeed, ordered after the party's stores. -/
def State.loadsEach (s : State) (acc : Acc) (n : Nat) (role : Role) (vas : List Nat) : Option (List Nat) :=
  if s.accessReady acc vas && s.classOrdered role.oc then (s.loadsInOrder acc n role.cache vas).map (·.1) else none

/-- Stores of n bytes performed one after another, each of a value computed from the bytes that were there: the physical
addresses, and the machine afterwards. -/
def State.storesInOrder (s : State) (acc : Acc) (n : Nat) (role : Role) : List (Nat × (Nat → Nat)) → Option (List Nat × State)
  | [] => some ([], s)
  | p :: ps =>
    match s.translate s.agent acc p.1 with
    | .ok x t =>
      if regionOf x.pa = .regs then none
      else ((t.storeNext role x.idem x.pa n (p.2 (readLE t.mem x.pa n))).storesInOrder acc n role ps).map fun r =>
        (x.pa :: r.1, r.2)
    | _ => none

/-- No transfer that the core sends out through a port is going to fail (log 95). -/
def Core.sendsGood (c : Core) : Bool := c.flaws.all fun u => match u with
  | .outgoing _ => false
  | _ => true

/-- Vector stores of a class that are ordered after the party's other stores. -/
def State.storesEach (s : State) (acc : Acc) (n : Nat) (oc : BitVec 4) (l : List (Nat × (Nat → Nat))) :
    Option (List Nat × State) :=
  if s.accessReady acc (l.map (·.1)) && s.classOrdered oc && s.core.sendsGood then s.storesInOrder acc n (storeRole oc) l
  else none

/-- The pages of a range, if each passes steps 1 to 6 of R40, and the machine afterwards. -/
def State.mapsRangeTo (s : State) (acc : Acc) (va n : Nat) : Option (PageMap × State) :=
  if va % acc.align = 0 ∧ s.lateWalk (pageStarts va n) = none then
    (s.mapsTo { acc with align := 1 } (pageStarts va n)).map fun r =>
      (((pageStarts va n).zip r.1).map fun p => (p.1 / 65536, p.2.pa / 65536, p.2.idem), r.2)
  else none

def State.mapsRange (s : State) (acc : Acc) (va n : Nat) : Option PageMap := (s.mapsRangeTo acc va n).map (·.1)

/-- The pages of an end of a copy: none for an end in rows. -/
def State.endPagesTo (s : State) (acc : Acc) (e : End) (count : Nat) : Option (PageMap × State) :=
  match e with
  | .mem va => if count = 0 then some ([], s) else s.mapsRangeTo acc va count
  | .pool _ => some ([], s)

/-- The pages of several ranges of n bytes, one after another. -/
def State.rangesTo (s : State) (acc : Acc) (n : Nat) : List Nat → Option (PageMap × State)
  | [] => some ([], s)
  | va :: vas =>
    match s.mapsRangeTo acc va n with
    | some r => (r.2.rangesTo acc n vas).map fun q => (r.1 ++ q.1, q.2)
    | none => none

/-- The barrier object of a copy, or none for a copy without one, if its operand passes the checks, and the machine
afterwards. -/
def State.copyMbarTo (s : State) (m mbp : Bool) (source : Nat) (r : Reg) : Option (Option Mbar × State) :=
  match copyMbar m mbp source r s with
  | .ok q => some q
  | .error _ => none

/-- An end of a copy passes the checks of R97 and R181. -/
def endOk (c : Core) (k : CopyKind) (e : End) (count : Nat) : Bool :=
  match e with
  | .mem _ => true
  | .pool l =>
    locForm l && locRegs c l && locRange c l count &&
    (k != .cpyr || (locView l == 0 && locOff l % 4 == 0) || (locView l == 1 && locBoff l % 4 == 0 && locRlen l % 4 == 0))

/-- The bytes of a range of memory, if loads of a class that are ordered after the party's stores can read it and its checks
are good, and the machine afterwards. -/
def State.readsRangeTo (s : State) (acc : Acc) (va n : Nat) (oc : BitVec 4) : Option (List Byte × State) :=
  match s.mapsRangeTo acc va n with
  | some r =>
    if (r.1.firstBad r.2 va n).isNone && regionOf (r.1.pa va) != .regs && s.classOrdered oc then
      some (r.1.read s.mem va n, (r.2.readRange { oc := oc, scalar := false } r.1 va n).2)
    else none
  | none => none

def State.readsRange (s : State) (acc : Acc) (va n : Nat) (oc : BitVec 4) : Option (List Byte) :=
  (s.readsRangeTo acc va n oc).map (·.1)

/-- Some bytes are stored through a page map, and nothing else changed in memory. -/
def StoredRange (s u : State) (p : PageMap) (va : Nat) (bs : List Byte) : Prop :=
  (∀ i : Nat, i < bs.length → readByte u.mem (p.pa (va + i)) = bs.getD i 0) ∧
  ∀ a : Nat, (∀ i : Nat, i < bs.length → a ≠ p.pa (va + i)) → readByte u.mem a = readByte s.mem a

/-- A memory that an engine operation may find: each sector as it is, or before the latest `k` of the issuer's instructions
whose stores to it the operation is not ordered after (R196, R102). -/
def forkMemAt (m : List Host.Cell) (past : List (List (Nat × Byte))) (k : Nat → Nat) : List Host.Cell :=
  (forkSectors past).foldl (fun m i => backOut past i (k i) m) m

/-- The barrier object that an operand names, if it passes the checks of R345 and R200. -/
def State.namedMbar (s : State) (a : Reg) (p : BitVec 1) : Option Mbar :=
  match mbarOperand a p s with
  | .ok (m, _) => some m
  | .error _ => none

/-- The object holds the 16 bytes of `o` afterwards, and nothing else changed: a store of 16 bytes of memory, or of 16
bytes of linear scratch. -/
def MbarStored (s u : State) (m : Mbar) (o : MbarObj) : Prop :=
  match m with
  | .mem _ pa => OnlyStore s u ∧ StoredLE s u pa 16 o.word
  | .pool off => u.mem = s.mem ∧ u.th = s.th ∧ u.hart = s.hart ∧ u.core.readScratch off 16 = bytesOfLe 16 o.word

/-- The fibres of a list of lengths that fit in `cap` rows, from `sum` rows on (R237): the first rows of those of non-zero
length, how many fibres, how many rows, and whether the first that does not fit is longer than `cap` by itself. -/
def fibresThatFit (cap : Nat) : List Nat → Nat → Nat → List Nat → List Nat × Nat × Nat × Bool
  | [], f, sum, starts => (starts, f, sum, false)
  | l :: ls, f, sum, starts =>
    if cap < sum + l then (starts, f, sum, decide (cap < l))
    else fibresThatFit cap ls (f + 1) (sum + l) (if l = 0 then starts else starts ++ [sum])

/-- A byte or bytes with w bits from bit lo replaced. -/
def mergeBits (lo w v old : Nat) : Nat := old - bitsOf old lo w * 2 ^ lo + v * 2 ^ lo

/-! ## Vector instructions that find everything ready -/

/-- The columns of a row are laid out as R126 demands. -/
def Core.laidOut (c : Core) : Bool := 8 + c.nv * c.fw + c.acol + c.scol == 1024

/-- No check column of the core fails (R121), and no mason's microcode (R384). -/
def State.sound (s : State) : Bool :=
  (s.core.rows.all fun p => p.2.chk == 0) && s.core.flaws.all fun u => match u with
    | .microcode _ => false
    | _ => true

/-- The instruction passes the checks of R145, its registers have landed (R134), no source holds ABN where it may not
(R74), and no row fails its check (R121). -/
def State.vecReady (s : State) (l : Legal) (regs : List Nat) (srcs : List (Nat × AbnKind)) : Bool :=
  (l.cause s).isNone && (s.unlanded regs).isEmpty && (srcs.all fun p => !s.abnFails s.active p.1 p.2) &&
  s.sound && s.core.laidOut

/-- The rows that an instruction performs: the active rows that pass their gate, but for those that a replay has done
already (R209, R395). -/
def State.dueRows (s : State) : List Nat := s.passRows.filter s.pendingRow

/-- The hart is as before but for its flags, its VC bits, which landed data it has observed, and the progress of a
replay. -/
def HartAfter (s u : State) (vc : BitVec 32) (flags : BitVec 5) : Prop :=
  u.hart = { s.hart.replayStep with
    th := { s.hart.th with fflags := s.hart.th.fflags ||| flags }, vc := vc, unseen := u.hart.unseen }

/-- The hart is as before but for one scalar register, its flags, the landed data observed, and the progress of a replay. -/
def HartWrites (s u : State) (d : Reg) (v : Word) (flags : BitVec 5) : Prop :=
  u.hart = { s.hart.replayStep with
    th := ({ s.hart.th with fflags := s.hart.th.fflags ||| flags } : Thread).set d v, unseen := u.hart.unseen }

/-- The active rows but for those that a replay has done already (R11, R395). -/
def State.accessRows (s : State) : List Nat := s.active.filter s.pendingRow

/-- A vector load completes: the element of each row becomes the w bits from bit `bit j` of the n bytes at the row's
physical address; the VC bits become `vc`; memory and everything else stays. -/
def LoadsElements (i : Instr) (s : State) (rows pas : List Nat) (d w n : Nat) (bit : Nat → Nat) : Prop :=
  Retires i s fun u =>
    (∀ p ∈ rows.zip pas, ∀ r ∈ d :: s.copyReg, u.elem r w p.1 = bitsOf (readLE s.mem p.2 n) (bit p.1) w) ∧
    RowsChanged s u rows (s.destCols d w) 0 ∧ OnlyPoolAndTraces s u ∧ HartAfter s u (s.destVc d).hart.vc 0

/-- A vector store completes: memory is as after the stores in row order, every byte outside them as before; a sector all
of whose bits are stored to has a good check afterwards, and the others keep theirs (R321, R322): row j stores the `w` bits
from bit `bit j` of its first byte, a plane store none by itself; everything else stays. -/
def StoresElements (i : Instr) (s : State) (rows : List Nat) (n w : Nat) (bit : Nat → Nat) (r : List Nat × State) : Prop :=
  Retires i s fun u =>
    u.mem = r.2.mem ∧
    (∀ k : Nat, k ∈ u.bad ↔ k ∈ s.bad ∧ ∃ i < 512, ∀ p ∈ rows.zip r.1,
      ¬ (8 * p.2 + bit p.1 ≤ 512 * k + i ∧ 512 * k + i < 8 * p.2 + bit p.1 + w)) ∧
    (∀ a : Nat, (∀ pa ∈ r.1, a < pa ∨ pa + n ≤ a) → readByte u.mem a = readByte s.mem a) ∧
    OnlyHartAndStore s u ∧ HartAfter s u s.hart.vc 0

/-- A vector instruction completes: element j of its destination, and of the prefix copy, becomes the low w bits of `v j`
in each of these rows; the VC bits become `vc`; the flags are ORed with `flags`; everything else stays. -/
def WritesElements (i : Instr) (s : State) (rows : List Nat) (d w wk : Nat) (v : Nat → Nat) (vc : BitVec 32)
    (flags : BitVec 5) : Prop :=
  Retires i s fun u =>
    (∀ j ∈ rows, ∀ r ∈ d :: s.copyReg, u.elem r w j = v j % 2 ^ w) ∧
    RowsChanged s u rows (s.destCols d w) wk ∧ OnlyHartAndRows s u ∧ HartAfter s u vc flags

/-- The VC bits after an ordinary write of a register and its copy (R73). -/
def State.vcOrdinary (s : State) (d : Nat) : BitVec 32 := (s.destVc d).hart.vc

/-- The VC bits after a move: the destination's and its copy's become the source's (R73). -/
def State.vcMove (s : State) (d a : Nat) : BitVec 32 :=
  let b := s.hart.vcBit a
  (s.copyReg.foldl (fun t k => t.setVc k b) (s.setVc d b)).hart.vc

/-! ## Roundings, said by the neighbours of a value (R60 to R62, R66) -/

/-- The magnitude of a finite pattern without its sign, in least units 2^qmin (R60); the pattern of infinity stands for the
power of two beyond the largest finite value. -/
def FFmt.units (t : FFmt) (k : Nat) : Nat :=
  if k / 2 ^ t.frac = 0 then k else (2 ^ t.frac + k % 2 ^ t.frac) * 2 ^ (k / 2 ^ t.frac - 1)

/-- Which of the neighbours `lo` and `lo + 1`, of magnitudes `a` and `b`, the mode takes for a magnitude `x` from `a` on and
below `b` (R62): `lo` where `x` is `a`, and the even one for a tie. -/
def nearer (rm : RMode) (neg : Bool) (lo a b x : Nat) : Nat :=
  if x = a then lo
  else match rm with
    | .rne => if 2 * x < a + b then lo else if a + b < 2 * x then lo + 1 else lo + lo % 2
    | .rtz => lo
    | .rdn => if neg then lo + 1 else lo
    | .rup => if neg then lo else lo + 1

/-- m * 2^e rounded to an integer (R66, Q of R70). -/
def nearestInt (rm : RMode) (neg : Bool) (m : Nat) (e : Int) : Nat :=
  let x := m * 2 ^ e.toNat
  let d := 2 ^ (-e).toNat
  nearer rm neg (x / d) (x / d * d) ((x / d + 1) * d) x

/-- `r` is Round of (-1)^neg * m * 2^e with its flags (R61, R62, R65). A value from 2^(emax + 1) on overflows by the table of
R62; any other lies between two neighbours. Beside the least normal value the result is tiny unless rounding with the
exponent unbounded, to units half as large, reaches that value. -/
def FFmt.IsRound (t : FFmt) (rm : RMode) (neg : Bool) (m : Nat) (e : Int) (r : Nat × BitVec 5) : Prop :=
  let low := min e t.qmin
  let x := m * 2 ^ (e - low).toNat
  let mag := fun (k : Nat) => t.units k * 2 ^ (t.qmin - low).toNat
  let sign := if neg then t.signBit else 0
  let away := (rm = .rdn ∧ neg = true) ∨ (rm = .rup ∧ neg = false)
  (mag t.inf ≤ x → r = ((if rm = .rne ∨ away then t.inf else t.inf - 1) + sign, flOF ||| flNX)) ∧
  ∀ lo : Nat, lo < t.inf → mag lo ≤ x → x < mag (lo + 1) →
    let k := nearer rm neg lo (mag lo) (mag (lo + 1)) x
    let reaches := (away ∧ mag lo + mag (lo + 1) < 2 * x) ∨ (rm = .rne ∧ mag lo + 3 * mag (lo + 1) ≤ 4 * x)
    let tiny := lo + 1 < 2 ^ t.frac ∨ lo + 1 = 2 ^ t.frac ∧ ¬ reaches
    r.1 = k + sign ∧ (x = mag lo → r.2 = 0) ∧
    (x ≠ mag lo → ∃ o v : BitVec 5, r.2 = flNX ||| o ||| v ∧ o = (if k = t.inf then flOF else 0) ∧
      (tiny → v = flUF) ∧ (¬ tiny → v = 0))

/-- All the flags that the performed rows raise, together. -/
def orFlagsOf (rows : List Nat) (f : Nat → BitVec 5) : BitVec 5 := rows.foldl (fun a j => a ||| f j) 0

/-- A vector instruction writes mask register K in every row performed (R3: a write of m0 is discarded). -/
def WritesMask (i : Instr) (s : State) (k : BitVec 3) (wk : Nat) (v : Nat → Bool) (flags : BitVec 5) : Prop :=
  Retires i s fun u =>
    (k ≠ 0 → ∀ j ∈ s.dueRows, u.maskBit k.toNat j = v j) ∧
    RowsChanged s u s.dueRows (maskCols k.toNat) wk ∧
    OnlyHartAndRows s u ∧ HartAfter s u s.hart.vc flags

/-- A pass completes: each of these rows becomes `f` of what it was, and every other row of the core, and everything else
but the VC bits, stays (R213 to R219). -/
def PassRows (i : Instr) (s : State) (rows : List Nat) (f : Nat → Row → Row) (vc : BitVec 32) : Prop :=
  Retires i s fun u =>
    (∀ j ∈ rows, u.row j = f j (s.row j)) ∧
    (∀ n : Nat, n ∉ rows.map s.coreRow → u.core.row n = s.core.row n) ∧
    OnlyHartAndRows s u ∧ HartAfter s u vc 0

/-- What a walk of VDOTV makes of one row from a position on (R283 to R285): a term, then, after every `int` terms while
terms are left, the test with the weight still to come. -/
def walkRow (k : DotWord) (regs : List Nat) (theta : FVal) (int : Nat) (c : Core) : Nat → List (BitVec 32) → Row → Row
  | _, [], r => r
  | pos, t :: ts, r =>
    let r := dotTerm k regs t c r
    let r := if int ≠ 0 ∧ (pos + 1) % int = 0 ∧ ts ≠ [] then dotTest k regs theta (weightOf ts) c r else r
    walkRow k regs theta int c (pos + 1) ts r

/-- The registers that an instruction with these sources names, and how R74 sees the sources. -/
def regsOf (d : Reg) (s : State) (srcs : List Src) : List Nat := d.toNat :: s.copyReg ++ srcs.map (·.reg)
def kindsOf (srcs : List Src) : List (Nat × AbnKind) := srcs.map fun x => (x.reg, x.kind)

end Sys2Proof.Machine
end

