-- ==== Sys2Proof/WellFormed.lean ====
section
/-! DEFINITION. Which constructors with which operands are instructions that the spec gives a meaning to: a word of the
opcode table, in no illegal form (R144), with its reserved fields and reserved codes as the spec asks (R141, R142). -/

namespace Sys2Proof

/-- A well-formed instruction word. -/
def Instr.wf (i : Instr) : Bool := i.isWord && !i.illForm && !i.rsvForm

end Sys2Proof
end

