-- ==== Sys2Proof/Certificates/Slice0/Obligations.lean ====
section
/-! DEFINITION. The statements for the provers, in the order of the spec's instruction groups, then the steps of engines
and of the outside. -/

open Sys2Proof Sys2Proof.Machine

/-- R329, R330, R331, R3, R138: an instruction of majors 0x01 to 0x03 writes this function of x[a] and x[b] to x[d]
and goes on at the next word; a write of x0 is discarded. R333: major 0x08 writes 1 to x[d] where the comparison of
x[a] with the 13-bit immediate holds, else 0. R334: shifts by a constant, and the bit-field forms where P + L is at
most 64; a form with P + L > 64 is ILLOP. -/
def Obligations.ScalarArithmeticResults : Prop :=
  -- scalar register forms
  (∀ (s : State) (d a b : Reg), s.pfx = none →
     ∀ p ∈ ([(.add d a b, fun A B => A + B), (.sub d a b, fun A B => A - B), (.and d a b, fun A B => A &&& B),
         (.or d a b, fun A B => A ||| B), (.xor d a b, fun A B => A ^^^ B), (.andn d a b, fun A B => A &&& ~~~B),
         (.slt d a b, fun A B => if A.toInt < B.toInt then 1 else 0),
         (.sltu d a b, fun A B => if A.toNat < B.toNat then 1 else 0),
         (.seq d a b, fun A B => if A = B then 1 else 0), (.sne d a b, fun A B => if A ≠ B then 1 else 0),
         (.min d a b, fun A B => if A.toInt ≤ B.toInt then A else B),
         (.max d a b, fun A B => if A.toInt ≤ B.toInt then B else A),
         (.minu d a b, fun A B => if A.toNat ≤ B.toNat then A else B),
         (.maxu d a b, fun A B => if A.toNat ≤ B.toNat then B else A),
         (.sll d a b, fun A B => A <<< (B.toNat % 64)), (.srl d a b, fun A B => A >>> (B.toNat % 64)),
         (.sra d a b, fun A B => A.sshiftRight (B.toNat % 64)), (.rol d a b, fun A B => A.rotateLeft (B.toNat % 64)),
         (.ror d a b, fun A B => A.rotateRight (B.toNat % 64)),
         (.mul d a b, fun A B => BitVec.ofNat 64 (A.toNat * B.toNat)),
         (.mulh d a b, fun A B => BitVec.ofInt 64 (A.toInt * B.toInt / 2 ^ 64)),
         (.mulhu d a b, fun A B => BitVec.ofNat 64 (A.toNat * B.toNat / 2 ^ 64)),
         (.div d a b, fun A B => if B = 0 then BitVec.allOnes 64 else BitVec.ofInt 64 (A.toInt.tdiv B.toInt)),
         (.divu d a b, fun A B => if B = 0 then BitVec.allOnes 64 else BitVec.ofNat 64 (A.toNat / B.toNat)),
         (.rem d a b, fun A B => if B = 0 then A else BitVec.ofInt 64 (A.toInt.tmod B.toInt)),
         (.remu d a b, fun A B => if B = 0 then A else BitVec.ofNat 64 (A.toNat % B.toNat))] :
         List (Instr × (Word → Word → Word))),
       exec p.1 s = .next (s.setX d (p.2 (s.getX a) (s.getX b))).retire) ∧
  -- scalar immediate compares
  (∀ (s : State) (d a : Reg) (i : BitVec 13), s.pfx = none →
     ∀ p ∈ ([(.seqi d a i, fun A => if A = i.signExtend 64 then 1 else 0),
         (.snei d a i, fun A => if A ≠ i.signExtend 64 then 1 else 0),
         (.slti d a i, fun A => if A.toInt < i.toInt then 1 else 0),
         (.sgei d a i, fun A => if i.toInt ≤ A.toInt then 1 else 0),
         (.sltui d a i, fun A => if A.toNat < (i.signExtend 64).toNat then 1 else 0),
         (.sgeui d a i, fun A => if (i.signExtend 64).toNat ≤ A.toNat then 1 else 0)] : List (Instr × (Word → Word))),
       exec p.1 s = .next (s.setX d (p.2 (s.getX a))).retire) ∧
  -- shift and field forms
  (∀ (s : State) (d a : Reg) (n p l : BitVec 6), s.pfx = none →
     exec (.slli d a n) s = .next (s.setX d (s.getX a <<< n.toNat)).retire ∧
     exec (.srli d a n) s = .next (s.setX d (s.getX a >>> n.toNat)).retire ∧
     exec (.srai d a n) s = .next (s.setX d ((s.getX a).sshiftRight n.toNat)).retire ∧
     exec (.rori d a n) s = .next (s.setX d ((s.getX a).rotateRight n.toNat)).retire ∧
     (p.toNat + (l.toNat + 1) ≤ 64 →
       (∃ v : Word, exec (.bext d a p l) s = .next (s.setX d v).retire ∧
         ∀ i : Nat, i < 64 → v.getLsbD i = (s.getX a).getLsbD (p.toNat + min i l.toNat)) ∧
       (∃ v : Word, exec (.bextu d a p l) s = .next (s.setX d v).retire ∧
         ∀ i : Nat, i < 64 → v.getLsbD i = (decide (i ≤ l.toNat) && (s.getX a).getLsbD (p.toNat + i))) ∧
       (∃ v : Word, exec (.bins d a p l) s = .next (s.setX d v).retire ∧
         ∀ i : Nat, i < 64 → v.getLsbD i =
           (if p.toNat ≤ i ∧ i ≤ p.toNat + l.toNat then (s.getX a).getLsbD (i - p.toNat) else (s.getX d).getLsbD i))) ∧
     (64 < p.toNat + (l.toNat + 1) →
       Traps (.bext d a p l) s { cause := 0x01 } ∧ Traps (.bextu d a p l) s { cause := 0x01 } ∧
       Traps (.bins d a p l) s { cause := 0x01 }))

/-- R332, R335: ADDI adds its immediate with its sign extended, ANDI, ORI and XORI take it with zeros, and the result
is written to x[d]; LUI writes the immediate times 65 536, and AUIPC adds the instruction's own address to that. The
words that the rules write out are these instructions, and the rule's address pair at 0x2000 gives 0x22000 and then
0x1A000. -/
def Obligations.ImmediateArithmetic : Prop :=
  (∀ (s : State) (d a : Reg) (imm : BitVec 16), s.pfx = none →
    exec (.addi d a imm) s = .next (s.setX d (s.getX a + imm.signExtend 64)).retire ∧
    exec (.andi d a imm) s = .next (s.setX d (s.getX a &&& imm.setWidth 64)).retire ∧
    exec (.ori d a imm) s = .next (s.setX d (s.getX a ||| imm.setWidth 64)).retire ∧
    exec (.xori d a imm) s = .next (s.setX d (s.getX a ^^^ imm.setWidth 64)).retire) ∧
  (∀ (s : State) (d : Reg) (imm : BitVec 21), s.pfx = none →
    exec (.lui d imm) s = .next (s.setX d (BitVec.ofInt 64 (imm.toInt * 65536))).retire ∧
    exec (.auipc d imm) s = .next (s.setX d (s.pc + BitVec.ofInt 64 (imm.toInt * 65536))).retire) ∧
  (∀ (s : State) (h : Fin 8), s.cur.who = .hart h → s.pfx = none → s.pc = 0x2000 →
    exec (.auipc 5 2) s = .next (s.setX 5 0x22000).retire ∧
    (s.getX 5 = 0x22000 → exec (.addi 5 5 0x8000) s = .next (s.setX 5 0x1A000).retire)) ∧
  decode 0x1020FFFF = .ok (.addi 1 0 0xFFFF) ∧ decode 0x10000000 = .ok (.addi 0 0 0) ∧
  decode 0x2CA00002 = .ok (.auipc 5 2) ∧ decode 0x10A58000 = .ok (.addi 5 5 0x8000)

/-- R3: x0 reads as zero and a write to it is discarded; a write of any other register is read back, and leaves the
others. R138, R149: a completed instruction of a hart that is not single-stepped moves the program counter to the next
word and ends the pending prefix and the wait; every other field of the machine stays. R328: no instruction of majors
0x01 to 0x13 accepts a prefix: PFXBAD. One of each shape. -/
def Obligations.ScalarRegistersAndRetirement : Prop :=
  -- scalar register file
  (∀ (t : Thread) (r q : Reg) (v : Word),
     t.get 0 = 0 ∧ t.set 0 v = t ∧ (r ≠ 0 → (t.set r v).get r = v) ∧ (q ≠ r → (t.set r v).get q = t.get q) ∧
     (t.set r v).pc = t.pc ∧ (t.set r v).frm = t.frm ∧ (t.set r v).fflags = t.fflags) ∧
  -- retire frame
  (∀ (s : State) (h : Fin 8), s.cur.who = .hart h → s.stepping = false →
     s.retire = { s with
       epoch := s.epoch + 1
       cores := s.cores.set s.cur.core { s.core with
         harts := s.core.harts.set h { s.core.harts[h] with
           th := { s.core.harts[h].th with pc := s.core.harts[h].th.pc + 4 }
           pfx := none, wait := .none, sleep := none, waitStart := none } } }) ∧
  -- scalar after prefix
  (∀ (s : State) (d a b : Reg) (w : BitVec 32), s.pfx = some w →
     ∀ i ∈ ([.add d a b, .mul d a b, .addi d a 0, .slli d a 0, .lui d 0, .beq a b 0, .jal d 0, .jalr d a 0,
         .ldN64 d b 0 0, .stN64 d b 0 0, .amoadd d a b 0 0 0] : List Instr),
       Traps i s { cause := 0x03 })

/-- R336, R140: a compare and branch goes to PC + 4 × offset where its condition holds, else to the next word. R338,
R339: JAL and JALR write the address of the next word to x[d]; JALR takes its target from the old x[a]. R337: a branch
on mask looks at every row below VL; m0 holds in all of them. It needs no failing check column. R340: SMBS writes one
of the hart's stride registers and nothing else. -/
def Obligations.BranchesAndJumps : Prop :=
  -- compare and branch
  (∀ (s : State) (a b : Reg) (off : BitVec 13), s.pfx = none →
     ∀ p ∈ ([(.beq a b off, fun A B => decide (A = B)), (.bne a b off, fun A B => decide (A ≠ B)),
         (.blt a b off, fun A B => decide (A.toInt < B.toInt)), (.bge a b off, fun A B => decide (B.toInt ≤ A.toInt)),
         (.bltu a b off, fun A B => decide (A.toNat < B.toNat)),
         (.bgeu a b off, fun A B => decide (B.toNat ≤ A.toNat))] : List (Instr × (Word → Word → Bool))),
       exec p.1 s = .next (s.retireAt
         (if p.2 (s.getX a) (s.getX b) then s.pc + BitVec.ofInt 64 (4 * off.toInt) else s.pc + 4))) ∧
  -- jump and link
  (∀ (s : State) (d a : Reg) (off : BitVec 21) (imm : BitVec 16), s.pfx = none →
     exec (.jal d off) s = .next ((s.setX d (s.pc + 4)).retireAt (s.pc + BitVec.ofInt 64 (4 * off.toInt))) ∧
     exec (.jalr d a imm) s = .next ((s.setX d (s.pc + 4)).retireAt (s.getX a + imm.signExtend 64))) ∧
  -- branch on mask
  (∀ (s : State) (k : BitVec 3) (off : BitVec 13), s.isStream = false → s.pfx = none → s.sound = true →
     let rows := List.range s.hart.vl.toNat
     ∀ p ∈ ([(.bmany k off, rows.any (s.maskBit k.toNat)), (.bmnone k off, !rows.any (s.maskBit k.toNat)),
         (.bmall k off, rows.all (s.maskBit k.toNat)), (.bmnall k off, !rows.all (s.maskBit k.toNat))] :
         List (Instr × Bool)),
       exec p.1 s = .next (s.retireAt (if p.2 then s.pc + BitVec.ofInt 64 (4 * off.toInt) else s.pc + 4))) ∧
  -- stride registers
  (∀ (s : State) (f : BitVec 2) (a : Reg) (imm : BitVec 15), s.isStream = false → s.pfx = none →
     exec (.smbsReg f a) s = .next (s.modHart fun h => { h with smbs := h.smbs.set f.toNat (s.getX a) }).retire ∧
     exec (.smbsImm f imm) s =
       .next (s.modHart fun h => { h with smbs := h.smbs.set f.toNat (imm.signExtend 64) }).retire)

/-- R341: SMB takes VL from x[c] (at least to 0), moves each of its n address registers on by VL times its stride, and
branches while x[c] is not zero; every other register, and everything else of the machine, stays. With more than four
address registers, with one beyond x31, or with x[c] among them it is no instruction and raises ILLOP. The word that
the rule writes out is this instruction. -/
def Obligations.StripMineBranch : Prop :=
  (∀ (s : State) (c a : Reg) (n : BitVec 3) (off : BitVec 13), s.isStream = false → s.pfx = none →
    (¬ (4 < n.toNat ∨ (0 < n.toNat ∧ 31 < a.toNat + n.toNat - 1) ∨
        (0 < n.toNat ∧ a.toNat ≤ c.toNat ∧ c.toNat ≤ a.toNat + n.toNat - 1)) →
    ∃ u : State,
      exec (.smb c a n off) s =
        .next (u.retireAt (if u.getX c ≠ 0 then s.pc + BitVec.ofInt 64 (4 * off.toInt) else s.pc + 4)) ∧
      u.getX c = BitVec.ofNat 64 ((s.getX c).toNat - s.hart.vl.toNat) ∧
      (∀ i : Fin 4, i.val < n.toNat → a + BitVec.ofNat 5 i.val ≠ 0 →
        u.getX (a + BitVec.ofNat 5 i.val) =
          s.getX (a + BitVec.ofNat 5 i.val) + BitVec.ofNat 64 s.hart.vl.toNat * s.hart.smbs[i]) ∧
      (∀ r : Reg, r ≠ c → (∀ i : Nat, i < n.toNat → r ≠ a + BitVec.ofNat 5 i) → u.getX r = s.getX r) ∧
      (∃ t : Thread, t.pc = s.pc ∧ t.frm = s.th.frm ∧ t.fflags = s.th.fflags ∧ u = s.modTh fun _ => t)) ∧
    (4 < n.toNat ∨ (0 < n.toNat ∧ 31 < a.toNat + n.toNat - 1) ∨
        (0 < n.toNat ∧ a.toNat ≤ c.toNat ∧ c.toNat ≤ a.toNat + n.toNat - 1) →
      Traps (.smb c a n off) s { cause := 0x01 })) ∧
  decode 0x50CA5FEC = .ok (.smb 6 10 2 0x1FEC)

/-- R168: LD takes n bytes at x[b] + n × fn8, little-endian, and extends them to x[d], with the sign in the signed
forms and with zeros in the others. It leaves memory and every other register as they are. R168: ST stores the low n
bytes of x[d] at x[b] + n × fn8, and every other byte of memory reads as before; no register changes. The memory is in
its canonical form before. R191: a load may find the bytes before the latest few of the party's own stores of other
classes that nothing has ordered, and a store may take its place before such stores; where there is none, a load finds the
memory and a store changes every one of its bytes. R57: an access to register space reads or writes the bytes of
the registers there. R25, R29: a store to part of a sector whose check fails leaves it failing, and Epvimond logs it (log 50).
R169: LDP loads from a parameter window: no window is NOWIN, an access
outside it WINRANGE, and inside it the element at the window's base plus x[b] + n × fn8 is loaded. R40 step 2, R168: a
scalar load or store of a hart at an address that is no multiple of its size raises ALIGN, source 1 for a load and 2 for a
store, with the address in TFADDR. Which stores remain unordered, and that a load may still take the value of a later moment
before the next instructions of its party, is the model's bookkeeping (log 93). -/
def Obligations.ScalarMemory : Prop :=
  -- scalar loads
  (∀ (s : State) (d b : Reg) (c : BitVec 4) (f : BitVec 8) (x : Xlat), s.pfx = none →
     ∀ p ∈ scalarLoads d b c f,
       s.reach (scalarAcc s .load p.2.2) (s.getX b + BitVec.ofInt 64 (f.toInt * p.2.2)).toNat = some x →
       s.lateWalk [(s.getX b + BitVec.ofInt 64 (f.toInt * p.2.2)).toNat] = none →
       s.goodData x.pa p.2.2 = true → s.notCached x = true →
       ∃ (u : State) (v : Nat), OnlyTraces s u ∧ s.mayFind { oc := c } x.pa p.2.2 v ∧
         exec p.1 s = .next (u.setX d (extended p.2.1 p.2.2 v)).retire) ∧
  -- scalar stores
  (∀ (s : State) (d b : Reg) (c : BitVec 4) (f : BitVec 8) (x : Xlat), s.pfx = none → Memory.wf s.mem = true →
     ∀ p ∈ scalarStores d b c f,
       s.reach (scalarAcc s .store p.2) (s.getX b + BitVec.ofInt 64 (f.toInt * p.2)).toNat = some x →
       s.lateWalk [(s.getX b + BitVec.ofInt 64 (f.toInt * p.2)).toNat] = none →
       regionOf x.pa ≠ .regs →
       ∃ u : State, exec p.1 s = .next u.retire ∧ OnlyStore s u ∧
         StoredInClass s u { oc := c } x.pa p.2 (s.getX d).toNat ∧ (s.core.sendsGood = true → u.bad = s.bad) ∧
         (regionOf x.pa = .hbm → s.unorderedPast { oc := c } x.pa p.2 = [] →
           if s.sectorBad x.pa then u.log = (s.logEvent 1 0 (x.pa / 64 * 64) none 1 0).log else u.log = s.log)) ∧
  -- scalar accesses to register space
  (∀ (s : State) (d b : Reg) (c : BitVec 4) (f : BitVec 8) (x : Xlat), s.pfx = none → regionOf x.pa = .regs →
     (∀ p ∈ scalarLoads d b c f,
       s.reach (scalarAcc s .load p.2.2) (s.getX b + BitVec.ofInt 64 (f.toInt * p.2.2)).toNat = some x →
       s.lateWalk [(s.getX b + BitVec.ofInt 64 (f.toInt * p.2.2)).toNat] = none →
       ∃ t u : State, OnlyTraces s t ∧
         let r := t.regReadPart deviceRequester (x.pa - 0x10000000000) p.2.2
         OnlyTraces r.2 u ∧ exec p.1 s = .next (u.setX d (extended p.2.1 p.2.2 r.1)).retire) ∧
     (∀ p ∈ scalarStores d b c f,
       s.reach (scalarAcc s .store p.2) (s.getX b + BitVec.ofInt 64 (f.toInt * p.2)).toNat = some x →
       s.lateWalk [(s.getX b + BitVec.ofInt 64 (f.toInt * p.2)).toNat] = none →
       ∃ t : State, OnlyTraces s t ∧ exec p.1 s =
         .next (t.regWritePart deviceRequester (x.pa - 0x10000000000) p.2 ((s.getX d).toNat % 2 ^ (8 * p.2))).retire)) ∧
  -- accesses in the order of the program
  (∀ (s u : State) (r : Role) (pa n v : Nat), s.unorderedPast r pa n = [] →
     (s.mayFind r pa n v ↔ v = readLE s.mem pa n) ∧ (StoredInClass s u r pa n v → StoredLE s u pa n v)) ∧
  -- parameter loads
  (∀ (s : State) (d b : Reg) (w : BitVec 2) (f : BitVec 8) (x : Xlat), s.pfx = none →
     ∀ p ∈ ([(.ldpN8 d b w f, false, 1), (.ldpN16 d b w f, false, 2), (.ldpN32 d b w f, false, 4),
         (.ldpN64 d b w f, false, 8), (.ldpI8 d b w f, true, 1), (.ldpI16 d b w f, true, 2), (.ldpI32 d b w f, true, 4),
         (.ldpI64 d b w f, true, 8)] : List (Instr × Bool × Nat)),
       let win := s.core.wins[w.toNat]
       let off := (s.getX b + BitVec.ofInt 64 (f.toInt * p.2.2)).toInt
       (win.size = 0 → Traps p.1 s { cause := 0x11 }) ∧
       (win.size ≠ 0 → (off < 0 ∨ (win.size.toNat : Int) < off + p.2.2) → Traps p.1 s { cause := 0x12 }) ∧
       (win.size ≠ 0 → 0 ≤ off → off + p.2.2 ≤ win.size.toNat → off % p.2.2 = 0 →
         s.reach (scalarAcc s .load p.2.2) (win.base + BitVec.ofInt 64 off).toNat = some x →
         s.lateWalk [(win.base + BitVec.ofInt 64 off).toNat] = none →
         s.goodData x.pa p.2.2 = true → s.notCached x = true →
         ∃ (u : State) (v : Nat), OnlyTraces s u ∧ s.mayFind { oc := 0 } x.pa p.2.2 v ∧
           exec p.1 s = .next (u.setX d (extended p.2.1 p.2.2 v)).retire)) ∧
  -- misaligned scalar access
  (∀ (s : State) (d b : Reg) (c : BitVec 4) (f : BitVec 8), s.isStream = false → s.pfx = none →
     ∀ p ∈ ([(.ldN16 d b c f, 2, 0x69), (.ldN32 d b c f, 4, 0x69), (.ldN64 d b c f, 8, 0x69), (.ldI16 d b c f, 2, 0x69),
         (.ldI32 d b c f, 4, 0x69), (.ldI64 d b c f, 8, 0x69), (.stN16 d b c f, 2, 0x6A), (.stN32 d b c f, 4, 0x6A),
         (.stN64 d b c f, 8, 0x6A)] : List (Instr × Nat × BitVec 8)),
       let va := s.getX b + BitVec.ofInt 64 (f.toInt * p.2.1)
       va.toNat < 2 ^ 56 → va.toNat % p.2.1 ≠ 0 → s.lateWalk [va.toNat] = none →
       Traps p.1 s { cause := p.2.2, faddr := va })

/-- R171: an atomic of 4 or 8 bytes returns the old value to x[d] and stores the new one at the same address; AMOCAS
stores only when the old value equals the old x[d]. R52: an acquire, of an atomic or of a FENCE, empties the scalar data
cache. R166, R171: the earlier accesses of the party are ordered before what follows an atomic with acquire or release
ordering; R172, R191: a FENCE orders the stores and the loads of the classes of its mask before the accesses of these
classes; R207: a release at pod scope reads zero length at every other
port that the party has posted writes through. FENCE changes nothing else. R21: pod scope with PODID unset is PRIV. R173: a
PREF changes no register, and without PGIN nothing at all but cached copies; a target 0 or 1 brings the sector to the die
cache, 0 at high priority. R49: a hit renews its line and may raise its priority; a miss allocates, and in a full set of
16 the least recently used low-priority line gives way, or the least recently used one where all are high. How unordered
accesses are kept, which set a sector has and the cycle in which an atomic reaches its unit are the model's (log 90, log 93,
log 104). -/
def Obligations.AtomicsAndFences : Prop :=
  -- atomics
  (∀ (s : State) (d a b : Reg) (z : BitVec 1) (o : BitVec 2) (q : BitVec 4) (x : Xlat), s.pfx = none →
     Memory.wf s.mem = true → amoReserved o q = false → (o ≠ 0 → q = 5 → bitOf s.podid.toNat 8 = true) →
     let n := if z = 0 then 4 else 8
     s.reach { kind := .atomic, source := s.source 2, align := n } (s.getX a).toNat = some x →
     s.lateWalk [(s.getX a).toNat] = none → s.goodData x.pa n = true →
     let r := if 2 ≤ o.toNat ∧ q = 5 then s.podRelease (portOf x.pa) else s
     let old := readLE s.mem x.pa n
     let B := (s.getX b).toNat % 2 ^ (8 * n)
     let lt := fun (p r : Nat) => (BitVec.ofNat (8 * n) p).toInt < (BitVec.ofNat (8 * n) r).toInt
     ∀ p ∈ ([(.amoadd d a b z o q, false, (old + B) % 2 ^ (8 * n)), (.amoand d a b z o q, false, old &&& B),
         (.amoor d a b z o q, false, old ||| B), (.amoxor d a b z o q, false, old ^^^ B),
         (.amominI d a b z o q, true, if lt B old then B else old),
         (.amomaxI d a b z o q, true, if lt old B then B else old),
         (.amominN d a b z o q, false, min old B), (.amomaxN d a b z o q, false, max old B),
         (.amoswap d a b z o q, false, B),
         (.amocas d a b z o q, false, if old = (s.getX d).toNat % 2 ^ (8 * n) then B else old)] : List (Instr × Bool × Nat)),
       ∃ u : State, OnlyStore (r.reachUnit r.ownPlace) u ∧ StoredLE s u x.pa n p.2.2 ∧ (o ≠ 0 → u.ordered) ∧
         (o = 1 ∨ o = 3 → u.acquired) ∧
         exec p.1 s = .next (u.setX d
           (if p.2.1 ∧ z = 0 then (BitVec.ofNat 32 old).signExtend 64 else BitVec.ofNat 64 old)).retire) ∧
  -- fence and prefetch
  (∀ (s : State) (k : BitVec 2) (sf : BitVec 3) (m : BitVec 16) (p : BitVec 1) (t w : BitVec 2) (b : Reg) (f : BitVec 8),
     s.pfx = none →
     (m ≠ 0 → scopeReserved sf = false →
       (sf = 5 → bitOf s.podid.toNat 8 = false → Traps (.fence k sf m) s { cause := 0x04 }) ∧
       ((sf = 5 → bitOf s.podid.toNat 8 = true) → Retires (.fence k sf m) s fun u =>
         (if 2 ≤ k.toNat ∧ sf = 5 then
            u.out = s.out ++ (s.core.unflushed.filter (·.1 == s.cur.who)).map (fun q => Output.flush q.2) ∧
            u.core.unflushed = s.core.unflushed.filter (·.1 != s.cur.who)
          else u.out = s.out ∧ u.core.unflushed = s.core.unflushed) ∧
         u.core.sdc = (if k = 1 ∨ k = 3 then [] else s.core.sdc) ∧
         (∀ q ∈ u.core.past, q.who = s.cur.who → q.done &&& m ≠ 0 → q.unordered &&& m = 0) ∧
         (∀ l ∈ u.core.lates, l.who = s.cur.who → m.getLsbD l.cls.toNat = true → m &&& ~~~l.behind = 0) ∧
         (∀ q ∈ s.core.past, q.who ≠ s.cur.who → q ∈ u.core.past ∨ q.unordered = 0) ∧
         u = { s with
           out := u.out
           cores := s.cores.set s.cur.core { s.core with
             sdc := u.core.sdc, past := u.core.past, lates := u.core.lates, unflushed := u.core.unflushed } })) ∧
     (t ≠ 3 → s.lateWalk [scalarAddr (s.getX b) f (2 ^ w.toNat)] = none →
       Retires (.pref p t b w f) s fun u => u.th = s.th ∧ u.hart = s.hart ∧ (p = 0 → OnlyTraces s u) ∧
         ∀ x : Xlat, p = 0 → t ≠ 2 →
           s.reach { kind := .load, source := 1 } (scalarAddr (s.getX b) f (2 ^ w.toNat)) = some x →
           regionOf x.pa = .hbm → s.sectorBad x.pa = false →
           ∃ (l : DieLine) (rest : List DieLine), u.dies[dieIx (x.pa / 0x2000000000)].dcache = l :: rest ∧
             l.sector = x.pa / 64 ∧ (t = 0 → l.high = true))) ∧
  -- die cache lines
  (∀ (d : Die) (k : Nat) (use : CacheUse),
     let set := d.dcache.filter fun l => l.sector % 32768 == k % 32768
     let lines := (d.touchLine use k).dcache
     (d.touchLine use k = { d with dcache := lines }) ∧ (use = .none → lines = d.dcache) ∧
     (use ≠ .none →
       (∀ l : DieLine, d.dcache.find? (·.sector == k) = some l →
         lines = { l with high := l.high || use == .high } :: d.dcache.erase l) ∧
       (d.dcache.find? (·.sector == k) = none →
         (set.length < 16 → lines = { sector := k, high := use == .high } :: d.dcache) ∧
         (16 ≤ set.length → ∃ v ∈ set, lines = { sector := k, high := use == .high } :: d.dcache.erase v ∧
           (v.high = true → ∀ l ∈ set, l.high = true) ∧
           (set.filter fun l => l.high == v.high).getLast? = some v)))) ∧
  -- a release at pod scope
  (∀ (s : State) (own : Option Nat),
     let ports := (s.core.unflushed.filter fun q => q.1 == s.cur.who && some q.2 != own).map (·.2)
     (s.podRelease own).out = s.out ++ ports.map Output.flush ∧
     (s.podRelease own).core.unflushed = s.core.unflushed.filter fun q => !(q.1 == s.cur.who && ports.contains q.2))

/-- R214 to R216: PCMP combines T with the match of the row, PWR writes the pattern where T (or in all rows), PCW does
one after the other. A descriptor that R212 refuses raises PDESC. R217, R218: PCOL copies or inverts one column or
latch into another; PTAG computes a latch from two. R219: PSHIFT gives each pass row the bit of the row 2^j away
inside the hart's rows, or the fill bit beyond them. -/
def Obligations.AssociativePassResults : Prop :=
  -- associative passes
  (∀ (s : State) (k m c : Reg) (t : BitVec 2) (l : BitVec 1),
     let d := passDesc (s.getX c)
     let key := s.getX k
     let msk := s.getX m
     let pat := s.getX (k + 1)
     let wm := s.getX (m + 1)
     let sense := (d.colBits msk).map d.colOf
     let write := (d.colBits wm).map d.colOf
     (d.bad = true → passLegal.cause s = none →
       Traps (.pcmp k m c t) s { cause := 0x07 } ∧ Traps (.pwr k m c l) s { cause := 0x07 } ∧
       (k ≠ 31 → m ≠ 31 → Traps (.pcw k m c t) s { cause := 0x07 })) ∧
     (d.bad = false →
       (s.vecReady passLegal (s.core.regsOfCols sense) [] = true →
         PassRows (.pcmp k m c t) s s.dueRows (fun _ r => { r with t := combineTag r.t (d.matches r key msk) t }) s.hart.vc) ∧
       (s.vecReady passLegal (s.core.regsOfCols ((d.colBits msk).map d.colOf)) [] = true →
         PassRows (.pwr k m c l) s s.dueRows (fun _ r => if l = 1 ∨ r.t = true then d.write r key msk else r)
           (s.passVc sense).hart.vc) ∧
       (k ≠ 31 → m ≠ 31 → s.vecReady passLegal (s.core.regsOfCols (sense ++ write)) [] = true →
         PassRows (.pcw k m c t) s s.dueRows
           (fun _ r =>
             let tag := combineTag r.t (d.matches r key msk) t
             if tag then d.write { r with t := tag } pat wm else { r with t := tag })
           (s.passVc write).hart.vc))) ∧
  -- column and tag passes
  (∀ (s : State) (d f : BitVec 11) (imm : BitVec 1) (td ts : BitVec 2) (fn : BitVec 3),
     let dst := selectorOf d
     let src := selectorOf f
     ((dst = .nothing ∨ src = .nothing) → passLegal.cause s = none → Traps (.pcol d f imm) s { cause := 0x07 }) ∧
     (dst ≠ .nothing → src ≠ .nothing → s.vecReady passLegal (s.core.regsOfCols (src.cols ++ dst.cols)) [] = true →
       PassRows (.pcol d f imm) s s.dueRows (fun _ r => r.setSel dst (if imm = 1 then !r.sel src else r.sel src))
         (s.passVc dst.cols).hart.vc) ∧
     (s.vecReady { pred := true, rsv := 6 ≤ fn.toNat && ts != 0 } [] [] = true →
       PassRows (.ptag td ts fn) s s.dueRows
         (fun _ r => r.setLat td.toNat (
           let D := r.lat td.toNat
           let S := r.lat ts.toNat
           match fn.toNat with
           | 0 => S | 1 => D && S | 2 => D || S | 3 => D ^^ S | 4 => D && !S | 5 => !S | 6 => false | _ => true))
         s.hart.vc)) ∧
  -- shift pass
  (∀ (s : State) (r : BitVec 1) (j : Reg) (f : BitVec 1) (sf : BitVec 11),
     let sel := selectorOf sf
     sel ≠ .nothing → sel ≠ .lat 1 → sel ≠ .lat 2 → sel ≠ .lat 3 → j.toNat ≤ 16 →
     s.vecReady passLegal (s.core.regsOfCols (sel.cols ++ sel.cols)) [] = true →
     PassRows (.pshift r j f sf) s s.dueRows
       (fun i q => q.setSel sel (
         if r = 1 then (if i + 2 ^ j.toNat < s.core.vlmax then (s.row (i + 2 ^ j.toNat)).sel sel else f == 1)
         else (if 2 ^ j.toNat ≤ i then (s.row (i - 2 ^ j.toNat)).sel sel else f == 1)))
       (s.passVc sel.cols).hart.vc)

/-- R220: PCNT, PANY and PFF sense one bit of the pass rows and write their number, whether there is one, or the
lowest such row (all ones where there is none) to x[d]; no row changes. -/
def Obligations.SensePassResults : Prop :=
  ∀ (s : State) (d : Reg) (sf : BitVec 11),
    let sel := selectorOf sf
    let hit := s.passRows.filter fun i => (s.row i).sel sel
    sel ≠ .nothing → s.vecReady passLegal (s.core.regsOfCols sel.cols) [] = true →
    ∀ p ∈ ([(.pcnt d sf, BitVec.ofNat 64 hit.length), (.pany d sf, if hit = [] then 0 else 1),
        (.pff d sf, if hit = [] then BitVec.allOnes 64 else BitVec.ofNat 64 (hit.headD 0))] : List (Instr × Word)),
      Retires p.1 s fun u => HartWrites s u d p.2 0 ∧ OnlyHartAndRows s u ∧ ∀ n : Nat, u.core.row n = s.core.row n

/-- R240: a result narrowed to w bits is the exact integer modulo 2^w, or, with saturation, the exact integer brought
into the range of the type. R240 to R242: the two-operand integer instructions compute, in every row performed, this
function of element j of va and of element j of vb or of x[vb]. R243, R244: VMACC adds the product to the old element
of vd; the shifts take their count from x[vb], and a count of the width or more leaves only the fill. R245: VCMP
writes the truth of its comparison to the mask register in every row performed. -/
def Obligations.VectorIntegerResults : Prop :=
  -- narrowing rule
  (∀ (e : BitVec 4) (v : Int), typeInt e = true →
     let w := typeWidth e
     let lo : Int := if e.toNat ≤ 5 then -(2 ^ (w - 1)) else 0
     let hi : Int := if e.toNat ≤ 5 then 2 ^ (w - 1) - 1 else 2 ^ w - 1
     (narrow false e v : Int) = v.emod (2 ^ w) ∧
     elemInt e (narrow true e v) = min (max v lo) hi) ∧
  -- vector integer forms
  (∀ (s : State) (d a b : Reg) (e : BitVec 4) (x sf : BitVec 1),
     let w := typeWidth e
     let I := elemInt e
     let srcs := srcs2 x a b e
     let wx := if x = 1 then w else 0
     ∀ p ∈ ([(.vadd d a b e x sf, wx, fun A B => narrow (sf == 1) e (I A + I B)),
         (.vsub d a b e x sf, if d = b ∧ a ≠ b then w else wx, fun A B => narrow (sf == 1) e (I A - I B)),
         (.vrsub d a b e x sf, if d = a ∧ a ≠ b then w else wx, fun A B => narrow (sf == 1) e (I B - I A)),
         (.vand d a b e x, wx, fun A B => A &&& B), (.vor d a b e x, wx, fun A B => A ||| B),
         (.vxor d a b e x, wx, fun A B => A ^^^ B),
         (.vmin d a b e x, wx, fun A B => if I A ≤ I B then A else B),
         (.vmax d a b e x, wx, fun A B => if I A ≤ I B then B else A),
         (.vmul d a b e x, if x = 1 then 2 * w else w, fun A B => A * B % 2 ^ w)] :
         List (Instr × Nat × (Nat → Nat → Nat))),
       s.vecReady (vecLegal d w srcs p.2.1 (typeInt e)) (regsOf d s srcs) (kindsOf srcs) = true →
       WritesElements p.1 s s.dueRows d.toNat w p.2.1
         (fun j => p.2.2 (s.elem a.toNat w j) (if x = 1 then (s.getX b).toNat % 2 ^ w else s.elem b.toNat w j))
         (s.vcOrdinary d.toNat) 0) ∧
  -- vector accumulate and shift
  (∀ (s : State) (d a b : Reg) (e : BitVec 4) (x : BitVec 1),
     let w := typeWidth e
     (let srcs := src d e :: srcs2 x a b e
      let wk := if x = 1 then 2 * w else w
      s.vecReady (vecLegal d w srcs wk (typeInt e)) (regsOf d s srcs) (kindsOf srcs) = true →
      WritesElements (.vmacc d a b e x) s s.dueRows d.toNat w wk
        (fun j => (s.elem d.toNat w j +
          s.elem a.toNat w j * (if x = 1 then (s.getX b).toNat % 2 ^ w else s.elem b.toNat w j)) % 2 ^ w)
        (s.vcOrdinary d.toNat) 0) ∧
     (s.vecReady (vecLegal d w [src a e] 0 (typeInt e)) (regsOf d s [src a e]) (kindsOf [src a e]) = true →
      let n := (s.getX b).toNat
      ∀ p ∈ ([(.vsll d a b e, fun A => A * 2 ^ n % 2 ^ w), (.vsrl d a b e, fun A => A / 2 ^ n),
          (.vsra d a b e, fun A => ((BitVec.ofNat w A).sshiftRight n).toNat)] : List (Instr × (Nat → Nat))),
        WritesElements p.1 s s.dueRows d.toNat w 0 (fun j => p.2 (s.elem a.toNat w j)) (s.vcOrdinary d.toNat) 0)) ∧
  -- vector integer compares
  (∀ (s : State) (k : BitVec 3) (a b : Reg) (e : BitVec 4) (x : BitVec 1),
     let w := typeWidth e
     let srcs := srcs2 x a b e
     let wk := if x = 1 then w else 0
     s.vecReady (maskLegal srcs wk (typeInt e)) (srcs.map (·.reg)) (kindsOf srcs) = true →
     ∀ p ∈ ([(.vcmpEq k a b e x, fun A B => decide (A = B)), (.vcmpNe k a b e x, fun A B => decide (A ≠ B)),
         (.vcmpLt k a b e x, fun A B => decide (A < B)), (.vcmpLe k a b e x, fun A B => decide (A ≤ B)),
         (.vcmpGt k a b e x, fun A B => decide (B < A)), (.vcmpGe k a b e x, fun A B => decide (B ≤ A))] :
         List (Instr × (Int → Int → Bool))),
       WritesMask p.1 s k wk (fun j => p.2 (elemInt e (s.elem a.toNat w j))
         (elemInt e (if x = 1 then (s.getX b).toNat % 2 ^ w else s.elem b.toNat w j))) 0)

/-- R246, R248: the floating additions, multiplications, multiply-adds, minimum and maximum, in the rounding mode of
the instruction, with the flags of every row performed. R246, R247: VFNEG flips the sign bit and VFABS clears it, with
no flag; the floating compares write a mask. -/
def Obligations.VectorFloatResults : Prop :=
  -- vector float forms
  (∀ (s : State) (d a b : Reg) (e : BitVec 4) (r : BitVec 3),
     let w := typeWidth e
     let t := fmtOf e
     let m := s.mode r
     let two := [src a e, src b e]
     let D := fun j => s.elem d.toNat w j
     let A := fun j => s.elem a.toNat w j
     let B := fun j => s.elem b.toNat w j
     let X := (s.getX b).toNat % 2 ^ w
     let pick := fun (small big : Nat) => if e = 14 then big else small
     ∀ p ∈ ([(.vfadd d a b e r, two, pick 32 64, r, fun j => t.add m (A j) (B j)),
         (.vfsub d a b e r, two, pick 32 64, r, fun j => t.add m (A j) (t.negate (B j))),
         (.vfmul d a b e r, two, pick 48 96, r, fun j => t.mul m (A j) (B j)),
         (.vfaddX d a b e r, [src a e], pick 32 64, r, fun j => t.add m (A j) X),
         (.vfmulX d a b e r, [src a e], pick 48 96, r, fun j => t.mul m (A j) X),
         (.vfma d a b e r, src d e :: two, pick 64 128, r, fun j => t.fma m (A j) (B j) (D j)),
         (.vfmaX d a b e r, [src d e, src a e], pick 64 128, r, fun j => t.fma m (A j) X (D j)),
         (.vfmin d a b e, two, pick 16 32, 0, fun j => t.minMax false (A j) (B j)),
         (.vfmax d a b e, two, pick 16 32, 0, fun j => t.minMax true (A j) (B j))] :
         List (Instr × List Src × Nat × BitVec 3 × (Nat → Nat × BitVec 5))),
       s.vecReady (floatLegal d e p.2.1 p.2.2.1 p.2.2.2.1) (regsOf d s p.2.1) (kindsOf p.2.1) = true →
       WritesElements p.1 s s.dueRows d.toNat w p.2.2.1 (fun j => (p.2.2.2.2 j).1) (s.vcOrdinary d.toNat)
         (orFlagsOf s.dueRows fun j => (p.2.2.2.2 j).2)) ∧
  -- vector float signs and compares
  (∀ (s : State) (d a b : Reg) (e : BitVec 4) (k : BitVec 3),
     let w := typeWidth e
     (s.vecReady (floatLegal d e [src a e] 0 0) (regsOf d s [src a e]) (kindsOf [src a e]) = true →
       WritesElements (.vfneg d a e) s s.dueRows d.toNat w 0
         (fun j => s.elem a.toNat w j ^^^ 2 ^ (w - 1)) (s.vcOrdinary d.toNat) 0 ∧
       WritesElements (.vfabs d a e) s s.dueRows d.toNat w 0
         (fun j => s.elem a.toNat w j % 2 ^ (w - 1)) (s.vcOrdinary d.toNat) 0) ∧
     (let srcs := [src a e, src b e]
      s.vecReady (maskLegal srcs 0 (typeFloat e)) (srcs.map (·.reg)) (kindsOf srcs) = true →
      ∀ p ∈ ([(.vfcmpEq k a b e, FCond.eq), (.vfcmpLt k a b e, .lt), (.vfcmpLe k a b e, .le)] : List (Instr × FCond)),
        let f := fun j => (fmtOf e).cmp p.2 (s.elem a.toNat w j) (s.elem b.toNat w j)
        WritesMask p.1 s k 0 (fun j => (f j).1) (orFlagsOf s.dueRows fun j => (f j).2)))

/-- R250, R252 to R255: VCVT, VEXP2, VRCP and VRSQRT write the converted or computed element in each row
performed. R251: VQTB writes the codes and the exponent word of each block of 32 rows, and VDQTB the value of a code
under its exponents. What the functions named there, and those of the statement VectorFloatResults, give: R60: a pattern
stands for a signed multiple of a power of two, an infinity or a NaN. R61, R62: Round, with its flags, takes the neighbour
that the mode names, and overflows by R62's table; sums, products, fused products and conversions are Round of the exact
value; an exact zero is +0, or -0 under RDN; an invalid operation and every NaN give the canonical NaN. R66: a conversion to
an integer rounds, clamps and flags. R69: an element is decoded with Round. R70: the exponents, the codes and the flags of an
encoded block. -/
def Obligations.VectorConversionResults : Prop :=
  -- patterns
  (∀ (t : FFmt) (v : Nat),
     let k := v % t.signBit
     let neg := bitOf v (t.width - 1)
     (k < t.inf → ∃ (m : Nat) (e : Int), t.decode v = .fin neg m e ∧ t.qmin ≤ e ∧ m * 2 ^ (e - t.qmin).toNat = t.units k) ∧
     (k = t.inf → t.decode v = .inf neg) ∧ (t.inf < k → t.decode v = .nan (!bitOf v (t.frac - 1)))) ∧
  -- roundings
  (∀ (t : FFmt) (rm : RMode) (neg : Bool) (m : Nat) (e : Int),
     (m ≠ 0 → t.IsRound rm neg m e (t.round rm neg m e)) ∧
     t.round rm neg 0 e = (if neg then t.signBit else 0, 0)) ∧
  -- sums, products, conversions
  (∀ (t : FFmt) (rm : RMode) (a b d : Nat),
     let sum := fun (n1 : Bool) (m1 : Nat) (e1 : Int) (n2 : Bool) (m2 : Nat) (e2 : Int) (r : Nat × BitVec 5) =>
       let e := min e1 e2
       let v := (if n1 then -1 else 1) * (m1 * 2 ^ (e1 - e).toNat : Int) + (if n2 then -1 else 1) * (m2 * 2 ^ (e2 - e).toNat : Int)
       (v ≠ 0 → t.IsRound rm (v < 0) v.natAbs e r) ∧
       (v = 0 → r = (if (if n1 = n2 then n1 else rm = .rdn) then t.signBit else 0, 0))
     let nan := fun (nv : Bool) => (t.nan, if nv then flNV else (0 : BitVec 5))
     let x := t.decode a
     let y := t.decode b
     let z := t.decode d
     -- two operands
     (x.isNan = true ∨ y.isNan = true →
       t.add rm a b = nan (x.signalling || y.signalling) ∧ t.mul rm a b = nan (x.signalling || y.signalling)) ∧
     (∀ n1 m1 e1 n2 m2 e2, x = .fin n1 m1 e1 → y = .fin n2 m2 e2 →
       sum n1 m1 e1 n2 m2 e2 (t.add rm a b) ∧ t.mul rm a b = t.round rm (n1 != n2) (m1 * m2) (e1 + e2)) ∧
     (∀ n1 n2 : Bool, x = .inf n1 → y = .inf n2 →
       t.add rm a b = (if n1 = n2 then (t.infinity n1, 0) else nan true) ∧ t.mul rm a b = (t.infinity (n1 != n2), 0)) ∧
     (∀ n1 n2 m e, (x = .inf n1 ∧ y = .fin n2 m e) ∨ (x = .fin n2 m e ∧ y = .inf n1) →
       t.add rm a b = (t.infinity n1, 0) ∧ t.mul rm a b = (if m = 0 then nan true else (t.infinity (n1 != n2), 0))) ∧
     -- fused products
     (x.isNan = true ∨ y.isNan = true ∨ (z.isNan = true ∧ x.mul y ≠ none) →
       t.fma rm a b d = nan (x.signalling || y.signalling || z.signalling)) ∧
     (∀ n1 n2 m e, (x = .inf n1 ∧ y = .fin n2 m e) ∨ (x = .fin n2 m e ∧ y = .inf n1) → m = 0 → t.fma rm a b d = nan true) ∧
     (∀ n1 m1 e1 n2 m2 e2, x = .fin n1 m1 e1 → y = .fin n2 m2 e2 →
       (∀ n3 m3 e3, z = .fin n3 m3 e3 → sum (n1 != n2) (m1 * m2) (e1 + e2) n3 m3 e3 (t.fma rm a b d)) ∧
       (∀ n3 : Bool, z = .inf n3 → t.fma rm a b d = (t.infinity n3, 0))) ∧
     (∀ n : Bool, x.mul y = some (.inf n) → z.isNan = false →
       t.fma rm a b d = (if z = .inf (!n) then nan true else (t.infinity n, 0))) ∧
     -- conversions
     (∀ src : FFmt,
       (∀ sg : Bool, src.decode a = .nan sg → src.convert t rm a = nan sg) ∧
       (∀ n : Bool, src.decode a = .inf n → src.convert t rm a = (t.infinity n, 0)) ∧
       (∀ n m e, src.decode a = .fin n m e → src.convert t rm a = t.round rm n m e)) ∧
     (∀ v : Int, t.ofInt rm v = t.round rm (v < 0) v.natAbs 0) ∧
     (∀ (sg : Bool) (w : Nat), 0 < w →
       let lo : Int := if sg then -2 ^ (w - 1) else 0
       let hi : Int := if sg then 2 ^ (w - 1) - 1 else 2 ^ w - 1
       (x.isNan = true → t.toInt rm sg w a = (0, flNV)) ∧
       (∀ n : Bool, x = .inf n → t.toInt rm sg w a = (((if n then lo else hi) % 2 ^ w).toNat, flNV)) ∧
       (∀ n m e, x = .fin n m e →
         let v : Int := (if n then -1 else 1) * nearestInt rm n m e
         t.toInt rm sg w a = ((max lo (min hi v) % 2 ^ w).toNat,
           if v < lo ∨ hi < v then flNV else if m * 2 ^ e.toNat % 2 ^ (-e).toNat = 0 then 0 else flNX)))) ∧
  -- converted elements
  (∀ (sf e : BitVec 4) (m : RMode) (v : Nat), sf ≠ 15 → e ≠ 15 →
     let n := elemInt sf v
     convertElem sf e m v =
       if typeInt sf then (if typeInt e then ((n % 2 ^ typeWidth e).toNat, 0) else (fmtOf e).ofInt m n)
       else if typeInt e then (fmtOf sf).toInt m (typeSigned e) (typeWidth e) v
       else (fmtOf sf).convert (fmtOf e) m v) ∧
  -- block elements decoded
  (∀ (t : FFmt) (rm : RMode) (w e0 e1 code : Nat), w = 4 ∨ w = 8 →
     let e := if bitOf code (w - 1) then e1 else e0
     tbDecode t rm w e0 e1 code =
       if e = 255 then (t.nan, 0)
       else if code % 2 ^ (w - 2) = 0 then (0, 0)
       else t.round rm (bitOf code (w - 2)) (code % 2 ^ (w - 2)) (e - 127)) ∧
  -- blocks encoded
  (∀ (w split : Nat) (xs : List FVal), w = 4 ∨ w = 8 → 1 ≤ split → split ≤ 7 →
     (∀ x ∈ xs, x = .fin false 0 0 ∨ ∃ (t : FFmt) (v : Nat), x = t.decode v) →
     let blk := tbEncode w split xs
     let most := 2 ^ (w - 2) - 1
     let q := fun (m : Nat) (e : Int) (ex : Nat) => nearestInt .rne false m (e + 127 - ex)
     let e0 := blk.e1 - split
     let hasnan : Bool := xs.any FVal.isNan
     let low := fun (m : Nat) (e : Int) => hasnan = false ∧ q m e e0 ≤ most
     let ex := fun (m : Nat) (e : Int) => if low m e then e0 else blk.e1
     let exact := fun (m : Nat) (e : Int) =>
       let f := (ex m e : Int) - 127
       let least := min e f
       m * 2 ^ (e - least).toNat = q m e (ex m e) * 2 ^ (f - least).toNat
     blk.e1 ≤ 254 ∧ (∀ n m e, FVal.fin n m e ∈ xs → q m e blk.e1 ≤ most) ∧
     (∀ k : Nat, k < blk.e1 → ∃ n m e, FVal.fin n m e ∈ xs ∧ most < q m e k) ∧
     blk.e0 = (if hasnan then 255 else e0) ∧ blk.codes.length = xs.length ∧
     (∀ k : Nat, k < xs.length →
       (∀ sg : Bool, xs[k]? = some (.nan sg) → blk.codes[k]? = some 0) ∧
       (∀ n : Bool, xs[k]? = some (.inf n) → blk.codes[k]? = some (2 ^ (w - 1) + (if n then 2 ^ (w - 2) else 0) + most)) ∧
       (∀ n m e, xs[k]? = some (.fin n m e) →
         let r := q m e (ex m e)
         blk.codes[k]? = some ((if low m e then 0 else 2 ^ (w - 1)) + (if n = true ∧ r ≠ 0 then 2 ^ (w - 2) else 0) + r))) ∧
     (blk.flags.getLsbD 4 = hasnan) ∧ blk.flags.getLsbD 3 = false ∧
     (blk.flags.getLsbD 2 = true ↔ ∃ n : Bool, FVal.inf n ∈ xs) ∧
     (blk.flags.getLsbD 1 = true ↔ ∃ n m e, FVal.fin n m e ∈ xs ∧ m ≠ 0 ∧ q m e (ex m e) = 0) ∧
     (blk.flags.getLsbD 0 = true ↔ (∃ n : Bool, FVal.inf n ∈ xs) ∨ ∃ n m e, FVal.fin n m e ∈ xs ∧ ¬ exact m e)) ∧
  -- vector conversions
  (∀ (s : State) (d a : Reg) (sf e : BitVec 4) (r : BitVec 3),
     (let ints := typeInt sf && typeInt e
      let wk := if ints then 0 else 64
      s.vecReady { vecLegal d (typeWidth e) [src a sf] wk (e != 15 && sf != 15) with
          rsv := rmReservedFor (!codeNotInteger sf && !codeNotInteger e) r }
        (regsOf d s [src a sf]) (kindsOf [src a sf]) = true →
      let f := fun j => convertElem sf e (s.mode r) (s.elem a.toNat (typeWidth sf) j)
      WritesElements (.vcvt d a sf e r) s s.dueRows d.toNat (typeWidth e) wk (fun j => (f j).1) (s.vcOrdinary d.toNat)
        (orFlagsOf s.dueRows fun j => (f j).2)) ∧
     (let wk := if e = 14 then 128 else 64
      s.vecReady (floatLegal d e [src a e] wk r) (regsOf d s [src a e]) (kindsOf [src a e]) = true →
      ∀ p ∈ ([(.vexp2 d a e r, FFmt.fnExp2), (.vrcp d a e r, FFmt.fnRcp), (.vrsqrt d a e r, FFmt.fnRsqrt)] :
          List (Instr × (FFmt → RMode → Nat → Nat × BitVec 5))),
        let f := fun j => p.2 (fmtOf e) (s.mode r) (s.elem a.toNat (typeWidth e) j)
        WritesElements p.1 s s.dueRows d.toNat (typeWidth e) wk (fun j => (f j).1) (s.vcOrdinary d.toNat)
          (orFlagsOf s.dueRows fun j => (f j).2))) ∧
  -- vector block formats
  (∀ (s : State) (d a b : Reg) (e : BitVec 4) (sf r : BitVec 3),
     (d ≠ b →
       s.vecReady { pred := true, ewOk := typeFloat e, vreads := [a.toNat], vregs := [d.toNat, a.toNat, b.toNat],
                    width := typeWidth e, wk := 64 } [d.toNat, b.toNat, a.toNat] [(a.toNat, abnKind e)] = true →
       ∀ p ∈ ([(.vqtb4 d a b e sf, 4), (.vqtb8 d a b e sf, 8)] : List (Instr × Nat)),
         let blk := fun j => tbEncode p.2 (if sf = 0 then 3 else sf.toNat) (s.blockOf a e j)
         Retires p.1 s fun u =>
           (∀ j ∈ s.dueRows, u.elem d.toNat p.2 j = (blk j).codes.getD (j % 32) 0 % 2 ^ p.2 ∧
             u.elem b.toNat 16 j = ((blk j).e0 + 256 * (blk j).e1) % 2 ^ 16) ∧
           RowsChanged s u s.dueRows (s.regCols d.toNat p.2 ||| s.regCols b.toNat 16) 64 ∧ OnlyHartAndRows s u ∧
           HartAfter s u ((s.destVc d.toNat).destVc b.toNat).hart.vc (orFlagsOf s.dueRows fun j => (blk j).flags)) ∧
     ∀ p ∈ ([(.vdqtb4 d a b e r, 4), (.vdqtb8 d a b e r, 8)] : List (Instr × Nat)),
       let srcs : List Src := [{ reg := a.toNat, width := p.2, kind := .any }, { reg := b.toNat, width := 16, kind := .int 16 }]
       s.vecReady (floatLegal d e srcs 64 r) (regsOf d s srcs) (kindsOf srcs) = true →
       let f := fun j =>
         tbDecode (fmtOf e) (s.mode r) p.2 (s.elem b.toNat 16 j % 256) (s.elem b.toNat 16 j / 256) (s.elem a.toNat p.2 j)
       WritesElements p.1 s s.dueRows d.toNat (typeWidth e) 64 (fun j => (f j).1) (s.vcOrdinary d.toNat)
         (orFlagsOf s.dueRows fun j => (f j).2))

/-- R256, R257, R260: VMV copies elements with their VC bit, VBCX writes x[a], VBCR writes element x[b] of va (0 where
that is VL or more), VIOTA writes x[a] + j. R258, R259: a slide moves elements by x[b] rows and fills with its
identity value beyond the end; VCOMPRESS writes the numbers of the pass rows whose mask bit is 1 to the lowest rows,
where these are pass rows. -/
def Obligations.VectorMovesAndSlides : Prop :=
  -- vector moves
  (∀ (s : State) (d a b : Reg) (e : BitVec 4),
     let w := typeWidth e
     let raw : Src := { reg := a.toNat, width := w, kind := .none }
     (s.vecReady (vecLegal d w [raw] 0 (e != 15)) (regsOf d s [raw]) [] = true →
       WritesElements (.vmv d a e) s s.dueRows d.toNat w 0 (fun j => s.elem a.toNat w j) (s.vcMove d.toNat a.toNat) 0 ∧
       WritesElements (.vbcr d a b e) s s.dueRows d.toNat w 0
         (fun _ => if (s.getX b).toNat < s.hart.vl.toNat then s.elem a.toNat w (s.getX b).toNat else 0)
         (s.vcMove d.toNat a.toNat) 0) ∧
     (s.vecReady (vecLegal d w [] 0 (e != 15)) (regsOf d s []) [] = true →
       WritesElements (.vbcx d a e) s s.dueRows d.toNat w 0 (fun _ => (s.getX a).toNat) (s.vcOrdinary d.toNat) 0) ∧
     (let wk := if s.getX a = 0 then 0 else w
      s.vecReady (vecLegal d w [] wk (typeInt e)) (regsOf d s []) [] = true →
       WritesElements (.viota d a e) s s.dueRows d.toNat w wk (fun j => j + (s.getX a).toNat) (s.vcOrdinary d.toNat) 0)) ∧
  -- vector slides and compress
  (∀ (s : State) (d a b : Reg) (e : BitVec 4) (imm k : BitVec 3),
     let w := typeWidth e
     let raw : Src := { reg := a.toNat, width := w, kind := .none }
     let n := (s.getX b).toNat
     (s.vecReady { vecLegal d w [raw] w (e != 15) with rsv := 5 ≤ imm.toNat } (regsOf d s [raw]) [] = true →
       WritesElements (.vslideup d a b e imm) s s.dueRows d.toNat w w
         (fun j => if n ≤ j then s.elem a.toNat w (j - n) else slideIdent e imm) (s.vcMove d.toNat a.toNat) 0 ∧
       WritesElements (.vslidedn d a b e imm) s s.dueRows d.toNat w w
         (fun j => if j + n < s.hart.vl.toNat then s.elem a.toNat w (j + n) else slideIdent e imm)
         (s.vcMove d.toNat a.toNat) 0) ∧
     (s.vecReady (vecLegal d w [] 0 (decide (9 ≤ e.toNat ∧ e.toNat ≤ 11))) (regsOf d s []) [] = true →
       let l := s.passRows.filter (s.maskBit k.toNat)
       Retires (.vcompress d k e) s fun u =>
         (∀ q : Nat, q < l.length → q ∈ s.dueRows → ∀ r ∈ d.toNat :: s.copyReg, u.elem r w q = l.getD q 0 % 2 ^ w) ∧
         RowsChanged s u s.dueRows (s.destCols d.toNat w) 0 ∧
         (∀ j ∈ s.passRows, l.length ≤ j → ∀ r ∈ d.toNat :: s.copyReg, u.elem r w j = s.elem r w j) ∧
         OnlyHartAndRows s u ∧ HartAfter s u (s.vcOrdinary d.toNat) 0))

/-- R257: VMVXR writes element x[b] of va to x[d], extended with its sign for the signed types and with zeros for the
others; 0 where x[b] is VL or more. Only latches change in the pool. R261 to R263: a reduction gives each segment's
result to the segment's pass rows, or the last segment's to x[d]; a scan gives each pass row the prefix up to it. Rows
outside count as the identity of the operation. -/
def Obligations.ReductionsAndScans : Prop :=
  -- vector to scalar
  (∀ (s : State) (d a b : Reg) (e : BitVec 4),
     let w := typeWidth e
     let i := (s.getX b).toNat
     s.vecReady { ewOk := e != 15, vregs := [a.toNat], width := w } [a.toNat] [] = true →
     Retires (.vmvxr d a b e) s fun u =>
       RowsChanged s u s.dueRows 0 0 ∧ OnlyHartAndRows s u ∧
       HartWrites s u d
         (if i < s.hart.vl.toNat then
           (if e.toNat ≤ 5 then (BitVec.ofNat w (s.elem a.toNat w i)).signExtend 64 else BitVec.ofNat 64 (s.elem a.toNat w i))
          else 0) 0) ∧
  -- vector reductions and scans
  (∀ (s : State) (d a : Reg) (e : BitVec 4) (r : BitVec 3),
     let w := typeWidth e
     let m := s.mode r
     let act := s.passRows
     let touched := s.segments.filter fun g => act.any fun j => g.1 ≤ j && j < g.1 + g.2
     let vals := fun (o : RedOp) (g : Nat × Nat) =>
       (List.range' g.1 g.2).map fun j => if j ∈ act then s.elem a.toNat w j else o.ident e m
     (∀ p ∈ ([(.vrsum d a e 0 r, .sum), (.vrmax d a e 0 r, .max), (.vrmin d a e 0 r, .min)] : List (Instr × RedOp)),
       s.vecReady (redLegal false d a e p.2 r 128) (regsOf d s [src a e]) (kindsOf [src a e]) = true →
       Retires p.1 s fun u =>
         (∀ g ∈ s.segments, ∀ j ∈ s.dueRows, g.1 ≤ j → j < g.1 + g.2 → ∀ q ∈ d.toNat :: s.copyReg,
           (u.elem q w j : Int) = (reduceSeg p.2 e m (vals p.2 g)).1.emod (2 ^ w)) ∧
         RowsChanged s u s.dueRows (s.destCols d.toNat w) 128 ∧ OnlyHartAndRows s u ∧
         HartAfter s u (s.vcOrdinary d.toNat)
           (touched.foldl (fun f g => f ||| (reduceSeg p.2 e m (vals p.2 g)).2) 0)) ∧
     (∀ p ∈ ([(.vrsum d a e 1 r, .sum), (.vrmax d a e 1 r, .max), (.vrmin d a e 1 r, .min)] : List (Instr × RedOp)),
       s.hart.vseg = 0 → 0 < s.hart.vl.toNat →
       let wk := if typeInt e then 0 else 128
       let res := reduceSeg p.2 e m (vals p.2 (0, s.hart.vl.toNat))
       s.vecReady (redLegal true d a e p.2 r wk) [a.toNat] (kindsOf [src a e]) = true →
       Retires p.1 s fun u =>
         RowsChanged s u s.dueRows 0 wk ∧ OnlyHartAndRows s u ∧
         HartWrites s u d
           (BitVec.ofInt 64 (if typeInt e ∧ p.2 ≠ .sum then elemInt e res.1.toNat else res.1)) res.2) ∧
     (∀ p ∈ ([(.vscan d a e r, .sum), (.vscanmax d a e r, .max), (.vscanmin d a e r, .min)] : List (Instr × RedOp)),
       s.vecReady (redLegal false d a e p.2 r 128) (regsOf d s [src a e]) (kindsOf [src a e]) = true →
       -- the prefix up to a row of a segment, with the flags of that row's steps alone (R65)
       let upTo := fun (g : Nat × Nat) (j : Nat) =>
         (scanRun (p.2.apply e m) 17 1 ((vals p.2 g).map fun v => (v, 0))).getD (j - g.1) (0, 0)
       Retires p.1 s fun u =>
         (∀ g ∈ s.segments, ∀ j ∈ s.dueRows, g.1 ≤ j → j < g.1 + g.2 → ∀ q ∈ d.toNat :: s.copyReg,
           u.elem q w j = (upTo g j).1 % 2 ^ w) ∧
         RowsChanged s u s.dueRows (s.destCols d.toNat w) 128 ∧ OnlyHartAndRows s u ∧
         HartAfter s u (s.vcOrdinary d.toNat)
           (s.segments.foldl (fun f g =>
             (act.filter fun j => g.1 ≤ j && j < g.1 + g.2).foldl (fun f j => f ||| (upTo g j).2) f) 0)))

/-- R121, R388, R393, R384: where the check columns fail in a column that VADD senses in a row that it performs, or the
microcode of a course's mason fails, that course stops and the others complete the instruction: their pairs say so, and
where no row failed its check their rows hold the sums. The instruction takes ROWCHK or the MCFAIL of the course, not
restartable, whichever belongs to the lowest faulting row, with that core row in TFADDR. Every failing group that was
sensed is logged; memory, the scalar registers and the rows of other harts are as before. That a failing mason shows in its
course's first row of the next microcoded instruction is the model's (log 95). -/
def Obligations.RowCheckTraps : Prop :=
  ∀ (s : State) (d a b : Reg) (e : BitVec 4) (sf : BitVec 1),
    let w := typeWidth e
    let srcs := srcs2 0 a b e
    let cols := s.destCols d.toNat w ||| s.regCols a.toNat w ||| s.regCols b.toNat w
    let off := s.masonRows s.dueRows
    let rows := s.dueRows.filter fun i => !(off.map s.courseAt).contains (s.courseAt i)
    let bad := rows.filter fun i => (s.row i).fails cols
    let stopped := (off ++ bad).map s.courseAt
    let logged := (bad.map fun i => ((s.row i).failGroups cols).length).sum
    (vecLegal d w srcs 0 (typeInt e)).cause s = none → s.unlanded (regsOf d s srcs) = [] →
    ((kindsOf srcs).all fun p => !s.abnFails s.active p.1 p.2) = true →
    -- the row in which the microcode of a course fails
    (∀ j : Nat, j ∈ off ↔ j ∈ s.dueRows ∧ (∃ c : Fin 8, .microcode c ∈ s.core.flaws ∧ c.val = s.courseAt j) ∧
      ∀ i ∈ s.dueRows, s.courseAt i = s.courseAt j → j ≤ i) ∧
    -- the trap of the lowest faulting row
    ∀ j ∈ off ++ bad, (∀ i ∈ off ++ bad, j ≤ i) →
      ∃ (u : State) (pairs : List (Nat × BitVec 4 × BitVec 32)), exec (.vadd d a b e 0 sf) s =
          .next (u.take { cause := if j ∈ bad then 0xB2 else 0x98 ||| BitVec.ofNat 8 (s.courseAt j),
                          faddr := BitVec.ofNat 64 (s.coreRow j), norst := true, pairs := pairs }) ∧
        (∀ p ∈ pairs, if p.1 ∈ stopped then p.2.1 = 0 else p.2.1 ≠ 0 ∧ p.2.2 = 0) ∧
        (bad = [] →
          (∀ i ∈ rows, ∀ r ∈ d.toNat :: s.copyReg, u.elem r w i =
            narrow (sf == 1) e (elemInt e (s.elem a.toNat w i) + elemInt e (s.elem b.toNat w i))) ∧
          RowsChanged s u rows (s.destCols d.toNat w) 0) ∧
        u.mem = s.mem ∧ u.hart = { s.hart with unseen := u.hart.unseen } ∧ u.cur = s.cur ∧
        (s.log.length + logged ≤ 256 → u.log.length = s.log.length + logged) ∧
        ∀ n : Nat, n < s.hartLo ∨ s.hartHi ≤ n → u.core.row n = s.core.row n

/-- R174: LDV and LDVS load one element per active row, packed from x[a] on, or x[b] bytes apart modulo 2^64. R174,
R175: STV and STVS store one element per active row; an element narrower than a byte leaves the rest of its byte as it
is. R177, R179: VGATH and VSCAT reach element j at x[a] + index j × size; VSCAT is stated where no two active rows
name one address. VGATH.NF reports the rows it loaded in the mask register of CMASK, and needs one. -/
def Obligations.VectorMemory : Prop :=
  -- vector loads
  (∀ (s : State) (d a b : Reg) (e c : BitVec 4) (pas : List Nat),
     let w := typeWidth e
     let n := (w + 7) / 8
     let rows := s.accessRows
     let packed := fun (j : Nat) => ((s.getX a).toNat + j * w / 8) % 2 ^ 64
     let strided := fun (j : Nat) => ((s.getX a).toNat + j * (s.getX b).toNat) % 2 ^ 64
     (s.vecReady (ldvLegal false d e) (d.toNat :: s.copyReg) [] = true →
       s.loadsEach (elemAcc .load 3 w true) n (s.loadRole c (s.vlBytes w)) (rows.map packed) = some pas →
       LoadsElements (.ldv d a e c) s rows pas d.toNat w n (fun j => j * w % 8)) ∧
     (s.vecReady { ldvLegal false d e with ewOk := typeBytes e } (d.toNat :: s.copyReg) [] = true →
       s.loadsEach (elemAcc .load 3 w false) n (s.loadRole c (s.hart.vl.toNat * (s.getX b).toInt.natAbs))
         (rows.map strided) = some pas →
       LoadsElements (.ldvs d a b e c) s rows pas d.toNat w n (fun _ => 0))) ∧
  -- vector stores
  (∀ (s : State) (d a b : Reg) (e c : BitVec 4) (r : List Nat × State), Memory.wf s.mem = true →
     let w := typeWidth e
     let n := (w + 7) / 8
     let rows := s.accessRows
     let packed := fun (j : Nat) => ((s.getX a).toNat + j * w / 8) % 2 ^ 64
     let strided := fun (j : Nat) => ((s.getX a).toNat + j * (s.getX b).toNat) % 2 ^ 64
     (s.vecReady (ldvLegal true d e) [d.toNat] [] = true →
       s.storesEach (elemAcc .store 4 w true) n c (rows.map fun j =>
         (packed j, if 8 ≤ w then fun _ => s.elem d.toNat w j else mergeBits (j * w % 8) w (s.elem d.toNat w j))) = some r →
       StoresElements (.stv d a e c) s rows n w (fun j => j * w % 8) r) ∧
     (s.vecReady { ldvLegal true d e with ewOk := typeBytes e } [d.toNat] [] = true →
       s.storesEach (elemAcc .store 4 w false) n c (rows.map fun j => (strided j, fun _ => s.elem d.toNat w j)) = some r →
       StoresElements (.stvs d a b e c) s rows n w (fun _ => 0) r)) ∧
  -- gather and scatter
  (∀ (s : State) (d a b : Reg) (e c : BitVec 4) (w : BitVec 1) (pas : List Nat) (r : List Nat × State),
     let ew := typeWidth e
     let n := ew / 8
     let iw := if w = 0 then 32 else 64
     let va := fun (j : Nat) => ((s.getX a).toNat + s.elem b.toNat iw j * n) % 2 ^ 64
     let acc := elemAcc .load 5 ew false
     let idx : List (Nat × AbnKind) := [(b.toNat, .int iw)]
     let K := s.hart.cmask
     (s.loadsEach acc n (s.loadRole c (s.vlBytes ew)) (s.accessRows.map va) = some pas →
       (s.vecReady (gatherLegal false false d b e w) (b.toNat :: d.toNat :: s.copyReg) idx = true →
         LoadsElements (.vgath d a b e c w) s s.accessRows pas d.toNat ew n (fun _ => 0)) ∧
       (s.vecReady (gatherLegal false true d b e w) [d.toNat, b.toNat] idx = true → K ≠ 0 →
         Retires (.vgathNf d a b e c w 0) s fun u =>
           (∀ p ∈ s.accessRows.zip pas, u.elem d.toNat ew p.1 = bitsOf (readLE s.mem p.2 n) 0 ew ∧
             u.maskBit K.toNat p.1 = true) ∧
           RowsChanged s u s.active (s.regCols d.toNat ew ||| maskCols K.toNat) 0 ∧ OnlyPoolAndTraces s u ∧
           HartAfter s u (s.destVc d.toNat).hart.vc 0)) ∧
     ((gatherLegal false true d b e w).cause s = none → K = 0 →
       ∀ nb : BitVec 1, Traps (.vgathNf d a b e c w nb) s { cause := 0xB4 }) ∧
     (Memory.wf s.mem = true → s.vecReady (gatherLegal true false d b e w) [d.toNat, b.toNat] idx = true →
       (s.active.map va).Nodup →
       s.storesEach (elemAcc .store 5 ew false) n c (s.accessRows.map fun j => (va j, fun _ => s.elem d.toNat ew j)) = some r →
       StoresElements (.vscat d a b e c w) s s.accessRows n ew (fun _ => 0) r))

/-- R175, R131: LDVL and STVL move an element between a register and the scratch bytes x[a] on of the same row; beyond
the row's scratch they raise POOLRANGE. R176: a plane load gives each active row the bit j mod 8 of byte j / 8 of the
plane at x[a], in one column of vd (and of its copy) or of a mask register; a plane store puts the bits there. -/
def Obligations.RowAndPlaneMoves : Prop :=
  -- row local moves
  (∀ (s : State) (d a : Reg) (e : BitVec 4),
     let w := typeWidth e
     let o := (s.getX a).toNat
     let legal := fun (store : Bool) => ({ ldvLegal store d e with ewOk := typeBytes e } : Legal)
     (s.core.sb < o + w / 8 →
       ((legal false).cause s = none → Traps (.ldvl d a e) s { cause := 0xB0 }) ∧
       ((legal true).cause s = none → Traps (.stvl d a e) s { cause := 0xB0 })) ∧
     (o + w / 8 ≤ s.core.sb →
       (s.vecReady (legal false) (d.toNat :: s.copyReg) [] = true →
         WritesElements (.ldvl d a e) s s.dueRows d.toNat w 0 (fun j => (s.row j).get (s.core.scol0 + 8 * o) w)
           (s.vcOrdinary d.toNat) 0) ∧
       (s.vecReady (legal true) [d.toNat] [] = true →
         Retires (.stvl d a e) s fun u =>
           (∀ j ∈ s.dueRows, (u.row j).get (s.core.scol0 + 8 * o) w = s.elem d.toNat w j) ∧
           RowsChanged s u s.dueRows (colMask (s.core.scol0 + 8 * o) w) 0 ∧ OnlyHartAndRows s u ∧
           HartAfter s u s.hart.vc 0))) ∧
  -- plane moves
  (∀ (s : State) (d a b : Reg) (k : BitVec 3) (c : BitVec 4) (g : BitVec 1) (pas : List Nat) (r : List Nat × State),
     let q := g.toNat * 32 + b.toNat
     let rows := s.accessRows
     let va := fun (j : Nat) => ((s.getX a).toNat + j / 8) % 2 ^ 64
     let loads := fun (i : Instr) (cols : List Nat) (vc : BitVec 32) => Retires i s fun u =>
       (∀ p ∈ rows.zip pas, ∀ col ∈ cols, (u.row p.1).bit col = bitOf (readLE s.mem p.2 1) (p.1 % 8)) ∧
       RowsChanged s u rows (colsMask cols) 0 ∧ OnlyPoolAndTraces s u ∧ HartAfter s u vc 0
     let put := fun (col j : Nat) => (va j, mergeBits (j % 8) 1 (if (s.row j).bit col then 1 else 0))
     (s.loadsEach (elemAcc .load 3 8 false) 1 (s.loadRole c (rows.map (· / 8)).eraseDups.length) (rows.map va) = some pas →
       (s.vecReady { pred := true, copy := true, vregs := [d.toNat], width := q + 1 } (d.toNat :: s.copyReg) [] = true →
         loads (.ldpl d a b c g) ((d.toNat :: s.copyReg).map fun v => s.core.vcol v + q) (s.destVc d.toNat).hart.vc) ∧
       (s.vecReady { rsv := k == 0, pred := true } [] [] = true → loads (.ldplm k a c) [k.toNat] s.hart.vc)) ∧
     (Memory.wf s.mem = true →
       (s.vecReady { pred := true, vreads := [d.toNat], vregs := [d.toNat], width := q + 1 } [d.toNat] [] = true →
         s.storesEach (elemAcc .store 4 8 false) 1 c (rows.map (put (s.core.vcol d.toNat + q))) = some r →
         StoresElements (.stpl d a b c g) s rows 1 0 (fun _ => 0) r) ∧
       (s.vecReady { rsv := k == 0, pred := true } [] [] = true →
         s.storesEach (elemAcc .store 4 8 false) 1 c (rows.map (put k.toNat)) = some r →
         StoresElements (.stplm k a c) s rows 1 0 (fun _ => 0) r)))

/-- R178, R133: a non-blocking gather passes every check at issue, clears the landed bits of its destination's slices
and is outstanding: no element is written yet. VGATH.NF.NB also writes the mask register of CMASK. R186: KVLD and
KVLD.NF issue a delivery of plane slots for the active rows' tokens, on a tag that is BUSY from then on; no byte of a
row has changed yet. KVLD.NF tells in the mask register of CMASK which rows it will load. -/
def Obligations.NonBlockingIssue : Prop :=
  -- non blocking gathers
  (∀ (s : State) (d a b : Reg) (e c : BitVec 4) (w : BitVec 1) (r : List Xlat × State),
     let ew := typeWidth e
     let n := ew / 8
     let iw := if w = 0 then 32 else 64
     let va := fun (j : Nat) => ((s.getX a).toNat + s.elem b.toNat iw j * n) % 2 ^ 64
     let rows := s.accessRows.map fun j => (j, va j)
     let K := s.hart.cmask
     let issued := fun (i : Instr) (cols : BitVec 1024) => Retires i s fun u =>
       (s.accessRows ≠ [] → u.core.ops = s.core.ops ++
         [{ id := s.core.nextOp, home := s.cur.core.val, by_ := s.cur.who, ctxid := rootCtxid s.core.ptroot,
            pages := (rows.zip r.1).map fun p => (p.1.2 / 65536, p.2.pa / 65536, p.2.idem),
            past := (s.observe [b.toNat]).forkPast c,
            kind := .gather s.cur.who.hartIx d.toNat s.copyReg.head? n rows rows }]) ∧
       (∀ r ∈ d.toNat :: s.copyReg, ∀ h : r < 32, ∀ j ∈ s.accessRows, j / 2048 < 32 →
         (u.hart.landed[r]).getLsbD (j / 2048) = false) ∧
       RowsChanged s u s.active cols 0 ∧ u.mem = s.mem ∧ u.th = s.th ∧ u.hart.vc = (s.destVc d.toNat).hart.vc
     s.lateWalk (s.accessRows.map va) = none →
     ((s.unlanded (d.toNat :: s.copyReg)).all fun p => (s.sliceFailure p).isSome) = true →
     s.mapsTo { kind := .load, source := 5, align := n } (s.accessRows.map va) = some r →
     (s.vecReady (gatherLegal false false d b e w) [b.toNat] [(b.toNat, .int iw)] = true →
       issued (.vgathNb d a b e c w) 0) ∧
     (s.vecReady (gatherLegal false true d b e w) [b.toNat] [(b.toNat, .int iw)] = true → K ≠ 0 →
       issued (.vgathNf d a b e c w 1) (maskCols K.toNat) ∧
       Retires (.vgathNf d a b e c w 1) s fun u => ∀ j ∈ s.accessRows, u.maskBit K.toNat j = true)) ∧
  -- plane delivery issue
  (∀ (s s1 s2 s3 s4 : State) (d a : Reg) (t : BitVec 6) (v nf : BitVec 1) (oc : BitVec 4) (sd : SeqDesc)
     (run : Nat × List (Nat × SeqEntry)) (hs : List (Nat × Option KvHeader)) (ps : PageMap × List Nat),
     let c := kvldCtl (s.getX a)
     let o := if nf = 1 then 0 else oc
     let dim := kvDim sd.dcode
     let i : Instr := if nf = 1 then .kvldNf d a v t else .kvld d a t v oc
     s.isStream = false → (if nf = 1 then s.pfx = none else pfxBroken { pred := true } s.pfx = false) →
     (∀ r : Nat, s.pfx.bind pfxCopy = some r → r < s.core.nv) →
     (nf = 1 → s.hart.cmask ≠ 0) → s.core.tagBusy t.toNat = false →
     bitsOf (s.getX a).toNat 48 16 = 0 → c.ptop ≠ 15 → c.np ≤ c.ptop + 1 →
     s.finds (readDesc (kvSeq o) (s.getX d).toNat) = some (sd, s1) → c.boff + 4 + (1 + c.np) * (dim / 8) ≤ s.core.sb →
     s1.finds (remaining (kvSeq o) sd c.pos s.hart.vl.toNat) = some (run, s2) → s.hart.vl.toNat ≤ run.1 →
     let held := s.active.filterMap fun j =>
       (run.2.find? fun e => e.1 == (c.pos + j) / 64).map fun e => (j, e.2.kpage, (c.pos + j) % 64)
     s2.finds (kvldHeaders (nf == 1) o sd (held.map (·.2.1)).eraseDups) = some (hs, s3) →
     s3.finds (kvldSlots (nf == 1) dim c (fun k => (held.filter (·.2.1 == k)).map (·.2.2)) (sortFst hs)) = some (ps, s4) →
     let rows := held.filter fun r => ps.2.contains r.2.1
     Retires i s fun u =>
       u.core.ops = s.core.ops ++ [
         { id := s.core.nextOp, home := s.cur.core.val, by_ := s.cur.who, ctxid := rootCtxid s.core.ptroot, pages := ps.1,
           past := s4.forkPast o,
           kind := .planes t.toNat s.cur.who.hartIx (v == 1) c.boff c.np c.ptop dim 0 rows [] }] ∧
       u.core.tagBusy t.toNat = true ∧ u.th = s.th ∧
       RowsChanged s u s.active (if nf = 1 then maskCols s.hart.cmask.toNat else 0) 0 ∧
       (nf = 1 → ∀ j ∈ s.active, u.maskBit s.hart.cmask.toNat j = rows.any (·.1 == j)))

/-- R235, R233: SETVL grants min(x[a], CAPV), ends segmentation, and returns the grant; with a pre-emption request at
pallet privilege it raises PREEMPT instead, before any effect (R234). R237: SETVLF packs whole fibres into one strip,
sets VL and the segmentation mask, and returns how many fibres it took and LONG; it reads no length beyond the first that
does not fit.
R238, R84, R85: SETVLRE grants the rows of the run that begins at position x[a + 1] of the sequence at x[a], at most
min(x[a + 2], CAPV). SETVL raises PREEMPT at pallet privilege only (log 29). -/
def Obligations.LengthSetting : Prop :=
  -- set length
  (∀ (s : State) (d a : Reg), s.isStream = false → s.pfx = none →
     let n := min (s.getX a).toNat (min s.core.vlpwr.toNat s.core.vlmax)
     (s.core.preempt = true → s.sys = false → Traps (.setvl d a) s { cause := 0x10 }) ∧
     ((s.core.preempt = false ∨ s.sys = true) →
       Retires (.setvl d a) s fun u =>
         RowsChanged s u (List.range (min n s.hart.vl.toNat)) 0 0 ∧ OnlyHartAndRows s u ∧
         u.hart = { s.hart with vl := BitVec.ofNat 17 n, vseg := 0, th := s.hart.th.set d (BitVec.ofNat 64 n) })) ∧
  -- set length of fibres
  (∀ (s s1 : State) (d a : Reg) (k : BitVec 3) (c : BitVec 4) (lens : List Nat), s.isStream = false → s.pfx = none →
     k ≠ 0 → a.toNat < 30 → (s.core.preempt = false ∨ s.sys = true) → s.sound = true →
     let cap := min (s.getX (a + 2)).toNat (min s.core.vlpwr.toNat s.core.vlmax)
     let n := min (s.getX (a + 1)).toNat 1024
     s.orderAll.scalarsTo 4 c ((List.range lens.length).map fun f => ((s.getX a).toNat + 4 * f) % 2 ^ 64) = some (lens, s1) →
     lens.length ≤ n → lens.dropLast.sum ≤ cap → (lens.length = n ∨ cap < lens.sum) →
     let r := fibresThatFit cap lens 0 0 []
     Retires (.setvlf d a k c) s fun u =>
       (∀ j : Nat, j < r.2.2.1 → (u.row j).bit k.toNat = decide (j ∈ r.1)) ∧
       RowsChanged s u (List.range r.2.2.1) (maskCols k.toNat) 0 ∧ OnlyPoolAndTraces s u ∧
       u.hart = { s.hart with
         vl := BitVec.ofNat 17 r.2.2.1, vseg := k
         th := s.hart.th.set d (BitVec.ofNat 64 ((if r.2.2.2 then 2 ^ 63 else 0) + r.2.1)) }) ∧
  -- set length of run
  (∀ (s s1 s2 : State) (d a : Reg) (c : BitVec 4) (sd : SeqDesc) (run : Nat × List (Nat × SeqEntry)),
     s.isStream = false → s.pfx = none → a.toNat < 30 → (s.core.preempt = false ∨ s.sys = true) →
     let q := min (s.getX (a + 2)).toNat (min s.core.vlpwr.toNat s.core.vlmax)
     s.orderAll.finds (readDesc (scalarSeq c) (s.getX a).toNat) = some (sd, s1) →
     s1.finds (remaining (scalarSeq c) sd (s.getX (a + 1)).toNat q) = some (run, s2) →
     exec (.setvlre d a c) s =
       .next ((s2.setVl (min q run.1) 0).setX d (BitVec.ofNat 64 (min q run.1))).retire)

/-- R201: an arrival counts until EXP; a phase ends when every arrival is in and nothing is pending, and then the
phase bit flips, LERR takes ERR, and ERR and ARR start again from 0. An excess arrival sets ERR. R345, R346: the
instructions on a barrier object, in memory or in linear scratch, replace the object by its next state; a value that
the step cannot take raises BARG, and an object whose check fails CHECKFAIL. R346, R52: MBTEST returns the object's state; MBWAIT returns LERR once the phase bit
differs from its operand and waits at the same instruction until then. Both are acquires. R21: at pod scope, without a
valid PODID, they raise PRIV. In which cycle the operation reaches its unit is the model's (log 104). -/
def Obligations.BarrierObjects : Prop :=
  -- barrier object phases
  (∀ (o : MbarObj) (b : BitVec 40),
     (o.arr ≠ o.exp → (o.arr + 1 ≠ o.exp ∨ o.pend ≠ 0) → o.step .arrive = { o with arr := o.arr + 1 }) ∧
     (o.arr + 1 = o.exp → o.pend = 0 →
       o.step .arrive = { o with ph := !o.ph, lerr := o.err, err := false, arr := 0 }) ∧
     (o.arr = o.exp → o.pend ≠ 0 → o.step .arrive = { o with err := true }) ∧
     ((o.arr ≠ o.exp ∨ o.pend + b ≠ 0) → o.step (.expect b) = { o with pend := o.pend + b }) ∧
     (o.arr = o.exp → o.pend = b →
       o.step (.subtract b.toNat false) = { o with pend := 0, ph := !o.ph, lerr := o.err, err := false, arr := 0 })) ∧
  -- barrier object steps
  (∀ (s : State) (d a : Reg) (p : BitVec 1) (sf : BitVec 3) (m : Mbar) (o : MbarObj), s.isStream = false → s.pfx = none →
     scopeReserved sf = false → (sf = 5 → bitOf s.podid.toNat 8 = true) → s.core.laidOut = true →
     Memory.wf s.mem = true → s.namedMbar a p = some m →
     let X := (s.getX d).toNat
     -- a release at pod scope flushes the ports first (R207)
     let s0 := s.reachUnit s.ownPlace
     let s' := if sf = 5 then s0.podRelease none else s0
     let does := fun (i : Instr) (o' : MbarObj) => Retires i s fun u => MbarStored s' u m o'
     let good := match m with
       | .mem _ pa => s.sectorBad pa = false
       | .pool _ => s.sound = true
     (X ≤ 65535 → good → Retires (.mbinit d a p) s fun u =>
       MbarStored s0 u m { raw := 0, exp := X, arr := 0, lerr := false, err := false, ph := false, pend := 0 }) ∧
     (∀ va pa : Nat, m = .mem va pa → s.sectorBad pa = true → sf ≠ 5 →
       ∀ i ∈ ((if X ≤ 65535 then [.mbinit d a p, .mbexpect d a p sf, .mbarrivex d a p sf] else []) ++
           [.mbarrive a p sf] : List Instr),
         ∃ u : State, u.mem = s.mem ∧ u.th = s.th ∧ u.hart = s.hart ∧
           exec i s = .next (u.take { cause := 0x7A, faddr := BitVec.ofNat 64 va })) ∧
     (s.mbarRead s.cur.core m = .ok o →
       does (.mbarrive a p sf) (o.step .arrive) ∧
       (X < 2 ^ 40 → does (.mbexpect d a p sf) (o.step (.expect (BitVec.ofNat 40 X))) ∧
         does (.mbarrivex d a p sf) (o.step (.arrivex (BitVec.ofNat 40 X))))) ∧
     (65535 < X → ∃ u : State, OnlyTraces s u ∧ exec (.mbinit d a p) s = .next (u.take { cause := 0xB6 })) ∧
     (2 ^ 40 ≤ X → ∃ u : State, OnlyTraces s u ∧ exec (.mbexpect d a p sf) s = .next (u.take { cause := 0xB6 }) ∧
       exec (.mbarrivex d a p sf) s = .next (u.take { cause := 0xB6 }))) ∧
  -- barrier object tests
  (∀ (s : State) (d a : Reg) (p q : BitVec 1) (sf : BitVec 3) (m : Mbar) (o : MbarObj), s.isStream = false → s.pfx = none →
     scopeReserved sf = false → (sf = 5 → bitOf s.podid.toNat 8 = true) → s.namedMbar a p = some m →
     s.mbarRead s.cur.core m = .ok o →
     (∃ u : State, OnlyTraces s u ∧ u.acquired ∧
       exec (.mbtest d a p sf) s = .next (u.setX d (BitVec.ofNat 64 ((if o.lerr then 2 ^ 57 else 0) +
         (if o.ph then 2 ^ 56 else 0) + o.arr * 2 ^ 40 + o.pend.toNat))).retire) ∧
     (o.ph ≠ (q == 1) → ∃ u : State, OnlyTraces s u ∧ u.acquired ∧
       exec (.mbwait d a p q sf) s = .next (u.setX d (if o.lerr then 1 else 0)).retire) ∧
     (o.ph = (q == 1) → ∃ u : State, OnlyTraces s u ∧ exec (.mbwait d a p q sf) s = .next u.fallAsleep)) ∧
  -- barrier objects without a pod
  (∀ (s : State) (d a : Reg) (p q : BitVec 1), s.isStream = false → s.pfx = none → bitOf s.podid.toNat 8 = false →
     ∀ i ∈ ([.mbarrive a p 5, .mbexpect d a p 5, .mbarrivex d a p 5, .mbwait d a p q 5, .mbtest d a p 5] : List Instr),
       Traps i s { cause := 0x04 })

/-- R343, R344: a BAR whose phase is over completes as an acquire, and a hart of a gang that a pre-emption has begun to
take is taken at the instruction after it (R402). With x0 it arrives at its gang's barrier, one of scope hart at once; with
a register at the barrier of a group: the arrival is counted in the open phase, which it opens where there is none. The last
arrival completes the phase, and every hart that waited for it departs; any other waits at the instruction. An operand that
R343 refuses, or another N than the open phase's, raises BARG. R347: WAITV compares the flag words at x[d] + offset with
their expected values: it completes when every one is met, or when its limit of cycles has passed, and then x[a] is the
number of those not met and the mask register of CMASK tells which are; until then it waits. In which cycle an arrival
counts is the model's (log 104). -/
def Obligations.BarrierAndFlagWaits : Prop :=
  -- barrier arrival
  (∀ (s : State) (a : Reg) (sf : BitVec 3), s.isStream = false → s.pfx = none → scopeReserved sf = false →
     (a ≠ 0 → sf ≠ 0) → (sf = 5 → bitOf s.podid.toNat 8 = true) →
     (s.hart.wait = .departed → ∃ u : State, OnlyTraces s u ∧ u.acquired ∧
       (s.takenHere = false ∨ s.stepping = true → exec (.bar a sf) s = .next u.retire) ∧
       (s.takenHere = true → s.stepping = false → exec (.bar a sf) s = .next (u.complete (s.pc + 4)).takeWaiting)) ∧
     (s.hart.wait = .none → a = 0 → sf = 0 → exec (.bar a sf) s = .next (s.sdcInvalidate.orderAll).retire) ∧
     (s.hart.wait = .none → a ≠ 0 → groupBad (s.getX a) = true → Traps (.bar a sf) s { cause := 0xB6 }) ∧
     (s.hart.wait = .none → sf ≠ 0 → sf ≠ 5 → (a ≠ 0 → groupBad (s.getX a) = false) →
       let id := s.core.palletId s.cur.core.val
       let key := if a = 0 then BarKey.gang id.1 id.2.1 sf.toNat (gangInst sf.toNat (id.2.2 % s.gangSize id.1))
         else .group s.ctx sf.toNat (scopeInst sf.toNat s.cur.core.val s.cur.who.hartIx.val) (groupBid (s.getX a))
       let n := if a = 0 then 0 else groupN (s.getX a)
       -- the arrival makes `b` the phase, and completes it or waits
       let arrives := fun (b : Barrier) (bars : List Barrier) =>
         let last := if a = 0 then s.gangDone id.1 id.2.1 sf.toNat (gangInst sf.toNat (id.2.2 % s.gangSize id.1)) b
           else decide (b.arrived.length = n)
         (last = true → Retires (.bar a sf) s fun u =>
           u.mem = s.mem ∧ u.th = s.th ∧ u.acquired ∧ u.bars = bars.filter (·.id != b.id) ∧
           ∀ (r : Arrival) (c : Fin 192) (k : Fin 8), r ∈ b.arrived → k.val = r.hart →
             (s.cores[c].palletId c.val).1 = r.launch → (s.cores[c].palletId c.val).2.2 = r.index →
             (c ≠ s.cur.core ∨ k ≠ s.cur.who.hartIx) → u.cores[c].harts[k].wait = .departed) ∧
         (last = false → s.core.preempt = false → Becomes (.bar a sf) s fun t =>
           t.mem = s.mem ∧ t.th = s.th ∧ t.hart.wait = .barrier b.id ∧ t.hart.sleep = some t.epoch ∧ t.bars = bars)
       ((∀ b ∈ s.bars, b.key ≠ key ∧ b.id < s.nextBar) →
         let b : Barrier := { id := s.nextBar, key := key, n := n, arrived := [s.arrival], counts := [], unsent := 0 }
         arrives b (s.bars ++ [b])) ∧
       (∀ b ∈ s.bars, b.key = key → (∀ c ∈ s.bars, c.id < s.nextBar ∧ c.open = true ∧ (c.key = key ∨ c.id = b.id → c = b)) →
         (n ≠ 0 → b.n ≠ 0 → b.n ≠ n → Traps (.bar a sf) s { cause := 0xB6 }) ∧
         (b.n = n →
           let b' := { b with arrived := b.arrived ++ [s.arrival] }
           arrives b' (s.bars.map fun c => if c.id = b.id then b' else c))))) ∧
  -- wait on flags
  (∀ (s : State) (d a o e : Reg) (pas : List Nat),
     let rows := List.range s.hart.vl.toNat
     let vas := rows.map fun j => ((s.getX d).toNat + s.elem o.toNat 32 j) % 2 ^ 64
     let K := s.hart.cmask
     let now := s.cycle (dieOf s.cur.core)
     let start := s.hart.waitStart.getD now
     s.vecReady { vregs := [o.toNat, e.toNat], vreads := [o.toNat, e.toNat], width := 32 } [o.toNat, e.toNat]
       [(o.toNat, .int 32), (e.toNat, .int 32)] = true →
     s.lateWalk vas = none → s.mapsEach { kind := .load, source := 5, align := 4 } vas = some pas →
     (∀ pa ∈ pas, s.anyBad pa 4 = false) →
     ∀ p ∈ ([(.waitvEq d a o e, fun f v => f == v),
         (.waitvGe d a o e, fun f v => decide ((f + 2 ^ 32 - v) % 2 ^ 32 < 2 ^ 31))] : List (Instr × (Nat → Nat → Bool))),
       let met := fun (q : Nat × Nat) => p.2 (readLE s.mem q.2 4) (s.elem e.toNat 32 q.1)
       let left := ((rows.zip pas).filter fun q => !met q).length
       (left = 0 ∨ (s.getX a ≠ BitVec.allOnes 64 ∧ (s.getX a).toNat ≤ now - start) →
         Retires p.1 s fun u =>
           u.mem = s.mem ∧ u.acquired ∧ (∀ r : Reg, u.getX r = if r = a ∧ a ≠ 0 then BitVec.ofNat 64 left else s.getX r) ∧
           (K ≠ 0 → ∀ q ∈ rows.zip pas, u.maskBit K.toNat q.1 = met q) ∧ RowsChanged s u rows (maskCols K.toNat) 0) ∧
       (left ≠ 0 → (s.getX a = BitVec.allOnes 64 ∨ now - start < (s.getX a).toNat) →
         ∃ u : State, exec p.1 s = .next u.fallAsleep ∧ u.hart.waitStart = some start ∧ u.mem = s.mem ∧ u.th = s.th ∧
           ∀ n : Nat, u.core.row n = s.core.row n))

/-- R348, R349, R350: CSRR reads every register of the map of R349 that the party may read, and the stream the ones that
are its own or open to it. R348, R9, R10: CSRW, CSRS and CSRC return the old value and write x[a], the old value or x[a],
and the old value and not x[a]; what each register keeps of the value, and that a read-only one, or one that only system
firmware writes (R390), keeps its own. R34: PTROOT keeps ROOT and CTXID. R99: a read of CTAG that sees a bit set observes
that tag; that each of the four instructions acquires and orders when it reads CTAG, whatever bits it shows, is the model's
(log 39, log 93). R348: a number of no register is ILLOP, a register closed to the party PRIV, and one of the slab loop's SLSTATE on a hart. -/
def Obligations.ControlRegisterAccess : Prop :=
  -- csr reads
  (∀ (s : State) (d : Reg) (h : Fin 8), s.cur.who = .hart h → s.pfx = none →
     let H := s.hart
     let C := s.core
     let z := fun (n : Nat) => BitVec.ofNat 64 n
     (∀ p ∈ (([(0x000, z H.vl.toNat), (0x001, z (65536 / 2 ^ bitsOf C.pword.toNat 0 2)), (0x002, z H.vseg.toNat),
         (0x003, z H.th.frm.toNat), (0x004, z H.th.fflags.toNat)] : List (BitVec 10 × Word)) ++
         ([(0x005, z H.cmask.toNat), (0x006, z H.dcthr.toNat),
         (0x007, z H.kvfthr.toNat), (0x008, z H.vtestint.toNat), (0x009, H.smbs[0]), (0x00A, H.smbs[1]),
         (0x00B, H.smbs[2]), (0x00C, H.smbs[3])] : List (BitVec 10 × Word)) ++
         ([(0x010, z (8 * s.cur.core.val + h.val)),
         (0x011, z (s.cycle (s.cur.core.val / 48))), (0x012, C.pword), (0x013, z C.vlpwr.toNat), (0x015, C.cterr),
         (0x016, z C.mcver.toNat), (0x017, z ((if C.tokenHeld then 2 else 0) + if C.tokenMode then 1 else 0)),
         (0x040, H.tvec), (0x041, H.tcause), (0x042, H.tpc), (0x043, H.tiaddr), (0x044, H.tfaddr)] : List (BitVec 10 × Word)) ++
         ([(0x048, z H.estart[0].toNat), (0x049, z H.estart[1].toNat), (0x04A, z H.estart[2].toNat),
         (0x04B, z H.estart[3].toNat), (0x04C, z H.estart[4].toNat), (0x04D, z H.estart[5].toNat),
         (0x04E, z H.estart[6].toNat), (0x04F, z H.estart[7].toNat)] : List (BitVec 10 × Word)) ++
         ([(0x050, z H.elag[0].toNat),
         (0x051, z H.elag[1].toNat), (0x052, z H.elag[2].toNat), (0x053, z H.elag[3].toNat), (0x054, z H.elag[4].toNat),
         (0x055, z H.elag[5].toNat), (0x056, z H.elag[6].toNat), (0x057, z H.elag[7].toNat)] : List (BitVec 10 × Word))),
       exec (.csrr d p.1) s = .next (s.setX d p.2).retire) ∧
     exec (.csrr d 0x014) s = .next (s.sdcInvalidate.orderAll.setX d C.ctag).retire ∧
     (∀ p ∈ ([(0x045, H.tpfx), (0x080, C.ptroot)] : List (BitVec 10 × Word)),
       (H.sys = true → exec (.csrr d p.1) s = .next (s.setX d p.2).retire) ∧
       (H.sys = false → Traps (.csrr d p.1) s { cause := 0x04 }))) ∧
  -- csr writes
  (∀ (s : State) (d a : Reg) (h : Fin 8), s.cur.who = .hart h → s.pfx = none →
     let H := s.hart
     let C := s.core
     let A := s.getX a
     let z := fun (n : Nat) => BitVec.ofNat 64 n
     -- the three forms on a register with this value, `put` being the machine with a value written to it
     let forms := fun (n : BitVec 10) (old : Word) (put : Word → State) =>
       exec (.csrw d a n) s = .next ((put A).setX d old).retire ∧
       exec (.csrs d a n) s = .next ((put (old ||| A)).setX d old).retire ∧
       exec (.csrc d a n) s = .next ((put (old &&& ~~~A)).setX d old).retire
     let closed := fun (n : BitVec 10) (cause : BitVec 8) =>
       Traps (.csrw d a n) s { cause := cause } ∧ Traps (.csrs d a n) s { cause := cause } ∧
       Traps (.csrc d a n) s { cause := cause }
     forms 0x002 (z H.vseg.toNat) (fun v => s.modHart fun h => { h with vseg := v.setWidth 3 }) ∧
     forms 0x003 (z H.th.frm.toNat) (fun v => s.modTh fun t => { t with frm := v.setWidth 2 }) ∧
     forms 0x004 (z H.th.fflags.toNat) (fun v => s.modTh fun t => { t with fflags := v.setWidth 5 }) ∧
     forms 0x005 (z H.cmask.toNat) (fun v => s.modHart fun h => { h with cmask := v.setWidth 3 }) ∧
     forms 0x006 (z H.dcthr.toNat) (fun v => s.modHart fun h => { h with dcthr := v.setWidth 40 }) ∧
     forms 0x007 (z H.kvfthr.toNat) (fun v => s.modHart fun h => { h with kvfthr := v.setWidth 32 }) ∧
     forms 0x008 (z H.vtestint.toNat) (fun v => s.modHart fun h => { h with vtestint := v.setWidth 16 }) ∧
     (∀ i : Fin 4, forms (0x009 + BitVec.ofNat 10 i.val) H.smbs[i] fun v => s.modHart fun h => { h with smbs := h.smbs.set i v }) ∧
     forms 0x040 H.tvec (fun v => s.modHart fun h => { h with tvec := v &&& 0x00FFFFFFFFFFFFFD }) ∧
     forms 0x014 C.ctag (fun _ => s.sdcInvalidate.orderAll) ∧
     (∀ p ∈ ([(0x000, z H.vl.toNat), (0x001, z (65536 / 2 ^ bitsOf C.pword.toNat 0 2)), (0x010, z (8 * s.cur.core.val + h.val)),
         (0x011, z (s.cycle (s.cur.core.val / 48))), (0x012, C.pword), (0x013, z C.vlpwr.toNat), (0x015, C.cterr),
         (0x016, z C.mcver.toNat), (0x017, z ((if C.tokenHeld then 2 else 0) + if C.tokenMode then 1 else 0))] :
         List (BitVec 10 × Word)),
       forms p.1 p.2 fun _ => s) ∧
     forms 0x041 H.tcause (fun v => if H.sys then s.modHart fun h => { h with tcause := v &&& 0x8000000000FF07FF } else s) ∧
     forms 0x042 H.tpc (fun v => if H.sys then s.modHart fun h => { h with tpc := v } else s) ∧
     forms 0x043 H.tiaddr (fun v => if H.sys then s.modHart fun h => { h with tiaddr := v } else s) ∧
     forms 0x044 H.tfaddr (fun v => if H.sys then s.modHart fun h => { h with tfaddr := v } else s) ∧
     (∀ c : Fin 8,
       forms (0x048 + BitVec.ofNat 10 c.val) (z H.estart[c].toNat) (fun v =>
         if H.sys ∧ c.val ∈ C.coursesOf h.val then s.modHart fun h => { h with estart := h.estart.set c (v.setWidth 32) } else s) ∧
       forms (0x050 + BitVec.ofNat 10 c.val) (z H.elag[c].toNat) (fun v =>
         if H.sys ∧ c.val ∈ C.coursesOf h.val then s.modHart fun h => { h with elag := h.elag.set c (v.setWidth 4) } else s)) ∧
     (H.sys = true →
       forms 0x045 H.tpfx (fun v => s.modHart fun h => { h with tpfx := v &&& 0x1FFFFFFFF }) ∧
       forms 0x080 C.ptroot (fun v => s.modCore fun c => { c with ptroot := v &&& 0x000FFFFFFFFFFFF0 })) ∧
     (H.sys = false → closed 0x045 0x04 ∧ closed 0x080 0x04) ∧
     (∀ n ∈ ([0x020, 0x021, 0x022, 0x023, 0x024, 0x025] : List (BitVec 10)),
       closed n 0x93 ∧ Traps (.csrr d n) s { cause := 0x93 }) ∧
     (∀ n : BitVec 10, csrAssigned n = false → closed n 0x01 ∧ Traps (.csrr d n) s { cause := 0x01 })) ∧
  -- csr accesses of a stream
  (∀ (s : State) (d a : Reg), s.cur.who = .stream → s.slabBusy = false → s.heldError = none →
     let C := s.core
     let A := s.getX a
     let z := fun (n : Nat) => BitVec.ofNat 64 n
     let forms := fun (n : BitVec 10) (old : Word) (put : Word → State) =>
       exec (.csrr d n) s = .next (s.setX d old).retire ∧
       exec (.csrw d a n) s = .next ((put A).setX d old).retire ∧
       exec (.csrs d a n) s = .next ((put (old ||| A)).setX d old).retire ∧
       exec (.csrc d a n) s = .next ((put (old &&& ~~~A)).setX d old).retire
     forms 0x003 (z C.stream.th.frm.toNat) (fun v => s.modTh fun t => { t with frm := v.setWidth 2 }) ∧
     forms 0x004 (z C.stream.th.fflags.toNat) (fun v => s.modTh fun t => { t with fflags := v.setWidth 5 }) ∧
     forms 0x020 (z C.sltol.toNat) (fun v => s.modCore fun c => { c with sltol := v.setWidth 32 }) ∧
     forms 0x021 (z C.slcap.toNat) (fun v => s.modCore fun c => { c with slcap := v.setWidth 8 }) ∧
     forms 0x022 (z C.sldiv.toNat) (fun v => s.modCore fun c => { c with sldiv := v.setWidth 32 }) ∧
     forms 0x023 (z C.sliter.toNat) (fun v => s.modCore fun c => { c with sliter := v.setWidth 8 }) ∧
     forms 0x024 (z C.slphase.toNat) (fun v => s.modCore fun c => { c with slphase := v.setWidth 5 }) ∧
     forms 0x025 (z C.slrprev.toNat) (fun v => s.modCore fun c => { c with slrprev := v.setWidth 32 }) ∧
     (∀ p ∈ ([(0x010, z (8 * s.cur.core.val + 2048)), (0x011, z (s.cycle (s.cur.core.val / 48))), (0x012, C.pword),
         (0x016, z C.mcver.toNat), (0x017, z ((if C.tokenHeld then 2 else 0) + if C.tokenMode then 1 else 0))] :
         List (BitVec 10 × Word)),
       forms p.1 p.2 fun _ => s) ∧
     (∀ n ∈ ([0x000, 0x001, 0x002, 0x005, 0x006, 0x007, 0x008, 0x009, 0x00A, 0x00B, 0x00C, 0x013, 0x014, 0x015, 0x040, 0x041,
         0x042, 0x043, 0x044, 0x045, 0x080] : List (BitVec 10)),
       Traps (.csrr d n) s { cause := 0x04 } ∧ Traps (.csrw d a n) s { cause := 0x04 } ∧
       Traps (.csrs d a n) s { cause := 0x04 } ∧ Traps (.csrc d a n) s { cause := 0x04 }))

/-- R351: SVC, TRAP and BKPT raise their cause with the code in TFADDR; SVC and TRAP save the address of the next
word. R144, R145: a word that is no instruction raises ILLOP, and the all-zero word ILLZERO; nothing else changes.
R145 step 1 and 2: a word that decodes to no instruction, or has a reserved bit or value, is met in the same way and
becomes a trap, or stops at the fetch's own fault. -/
def Obligations.RaisedTraps : Prop :=
  -- software traps
  (∀ (s : State) (c : BitVec 10), s.isStream = false → s.pfx = none →
     Traps (.svc c) s { cause := 0x0A, faddr := c.setWidth 64, next := true } ∧
     Traps (.trap c) s { cause := 0x0B, faddr := c.setWidth 64, next := true } ∧
     Traps (.bkpt c) s { cause := 0x08, faddr := c.setWidth 64 }) ∧
  -- illegal words
  (∀ (s : State) (w : BitVec 32),
     (w ≠ 0 → Traps (.illegalWord w) s { cause := 0x01 }) ∧ Traps (.illegalWord 0) s { cause := 0x00 }) ∧
  -- step meets no instruction
  (∀ (s : State) (p : Party) (x : Xlat), s.inbox = [] → s.turn = some p →
     (s.tick.enter p).boundary = none →
     (s.tick.enter p).reach { kind := .fetch, source := (s.tick.enter p).source 0, align := 4 }
       (s.tick.enter p).pc.toNat = some x →
     (s.tick.enter p).lateWalk [(s.tick.enter p).pc.toNat] = none → s.anyBad x.pa 4 = false →
     ((s.tick.enter p).core.icache.all fun l => l.sector != x.pa / 64) = true →
     ∃ u : State, OnlyTraces (s.tick.enter p) u ∧
       (decode (readLE s.mem x.pa 4) = .rsvfld → step s = .next (u.take { cause := 0x02 })) ∧
       (decode (readLE s.mem x.pa 4) = .illOp → step s = .next (u.take { cause := 0x01 })) ∧
       (decode (readLE s.mem x.pa 4) = .illZero → step s = .next (u.take { cause := 0x00 })))

/-- R385, R386, R390: an exception of category 2, with a handler in TVEC and none running, enters the pallet handler:
the record is written, INH is set, the program counter is TVEC's base, and registers and memory stay. R385, R387,
R390: an exception that is neither the Launch Controller's nor taken by a pallet handler enters system firmware at the
boot vector, at system privilege; one inside the pallet handler is delivered as NESTED with its cause in TCAUSE.SUB.
R388: a trap at system privilege leaves the record of the first trap as it stands, halts the hart with reason 0x37, is
logged by Epvimond, and terminates the pallet with cause 0x0F. -/
def Obligations.TakingAnException : Prop :=
  -- enter pallet handler
  (∀ (s : State) (h : Fin 8) (t : Trap), s.cur.who = .hart h → s.hart.sys = false → s.hart.inh = false →
     bitOf s.hart.tvec.toNat 0 = true → causeCat2 t.cause = true → bitOf s.core.dbgctl.toNat 4 = false →
     let u := s.take t
     Recorded s u t ∧ u.hart.inh = true ∧ u.hart.high = true ∧ u.hart.sys = false ∧ u.pc = s.hart.tvec &&& 0x00FFFFFFFFFFFFFC ∧
     (∀ r : Reg, u.getX r = s.getX r) ∧ u.mem = s.mem ∧ u.core.rows = s.core.rows ∧
     (∀ c : Fin 192, c ≠ s.cur.core → u.cores[c] = s.cores[c])) ∧
  -- enter system firmware
  (∀ (s : State) (h : Fin 8) (t : Trap), s.cur.who = .hart h → s.hart.sys = false → s.core.dbgctl = 0 →
     causeToLc t.cause = false →
     (causeCat2 t.cause = false ∨ s.hart.inh = true ∨ bitOf s.hart.tvec.toNat 0 = false) →
     let u := s.take t
     Recorded s u (if causeCat2 t.cause = true ∧ s.hart.inh = true then { t with cause := 0x0E, sub := t.cause } else t) ∧
     u.hart.sys = true ∧ u.hart.inh = false ∧ u.pc = s.sysVector ∧
     (∀ r : Reg, u.getX r = s.getX r) ∧ u.mem = s.mem ∧ u.core.rows = s.core.rows ∧
     (∀ c : Fin 192, c ≠ s.cur.core → u.cores[c] = s.cores[c])) ∧
  -- double fault
  (∀ (s : State) (h : Fin 8) (t : Trap), s.cur.who = .hart h → s.hart.sys = true →
     let u := s.take t
     u.hart.st = .failed ∧ bitsOf u.core.dbgstat.toNat 8 8 = 0x37 ∧ u.hart.tcause = s.hart.tcause ∧
     u.hart.tpc = s.hart.tpc ∧ u.hart.tiaddr = s.hart.tiaddr ∧ u.hart.tfaddr = s.hart.tfaddr ∧
     u.hart.tpfx = s.hart.tpfx ∧ u.hart.elag = s.hart.elag ∧ u.hart.estart = s.hart.estart ∧
     (∃ e ∈ u.log, e.cause = 0x0F ∧ e.core = BitVec.ofNat 16 s.cur.core.val) ∧
     (∀ p : Pallet, s.core.pallet = some p → ∃ q : Pallet, u.core.pallet = some q ∧ q.board = .join ∧
       q.failed = some (p.failed.getD 0x0F)) ∧
     (∀ r : Reg, u.getX r = s.getX r) ∧ u.mem = s.mem)

/-- R352, R389, R395: ERET goes on at TPC under the prefix of TPFX; at system privilege it restores PRIV and INH from
TCAUSE, in the pallet handler it clears INH. Anywhere else it raises PRIV. With KILL it terminates the pallet instead, with
the cause in TCAUSE, TERMREQ (0x19, R384) for a cause of 0; a cause that the pallet has failed with before stays. -/
def Obligations.ReturnFromException : Prop :=
  ∀ (s : State) (h : Fin 8), s.cur.who = .hart h → s.pfx = none →
    (s.hart.sys = false → s.hart.inh = false → Traps .eret s { cause := 0x04 }) ∧
    ((s.hart.sys = true ∧ bitOf s.hart.tcause.toNat 63 = false) ∨ (s.hart.sys = false ∧ s.hart.inh = true) →
      s.stepping = false →
      Becomes .eret s fun u =>
        u.pc = s.hart.tpc ∧ u.hart.st = s.hart.st ∧
        u.hart.pfx = (if bitOf s.hart.tpfx.toNat 32 then some (BitVec.ofNat 32 s.hart.tpfx.toNat) else none) ∧
        u.hart.sys = (if s.hart.sys then bitOf s.hart.tcause.toNat 8 else false) ∧
        u.hart.inh = (if s.hart.sys then bitOf s.hart.tcause.toNat 9 else false) ∧
        u.hart.replaying = decide (∃ c : Fin 8, s.hart.elag[c] ≠ 0 ∨ s.hart.estart[c] ≠ 0) ∧
        (∀ r : Reg, u.getX r = s.getX r) ∧ u.mem = s.mem ∧ u.core.rows = s.core.rows) ∧
    (s.hart.sys = true → bitOf s.hart.tcause.toNat 63 = true →
      Becomes .eret s fun u =>
        (let cause := BitVec.ofNat 8 s.hart.tcause.toNat
         ∀ p : Pallet, s.core.pallet = some p → ∃ q : Pallet, u.core.pallet = some q ∧ q.board = .join ∧
           q.failed = some (p.failed.getD (if cause = 0 then 0x19 else cause))) ∧ u.mem = s.mem)

/-- R146, R149: PFX stays pending for the next word, and completes nothing else; a reserved field is RSVFLD, and a PFX
under a PFX PFXBAD (R148). R353, R358: YIELD passes the hart over for 16 issue cycles; the invalidations empty their
caches. R356: QUIESCE at system privilege answers 2 for a number of no core and 1 for a core that is not halted; a halted
core's operations that were issued so far are waited for, whatever becomes of the core, and then it is an acquire and
answers 0. R357: TLBINV removes the translations it names from every TLB and pointer cache, and completes when nothing that
may have used one is outstanding; until then it waits. Which walks and which operations it concerns, and that a register
that a kind does not use is ignored, is the model's (log 9, log 91, log 107). -/
def Obligations.SystemControl : Prop :=
  -- prefix pending
  (∀ (s : State) (p : BitVec 3) (v c : BitVec 1) (r : BitVec 5) (h : Fin 8), s.cur.who = .hart h →
     let legal := (p ≠ 0 ∨ v = 0) ∧ (c = 1 ∨ r = 0)
     (legal → s.pfx = none →
       exec (.pfx p v c r) s = .next { s with
         epoch := s.epoch + 1
         cores := s.cores.set s.cur.core { s.core with
           harts := s.core.harts.set h { s.hart with
             th := { s.hart.th with pc := s.pc + 4 }
             pfx := some (0x3F#6 ++ p ++ v ++ c ++ r ++ 0#16 : BitVec 32) } } }) ∧
     (legal → s.pfx ≠ none → Traps (.pfx p v c r) s { cause := 0x03 }) ∧
     (¬ legal → Traps (.pfx p v c r) s { cause := 0x02 })) ∧
  -- yield and invalidations
  (∀ (s : State) (h : Fin 8), s.cur.who = .hart h → s.pfx = none →
     exec .yield s = .next (s.modHart fun h => { h with yieldLeft := 16 }).retire ∧
     exec .icinv s = .next (s.modCore fun c => { c with icache := [] }).retire ∧
     exec .sdcinv s = .next (s.modCore fun c => { c with sdc := [] }).retire ∧
     (s.hart.sys = true →
       exec .icinvAll s = .next ({ s with cores := s.cores.map fun c => { c with icache := [] } } : State).retire) ∧
     (s.hart.sys = false → Traps .icinvAll s { cause := 0x04 })) ∧
  (∀ s : State, s.cur.who = .stream → s.slabBusy = false → s.heldError = none →
     exec .yield s = .next s.retire ∧ exec .sdcinv s = .next (s.modCore fun c => { c with sdc := [] }).retire) ∧
  -- quiesce
  (∀ (s : State) (d a : Reg) (h : Fin 8), s.cur.who = .hart h → s.pfx = none →
     (s.hart.sys = false → Traps (.quiesce d a) s { cause := 0x04 }) ∧
     (s.hart.sys = true → 192 ≤ (s.getX a).toNat → exec (.quiesce d a) s = .next (s.setX d 2).retire) ∧
     (s.hart.sys = true → ∀ k : Fin 192, (s.getX a).toNat = k.val →
       let C := s.cores[k]
       -- the operations of the core numbered below b are waited for, on a core or with a saved gang
       let open_ := fun (o : EngineOp) =>
         (∃ c : Fin 192, o ∈ s.cores[c].ops) ∨ ∃ g ∈ s.outs, ∃ m ∈ g.images, o ∈ m.core.ops
       let waits := fun (b : Nat) =>
         ((∀ o : EngineOp, open_ o → o.home = k.val → b ≤ o.id) →
           exec (.quiesce d a) s = .next (s.sdcInvalidate.orderAll.setX d 0).retire) ∧
         ((∃ o : EngineOp, open_ o ∧ o.home = k.val ∧ o.id < b) →
           exec (.quiesce d a) s = .next (s.modHart fun h => { h with wait := .quiesce b }).sleepHere)
       (∀ b : Nat, s.hart.wait = .quiesce b → waits b) ∧
       ((∀ b : Nat, s.hart.wait ≠ .quiesce b) →
         (C.halted = false → exec (.quiesce d a) s = .next (s.setX d 1).retire) ∧
         (C.halted = true → waits C.nextOp)))) ∧
  -- tlb invalidation
  (∀ (s : State) (d a : Reg) (k : BitVec 2) (h : Fin 8), s.cur.who = .hart h → s.pfx = none →
     let i : Inval := { kind := k, ctxid := (s.getX d).setWidth 16, va := (s.getX a).toNat }
     let u := s.tlbInvalidate i
     (k = 3 → Traps (.tlbinv d a k) s { cause := 0x02 }) ∧
     (k ≠ 3 → s.hart.sys = false → Traps (.tlbinv d a k) s { cause := 0x04 }) ∧
     (k ≠ 3 → s.hart.sys = true →
       (u.tlbBusy i = false → exec (.tlbinv d a k) s = .next u.retire) ∧
       (u.tlbBusy i = true → exec (.tlbinv d a k) s = .next u.sleepHere)) ∧
     u = { s with cores := u.cores, dies := u.dies } ∧
     (∀ c : Fin 192, u.cores[c] = { s.cores[c] with tlb := u.cores[c].tlb } ∧
       ∀ e : TlbEntry, e ∈ u.cores[c].tlb ↔ e ∈ s.cores[c].tlb ∧
         ¬ (k = 2 ∨ (e.ctxid = i.ctxid ∧ (k = 1 ∨ i.va / 2 ^ pageBits e.level = e.page)))) ∧
     (∀ c : Fin 4, u.dies[c] = { s.dies[c] with ptrs := u.dies[c].ptrs, walks := u.dies[c].walks } ∧
       (∀ w : WalkRun, w ∈ u.dies[c].walks ↔ w ∈ s.dies[c].walks ∧ i.walk w = false) ∧
       ∀ e : BitVec 16 × Nat × Nat × Nat, e ∈ u.dies[c].ptrs ↔ e ∈ s.dies[c].ptrs ∧
         ¬ (k = 2 ∨ (e.1 = i.ctxid ∧ (k = 1 ∨ vaPrefix e.2.1 i.va = e.2.2.1)))) ∧
     (u.tlbBusy i = true ↔ (∃ r ∈ s.reqs, i.req r = true) ∨ (∃ c : Fin 192, ∃ o ∈ s.cores[c].ops, i.op o = true) ∨
       ∃ g ∈ s.outs, ∃ m ∈ g.images, ∃ o ∈ m.core.ops, i.op o = true))

/-- R354, R375, R377: END retires the hart; when it was the last hart of a pallet without a stream, the pallet waits
to be joined. The partner of a running stream raises SLSTATE. R355: LAUNCH hands a record of 64 bytes to the device
queue of its die and returns 0; a full queue returns 1 and a record whose check fails 2. -/
def Obligations.EndAndLaunch : Prop :=
  -- end of hart
  (∀ (s : State) (h : Fin 8), s.cur.who = .hart h → s.pfx = none →
     (s.core.stream.running = true → s.core.stream.partner = h → Traps .endHart s { cause := 0x93 }) ∧
     ((s.core.stream.running = false ∨ s.core.stream.partner ≠ h) → s.bars = [] →
       ∃ u : State, exec .endHart s = .next u ∧
         u.hart.st = .ended ∧ u.hart.pfx = none ∧ (∀ r : Reg, u.getX r = s.getX r) ∧ u.mem = s.mem ∧
         u.core.rows = s.core.rows ∧
         (∀ k : Fin 8, k ≠ h → u.core.harts[k] = s.core.harts[k]) ∧
         (∀ p : Pallet, s.core.pallet = some p → p.board = .run → s.core.stream.running = false →
           (∀ k : Fin 8, k ≠ h → s.core.harts[k].st = .ended ∨ s.core.harts[k].st = .absent) →
           u.core.pallet = some { p with board := .join }))) ∧
  -- device launch
  (∀ (s : State) (d a : Reg) (x : Xlat), s.isStream = false → s.pfx = none →
     let va := (s.getX a).toNat
     let pa := x.pa / 65536 * 65536 + va % 65536
     let bs := readBytes s.mem pa 64
     va % 64 = 0 → s.reach { kind := .load, source := 1, device := true } va = some x → s.lateWalk [va] = none →
     s.goodData pa 64 = true →
     ∃ u : State, OnlyTraces s u ∧
       (recordGood bs = false → exec (.launch d a) s = .next (u.setX d 2).retire) ∧
       (recordGood bs = true → 64 ≤ s.dies[s.dieNo].devq.length → exec (.launch d a) s = .next (u.setX d 1).retire) ∧
       (recordGood bs = true → s.dies[s.dieNo].devq.length < 64 →
         exec (.launch d a) s = .next ((u.modDie u.dieNo fun k => { k with devq := k.devq ++ [(bs, s.ctx)] }).setX d 0).retire))

/-- R268, R269: VSRCH combines the masked comparison of each element with the old mask bit; VHAM writes, or adds, the
number of differing bits. R270: VTOPK sets the mask register in the pass rows it selects and clears it in the other
pass rows. It selects x[b] of the eligible rows, or all of them where there are fewer: first those that hold ABN+, then
those with the greatest ordered keys, and of equals the lower rows. R290 to R292: VSELV, VMASKV
and VCLRV read elements of the verdict class as bits. VMASKV marks the values it is asked for, VCLRV replaces ABN− and
ABN+ and leaves the verdict class. -/
def Obligations.SearchAndVerdictSelection : Prop :=
  -- search instructions
  (∀ (s : State) (k : BitVec 3) (d a b : Reg) (e : BitVec 4) (t w : BitVec 2) (c x : BitVec 1),
     (let ew := typeWidth e
      s.vecReady { maskLegal [src a e] 0 (e != 15) with rsv := b == 31 } [a.toNat] (kindsOf [src a e]) = true →
      let m := fun j => ∀ i : Nat, i < ew → (s.getX (b + 1)).getLsbD i = true →
        bitOf (s.elem a.toNat ew j) i = (s.getX b).getLsbD i
      (k ≠ 0 → Retires (.vsrch k a b e t) s fun u =>
        (∀ j ∈ s.dueRows,
          let old := s.maskBit k.toNat j = true
          u.maskBit k.toNat j = true ↔
            (if t = 0 then m j else if t = 1 then old ∧ m j else if t = 2 then old ∨ m j else old ∧ ¬ m j)) ∧
        RowsChanged s u s.dueRows (maskCols k.toNat) 0 ∧ OnlyHartAndRows s u ∧ HartAfter s u s.hart.vc 0) ∧
      (k = 0 → Retires (.vsrch k a b e t) s fun u =>
        RowsChanged s u s.dueRows 0 0 ∧ OnlyHartAndRows s u ∧ HartAfter s u s.hart.vc 0)) ∧
     (let kw := 8 * 2 ^ w.toNat
      let dw := typeWidth e
      let srcs := (if c = 1 then [src d e] else []) ++ srcInt a kw :: (if x = 1 then [] else [srcInt b kw])
      d ≠ a → (x = 0 → d ≠ b) →
      s.vecReady { vecLegal d dw srcs 0 (decide (8 ≤ e.toNat ∧ e.toNat ≤ 10)) with width := max dw kw }
        (regsOf d s srcs) (kindsOf srcs) = true →
      let diff := fun j => ((List.range kw).filter fun i =>
        bitOf (s.elem a.toNat kw j) i != bitOf (if x = 1 then (s.getX b).toNat else s.elem b.toNat kw j) i).length
      WritesElements (.vham d a b e w c x) s s.dueRows d.toNat dw 0
        (fun j => if c = 1 then s.elem d.toNat dw j + diff j else diff j) (s.vcOrdinary d.toNat) 0)) ∧
  -- topk selection
  (∀ (s : State) (k : BitVec 3) (a b : Reg) (e : BitVec 4) (m : BitVec 1),
     let sr : Src := if e = 4 ∨ e = 14 then { reg := a.toNat, width := typeWidth e, kind := .none } else src a e
     let sel := s.topk s.passRows a e (m == 1) (s.getX b).toNat
     s.vecReady (maskLegal [sr] 0 (e != 15)) [a.toNat] (kindsOf [sr]) = true →
     let w := typeWidth e
     let v := fun (j : Nat) => s.elem a.toNat w j
     let verdict := s.hart.vcBit a.toNat = true ∧ (e = 4 ∨ e = 14)
     let plus := fun (j : Nat) => verdict ∧ v j = abnPlus e
     let eligible := fun (j : Nat) => j ∈ s.passRows ∧ ¬ (verdict ∧ v j = abnMinus e) ∧ ¬ (m = 1 ∧ plus j) ∧
       (typeFloat e = true → ((fmtOf e).decode (v j)).isNan = true → plus j)
     -- the ordered key
     let flip := fun (x : Nat) => if m = 1 then 2 ^ w - 1 - x else x
     let key := fun (j : Nat) => flip (
       if typeFloat e = true ∧ bitOf (v j) (w - 1) = true then 2 ^ w - 1 - v j
       else if typeFloat e = true ∨ e.toNat ≤ 5 then v j ^^^ 2 ^ (w - 1) else v j)
     (∀ l : List Nat, l.Nodup → (∀ j : Nat, j ∈ l ↔ eligible j) → sel.length = min (s.getX b).toNat l.length) ∧
     sel.Nodup ∧ (∀ j ∈ sel, eligible j) ∧
     (∀ i ∈ sel, ∀ j : Nat, eligible j → j ∉ sel →
       (plus j → plus i ∧ i < j) ∧ (¬ plus i → key j < key i ∨ (key j = key i ∧ i < j))) ∧
     Retires (.vtopk k a b e m) s fun u =>
       (k ≠ 0 → ∀ j ∈ s.dueRows, u.maskBit k.toNat j = decide (j ∈ sel)) ∧
       RowsChanged s u s.dueRows (maskCols k.toNat) 0 ∧ OnlyHartAndRows s u ∧ HartAfter s u s.hart.vc 0) ∧
  -- leaving verdict class
  (∀ (s : State) (k : BitVec 3) (d a b : Reg) (e : BitVec 4) (m : BitVec 2) (sf : BitVec 3),
     let v := fun j => s.elem a.toNat 32 j
     let sr : Src := { reg := a.toNat, width := 32, kind := .none }
     let minus := abnMinus e
     let plus := abnPlus e
     let W := (s.getX b).toNat
     (s.vecReady { maskLegal [sr] 0 (e == 4 || e == 14) with rsv := decide (5 ≤ sf.toNat) } [a.toNat] [] = true →
       WritesMask (.vmaskv k a e sf) s k 0 (fun j => maskv e sf (v j)) 0 ∧
       (sf = 0 → ∀ j : Nat, maskv e sf (v j) = (v j != minus && v j != plus)) ∧
       (sf = 1 → ∀ j : Nat, maskv e sf (v j) = (v j == minus)) ∧ (sf = 2 → ∀ j : Nat, maskv e sf (v j) = (v j == plus)) ∧
       (sf = 3 → ∀ j : Nat, maskv e sf (v j) = (v j == minus || v j == plus))) ∧
     (s.vecReady (vecLegal d 32 [sr] 0 (e == 4 || e == 14)) (regsOf d s [sr]) [] = true →
       Retires (.vclrv d a b e) s fun u =>
         (∀ j ∈ s.dueRows, ∀ r ∈ d.toNat :: s.copyReg, u.elem r 32 j =
           (if v j = minus then bitsOf W 0 32 else if v j = plus then bitsOf W 32 32 else v j)) ∧
         RowsChanged s u s.dueRows (s.destCols d.toNat 32) 0 ∧ OnlyHartAndRows s u ∧
         (∀ r ∈ d.toNat :: s.copyReg, r < 32 → u.hart.vcBit r = false) ∧ HartAfter s u u.hart.vc 0) ∧
     (let wk := if m = 0 then 0 else if m = 1 then 64 else 128
      s.vecReady { vecLegal d 32 [sr] wk (e == (if m = 0 then 4 else 14)) with rsv := m == 3 } (regsOf d s [sr]) [] = true →
      bitsOf W 23 9 = 0 → bitsOf W 20 3 ≤ 4 → (m ≠ 0 → bitsOf W 0 8 + 2 ≤ s.core.sb) →
      let f := fun j => selectElem s.core m (s.mode (BitVec.ofNat 3 (bitsOf W 20 3))) W (s.row j) (v j)
      WritesElements (.vselv d a b e m) s s.dueRows d.toNat 32 wk (fun j => (f j).1) (s.vcOrdinary d.toNat)
        (orFlagsOf s.dueRows fun j => (f j).2)))

/-- R271 to R277: TKINIT empties a list with a capacity from 1 to 64; TKINS offers the rows below VL whose mask bit is
1, in row order; TKTHR returns the threshold; TKRD stores the image and returns the number of entries; TKMRG leaves the list
to its merge, and the list is busy until that ends. The next instruction on a list observes the end of its merge (R52,
R196), and meets the merge's failure. R384: a list whose storage fails its check raises TKCHK and loses INIT. R279, R280:
VTERM reads a query of DIM elements and stores its term list, in term order, at x[b]; x[d] is the number of terms. -/
def Obligations.TopkListsAndTerms : Prop :=
  -- list instructions
  (∀ (s : State) (d a : Reg) (n o : BitVec 2) (sf v b : BitVec 1) (k : BitVec 3) (c : BitVec 4) (p : PageMap),
     let l := s.core.lists[n.toFin]
     let put := fun (t : State) (l : TkList) => t.modCore fun c => { c with lists := c.lists.set n.toFin l }
     -- the list unit's order, and the end of a merge observed
     let s' := if l.merged then put s.sdcInvalidate.orderAll { l with merged := false, err := none } else s
     let l' := s'.core.lists[n.toFin]
     let plain : List Instr := [.tkinit a n sf, .tkthr d n b, .tkrd d a n c, .tkmrg a n c]
     let sound := l.busy = false ∧ l.err = none ∧ HwUnit.list n.toFin ∉ s.core.flaws
     s.isStream = false → s.pfx = none →
     (l.busy = true → ∀ i ∈ plain, exec i s = .next s.sleepHere) ∧
     (l.busy = false → l.merged = true → ∀ e : HeldError, l.err = some e →
       ∀ i ∈ plain, exec i s = .next (s'.take { cause := e.cause, faddr := e.faddr })) ∧
     (l.busy = false → l.err = none → HwUnit.list n.toFin ∈ s.core.flaws →
       ∀ i ∈ plain, ∃ u : State, exec i s = .next (u.take { cause := 0xA6 }) ∧ u.mem = s.mem ∧
         u.core.lists = s.core.lists.set n.toFin { l' with init := false }) ∧
     (sound → (s.getX a = 0 ∨ 64 < (s.getX a).toNat) →
       exec (.tkinit a n sf) s = .next (s'.take { cause := 0xA4 })) ∧
     (sound → s.getX a ≠ 0 → (s.getX a).toNat ≤ 64 →
       let fresh : TkList :=
         { init := true, int32 := sf == 1, cap := (s.getX a).toNat, entries := [], err := none, busy := false, merged := false }
       exec (.tkinit a n sf) s = .next (put s' fresh).retire) ∧
     (sound → l.init = false →
       ∀ i ∈ ([.tkthr d n b, .tkrd d a n c, .tkmrg a n c] : List Instr), exec i s = .next (s'.take { cause := 0xA4 })) ∧
     (sound → l.init = true →
       exec (.tkthr d n b) s = .next (s'.setX d (
         if b = 1 then BitVec.ofNat 64 (ordScore l.int32 l.theta)
         else if l.int32 then (BitVec.ofNat 32 l.theta).signExtend 64 else BitVec.ofNat 64 l.theta)).retire ∧
       (l.cap ≤ 64 → l.entries.length ≤ l.cap → Memory.wf s.mem = true →
         s'.mapsRange { kind := .store, source := 2, align := 8 } (s.getX a).toNat (8 + 8 * l.cap) = some p →
         ∃ u : State, OnlyStore s' u ∧ StoredRange s u p (s.getX a).toNat l.image ∧
           exec (.tkrd d a n c) s = .next (u.setX d (BitVec.ofNat 64 l.entries.length)).retire) ∧
       (s'.mapsRange { kind := .load, source := 6, align := 8 } (s.getX a).toNat 520 = some p →
         Retires (.tkmrg a n c) s fun u =>
           u.core.lists = s.core.lists.set n.toFin { l' with busy := true } ∧ u.mem = s.mem ∧ u.hart = s.hart ∧
           u.core.ops = s.core.ops ++ [{ id := s.core.nextOp, home := s.cur.core.val, by_ := s.cur.who, ctxid := rootCtxid s.core.ptroot,
                                         pages := p, past := s'.forkPast c, kind := .merge n.toNat (s.getX a).toNat }]) ∧
       (let ids := if v = 1 then [d.toNat] else []
        let all := List.range s.hart.vl.toNat
        let rows := all.filter (s.maskBit k.toNat)
        s.vecReady { vregs := a.toNat :: ids, vreads := a.toNat :: ids, width := 32 } (a.toNat :: ids)
          (ids.map fun i => (i, .int 32)) = true →
        Retires (.tkins d a n k v) s fun u =>
          u.core.lists = s.core.lists.set n.toFin ((rows.filterMap fun j => (s.offerScore a l.int32 j).map fun sc =>
            (BitVec.ofNat 32 sc,
             if v = 1 then BitVec.ofNat 32 (s.elem d.toNat 32 j) else BitVec.ofNat 32 ((s.getX d).toNat + j))).foldl
            (fun l q => l.offer q) l') ∧
          RowsChanged s u all 0 0 ∧ HartAfter s u s.hart.vc 0 ∧ u.mem = s.mem))) ∧
  -- term lists
  (∀ (s q : State) (d a b : Reg) (e c : BitVec 4) (qs : List Byte) (p : PageMap), s.isStream = false → s.pfx = none →
     b ≠ 31 → (e = 1 ∨ e = 2) → Memory.wf s.mem = true →
     let w := (s.getX (b + 1)).toNat
     let plo := bitsOf w 6 4
     let phi := bitsOf w 2 4
     let dim := 64 * 2 ^ bitsOf w 0 2
     let ew := typeWidth e
     let bad := bitsOf w 10 54 ≠ 0 ∨ bitsOf w 0 2 = 3 ∨ phi < plo ∨ phi = 15
     (bad → Traps (.vterm d a b e c) s { cause := 0xA5 }) ∧
     (¬ bad → s.readsRangeTo { kind := .load, source := 1 } (s.getX a).toNat (dim * ew / 8) c = some (qs, q) →
       let val := fun (i : Nat) => (BitVec.ofNat ew (leOfBytes qs / 2 ^ (i * ew))).toInt
       let n := (((List.range dim).filter fun i => decide (val i ≠ 0)).length) * (phi + 1 - plo)
       q.mapsRange { kind := .store, source := 2, align := 4 } (s.getX b).toNat (4 * n) = some p →
       ∃ (u : State) (terms : List (BitVec 32)), OnlyStore s u ∧
         exec (.vterm d a b e c) s = .next (u.setX d (BitVec.ofNat 64 n)).retire ∧
         StoredRange s u p (s.getX b).toNat (terms.flatMap fun t => bytesOfLe 4 t.toNat) ∧
         terms.Pairwise (fun x y => termBefore x y = true) ∧
         (∀ t : BitVec 32, t ∈ terms ↔ ∃ i pl : Nat, i < dim ∧ val i ≠ 0 ∧ plo ≤ pl ∧ pl ≤ phi ∧
           t = BitVec.ofNat 32 ((val i).natAbs * 65536 + (if val i < 0 then 4096 else 0) + pl * 256 + i))))

/-- R272, R273: a list that holds at most CAP entries in list order, with no identifier twice, does so after an offer.
-/
def Obligations.ListStaysOrdered : Prop :=
  ∀ (l : TkList) (p : BitVec 32 × BitVec 32),
    let before := fun (x y : BitVec 32 × BitVec 32) =>
      ordScore l.int32 y.1.toNat < ordScore l.int32 x.1.toNat ∨
      (ordScore l.int32 y.1.toNat = ordScore l.int32 x.1.toNat ∧ x.2.toNat < y.2.toNat)
    l.entries.length ≤ l.cap → l.entries.Pairwise before → (l.entries.map (·.2)).Nodup →
    (l.offer p).entries.length ≤ l.cap ∧ (l.offer p).entries.Pairwise before ∧ ((l.offer p).entries.map (·.2)).Nodup ∧
    (l.offer p).cap = l.cap ∧ (l.offer p).int32 = l.int32 ∧ (l.offer p).init = l.init

/-- R281 to R286: a VDOTV whose word, terms and planes are ready leaves, in each active row, the verdict of its walk;
it clears the gate column of its courses, makes the destination verdict class, and changes nothing else in the pool
but latches. All courses end in the same step (log 7). -/
def Obligations.VerdictWalk : Prop :=
  ∀ (s : State) (d a : Reg) (e : BitVec 4) (p n : BitVec 2) (bs : List Byte),
    let x2 := s.getX (a + 2)
    let w := s.getX (a + 1)
    let k := dotWord w p n x2
    let regs := d.toNat :: s.copyReg
    let terms := (List.range k.nterm).map fun i => BitVec.ofNat 32 (leOfBytes ((bs.drop (4 * i)).take 4))
    let theta := FFmt.f.decode (if p = 1 then ordDecode (ordScore false (s.core.lists[k.list].theta)) else x2.toNat % 2 ^ 32)
    s.vecReady { pred := true, copy := true, rsv := p == 3 || (p != 1 && n != 0) || decide (30 ≤ a.toNat), ewOk := e == 4,
                 vregs := [d.toNat], width := 32 } regs [] = true →
    s.hart.walk = none → s.hart.replaying = false → (p = 1 → x2 = 0) → dotBad s.core w k x2 = false →
    k.boff + 4 + (1 + k.np) * (k.dim / 8) ≤ s.core.sb →
    (p = 1 → s.core.lists[k.list].busy = false ∧ s.core.lists[k.list].merged = false ∧ s.core.lists[k.list].err = none ∧
      HwUnit.list k.list ∉ s.core.flaws) →
    (∀ c : Fin 8, HwUnit.terms c ∉ s.core.flaws) →
    s.readsRange { kind := .load, source := 1, align := 4 } (s.getX a).toNat (4 * k.nterm) 0 = some bs →
    (∀ t ∈ terms, termBad k t = false) → termsOrdered terms = true → k.wait = false → s.boundDelivery = false →
    (∀ j ∈ s.active, courseOfRow (s.coreRow j) ∈ s.core.coursesOf s.cur.who.hartIx.val) →
    Retires (.vdotv d a e p n) s fun u =>
      (∀ j ∈ s.active, ∀ r ∈ regs,
        u.elem r 32 j =
          (walkRow k regs theta s.hart.vtestint.toNat s.core 0 terms (dotStart k regs s.core (s.row j))).get
            (s.core.vcol r) 32) ∧
      (∀ m col : Nat, 0 < col → col < 1024 →
        ((s.destCols d.toNat 32).getLsbD col = false ∨ m ∉ s.active.map s.coreRow) →
        (u.core.row m).bit col = (s.core.row m).bit col) ∧
      (∀ c ∈ s.core.coursesOf s.cur.who.hartIx.val, ∀ m : Nat, 8192 * c ≤ m → m < 8192 * c + 8192 →
        (u.core.row m).bit 0 = false) ∧
      (∀ r ∈ regs, r < 32 → u.hart.vcBit r = true) ∧ u.hart.walk = none ∧ u.th = s.th ∧ OnlyPoolAndTraces s u

/-- R95, R103, R180, R181: a copy whose descriptor, locators, barrier object and pages pass every check is outstanding
on its tag, which is BUSY: no byte has moved. The landed bits of a destination register's slices are cleared. A
malformed descriptor is COPYDESC; a busy tag waits. R182, R103: a gathering copy issues one row per active row, at
x[a] + index × stride, when every row's pages pass. -/
def Obligations.CopyIssue : Prop :=
  -- copy issue
  (∀ (s s1 s2 s3 : State) (d a n : Reg) (t : BitVec 6) (P S m : BitVec 1) (mb : Option Mbar) (ps pd : PageMap),
     s.isStream = false → s.pfx = none →
     let w := (s.getX n).toNat
     let next := s.getX (n + 1)
     let count := bitsOf w 0 31
     let mbp := bitOf w 37
     let src : End := if S = 1 then .pool (s.getX a) else .mem (s.getX a).toNat
     let dst : End := if P = 1 then .pool (s.getX d) else .mem (s.getX d).toNat
     ∀ p ∈ ([(.cpy d a n t P S m, .cpy), (.cpym d a n t P S m, .cpym), (.cpyr d a n t P S m, .cpyr)] :
         List (Instr × CopyKind)),
       copyRegsBeyond (p.2 == .cpym) n m = false →
       (s.core.tagBusy t.toNat = true → exec p.1 s = .next s.sleepHere) ∧
       (s.core.tagBusy t.toNat = false →
         let malformed := bitsOf w 38 26 ≠ 0 ∨ bitOf w 31 = true ∨ (bitOf w 36 = true ∧ p.2 ≠ .cpyr) ∨
           countOk p.2 count = false ∨ (mbp = true ∧ m = 0) ∨
           (p.2 = .cpym ∧ (P = 0 ∨ bitsOf next.toNat 48 16 ≠ 0))
         (malformed → Traps p.1 s { cause := 0xB3 }) ∧
         (¬ malformed → 0 < count → endOk s.core p.2 src count = true → endOk s.core p.2 dst count = true →
           let dests := if p.2 = .cpym then maskCores s.dieNo.val next else [s.cur.core.val]
           (p.2 = .cpym → 1 ≤ dests.length ∧ dests.length ≤ 16 ∧ ∀ i ∈ dests, s.sameGang i = true) →
           s.copyMbarTo (m == 1) mbp 6 (if p.2 = .cpym then n + 2 else n + 1) = some (mb, s1) →
           s1.endPagesTo { kind := .load, source := 6, device := p.2 == .cpy, align := if p.2 = .cpyr then 4 else 1 }
             src count = some (ps, s2) →
           s2.endPagesTo { kind := if p.2 = .cpyr then .atomic else .store, source := 6, device := p.2 == .cpy,
                           align := if p.2 = .cpyr then 4 else 1 } dst count = some (pd, s3) →
           Retires p.1 s fun u =>
             u.core.ops = s.core.ops ++ [
               { id := s.core.nextOp, home := s.cur.core.val, by_ := s.cur.who, ctxid := rootCtxid s.core.ptroot,
                 pages := ps ++ pd ++ mbarPages mb, past := s.forkPast (BitVec.ofNat 4 (bitsOf w 32 4)),
                 kind := .copy p.2 t.toNat s.cur.who.hartIx src dst count (bitOf w 36) mb dests none }] ∧
             u.core.tagBusy t.toNat = true ∧ u.core.tagFailed t.toNat = false ∧
             (∀ k : Nat, k < 64 → k ≠ t.toNat → u.core.tagBusy k = s.core.tagBusy k ∧
               u.core.tagFailed k = s.core.tagFailed k) ∧
             u.core.rows = s.core.rows ∧ u.mem = s.mem ∧ u.th = s.th ∧
             (∀ l : Word, dst = .pool l → locView l = 2 → ∀ c ∈ dests, c < 192 → ∀ r ∈ locRows l count, r / 2048 < 32 →
               ((u.cores[coreIx c].harts[s.cur.who.hartIx]).landed[(regIx (locReg l)).val]).getLsbD (r / 2048) = false) ∧
             (∀ l : Word, dst = .pool l → locView l = 2 → s.predicated = false → s.hart.vl.toNat = s.core.vlmax →
               ∀ c ∈ dests, c < 192 → (u.cores[coreIx c].harts[s.cur.who.hartIx]).vcBit (locReg l) = false)))) ∧
  -- gathering copy issue
  (∀ (s s1 s2 : State) (d a imm : Reg) (t : BitVec 6) (w m : BitVec 1) (mb : Option Mbar) (pages : PageMap),
     let word := (s.getX (a + 1)).toNat
     let l := s.getX d
     let mbp := bitOf word 52
     let iw := if w = 0 then 32 else 64
     let rlen := if locView l = 2 then locBytes l else locRlen l
     let rows := s.accessRows.map fun j =>
       (j, ((s.getX a).toNat + s.elem imm.toNat iw j * bitsOf word 0 48) % 2 ^ 64)
     s.vecReady { pred := true, rsv := copyRegsBeyond true a m, vregs := [imm.toNat], vreads := [imm.toNat], width := iw }
       [imm.toNat] [(imm.toNat, .int iw)] = true →
     (s.core.tagBusy t.toNat = true → exec (.cpyg d a imm t w m) s = .next s.sleepHere) ∧
     (s.core.tagBusy t.toNat = false →
     ((bitsOf word 53 11 ≠ 0 ∨ (mbp = true ∧ m = 0)) → Traps (.cpyg d a imm t w m) s { cause := 0xB3 }) ∧
     (bitsOf word 53 11 = 0 → (mbp = true → m = 1) → locForm l = true → locRegs s.core l = true →
       copygRange l s.active s.core = true → s.copyMbarTo (m == 1) mbp 5 (a + 2) = some (mb, s1) →
       s1.rangesTo { kind := .load, source := 5 } rlen (rows.map (·.2)) = some (pages, s2) → rows ≠ [] →
       Retires (.cpyg d a imm t w m) s fun u =>
         u.core.ops = s.core.ops ++ [{ id := s.core.nextOp, home := s.cur.core.val, by_ := s.cur.who, ctxid := rootCtxid s.core.ptroot,
                                       pages := pages ++ mbarPages mb,
                                       past := (s.observe [imm.toNat]).forkPast (BitVec.ofNat 4 (bitsOf word 48 4)),
                                       kind := .copyg t.toNat s.cur.who.hartIx l rlen rows mb }] ∧
         u.core.tagBusy t.toNat = true ∧ u.core.tagFailed t.toNat = false ∧ u.core.rows = s.core.rows ∧ u.mem = s.mem ∧
         u.th = s.th ∧
         (locView l = 2 → ∀ q ∈ rows, (locRow0 l + q.1) / 2048 < 32 →
           (u.hart.landed[(regIx (locReg l)).val]).getLsbD ((locRow0 l + q.1) / 2048) = false))))

/-- R99, R183: what the tag instructions return and change. TWAITANY and TWAITALL wait while no tag, or not every tag,
of their mask is done; those that observe a tag are acquires. R184: WAITC completes once the hart's outstanding gathers,
copies and slab operations are within its limits, and waits until then; a limit of 0 observes them, as an acquire does, and
no other limit does; a slab limit of 0 raises a held slab error. The number of stores not yet performed, which WAITC also
compares with a limit, is always 0 in the model (log 8, DESIGN CHOICE); and that TFFR of a failed tag is an acquire is the
model's (log 39). -/
def Obligations.TagsAndCounts : Prop :=
  -- tag instructions
  (∀ (s : State) (d a : Reg), s.isStream = false → s.pfx = none →
     let x := s.getX a
     let done := tagList (s.core.ctag &&& x)
     let n := x.toNat % 64
     let tag := s.core.tags[tagIx n]
     let acq := s.sdcInvalidate.orderAll
     (x = 0 → exec (.twaitany d a) s = .next (s.setX d 64).retire) ∧
     (x ≠ 0 → done = [] → exec (.twaitany d a) s = .next s.fallAsleep) ∧
     (x ≠ 0 → done ≠ [] → exec (.twaitany d a) s = .next (acq.setX d (BitVec.ofNat 64 (done.headD 0))).retire) ∧
     (s.core.ctag &&& x = x → exec (.twaitall d a) s = .next ((if x = 0 then s else acq).setX d (s.core.cterr &&& x)).retire) ∧
     (s.core.ctag &&& x ≠ x → exec (.twaitall d a) s = .next s.fallAsleep) ∧
     exec (.tffr d a) s = .next (
       if s.core.tagFailed n then acq.setX d (BitVec.ofNat 64 (tag.cause.toNat * 2 ^ 56 + tag.addr.toNat % 2 ^ 56))
       else s.setX d 0).retire ∧
     exec (.tpln d a) s = .next ((if tag.planes = 0 then s else acq).setX d (BitVec.ofNat 64 tag.planes)).retire ∧
     (Retires (.tclr a) s fun u =>
       (∀ k : Nat, k < 64 →
         u.core.tagBusy k = s.core.tagBusy k ∧
         u.core.tagFailed k = (s.core.tagFailed k && !(bitOf x.toNat k && !s.core.tagBusy k))) ∧
       OnlyCore s u ∧ u.core = { s.core with ctag := u.core.ctag, cterr := u.core.cterr, tags := u.core.tags })) ∧
  -- wait for counts
  (∀ (s : State) (l sf : BitVec 4) (c : BitVec 6) (t : BitVec 2) (h : Fin 8), s.cur.who = .hart h → s.pfx = none →
     let mine := fun (p : EngineOp → Bool) => (s.core.ops.filter fun o => o.by_ == .hart h && p o).length
     let met := (l = 15 ∨ mine EngineOp.isLoad ≤ l.toNat) ∧ (c = 63 ∨ mine EngineOp.isCopy ≤ c.toNat) ∧
       (t = 3 ∨ mine EngineOp.isSlab ≤ t.toNat)
     (¬ met → exec (.waitc l sf c t) s = .next s.sleepHere) ∧
     (met → (t ≠ 0 ∨ s.hart.held = none) →
       exec (.waitc l sf c t) s = .next (if l = 0 ∨ c = 0 ∨ t = 0 then s.sdcInvalidate.orderAll else s).retire) ∧
     (met → t = 0 → ∀ e : HeldError, s.hart.held = some e →
       exec (.waitc l sf c t) s =
         .next ((s.modHart fun k => { k with held := none }).take { cause := e.cause, faddr := e.faddr })))

/-- R88, R187: KVST encodes the tokens of its sources and stores a value page, then the key page's body, then its
header; x[d] is the status word and the flags are those of the encoding. An image that does not fit is NOFIT in x[d],
or, for KVST.T, KVNOFIT; either stores nothing. Like every writer it comes after all the hart's earlier accesses (R191).
R92, R93: KVFOLD merges neighbours that are similar in a page that one
sequence owns and rewrites the page; a page that is shared or being copied is left with status 4, and one where
nothing merges with status 0. In which cycle the atomic on REFC reaches its unit is the model's (log 104). -/
def Obligations.KeyValueStoreAndFold : Prop :=
  -- key value store
  (∀ (s s1 s2 : State) (d a : Reg) (oc : BitVec 4) (r : KvReq) (ps : PageMap) (ks vs : List FVal),
     s.isStream = false → s.pfx = none → s.orderAll.finds (readReq .st a) = some (r, s1) → s1.finds (kvPhaseSt r) = some (ps, s2) →
     s2.finds (kvSource r ps r.ksrc (r.nt * r.d)) = some (ks, s2) →
     s2.finds (kvSource r ps r.vsrc (r.nt * r.d)) = some (vs, s2) →
     let es := (chunk r.d ks r.nt).map (kvEncode r.trunc)
     let vals := (chunk r.d vs r.nt).map (valueTok r.d r.split)
     let bytes := vals.flatMap (·.1)
     let g : KvImage := { d := r.d, t := r.trunc, cap := r.cap, chop := false, swtag := 0, refc := 1, toks := es.map (·.1) }
     let seqv := leOfBytes (ps.read s2.mem (r.kslot + 24) 8)
     let stored := ((s2.storeMapped ps r.vpage (bytes ++ List.replicate (68 * r.d - bytes.length) 0)).storeMapped ps
       (r.kslot + 64) g.body).storeMapped ps r.kslot (g.header seqv)
     let flags := es.foldl (fun a e => a ||| e.2) 0 ||| vals.foldl (fun a v => a ||| v.2) 0
     (g.fits = true → ∀ i ∈ ([.kvst d a oc, .kvstT d a oc] : List Instr),
       exec i s = .next ((stored.orFlags flags).setX d (g.word 0)).retire) ∧
     (g.fits = false →
       exec (.kvst d a oc) s = .next (s2.setX d (BitVec.ofNat 64 (2 * 2 ^ 56))).retire ∧
       exec (.kvstT d a oc) s = .next (s2.take { cause := 0xA0 }))) ∧
  -- key value fold
  (∀ (s s1 s2 : State) (d a : Reg) (oc : BitVec 4) (r : KvReq) (ps : PageMap) (h : KvHeader) (first : FoldTok)
     (rest : List FoldTok),
     s.isStream = false → s.pfx = none → s.orderAll.finds (readReq .fold a) = some (r, s1) →
     s1.finds (kvPhaseFold r) = some ((ps, h), s2) →
     let s3 := (s2.reachUnit s2.ownPlace).sdcInvalidate.orderAll
     let refc := refcOf (leOfBytes (ps.read s2.mem (r.kslot + 48) 4))
     let page := ps.read s2.mem r.kslot h.plen
     let vals := ps.read s2.mem r.vpage (h.ntok * vtok r.d)
     let toks : List FoldTok := (List.range h.ntok).map fun k =>
       { m := max 1 (keyTok page h k).mult, key := keyTok page h k, vals := (vals.drop (k * vtok r.d)).take (vtok r.d), flags := 0 }
     let f := foldToks s.hart.kvfthr.toNat r.d h.t first rest
     let g : KvImage :=
       { d := r.d, t := h.t, cap := h.cap, chop := h.chop, swtag := h.swtag, refc := msgField page 48 4,
         toks := f.1.map fun k => { k.key with mult := k.m } }
     let bytes := f.1.flatMap (·.vals)
     let z := ((s3.storeMapped ps r.vpage (bytes ++ List.replicate (68 * r.d - bytes.length) 0)).storeMapped ps
       (r.kslot + 64) g.body).storeMapped ps r.kslot (g.header (msgField page 24 8))
     ∀ i ∈ ([.kvfold d a oc, .kvfoldT d a oc] : List Instr),
       ((refc.1 ≠ 1 ∨ refc.2 ≠ 0) → exec i s = .next (s3.setX d (BitVec.ofNat 64 (4 * 2 ^ 56))).retire) ∧
       (refc = (1, 0) → (toks = [] ∨ (toks = first :: rest ∧ f.2 = false)) → exec i s = .next (s3.setX d 0).retire) ∧
       (refc = (1, 0) → toks = first :: rest → f.2 = true → g.fits = false →
         (i = .kvfold d a oc → exec i s = .next (s3.setX d (BitVec.ofNat 64 (2 * 2 ^ 56))).retire) ∧
         (i = .kvfoldT d a oc → exec i s = .next (s3.take { cause := 0xA0 }))) ∧
       (refc = (1, 0) → toks = first :: rest → f.2 = true → g.fits = true →
         exec i s = .next ((z.orFlags (f.1.foldl (fun a k => a ||| k.flags) 0)).setX d (g.word 0)).retire))

/-- R89, R187: KVAPP on a page that one sequence owns appends the token in place; a full page, a page that another
hart has changed, and a copy in progress end without a store: status 3, status 5, a wait. R89 to R91: KVAPP on a
shared page leaves it: COUNT falls by 1 and the page, with the token appended, is written to the spare slot and the
spare value page; COPIERS is 1 higher only in between, and a copy that does not fit puts COUNT and COPIERS back. The atomic
on REFC is an acquire (R89, R52); in which cycle it reaches its unit is the model's (log 104). -/
def Obligations.KeyValueAppend : Prop :=
  -- key value append in place
  (∀ (s s1 s2 : State) (d a : Reg) (oc : BitVec 4) (r : KvReq) (ps : PageMap) (h : KvHeader)
     (new : KeyTok × List Byte × BitVec 5),
     s.isStream = false → s.pfx = none → s.orderAll.finds (readReq .app a) = some (r, s1) →
     s1.finds (kvPhaseApp r) = some ((ps, h), s2) →
     -- the atomic on REFC is an acquire
     let s3 := (s2.reachUnit s2.ownPlace).sdcInvalidate.orderAll
     let refc := refcOf (leOfBytes (ps.read s2.mem (r.kslot + 48) 4))
     let page := ps.read s2.mem r.kslot h.plen
     let g : KvImage :=
       { d := r.d, t := h.t, cap := h.cap, chop := h.chop, swtag := h.swtag, refc := msgField page 48 4,
         toks := (List.range r.nt).map (keyTok page h) ++ [new.1] }
     ∀ i ∈ ([.kvapp d a oc, .kvappT d a oc] : List Instr),
       (r.nt = 64 → exec i s = .next (s2.setX d (BitVec.ofNat 64 (3 * 2 ^ 56))).retire) ∧
       (r.nt < 64 → h.ntok < r.nt → exec i s = .next (s2.setX d (BitVec.ofNat 64 (5 * 2 ^ 56))).retire) ∧
       (r.nt < 64 → r.nt ≤ h.ntok → refc.1 ≤ 1 → refc.2 ≠ 0 →
         exec i s = .next (s3.modHart fun k => { k with wait := .kvapp }).fallAsleep) ∧
       (r.nt < 64 → r.nt < h.ntok → refc.1 ≤ 1 → refc.2 = 0 →
         exec i s = .next (s3.setX d (BitVec.ofNat 64 (5 * 2 ^ 56))).retire) ∧
       (r.nt < 64 → r.nt = h.ntok → refc.1 ≤ 1 → refc.2 = 0 → s3.finds (kvNew r ps h.t) = some (new, s3) →
         g.fits = false →
         (i = .kvapp d a oc → exec i s = .next (s3.setX d (BitVec.ofNat 64 (2 * 2 ^ 56))).retire) ∧
         (i = .kvappT d a oc → exec i s = .next (s3.take { cause := 0xA0 }))) ∧
       (r.nt < 64 → r.nt = h.ntok → refc.1 ≤ 1 → refc.2 = 0 → s3.finds (kvNew r ps h.t) = some (new, s3) →
         g.fits = true →
         exec i s = .next (((((s3.storeMapped ps (r.vpage + r.nt * vtok r.d) new.2.1).storeMapped ps (r.kslot + 64) g.body
           ).storeMapped ps r.kslot (g.header (msgField page 24 8))).orFlags new.2.2).setX d (g.word 0)).retire)) ∧
  -- key value append by copy
  (∀ (s s1 s2 : State) (d a : Reg) (oc : BitVec 4) (r : KvReq) (ps : PageMap) (h : KvHeader)
     (new : KeyTok × List Byte × BitVec 5),
     s.isStream = false → s.pfx = none → s.bad = [] → s.orderAll.finds (readReq .app a) = some (r, s1) →
     s1.finds (kvPhaseApp r) = some ((ps, h), s2) → r.nt < 64 → r.nt ≤ h.ntok →
     1 < (refcOf (leOfBytes (ps.read s2.mem (r.kslot + 48) 4))).1 →
     let t := (s2.reachUnit s2.ownPlace).sdcInvalidate.orderAll.writeRefc ps r.kslot fun p => (p.1 - 1, p.2 + 1)
     let page := ps.read t.mem r.kslot h.plen
     let n := r.nt * vtok r.d
     t.finds (kvNew r ps h.t) = some (new, t) →
     let g : KvImage :=
       { d := r.d, t := h.t, cap := r.spcap, chop := h.chop, swtag := h.swtag, refc := 1,
         toks := (List.range r.nt).map (keyTok page h) ++ [new.1] }
     let u := (t.storeMapped ps r.spv (ps.read t.mem r.vpage n)).writeRefc ps r.kslot fun p => (p.1, p.2 + 65535)
     let seqv := leOfBytes (ps.read u.mem (r.spk + 24) 8)
     let z := ((u.storeMapped ps (r.spv + n) (new.2.1 ++ List.replicate (68 * r.d - n - vtok r.d) 0)).storeMapped ps
       (r.spk + 64) g.body).storeMapped ps r.spk (g.header seqv)
     let back := t.writeRefc ps r.kslot fun p => (p.1 + 1, p.2 + 65535)
     (g.fits = true → ∀ i ∈ ([.kvapp d a oc, .kvappT d a oc] : List Instr),
       exec i s = .next ((z.orFlags new.2.2).setX d (g.word 1)).retire) ∧
     (g.fits = false →
       exec (.kvapp d a oc) s = .next (back.setX d (BitVec.ofNat 64 (2 * 2 ^ 56))).retire ∧
       exec (.kvappT d a oc) s = .next (back.take { cause := 0xA0 })))

/-- R295, R296: FORK starts a stream at x[d], with x1 the argument and nothing bound, and makes its hart the partner;
with a stream running it raises SLSTATE. On a hart the instructions that only the stream may issue raise SLSTATE.
R296: on the stream an instruction that is for harts alone raises SLSTATE. Some of each family that names no vector
register. R295: RDV completes on both sides once each has reached it and the earlier slab operations of each are over,
and is an acquire on both; the side that comes first waits at its RDV. RDV.END ends the stream at the meeting. That a waiting side
sleeps until something else has moved is the model's choice (log 5). -/
def Obligations.SlabStreams : Prop :=
  -- stream start
  (∀ (s : State) (h : Fin 8) (d a : Reg), s.cur.who = .hart h → s.pfx = none →
     (s.core.stream.running = true → Traps (.fork d a) s { cause := 0x93 }) ∧
     (s.core.stream.running = false →
       Retires (.fork d a) s fun u =>
         u.core.stream.running = true ∧ u.core.stream.partner = h ∧ u.core.stream.th.pc = s.getX d ∧
         (∀ r : Reg, u.core.stream.th.get r = if r = 1 then s.getX a else 0) ∧
         u.core.stream.th.frm = 0 ∧ u.core.stream.th.fflags = 0 ∧ u.core.stream.held = none ∧
         u.core.binds = Vector.replicate 4 none ∧ OnlyCore s u ∧
         u.core = { s.core with binds := u.core.binds, stream := u.core.stream }) ∧
     (s.core.acol ≠ 0 → firstOfThreeBad d = false →
       ∀ i ∈ ([.rdvEnd, .sbind a 0 0, .sldb a 0 0, .sldbg a d 0 0, .stile d 0, .smma a d, .miter d a 0 0 0 0, .mpoly a 0,
           .scoef a 0] : List Instr),
         Traps i s { cause := 0x93 })) ∧
  -- stream refusals
  (∀ (s : State) (d a : Reg) (v : BitVec 10), s.cur.who = .stream →
     ∀ i ∈ ([.bmany 0 0, .bmnone 0 0, .bmall 0 0, .bmnall 0 0, .smbsReg 0 a, .smbsImm 0 0, .setvl d a, .tclr a,
         .twaitany d a, .waitc 0 0 0 0, .fork d a, .eret, .endHart, .svc v] : List Instr),
       Traps i s { cause := 0x93 }) ∧
  -- stream meeting, at the hart
  (∀ (s : State) (h : Fin 8), s.cur.who = .hart h → s.pfx = none →
     (s.hart.wait = .departed → exec .rdv s = .next s.sdcInvalidate.orderAll.retire) ∧
     (s.hart.wait ≠ .departed →
       ((s.core.stream.running = false ∨ s.core.stream.partner ≠ h) → Traps .rdv s { cause := 0x93 }) ∧
       (s.core.stream.running = true → s.core.stream.partner = h →
         (s.slabBusy = true → exec .rdv s = .next s.sleepHere) ∧
         (s.slabBusy = false → ∀ e : HeldError, s.hart.held = some e →
           exec .rdv s = .next ((s.modHart fun k => { k with held := none }).take { cause := e.cause, faddr := e.faddr })) ∧
         (s.slabBusy = false → s.hart.held = none →
           (s.core.stream.rdv = none →
             exec .rdv s = .next (s.modHart fun k => { k with wait := .rdv }).fallAsleep) ∧
           (∀ last : Bool, s.core.stream.rdv = some last →
             Retires .rdv s fun u =>
               u.acquired ∧ (∀ p ∈ u.core.past, p.who ≠ .stream) ∧ OnlyCore s u ∧
               u.core = { s.core with sdc := [], past := u.core.past, lates := u.core.lates, stream := u.core.stream } ∧
               u.core.stream = (if last then { s.core.stream with rdv := none, sleep := none, running := false, ended := true }
                 else { s.core.stream with
                   rdv := none, sleep := none, th := { s.core.stream.th with pc := s.core.stream.th.pc + 4 } })))))) ∧
  -- stream meeting, at the stream
  (∀ s : State, s.cur.who = .stream →
     ∀ p ∈ ([(.rdv, false), (.rdvEnd, true)] : List (Instr × Bool)),
       let k := s.core.stream.partner
       (s.slabBusy = true → exec p.1 s = .next s.sleepHere) ∧
       (s.slabBusy = false → ∀ e : HeldError, s.core.stream.held = some e →
         exec p.1 s = .next ((s.modCore fun c => { c with stream := { c.stream with held := none } }).take
           { cause := e.cause, faddr := e.faddr })) ∧
       (s.slabBusy = false → s.core.stream.held = none →
         (s.core.harts[k].wait = .rdv → s.core.harts[k].st = .running →
           Retires p.1 s fun u =>
             u.acquired ∧ OnlyCore s u ∧
             u.core = { s.core with sdc := [], past := u.core.past, lates := u.core.lates, stream := u.core.stream
                                    harts := s.core.harts.set k { s.core.harts[k] with wait := .departed } } ∧
             u.core.stream = (if p.2 then { s.core.stream with running := false, ended := true } else s.core.stream)) ∧
         (¬ (s.core.harts[k].wait = .rdv ∧ s.core.harts[k].st = .running) →
           exec p.1 s = .next (s.modCore fun c => { c with stream := { c.stream with rdv := some p.2 } }).fallAsleep)))

/-- R306, R311, R319: STILE grants sizes of at most 128, 128 and 256 (128 for W8), and SCOEF sets a coefficient; a
held error is raised before any effect, and STILE first takes a pending pre-emption request. R300: SBIND reads a
record of 32 bytes and binds it with its cursor at (0, 0); a record outside its ranges is SLARG and leaves the
binding. R302 to R305: SLDB and SLDBG check every byte they will read and leave the buffer loading; a descriptor
outside its ranges is SLARG. -/
def Obligations.SlabPreparation : Prop :=
  -- tile sizes and coefficients
  (∀ (s : State) (d a : Reg) (w : BitVec 1) (k : BitVec 3), s.isStream = true → firstOfThreeBad d = false →
     let sizes := ((s.setX d (BitVec.ofNat 64 (min (s.getX d).toNat 128))).setX (d + 1)
       (BitVec.ofNat 64 (min (s.getX (d + 1)).toNat 128))).setX (d + 2)
       (BitVec.ofNat 64 (min (s.getX (d + 2)).toNat (if w = 1 then 128 else 256)))
     (s.core.preempt = true → Traps (.stile d w) s { cause := 0x10 }) ∧
     (s.core.stream.held = none →
       (s.core.preempt = false → exec (.stile d w) s = .next sizes.retire) ∧
       exec (.scoef a k) s =
         .next (s.modCore fun c => { c with coef := c.coef.set k.toNat ((s.getX a).setWidth 32) }).retire) ∧
     (∀ e : HeldError, s.core.stream.held = some e →
       let clear := s.modCore fun c => { c with stream := { c.stream with held := none } }
       let t := clear.take { cause := e.cause, faddr := e.faddr }
       (s.core.preempt = false → exec (.stile d w) s = .next t) ∧ exec (.scoef a k) s = .next t ∧
       (∀ c n, exec (.sbind a c n) s = .next t) ∧ ∀ c x, exec (.sldb a c x) s = .next t)) ∧
  -- stream bindings
  (∀ (s s1 : State) (a : Reg) (c : BitVec 4) (n : BitVec 2) (bs : List Byte), s.isStream = true →
     s.core.stream.held = none →
     s.readsRangeTo { kind := .load, source := 7, align := 8 } (s.getX a).toNat 32 c = some (bs, s1) →
     let f := fun (o k : Nat) => leOfBytes ((bs.drop o).take k)
     let flags := f 0x1D 1
     let misc := f 0x1E 1
     let good := f 0x1F 1 = 0 ∧ bitOf misc 3 = false ∧ flags < 8 ∧ f 0x1C 1 ∈ [0, 1, 2, 12, 13, 15] ∧
       1 ≤ f 0x14 4 ∧ f 0x14 4 ≤ 2 ^ 31 ∧ 1 ≤ f 0x18 4 ∧ f 0x18 4 ≤ 2 ^ 31 ∧ (f 8 8 ≠ 0 → f 0x1C 1 = 15) ∧
       (bitOf flags 0 = true → f 0 8 < 2 ^ 40)
     (¬ good → exec (.sbind a c n) s = .next (s1.take { cause := 0x92 })) ∧
     (good →
       let b : Binding :=
         { base := f 0 8, scale := f 8 8, stride := f 0x10 4, mlen := f 0x14 4, klen := f 0x18 4,
           fmt := { code := BitVec.ofNat 4 (f 0x1C 1), tb8 := bitOf flags 2 }, pool := bitOf flags 0,
           mFirst := bitOf flags 1, split := if misc % 8 = 0 then 3 else misc % 8, oc := BitVec.ofNat 4 (misc / 16),
           row := 0, col := 0 }
       exec (.sbind a c n) s = .next (s1.modCore fun k => { k with binds := k.binds.set n.toNat (some b) }).retire)) ∧
  -- buffer loads
  (∀ (s s1 s2 s3 : State) (a b : Reg) (c : BitVec 4) (x : BitVec 1) (bs ix : List Byte) (pages : PageMap),
     s.isStream = true → s.core.stream.held = none →
     s.readsRangeTo { kind := .load, source := 7, align := 8 } (s.getX a).toNat 32 c = some (bs, s1) →
     let f := fun (o k : Nat) => leOfBytes ((bs.drop o).take k)
     let base := f 0 8
     let ld := f 8 4
     let K := f 0xC 2
     let N := f 0xE 1 + 1
     let code := f 0xF 1
     let flags := f 0x10 1
     let spmc := f 0x11 1
     let spn := f 0x12 1
     let fmt : Fmt := { code := BitVec.ofNat 4 code, tb8 := bitOf flags 1 }
     let pool := bitOf flags 0
     let common := f 0x15 8 = 0 ∧ f 0x1D 3 = 0 ∧ flags < 4 ∧ f 0xE 1 < 128 ∧ 1 ≤ K ∧
       K ≤ (if code = 2 ∨ (code = 15 ∧ bitOf flags 1 = true) then 128 else 256) ∧ (pool = true → base < 2 ^ 40)
     let good := common ∧ code ∈ [0, 1, 2, 15] ∧ f 0x13 2 = 0 ∧
       ((spmc = 0 ∧ spn = 0) ∨ (1 ≤ spmc ∧ spmc ≤ 4 ∧ 1 ≤ spn ∧ spn ≤ 2 ^ (spmc + 1)))
     let goodG := common ∧ code = 15 ∧ spmc = 0 ∧ spn = 0 ∧ f 0x13 1 ≤ 7 ∧ 12 ≤ f 0x14 1 ∧ f 0x14 1 ≤ 15
     let issued := fun (i : Instr) (g : Option (BitVec 4)) (idx : List Nat) (split : Nat) => Retires i s fun u =>
       u.core.bb = s.core.bb.set x.toNat (.loading s.core.nextOp) ∧
       u.core.ops = s.core.ops ++ [
         { id := s.core.nextOp, home := s.cur.core.val, by_ := .stream, ctxid := rootCtxid s.core.ptroot, pages := pages,
           past := s.forkPast c,
           kind := .bload x.toNat fmt K N ld spmc spn split base pool g idx }] ∧
       u.mem = s.mem ∧ u.th = s.th ∧ u.core.rows = s.core.rows ∧ u.core.binds = s.core.binds
     (¬ good → exec (.sldb a c x) s = .next (s1.take { cause := 0x92 })) ∧
     (¬ goodG → exec (.sldbg a b c x) s = .next (s1.take { cause := 0x92 })) ∧
     (good → s1.finds (checkSegments pool (loadSegments fmt K N ld spmc spn base none [])) = some (pages, s2) →
       issued (.sldb a c x) none [] 3) ∧
     (goodG → s1.readsRangeTo { kind := .load, source := 7, align := 4 } (s.getX b).toNat (4 * K) c = some (ix, s2) →
       let idx := (List.range K).map fun i => leOfBytes ((ix.drop (4 * i)).take 4)
       let stype := BitVec.ofNat 4 (f 0x14 1)
       s2.finds (checkSegments pool (loadSegments fmt K N ld spmc spn base (some stype) idx)) = some (pages, s3) →
       issued (.sldbg a b c x) (some stype) idx (if f 0x13 1 = 0 then 3 else f 0x13 1)))

/-- R301, R305, R307: SMMA makes its checks in order; then the product is outstanding and the binding's cursor
advances. A size of 0 leaves it without effect, and a loading buffer is waited for. R309, R310: SZERO sets the mode of
its tile and issues the clearing; SDRAIN into the scratch issues the transfer of the drain word's elements, and a
drain word outside its ranges is SLARG or POOLRANGE. R310: SDRAIN into a vector register gives each active row that
lies in the tile's rows its element of the tile, converted, and leaves the other rows. -/
def Obligations.SlabProductsAndTiles : Prop :=
  -- matrix products
  (∀ (s s1 : State) (a b : Reg) (pages : PageMap), s.isStream = true → s.core.acol ≠ 0 → firstOfThreeBad b = false →
     let w := (s.getX a).toNat
     let mt := (s.getX b).toNat
     let nt := (s.getX (b + 1)).toNat
     let kt := (s.getX (b + 2)).toNat
     let buf := s.core.bb[bufIx (bitsOf w 3 1)]
     let tile := bitsOf w 0 3
     let bn := bitsOf w 5 2
     let kblk := bitsOf w 7 3
     let i : Instr := .smma a b
     ((mt = 0 ∨ nt = 0 ∨ kt = 0) → exec i s = .next s.retire) ∧
     (mt ≠ 0 → nt ≠ 0 → kt ≠ 0 → s.core.stream.held = none →
       ((bitsOf w 19 45 ≠ 0 ∨ bitOf w 4 = true) → Traps i s { cause := 0x92 }) ∧
       (bitsOf w 19 45 = 0 → bitOf w 4 = false →
         (buf = .empty → Traps i s { cause := 0x92 }) ∧
         (∀ op : Nat, buf = .loading op → exec i s = .next s.sleepHere) ∧
         (∀ d : BData, buf = .full d →
           let agree := bitsOf w 10 3 = d.spmc ∧ bitsOf w 13 6 = d.spn ∧ mt ≤ 128 ∧ nt ≤ d.n ∧ 32 * kblk + kt ≤ d.k
           (¬ agree → Traps i s { cause := 0x92 }) ∧
           (agree → s.core.binds[dieIx bn] = none → Traps i s { cause := 0x94 }) ∧
           (agree → ∀ bd : Binding, s.core.binds[dieIx bn] = some bd →
             (bd.exhausted = true → Traps i s { cause := 0x94 }) ∧
             (bd.exhausted = false →
               let types := bd.fmt.isBlock = d.fmt.isBlock ∧ s.core.tileInt.getLsbD tile = !bd.fmt.isBlock ∧
                 (bd.fmt.isBlock = true → bd.col % 32 = 0)
               (¬ types → Traps i s { cause := 0x92 }) ∧
               (types → s.finds (checkSegments bd.pool (bd.strip mt kt)) = some (pages, s1) →
                 let next : Binding :=
                   if bd.mFirst then
                     { bd with row := if bd.mlen ≤ bd.row + mt then 0 else bd.row + mt
                               col := if bd.mlen ≤ bd.row + mt then bd.col + kt else bd.col }
                   else
                     { bd with col := if bd.klen ≤ bd.col + kt then 0 else bd.col + kt
                               row := if bd.klen ≤ bd.col + kt then bd.row + mt else bd.row }
                 Retires i s fun u =>
                   u.core.ops = s.core.ops ++ [
                     { id := s.core.nextOp, home := s.cur.core.val, by_ := .stream, ctxid := rootCtxid s.core.ptroot, pages := pages,
                       past := s.forkPast bd.oc,
                       kind := .smma bd bn (bitsOf w 3 1) d tile kblk mt nt kt }] ∧
                   u.core.binds = s.core.binds.set (dieIx bn) (some next) ∧ u.core.rows = s.core.rows ∧ u.mem = s.mem ∧
                   u.th = s.th))))))) ∧
  -- tile operations
  (∀ (s : State) (a : Reg) (m : BitVec 1) (t r l : BitVec 3) (e : BitVec 4), s.pfx = none → s.core.acol ≠ 0 →
     (s.isStream = true → s.core.stream.held = none) →
     let op := fun (k : OpKind) => s.core.ops ++ [
       ({ id := s.core.nextOp, home := s.cur.core.val, by_ := s.cur.who, ctxid := rootCtxid s.core.ptroot, pages := [],
          past := if s.isStream = true then s.forkPast 0 else [], kind := k } : EngineOp)]
     let rest := fun (u : State) => OnlyCore s u ∧
       (s.isStream = false → u.ordered) ∧
       u.core = { s.core with ops := u.core.ops, nextOp := u.core.nextOp, tileInt := u.core.tileInt, past := u.core.past
                              lates := u.core.lates }
     (Retires (.szero m t) s fun u =>
       u.core.ops = op (.szero t.toNat (m == 1)) ∧
       (∀ k : Nat, k < 8 → u.core.tileInt.getLsbD k = if k = t.toNat then m == 1 else s.core.tileInt.getLsbD k) ∧
       rest u) ∧
     (let int := s.core.tileInt.getLsbD l.toNat
      let w := (s.getX a).toNat
      let off := bitsOf w 0 23
      let dld := bitsOf w 23 16
      let dm := bitsOf w 39 7 + 1
      let dn := bitsOf w 46 7 + 1
      let eb := typeWidth e / 8
      let i : Instr := .sdrainScratch a e r l
      rmReserved r = false → (int = true → r = 0) →
      (e ∉ (if int = true then [4, 2, 3] else [14, 12, 13] : List (BitVec 4)) → Traps i s { cause := 0x06 }) ∧
      (e ∈ (if int = true then [4, 2, 3] else [14, 12, 13] : List (BitVec 4)) →
        ((bitsOf w 53 11 ≠ 0 ∨ dld < dn) → Traps i s { cause := 0x92 }) ∧
        (bitsOf w 53 11 = 0 → dn ≤ dld →
          ((off % eb ≠ 0 ∨ 65536 * s.core.sb < off + ((dm - 1) * dld + dn) * eb) → Traps i s { cause := 0xB0 }) ∧
          (off % eb = 0 → off + ((dm - 1) * dld + dn) * eb ≤ 65536 * s.core.sb →
            Retires i s fun u =>
              u.core.ops = op (.sdrain l.toNat e (if r = 4 then s.th.frm.setWidth 3 else r) off dld dm dn) ∧
              u.core.tileInt = s.core.tileInt ∧ rest u))))) ∧
  -- tile to vector
  (∀ (s : State) (d : Reg) (e : BitVec 4) (r l : BitVec 3),
     let w := typeWidth e
     let wk := if e = 12 ∨ e = 13 then 32 else 0
     let int := s.core.tileInt.getLsbD l.toNat
     let t := l.toNat
     let v := fun (j : Nat) => (s.row j).get (s.core.acol0 + t / 4 * 32) 32
     let x := fun (j : Nat) => (BitVec.ofNat 32 (v j)).toInt
     let out := fun (j : Nat) =>
       if e = 12 ∨ e = 13 then (FFmt.f.convert (fmtOf e) (s.mode r) (v j)).1
       else if e = 2 ∨ e = 3 then ((min (max (x j) (-(2 ^ (w - 1)))) (2 ^ (w - 1) - 1)).emod (2 ^ w)).toNat
       else v j
     let mine := s.dueRows.filter fun j => s.coreRow j / 16384 = t % 4
     s.vecReady { rsv := rmReserved r || (int && r != 0), tile := true, vregs := [d.toNat], width := w, wk := wk,
                  ewOk := if int then e == 4 || e == 2 || e == 3 else e == 14 || e == 12 || e == 13 } [d.toNat] [] = true →
     Retires (.sdrainVreg d e r l) s fun u =>
       (∀ j ∈ s.dueRows, u.elem d.toNat w j = if j ∈ mine then out j % 2 ^ w else s.elem d.toNat w j) ∧
       RowsChanged s u s.dueRows (s.destCols d.toNat w) wk ∧ OnlyHartAndRows s u ∧
       HartAfter s u (s.vcOrdinary d.toNat)
         (orFlagsOf mine fun j => if e = 12 ∨ e = 13 then (FFmt.f.convert (fmtOf e) (s.mode r) (v j)).2 else 0))

/-- R313 to R316: MITER performs one iteration: Y goes to the other tile of the pair, SLRPREV, SLITER and CUR advance.
It ends with its status in x[d] when the residual is within SLTOL or the cap is reached (SLCAP for MITER.T), and else
goes on at the same address; a residual that is a NaN or grows too fast is SLDIVERGE. The model performs one iteration
per step (log 59). R313, R317: MPOLY evaluates the polynomial of X in tile a_g into a_g+1, with the coefficients of k0
to kJ, and leaves X, the loop registers and every scalar register. -/
def Obligations.ResidentLoops : Prop :=
  -- resident iteration
  (∀ (s : State) (d a : Reg) (t tr m g : BitVec 1), s.isStream = true → s.core.acol ≠ 0 → s.core.laidOut = true →
     s.sound = true → s.slabBusy = false → s.core.stream.held = none → s.core.preempt = false →
     (m = 1 → tr = 0) →
     let w := (s.getX a).toNat
     let n := bitsOf w 0 8
     let J := bitsOf w 8 3
     let sp := if bitsOf w 11 3 = 0 then 3 else bitsOf w 11 3
     let g4 := 4 * g.toNat
     let i : Instr := .miter d a t tr m g
     bitsOf w 14 50 = 0 → 1 ≤ n → n ≤ 128 → (if m = 1 then J ≠ 0 else J = 0) →
     (∀ k : Nat, k < 4 → s.core.tileInt.getLsbD (g4 + k) = false) →
     let act := bitOf s.core.slphase.toNat 0
     let own : BitVec 5 := BitVec.ofNat 5 (g.toNat * 16 + tr.toNat * 8 + m.toNat * 4 + 1)
     (act = true → s.core.slphase &&& 0x1C = own &&& 0x1C) → s.core.slcap ≠ 0 →
     let iter := if act then s.core.sliter.toNat else 0
     let cur := if act then bitsOf s.core.slphase.toNat 1 1 else 0
     let prev := if act then s.core.slrprev.toNat else 0x7F800000
     let x := s.core.corner (g4 + cur) n
     let r := (do
         let y ← if m = 1 then horner sp n J s.core.coefAt x else newtonSchulz sp n s.core.coefAt (tr == 1) x
         let q ← residual n x y
         pure (y, q) : Flagged (Mat × Nat)).run 0
     let res := r.1.2
     let lim := FFmt.f.mul .rne s.core.sldiv.toNat prev
     let tested := 1 ≤ iter ∧ s.core.sldiv ≠ 0
     let diverges := (FFmt.f.decode res).isNan = true ∨ (tested ∧ (FFmt.f.cmp .lt lim.1 res).1 = true)
     let near := (FFmt.f.cmp .le res s.core.sltol.toNat).1 = true
     let capped := s.core.slcap.toNat ≤ iter + 1
     let wrote := fun (u : State) =>
       (∀ p q : Nat, p < n → q < n → (u.core.readTile (g4 + 1 - cur) p q).toNat = r.1.1.at p q % 2 ^ 32) ∧
       (∀ p q : Nat, p < 128 → q < 128 → u.core.readTile (g4 + cur) p q = s.core.readTile (g4 + cur) p q) ∧
       u.th.fflags = s.th.fflags ||| r.2 ||| (if 1 ≤ iter ∧ s.core.sldiv ≠ 0 then lim.2 else 0) ∧ u.mem = s.mem ∧
       u.core.harts = s.core.harts
     let counted := fun (u : State) (active : Nat) =>
       u.core.slrprev = BitVec.ofNat 32 res ∧ u.core.sliter = BitVec.ofNat 8 (iter + 1) ∧
       u.core.slphase.toNat = g.toNat * 16 + tr.toNat * 8 + m.toNat * 4 + (1 - cur) * 2 + active
     (diverges → ∃ u : State, exec i s = .next (u.take { cause := 0x90 }) ∧ wrote u ∧ (∀ q : Reg, u.getX q = s.getX q)) ∧
     (¬ diverges → (near ∨ (capped ∧ t = 0)) →
       Retires i s fun u =>
         wrote u ∧ counted u 0 ∧
         (∀ q : Reg, q ≠ 0 → u.getX q = if q = d then
           BitVec.ofNat 64 (res % 2 ^ 32 * 2 ^ 32 + (iter + 1) % 256 * 256 + (1 - cur) * 4 + if near then 0 else 1)
           else s.getX q)) ∧
     (¬ diverges → ¬ near → capped → t = 1 →
       ∃ u : State, exec i s = .next (u.take { cause := 0x91 }) ∧ wrote u ∧ counted u 0 ∧ ∀ q : Reg, u.getX q = s.getX q) ∧
     (¬ diverges → ¬ near → ¬ capped →
       ∃ u : State, exec i s = .next (u.retireAt s.pc) ∧ wrote u ∧ counted u 1 ∧ ∀ q : Reg, u.getX q = s.getX q)) ∧
  -- resident polynomial
  (∀ (s : State) (a : Reg) (g : BitVec 1), s.isStream = true → s.core.acol ≠ 0 → s.core.laidOut = true →
     s.sound = true → s.slabBusy = false → s.core.stream.held = none →
     let w := (s.getX a).toNat
     let n := bitsOf w 0 8
     let J := bitsOf w 8 3
     let sp := if bitsOf w 11 3 = 0 then 3 else bitsOf w 11 3
     let g4 := 4 * g.toNat
     let bad := bitsOf w 14 50 ≠ 0 ∨ n = 0 ∨ 128 < n ∨ J = 0 ∨ ∃ k : Nat, k < 4 ∧ s.core.tileInt.getLsbD (g4 + k) = true
     (bad → Traps (.mpoly a g) s { cause := 0x92 }) ∧
     (¬ bad →
       let r := (horner sp n J s.core.coefAt (s.core.corner g4 n)).run 0
       Retires (.mpoly a g) s fun u =>
         (∀ p q : Nat, p < n → q < n → (u.core.readTile (g4 + 1) p q).toNat = r.1.at p q % 2 ^ 32) ∧
         (∀ p q : Nat, p < 128 → q < 128 → u.core.readTile g4 p q = s.core.readTile g4 p q) ∧
         u.th.fflags = s.th.fflags ||| r.2 ∧ (∀ q : Reg, u.getX q = s.getX q) ∧ u.mem = s.mem ∧
         u.core.slphase = s.core.slphase ∧ u.core.slrprev = s.core.slrprev ∧ u.core.sliter = s.core.sliter))

/-- R95, R100, R99: a CPY from memory to memory completes: every destination byte holds its source byte, each sector of the
source as it stands or as it stood before stores of the issuer that the copy is not ordered after (R196, R102), but that
such a store's own destination bytes may stay; every other byte of memory reads as before, the tag is DONE and the operation is gone. A failing check of a source sector leaves the tag FAILED with cause
0x7E. R178, R133: an element of a non-blocking gather arrives in its row of the destination register; the other rows
and memory stay; its slice lands when nothing outstanding has still to write it and nothing failed. R186, R104, R109: a
plane slot is delivered in every row of the delivery, and the count of planes on the tag is one more; once all NP + 1
slots are there the tag is DONE. Only bytes of this slot's place in the scratch change. That an engine moves its bytes
at its completion is the model's choice (log 6), and so is how the issuer's unordered stores are kept (log 93). -/
def Obligations.EngineArrivals : Prop :=
  -- copy completion
  (∀ (s : State) (c : Fin 192) (o : EngineOp) (tag a b n : Nat) (f : Bool) (h : Fin 8),
     let src := fun (i : Nat) => PageMap.pa o.pages (a + i)
     let dst := fun (i : Nat) => PageMap.pa o.pages (b + i)
     s.cores[c].ops.find? (·.copyOn tag c.val) = some o → tag < 64 →
     o.kind = .copy .cpy tag h (.mem a) (.mem b) n f none [c.val] none → Memory.wf s.mem = true →
     (∀ i : Nat, i < n → regionOf (src i) ≠ .regs ∧ regionOf (dst i) ≠ .regs) →
     (∀ i j : Nat, i < n → j < n → dst i = dst j → i = j) →
     ((∀ i : Nat, i < n → s.sectorBad (src i) = false) →
       Becomes (.copyComplete c.val tag c.val) s fun u =>
         (∃ (k : Nat → Nat) (kept : Bool), ∀ i : Nat, i < n → readByte u.mem (dst i) =
           if kept = true ∧ (o.past.any fun l => l.any fun e => e.1 == dst i) = true then readByte s.mem (dst i)
           else readByte (forkMemAt s.mem o.past k) (src i)) ∧
         (∀ x : Nat, (∀ i : Nat, i < n → x ≠ dst i) → readByte u.mem x = readByte s.mem x) ∧
         u.cores[c].tagBusy tag = false ∧ u.cores[c].tagFailed tag = false ∧
         (∀ p ∈ u.cores[c].ops, p ∈ s.cores[c].ops ∧ p.id ≠ o.id)) ∧
     ((∃ i : Nat, i < n ∧ s.sectorBad (src i) = true) →
       Becomes (.copyComplete c.val tag c.val) s fun u =>
         u.cores[c].tagBusy tag = false ∧ u.cores[c].tagFailed tag = true ∧ u.cores[c].tags[tagIx tag].cause = 0x7E)) ∧
  -- gather arrival
  (∀ (s : State) (c : Fin 192) (o : EngineOp) (h : Fin 8) (vd bytes row va : Nat) (rows pending : List (Nat × Nat)),
     let C := s.cores[c]
     let n := C.row0 h.val + row
     let slice : SliceRef := { core := c.val, hart := h, reg := vd, slice := row / 2048 }
     C.ops.find? (fun p => p.id == o.id) = some o → o.kind = .gather h vd none bytes rows pending →
     pending.find? (·.1 == row) = some (row, va) → C.laidOut = true → vd < C.nv → 8 * bytes ≤ C.fw → (C.row n).chk = 0 →
     s.bad = [] →
     Becomes (.gatherElementArrive c.val o.id row) s fun u =>
       (∃ k : Nat → Nat, (u.cores[c].row n).get (C.vcol vd) (8 * bytes) =
         leOfBytes (PageMap.read o.pages (forkMemAt s.mem o.past k) va bytes)) ∧
       (∀ m col : Nat, col < 1024 → (m ≠ n ∨ col < C.vcol vd ∨ C.vcol vd + 8 * bytes ≤ col) →
         (u.cores[c].row m).bit col = (C.row m).bit col) ∧
       u.mem = s.mem ∧
       (u.slicePending slice = false → C.failedSlices = [] → row < 65536 →
         (u.cores[c].harts[h].landed[(regIx vd).val]).getLsbD (row / 2048) = true)) ∧
  -- plane delivery
  (∀ (s : State) (c : Fin 192) (o : EngineOp) (tag : Nat) (h : Fin 8) (boff np ptop d slots : Nat)
     (rows : List (Nat × Nat × Nat)) (settled : List Nat),
     let C := s.cores[c]
     let hdr := fun (m : List Host.Cell) (k : Nat) => deliveryHeader (PageMap.read o.pages m k 64) d
     let part := fun (m : List Host.Cell) (r : Nat × Nat × Nat) =>
       if r.2.2 < (hdr m r.2.1).ntok then (slotRanges d (hdr m r.2.1) ptop slots r.2.2).map fun p =>
         PageMap.read o.pages m (r.2.1 + p.1) p.2 else []
     let bytes := fun (m : List Host.Cell) (r : Nat × Nat × Nat) => slotBytes (hdr m r.2.1) d slots r.2.2 (part m r)
     let first := C.scol0 + 8 * slotOff d boff slots
     let width := if slots = 0 then 4 + d / 8 else d / 8
     C.ops.find? (·.planesOn tag) = some o → tag < 64 →
     o.kind = .planes tag h false boff np ptop d slots rows settled → s.bad = [] → C.laidOut = true →
     (C.rows.all fun p => p.2.chk == 0) = true → (rows.map (·.1)).Nodup → first + 8 * width ≤ 1024 →
     (∀ k : Nat → Nat, ∀ r ∈ rows, (bytes (forkMemAt s.mem o.past k) r).length = width) →
     (slots ≤ np → ∃ k : Nat → Nat, Becomes (.planeSlotDelivered c.val tag) s fun u =>
       (∀ r ∈ rows, r.2.1 ∉ settled → ∀ i : Nat, i < width →
         (u.cores[c].row (C.row0 h.val + r.1)).get (first + 8 * i) 8 =
           ((bytes (forkMemAt s.mem o.past k) r).getD i 0).toNat) ∧
       (∀ m col : Nat, col < 1024 → (m ∉ rows.map (fun r => C.row0 h.val + r.1) ∨ col < first ∨ first + 8 * width ≤ col) →
         (u.cores[c].row m).bit col = (C.row m).bit col) ∧
       u.mem = s.mem ∧ u.cores[c].tags[tagIx tag].planes = slots + 1 ∧ u.cores[c].tagBusy tag = C.tagBusy tag) ∧
     (np < slots → Becomes (.planeSlotDelivered c.val tag) s fun u =>
       u.cores[c].tags[tagIx tag].planes = 0 ∧ u.cores[c].tagBusy tag = false ∧ u.cores[c].tagFailed tag = false ∧
       u.cores[c].rows = C.rows ∧ u.mem = s.mem ∧ (∀ p ∈ u.cores[c].ops, p ∈ C.ops ∧ p.id ≠ o.id)))

/-- R297, R307, R309: a slab operation that shares nothing with an earlier one completes. SZERO leaves every element
of its tile 0; an SMMA of integers adds, in every element of the product, the sum over its K positions modulo 2^32;
both leave memory and the columns of the other tiles. R384: an SMMA that meets a buffer whose internal check failed
leaves the buffer empty and holds SLBCHK for its issuer. R303, R305, R293: a load of a buffer completes: the buffer is
full with the operand; metadata that breaks R303 leaves it empty and is held as SLMETA for the issuer. R277: a merge
completes: the image's entries have been offered in order, or the list keeps CAPACITY for an image that it cannot
take; it is no longer busy, and the next instruction on the list observes the merge (R52). Each reads memory as it
stands, or as it stood before stores of the issuer that it is not ordered after (R196). That an engine moves its data at
its completion is the model's choice (log 6). -/
def Obligations.SlabArrivals : Prop :=
  -- slab completion
  (∀ (s : State) (c : Fin 192) (o : EngineOp),
     let C := s.cores[c]
     C.ops.find? (fun p => p.id == o.id) = some o → C.slabBlocked o = false → C.laidOut = true → C.acol ≠ 0 →
     (C.rows.all fun p => p.2.chk == 0) = true → s.bad = [] →
     let done := fun (P : State → Prop) => Becomes (.slabOpComplete c.val o.id) s fun u =>
       P u ∧ u.mem = s.mem ∧ (∀ p ∈ u.cores[c].ops, p ∈ C.ops ∧ p.id ≠ o.id)
     (∀ (t : Nat) (int : Bool), t < 8 → o.kind = .szero t int →
       done fun u => ∀ m n : Nat, m < 128 → n < 128 →
         u.cores[c].readTile t m n = 0 ∧ ∀ k : Nat, k < 8 → k ≠ t → u.cores[c].readTile k m n = C.readTile k m n) ∧
     (∀ (b : Binding) (bn buf t kblk mt nt kt : Nat) (d : BData), t < 8 → mt ≤ 128 → nt ≤ 128 →
       o.kind = .smma b bn buf d t kblk mt nt kt → b.fmt.isBlock = false → b.pool = false →
       HwUnit.buffer (bufIx buf) ∉ C.flaws → ∃ at_ : Nat → Nat,
       let kpos := min kt (b.klen - b.col)
       let A := fun (m : Nat) => (List.range kpos).map fun k =>
         if b.row + m < b.mlen then
           packedAt (fun x => readByte (forkMemAt s.mem o.past at_) (PageMap.pa o.pages x)) (b.rowAt (b.row + m))
             b.fmt.width (b.col + k)
         else 0
       let B := fun (n : Nat) => ((d.columns.getD n []).drop kblk).flatMap (·.codes)
       let sum := fun (m n : Nat) => ((A m).zip (B n)).foldl (fun (x : Int) p =>
         match p.2 with | some q => x + intOf true b.fmt.width p.1 * intOf true d.fmt.width q.toNat | none => x) 0
       done fun u => ∀ m n : Nat, m < 128 → n < 128 →
         ((u.cores[c].readTile t m n).toNat : Int) =
           (if m < mt ∧ n < nt ∧ n < d.columns.length then ((C.readTile t m n).toNat + sum m n).emod (2 ^ 32)
            else (C.readTile t m n).toNat)) ∧
     (∀ (b : Binding) (bn buf t kblk mt nt kt : Nat) (d : BData), o.by_ = .stream → b.pool = false →
       o.kind = .smma b bn buf d t kblk mt nt kt → HwUnit.buffer (bufIx buf) ∈ C.flaws →
       done fun u => u.cores[c].bb = C.bb.set (bufIx buf) .empty ∧
         u.cores[c].stream.held =
           some (C.stream.held.getD { cause := 0x96 ||| BitVec.ofNat 8 (bufIx buf).val, faddr := 0 }))) ∧
  -- buffer loaded
  (∀ (s : State) (c : Fin 192) (o : EngineOp) (x : Fin 2) (fmt : Fmt) (k n ld spmc spn split base : Nat)
     (g : Option (BitVec 4)) (idx : List Nat),
     let C := s.cores[c]
     C.ops.find? (fun p => p.id == o.id) = some o → C.slabBlocked o = false → s.bad = [] → o.by_ = .stream →
     o.kind = .bload x.val fmt k n ld spmc spn split base false g idx → C.bb[x] = .loading o.id →
     ∃ at_ : Nat → Nat,
     let data := loadData (fun y => readByte (forkMemAt s.mem o.past at_) (PageMap.pa o.pages y)) fmt k n ld spmc spn split
       base g idx
     (∀ d : BData × BitVec 5, data = some d →
       Becomes (.bLoadComplete c.val o.id) s fun u =>
         u.cores[c].bb = C.bb.set x (.full d.1) ∧ u.cores[c].stream.th.fflags = C.stream.th.fflags ||| d.2 ∧
         u.cores[c].rows = C.rows ∧ u.mem = s.mem) ∧
     (data = none →
       Becomes (.bLoadComplete c.val o.id) s fun u =>
         u.cores[c].bb = C.bb.set x .empty ∧
         u.cores[c].stream.held = some (C.stream.held.getD { cause := 0x95, faddr := 0 }) ∧ u.mem = s.mem)) ∧
  -- merge completion
  (∀ (s : State) (c : Fin 192) (o : EngineOp) (n : Fin 4) (va : Nat),
     let C := s.cores[c]
     let l := C.lists[n]
     ∃ at_ : Nat → Nat,
     let bs := PageMap.read o.pages (forkMemAt s.mem o.past at_) va 520
     let good := (∀ i : Nat, 3 ≤ i → i < 8 → bs.getD i 0 = 0) ∧ (bs.getD 0 0).toNat ≤ 64 ∧
       bs.getD 2 0 = (if l.int32 then 1 else 0)
     C.ops.find? (·.mergeOn n.val) = some o → o.kind = .merge n.val va → s.bad = [] →
     Becomes (.tkmrgComplete c.val n.val) s fun u =>
       u.mem = s.mem ∧ u.cores[c].lists[n].busy = false ∧ u.cores[c].lists[n].merged = true ∧
       u.cores[c].lists[n].cap = l.cap ∧
       (good → u.cores[c].lists[n].entries = ((List.range (bs.getD 0 0).toNat).foldl (fun t e =>
         t.offer (BitVec.ofNat 32 (leOfBytes ((bs.drop (8 + 8 * e)).take 4)),
                  BitVec.ofNat 32 (leOfBytes ((bs.drop (12 + 8 * e)).take 4)))) l).entries) ∧
       (¬ good → u.cores[c].lists[n].entries = l.entries ∧
         u.cores[c].lists[n].err = some { cause := 0xA4, faddr := 0 }))

/-- R46, R89, R347: a free walker takes the first waiting request and keeps its result for a time that the spec does not
give; one whose core has left the context or found the page meanwhile needs no walk (log 91). A
KVAPP or a WAITV that waits tests again when its hart next runs. R446, R111: with a usable ring at LOGRING, Epvimond's
oldest entry is written in its 32 bytes with their CRC and the phase bit, PIDX advances, and the entry leaves the log; a
full ring holds it; a descriptor that R111 refuses drops it and is itself logged once, which is log 61. R43, R400: a page-in of a page of
tier 1 or 2 completes: its leaf names the frame with TIER, INFL and PROMOTE 0 and keeps its other fields, a page of tier
1 has been copied to the frame with new checks, and without a ring or a mode the request is over. A page-in that fails,
with a code from 0x81 to 0x8F or a memory cause, only clears INFL. That the bytes move at the completion is log 62. -/
def Obligations.WaitsAndRings : Prop :=
  -- waiters go on
  (∀ (s : State),
     (∀ (d : Fin 4) (w : WalkAsk) (ws : List WalkAsk), s.dies[d].walkWait = w :: ws →
       Becomes (.walkStart d.val) s fun u =>
         let c := coreIx w.core
         let asks := rootCtxid s.cores[c].ptroot = w.ctxid ∧ s.cores[c].tlbFor w.ctxid (w.page * 65536) = []
         (s.dies[d].walks.length < 384 →
           (asks → (∃ (e : Nat) (r : Walk), u.dies[d].walks =
               s.dies[d].walks.filter (fun k => !k.isFor w.ctxid w.page) ++
                 [{ ctxid := w.ctxid, page := w.page, until_ := e, core := c.val, result := r }]) ∧
             u.dies[d].walkWait = ws.filter fun k => !(k.ctxid == w.ctxid && k.page == w.page)) ∧
           (¬ asks → u.dies[d].walks = s.dies[d].walks ∧ u.dies[d].walkWait = ws)) ∧
         (384 ≤ s.dies[d].walks.length → u = s) ∧
         (∀ k : Fin 4, k ≠ d → u.dies[k] = { s.dies[k] with dcache := u.dies[k].dcache }) ∧
         u.cores = s.cores ∧ u.mem = s.mem) ∧
     (∀ (c : Fin 192) (h : Fin 8), ∀ i ∈ ([.kvappWaitRetry c.val h.val, .waitvPoll c.val h.val] : List Instr),
       Becomes i s fun u =>
         s.epoch < u.epoch ∧ u.mem = s.mem ∧ u.dies = s.dies ∧
         u.cores[c].harts[h] = { s.cores[c].harts[h] with sleep := u.cores[c].harts[h].sleep } ∧
         (∀ (k : Fin 192) (j : Fin 8), (k ≠ c ∨ j ≠ h) → u.cores[k].harts[j] = s.cores[k].harts[j])) ∧
     (∀ (c : Fin 192) (h : Fin 8), s.cores[c].harts[h].wait = .kvapp →
       Becomes (.kvappWaitRetry c.val h.val) s fun u => u.cores[c].harts[h].sleep = none) ∧
     (∀ (c : Fin 192) (h : Fin 8), s.cores[c].harts[h].waitStart.isSome = true →
       Becomes (.waitvPoll c.val h.val) s fun u => u.cores[c].harts[h].sleep = none)) ∧
  -- log delivery
  (∀ (s : State) (e : LogEntry) (rest : List LogEntry) (k : Nat), s.logring ≠ 0 → s.log = e :: rest →
     let body := fun (ph : Bool) => bytesOfLe 8 e.addr.toNat ++ bytesOfLe 8 e.time.toNat ++
       [0, (if ph then 1 else 0), e.kind, e.cause, e.die, e.hand] ++ bytesOfLe 2 e.core.toNat ++ bytesOfLe 4 e.aux.toNat
     let record := fun (ph : Bool) => body ph ++ bytesOfLe 4 (crc32c (body ph)).toNat
     (∀ t : State, s.ringProduce s.physTr s.logring.toNat record = .written t →
       Becomes (.ringHeadPoll (3 * k + 2)) s fun u => u.log = rest ∧ u.mem = t.mem ∧ u.cores = s.cores) ∧
     (s.ringProduce s.physTr s.logring.toNat record = .full →
       Becomes (.ringHeadPoll (3 * k + 2)) s fun u => u.log = s.log ∧ u.mem = s.mem ∧ u.cores = s.cores) ∧
     (∀ c : Nat, s.ringProduce s.physTr s.logring.toNat record = .refused c → s.log.length ≤ 256 →
       Becomes (.ringHeadPoll (3 * k + 2)) s fun u => u.mem = s.mem ∧ u.cores = s.cores ∧ u.logBad = true ∧
         (s.logBad = true → u.log = rest) ∧
         (s.logBad = false → ∃ f : LogEntry, u.log = rest ++ [f] ∧ f.kind = 4 ∧ f.cause = BitVec.ofNat 8 c ∧
           f.addr = s.logring))) ∧
  -- page in completion
  (∀ (s : State) (r : PageReq) (frame : Nat) (code : BitVec 8) (ctx : Nat),
     let size := 2 ^ pageBits r.level
     let old := readLE s.mem r.epa 8
     let put := fun (e lo w v : Nat) => e - bitsOf e lo w * 2 ^ lo + v * 2 ^ lo
     let src := s.fabric (leafFrame old)
     let first := frame * 65536
     let copied := fun (a : Nat) => code = 0 ∧ r.tier = 1 ∧ first ≤ a ∧ a < first + size
     s.reqs.find? (·.id == r.id) = some r → r.posted = true → r.fcode = none → (r.tier = 1 ∨ r.tier = 2) →
     Memory.wf s.mem = true → s.sectorBad r.epa = false → s.slotOf r.ctxid = some ctx → s.pgnring[ix64 ctx] = 0 →
     (s.pgnmode[ix64 ctx]).toNat % 4 = 0 → fcodeValid code = true →
     (code = 0 → first % size = 0 ∧ first + size ≤ Config.hbmSize ∧ (r.epa + 8 ≤ first ∨ first + size ≤ r.epa)) →
     (r.tier = 1 → first + size ≤ src ∧ r.epa + 8 ≤ src ∧ s.anyBad src size = false) →
     Becomes (.pageInComplete r.id frame code) s fun u =>
       u.reqs = s.reqs.filter (fun q => q.id ≠ r.id) ∧
       readLE u.mem r.epa 8 = (if code = 0 then put (put (put (put old 16 36 (frame % 2 ^ 36)) 10 1 0) 8 2 0) 7 1 0
         else put old 10 1 0) ∧
       (∀ a : Nat, copied a → readByte u.mem a = readByte s.mem (src + (a - first)) ∧ u.sectorBad a = false) ∧
       (∀ a : Nat, (a < r.epa ∨ r.epa + 8 ≤ a) → ¬ copied a → readByte u.mem a = readByte s.mem a))

/-- R363, R364: a kick by the port that owns the queue sets TAIL and clears STALLED; a write with EN = 1 from EN = 0
takes the configuration and sets HEAD and TAIL to 0; BADCFG is set where LOG2N is out of range with EN = 1, and where
more records are announced than the ring has slots, whatever EN is. A write with EN = 0 disables the queue and ends its
launches that hold no cores. R364, R365, R370: the Launch Controller reads the slot at HEAD. A good record is taken: HEAD
advances; a load request (TYPE 1) is held with its fields; a launch is accepted where `State.examine` accepts it, and
otherwise held as refused, all its pallets with the cause that `State.examine` gives. R369: those are the eight rows in their
order, and the record is accepted where none of them holds. A read that fails is counted, up to 16 retries, and then the
queue stalls. R18: the stalled queue's vector is sent, or it pends while it is masked or the link is down. R355, R370: a
record of a die's device queue is taken in order and treated in the same way. R378: a write of DQFLUSH releases the held
completion records of the device queues that it names, and marks their launches that still run. -/
def Obligations.LaunchQueues : Prop :=
  -- what becomes of a record that is taken in s0, of a queue with a home, for a context
  let taken := fun (s0 : State) (queue home ctx : Nat) (bs : List Byte) (u : State) =>
    let f := msgField bs
    let l := launchOf s0.nextLaunch queue home ctx s0.time f
    let x := { s0 with nextLaunch := s0.nextLaunch + 1 }.examine l f
    (f 0x35 1 = 1 → u.launches = s0.launches ∧ u.mem = s0.mem ∧
      u.loads = s0.loads ++ [recordLoad s0.nextLoad queue home ctx (s0.loadBad ctx f) f]) ∧
    (f 0x35 1 ≠ 1 → u.loads = x.2.loads ∧ u.mem = x.2.mem ∧
      l.id = s0.nextLaunch ∧ l.queue = queue ∧ l.home = home ∧ l.ctx = ctx ∧ l.prio = bitsOf (f 0x33 1) 2 2 ∧
      l.count = f 0x30 3 + 1 ∧ l.pword = BitVec.ofNat 64 (f 0x28 8) ∧ l.seq = BitVec.ofNat 32 (f 0x38 4) ∧
      l.ring = f 0x18 8 ∧ l.signal = f 0x20 8 ∧ l.pdone = 0 ∧ l.pfail = 0 ∧ l.firstFail = none ∧ l.state = .waiting ∧
      (l.gang = if f 0x33 1 % 4 = 1 then 4 else if f 0x33 1 % 4 = 2 then 48 else 1) ∧
      (∀ m : Launch, x.1 = .ok m → u.launches = x.2.launches ++ [m]) ∧
      (∀ c : Nat, x.1 = .error c → u.launches = x.2.launches ++
        [{ l with state := .closing, pfail := l.count, firstFail := some (0, BitVec.ofNat 8 c) }]))
  -- queue register writes
  (∀ (s : State) (port : Nat) (q : Fin 32) (v : Word), s.hostPort port = true → s.bootReady = true →
     s.ownsQueue port q.val = true →
     let Q := s.queues[q]
     let others := fun (u : State) => ∀ k : Fin 32, k ≠ q → u.queues[k] = s.queues[k]
     let bad := fun (en : Bool) (tail : BitVec 32) (cfg : Word) (head : BitVec 32) =>
       let n := bitsOf cfg.toNat 0 4
       (en = true ∧ (n < 2 ∨ 12 < n)) ∨ 2 ^ n < (tail - head).toNat
     (Becomes (.queueKick port q.val v) s fun u =>
       (u.queues[q] = { Q with tail := v.setWidth 32, tries := 0, stat := u.queues[q].stat }) ∧
       u.queues[q].stat.getLsbD 0 = false ∧
       (u.queues[q].stat.getLsbD 1 = true ↔
         (Q.stat.getLsbD 1 = true ∨ bad Q.en (v.setWidth 32) Q.cfg Q.head)) ∧
       others u ∧ u.mem = s.mem ∧ u.launches = s.launches) ∧
     (bitOf v.toNat 4 = true → Q.en = false →
       Becomes (.queueEnable port q.val v) s fun u =>
         u.queues[q].cfg = v &&& 0xFC1F ∧ u.queues[q].head = 0 ∧ u.queues[q].tail = 0 ∧ u.queues[q].base = Q.base ∧
         (u.queues[q].stat.getLsbD 1 = true ↔ bad true 0 v 0) ∧ others u ∧ u.mem = s.mem ∧ u.launches = s.launches) ∧
     (bitOf v.toNat 4 = false →
       Becomes (.queueDisable port q.val v) s fun u =>
         u.queues[q].en = false ∧ u.queues[q].head = Q.head ∧ others u ∧
         (u.queues[q].stat.getLsbD 1 = true ↔
           (Q.stat.getLsbD 1 = true ∨ bad false Q.tail (if Q.en then Q.cfg else v) Q.head)) ∧
         (∀ l ∈ u.launches, l.queue = q.val → l.state = .closing ∨ l.state = .held))) ∧
  -- slot reads
  (∀ (s : State) (q : Fin 32), s.queueReads q = true →
     let Q := s.queues[q]
     let r := s.slotRead q
     (∀ i : Instr, ((i = .launchRecordTake q.val ∧ Q.tries = 0) ∨
         (i = .queueSlotRetry q.val ∧ 1 ≤ Q.tries ∧ Q.tries ≤ 16)) →
       (r.1 = none → Becomes i s fun u =>
         u.queues[q] = { Q with tries := Q.tries + 1 } ∧ u.launches = s.launches ∧ u.mem = s.mem) ∧
       (∀ bs : List Byte, r.1 = some bs →
         Becomes i s fun u => u.queues[q] = { Q with head := Q.head + 1, tries := 0 } ∧
           taken (r.2.modQueue q fun k => { k with head := k.head + 1, tries := 0 }) q.val Q.home
             (msgField bs 0x34 1 % 64) bs u))) ∧
  -- the checks of a launch record, in their order
  (∀ (s : State) (l : Launch) (f : Nat → Nat → Nat),
     let x := s.examine l f
     let va := fun (o align : Nat) => f o 8 < 2 ^ 56 ∧ f o 8 % align = 0
     let a := s.lcAgent l.ctx l.home
     let args := if f 8 8 = 0 then (Except.ok (List.replicate 128 0), s) else s.lcRead a 1 (f 8 8) 128
     (recordBad s l f = false ↔
       f 0x36 2 = 0 ∧ f 0x35 1 ≤ 1 ∧ f 0x34 1 < 64 ∧ f 0x33 1 < 16 ∧ f 0x33 1 % 4 ≠ 3 ∧
       bitOf (s.ctxpart[ix64 l.ctx]).toNat 63 = true ∧ l.count % l.gang = 0 ∧ va 0 1 ∧ va 8 64 ∧ va 0x10 16 ∧
       l.ring < 2 ^ 56 ∧ l.ring % 32 = 0 ∧ l.signal < 2 ^ 56 ∧ l.signal % 8 = 0) ∧
     (recordBad s l f = true → x = (.error 0x14, s)) ∧
     (recordBad s l f = false →
       (∀ c : Nat, args.1 = .error c → x = (.error c, args.2)) ∧
       (∀ bs : List Byte, args.1 = .ok bs →
         (argTable bs = none → x = (.error 0x14, args.2)) ∧
         (∀ t : List Window × List (Nat × Nat), argTable bs = some t →
           let k? := args.2.kernels.find? fun k => k.ctx == l.ctx && k.va == f 0 8
           (k? = none → x = (.error 0x15, args.2)) ∧
           (∀ k : Kernel, k? = some k →
             let list := if f 0x10 8 = 0 then (.ok [], args.2) else args.2.lcRead a 1 (f 0x10 8) (16 * k.streams.length)
             (pwordBad l.pword k = true → x = (.error 0x13, args.2)) ∧
             (pwordBad l.pword k = false →
               (∀ c : Nat, list.1 = .error c → x = (.error c, list.2)) ∧
               (∀ es : List Byte, list.1 = .ok es →
                 (f 0x10 8 = 0 ∧ k.streams ≠ [] ∨ streamList k l.pword es = none → x = (.error 0x16, list.2)) ∧
                 (∀ ss : List (Nat × Nat × Nat × Nat), ¬ (f 0x10 8 = 0 ∧ k.streams ≠ []) → streamList k l.pword es = some ss →
                   let mask := (list.2.ctxpart[ix64 l.ctx]).toNat
                   (partOk mask l.gang = true ↔
                     if l.gang = 48 then ∃ d : Nat, d < 4 ∧ bitsOf mask (12 * d) 12 = 4095 else bitsOf mask 0 48 ≠ 0) ∧
                   x = (if partOk mask l.gang then .ok { l with kernel := k, wins := t.1, waits := t.2, streams := ss }
                     else .error 0x17, list.2))))))))) ∧
  -- stalled queues
  (∀ (s : State) (q : Fin 32), s.queueDue q = true → 17 ≤ s.queues[q].tries →
     let pend := (q.val / 16, q.val % 16)
     Becomes (.queueStall q.val) s fun u =>
       u.queues[q] = { s.queues[q] with stat := s.queues[q].stat ||| 1 } ∧ u.mem = s.mem ∧
       (pend ∉ s.msixPending → s.linkUp[dieIx pend.1] = false ∨ (s.msixEntry pend.1 pend.2).masked = true →
         pend ∈ u.msixPending ∧ Output.msix pend.1 pend.2 ∉ u.out.drop s.out.length) ∧
       (pend ∉ s.msixPending → s.linkUp[dieIx pend.1] = true → (s.msixEntry pend.1 pend.2).masked = false →
         pend ∉ u.msixPending ∧ Output.msix pend.1 pend.2 ∈ u.out.drop s.out.length)) ∧
  -- device queues
  (∀ (s : State) (d : Fin 4),
     (∀ (bs : List Byte) (ctx : Nat) (rest : List (List Byte × Nat)), s.dies[d].devq = (bs, ctx) :: rest →
       s.mayTake (32 + d.val) d.val = true →
       Becomes (.launchRecordTake (32 + d.val)) s fun u =>
         u.dies[d].devq = rest ∧ taken (s.modDie d fun k => { k with devq := rest }) (32 + d.val) d.val ctx bs u) ∧
     (∀ (port : Nat) (v : Word), s.reaches port = true → s.bootReady = true →
       Becomes (.dqflush port v) s fun u =>
         ∀ l ∈ u.launches, l.queue = 32 + d.val → bitOf v.toNat d.val = true → l.state ≠ .held ∧ l.flushed = true))

/-- R371: the launch at the head of its queue becomes a candidate once its waits are met, and not before. R372, R373,
R375, R360: with one candidate, a gang of one pallet without streams that fits, a placement decision gives it the
core: its pallet runs, each hart of its partition starts at the kernel's entry with its index, its number and the
count in x1 to x3 and every other register 0, and no other core changes. R374: after eight backfills one group of
cores of a die, all in the partition, is reserved for the blocked gang: the one that holds the most free cores, the lowest
on a tie (`State.reserveFor`); a gang of one reserves nothing. R324, R325, R326: a launch all of whose pallets are over, with no signal, completes: without a ring it is
gone; with a ring its record is written and it is gone, or a full ring holds it, unless DQFLUSH has discarded it (R378);
a descriptor that R111 refuses is logged; it does not complete while a gang of it that ended in OUT has engine operations
outstanding. Of launches that were over in one cycle the lowest sequence number goes first. -/
def Obligations.LaunchScheduling : Prop :=
  -- launch waits
  (∀ (s : State) (l : Launch), s.launch? l.id = some l → l.state = .waiting →
     (s.queueHead l.queue).map (·.id) = some l.id →
     let r := s.waitsMet (s.lcAgent l.ctx l.home) l.waits
     (r.1 = .ok true → Becomes (.launchWaitPoll l.id) s fun u =>
       u.launches = r.2.launches.map (fun m => if m.id = l.id then { m with state := .placing, since := s.time } else m) ∧
       u.mem = r.2.mem) ∧
     (r.1 = .ok false → Becomes (.launchWaitPoll l.id) s fun u => u.launches = r.2.launches ∧ u.mem = r.2.mem) ∧
     (l.waits = [] → r = (.ok true, s))) ∧
  -- placement
  (∀ (s : State) (x : Cand) (c : Nat) (l : Launch), s.cands = [x] → x.saved = false → x.prio ≤ 3 → s.blocked = none →
     s.reserved = [] → s.preemptHeld = [] →
     (∀ i : Fin 192, s.cores[i].joined = false) → s.launch? x.launch = some l → l.gang = 1 → l.streams = [] → c < 192 →
     s.fit x false = some [c] → s.gangOnCores x.launch x.gang = false →
     (∀ g ∈ s.outs, ¬ (g.launch = x.launch ∧ g.gang = x.gang)) →
     Becomes .placementDecision s fun u =>
       let C := u.cores[coreIx c]
       C.pallet = some { launch := l.id, gang := x.gang, index := x.gang, size := 1, ctx := l.ctx, board := .run,
                         streams := [], failed := none } ∧
       C.pword = l.pword ∧ C.ptroot = s.ctxroot[ix64 l.ctx] &&& 0x000FFFFFFFFFFFF0 ∧ C.rows = [] ∧
       (∀ h : Fin 8, h.val < C.nharts →
         C.harts[h].st = .running ∧ C.harts[h].th.pc = l.kernel.entry ∧ C.harts[h].sys = false ∧
         ∀ r : Reg, C.harts[h].th.get r =
           (if r = 1 then BitVec.ofNat 64 x.gang else if r = 2 then BitVec.ofNat 64 h.val
            else if r = 3 then BitVec.ofNat 64 l.count else 0)) ∧
       (∀ h : Fin 8, C.nharts ≤ h.val → C.harts[h].st = .absent) ∧
       (∀ i : Fin 192, i.val ≠ c → u.cores[i] = s.cores[i]) ∧
       (u.launch? x.launch).map (·.nextGang) = some (l.nextGang + 1) ∧ u.mem = s.mem) ∧
  -- core reservation
  (∀ (s : State) (l : Launch) (gang : Nat), s.blocked = some (l.id, gang) → s.launch? l.id = some l →
     let mask := (s.ctxpart[ix64 l.ctx]).toNat
     let free := fun (g : List Nat) => (g.filter fun c => s.cores[coreIx c].pallet.isNone).length
     let ours := fun (g : List Nat) => (∃ d : Nat, d < 4 ∧ g ∈ groupsOf d l.gang) ∧ ∀ c ∈ g, bitOf mask (c / 4) = true
     (∀ (d : Nat) (g : List Nat), g ∈ groupsOf d l.gang ↔
       ∃ k : Nat, k < 48 / l.gang ∧ g = (List.range l.gang).map fun j => 48 * d + k * l.gang + j) ∧
     Becomes .coreReservation s fun u =>
       (8 ≤ s.backfills → s.reserved = [] → l.gang ≠ 1 →
         ((∀ g : List Nat, ¬ ours g) → u = s) ∧
         (∀ g : List Nat, ours g → ours u.reserved ∧ free g ≤ free u.reserved ∧
           (free g = free u.reserved → u.reserved.headD 0 ≤ g.headD 0))) ∧
       ((s.backfills < 8 ∨ s.reserved ≠ [] ∨ l.gang = 1) → u = s) ∧
       u = { s with reserved := u.reserved }) ∧
  -- launch completion
  (∀ (s : State) (l : Launch), s.launch? l.id = some l → l.state = .closing → l.pdone + l.pfail = l.count → l.signal = 0 →
     l.ports = 0 → (∀ i : Fin 192, s.cores[i].joined = false) → s.preemptHeld = [] → s.lowerSeq l = false →
     ((∃ g ∈ s.outs, g.launch = l.id ∧ g.gone = true) → Becomes (.launchComplete l.id) s fun u =>
       u = { s with epoch := s.epoch + 1 }) ∧
     ((∀ g ∈ s.outs, g.launch = l.id → g.gone = false) →
     let body := fun (ph : Bool) => bytesOfLe 8 l.seq.toNat ++ bytesOfLe 8 l.bytes ++
       [2, (if l.firstFail.isSome then 1 else 0), (match l.firstFail with | some f => f.2 | none => 0),
        (if ph then 1 else 0)] ++ bytesOfLe 8 (l.pdone + l.pfail * 2 ^ 25)
     let record := fun (ph : Bool) => body ph ++ bytesOfLe 4 (crc32c (body ph)).toNat
     let s0 := { s with epoch := s.epoch + 1 }
     let put := s0.ringProduce (s0.ringTr (s0.lcAgent l.ctx l.home)) l.ring record
     (l.ring = 0 → Becomes (.launchComplete l.id) s fun u =>
       u.mem = s.mem ∧ u.launches = s.launches.filter fun m => m.id ≠ l.id) ∧
     (l.ring ≠ 0 → s.ringQueue l.ctx l.home l.ring (l.hold.getD s.ticks) = false →
       (∀ t : State, put = .written t → Becomes (.launchComplete l.id) s fun u =>
         u.mem = t.mem ∧ u.launches = s.launches.filter fun m => m.id ≠ l.id) ∧
       (put = .full → Becomes (.launchComplete l.id) s fun u => u.mem = s.mem ∧
         (l.flushed = false → ∃ m ∈ u.launches, m.id = l.id ∧ m.state = .held) ∧
         (l.flushed = true → u.launches = s.launches.filter fun m => m.id ≠ l.id)) ∧
       (∀ k : Nat, put = .refused k → s.log.length < 256 → Becomes (.launchComplete l.id) s fun u => u.mem = s.mem ∧
         u.launches = (s.launches.filter fun m => m.id ≠ l.id) ∧
         ∃ e : LogEntry, u.log = s.log ++ [e] ∧ e.kind = 4 ∧ e.cause = BitVec.ofNat 8 k ∧ e.addr = BitVec.ofNat 64 l.ring))))

/-- R380, R403: a request for a quad is posted to every running gang that touches it when there is room for their
images, and is kept until then otherwise. R403 to R405: a gang that can be saved, no row of which fails its check,
leaves its cores: each is free, and OUT holds an image of each pallet: its header, whose check and whose sections'
checks hold, and the sections of its core. R406: a column that was saved in the first form that holds is read back, its
VC and its landed bits with it; so is the context of a hart. R407, R408: a saved gang whose pallets wait on their cores,
none of whose images R407 refuses, goes on there with what its images hold: each taken hart runs from TPC with its
registers; the gang leaves OUT. An image that R407 refuses is logged with the cause and its gang is over. Where an
image's sections lie, and their order within, are the model's choice (log 17, log 96); so is that arrivals that still count
are kept beside the image and not in it (log 34). -/
def Obligations.SavingAndRestoring : Prop :=
  -- preemption requests
  (∀ (s : State) (port : Nat) (v : Word), s.reaches port = true → s.bootReady = true →
     let quad := bitsOf v.toNat 0 6
     let cs := (s.quadGangCores quad).filter fun i => !s.cores[i].preempt
     Becomes (.preemptqWrite port v) s fun u =>
       (cs.length ≤ s.imageRoom (dieIx (quad / 12)) →
         ∀ i : Fin 192, u.cores[i] = if i ∈ cs then { s.cores[i] with preempt := true } else s.cores[i]) ∧
       (s.imageRoom (dieIx (quad / 12)) < cs.length → u.cores = s.cores ∧ quad ∈ u.preemptHeld) ∧
       u.mem = s.mem ∧ u.launches = s.launches) ∧
  -- gang save
  (∀ (s : State) (launch gang : Nat), s.canSave launch gang = true →
     let cs := s.runCores launch gang
     let die := dieOf ((cs.map (·.val)).headD 0)
     (∀ i ∈ cs, s.cores[i].saveFails = []) → (∀ k ∈ s.outs, ¬ (k.launch = launch ∧ k.gang = gang)) →
     ((s.outs.filter (·.die == die)).map fun g => g.images.length).sum + cs.length ≤ shadowImages →
     Becomes (.gangSave launch gang) s fun u =>
       (∀ i ∈ cs, u.cores[i].pallet = none) ∧ (∀ i : Fin 192, i ∉ cs → u.cores[i] = s.cores[i]) ∧
       (∃ g : OutGang, u.outs = s.outs ++ [g] ∧ g.launch = launch ∧ g.gang = gang ∧ g.die = die ∧
         g.images.map (·.home) = cs.map (·.val) ∧
         ∀ m ∈ g.images, ∀ (i : Fin 192) (p : Pallet), i.val = m.home → s.cores[i].pallet = some p →
           let C := s.cores[i]
           m.core = { C with preempt := false, past := [], lates := [] } ∧ m.place = none ∧ m.bytes = m.rendered ∧
           (m.bytes.length < 2 ^ 32 →
             imageField m.bytes 0 4 = 0x49584C4B ∧ imageField m.bytes 4 2 = 1 ∧ imageField m.bytes 7 1 = C.nharts ∧
             imageField m.bytes 8 8 = C.pword.toNat ∧ imageField m.bytes 0x10 4 = C.vlmax ∧
             imageField m.bytes 0x14 4 = m.bytes.length ∧ headerReserved m.bytes = false ∧ headerFails m.bytes = false ∧
             (imageField m.bytes 6 1 = (if lengthDependent C.liveBits then 1 else 0) + (if C.pgwait then 2 else 0)) ∧
             ∀ k : Nat, k < 8 → sectionFails m.bytes k = false ∧
               imageSection m.bytes k = (C.sections m.raws m.rawBlocks).getD k [])) ∧
       u.mem = s.mem ∧ u.launches = s.launches) ∧
  -- image contents
  (∀ (fw : Nat) (vc : Bool) (landed : BitVec 32) (f : List Nat) (rest : List Byte), 0 < fw → fw % 8 = 0 → fw ≤ 64 →
     (∀ v ∈ f, v < 2 ^ fw) →
     let r := readColumn fw f.length (columnBytes fw vc landed (saveForm fw f) f ++ rest)
     r.1.vc = vc ∧ r.1.landed = landed ∧ (∀ j : Nat, j < f.length → r.1.field j = f.getD j 0) ∧ r.2 = rest) ∧
  (∀ (h : Hart) (rest : List Byte),
     let r := hartCodec.dec (hartCodec.enc h ++ rest)
     r.2 = rest ∧ r.1 = { h with vc := r.1.vc, landed := r.1.landed, unseen := 0, wait := .none, sleep := none,
                                 waitStart := none, yieldLeft := 0, idle := 0, walk := none }) ∧
  -- gang restore
  (∀ (s : State) (g : OutGang), s.preemptHeld = [] →
     s.outs.find? (fun k => k.launch == g.launch && k.gang == g.gang) = some g → s.canRestore g = true →
     (g.images.map s.targetOf).Nodup →
     ((∀ m ∈ g.images, m.place = none ∧ ∀ i : Fin 192, s.targetOf m = some i → s.imageRefused m s.cores[i] = none) →
       Becomes (.gangRestore g.launch g.gang) s fun u =>
         (∀ k ∈ u.outs, ¬ (k.launch = g.launch ∧ k.gang = g.gang)) ∧
         (∀ m ∈ g.images, ∀ i : Fin 192, s.targetOf m = some i →
           let K := s.cores[i].load m.bytes
           (u.cores[i].pallet = s.cores[i].pallet.map fun p => { p with board := .run }) ∧
           u.cores[i].rows = K.rows ∧ u.cores[i].lists = K.lists ∧ u.cores[i].ctag = K.ctag ∧
           u.cores[i].pword = s.cores[i].pword ∧ u.cores[i].sdc = [] ∧
           ∀ h : Fin 8, K.harts[h].st = .taken →
             u.cores[i].harts[h].st = .running ∧ u.cores[i].harts[h].th.x = K.harts[h].th.x ∧
             u.cores[i].harts[h].th.pc = K.harts[h].tpc ∧
             u.cores[i].harts[h].vl =
               (if imageField m.bytes 6 1 % 2 = 0 ∧ imageField m.bytes 0x10 4 ≠ s.cores[i].vlmax then 0 else K.harts[h].vl)) ∧
         u.mem = s.mem) ∧
     (∀ (m : Image) (i : Fin 192) (c : Nat), g.images = [m] → s.targetOf m = some i →
       s.imageRefused m s.cores[i] = some c → s.log.length < 256 →
       Becomes (.gangRestore g.launch g.gang) s fun u =>
         (∀ k ∈ u.outs, ¬ (k.launch = g.launch ∧ k.gang = g.gang)) ∧ u.mem = s.mem ∧
         ∃ e ∈ u.log, e.kind = 5 ∧ e.cause = BitVec.ofNat 8 c ∧ e.core = BitVec.ofNat 16 i.val))

/-- R410 to R412: HALT stops every running hart of the core's gang where it stands, with the reason in TCAUSE and
DBGSTAT; while the core's pallet is not in RUN the halt pends. RESUME lets each halted hart of a halted core go on at
TPC under the prefix of TPFX. -/
def Obligations.DebugControl : Prop :=
  ∀ (s : State) (c : Fin 192) (v : Word) (p : Pallet), s.bootReady = true → s.cores[c].pallet = some p →
    (bitOf v.toNat 0 = true → bitOf v.toNat 1 = false → p.board = .run → s.cores[c].halted = false →
      (∀ h : Fin 8, s.cores[c].harts[h].st ≠ .taken) → s.cores[c].stream.taken = false →
      Becomes (.debugHalt c.val v) s fun u =>
        u.cores[c].halted = true ∧ bitsOf u.cores[c].dbgstat.toNat 8 8 = 0x30 ∧
        (∀ h : Fin 8, s.cores[c].harts[h].st = .running →
          u.cores[c].harts[h].st = .halted ∧ u.cores[c].harts[h].tpc = s.cores[c].harts[h].th.pc ∧
          u.cores[c].harts[h].th = s.cores[c].harts[h].th ∧ u.cores[c].harts[h].tcause.toNat % 256 = 0x30 ∧
          u.cores[c].harts[h].tpfx = tpfxWord s.cores[c].harts[h].pfx ∧ u.cores[c].harts[h].tfaddr = 0) ∧
        (∀ i : Fin 192, i ≠ c → i ∈ s.gangCores c →
          u.cores[i].halted = true ∧ bitsOf u.cores[i].dbgstat.toNat 8 8 = 0x35) ∧
        (∀ i : Fin 192, i ∉ s.gangCores c → u.cores[i] = s.cores[i]) ∧ u.mem = s.mem) ∧
    (bitOf v.toNat 0 = true → bitOf v.toNat 1 = false → p.board ≠ .run → s.cores[c].halted = false →
      Becomes (.debugHalt c.val v) s fun u =>
        u.cores[c] = { s.cores[c] with dbgctl := v &&& 0x1FF1C, dbgstat := 2, haltHeld := some 0x30 } ∧
        (∀ i : Fin 192, i ≠ c → u.cores[i] = s.cores[i]) ∧ u.mem = s.mem) ∧
    (bitOf v.toNat 0 = false → bitOf v.toNat 1 = true → s.cores[c].halted = true →
      Becomes (.debugResume c.val v) s fun u =>
        u.cores[c].halted = false ∧
        (∀ h : Fin 8, s.cores[c].harts[h].st = .halted →
          let H := s.cores[c].harts[h]
          u.cores[c].harts[h].st = .running ∧ u.cores[c].harts[h].th.pc = H.tpc ∧ u.cores[c].harts[h].th.x = H.th.x ∧
          u.cores[c].harts[h].sys = H.sys ∧
          u.cores[c].harts[h].pfx = if bitOf H.tpfx.toNat 32 then some (BitVec.ofNat 32 H.tpfx.toNat) else none) ∧
        (∀ i : Fin 192, i ∉ s.gangCores c → u.cores[i] = s.cores[i]) ∧ u.mem = s.mem)

/-- R163, R165, R368: a load that may run is over after one step, with its status; one whose status is not 0 leaves
the symbols and the kernels of every context as they were; one whose status is 0 has emptied the instruction caches of
the cores of the context's partition (R53). A malformed request has status 1. The causes of a load that
R163 does not number (log 63), when the instruction caches are emptied (log 65), and the rights of the LC's accesses of a
load, system privilege for the status block among them (log 49), are the model's choice. -/
def Obligations.CodeObjectLoads : Prop :=
  ∀ (s : State) (r : LoadReq), s.loads.find? (·.id == r.id) = some r → s.loadReady r = true → r.signal = 0 →
    let a : Agent := { s.lcAgent r.ctx r.home with sys := true }
    let x := s.tryLoad r
    Becomes (.codeObjectLoad r.id) s fun u =>
      u.loads = s.loads.filter (fun q => q.id ≠ r.id) ∧
      u.mem = (x.2.lcWrite a r.status (statusBytes x.1)).2.mem ∧
      (x.1.1 ≠ 0 → u.symbols = s.symbols ∧ u.kernels = s.kernels) ∧
      (x.1.1 = 0 → ∀ i : Fin 192, bitOf (s.ctxpart[ix64 r.ctx]).toNat (i.val / 4) = true → u.cores[i].icache = []) ∧
      (r.bad = true → x = ((1, 0), s))

/-- R19, R20: a semaphore whose time is over is free, with EXPIRED, before anything else happens to it, and a host port
that owned it is told by vector 2047; a 64-bit read of SEMACQ acquires a free semaphore for its requester and answers the
new state with GOT, and reads a held one without acquiring; a read of SEMSTAT or SEMTIME answers them; SEMREL releases
only for the owner with the current SEQ and REL; SEMTIME is written by the owner or while free; SEMSTAT clears EXPIRED.
R20: when both host ports read SEMACQ of a free semaphore in the same cycle, one of them acquires it and the other reads
it held; the port that lost goes first in the next tie. -/
def Obligations.SemaphoreBlock : Prop :=
  -- semaphores
  (∀ (s : State) (port : Nat) (rid : BitVec 16) (n : Fin 16) (v : Word), s.hostPort port = true → s.bootReady = true →
     let m : Sem := if s.sems[n].due s.time then { s.sems[n] with held := false, tleft := 0, expired := true } else s.sems[n]
     let owner := m.held = true ∧ m.ownPort = BitVec.ofNat 2 port ∧ m.ownRid = rid
     let got : Sem :=
       { m with held := true, ownPort := BitVec.ofNat 2 port, ownRid := rid, seq := m.seq + 1, loadedAt := s.time,
                tleft := m.timeout }
     let word := fun (x : Sem) (g : Bool) => BitVec.ofNat 64 ((if x.held then 2 ^ 63 else 0) +
       (if x.expired then 2 ^ 62 else 0) + (if g then 2 ^ 61 else 0) + x.ownPort.toNat * 2 ^ 58 + x.ownRid.toNat * 2 ^ 40 +
       x.seq.toNat * 2 ^ 32 + x.left s.time)
     let one := fun (u : State) (x : Sem) => u.sems = s.sems.set n x ∧ u.mem = s.mem ∧ u.cores = s.cores
     (Becomes (.semacqRead port rid (0x100000 + 32 * n.val) 8 none) s fun u =>
       one u (if m.held then m else got) ∧
       u.out.getLast? = some (.regRead port (if m.held then word m false else word got true))) ∧
     (Becomes (.semacqRead port rid (0x100008 + 32 * n.val) 8 none) s fun u =>
       one u m ∧ u.out.getLast? = some (.regRead port (word m false))) ∧
     (Becomes (.semacqRead port rid (0x100018 + 32 * n.val) 8 none) s fun u =>
       one u s.sems[n] ∧ u.out = s.out ++ [.regRead port (s.sems[n].timeout.setWidth 64)]) ∧
     (Becomes (.semrelWrite port rid n.val v) s fun u =>
       (owner → bitOf v.toNat 0 = true → m.seq = BitVec.ofNat 8 (v.toNat / 2 ^ 32) →
         one u { m with held := false, tleft := 0 }) ∧
       (¬ (owner ∧ bitOf v.toNat 0 = true ∧ m.seq = BitVec.ofNat 8 (v.toNat / 2 ^ 32)) → one u m)) ∧
     (Becomes (.semtimeWrite port rid n.val v) s fun u =>
       (m.held = false → one u { m with timeout := v.setWidth 32 }) ∧
       (owner → one u { m with timeout := v.setWidth 32, tleft := v.setWidth 32, loadedAt := s.time }) ∧
       (m.held = true → ¬ owner → one u m)) ∧
     (Becomes (.semstatWrite port n.val v) s fun u =>
       one u (if bitOf v.toNat 62 then { m with expired := false } else m)) ∧
     (Becomes (.semaphoreExpiry n.val) s fun u =>
       one u m ∧ (s.sems[n].due s.time = false → u = s) ∧
       (s.sems[n].due s.time = true → s.sems[n].ownPort.toNat < 2 → (s.sems[n].ownPort.toNat, 2047) ∉ s.msixPending →
         s.linkUp[dieIx s.sems[n].ownPort.toNat] = true → (s.msixEntry s.sems[n].ownPort.toNat 2047).masked = false →
         Output.msix s.sems[n].ownPort.toNat 2047 ∈ u.out.drop s.out.length))) ∧
  -- semaphore ties
  (∀ (s : State) (port : Nat) (rid rid2 : BitVec 16) (n : Fin 16), s.hostPort port = true → s.hostPort (1 - port) = true →
     s.bootReady = true → s.sems[n].held = false →
     Becomes (.semacqRead port rid (0x100000 + 32 * n.val) 8 (some rid2)) s fun u =>
       u.sems[n].held = true ∧ u.sems[n].ownPort.toNat = s.tieFirst.toNat ∧
       u.sems[n].ownRid = (if s.tieFirst.toNat = port then rid else rid2) ∧ u.sems[n].seq = s.sems[n].seq + 1 ∧
       u.tieFirst = ~~~s.tieFirst ∧ u.out.length = s.out.length + 2)

/-- R14, R437, R438: a 64-bit read of BAR0 by a port that reaches it answers the register, a narrower read of SEMACQ
answers 0 and acquires nothing, and until READY only the management block answers; an aligned 64-bit write writes the
register, and a write of another width writes nothing but a kick and, with 64 bytes, the pod mailbox at offset 0x6000,
whose messages are the events ARRIVE, DEPART and REFUSE (the statement PodBarriers). R14, R18: BAR4 holds the MSI-X table of the port: an
entry that is unmasked sends its pending vector (log 99). R443: PODID is written once; in a tie of the host ports one
write counts. R442: TESTCTL holds the test causes of power-token mode of the four dies. R399: a write of PGRQ names the
ring of its die. R384, R324: a write of CTXPART that ends a context ends its launches that hold no cores, and its saved
gangs, of which those are kept that have engine operations outstanding.
R25, R28, R29, R438: BAR2 reads answer the bytes of HBM, poisoned when a sector's check fails, and writes store them; a
poisoned write leaves its sectors failing. Outside the window a read ends with Unsupported Request, before READY with
Completer Abort, and a write does nothing. What an outside agent writes behind a port is stored there (log 92). -/
def Obligations.HostRegisterAccess : Prop :=
  -- register reads
  (∀ (s : State) (port : Nat) (rid : BitVec 16) (off : Nat), s.reaches port = true →
     let answers := fun (o size : Nat) (w : Word) => off = o → Becomes (.semacqRead port rid off size none) s fun u =>
       u = { s with out := s.out ++ [.regRead port w], epoch := s.epoch + 1 }
     answers 0x1000 8 0x4B590000C0C00001 ∧ answers 0x1008 8 (if s.bootstat = 0 then 0x100 else s.bootstat) ∧
     answers 0x1010 8 s.podid ∧ answers 0x1018 8 s.msense ∧ answers 0x1020 8 s.testctl ∧ answers 0x1028 8 s.logring ∧
     answers 0x1030 8 s.loglost ∧
     (∀ p : Fin 4, answers (0x1080 + 8 * p.val) 8 s.pwinbase[p] ∧ answers (0x10A0 + 8 * p.val) 8 s.pwinuio[p]) ∧
     (∀ (n : Fin 16) (size : Nat), size ∈ [1, 2, 4] →
       answers (0x100000 + 32 * n.val) size 0 ∧ answers (0x100010 + 32 * n.val) size 0) ∧
     (s.bootReady = true →
       answers 0x3000 8 s.lcage ∧
       (∀ q : Fin 32, answers (0x2000 + 64 * q.val) 8 s.queues[q].base ∧ answers (0x2008 + 64 * q.val) 8 s.queues[q].cfg ∧
         answers (0x2010 + 64 * q.val) 8 0 ∧ answers (0x2018 + 64 * q.val) 8 (s.queues[q].head.setWidth 64) ∧
         answers (0x2020 + 64 * q.val) 8 (s.queues[q].stat.setWidth 64)) ∧
       (∀ d : Fin 4, answers (0x3020 + 8 * d.val) 8 s.dies[d].pgrq ∧ answers (0x3040 + 16 * d.val) 8 s.dies[d].spillb ∧
         answers (0x3048 + 16 * d.val) 8 s.dies[d].spilln) ∧
       (∀ k : Fin 64, answers (0x4000 + 16 * k.val) 8 s.ctxroot[k] ∧ answers (0x4008 + 16 * k.val) 8 s.ctxpart[k] ∧
         answers (0x4400 + 16 * k.val) 8 s.pgnring[k] ∧ answers (0x4408 + 16 * k.val) 8 s.pgnmode[k] ∧
         answers (0x5000 + 16 * k.val) 8 s.podbar[k] ∧ answers (0x5008 + 16 * k.val) 8 s.podcfg[k]) ∧
       (∀ c : Fin 192, answers (0x8000 + 16 * c.val) 8 s.cores[c].dbgctl)) ∧
     (s.bootReady = false → off < 0x4000000 → ¬ (0x1000 ≤ off ∧ off < 0x1100) → answers off 8 0)) ∧
  -- register writes
  (∀ (s : State) (port : Nat) (rid : BitVec 16) (off size : Nat) (v : Word), s.reaches port = true → off < 0x4000000 →
     (off % 8 = 0 → s.bootReady = true →
       let writes := fun (o : Nat) (P : State → Prop) => off = o → Becomes (.registerWrite port rid off 8 v) s fun u =>
         P u ∧ u.cores = s.cores ∧ u.mem = s.mem ∧ u.launches = s.launches
       writes 0x3000 (fun u => u.lcage = v) ∧ writes 0x1028 (fun u => u.logring = v) ∧
       (∀ p : Fin 4, writes (0x1080 + 8 * p.val) (fun u => u.pwinbase = s.pwinbase.set p (v &&& 0xFFFE000000000000)) ∧
         writes (0x10A0 + 8 * p.val) (fun u => u.pwinuio = s.pwinuio.set p (v &&& 0x8001FFFFC0000000))) ∧
       (∀ k : Fin 64, writes (0x4000 + 16 * k.val) (fun u => u.ctxroot = s.ctxroot.set k v) ∧
         writes (0x4400 + 16 * k.val) (fun u => u.pgnring = s.pgnring.set k v) ∧
         writes (0x4408 + 16 * k.val) (fun u => u.pgnmode = s.pgnmode.set k (v &&& 0x0FFFFFFFFFFFFFFF)) ∧
         writes (0x5000 + 16 * k.val) (fun u => u.podbar = s.podbar.set k (v &&& 0xFFFFFFFFFC000000)) ∧
         writes (0x5008 + 16 * k.val) (fun u => u.podcfg = s.podcfg.set k (v &&& 0x103)))) ∧
     (size ≠ 8 → ¬ (size = 4 ∧ 0x2000 ≤ off ∧ off < 0x2800 ∧ off % 64 = 0x10) → ¬ (size = 64 ∧ off = 0x6000) →
       Becomes (.registerWrite port rid off size v) s fun u => { u with epoch := s.epoch } = s) ∧
     (s.bootReady = false → ¬ (0x1000 ≤ off ∧ off < 0x1100) →
       Becomes (.registerWrite port rid off size v) s fun u => { u with epoch := s.epoch } = s)) ∧
  -- interrupt table
  (∀ (s : State) (port : Nat) (rid : BitVec 16) (vector : Nat) (v : Word), s.hostPort port = true → vector < 2048 →
     Becomes (.registerWrite port rid (0x4000000 + 16 * vector + 8) 8 v) s fun u =>
       u.msixEntry port vector = { port := port, vector := vector, addr := (s.msixEntry port vector).addr,
                                   data := v.setWidth 32, masked := bitOf v.toNat 32 } ∧
       (∀ k : Nat, k ≠ vector → u.msixEntry port k = s.msixEntry port k) ∧
       (bitOf v.toNat 32 = false → (port, vector) ∈ s.msixPending →
         (port, vector) ∉ u.msixPending ∧ Output.msix port vector ∈ u.out.drop s.out.length) ∧
       (bitOf v.toNat 32 = true → (port, vector) ∈ s.msixPending → (port, vector) ∈ u.msixPending) ∧
       u.cores = s.cores ∧ u.mem = s.mem) ∧
  -- management registers
  (∀ (s : State) (port : Nat) (v w : Word), s.hostPort port = true →
     (Becomes (.podidWrite port v none) s fun u =>
       u.podid = (if bitOf s.podid.toNat 8 then s.podid else (v &&& 0x3F) ||| 0x100) ∧ u.cores = s.cores ∧ u.mem = s.mem) ∧
     (s.hostPort (1 - port) = true → bitOf s.podid.toNat 8 = false →
       Becomes (.podidWrite port v (some w)) s fun u =>
         u.podid = ((if s.tieFirst.toNat = port then v else w) &&& 0x3F) ||| 0x100 ∧ u.tieFirst = ~~~s.tieFirst) ∧
     (Becomes (.testctlWrite port v) s fun u =>
       u.testctl = v &&& 0xF ∧ (∀ d : Fin 4, u.dies[d] = { s.dies[d] with test := v.getLsbD d.val }) ∧
       (∀ c : Fin 192, u.cores[c].tokenMode = u.dies[dieIx (dieOf c.val)].tokenMode ∧
         u.cores[c] = { s.cores[c] with tokenMode := u.cores[c].tokenMode, tokenHeld := u.cores[c].tokenHeld }) ∧
       u.mem = s.mem) ∧
     (s.bootReady = true → ∀ d : Fin 4,
       (∀ r ∈ s.reqs, r.die = d.val → r.posted = true) →
       Becomes (.pgrqWrite port d.val v) s fun u =>
         u.dies[d] = { s.dies[d] with pgrq := v, pgrqLogged := false } ∧ (∀ k : Fin 4, k ≠ d → u.dies[k] = s.dies[k]) ∧
         u.cores = s.cores ∧ u.mem = s.mem) ∧
     (s.bootReady = true → ∀ k : Fin 64,
       Becomes (.ctxpartWrite port k.val v) s fun u =>
         u.ctxpart = s.ctxpart.set k v ∧ u.mem = s.mem ∧
         (bitOf v.toNat 63 = true → u.launches = s.launches ∧ u.outs = s.outs ∧ u.cores = s.cores) ∧
         (bitOf v.toNat 63 = false → (∀ l ∈ u.launches, l.ctx = k.val → l.state = .held ∨ l.state = .closing) ∧
           (∀ g ∈ u.outs, ∀ l ∈ s.launches, l.id = g.launch → l.ctx = k.val →
            g.gone = true ∧ ∃ m ∈ g.images, m.core.ops ≠ []) ∧
           (s.preemptHeld = [] → u.cores = s.cores)))) ∧
  -- bar2 accesses
  (∀ (s : State) (port addr len : Nat) (data : List Byte) (p : Bool), s.portUp port = true →
     let inside := fun (n : Nat) => s.bar2 ≠ 0 ∧ addr + n ≤ s.bar2 ∧ addr + n ≤ Config.hbmSize
     let bytes := (List.range len).map fun i => readByte s.mem (addr + i)
     (s.bootReady = true → inside len → s.anyBad addr len = false →
       Becomes (.bar2Read port addr len) s fun u =>
         u = { s with out := s.out ++ [.bar2Read port bytes false] }) ∧
     (s.bootReady = true → inside len → (∃ k ∈ sectorsOf addr len, k ∈ s.bad) →
       Becomes (.bar2Read port addr len) s fun u =>
         u.mem = s.mem ∧ u.cores = s.cores ∧ u.out = s.out ++ [.bar2Read port bytes true]) ∧
     (s.bootReady = true → ¬ inside len → Becomes (.bar2Read port addr len) s fun u =>
       u = { s with out := s.out ++ [.bar2Error port false] }) ∧
     (s.bootReady = false → Becomes (.bar2Read port addr len) s fun u =>
       u = { s with out := s.out ++ [.bar2Error port true] }) ∧
     (Memory.wf s.mem = true → (s.bootReady = true ∧ inside data.length ∨ (portOf addr).isSome = true) →
       let first := s.fabric addr
       Becomes (.bar2Write port addr data p) s fun u =>
         (∀ a : Nat, readByte u.mem a =
           if first ≤ a ∧ a < first + data.length then data.getD (a - first) 0 else readByte s.mem a) ∧
         (p = true → ∀ k ∈ sectorsOf first data.length, k ∈ u.bad) ∧ u.cores = s.cores) ∧
     (portOf addr = none → (s.bootReady = false ∨ ¬ inside data.length) →
       Becomes (.bar2Write port addr data p) s fun u => u = s))

/-- R444: a write of MCTRL with the reset bit resets the module when the requester owns SEM15; any other requester's
is logged and changes nothing else. R438, R444: a module reset leaves every register at its reset value and boot at stage
1, empties HBM, and keeps the fused minima of the security versions. R438, R439: a boot stage accepts the images of its
kinds, each with the magic, the lengths, a signature of the root key, the digest of its body and a version not below the
fused minimum; it fails otherwise, or where training fails, with FAIL and a code. A stage that ends well goes on to the
next, and the sixth sets READY; stage 2 applies the signed configuration, stage 3 gives the cores their microcode table,
and stage 4 zeroes HBM and makes its checks good. R18, R378: when a host port's link goes down its semaphores are freed
with EXPIRED, and those whose time has run out before then are freed as R20 says; when a link returns, the unmasked
vectors that waited for it are sent in order. The order of the checks of an image, its header's layout and what the
configuration holds are the model's choice (log 13, log 79, log 98); so are the values of `State.reset` that no rule gives
(log 1), and that HBM reads 0 with good checks from the reset on, before stage 4 (log 2). -/
def Obligations.ResetBootAndLinks : Prop :=
  -- module resets
  (∀ (s : State) (port : Nat) (rid : BitVec 16) (v : Word), s.hostPort port = true → bitOf v.toNat 0 = true →
     let after := fun (u : State) =>
       u = { State.reset with mem := u.mem, bad := u.bad, svnMin := s.svnMin, linkUp := s.linkUp, out := s.out,
                              requests := s.requests, inbox := s.inbox, free := s.free, epoch := u.epoch,
                              ticks := s.ticks } ∧
       (∀ k : Nat, k ∈ u.bad ↔ k ∈ s.bad ∧ Config.hbmSize ≤ 64 * k) ∧
       (∀ a : Nat, a < Config.hbmSize → readByte u.mem a = 0) ∧
       (∀ a : Nat, Config.hbmSize ≤ a → readByte u.mem a = readByte s.mem a)
     let m : Sem :=
       if s.sems[15].due s.time then { s.sems[15] with held := false, tleft := 0, expired := true } else s.sems[15]
     let owner := m.held = true ∧ m.ownPort = BitVec.ofNat 2 port ∧ m.ownRid = rid
     Memory.wf s.mem = true →
     Becomes .moduleReset s after ∧
     (owner → Becomes (.mctrlReset port rid v) s after) ∧
     (¬ owner → Becomes (.mctrlReset port rid v) s fun u =>
       u.cores = s.cores ∧ u.mem = s.mem ∧ u.sems = s.sems.set 15 m ∧ u.bootstat = s.bootstat ∧
       (s.log.length < 256 → ∃ e : LogEntry, u.log = s.log ++ [e] ∧ e.kind = 9))) ∧
  -- boot stages
  (∀ (s : State) (b : BootInput) (n : Nat), s.bootFailed = false → s.bootReady = false → s.bootStageNo = n → n ≤ 6 →
     let accepted := fun (f : FwImage) =>
       f.magic = 0x3157464B ∧ f.digest.length = 32 ∧ f.len = f.body.length ∧ f.signature.length = 2420 ∧
       Config.signatureGood Config.rootKey (fwHeader f) f.signature = true ∧ sha3 f.body = f.digest ∧
       s.svnMin[kindIx f.kind].toNat ≤ f.svn.toNat
     let good := if n = 4 then b.linksFail = false else if n = 5 then b.portsFail = false
       else b.images.map (·.kind) = stageImages n ∧ ∀ f ∈ b.images, accepted f
     Becomes (.bootStage b.images b.toSignedConfig b.minor b.linksFail b.portsFail) s fun u =>
       (¬ good → u = { s with bootstat := BitVec.ofNat 64 ((s.stageCode n b).toNat * 65536 + n * 256 + 2) } ∧
         s.stageCode n b ≠ 0) ∧
       (good →
         (n < 6 → u.bootStageNo = n + 1 ∧ u.bootReady = false ∧ u.bootFailed = false) ∧
         (n = 6 → u.bootReady = true ∧ u.bootFailed = false) ∧
         (n = 2 → u.roles = b.roles ∧ u.bar2 = 2 ^ (30 + b.bar2.val) ∧ u.sysVector = b.vector ∧ u.signKey = b.signKey) ∧
         (n = 3 → ∀ c : Fin 192, u.cores[c].mcver.toNat = 65536 + b.minor.toNat) ∧
         (n = 4 → (∀ k ∈ u.bad, Config.hbmSize ≤ 64 * k) ∧ ∀ a : Nat, a < Config.hbmSize → readByte u.mem a = 0) ∧
         (n = 5 → ∀ d : Fin 4, u.dies[d].boot = false) ∧
         (n ≠ 4 → u.mem = s.mem))) ∧
  -- links
  (∀ (s : State) (p : Fin 4),
     (Becomes (.hostLinkDown p.val) s fun u =>
       u.linkUp = s.linkUp.set p false ∧ u.mem = s.mem ∧ u.cores = s.cores ∧
       ∀ n : Fin 16, u.sems[n] =
         if s.sems[n].due s.time = true ∨ (p.val < 2 ∧ s.sems[n].held = true ∧ s.sems[n].ownPort.toNat = p.val) then
           { s.sems[n] with held := false, tleft := 0, expired := true } else s.sems[n]) ∧
     ((∀ l ∈ s.launches, l.state ≠ .held) → s.reqs = [] →
       let goes := fun (x : Nat × Nat) => x.1 == p.val && !(s.msixEntry x.1 x.2).masked
       (Becomes (.hostLinkUp p.val) s fun u =>
         u.linkUp = s.linkUp.set p true ∧ u.out = s.out ++ (s.msixPending.filter goes).map (fun x => .msix x.1 x.2) ∧
         u.msixPending = s.msixPending.filter (fun x => !goes x) ∧ u.mem = s.mem ∧ u.cores = s.cores) ∧
       (Becomes (.peerPortLinkUp p.val) s fun u =>
         u.linkUp = s.linkUp.set p true ∧ u.out = s.out ∧ u.mem = s.mem ∧ u.cores = s.cores)))

/-- R23: a message that fails its checks is dropped and logged, whatever its type; at the home an ARRIVE of another N
than the open phase's is answered by REFUSE and counts nothing, and one that completes a phase is answered by a DEPART
to every member, with its own count; DEPART lets the earliest arrivals depart and ends the phase of its parity; a REFUSE
takes them back. R23: away from home the arrivals counted since the last message of a pod barrier are sent to the home
in one ARRIVE, at most once in 64 cycles. That a package's own identifier counts as no source is the model's choice (log 81). -/
def Obligations.PodBarriers : Prop :=
  -- pod messages
  (∀ (s : State) (m : List Byte), s.bootReady = true →
     (s.podGood m = false → ∀ i ∈ ([.arrive m, .depart m, .refuse m] : List Instr),
       Becomes i s fun u => u.bars = s.bars ∧ u.cores = s.cores ∧ u.mem = s.mem ∧ u.out = s.out ∧
         (s.log.length < 256 → ∃ e : LogEntry, u.log = s.log ++ [e] ∧ e.kind = 10)) ∧
     (s.podGood m = true →
       let podkey := msgField m 4 2
       let bid := msgField m 2 1
       let k := msgField m 8 4
       let n := msgField m 12 4
       (msgField m 0 1 = 1 → s.podHome = s.podId →
         (∀ b : Barrier, s.bars.find? (fun b => b.key == .pod podkey bid) = some b → b.n ≠ 0 → b.n ≠ n →
           Becomes (.arrive m) s fun u => u.bars = s.bars ∧ u.cores = s.cores ∧
             ∃ (p : Nat) (a : Word) (msg : List Byte), u.out = s.out ++ [.podMessage (msgField m 1 1) p a msg] ∧
               msgField msg 0 1 = 3 ∧ msgField msg 8 4 = k) ∧
         (s.bars.find? (fun b => b.key == .pod podkey bid) = none → n = k → n ≠ 0 →
           Becomes (.arrive m) s fun u => u.cores = s.cores ∧ u.podPhase podkey bid = !s.podPhase podkey bid ∧
             ∀ j ∈ s.podMembers, j ≠ s.podId → ∃ (p : Nat) (a : Word) (msg : List Byte),
               Output.podMessage j p a msg ∈ u.out ∧ msgField msg 0 1 = 2 ∧
               msgField msg 8 4 = if j = msgField m 1 1 then k else 0)) ∧
       (∀ b : Barrier, s.podRecord m = some b →
         let bars := (s.bars.map fun c => if c.id = b.id then { b with arrived := b.arrived.drop k } else c).filter Barrier.open
         let told := fun (u : State) (w : Wait) => ∀ a ∈ b.arrived.take k, ∀ (c : Fin 192) (h : Fin 8), h.val = a.hart →
             (s.cores[c].palletId c.val).1 = a.launch → (s.cores[c].palletId c.val).2.2 = a.index →
             u.cores[c].harts[h].wait = w
         (msgField m 0 1 = 2 → Becomes (.depart m) s fun u =>
           u.bars = bars ∧ u.mem = s.mem ∧ told u .departed ∧ u.podPhase podkey bid = decide (msgField m 3 1 = 0)) ∧
         (msgField m 0 1 = 3 → Becomes (.refuse m) s fun u => u.bars = bars ∧ u.mem = s.mem ∧ told u .refused)))) ∧
  -- pod arrivals sent
  (∀ (s : State) (b : Barrier) (podkey bid : Nat), s.bars.find? (·.id == b.id) = some b → b.key = .pod podkey bid →
     b.unsent ≠ 0 → s.podHome ≠ s.podId →
     let body := [1, BitVec.ofNat 8 s.podId, BitVec.ofNat 8 bid, (if s.podPhase podkey bid then 1 else 0)] ++
       bytesOfLe 2 podkey ++ [0, 0] ++ bytesOfLe 4 b.unsent ++ bytesOfLe 4 b.n ++ List.replicate 44 (0 : Byte)
     let last := s.podSent.find? (·.1 == (podkey, bid))
     ((∀ p, last = some p → p.2 + 64 ≤ s.time) → Becomes (.podArriveSend b.id) s fun u =>
       u.bars = (s.bars.map fun c => if c.id = b.id then { b with unsent := 0 } else c).filter Barrier.open ∧
       u.out = s.out ++ [.podMessage s.podHome (bitsOf (s.podcfg[ix64 s.podHome]).toNat 0 2)
         (s.podbar[ix64 s.podHome] + 0x6000) (body ++ bytesOfLe 4 (crc32c body).toNat)] ∧
       u.podSent.find? (·.1 == (podkey, bid)) = some ((podkey, bid), s.time) ∧ u.cores = s.cores ∧ u.mem = s.mem) ∧
     ((∃ p, last = some p ∧ s.time < p.2 + 64) → Becomes (.podArriveSend b.id) s fun u =>
       u.bars = s.bars ∧ u.out = s.out ∧ u.cores = s.cores ∧ u.mem = s.mem))

/-- R440: Epvimond answers the attestation requests it supports on the port that asked: the algorithms ML-DSA-44 and
SHA3-256, the chain of slot 0 and its digest, and the blocks that boot has measured; it refuses a slot other than 0 and a
block that does not exist, and answers any other request by ERROR with UnsupportedRequest; nothing else changes. What a
signature covers, that a request for another slot or for a block that does not exist is answered by InvalidRequest, and that
index 255 asks for every block are presumed (log 30). R445: a management message reads MSENSE, BOOTSTAT or the unsent log
entries, and a halt request halts the core's gang with reason 0x36, or is held while its pallet is not in RUN. That the
answer to READ_LOG holds every unsent entry with phase 0 and leaves them unsent is the model's choice (log 71). -/
def Obligations.AttestationAndManagement : Prop :=
  -- attestation
  (∀ (s : State) (port slot nonce idx : Nat) (code : BitVec 8), s.hostPort port = true →
     let answers := fun (i : Instr) (a : SpdmAnswer) => Becomes i s fun u => u = { s with out := s.out ++ [.spdm port a] }
     let block := fun (n : Nat) => s.measured.find? (·.1 == n)
     let fw := ((block 1).map (·.2)).getD []
     let chain := Config.certificate fw
     answers (.getVersion port) .version ∧ answers (.getCapabilities port) .capabilities ∧
     answers (.negotiateAlgorithms port) (.algorithms "ML-DSA-44" "SHA3-256") ∧
     answers (.getDigests port) (.digests (sha3 chain)) ∧ answers (.getCertificate port 0) (.certificate 0 chain) ∧
     (slot ≠ 0 → answers (.getCertificate port slot) .invalidRequest ∧
       answers (.challenge port slot nonce) .invalidRequest) ∧
     answers (.challenge port 0 nonce) (.challengeAuth (Config.sign fw (sha3 chain ++ bytesOfLe 32 nonce))) ∧
     (idx ≠ 255 → (∀ p, block idx = some p → answers (.getMeasurements port idx) (.measurements [p] (Config.sign fw p.2))) ∧
       (block idx = none → answers (.getMeasurements port idx) .invalidRequest)) ∧
     (let all := [1, 2, 3, 4, 5, 6].filterMap block
      all ≠ [] → answers (.getMeasurements port 255) (.measurements all (Config.sign fw (all.flatMap (·.2))))) ∧
     answers (.spdmUnsupportedRequest port code) (.unsupportedRequest code)) ∧
  -- management messages
  (∀ (s : State) (via : Nat) (c : Fin 192), s.mctpReaches via = true →
     (Becomes (.mctpReadMsense via) s fun u => u = { s with out := s.out ++ [.mctp via (bytesOfLe 8 s.msense.toNat)] }) ∧
     (Becomes (.mctpReadBootstat via) s fun u =>
       u = { s with out := s.out ++ [.mctp via (bytesOfLe 8 (if s.bootstat = 0 then 256 else s.bootstat.toNat))] }) ∧
     (Becomes (.mctpReadLog via) s fun u =>
       u = { s with out := s.out ++ [.mctp via (s.log.flatMap fun e => e.bytes false)] }) ∧
     (s.cores[c].halted = false →
       (s.cores[c].pallet = none → (∀ g ∈ s.outs, ∀ m ∈ g.images, m.home ≠ c.val) →
         Becomes (.mctpHaltRequest via c.val) s fun u =>
         u.cores[c].haltHeld = some 0x36 ∧ bitsOf u.cores[c].dbgstat.toNat 0 2 = 2 ∧
         (∀ k : Fin 192, k ≠ c → u.cores[k] = s.cores[k]) ∧ u.mem = s.mem) ∧
       (s.cores[c].pallet = none → (∃ g ∈ s.outs, ∃ m ∈ g.images, m.home = c.val) →
         Becomes (.mctpHaltRequest via c.val) s fun u =>
         bitsOf u.cores[c].dbgstat.toNat 0 2 = 2 ∧ u.mem = s.mem ∧
         ∀ g ∈ u.outs, ∀ m ∈ g.images, m.home = c.val → m.core.haltHeld = some 0x36) ∧
       (∀ p : Pallet, s.cores[c].pallet = some p → p.board = .run → (∀ h : Fin 8, s.cores[c].harts[h].st ≠ .taken) →
         s.cores[c].stream.taken = false → Becomes (.mctpHaltRequest via c.val) s fun u =>
           u.cores[c].halted = true ∧ bitsOf u.cores[c].dbgstat.toNat 8 8 = 0x36 ∧ u.mem = s.mem ∧
           ∀ h : Fin 8, s.cores[c].harts[h].st = .running → u.cores[c].harts[h].st = .halted)))

/-- R381: above 1 600 W the governor halves CAP, in steps of 2 048 and not below 2 048; after ten updates below 1 520
W it raises CAP by 2 048, not above 65 536; VLPWR of the die's cores follows. R382: once CAP has stood at 2 048 for 100
updates with the power above 1 600 W the die enters power-token mode, and it leaves it after 1 000 updates below 1 520
W. R320: the token passes to the next core of the die. R441: a reading of the temperature above 105 °C holds every die in
power-token mode at CAP 2 048, one below 95 °C ends the hold, and one at 115 °C or above resets the module with a log
entry of KIND 8 and boot stopped with code 6, while the holds stay: it is the reading that decides, whichever of the three
events reports it (log 69). That the log then holds this entry alone is the model's choice (log 61). R384: a contained
hardware error of a pallet halts the core with reason 0x37 and its pallet ends with HWERR, both in one step (log 69); that of
a unit is found by the unit's next use (log 95). -/
def Obligations.PowerAndHeat : Prop :=
  -- power governor
  (∀ (s : State) (d : Fin 4) (p : BitVec 16),
     let D := s.dies[d]
     let spread := fun (u : State) => ∀ c : Fin 192,
       u.cores[c] = { s.cores[c] with tokenMode := u.dies[dieIx (dieOf c.val)].tokenMode, tokenHeld := u.cores[c].tokenHeld }
     (D.thermal = false → D.cap.toNat ≤ 65536 →
       Becomes (.governorUpdate d.val p) s fun u =>
         (16000 < p.toNat → u.dies[d].cap.toNat = max 2048 (D.cap.toNat / 2 / 2048 * 2048)) ∧
         (p.toNat < 15200 → D.low < 9 → u.dies[d].cap = D.cap ∧ u.dies[d].low = D.low + 1) ∧
         (p.toNat < 15200 → 9 ≤ D.low → u.dies[d].cap.toNat = min 65536 (D.cap.toNat + 2048) ∧ u.dies[d].low = 0) ∧
         (15200 ≤ p.toNat → p.toNat ≤ 16000 → u.dies[d].cap = D.cap) ∧
         u.dies[d].stood = (if u.dies[d].cap = 2048 then D.stood + 1 else 0) ∧
         u.dies[d].cool = (if p.toNat < 15200 then D.cool + 1 else 0) ∧
         (∀ k : Fin 4, k ≠ d → u.dies[k] = s.dies[k]) ∧ bitsOf u.msense.toNat 0 16 = p.toNat ∧ u.mem = s.mem ∧
         ∀ c : Fin 192, u.cores[c] =
           { s.cores[c] with vlpwr := if c.val / 48 = d.val then u.dies[d].cap else s.cores[c].vlpwr }) ∧
     (100 ≤ D.stood → 16000 < s.power → Becomes (.powerRecoveryEnter d.val) s fun u =>
       u.dies = s.dies.set d { D with recovery := true } ∧ spread u ∧ u.mem = s.mem) ∧
     (1000 ≤ D.cool → Becomes (.powerRecoveryExit d.val) s fun u =>
       u.dies = s.dies.set d { D with recovery := false } ∧ spread u ∧ u.mem = s.mem) ∧
     (D.tokenMode = true → D.token < 48 → Becomes (.powerTokenPass d.val) s fun u =>
       u.dies = s.dies.set d { D with token := (D.token + 1) % 48 } ∧ u.mem = s.mem ∧
       ∀ c : Fin 192, c.val / 48 = d.val → u.cores[c].tokenHeld = decide (c.val % 48 = (D.token + 1) % 48))) ∧
  -- temperature
  (∀ (s : State) (tj : BitVec 8),
     ∀ i ∈ ([.thermalThrottle tj, .thermalRelease tj, .thermalReset tj] : List Instr),
     (95 ≤ tj.toNat → tj.toNat ≤ 105 → Becomes i s fun u =>
       bitsOf u.msense.toNat 40 8 = tj.toNat ∧ u = { s with msense := u.msense }) ∧
     (105 < tj.toNat → tj.toNat < 115 → Becomes i s fun u =>
       (∀ d : Fin 4, u.dies[d] = { s.dies[d] with thermal := true, cap := 2048 }) ∧
       (∀ c : Fin 192, u.cores[c].vlpwr = 2048 ∧ u.cores[c].tokenMode = true) ∧
       bitsOf u.msense.toNat 40 8 = tj.toNat ∧ u.mem = s.mem) ∧
     (tj.toNat < 95 → Becomes i s fun u =>
       (∀ d : Fin 4, u.dies[d] = { s.dies[d] with thermal := false }) ∧ bitsOf u.msense.toNat 40 8 = tj.toNat ∧
       (∀ c : Fin 192, u.cores[c].tokenMode = u.dies[dieIx (dieOf c.val)].tokenMode) ∧ u.mem = s.mem ∧
       (s.bootstat = 0x60002 → u.bootstat = 0) ∧ (s.bootstat.toNat / 65536 ≠ 6 → u.bootstat = s.bootstat)) ∧
     (115 ≤ tj.toNat → Becomes i s fun u =>
       u.bootFailed = true ∧ bitsOf u.bootstat.toNat 16 8 = 6 ∧ u.bootReady = false ∧ u.launches = [] ∧
       (∀ c : Fin 192, u.cores[c] =
         { Core.reset with vlpwr := 2048, tokenMode := true, tokenHeld := decide (c.val % 48 = 0) }) ∧
       (∀ d : Fin 4, u.dies[d] = { Die.reset with thermal := true, cap := 2048 }) ∧ u.svnMin = s.svnMin ∧
       (s.log.length < 256 → (u.log.map (·.kind)) = [8]))) ∧
  -- contained errors
  (∀ (s : State) (c : Fin 192),
     (∀ p : Pallet, s.cores[c].pallet = some p → Becomes (.containedHardwareError ⟨c.val, .pallet⟩) s fun u =>
       bitsOf u.cores[c].dbgstat.toNat 8 8 = 0x37 ∧ u.cores[c].halted = true ∧
       (∃ q : Pallet, u.cores[c].pallet = some q ∧ q.board = .join ∧ q.failed = some (p.failed.getD 0x1D)) ∧
       u.mem = s.mem) ∧
     (∀ w : HwUnit, w ≠ .pallet → Becomes (.containedHardwareError ⟨c.val, w⟩) s fun u => w ∈ u.cores[c].flaws ∧
       u = { s with cores := s.cores.set c { s.cores[c] with flaws := u.cores[c].flaws } }))

/-- What reset leaves where the rules give a value: the CSRs of every hart and core (R50, R93, R99, R233, R281, R271,
R293, R312, R360), the semaphores (R19), the queues and LCAGE (R363, R372), the power cap (R381). The model's choice are: no
byte of memory listed (log 2); empty device queues, no pallet on any core, harts without privilege, outside the handler and
with no PFX pending, and semaphores loaded at time 0 (log 1). -/
def Obligations.ResetValues : Prop :=
  (∀ (c : Fin 192) (h : Fin 8),
    let hart := (State.reset.cores[c]).harts[h]
    hart.dcthr = 262144 ∧ hart.kvfthr = 0x3F800000 ∧ hart.vtestint = 16 ∧ hart.vl = 0 ∧ hart.vseg = 0 ∧
    hart.cmask = 0 ∧ hart.smbs = Vector.replicate 4 0 ∧ hart.tvec = 0 ∧ hart.tcause = 0 ∧ hart.tpfx = 0 ∧
    hart.pfx = none ∧ hart.sys = false ∧ hart.inh = false) ∧
  (∀ c : Fin 192,
    let k := State.reset.cores[c]
    k.ctag = BitVec.allOnes 64 ∧ k.cterr = 0 ∧ k.vlpwr = 65536 ∧ k.sltol = 0x3727C5AC ∧ k.slcap = 16 ∧
    k.sldiv = 0x40000000 ∧ k.sliter = 0 ∧ k.slphase = 0 ∧ k.slrprev = 0x7F800000 ∧ k.dbgctl = 0 ∧ k.dbgstat = 0 ∧
    k.tokenMode = false ∧ k.pallet = none ∧ k.ptroot = 0 ∧
    (∀ n : Fin 4, (k.lists[n]).init = false ∧ k.binds[n] = none) ∧ ∀ n : Fin 2, k.bb[n] = .empty) ∧
  (∀ n : Fin 16, State.reset.sems[n] = { held := false, expired := false, ownPort := 0, ownRid := 0, seq := 0,
                                         timeout := 1000000, loadedAt := 0, tleft := 0 }) ∧
  (∀ q : Fin 32, (State.reset.queues[q]).cfg = 0 ∧ (State.reset.queues[q]).head = 0 ∧
    (State.reset.queues[q]).tail = 0 ∧ (State.reset.queues[q]).stat = 0) ∧
  (∀ d : Fin 4, (State.reset.dies[d]).cap = 65536 ∧ (State.reset.dies[d]).boot = true ∧
    (State.reset.dies[d]).devq = []) ∧
  State.reset.lcage = 1048576 ∧ State.reset.bootstat = 0 ∧ State.reset.mem = [] ∧ Memory.wf State.reset.mem = true

/-- R8: memory in its canonical form. A byte written is read back and every other byte stays; several bytes are least
significant first; the form is kept; and two memories in the form that read alike are one memory. The canonical form
is the model's own (log 2). -/
def Obligations.MemoryOperations : Prop :=
  ∀ m : List Host.Cell, Memory.wf m = true →
    (∀ (a : Nat) (v : Byte), Memory.wf (writeByte m a v) = true ∧
      ∀ b : Nat, readByte (writeByte m a v) b = if b = a then v else readByte m b) ∧
    (∀ a n : Nat, readLE m a n < 256 ^ n ∧ (∀ k : Nat, k < n → readLE m a n / 256 ^ k % 256 = (readByte m (a + k)).toNat)) ∧
    (∀ a n v : Nat, Memory.wf (writeLE m a n v) = true ∧
      (∀ b : Nat, readByte (writeLE m a n v) b =
        if a ≤ b ∧ b < a + n then BitVec.ofNat 8 (v / 256 ^ (b - a)) else readByte m b) ∧
      readLE (writeLE m a n v) a n = v % 256 ^ n) ∧
    (∀ (a : Nat) (bs : List Byte), Memory.wf (writeBytes m a bs) = true ∧
      (∀ b : Nat, readByte (writeBytes m a bs) b = if a ≤ b ∧ b < a + bs.length then bs.getD (b - a) 0 else readByte m b) ∧
      readBytes (writeBytes m a bs) a bs.length = bs) ∧
    ∀ m' : List Host.Cell, Memory.wf m' = true → (∀ a : Nat, readByte m a = readByte m' a) → m = m'

/-- Every step keeps the canonical form of memory: whoever moves, and whatever the instruction or the event. The
canonical form is the model's own (log 2). -/
def Obligations.MemoryFormKept : Prop :=
  ∀ s t : State, Memory.wf s.mem = true → step s = .next t → Memory.wf t.mem = true

/-- R138, R40, R144: when it is a party's turn, nothing is met at the instruction boundary, its program counter can be
fetched through without waiting for a walker, the instruction cache holds no older copy of the sector, and the word there decodes to i, then the
step is exec of i at the state in which that party is the current one; nothing of the machine changed before that but
the clock and the issue count of the core (R353, R376) and what caches and walkers hold. Before i, loads of the party that are
still open end, or take the value of this moment, or stay open, as log 93 says of R191; without one, the step is exec of i at
that state itself. The order of steps and the clock are the model's choice (log 5, log 12). -/
def Obligations.StepRunsDecoded : Prop :=
  ∀ (s : State) (p : Party) (x : Xlat) (i : Instr), s.inbox = [] → s.turn = some p →
    (s.tick.enter p).boundary = none → (s.tick.enter p).lateWalk [(s.tick.enter p).pc.toNat] = none →
    (s.tick.enter p).reach { kind := .fetch, source := (s.tick.enter p).source 0, align := 4 }
      (s.tick.enter p).pc.toNat = some x →
    s.anyBad x.pa 4 = false →
    ((s.tick.enter p).core.icache.all fun l => l.sector != x.pa / 64) = true →
    decode (readLE s.mem x.pa 4) = .ok i →
    ∃ u : State, step s = exec i (u.settleLoads i) ∧
      ((∀ l ∈ (s.cores[p.core]).lates, l.who ≠ p.who) → step s = exec i u) ∧ OnlyTraces (s.tick.enter p) u ∧ u.cur = p ∧ u.turn = none ∧ u.mem = s.mem ∧
      u.th = (s.cores[p.core]).th p.who ∧ u.pfx = (match p.who with
        | .hart h => ((s.cores[p.core]).harts[h]).pfx
        | .stream => none)

/-- What a step is apart from a party's word (the model's order of steps, log 5): the next event of the inbox first;
with nothing that can move, time passes; otherwise one of the possible moves, a party's turn or an engine's step, and
an engine's step is exec of the event that the opcode table names for it. A step that is no party's ends the loads that
are still open (log 93). -/
def Obligations.StepTakesEvents : Prop :=
  ∀ s : State,
    let ended := fun (t : State) => { t with cores := t.cores.map fun c => { c with lates := [] } }
    (∀ (e : Instr) (rest : List Instr), s.inbox = e :: rest → e.isWord = false →
      step s = exec e (ended { s.tick with inbox := rest })) ∧
    (∀ (e : Instr) (rest : List Instr), s.inbox = e :: rest → e.isWord = true →
      step s = .next { s.tick with inbox := rest }) ∧
    (s.inbox = [] → s.tick.choices = [] → step s = .next { s.tick with epoch := s.epoch + 1 }) ∧
    (s.inbox = [] → s.tick.choices ≠ [] → ∃ c ∈ s.tick.choices, ∃ t : State,
      t = { s.tick with free := t.free } ∧
      match c with
      | .event e => step s = e.perform (ended t)
      | .party p => (∃ u, step s = .next u ∧ t.turnOf p = .stopped u) ∨
          (∃ i u, step s = exec i u ∧ t.turnOf p = .run i u) ∨
          (∃ w u, step s = exec (.illegalWord w) u ∧ t.turnOf p = .illegal w u)) ∧
    (∀ a b c : Nat,
      (EngineStep.copyComplete a b c).perform s = exec (.copyComplete a b c) s ∧
      (EngineStep.gatherElementArrive a b c).perform s = exec (.gatherElementArrive a b c) s ∧
      (EngineStep.planeSlotDelivered a b).perform s = exec (.planeSlotDelivered a b) s ∧
      (EngineStep.slabOpComplete a b).perform s = exec (.slabOpComplete a b) s ∧
      (EngineStep.bLoadComplete a b).perform s = exec (.bLoadComplete a b) s ∧
      (EngineStep.tkmrgComplete a b).perform s = exec (.tkmrgComplete a b) s ∧
      (EngineStep.walkStart a).perform s = exec (.walkStart a) s ∧
      (EngineStep.ringHeadPoll a).perform s = exec (.ringHeadPoll a) s ∧
      (EngineStep.queueSlotRetry a).perform s = exec (.queueSlotRetry a) s ∧
      (EngineStep.queueStall a).perform s = exec (.queueStall a) s ∧
      (EngineStep.launchRecordTake a).perform s = exec (.launchRecordTake a) s ∧
      (EngineStep.codeObjectLoad a).perform s = exec (.codeObjectLoad a) s ∧
      (EngineStep.launchWaitPoll a).perform s = exec (.launchWaitPoll a) s ∧
      EngineStep.placementDecision.perform s = exec .placementDecision s ∧
      EngineStep.coreReservation.perform s = exec .coreReservation s ∧
      (EngineStep.launchComplete a).perform s = exec (.launchComplete a) s ∧
      (EngineStep.gangSave a b).perform s = exec (.gangSave a b) s ∧
      (EngineStep.gangRestore a b).perform s = exec (.gangRestore a b) s ∧
      (EngineStep.semaphoreExpiry a).perform s = exec (.semaphoreExpiry a) s ∧
      (EngineStep.podArriveSend a).perform s = exec (.podArriveSend a) s)

/-- The words that the rules write out, each the instruction that its rule says (R168, R171, R216, R220, R235, R240,
R246, R270, R274, R283, R295, R300, R306, R307, R310, R315, R329, R332, R335, R336, R339, R340, R341, R343, R347,
R348, R351, R146). -/
def Obligations.WordsOfTheSpec : Prop :=
  decode 0x60A63604 = .ok (.ldI32 5 6 3 4) ∧
  decode 0x6C084BE4 = .ok (.amomaxN 0 8 9 1 2 4) ∧
  decode 0x6C084BA4 = .ok (.amomaxN 0 8 9 0 2 4) ∧
  decode 0xB152B002 = .ok (.pcw 10 18 22 0) ∧
  decode 0xB00E0101 = .ok (.pwr 0 14 0 1) ∧
  decode 0xBD001600 = .ok (.pcnt 8 44) ∧
  decode 0xD8E60000 = .ok (.setvl 7 6) ∧
  decode 0xC0221900 = .ok (.vadd 1 2 3 2 0 0) ∧
  decode 0xC8853700 = .ok (.vfadd 4 5 6 14 0) ∧
  decode 0xE0644C20 = .ok (.vtopk 3 4 9 8 0) ∧
  decode 0xE5240A00 = .ok (.tkins 9 4 0 2 0) ∧
  decode 0xE4A06400 = .ok (.tkthr 5 1 1) ∧
  decode 0xE8CC0215 = .ok (.vdotv 6 12 4 1 1) ∧
  decode 0xF4A60000 = .ok (.fork 5 6) ∧
  decode 0xF4001000 = .ok .rdv ∧
  decode 0xF4001001 = .ok .rdvEnd ∧
  decode 0xF0060009 = .ok (.sbind 6 2 1) ∧
  decode 0xF00A6200 = .ok (.smma 10 12) ∧
  decode 0xF1800180 = .ok (.stile 12 0) ∧
  decode 0xF0A0628B = .ok (.sdrainVreg 5 12 0 3) ∧
  decode 0xF0A603A0 = .ok (.miter 5 6 1 0 0 0) ∧
  decode 0x05084000 = .ok (.add 8 8 8) ∧
  decode 0x04A63801 = .ok (.sub 5 6 7) ∧
  decode 0x1020FFFF = .ok (.addi 1 0 0xFFFF) ∧
  decode 0x10000000 = .ok (.addi 0 0 0) ∧
  decode 0x40A03FF0 = .ok (.bne 5 0 0x1FF0) ∧
  decode 0x4C1F0000 = .ok (.jalr 0 31 0) ∧
  decode 0x54008004 = .ok (.smbsImm 0 4) ∧
  decode 0x50CA5FEC = .ok (.smb 6 10 2 0x1FEC) ∧
  decode 0xF8000080 = .ok (.bar 0 1) ∧
  decode 0xF8A92064 = .ok (.waitvGe 5 9 3 4) ∧
  decode 0xF8A02414 = .ok (.csrr 5 0x14) ∧
  decode 0xF8003407 = .ok (.svc 7) ∧
  decode 0x2CA00002 = .ok (.auipc 5 2) ∧
  decode 0x10A58000 = .ok (.addi 5 5 0x8000) ∧
  decode 0xF8004400 = .ok .yield ∧
  decode 0xF8005800 = .ok .icinv ∧
  decode 0xF8005C00 = .ok .sdcinv ∧
  decode 0xFDE90000 = .ok (.pfx 3 1 1 9)

/-- R139, R141 to R145: writing a well-formed instruction as a word and reading it back gives the instruction, with
every operand at every value. R139, R141 to R145: a word that decodes is the word of the instruction it decodes to,
which is well-formed: no two words are one instruction and no bit is dropped; and the four bytes of a word in memory
order decode as the word does. -/
def Obligations.DecodeAndEncodeAgree : Prop :=
  -- decode of encode
  (∀ i : Instr, i.wf = true → encode i < 2 ^ 32 ∧ decode (encode i) = .ok i ∧ decodeTableWord 32 (encode i) = some i) ∧
  -- encode of decode
  (∀ (w : Nat) (i : Instr), decode w = .ok i →
     i.wf = true ∧ encode i = w ∧ ∀ rest : List Byte, decodeBytes (bytesOfWord w ++ rest) = some (.ok i, rest))
end

