-- ==== Sys2Proof/Laws/State.lean ====
section
/-! SUPPORT. What each update of the state leaves in each field: one lemma per field and update, all true by definition. -/

namespace Sys2Proof.Machine

/-! ### State.setCore -/

@[simp] theorem State.setCore_dies (s : State) (c : Core) : (s.setCore c).dies = s.dies := rfl
@[simp] theorem State.setCore_mem (s : State) (c : Core) : (s.setCore c).mem = s.mem := rfl
@[simp] theorem State.setCore_bad (s : State) (c : Core) : (s.setCore c).bad = s.bad := rfl
@[simp] theorem State.setCore_sems (s : State) (c : Core) : (s.setCore c).sems = s.sems := rfl
@[simp] theorem State.setCore_tieFirst (s : State) (c : Core) : (s.setCore c).tieFirst = s.tieFirst := rfl
@[simp] theorem State.setCore_podbar (s : State) (c : Core) : (s.setCore c).podbar = s.podbar := rfl
@[simp] theorem State.setCore_podcfg (s : State) (c : Core) : (s.setCore c).podcfg = s.podcfg := rfl
@[simp] theorem State.setCore_ctxroot (s : State) (c : Core) : (s.setCore c).ctxroot = s.ctxroot := rfl
@[simp] theorem State.setCore_ctxpart (s : State) (c : Core) : (s.setCore c).ctxpart = s.ctxpart := rfl
@[simp] theorem State.setCore_pgnring (s : State) (c : Core) : (s.setCore c).pgnring = s.pgnring := rfl
@[simp] theorem State.setCore_pgnmode (s : State) (c : Core) : (s.setCore c).pgnmode = s.pgnmode := rfl
@[simp] theorem State.setCore_queues (s : State) (c : Core) : (s.setCore c).queues = s.queues := rfl
@[simp] theorem State.setCore_lcage (s : State) (c : Core) : (s.setCore c).lcage = s.lcage := rfl
@[simp] theorem State.setCore_bootstat (s : State) (c : Core) : (s.setCore c).bootstat = s.bootstat := rfl
@[simp] theorem State.setCore_podid (s : State) (c : Core) : (s.setCore c).podid = s.podid := rfl
@[simp] theorem State.setCore_msense (s : State) (c : Core) : (s.setCore c).msense = s.msense := rfl
@[simp] theorem State.setCore_testctl (s : State) (c : Core) : (s.setCore c).testctl = s.testctl := rfl
@[simp] theorem State.setCore_logring (s : State) (c : Core) : (s.setCore c).logring = s.logring := rfl
@[simp] theorem State.setCore_loglost (s : State) (c : Core) : (s.setCore c).loglost = s.loglost := rfl
@[simp] theorem State.setCore_logBad (s : State) (c : Core) : (s.setCore c).logBad = s.logBad := rfl
@[simp] theorem State.setCore_pwinbase (s : State) (c : Core) : (s.setCore c).pwinbase = s.pwinbase := rfl
@[simp] theorem State.setCore_pwinuio (s : State) (c : Core) : (s.setCore c).pwinuio = s.pwinuio := rfl
@[simp] theorem State.setCore_roles (s : State) (c : Core) : (s.setCore c).roles = s.roles := rfl
@[simp] theorem State.setCore_bar2 (s : State) (c : Core) : (s.setCore c).bar2 = s.bar2 := rfl
@[simp] theorem State.setCore_sysVector (s : State) (c : Core) : (s.setCore c).sysVector = s.sysVector := rfl
@[simp] theorem State.setCore_linkUp (s : State) (c : Core) : (s.setCore c).linkUp = s.linkUp := rfl
@[simp] theorem State.setCore_msixPending (s : State) (c : Core) : (s.setCore c).msixPending = s.msixPending := rfl
@[simp] theorem State.setCore_svnMin (s : State) (c : Core) : (s.setCore c).svnMin = s.svnMin := rfl
@[simp] theorem State.setCore_signKey (s : State) (c : Core) : (s.setCore c).signKey = s.signKey := rfl
@[simp] theorem State.setCore_raiseMin (s : State) (c : Core) : (s.setCore c).raiseMin = s.raiseMin := rfl
@[simp] theorem State.setCore_svnBoot (s : State) (c : Core) : (s.setCore c).svnBoot = s.svnBoot := rfl
@[simp] theorem State.setCore_measured (s : State) (c : Core) : (s.setCore c).measured = s.measured := rfl
@[simp] theorem State.setCore_msixTable (s : State) (c : Core) : (s.setCore c).msixTable = s.msixTable := rfl
@[simp] theorem State.setCore_requests (s : State) (c : Core) : (s.setCore c).requests = s.requests := rfl
@[simp] theorem State.setCore_podParity (s : State) (c : Core) : (s.setCore c).podParity = s.podParity := rfl
@[simp] theorem State.setCore_podSent (s : State) (c : Core) : (s.setCore c).podSent = s.podSent := rfl
@[simp] theorem State.setCore_out (s : State) (c : Core) : (s.setCore c).out = s.out := rfl
@[simp] theorem State.setCore_log (s : State) (c : Core) : (s.setCore c).log = s.log := rfl
@[simp] theorem State.setCore_launches (s : State) (c : Core) : (s.setCore c).launches = s.launches := rfl
@[simp] theorem State.setCore_nextLaunch (s : State) (c : Core) : (s.setCore c).nextLaunch = s.nextLaunch := rfl
@[simp] theorem State.setCore_loads (s : State) (c : Core) : (s.setCore c).loads = s.loads := rfl
@[simp] theorem State.setCore_nextLoad (s : State) (c : Core) : (s.setCore c).nextLoad = s.nextLoad := rfl
@[simp] theorem State.setCore_outs (s : State) (c : Core) : (s.setCore c).outs = s.outs := rfl
@[simp] theorem State.setCore_kernels (s : State) (c : Core) : (s.setCore c).kernels = s.kernels := rfl
@[simp] theorem State.setCore_symbols (s : State) (c : Core) : (s.setCore c).symbols = s.symbols := rfl
@[simp] theorem State.setCore_rotation (s : State) (c : Core) : (s.setCore c).rotation = s.rotation := rfl
@[simp] theorem State.setCore_burst (s : State) (c : Core) : (s.setCore c).burst = s.burst := rfl
@[simp] theorem State.setCore_blocked (s : State) (c : Core) : (s.setCore c).blocked = s.blocked := rfl
@[simp] theorem State.setCore_backfills (s : State) (c : Core) : (s.setCore c).backfills = s.backfills := rfl
@[simp] theorem State.setCore_reserved (s : State) (c : Core) : (s.setCore c).reserved = s.reserved := rfl
@[simp] theorem State.setCore_preemptHeld (s : State) (c : Core) : (s.setCore c).preemptHeld = s.preemptHeld := rfl
@[simp] theorem State.setCore_reqs (s : State) (c : Core) : (s.setCore c).reqs = s.reqs := rfl
@[simp] theorem State.setCore_nextReq (s : State) (c : Core) : (s.setCore c).nextReq = s.nextReq := rfl
@[simp] theorem State.setCore_bars (s : State) (c : Core) : (s.setCore c).bars = s.bars := rfl
@[simp] theorem State.setCore_nextBar (s : State) (c : Core) : (s.setCore c).nextBar = s.nextBar := rfl
@[simp] theorem State.setCore_time (s : State) (c : Core) : (s.setCore c).time = s.time := rfl
@[simp] theorem State.setCore_cur (s : State) (c : Core) : (s.setCore c).cur = s.cur := rfl
@[simp] theorem State.setCore_issued (s : State) (c : Core) : (s.setCore c).issued = s.issued := rfl
@[simp] theorem State.setCore_unitLast (s : State) (c : Core) : (s.setCore c).unitLast = s.unitLast := rfl
@[simp] theorem State.setCore_turn (s : State) (c : Core) : (s.setCore c).turn = s.turn := rfl
@[simp] theorem State.setCore_ticks (s : State) (c : Core) : (s.setCore c).ticks = s.ticks := rfl
@[simp] theorem State.setCore_inbox (s : State) (c : Core) : (s.setCore c).inbox = s.inbox := rfl
@[simp] theorem State.setCore_free (s : State) (c : Core) : (s.setCore c).free = s.free := rfl
@[simp] theorem State.setCore_epoch (s : State) (c : Core) : (s.setCore c).epoch = s.epoch := rfl

/-! ### State.modCore -/

@[simp] theorem State.modCore_dies (s : State) (f : Core → Core) : (s.modCore f).dies = s.dies := rfl
@[simp] theorem State.modCore_mem (s : State) (f : Core → Core) : (s.modCore f).mem = s.mem := rfl
@[simp] theorem State.modCore_bad (s : State) (f : Core → Core) : (s.modCore f).bad = s.bad := rfl
@[simp] theorem State.modCore_sems (s : State) (f : Core → Core) : (s.modCore f).sems = s.sems := rfl
@[simp] theorem State.modCore_tieFirst (s : State) (f : Core → Core) : (s.modCore f).tieFirst = s.tieFirst := rfl
@[simp] theorem State.modCore_podbar (s : State) (f : Core → Core) : (s.modCore f).podbar = s.podbar := rfl
@[simp] theorem State.modCore_podcfg (s : State) (f : Core → Core) : (s.modCore f).podcfg = s.podcfg := rfl
@[simp] theorem State.modCore_ctxroot (s : State) (f : Core → Core) : (s.modCore f).ctxroot = s.ctxroot := rfl
@[simp] theorem State.modCore_ctxpart (s : State) (f : Core → Core) : (s.modCore f).ctxpart = s.ctxpart := rfl
@[simp] theorem State.modCore_pgnring (s : State) (f : Core → Core) : (s.modCore f).pgnring = s.pgnring := rfl
@[simp] theorem State.modCore_pgnmode (s : State) (f : Core → Core) : (s.modCore f).pgnmode = s.pgnmode := rfl
@[simp] theorem State.modCore_queues (s : State) (f : Core → Core) : (s.modCore f).queues = s.queues := rfl
@[simp] theorem State.modCore_lcage (s : State) (f : Core → Core) : (s.modCore f).lcage = s.lcage := rfl
@[simp] theorem State.modCore_bootstat (s : State) (f : Core → Core) : (s.modCore f).bootstat = s.bootstat := rfl
@[simp] theorem State.modCore_podid (s : State) (f : Core → Core) : (s.modCore f).podid = s.podid := rfl
@[simp] theorem State.modCore_msense (s : State) (f : Core → Core) : (s.modCore f).msense = s.msense := rfl
@[simp] theorem State.modCore_testctl (s : State) (f : Core → Core) : (s.modCore f).testctl = s.testctl := rfl
@[simp] theorem State.modCore_logring (s : State) (f : Core → Core) : (s.modCore f).logring = s.logring := rfl
@[simp] theorem State.modCore_loglost (s : State) (f : Core → Core) : (s.modCore f).loglost = s.loglost := rfl
@[simp] theorem State.modCore_logBad (s : State) (f : Core → Core) : (s.modCore f).logBad = s.logBad := rfl
@[simp] theorem State.modCore_pwinbase (s : State) (f : Core → Core) : (s.modCore f).pwinbase = s.pwinbase := rfl
@[simp] theorem State.modCore_pwinuio (s : State) (f : Core → Core) : (s.modCore f).pwinuio = s.pwinuio := rfl
@[simp] theorem State.modCore_roles (s : State) (f : Core → Core) : (s.modCore f).roles = s.roles := rfl
@[simp] theorem State.modCore_bar2 (s : State) (f : Core → Core) : (s.modCore f).bar2 = s.bar2 := rfl
@[simp] theorem State.modCore_sysVector (s : State) (f : Core → Core) : (s.modCore f).sysVector = s.sysVector := rfl
@[simp] theorem State.modCore_linkUp (s : State) (f : Core → Core) : (s.modCore f).linkUp = s.linkUp := rfl
@[simp] theorem State.modCore_msixPending (s : State) (f : Core → Core) : (s.modCore f).msixPending = s.msixPending := rfl
@[simp] theorem State.modCore_svnMin (s : State) (f : Core → Core) : (s.modCore f).svnMin = s.svnMin := rfl
@[simp] theorem State.modCore_signKey (s : State) (f : Core → Core) : (s.modCore f).signKey = s.signKey := rfl
@[simp] theorem State.modCore_raiseMin (s : State) (f : Core → Core) : (s.modCore f).raiseMin = s.raiseMin := rfl
@[simp] theorem State.modCore_svnBoot (s : State) (f : Core → Core) : (s.modCore f).svnBoot = s.svnBoot := rfl
@[simp] theorem State.modCore_measured (s : State) (f : Core → Core) : (s.modCore f).measured = s.measured := rfl
@[simp] theorem State.modCore_msixTable (s : State) (f : Core → Core) : (s.modCore f).msixTable = s.msixTable := rfl
@[simp] theorem State.modCore_requests (s : State) (f : Core → Core) : (s.modCore f).requests = s.requests := rfl
@[simp] theorem State.modCore_podParity (s : State) (f : Core → Core) : (s.modCore f).podParity = s.podParity := rfl
@[simp] theorem State.modCore_podSent (s : State) (f : Core → Core) : (s.modCore f).podSent = s.podSent := rfl
@[simp] theorem State.modCore_out (s : State) (f : Core → Core) : (s.modCore f).out = s.out := rfl
@[simp] theorem State.modCore_log (s : State) (f : Core → Core) : (s.modCore f).log = s.log := rfl
@[simp] theorem State.modCore_launches (s : State) (f : Core → Core) : (s.modCore f).launches = s.launches := rfl
@[simp] theorem State.modCore_nextLaunch (s : State) (f : Core → Core) : (s.modCore f).nextLaunch = s.nextLaunch := rfl
@[simp] theorem State.modCore_loads (s : State) (f : Core → Core) : (s.modCore f).loads = s.loads := rfl
@[simp] theorem State.modCore_nextLoad (s : State) (f : Core → Core) : (s.modCore f).nextLoad = s.nextLoad := rfl
@[simp] theorem State.modCore_outs (s : State) (f : Core → Core) : (s.modCore f).outs = s.outs := rfl
@[simp] theorem State.modCore_kernels (s : State) (f : Core → Core) : (s.modCore f).kernels = s.kernels := rfl
@[simp] theorem State.modCore_symbols (s : State) (f : Core → Core) : (s.modCore f).symbols = s.symbols := rfl
@[simp] theorem State.modCore_rotation (s : State) (f : Core → Core) : (s.modCore f).rotation = s.rotation := rfl
@[simp] theorem State.modCore_burst (s : State) (f : Core → Core) : (s.modCore f).burst = s.burst := rfl
@[simp] theorem State.modCore_blocked (s : State) (f : Core → Core) : (s.modCore f).blocked = s.blocked := rfl
@[simp] theorem State.modCore_backfills (s : State) (f : Core → Core) : (s.modCore f).backfills = s.backfills := rfl
@[simp] theorem State.modCore_reserved (s : State) (f : Core → Core) : (s.modCore f).reserved = s.reserved := rfl
@[simp] theorem State.modCore_preemptHeld (s : State) (f : Core → Core) : (s.modCore f).preemptHeld = s.preemptHeld := rfl
@[simp] theorem State.modCore_reqs (s : State) (f : Core → Core) : (s.modCore f).reqs = s.reqs := rfl
@[simp] theorem State.modCore_nextReq (s : State) (f : Core → Core) : (s.modCore f).nextReq = s.nextReq := rfl
@[simp] theorem State.modCore_bars (s : State) (f : Core → Core) : (s.modCore f).bars = s.bars := rfl
@[simp] theorem State.modCore_nextBar (s : State) (f : Core → Core) : (s.modCore f).nextBar = s.nextBar := rfl
@[simp] theorem State.modCore_time (s : State) (f : Core → Core) : (s.modCore f).time = s.time := rfl
@[simp] theorem State.modCore_cur (s : State) (f : Core → Core) : (s.modCore f).cur = s.cur := rfl
@[simp] theorem State.modCore_issued (s : State) (f : Core → Core) : (s.modCore f).issued = s.issued := rfl
@[simp] theorem State.modCore_unitLast (s : State) (f : Core → Core) : (s.modCore f).unitLast = s.unitLast := rfl
@[simp] theorem State.modCore_turn (s : State) (f : Core → Core) : (s.modCore f).turn = s.turn := rfl
@[simp] theorem State.modCore_ticks (s : State) (f : Core → Core) : (s.modCore f).ticks = s.ticks := rfl
@[simp] theorem State.modCore_inbox (s : State) (f : Core → Core) : (s.modCore f).inbox = s.inbox := rfl
@[simp] theorem State.modCore_free (s : State) (f : Core → Core) : (s.modCore f).free = s.free := rfl
@[simp] theorem State.modCore_epoch (s : State) (f : Core → Core) : (s.modCore f).epoch = s.epoch := rfl

/-! ### State.modCoreAt -/

@[simp] theorem State.modCoreAt_dies (s : State) (i : Fin 192) (f : Core → Core) : (s.modCoreAt i f).dies = s.dies := rfl
@[simp] theorem State.modCoreAt_mem (s : State) (i : Fin 192) (f : Core → Core) : (s.modCoreAt i f).mem = s.mem := rfl
@[simp] theorem State.modCoreAt_bad (s : State) (i : Fin 192) (f : Core → Core) : (s.modCoreAt i f).bad = s.bad := rfl
@[simp] theorem State.modCoreAt_sems (s : State) (i : Fin 192) (f : Core → Core) : (s.modCoreAt i f).sems = s.sems := rfl
@[simp] theorem State.modCoreAt_tieFirst (s : State) (i : Fin 192) (f : Core → Core) : (s.modCoreAt i f).tieFirst = s.tieFirst := rfl
@[simp] theorem State.modCoreAt_podbar (s : State) (i : Fin 192) (f : Core → Core) : (s.modCoreAt i f).podbar = s.podbar := rfl
@[simp] theorem State.modCoreAt_podcfg (s : State) (i : Fin 192) (f : Core → Core) : (s.modCoreAt i f).podcfg = s.podcfg := rfl
@[simp] theorem State.modCoreAt_ctxroot (s : State) (i : Fin 192) (f : Core → Core) : (s.modCoreAt i f).ctxroot = s.ctxroot := rfl
@[simp] theorem State.modCoreAt_ctxpart (s : State) (i : Fin 192) (f : Core → Core) : (s.modCoreAt i f).ctxpart = s.ctxpart := rfl
@[simp] theorem State.modCoreAt_pgnring (s : State) (i : Fin 192) (f : Core → Core) : (s.modCoreAt i f).pgnring = s.pgnring := rfl
@[simp] theorem State.modCoreAt_pgnmode (s : State) (i : Fin 192) (f : Core → Core) : (s.modCoreAt i f).pgnmode = s.pgnmode := rfl
@[simp] theorem State.modCoreAt_queues (s : State) (i : Fin 192) (f : Core → Core) : (s.modCoreAt i f).queues = s.queues := rfl
@[simp] theorem State.modCoreAt_lcage (s : State) (i : Fin 192) (f : Core → Core) : (s.modCoreAt i f).lcage = s.lcage := rfl
@[simp] theorem State.modCoreAt_bootstat (s : State) (i : Fin 192) (f : Core → Core) : (s.modCoreAt i f).bootstat = s.bootstat := rfl
@[simp] theorem State.modCoreAt_podid (s : State) (i : Fin 192) (f : Core → Core) : (s.modCoreAt i f).podid = s.podid := rfl
@[simp] theorem State.modCoreAt_msense (s : State) (i : Fin 192) (f : Core → Core) : (s.modCoreAt i f).msense = s.msense := rfl
@[simp] theorem State.modCoreAt_testctl (s : State) (i : Fin 192) (f : Core → Core) : (s.modCoreAt i f).testctl = s.testctl := rfl
@[simp] theorem State.modCoreAt_logring (s : State) (i : Fin 192) (f : Core → Core) : (s.modCoreAt i f).logring = s.logring := rfl
@[simp] theorem State.modCoreAt_loglost (s : State) (i : Fin 192) (f : Core → Core) : (s.modCoreAt i f).loglost = s.loglost := rfl
@[simp] theorem State.modCoreAt_logBad (s : State) (i : Fin 192) (f : Core → Core) : (s.modCoreAt i f).logBad = s.logBad := rfl
@[simp] theorem State.modCoreAt_pwinbase (s : State) (i : Fin 192) (f : Core → Core) : (s.modCoreAt i f).pwinbase = s.pwinbase := rfl
@[simp] theorem State.modCoreAt_pwinuio (s : State) (i : Fin 192) (f : Core → Core) : (s.modCoreAt i f).pwinuio = s.pwinuio := rfl
@[simp] theorem State.modCoreAt_roles (s : State) (i : Fin 192) (f : Core → Core) : (s.modCoreAt i f).roles = s.roles := rfl
@[simp] theorem State.modCoreAt_bar2 (s : State) (i : Fin 192) (f : Core → Core) : (s.modCoreAt i f).bar2 = s.bar2 := rfl
@[simp] theorem State.modCoreAt_sysVector (s : State) (i : Fin 192) (f : Core → Core) : (s.modCoreAt i f).sysVector = s.sysVector := rfl
@[simp] theorem State.modCoreAt_linkUp (s : State) (i : Fin 192) (f : Core → Core) : (s.modCoreAt i f).linkUp = s.linkUp := rfl
@[simp] theorem State.modCoreAt_msixPending (s : State) (i : Fin 192) (f : Core → Core) : (s.modCoreAt i f).msixPending = s.msixPending := rfl
@[simp] theorem State.modCoreAt_svnMin (s : State) (i : Fin 192) (f : Core → Core) : (s.modCoreAt i f).svnMin = s.svnMin := rfl
@[simp] theorem State.modCoreAt_signKey (s : State) (i : Fin 192) (f : Core → Core) : (s.modCoreAt i f).signKey = s.signKey := rfl
@[simp] theorem State.modCoreAt_raiseMin (s : State) (i : Fin 192) (f : Core → Core) : (s.modCoreAt i f).raiseMin = s.raiseMin := rfl
@[simp] theorem State.modCoreAt_svnBoot (s : State) (i : Fin 192) (f : Core → Core) : (s.modCoreAt i f).svnBoot = s.svnBoot := rfl
@[simp] theorem State.modCoreAt_measured (s : State) (i : Fin 192) (f : Core → Core) : (s.modCoreAt i f).measured = s.measured := rfl
@[simp] theorem State.modCoreAt_msixTable (s : State) (i : Fin 192) (f : Core → Core) : (s.modCoreAt i f).msixTable = s.msixTable := rfl
@[simp] theorem State.modCoreAt_requests (s : State) (i : Fin 192) (f : Core → Core) : (s.modCoreAt i f).requests = s.requests := rfl
@[simp] theorem State.modCoreAt_podParity (s : State) (i : Fin 192) (f : Core → Core) : (s.modCoreAt i f).podParity = s.podParity := rfl
@[simp] theorem State.modCoreAt_podSent (s : State) (i : Fin 192) (f : Core → Core) : (s.modCoreAt i f).podSent = s.podSent := rfl
@[simp] theorem State.modCoreAt_out (s : State) (i : Fin 192) (f : Core → Core) : (s.modCoreAt i f).out = s.out := rfl
@[simp] theorem State.modCoreAt_log (s : State) (i : Fin 192) (f : Core → Core) : (s.modCoreAt i f).log = s.log := rfl
@[simp] theorem State.modCoreAt_launches (s : State) (i : Fin 192) (f : Core → Core) : (s.modCoreAt i f).launches = s.launches := rfl
@[simp] theorem State.modCoreAt_nextLaunch (s : State) (i : Fin 192) (f : Core → Core) : (s.modCoreAt i f).nextLaunch = s.nextLaunch := rfl
@[simp] theorem State.modCoreAt_loads (s : State) (i : Fin 192) (f : Core → Core) : (s.modCoreAt i f).loads = s.loads := rfl
@[simp] theorem State.modCoreAt_nextLoad (s : State) (i : Fin 192) (f : Core → Core) : (s.modCoreAt i f).nextLoad = s.nextLoad := rfl
@[simp] theorem State.modCoreAt_outs (s : State) (i : Fin 192) (f : Core → Core) : (s.modCoreAt i f).outs = s.outs := rfl
@[simp] theorem State.modCoreAt_kernels (s : State) (i : Fin 192) (f : Core → Core) : (s.modCoreAt i f).kernels = s.kernels := rfl
@[simp] theorem State.modCoreAt_symbols (s : State) (i : Fin 192) (f : Core → Core) : (s.modCoreAt i f).symbols = s.symbols := rfl
@[simp] theorem State.modCoreAt_rotation (s : State) (i : Fin 192) (f : Core → Core) : (s.modCoreAt i f).rotation = s.rotation := rfl
@[simp] theorem State.modCoreAt_burst (s : State) (i : Fin 192) (f : Core → Core) : (s.modCoreAt i f).burst = s.burst := rfl
@[simp] theorem State.modCoreAt_blocked (s : State) (i : Fin 192) (f : Core → Core) : (s.modCoreAt i f).blocked = s.blocked := rfl
@[simp] theorem State.modCoreAt_backfills (s : State) (i : Fin 192) (f : Core → Core) : (s.modCoreAt i f).backfills = s.backfills := rfl
@[simp] theorem State.modCoreAt_reserved (s : State) (i : Fin 192) (f : Core → Core) : (s.modCoreAt i f).reserved = s.reserved := rfl
@[simp] theorem State.modCoreAt_preemptHeld (s : State) (i : Fin 192) (f : Core → Core) : (s.modCoreAt i f).preemptHeld = s.preemptHeld := rfl
@[simp] theorem State.modCoreAt_reqs (s : State) (i : Fin 192) (f : Core → Core) : (s.modCoreAt i f).reqs = s.reqs := rfl
@[simp] theorem State.modCoreAt_nextReq (s : State) (i : Fin 192) (f : Core → Core) : (s.modCoreAt i f).nextReq = s.nextReq := rfl
@[simp] theorem State.modCoreAt_bars (s : State) (i : Fin 192) (f : Core → Core) : (s.modCoreAt i f).bars = s.bars := rfl
@[simp] theorem State.modCoreAt_nextBar (s : State) (i : Fin 192) (f : Core → Core) : (s.modCoreAt i f).nextBar = s.nextBar := rfl
@[simp] theorem State.modCoreAt_time (s : State) (i : Fin 192) (f : Core → Core) : (s.modCoreAt i f).time = s.time := rfl
@[simp] theorem State.modCoreAt_cur (s : State) (i : Fin 192) (f : Core → Core) : (s.modCoreAt i f).cur = s.cur := rfl
@[simp] theorem State.modCoreAt_issued (s : State) (i : Fin 192) (f : Core → Core) : (s.modCoreAt i f).issued = s.issued := rfl
@[simp] theorem State.modCoreAt_unitLast (s : State) (i : Fin 192) (f : Core → Core) : (s.modCoreAt i f).unitLast = s.unitLast := rfl
@[simp] theorem State.modCoreAt_turn (s : State) (i : Fin 192) (f : Core → Core) : (s.modCoreAt i f).turn = s.turn := rfl
@[simp] theorem State.modCoreAt_ticks (s : State) (i : Fin 192) (f : Core → Core) : (s.modCoreAt i f).ticks = s.ticks := rfl
@[simp] theorem State.modCoreAt_inbox (s : State) (i : Fin 192) (f : Core → Core) : (s.modCoreAt i f).inbox = s.inbox := rfl
@[simp] theorem State.modCoreAt_free (s : State) (i : Fin 192) (f : Core → Core) : (s.modCoreAt i f).free = s.free := rfl
@[simp] theorem State.modCoreAt_epoch (s : State) (i : Fin 192) (f : Core → Core) : (s.modCoreAt i f).epoch = s.epoch := rfl

/-! ### State.modHart -/

@[simp] theorem State.modHart_dies (s : State) (f : Hart → Hart) : (s.modHart f).dies = s.dies := rfl
@[simp] theorem State.modHart_mem (s : State) (f : Hart → Hart) : (s.modHart f).mem = s.mem := rfl
@[simp] theorem State.modHart_bad (s : State) (f : Hart → Hart) : (s.modHart f).bad = s.bad := rfl
@[simp] theorem State.modHart_sems (s : State) (f : Hart → Hart) : (s.modHart f).sems = s.sems := rfl
@[simp] theorem State.modHart_tieFirst (s : State) (f : Hart → Hart) : (s.modHart f).tieFirst = s.tieFirst := rfl
@[simp] theorem State.modHart_podbar (s : State) (f : Hart → Hart) : (s.modHart f).podbar = s.podbar := rfl
@[simp] theorem State.modHart_podcfg (s : State) (f : Hart → Hart) : (s.modHart f).podcfg = s.podcfg := rfl
@[simp] theorem State.modHart_ctxroot (s : State) (f : Hart → Hart) : (s.modHart f).ctxroot = s.ctxroot := rfl
@[simp] theorem State.modHart_ctxpart (s : State) (f : Hart → Hart) : (s.modHart f).ctxpart = s.ctxpart := rfl
@[simp] theorem State.modHart_pgnring (s : State) (f : Hart → Hart) : (s.modHart f).pgnring = s.pgnring := rfl
@[simp] theorem State.modHart_pgnmode (s : State) (f : Hart → Hart) : (s.modHart f).pgnmode = s.pgnmode := rfl
@[simp] theorem State.modHart_queues (s : State) (f : Hart → Hart) : (s.modHart f).queues = s.queues := rfl
@[simp] theorem State.modHart_lcage (s : State) (f : Hart → Hart) : (s.modHart f).lcage = s.lcage := rfl
@[simp] theorem State.modHart_bootstat (s : State) (f : Hart → Hart) : (s.modHart f).bootstat = s.bootstat := rfl
@[simp] theorem State.modHart_podid (s : State) (f : Hart → Hart) : (s.modHart f).podid = s.podid := rfl
@[simp] theorem State.modHart_msense (s : State) (f : Hart → Hart) : (s.modHart f).msense = s.msense := rfl
@[simp] theorem State.modHart_testctl (s : State) (f : Hart → Hart) : (s.modHart f).testctl = s.testctl := rfl
@[simp] theorem State.modHart_logring (s : State) (f : Hart → Hart) : (s.modHart f).logring = s.logring := rfl
@[simp] theorem State.modHart_loglost (s : State) (f : Hart → Hart) : (s.modHart f).loglost = s.loglost := rfl
@[simp] theorem State.modHart_logBad (s : State) (f : Hart → Hart) : (s.modHart f).logBad = s.logBad := rfl
@[simp] theorem State.modHart_pwinbase (s : State) (f : Hart → Hart) : (s.modHart f).pwinbase = s.pwinbase := rfl
@[simp] theorem State.modHart_pwinuio (s : State) (f : Hart → Hart) : (s.modHart f).pwinuio = s.pwinuio := rfl
@[simp] theorem State.modHart_roles (s : State) (f : Hart → Hart) : (s.modHart f).roles = s.roles := rfl
@[simp] theorem State.modHart_bar2 (s : State) (f : Hart → Hart) : (s.modHart f).bar2 = s.bar2 := rfl
@[simp] theorem State.modHart_sysVector (s : State) (f : Hart → Hart) : (s.modHart f).sysVector = s.sysVector := rfl
@[simp] theorem State.modHart_linkUp (s : State) (f : Hart → Hart) : (s.modHart f).linkUp = s.linkUp := rfl
@[simp] theorem State.modHart_msixPending (s : State) (f : Hart → Hart) : (s.modHart f).msixPending = s.msixPending := rfl
@[simp] theorem State.modHart_svnMin (s : State) (f : Hart → Hart) : (s.modHart f).svnMin = s.svnMin := rfl
@[simp] theorem State.modHart_signKey (s : State) (f : Hart → Hart) : (s.modHart f).signKey = s.signKey := rfl
@[simp] theorem State.modHart_raiseMin (s : State) (f : Hart → Hart) : (s.modHart f).raiseMin = s.raiseMin := rfl
@[simp] theorem State.modHart_svnBoot (s : State) (f : Hart → Hart) : (s.modHart f).svnBoot = s.svnBoot := rfl
@[simp] theorem State.modHart_measured (s : State) (f : Hart → Hart) : (s.modHart f).measured = s.measured := rfl
@[simp] theorem State.modHart_msixTable (s : State) (f : Hart → Hart) : (s.modHart f).msixTable = s.msixTable := rfl
@[simp] theorem State.modHart_requests (s : State) (f : Hart → Hart) : (s.modHart f).requests = s.requests := rfl
@[simp] theorem State.modHart_podParity (s : State) (f : Hart → Hart) : (s.modHart f).podParity = s.podParity := rfl
@[simp] theorem State.modHart_podSent (s : State) (f : Hart → Hart) : (s.modHart f).podSent = s.podSent := rfl
@[simp] theorem State.modHart_out (s : State) (f : Hart → Hart) : (s.modHart f).out = s.out := rfl
@[simp] theorem State.modHart_log (s : State) (f : Hart → Hart) : (s.modHart f).log = s.log := rfl
@[simp] theorem State.modHart_launches (s : State) (f : Hart → Hart) : (s.modHart f).launches = s.launches := rfl
@[simp] theorem State.modHart_nextLaunch (s : State) (f : Hart → Hart) : (s.modHart f).nextLaunch = s.nextLaunch := rfl
@[simp] theorem State.modHart_loads (s : State) (f : Hart → Hart) : (s.modHart f).loads = s.loads := rfl
@[simp] theorem State.modHart_nextLoad (s : State) (f : Hart → Hart) : (s.modHart f).nextLoad = s.nextLoad := rfl
@[simp] theorem State.modHart_outs (s : State) (f : Hart → Hart) : (s.modHart f).outs = s.outs := rfl
@[simp] theorem State.modHart_kernels (s : State) (f : Hart → Hart) : (s.modHart f).kernels = s.kernels := rfl
@[simp] theorem State.modHart_symbols (s : State) (f : Hart → Hart) : (s.modHart f).symbols = s.symbols := rfl
@[simp] theorem State.modHart_rotation (s : State) (f : Hart → Hart) : (s.modHart f).rotation = s.rotation := rfl
@[simp] theorem State.modHart_burst (s : State) (f : Hart → Hart) : (s.modHart f).burst = s.burst := rfl
@[simp] theorem State.modHart_blocked (s : State) (f : Hart → Hart) : (s.modHart f).blocked = s.blocked := rfl
@[simp] theorem State.modHart_backfills (s : State) (f : Hart → Hart) : (s.modHart f).backfills = s.backfills := rfl
@[simp] theorem State.modHart_reserved (s : State) (f : Hart → Hart) : (s.modHart f).reserved = s.reserved := rfl
@[simp] theorem State.modHart_preemptHeld (s : State) (f : Hart → Hart) : (s.modHart f).preemptHeld = s.preemptHeld := rfl
@[simp] theorem State.modHart_reqs (s : State) (f : Hart → Hart) : (s.modHart f).reqs = s.reqs := rfl
@[simp] theorem State.modHart_nextReq (s : State) (f : Hart → Hart) : (s.modHart f).nextReq = s.nextReq := rfl
@[simp] theorem State.modHart_bars (s : State) (f : Hart → Hart) : (s.modHart f).bars = s.bars := rfl
@[simp] theorem State.modHart_nextBar (s : State) (f : Hart → Hart) : (s.modHart f).nextBar = s.nextBar := rfl
@[simp] theorem State.modHart_time (s : State) (f : Hart → Hart) : (s.modHart f).time = s.time := rfl
@[simp] theorem State.modHart_cur (s : State) (f : Hart → Hart) : (s.modHart f).cur = s.cur := rfl
@[simp] theorem State.modHart_issued (s : State) (f : Hart → Hart) : (s.modHart f).issued = s.issued := rfl
@[simp] theorem State.modHart_unitLast (s : State) (f : Hart → Hart) : (s.modHart f).unitLast = s.unitLast := rfl
@[simp] theorem State.modHart_turn (s : State) (f : Hart → Hart) : (s.modHart f).turn = s.turn := rfl
@[simp] theorem State.modHart_ticks (s : State) (f : Hart → Hart) : (s.modHart f).ticks = s.ticks := rfl
@[simp] theorem State.modHart_inbox (s : State) (f : Hart → Hart) : (s.modHart f).inbox = s.inbox := rfl
@[simp] theorem State.modHart_free (s : State) (f : Hart → Hart) : (s.modHart f).free = s.free := rfl
@[simp] theorem State.modHart_epoch (s : State) (f : Hart → Hart) : (s.modHart f).epoch = s.epoch := rfl

/-! ### State.modTh -/

@[simp] theorem State.modTh_dies (s : State) (f : Thread → Thread) : (s.modTh f).dies = s.dies := rfl
@[simp] theorem State.modTh_mem (s : State) (f : Thread → Thread) : (s.modTh f).mem = s.mem := rfl
@[simp] theorem State.modTh_bad (s : State) (f : Thread → Thread) : (s.modTh f).bad = s.bad := rfl
@[simp] theorem State.modTh_sems (s : State) (f : Thread → Thread) : (s.modTh f).sems = s.sems := rfl
@[simp] theorem State.modTh_tieFirst (s : State) (f : Thread → Thread) : (s.modTh f).tieFirst = s.tieFirst := rfl
@[simp] theorem State.modTh_podbar (s : State) (f : Thread → Thread) : (s.modTh f).podbar = s.podbar := rfl
@[simp] theorem State.modTh_podcfg (s : State) (f : Thread → Thread) : (s.modTh f).podcfg = s.podcfg := rfl
@[simp] theorem State.modTh_ctxroot (s : State) (f : Thread → Thread) : (s.modTh f).ctxroot = s.ctxroot := rfl
@[simp] theorem State.modTh_ctxpart (s : State) (f : Thread → Thread) : (s.modTh f).ctxpart = s.ctxpart := rfl
@[simp] theorem State.modTh_pgnring (s : State) (f : Thread → Thread) : (s.modTh f).pgnring = s.pgnring := rfl
@[simp] theorem State.modTh_pgnmode (s : State) (f : Thread → Thread) : (s.modTh f).pgnmode = s.pgnmode := rfl
@[simp] theorem State.modTh_queues (s : State) (f : Thread → Thread) : (s.modTh f).queues = s.queues := rfl
@[simp] theorem State.modTh_lcage (s : State) (f : Thread → Thread) : (s.modTh f).lcage = s.lcage := rfl
@[simp] theorem State.modTh_bootstat (s : State) (f : Thread → Thread) : (s.modTh f).bootstat = s.bootstat := rfl
@[simp] theorem State.modTh_podid (s : State) (f : Thread → Thread) : (s.modTh f).podid = s.podid := rfl
@[simp] theorem State.modTh_msense (s : State) (f : Thread → Thread) : (s.modTh f).msense = s.msense := rfl
@[simp] theorem State.modTh_testctl (s : State) (f : Thread → Thread) : (s.modTh f).testctl = s.testctl := rfl
@[simp] theorem State.modTh_logring (s : State) (f : Thread → Thread) : (s.modTh f).logring = s.logring := rfl
@[simp] theorem State.modTh_loglost (s : State) (f : Thread → Thread) : (s.modTh f).loglost = s.loglost := rfl
@[simp] theorem State.modTh_logBad (s : State) (f : Thread → Thread) : (s.modTh f).logBad = s.logBad := rfl
@[simp] theorem State.modTh_pwinbase (s : State) (f : Thread → Thread) : (s.modTh f).pwinbase = s.pwinbase := rfl
@[simp] theorem State.modTh_pwinuio (s : State) (f : Thread → Thread) : (s.modTh f).pwinuio = s.pwinuio := rfl
@[simp] theorem State.modTh_roles (s : State) (f : Thread → Thread) : (s.modTh f).roles = s.roles := rfl
@[simp] theorem State.modTh_bar2 (s : State) (f : Thread → Thread) : (s.modTh f).bar2 = s.bar2 := rfl
@[simp] theorem State.modTh_sysVector (s : State) (f : Thread → Thread) : (s.modTh f).sysVector = s.sysVector := rfl
@[simp] theorem State.modTh_linkUp (s : State) (f : Thread → Thread) : (s.modTh f).linkUp = s.linkUp := rfl
@[simp] theorem State.modTh_msixPending (s : State) (f : Thread → Thread) : (s.modTh f).msixPending = s.msixPending := rfl
@[simp] theorem State.modTh_svnMin (s : State) (f : Thread → Thread) : (s.modTh f).svnMin = s.svnMin := rfl
@[simp] theorem State.modTh_signKey (s : State) (f : Thread → Thread) : (s.modTh f).signKey = s.signKey := rfl
@[simp] theorem State.modTh_raiseMin (s : State) (f : Thread → Thread) : (s.modTh f).raiseMin = s.raiseMin := rfl
@[simp] theorem State.modTh_svnBoot (s : State) (f : Thread → Thread) : (s.modTh f).svnBoot = s.svnBoot := rfl
@[simp] theorem State.modTh_measured (s : State) (f : Thread → Thread) : (s.modTh f).measured = s.measured := rfl
@[simp] theorem State.modTh_msixTable (s : State) (f : Thread → Thread) : (s.modTh f).msixTable = s.msixTable := rfl
@[simp] theorem State.modTh_requests (s : State) (f : Thread → Thread) : (s.modTh f).requests = s.requests := rfl
@[simp] theorem State.modTh_podParity (s : State) (f : Thread → Thread) : (s.modTh f).podParity = s.podParity := rfl
@[simp] theorem State.modTh_podSent (s : State) (f : Thread → Thread) : (s.modTh f).podSent = s.podSent := rfl
@[simp] theorem State.modTh_out (s : State) (f : Thread → Thread) : (s.modTh f).out = s.out := rfl
@[simp] theorem State.modTh_log (s : State) (f : Thread → Thread) : (s.modTh f).log = s.log := rfl
@[simp] theorem State.modTh_launches (s : State) (f : Thread → Thread) : (s.modTh f).launches = s.launches := rfl
@[simp] theorem State.modTh_nextLaunch (s : State) (f : Thread → Thread) : (s.modTh f).nextLaunch = s.nextLaunch := rfl
@[simp] theorem State.modTh_loads (s : State) (f : Thread → Thread) : (s.modTh f).loads = s.loads := rfl
@[simp] theorem State.modTh_nextLoad (s : State) (f : Thread → Thread) : (s.modTh f).nextLoad = s.nextLoad := rfl
@[simp] theorem State.modTh_outs (s : State) (f : Thread → Thread) : (s.modTh f).outs = s.outs := rfl
@[simp] theorem State.modTh_kernels (s : State) (f : Thread → Thread) : (s.modTh f).kernels = s.kernels := rfl
@[simp] theorem State.modTh_symbols (s : State) (f : Thread → Thread) : (s.modTh f).symbols = s.symbols := rfl
@[simp] theorem State.modTh_rotation (s : State) (f : Thread → Thread) : (s.modTh f).rotation = s.rotation := rfl
@[simp] theorem State.modTh_burst (s : State) (f : Thread → Thread) : (s.modTh f).burst = s.burst := rfl
@[simp] theorem State.modTh_blocked (s : State) (f : Thread → Thread) : (s.modTh f).blocked = s.blocked := rfl
@[simp] theorem State.modTh_backfills (s : State) (f : Thread → Thread) : (s.modTh f).backfills = s.backfills := rfl
@[simp] theorem State.modTh_reserved (s : State) (f : Thread → Thread) : (s.modTh f).reserved = s.reserved := rfl
@[simp] theorem State.modTh_preemptHeld (s : State) (f : Thread → Thread) : (s.modTh f).preemptHeld = s.preemptHeld := rfl
@[simp] theorem State.modTh_reqs (s : State) (f : Thread → Thread) : (s.modTh f).reqs = s.reqs := rfl
@[simp] theorem State.modTh_nextReq (s : State) (f : Thread → Thread) : (s.modTh f).nextReq = s.nextReq := rfl
@[simp] theorem State.modTh_bars (s : State) (f : Thread → Thread) : (s.modTh f).bars = s.bars := rfl
@[simp] theorem State.modTh_nextBar (s : State) (f : Thread → Thread) : (s.modTh f).nextBar = s.nextBar := rfl
@[simp] theorem State.modTh_time (s : State) (f : Thread → Thread) : (s.modTh f).time = s.time := rfl
@[simp] theorem State.modTh_cur (s : State) (f : Thread → Thread) : (s.modTh f).cur = s.cur := rfl
@[simp] theorem State.modTh_issued (s : State) (f : Thread → Thread) : (s.modTh f).issued = s.issued := rfl
@[simp] theorem State.modTh_unitLast (s : State) (f : Thread → Thread) : (s.modTh f).unitLast = s.unitLast := rfl
@[simp] theorem State.modTh_turn (s : State) (f : Thread → Thread) : (s.modTh f).turn = s.turn := rfl
@[simp] theorem State.modTh_ticks (s : State) (f : Thread → Thread) : (s.modTh f).ticks = s.ticks := rfl
@[simp] theorem State.modTh_inbox (s : State) (f : Thread → Thread) : (s.modTh f).inbox = s.inbox := rfl
@[simp] theorem State.modTh_free (s : State) (f : Thread → Thread) : (s.modTh f).free = s.free := rfl
@[simp] theorem State.modTh_epoch (s : State) (f : Thread → Thread) : (s.modTh f).epoch = s.epoch := rfl

/-! ### State.setX -/

@[simp] theorem State.setX_dies (s : State) (r : Reg) (v : Word) : (s.setX r v).dies = s.dies := rfl
@[simp] theorem State.setX_mem (s : State) (r : Reg) (v : Word) : (s.setX r v).mem = s.mem := rfl
@[simp] theorem State.setX_bad (s : State) (r : Reg) (v : Word) : (s.setX r v).bad = s.bad := rfl
@[simp] theorem State.setX_sems (s : State) (r : Reg) (v : Word) : (s.setX r v).sems = s.sems := rfl
@[simp] theorem State.setX_tieFirst (s : State) (r : Reg) (v : Word) : (s.setX r v).tieFirst = s.tieFirst := rfl
@[simp] theorem State.setX_podbar (s : State) (r : Reg) (v : Word) : (s.setX r v).podbar = s.podbar := rfl
@[simp] theorem State.setX_podcfg (s : State) (r : Reg) (v : Word) : (s.setX r v).podcfg = s.podcfg := rfl
@[simp] theorem State.setX_ctxroot (s : State) (r : Reg) (v : Word) : (s.setX r v).ctxroot = s.ctxroot := rfl
@[simp] theorem State.setX_ctxpart (s : State) (r : Reg) (v : Word) : (s.setX r v).ctxpart = s.ctxpart := rfl
@[simp] theorem State.setX_pgnring (s : State) (r : Reg) (v : Word) : (s.setX r v).pgnring = s.pgnring := rfl
@[simp] theorem State.setX_pgnmode (s : State) (r : Reg) (v : Word) : (s.setX r v).pgnmode = s.pgnmode := rfl
@[simp] theorem State.setX_queues (s : State) (r : Reg) (v : Word) : (s.setX r v).queues = s.queues := rfl
@[simp] theorem State.setX_lcage (s : State) (r : Reg) (v : Word) : (s.setX r v).lcage = s.lcage := rfl
@[simp] theorem State.setX_bootstat (s : State) (r : Reg) (v : Word) : (s.setX r v).bootstat = s.bootstat := rfl
@[simp] theorem State.setX_podid (s : State) (r : Reg) (v : Word) : (s.setX r v).podid = s.podid := rfl
@[simp] theorem State.setX_msense (s : State) (r : Reg) (v : Word) : (s.setX r v).msense = s.msense := rfl
@[simp] theorem State.setX_testctl (s : State) (r : Reg) (v : Word) : (s.setX r v).testctl = s.testctl := rfl
@[simp] theorem State.setX_logring (s : State) (r : Reg) (v : Word) : (s.setX r v).logring = s.logring := rfl
@[simp] theorem State.setX_loglost (s : State) (r : Reg) (v : Word) : (s.setX r v).loglost = s.loglost := rfl
@[simp] theorem State.setX_logBad (s : State) (r : Reg) (v : Word) : (s.setX r v).logBad = s.logBad := rfl
@[simp] theorem State.setX_pwinbase (s : State) (r : Reg) (v : Word) : (s.setX r v).pwinbase = s.pwinbase := rfl
@[simp] theorem State.setX_pwinuio (s : State) (r : Reg) (v : Word) : (s.setX r v).pwinuio = s.pwinuio := rfl
@[simp] theorem State.setX_roles (s : State) (r : Reg) (v : Word) : (s.setX r v).roles = s.roles := rfl
@[simp] theorem State.setX_bar2 (s : State) (r : Reg) (v : Word) : (s.setX r v).bar2 = s.bar2 := rfl
@[simp] theorem State.setX_sysVector (s : State) (r : Reg) (v : Word) : (s.setX r v).sysVector = s.sysVector := rfl
@[simp] theorem State.setX_linkUp (s : State) (r : Reg) (v : Word) : (s.setX r v).linkUp = s.linkUp := rfl
@[simp] theorem State.setX_msixPending (s : State) (r : Reg) (v : Word) : (s.setX r v).msixPending = s.msixPending := rfl
@[simp] theorem State.setX_svnMin (s : State) (r : Reg) (v : Word) : (s.setX r v).svnMin = s.svnMin := rfl
@[simp] theorem State.setX_signKey (s : State) (r : Reg) (v : Word) : (s.setX r v).signKey = s.signKey := rfl
@[simp] theorem State.setX_raiseMin (s : State) (r : Reg) (v : Word) : (s.setX r v).raiseMin = s.raiseMin := rfl
@[simp] theorem State.setX_svnBoot (s : State) (r : Reg) (v : Word) : (s.setX r v).svnBoot = s.svnBoot := rfl
@[simp] theorem State.setX_measured (s : State) (r : Reg) (v : Word) : (s.setX r v).measured = s.measured := rfl
@[simp] theorem State.setX_msixTable (s : State) (r : Reg) (v : Word) : (s.setX r v).msixTable = s.msixTable := rfl
@[simp] theorem State.setX_requests (s : State) (r : Reg) (v : Word) : (s.setX r v).requests = s.requests := rfl
@[simp] theorem State.setX_podParity (s : State) (r : Reg) (v : Word) : (s.setX r v).podParity = s.podParity := rfl
@[simp] theorem State.setX_podSent (s : State) (r : Reg) (v : Word) : (s.setX r v).podSent = s.podSent := rfl
@[simp] theorem State.setX_out (s : State) (r : Reg) (v : Word) : (s.setX r v).out = s.out := rfl
@[simp] theorem State.setX_log (s : State) (r : Reg) (v : Word) : (s.setX r v).log = s.log := rfl
@[simp] theorem State.setX_launches (s : State) (r : Reg) (v : Word) : (s.setX r v).launches = s.launches := rfl
@[simp] theorem State.setX_nextLaunch (s : State) (r : Reg) (v : Word) : (s.setX r v).nextLaunch = s.nextLaunch := rfl
@[simp] theorem State.setX_loads (s : State) (r : Reg) (v : Word) : (s.setX r v).loads = s.loads := rfl
@[simp] theorem State.setX_nextLoad (s : State) (r : Reg) (v : Word) : (s.setX r v).nextLoad = s.nextLoad := rfl
@[simp] theorem State.setX_outs (s : State) (r : Reg) (v : Word) : (s.setX r v).outs = s.outs := rfl
@[simp] theorem State.setX_kernels (s : State) (r : Reg) (v : Word) : (s.setX r v).kernels = s.kernels := rfl
@[simp] theorem State.setX_symbols (s : State) (r : Reg) (v : Word) : (s.setX r v).symbols = s.symbols := rfl
@[simp] theorem State.setX_rotation (s : State) (r : Reg) (v : Word) : (s.setX r v).rotation = s.rotation := rfl
@[simp] theorem State.setX_burst (s : State) (r : Reg) (v : Word) : (s.setX r v).burst = s.burst := rfl
@[simp] theorem State.setX_blocked (s : State) (r : Reg) (v : Word) : (s.setX r v).blocked = s.blocked := rfl
@[simp] theorem State.setX_backfills (s : State) (r : Reg) (v : Word) : (s.setX r v).backfills = s.backfills := rfl
@[simp] theorem State.setX_reserved (s : State) (r : Reg) (v : Word) : (s.setX r v).reserved = s.reserved := rfl
@[simp] theorem State.setX_preemptHeld (s : State) (r : Reg) (v : Word) : (s.setX r v).preemptHeld = s.preemptHeld := rfl
@[simp] theorem State.setX_reqs (s : State) (r : Reg) (v : Word) : (s.setX r v).reqs = s.reqs := rfl
@[simp] theorem State.setX_nextReq (s : State) (r : Reg) (v : Word) : (s.setX r v).nextReq = s.nextReq := rfl
@[simp] theorem State.setX_bars (s : State) (r : Reg) (v : Word) : (s.setX r v).bars = s.bars := rfl
@[simp] theorem State.setX_nextBar (s : State) (r : Reg) (v : Word) : (s.setX r v).nextBar = s.nextBar := rfl
@[simp] theorem State.setX_time (s : State) (r : Reg) (v : Word) : (s.setX r v).time = s.time := rfl
@[simp] theorem State.setX_cur (s : State) (r : Reg) (v : Word) : (s.setX r v).cur = s.cur := rfl
@[simp] theorem State.setX_issued (s : State) (r : Reg) (v : Word) : (s.setX r v).issued = s.issued := rfl
@[simp] theorem State.setX_unitLast (s : State) (r : Reg) (v : Word) : (s.setX r v).unitLast = s.unitLast := rfl
@[simp] theorem State.setX_turn (s : State) (r : Reg) (v : Word) : (s.setX r v).turn = s.turn := rfl
@[simp] theorem State.setX_ticks (s : State) (r : Reg) (v : Word) : (s.setX r v).ticks = s.ticks := rfl
@[simp] theorem State.setX_inbox (s : State) (r : Reg) (v : Word) : (s.setX r v).inbox = s.inbox := rfl
@[simp] theorem State.setX_free (s : State) (r : Reg) (v : Word) : (s.setX r v).free = s.free := rfl
@[simp] theorem State.setX_epoch (s : State) (r : Reg) (v : Word) : (s.setX r v).epoch = s.epoch := rfl

/-! ### State.setPc -/

@[simp] theorem State.setPc_dies (s : State) (v : Word) : (s.setPc v).dies = s.dies := rfl
@[simp] theorem State.setPc_mem (s : State) (v : Word) : (s.setPc v).mem = s.mem := rfl
@[simp] theorem State.setPc_bad (s : State) (v : Word) : (s.setPc v).bad = s.bad := rfl
@[simp] theorem State.setPc_sems (s : State) (v : Word) : (s.setPc v).sems = s.sems := rfl
@[simp] theorem State.setPc_tieFirst (s : State) (v : Word) : (s.setPc v).tieFirst = s.tieFirst := rfl
@[simp] theorem State.setPc_podbar (s : State) (v : Word) : (s.setPc v).podbar = s.podbar := rfl
@[simp] theorem State.setPc_podcfg (s : State) (v : Word) : (s.setPc v).podcfg = s.podcfg := rfl
@[simp] theorem State.setPc_ctxroot (s : State) (v : Word) : (s.setPc v).ctxroot = s.ctxroot := rfl
@[simp] theorem State.setPc_ctxpart (s : State) (v : Word) : (s.setPc v).ctxpart = s.ctxpart := rfl
@[simp] theorem State.setPc_pgnring (s : State) (v : Word) : (s.setPc v).pgnring = s.pgnring := rfl
@[simp] theorem State.setPc_pgnmode (s : State) (v : Word) : (s.setPc v).pgnmode = s.pgnmode := rfl
@[simp] theorem State.setPc_queues (s : State) (v : Word) : (s.setPc v).queues = s.queues := rfl
@[simp] theorem State.setPc_lcage (s : State) (v : Word) : (s.setPc v).lcage = s.lcage := rfl
@[simp] theorem State.setPc_bootstat (s : State) (v : Word) : (s.setPc v).bootstat = s.bootstat := rfl
@[simp] theorem State.setPc_podid (s : State) (v : Word) : (s.setPc v).podid = s.podid := rfl
@[simp] theorem State.setPc_msense (s : State) (v : Word) : (s.setPc v).msense = s.msense := rfl
@[simp] theorem State.setPc_testctl (s : State) (v : Word) : (s.setPc v).testctl = s.testctl := rfl
@[simp] theorem State.setPc_logring (s : State) (v : Word) : (s.setPc v).logring = s.logring := rfl
@[simp] theorem State.setPc_loglost (s : State) (v : Word) : (s.setPc v).loglost = s.loglost := rfl
@[simp] theorem State.setPc_logBad (s : State) (v : Word) : (s.setPc v).logBad = s.logBad := rfl
@[simp] theorem State.setPc_pwinbase (s : State) (v : Word) : (s.setPc v).pwinbase = s.pwinbase := rfl
@[simp] theorem State.setPc_pwinuio (s : State) (v : Word) : (s.setPc v).pwinuio = s.pwinuio := rfl
@[simp] theorem State.setPc_roles (s : State) (v : Word) : (s.setPc v).roles = s.roles := rfl
@[simp] theorem State.setPc_bar2 (s : State) (v : Word) : (s.setPc v).bar2 = s.bar2 := rfl
@[simp] theorem State.setPc_sysVector (s : State) (v : Word) : (s.setPc v).sysVector = s.sysVector := rfl
@[simp] theorem State.setPc_linkUp (s : State) (v : Word) : (s.setPc v).linkUp = s.linkUp := rfl
@[simp] theorem State.setPc_msixPending (s : State) (v : Word) : (s.setPc v).msixPending = s.msixPending := rfl
@[simp] theorem State.setPc_svnMin (s : State) (v : Word) : (s.setPc v).svnMin = s.svnMin := rfl
@[simp] theorem State.setPc_signKey (s : State) (v : Word) : (s.setPc v).signKey = s.signKey := rfl
@[simp] theorem State.setPc_raiseMin (s : State) (v : Word) : (s.setPc v).raiseMin = s.raiseMin := rfl
@[simp] theorem State.setPc_svnBoot (s : State) (v : Word) : (s.setPc v).svnBoot = s.svnBoot := rfl
@[simp] theorem State.setPc_measured (s : State) (v : Word) : (s.setPc v).measured = s.measured := rfl
@[simp] theorem State.setPc_msixTable (s : State) (v : Word) : (s.setPc v).msixTable = s.msixTable := rfl
@[simp] theorem State.setPc_requests (s : State) (v : Word) : (s.setPc v).requests = s.requests := rfl
@[simp] theorem State.setPc_podParity (s : State) (v : Word) : (s.setPc v).podParity = s.podParity := rfl
@[simp] theorem State.setPc_podSent (s : State) (v : Word) : (s.setPc v).podSent = s.podSent := rfl
@[simp] theorem State.setPc_out (s : State) (v : Word) : (s.setPc v).out = s.out := rfl
@[simp] theorem State.setPc_log (s : State) (v : Word) : (s.setPc v).log = s.log := rfl
@[simp] theorem State.setPc_launches (s : State) (v : Word) : (s.setPc v).launches = s.launches := rfl
@[simp] theorem State.setPc_nextLaunch (s : State) (v : Word) : (s.setPc v).nextLaunch = s.nextLaunch := rfl
@[simp] theorem State.setPc_loads (s : State) (v : Word) : (s.setPc v).loads = s.loads := rfl
@[simp] theorem State.setPc_nextLoad (s : State) (v : Word) : (s.setPc v).nextLoad = s.nextLoad := rfl
@[simp] theorem State.setPc_outs (s : State) (v : Word) : (s.setPc v).outs = s.outs := rfl
@[simp] theorem State.setPc_kernels (s : State) (v : Word) : (s.setPc v).kernels = s.kernels := rfl
@[simp] theorem State.setPc_symbols (s : State) (v : Word) : (s.setPc v).symbols = s.symbols := rfl
@[simp] theorem State.setPc_rotation (s : State) (v : Word) : (s.setPc v).rotation = s.rotation := rfl
@[simp] theorem State.setPc_burst (s : State) (v : Word) : (s.setPc v).burst = s.burst := rfl
@[simp] theorem State.setPc_blocked (s : State) (v : Word) : (s.setPc v).blocked = s.blocked := rfl
@[simp] theorem State.setPc_backfills (s : State) (v : Word) : (s.setPc v).backfills = s.backfills := rfl
@[simp] theorem State.setPc_reserved (s : State) (v : Word) : (s.setPc v).reserved = s.reserved := rfl
@[simp] theorem State.setPc_preemptHeld (s : State) (v : Word) : (s.setPc v).preemptHeld = s.preemptHeld := rfl
@[simp] theorem State.setPc_reqs (s : State) (v : Word) : (s.setPc v).reqs = s.reqs := rfl
@[simp] theorem State.setPc_nextReq (s : State) (v : Word) : (s.setPc v).nextReq = s.nextReq := rfl
@[simp] theorem State.setPc_bars (s : State) (v : Word) : (s.setPc v).bars = s.bars := rfl
@[simp] theorem State.setPc_nextBar (s : State) (v : Word) : (s.setPc v).nextBar = s.nextBar := rfl
@[simp] theorem State.setPc_time (s : State) (v : Word) : (s.setPc v).time = s.time := rfl
@[simp] theorem State.setPc_cur (s : State) (v : Word) : (s.setPc v).cur = s.cur := rfl
@[simp] theorem State.setPc_issued (s : State) (v : Word) : (s.setPc v).issued = s.issued := rfl
@[simp] theorem State.setPc_unitLast (s : State) (v : Word) : (s.setPc v).unitLast = s.unitLast := rfl
@[simp] theorem State.setPc_turn (s : State) (v : Word) : (s.setPc v).turn = s.turn := rfl
@[simp] theorem State.setPc_ticks (s : State) (v : Word) : (s.setPc v).ticks = s.ticks := rfl
@[simp] theorem State.setPc_inbox (s : State) (v : Word) : (s.setPc v).inbox = s.inbox := rfl
@[simp] theorem State.setPc_free (s : State) (v : Word) : (s.setPc v).free = s.free := rfl
@[simp] theorem State.setPc_epoch (s : State) (v : Word) : (s.setPc v).epoch = s.epoch := rfl

/-! ### State.orFlags -/

@[simp] theorem State.orFlags_dies (s : State) (f : BitVec 5) : (s.orFlags f).dies = s.dies := rfl
@[simp] theorem State.orFlags_mem (s : State) (f : BitVec 5) : (s.orFlags f).mem = s.mem := rfl
@[simp] theorem State.orFlags_bad (s : State) (f : BitVec 5) : (s.orFlags f).bad = s.bad := rfl
@[simp] theorem State.orFlags_sems (s : State) (f : BitVec 5) : (s.orFlags f).sems = s.sems := rfl
@[simp] theorem State.orFlags_tieFirst (s : State) (f : BitVec 5) : (s.orFlags f).tieFirst = s.tieFirst := rfl
@[simp] theorem State.orFlags_podbar (s : State) (f : BitVec 5) : (s.orFlags f).podbar = s.podbar := rfl
@[simp] theorem State.orFlags_podcfg (s : State) (f : BitVec 5) : (s.orFlags f).podcfg = s.podcfg := rfl
@[simp] theorem State.orFlags_ctxroot (s : State) (f : BitVec 5) : (s.orFlags f).ctxroot = s.ctxroot := rfl
@[simp] theorem State.orFlags_ctxpart (s : State) (f : BitVec 5) : (s.orFlags f).ctxpart = s.ctxpart := rfl
@[simp] theorem State.orFlags_pgnring (s : State) (f : BitVec 5) : (s.orFlags f).pgnring = s.pgnring := rfl
@[simp] theorem State.orFlags_pgnmode (s : State) (f : BitVec 5) : (s.orFlags f).pgnmode = s.pgnmode := rfl
@[simp] theorem State.orFlags_queues (s : State) (f : BitVec 5) : (s.orFlags f).queues = s.queues := rfl
@[simp] theorem State.orFlags_lcage (s : State) (f : BitVec 5) : (s.orFlags f).lcage = s.lcage := rfl
@[simp] theorem State.orFlags_bootstat (s : State) (f : BitVec 5) : (s.orFlags f).bootstat = s.bootstat := rfl
@[simp] theorem State.orFlags_podid (s : State) (f : BitVec 5) : (s.orFlags f).podid = s.podid := rfl
@[simp] theorem State.orFlags_msense (s : State) (f : BitVec 5) : (s.orFlags f).msense = s.msense := rfl
@[simp] theorem State.orFlags_testctl (s : State) (f : BitVec 5) : (s.orFlags f).testctl = s.testctl := rfl
@[simp] theorem State.orFlags_logring (s : State) (f : BitVec 5) : (s.orFlags f).logring = s.logring := rfl
@[simp] theorem State.orFlags_loglost (s : State) (f : BitVec 5) : (s.orFlags f).loglost = s.loglost := rfl
@[simp] theorem State.orFlags_logBad (s : State) (f : BitVec 5) : (s.orFlags f).logBad = s.logBad := rfl
@[simp] theorem State.orFlags_pwinbase (s : State) (f : BitVec 5) : (s.orFlags f).pwinbase = s.pwinbase := rfl
@[simp] theorem State.orFlags_pwinuio (s : State) (f : BitVec 5) : (s.orFlags f).pwinuio = s.pwinuio := rfl
@[simp] theorem State.orFlags_roles (s : State) (f : BitVec 5) : (s.orFlags f).roles = s.roles := rfl
@[simp] theorem State.orFlags_bar2 (s : State) (f : BitVec 5) : (s.orFlags f).bar2 = s.bar2 := rfl
@[simp] theorem State.orFlags_sysVector (s : State) (f : BitVec 5) : (s.orFlags f).sysVector = s.sysVector := rfl
@[simp] theorem State.orFlags_linkUp (s : State) (f : BitVec 5) : (s.orFlags f).linkUp = s.linkUp := rfl
@[simp] theorem State.orFlags_msixPending (s : State) (f : BitVec 5) : (s.orFlags f).msixPending = s.msixPending := rfl
@[simp] theorem State.orFlags_svnMin (s : State) (f : BitVec 5) : (s.orFlags f).svnMin = s.svnMin := rfl
@[simp] theorem State.orFlags_signKey (s : State) (f : BitVec 5) : (s.orFlags f).signKey = s.signKey := rfl
@[simp] theorem State.orFlags_raiseMin (s : State) (f : BitVec 5) : (s.orFlags f).raiseMin = s.raiseMin := rfl
@[simp] theorem State.orFlags_svnBoot (s : State) (f : BitVec 5) : (s.orFlags f).svnBoot = s.svnBoot := rfl
@[simp] theorem State.orFlags_measured (s : State) (f : BitVec 5) : (s.orFlags f).measured = s.measured := rfl
@[simp] theorem State.orFlags_msixTable (s : State) (f : BitVec 5) : (s.orFlags f).msixTable = s.msixTable := rfl
@[simp] theorem State.orFlags_requests (s : State) (f : BitVec 5) : (s.orFlags f).requests = s.requests := rfl
@[simp] theorem State.orFlags_podParity (s : State) (f : BitVec 5) : (s.orFlags f).podParity = s.podParity := rfl
@[simp] theorem State.orFlags_podSent (s : State) (f : BitVec 5) : (s.orFlags f).podSent = s.podSent := rfl
@[simp] theorem State.orFlags_out (s : State) (f : BitVec 5) : (s.orFlags f).out = s.out := rfl
@[simp] theorem State.orFlags_log (s : State) (f : BitVec 5) : (s.orFlags f).log = s.log := rfl
@[simp] theorem State.orFlags_launches (s : State) (f : BitVec 5) : (s.orFlags f).launches = s.launches := rfl
@[simp] theorem State.orFlags_nextLaunch (s : State) (f : BitVec 5) : (s.orFlags f).nextLaunch = s.nextLaunch := rfl
@[simp] theorem State.orFlags_loads (s : State) (f : BitVec 5) : (s.orFlags f).loads = s.loads := rfl
@[simp] theorem State.orFlags_nextLoad (s : State) (f : BitVec 5) : (s.orFlags f).nextLoad = s.nextLoad := rfl
@[simp] theorem State.orFlags_outs (s : State) (f : BitVec 5) : (s.orFlags f).outs = s.outs := rfl
@[simp] theorem State.orFlags_kernels (s : State) (f : BitVec 5) : (s.orFlags f).kernels = s.kernels := rfl
@[simp] theorem State.orFlags_symbols (s : State) (f : BitVec 5) : (s.orFlags f).symbols = s.symbols := rfl
@[simp] theorem State.orFlags_rotation (s : State) (f : BitVec 5) : (s.orFlags f).rotation = s.rotation := rfl
@[simp] theorem State.orFlags_burst (s : State) (f : BitVec 5) : (s.orFlags f).burst = s.burst := rfl
@[simp] theorem State.orFlags_blocked (s : State) (f : BitVec 5) : (s.orFlags f).blocked = s.blocked := rfl
@[simp] theorem State.orFlags_backfills (s : State) (f : BitVec 5) : (s.orFlags f).backfills = s.backfills := rfl
@[simp] theorem State.orFlags_reserved (s : State) (f : BitVec 5) : (s.orFlags f).reserved = s.reserved := rfl
@[simp] theorem State.orFlags_preemptHeld (s : State) (f : BitVec 5) : (s.orFlags f).preemptHeld = s.preemptHeld := rfl
@[simp] theorem State.orFlags_reqs (s : State) (f : BitVec 5) : (s.orFlags f).reqs = s.reqs := rfl
@[simp] theorem State.orFlags_nextReq (s : State) (f : BitVec 5) : (s.orFlags f).nextReq = s.nextReq := rfl
@[simp] theorem State.orFlags_bars (s : State) (f : BitVec 5) : (s.orFlags f).bars = s.bars := rfl
@[simp] theorem State.orFlags_nextBar (s : State) (f : BitVec 5) : (s.orFlags f).nextBar = s.nextBar := rfl
@[simp] theorem State.orFlags_time (s : State) (f : BitVec 5) : (s.orFlags f).time = s.time := rfl
@[simp] theorem State.orFlags_cur (s : State) (f : BitVec 5) : (s.orFlags f).cur = s.cur := rfl
@[simp] theorem State.orFlags_issued (s : State) (f : BitVec 5) : (s.orFlags f).issued = s.issued := rfl
@[simp] theorem State.orFlags_unitLast (s : State) (f : BitVec 5) : (s.orFlags f).unitLast = s.unitLast := rfl
@[simp] theorem State.orFlags_turn (s : State) (f : BitVec 5) : (s.orFlags f).turn = s.turn := rfl
@[simp] theorem State.orFlags_ticks (s : State) (f : BitVec 5) : (s.orFlags f).ticks = s.ticks := rfl
@[simp] theorem State.orFlags_inbox (s : State) (f : BitVec 5) : (s.orFlags f).inbox = s.inbox := rfl
@[simp] theorem State.orFlags_free (s : State) (f : BitVec 5) : (s.orFlags f).free = s.free := rfl
@[simp] theorem State.orFlags_epoch (s : State) (f : BitVec 5) : (s.orFlags f).epoch = s.epoch := rfl

/-! ### State.modDie -/

@[simp] theorem State.modDie_cores (s : State) (d : Fin 4) (f : Die → Die) : (s.modDie d f).cores = s.cores := rfl
@[simp] theorem State.modDie_mem (s : State) (d : Fin 4) (f : Die → Die) : (s.modDie d f).mem = s.mem := rfl
@[simp] theorem State.modDie_bad (s : State) (d : Fin 4) (f : Die → Die) : (s.modDie d f).bad = s.bad := rfl
@[simp] theorem State.modDie_sems (s : State) (d : Fin 4) (f : Die → Die) : (s.modDie d f).sems = s.sems := rfl
@[simp] theorem State.modDie_tieFirst (s : State) (d : Fin 4) (f : Die → Die) : (s.modDie d f).tieFirst = s.tieFirst := rfl
@[simp] theorem State.modDie_podbar (s : State) (d : Fin 4) (f : Die → Die) : (s.modDie d f).podbar = s.podbar := rfl
@[simp] theorem State.modDie_podcfg (s : State) (d : Fin 4) (f : Die → Die) : (s.modDie d f).podcfg = s.podcfg := rfl
@[simp] theorem State.modDie_ctxroot (s : State) (d : Fin 4) (f : Die → Die) : (s.modDie d f).ctxroot = s.ctxroot := rfl
@[simp] theorem State.modDie_ctxpart (s : State) (d : Fin 4) (f : Die → Die) : (s.modDie d f).ctxpart = s.ctxpart := rfl
@[simp] theorem State.modDie_pgnring (s : State) (d : Fin 4) (f : Die → Die) : (s.modDie d f).pgnring = s.pgnring := rfl
@[simp] theorem State.modDie_pgnmode (s : State) (d : Fin 4) (f : Die → Die) : (s.modDie d f).pgnmode = s.pgnmode := rfl
@[simp] theorem State.modDie_queues (s : State) (d : Fin 4) (f : Die → Die) : (s.modDie d f).queues = s.queues := rfl
@[simp] theorem State.modDie_lcage (s : State) (d : Fin 4) (f : Die → Die) : (s.modDie d f).lcage = s.lcage := rfl
@[simp] theorem State.modDie_bootstat (s : State) (d : Fin 4) (f : Die → Die) : (s.modDie d f).bootstat = s.bootstat := rfl
@[simp] theorem State.modDie_podid (s : State) (d : Fin 4) (f : Die → Die) : (s.modDie d f).podid = s.podid := rfl
@[simp] theorem State.modDie_msense (s : State) (d : Fin 4) (f : Die → Die) : (s.modDie d f).msense = s.msense := rfl
@[simp] theorem State.modDie_testctl (s : State) (d : Fin 4) (f : Die → Die) : (s.modDie d f).testctl = s.testctl := rfl
@[simp] theorem State.modDie_logring (s : State) (d : Fin 4) (f : Die → Die) : (s.modDie d f).logring = s.logring := rfl
@[simp] theorem State.modDie_loglost (s : State) (d : Fin 4) (f : Die → Die) : (s.modDie d f).loglost = s.loglost := rfl
@[simp] theorem State.modDie_logBad (s : State) (d : Fin 4) (f : Die → Die) : (s.modDie d f).logBad = s.logBad := rfl
@[simp] theorem State.modDie_pwinbase (s : State) (d : Fin 4) (f : Die → Die) : (s.modDie d f).pwinbase = s.pwinbase := rfl
@[simp] theorem State.modDie_pwinuio (s : State) (d : Fin 4) (f : Die → Die) : (s.modDie d f).pwinuio = s.pwinuio := rfl
@[simp] theorem State.modDie_roles (s : State) (d : Fin 4) (f : Die → Die) : (s.modDie d f).roles = s.roles := rfl
@[simp] theorem State.modDie_bar2 (s : State) (d : Fin 4) (f : Die → Die) : (s.modDie d f).bar2 = s.bar2 := rfl
@[simp] theorem State.modDie_sysVector (s : State) (d : Fin 4) (f : Die → Die) : (s.modDie d f).sysVector = s.sysVector := rfl
@[simp] theorem State.modDie_linkUp (s : State) (d : Fin 4) (f : Die → Die) : (s.modDie d f).linkUp = s.linkUp := rfl
@[simp] theorem State.modDie_msixPending (s : State) (d : Fin 4) (f : Die → Die) : (s.modDie d f).msixPending = s.msixPending := rfl
@[simp] theorem State.modDie_svnMin (s : State) (d : Fin 4) (f : Die → Die) : (s.modDie d f).svnMin = s.svnMin := rfl
@[simp] theorem State.modDie_signKey (s : State) (d : Fin 4) (f : Die → Die) : (s.modDie d f).signKey = s.signKey := rfl
@[simp] theorem State.modDie_raiseMin (s : State) (d : Fin 4) (f : Die → Die) : (s.modDie d f).raiseMin = s.raiseMin := rfl
@[simp] theorem State.modDie_svnBoot (s : State) (d : Fin 4) (f : Die → Die) : (s.modDie d f).svnBoot = s.svnBoot := rfl
@[simp] theorem State.modDie_measured (s : State) (d : Fin 4) (f : Die → Die) : (s.modDie d f).measured = s.measured := rfl
@[simp] theorem State.modDie_msixTable (s : State) (d : Fin 4) (f : Die → Die) : (s.modDie d f).msixTable = s.msixTable := rfl
@[simp] theorem State.modDie_requests (s : State) (d : Fin 4) (f : Die → Die) : (s.modDie d f).requests = s.requests := rfl
@[simp] theorem State.modDie_podParity (s : State) (d : Fin 4) (f : Die → Die) : (s.modDie d f).podParity = s.podParity := rfl
@[simp] theorem State.modDie_podSent (s : State) (d : Fin 4) (f : Die → Die) : (s.modDie d f).podSent = s.podSent := rfl
@[simp] theorem State.modDie_out (s : State) (d : Fin 4) (f : Die → Die) : (s.modDie d f).out = s.out := rfl
@[simp] theorem State.modDie_log (s : State) (d : Fin 4) (f : Die → Die) : (s.modDie d f).log = s.log := rfl
@[simp] theorem State.modDie_launches (s : State) (d : Fin 4) (f : Die → Die) : (s.modDie d f).launches = s.launches := rfl
@[simp] theorem State.modDie_nextLaunch (s : State) (d : Fin 4) (f : Die → Die) : (s.modDie d f).nextLaunch = s.nextLaunch := rfl
@[simp] theorem State.modDie_loads (s : State) (d : Fin 4) (f : Die → Die) : (s.modDie d f).loads = s.loads := rfl
@[simp] theorem State.modDie_nextLoad (s : State) (d : Fin 4) (f : Die → Die) : (s.modDie d f).nextLoad = s.nextLoad := rfl
@[simp] theorem State.modDie_outs (s : State) (d : Fin 4) (f : Die → Die) : (s.modDie d f).outs = s.outs := rfl
@[simp] theorem State.modDie_kernels (s : State) (d : Fin 4) (f : Die → Die) : (s.modDie d f).kernels = s.kernels := rfl
@[simp] theorem State.modDie_symbols (s : State) (d : Fin 4) (f : Die → Die) : (s.modDie d f).symbols = s.symbols := rfl
@[simp] theorem State.modDie_rotation (s : State) (d : Fin 4) (f : Die → Die) : (s.modDie d f).rotation = s.rotation := rfl
@[simp] theorem State.modDie_burst (s : State) (d : Fin 4) (f : Die → Die) : (s.modDie d f).burst = s.burst := rfl
@[simp] theorem State.modDie_blocked (s : State) (d : Fin 4) (f : Die → Die) : (s.modDie d f).blocked = s.blocked := rfl
@[simp] theorem State.modDie_backfills (s : State) (d : Fin 4) (f : Die → Die) : (s.modDie d f).backfills = s.backfills := rfl
@[simp] theorem State.modDie_reserved (s : State) (d : Fin 4) (f : Die → Die) : (s.modDie d f).reserved = s.reserved := rfl
@[simp] theorem State.modDie_preemptHeld (s : State) (d : Fin 4) (f : Die → Die) : (s.modDie d f).preemptHeld = s.preemptHeld := rfl
@[simp] theorem State.modDie_reqs (s : State) (d : Fin 4) (f : Die → Die) : (s.modDie d f).reqs = s.reqs := rfl
@[simp] theorem State.modDie_nextReq (s : State) (d : Fin 4) (f : Die → Die) : (s.modDie d f).nextReq = s.nextReq := rfl
@[simp] theorem State.modDie_bars (s : State) (d : Fin 4) (f : Die → Die) : (s.modDie d f).bars = s.bars := rfl
@[simp] theorem State.modDie_nextBar (s : State) (d : Fin 4) (f : Die → Die) : (s.modDie d f).nextBar = s.nextBar := rfl
@[simp] theorem State.modDie_time (s : State) (d : Fin 4) (f : Die → Die) : (s.modDie d f).time = s.time := rfl
@[simp] theorem State.modDie_cur (s : State) (d : Fin 4) (f : Die → Die) : (s.modDie d f).cur = s.cur := rfl
@[simp] theorem State.modDie_issued (s : State) (d : Fin 4) (f : Die → Die) : (s.modDie d f).issued = s.issued := rfl
@[simp] theorem State.modDie_unitLast (s : State) (d : Fin 4) (f : Die → Die) : (s.modDie d f).unitLast = s.unitLast := rfl
@[simp] theorem State.modDie_turn (s : State) (d : Fin 4) (f : Die → Die) : (s.modDie d f).turn = s.turn := rfl
@[simp] theorem State.modDie_ticks (s : State) (d : Fin 4) (f : Die → Die) : (s.modDie d f).ticks = s.ticks := rfl
@[simp] theorem State.modDie_inbox (s : State) (d : Fin 4) (f : Die → Die) : (s.modDie d f).inbox = s.inbox := rfl
@[simp] theorem State.modDie_free (s : State) (d : Fin 4) (f : Die → Die) : (s.modDie d f).free = s.free := rfl
@[simp] theorem State.modDie_epoch (s : State) (d : Fin 4) (f : Die → Die) : (s.modDie d f).epoch = s.epoch := rfl

/-! ### State.tick -/

@[simp] theorem State.tick_cores (s : State) : s.tick.cores = s.countIssue := rfl
@[simp] theorem State.tick_dies (s : State) :
    s.tick.dies = s.dies.map (·.freeWalkers (s.time + Config.elapsed s.ticks)) := rfl
@[simp] theorem State.tick_mem (s : State) : s.tick.mem = s.mem := rfl
@[simp] theorem State.tick_bad (s : State) : s.tick.bad = s.bad := rfl
@[simp] theorem State.tick_sems (s : State) : s.tick.sems = s.sems := rfl
@[simp] theorem State.tick_tieFirst (s : State) : s.tick.tieFirst = s.tieFirst := rfl
@[simp] theorem State.tick_podbar (s : State) : s.tick.podbar = s.podbar := rfl
@[simp] theorem State.tick_podcfg (s : State) : s.tick.podcfg = s.podcfg := rfl
@[simp] theorem State.tick_ctxroot (s : State) : s.tick.ctxroot = s.ctxroot := rfl
@[simp] theorem State.tick_ctxpart (s : State) : s.tick.ctxpart = s.ctxpart := rfl
@[simp] theorem State.tick_pgnring (s : State) : s.tick.pgnring = s.pgnring := rfl
@[simp] theorem State.tick_pgnmode (s : State) : s.tick.pgnmode = s.pgnmode := rfl
@[simp] theorem State.tick_queues (s : State) : s.tick.queues = s.queues := rfl
@[simp] theorem State.tick_lcage (s : State) : s.tick.lcage = s.lcage := rfl
@[simp] theorem State.tick_bootstat (s : State) : s.tick.bootstat = s.bootstat := rfl
@[simp] theorem State.tick_podid (s : State) : s.tick.podid = s.podid := rfl
@[simp] theorem State.tick_msense (s : State) : s.tick.msense = s.msense := rfl
@[simp] theorem State.tick_testctl (s : State) : s.tick.testctl = s.testctl := rfl
@[simp] theorem State.tick_logring (s : State) : s.tick.logring = s.logring := rfl
@[simp] theorem State.tick_loglost (s : State) : s.tick.loglost = s.loglost := rfl
@[simp] theorem State.tick_logBad (s : State) : s.tick.logBad = s.logBad := rfl
@[simp] theorem State.tick_pwinbase (s : State) : s.tick.pwinbase = s.pwinbase := rfl
@[simp] theorem State.tick_pwinuio (s : State) : s.tick.pwinuio = s.pwinuio := rfl
@[simp] theorem State.tick_roles (s : State) : s.tick.roles = s.roles := rfl
@[simp] theorem State.tick_bar2 (s : State) : s.tick.bar2 = s.bar2 := rfl
@[simp] theorem State.tick_sysVector (s : State) : s.tick.sysVector = s.sysVector := rfl
@[simp] theorem State.tick_linkUp (s : State) : s.tick.linkUp = s.linkUp := rfl
@[simp] theorem State.tick_msixPending (s : State) : s.tick.msixPending = s.msixPending := rfl
@[simp] theorem State.tick_svnMin (s : State) : s.tick.svnMin = s.svnMin := rfl
@[simp] theorem State.tick_signKey (s : State) : s.tick.signKey = s.signKey := rfl
@[simp] theorem State.tick_raiseMin (s : State) : s.tick.raiseMin = s.raiseMin := rfl
@[simp] theorem State.tick_svnBoot (s : State) : s.tick.svnBoot = s.svnBoot := rfl
@[simp] theorem State.tick_measured (s : State) : s.tick.measured = s.measured := rfl
@[simp] theorem State.tick_msixTable (s : State) : s.tick.msixTable = s.msixTable := rfl
@[simp] theorem State.tick_requests (s : State) : s.tick.requests = s.requests := rfl
@[simp] theorem State.tick_podParity (s : State) : s.tick.podParity = s.podParity := rfl
@[simp] theorem State.tick_podSent (s : State) : s.tick.podSent = s.podSent := rfl
@[simp] theorem State.tick_out (s : State) : s.tick.out = s.out := rfl
@[simp] theorem State.tick_log (s : State) : s.tick.log = s.log := rfl
@[simp] theorem State.tick_launches (s : State) : s.tick.launches = s.launches.map s.stamp := rfl
@[simp] theorem State.tick_nextLaunch (s : State) : s.tick.nextLaunch = s.nextLaunch := rfl
@[simp] theorem State.tick_loads (s : State) : s.tick.loads = s.loads := rfl
@[simp] theorem State.tick_nextLoad (s : State) : s.tick.nextLoad = s.nextLoad := rfl
@[simp] theorem State.tick_outs (s : State) : s.tick.outs = s.outs := rfl
@[simp] theorem State.tick_kernels (s : State) : s.tick.kernels = s.kernels := rfl
@[simp] theorem State.tick_symbols (s : State) : s.tick.symbols = s.symbols := rfl
@[simp] theorem State.tick_rotation (s : State) : s.tick.rotation = s.rotation := rfl
@[simp] theorem State.tick_burst (s : State) : s.tick.burst = s.burst := rfl
@[simp] theorem State.tick_blocked (s : State) : s.tick.blocked = s.blocked := rfl
@[simp] theorem State.tick_backfills (s : State) : s.tick.backfills = s.backfills := rfl
@[simp] theorem State.tick_reserved (s : State) : s.tick.reserved = s.reserved := rfl
@[simp] theorem State.tick_preemptHeld (s : State) : s.tick.preemptHeld = s.preemptHeld := rfl
@[simp] theorem State.tick_reqs (s : State) : s.tick.reqs = s.reqs := rfl
@[simp] theorem State.tick_nextReq (s : State) : s.tick.nextReq = s.nextReq := rfl
@[simp] theorem State.tick_bars (s : State) : s.tick.bars = s.bars := rfl
@[simp] theorem State.tick_nextBar (s : State) : s.tick.nextBar = s.nextBar := rfl
@[simp] theorem State.tick_ticks (s : State) : s.tick.ticks = s.ticks + 1 := rfl
@[simp] theorem State.tick_time (s : State) : s.tick.time = s.time + Config.elapsed s.ticks := rfl
@[simp] theorem State.tick_issued (s : State) : s.tick.issued = s.issued := rfl
@[simp] theorem State.tick_unitLast (s : State) : s.tick.unitLast = s.unitLast := rfl
@[simp] theorem State.tick_cur (s : State) : s.tick.cur = s.cur := rfl
@[simp] theorem State.tick_turn (s : State) : s.tick.turn = s.turn := rfl
@[simp] theorem State.tick_inbox (s : State) : s.tick.inbox = s.inbox := rfl
@[simp] theorem State.tick_free (s : State) : s.tick.free = s.free := rfl
@[simp] theorem State.tick_epoch (s : State) : s.tick.epoch = s.epoch := rfl

/-! ### Core.modHart -/

@[simp] theorem Core.modHart_pword (c : Core) (h : Fin 8) (f : Hart → Hart) : (c.modHart h f).pword = c.pword := rfl
@[simp] theorem Core.modHart_rows (c : Core) (h : Fin 8) (f : Hart → Hart) : (c.modHart h f).rows = c.rows := rfl
@[simp] theorem Core.modHart_marks (c : Core) (h : Fin 8) (f : Hart → Hart) : (c.modHart h f).marks = c.marks := rfl
@[simp] theorem Core.modHart_tileInt (c : Core) (h : Fin 8) (f : Hart → Hart) : (c.modHart h f).tileInt = c.tileInt := rfl
@[simp] theorem Core.modHart_ptroot (c : Core) (h : Fin 8) (f : Hart → Hart) : (c.modHart h f).ptroot = c.ptroot := rfl
@[simp] theorem Core.modHart_vlpwr (c : Core) (h : Fin 8) (f : Hart → Hart) : (c.modHart h f).vlpwr = c.vlpwr := rfl
@[simp] theorem Core.modHart_ctag (c : Core) (h : Fin 8) (f : Hart → Hart) : (c.modHart h f).ctag = c.ctag := rfl
@[simp] theorem Core.modHart_cterr (c : Core) (h : Fin 8) (f : Hart → Hart) : (c.modHart h f).cterr = c.cterr := rfl
@[simp] theorem Core.modHart_tags (c : Core) (h : Fin 8) (f : Hart → Hart) : (c.modHart h f).tags = c.tags := rfl
@[simp] theorem Core.modHart_mcver (c : Core) (h : Fin 8) (f : Hart → Hart) : (c.modHart h f).mcver = c.mcver := rfl
@[simp] theorem Core.modHart_tokenHeld (c : Core) (h : Fin 8) (f : Hart → Hart) : (c.modHart h f).tokenHeld = c.tokenHeld := rfl
@[simp] theorem Core.modHart_tokenMode (c : Core) (h : Fin 8) (f : Hart → Hart) : (c.modHart h f).tokenMode = c.tokenMode := rfl
@[simp] theorem Core.modHart_lists (c : Core) (h : Fin 8) (f : Hart → Hart) : (c.modHart h f).lists = c.lists := rfl
@[simp] theorem Core.modHart_bb (c : Core) (h : Fin 8) (f : Hart → Hart) : (c.modHart h f).bb = c.bb := rfl
@[simp] theorem Core.modHart_binds (c : Core) (h : Fin 8) (f : Hart → Hart) : (c.modHart h f).binds = c.binds := rfl
@[simp] theorem Core.modHart_coef (c : Core) (h : Fin 8) (f : Hart → Hart) : (c.modHart h f).coef = c.coef := rfl
@[simp] theorem Core.modHart_stream (c : Core) (h : Fin 8) (f : Hart → Hart) : (c.modHart h f).stream = c.stream := rfl
@[simp] theorem Core.modHart_sltol (c : Core) (h : Fin 8) (f : Hart → Hart) : (c.modHart h f).sltol = c.sltol := rfl
@[simp] theorem Core.modHart_slcap (c : Core) (h : Fin 8) (f : Hart → Hart) : (c.modHart h f).slcap = c.slcap := rfl
@[simp] theorem Core.modHart_sldiv (c : Core) (h : Fin 8) (f : Hart → Hart) : (c.modHart h f).sldiv = c.sldiv := rfl
@[simp] theorem Core.modHart_sliter (c : Core) (h : Fin 8) (f : Hart → Hart) : (c.modHart h f).sliter = c.sliter := rfl
@[simp] theorem Core.modHart_slphase (c : Core) (h : Fin 8) (f : Hart → Hart) : (c.modHart h f).slphase = c.slphase := rfl
@[simp] theorem Core.modHart_slrprev (c : Core) (h : Fin 8) (f : Hart → Hart) : (c.modHart h f).slrprev = c.slrprev := rfl
@[simp] theorem Core.modHart_wins (c : Core) (h : Fin 8) (f : Hart → Hart) : (c.modHart h f).wins = c.wins := rfl
@[simp] theorem Core.modHart_tlb (c : Core) (h : Fin 8) (f : Hart → Hart) : (c.modHart h f).tlb = c.tlb := rfl
@[simp] theorem Core.modHart_sdc (c : Core) (h : Fin 8) (f : Hart → Hart) : (c.modHart h f).sdc = c.sdc := rfl
@[simp] theorem Core.modHart_icache (c : Core) (h : Fin 8) (f : Hart → Hart) : (c.modHart h f).icache = c.icache := rfl
@[simp] theorem Core.modHart_past (c : Core) (h : Fin 8) (f : Hart → Hart) : (c.modHart h f).past = c.past := rfl
@[simp] theorem Core.modHart_unflushed (c : Core) (h : Fin 8) (f : Hart → Hart) : (c.modHart h f).unflushed = c.unflushed := rfl
@[simp] theorem Core.modHart_flaws (c : Core) (h : Fin 8) (f : Hart → Hart) : (c.modHart h f).flaws = c.flaws := rfl
@[simp] theorem Core.modHart_ops (c : Core) (h : Fin 8) (f : Hart → Hart) : (c.modHart h f).ops = c.ops := rfl
@[simp] theorem Core.modHart_nextOp (c : Core) (h : Fin 8) (f : Hart → Hart) : (c.modHart h f).nextOp = c.nextOp := rfl
@[simp] theorem Core.modHart_failedSlices (c : Core) (h : Fin 8) (f : Hart → Hart) : (c.modHart h f).failedSlices = c.failedSlices := rfl
@[simp] theorem Core.modHart_pallet (c : Core) (h : Fin 8) (f : Hart → Hart) : (c.modHart h f).pallet = c.pallet := rfl
@[simp] theorem Core.modHart_preempt (c : Core) (h : Fin 8) (f : Hart → Hart) : (c.modHart h f).preempt = c.preempt := rfl
@[simp] theorem Core.modHart_dbgctl (c : Core) (h : Fin 8) (f : Hart → Hart) : (c.modHart h f).dbgctl = c.dbgctl := rfl
@[simp] theorem Core.modHart_dbgstat (c : Core) (h : Fin 8) (f : Hart → Hart) : (c.modHart h f).dbgstat = c.dbgstat := rfl
@[simp] theorem Core.modHart_haltHeld (c : Core) (h : Fin 8) (f : Hart → Hart) : (c.modHart h f).haltHeld = c.haltHeld := rfl
@[simp] theorem Core.modHart_last (c : Core) (h : Fin 8) (f : Hart → Hart) : (c.modHart h f).last = c.last := rfl

/-! ### The hart after an instruction completes, and after a trap is recorded -/

@[simp] theorem Hart.complete_th (h : Hart) : h.complete.th = h.th := rfl
@[simp] theorem Hart.complete_vl (h : Hart) : h.complete.vl = h.vl := rfl
@[simp] theorem Hart.complete_vseg (h : Hart) : h.complete.vseg = h.vseg := rfl
@[simp] theorem Hart.complete_cmask (h : Hart) : h.complete.cmask = h.cmask := rfl
@[simp] theorem Hart.complete_dcthr (h : Hart) : h.complete.dcthr = h.dcthr := rfl
@[simp] theorem Hart.complete_kvfthr (h : Hart) : h.complete.kvfthr = h.kvfthr := rfl
@[simp] theorem Hart.complete_vtestint (h : Hart) : h.complete.vtestint = h.vtestint := rfl
@[simp] theorem Hart.complete_smbs (h : Hart) : h.complete.smbs = h.smbs := rfl
@[simp] theorem Hart.complete_tvec (h : Hart) : h.complete.tvec = h.tvec := rfl
@[simp] theorem Hart.complete_tcause (h : Hart) : h.complete.tcause = h.tcause := rfl
@[simp] theorem Hart.complete_tpc (h : Hart) : h.complete.tpc = h.tpc := rfl
@[simp] theorem Hart.complete_tiaddr (h : Hart) : h.complete.tiaddr = h.tiaddr := rfl
@[simp] theorem Hart.complete_tfaddr (h : Hart) : h.complete.tfaddr = h.tfaddr := rfl
@[simp] theorem Hart.complete_tpfx (h : Hart) : h.complete.tpfx = h.tpfx := rfl
@[simp] theorem Hart.complete_elag (h : Hart) : h.complete.elag = h.elag := rfl
@[simp] theorem Hart.complete_estart (h : Hart) : h.complete.estart = h.estart := rfl
@[simp] theorem Hart.complete_replaying (h : Hart) : h.complete.replaying = h.replaying := rfl
@[simp] theorem Hart.complete_sys (h : Hart) : h.complete.sys = h.sys := rfl
@[simp] theorem Hart.complete_inh (h : Hart) : h.complete.inh = h.inh := rfl
@[simp] theorem Hart.complete_st (h : Hart) : h.complete.st = h.st := rfl
@[simp] theorem Hart.complete_vc (h : Hart) : h.complete.vc = h.vc := rfl
@[simp] theorem Hart.complete_landed (h : Hart) : h.complete.landed = h.landed := rfl
@[simp] theorem Hart.complete_unseen (h : Hart) : h.complete.unseen = h.unseen := rfl
@[simp] theorem Hart.complete_verd (h : Hart) : h.complete.verd = h.verd := rfl
@[simp] theorem Hart.complete_yieldLeft (h : Hart) : h.complete.yieldLeft = h.yieldLeft := rfl
@[simp] theorem Hart.complete_idle (h : Hart) : h.complete.idle = h.idle := rfl
@[simp] theorem Hart.complete_strmTrap (h : Hart) : h.complete.strmTrap = h.strmTrap := rfl
@[simp] theorem Hart.complete_held (h : Hart) : h.complete.held = h.held := rfl
@[simp] theorem Hart.complete_tierFail (h : Hart) : h.complete.tierFail = h.tierFail := rfl
@[simp] theorem Hart.complete_bare (h : Hart) : h.complete.bare = h.bare := rfl
@[simp] theorem Hart.complete_walk (h : Hart) : h.complete.walk = h.walk := rfl
@[simp] theorem Hart.complete_pfx (h : Hart) : h.complete.pfx = none := rfl
@[simp] theorem Hart.complete_wait (h : Hart) : h.complete.wait = .none := rfl
@[simp] theorem Hart.complete_sleep (h : Hart) : h.complete.sleep = none := rfl
@[simp] theorem Hart.complete_waitStart (h : Hart) : h.complete.waitStart = none := rfl
@[simp] theorem Hart.record_th (h : Hart) (t : Trap) : (h.record t).th = h.th := rfl
@[simp] theorem Hart.record_vl (h : Hart) (t : Trap) : (h.record t).vl = h.vl := rfl
@[simp] theorem Hart.record_vseg (h : Hart) (t : Trap) : (h.record t).vseg = h.vseg := rfl
@[simp] theorem Hart.record_cmask (h : Hart) (t : Trap) : (h.record t).cmask = h.cmask := rfl
@[simp] theorem Hart.record_dcthr (h : Hart) (t : Trap) : (h.record t).dcthr = h.dcthr := rfl
@[simp] theorem Hart.record_kvfthr (h : Hart) (t : Trap) : (h.record t).kvfthr = h.kvfthr := rfl
@[simp] theorem Hart.record_vtestint (h : Hart) (t : Trap) : (h.record t).vtestint = h.vtestint := rfl
@[simp] theorem Hart.record_smbs (h : Hart) (t : Trap) : (h.record t).smbs = h.smbs := rfl
@[simp] theorem Hart.record_tvec (h : Hart) (t : Trap) : (h.record t).tvec = h.tvec := rfl
@[simp] theorem Hart.record_sys (h : Hart) (t : Trap) : (h.record t).sys = h.sys := rfl
@[simp] theorem Hart.record_inh (h : Hart) (t : Trap) : (h.record t).inh = h.inh := rfl
@[simp] theorem Hart.record_st (h : Hart) (t : Trap) : (h.record t).st = h.st := rfl
@[simp] theorem Hart.record_vc (h : Hart) (t : Trap) : (h.record t).vc = h.vc := rfl
@[simp] theorem Hart.record_landed (h : Hart) (t : Trap) : (h.record t).landed = h.landed := rfl
@[simp] theorem Hart.record_unseen (h : Hart) (t : Trap) : (h.record t).unseen = h.unseen := rfl
@[simp] theorem Hart.record_yieldLeft (h : Hart) (t : Trap) : (h.record t).yieldLeft = h.yieldLeft := rfl
@[simp] theorem Hart.record_idle (h : Hart) (t : Trap) : (h.record t).idle = h.idle := rfl
@[simp] theorem Hart.record_strmTrap (h : Hart) (t : Trap) : (h.record t).strmTrap = h.strmTrap := rfl
@[simp] theorem Hart.record_held (h : Hart) (t : Trap) : (h.record t).held = h.held := rfl
@[simp] theorem Hart.record_tierFail (h : Hart) (t : Trap) : (h.record t).tierFail = h.tierFail := rfl
@[simp] theorem Hart.record_bare (h : Hart) (t : Trap) : (h.record t).bare = h.bare := rfl

end Sys2Proof.Machine
end

