-- ==== Sys2Proof/Laws/Registers.lean ====
section
/-! SUPPORT. Registers, harts and cores: reading what was written, and what other reads give after a write. -/

namespace Sys2Proof.Machine

/-! ## Scalar registers (R3) -/

@[simp] theorem Thread.get_zero (t : Thread) : t.get 0 = 0 := rfl

@[simp] theorem Thread.set_zero (t : Thread) (v : Word) : t.set 0 v = t := rfl

@[simp] theorem Thread.set_pc (t : Thread) (r : Reg) (v : Word) : (t.set r v).pc = t.pc := by
  unfold Thread.set; split <;> rfl

@[simp] theorem Thread.set_frm (t : Thread) (r : Reg) (v : Word) : (t.set r v).frm = t.frm := by
  unfold Thread.set; split <;> rfl

@[simp] theorem Thread.set_fflags (t : Thread) (r : Reg) (v : Word) : (t.set r v).fflags = t.fflags := by
  unfold Thread.set; split <;> rfl

theorem Thread.get_set_same (t : Thread) {r : Reg} (v : Word) (h : r ≠ 0) : (t.set r v).get r = v := by
  unfold Thread.get Thread.set
  rw [if_neg h, if_neg h]
  exact Vector.getElem_set_self _

theorem Thread.get_set_other (t : Thread) {r q : Reg} (v : Word) (h : q ≠ r) : (t.set r v).get q = t.get q := by
  unfold Thread.get Thread.set
  split
  · rfl
  · split
    · rfl
    · have : r.toNat ≠ q.toNat := fun e => h (BitVec.eq_of_toNat_eq e.symm)
      simp [this]

/-! ## The current core, hart and thread -/

@[simp] theorem State.core_setCore (s : State) (c : Core) : (s.setCore c).core = c := by
  simp [State.core, State.setCore]

@[simp] theorem State.core_modCore (s : State) (f : Core → Core) : (s.modCore f).core = f s.core := by
  simp [State.modCore]

theorem State.core_setCore_other (s : State) (c : Core) {i : Fin 192} (h : i ≠ s.cur.core) :
    (s.setCore c).cores[i] = s.cores[i] := by
  have : s.cur.core.val ≠ i.val := fun e => h (Fin.ext e.symm)
  simp [State.setCore, this]

@[simp] theorem State.hart_modHart (s : State) (f : Hart → Hart) : (s.modHart f).hart = f s.hart := by
  simp [State.hart, State.modHart, State.modCore, State.setCore, State.core, Core.modHart]

@[simp] theorem Core.th_modTh (c : Core) (w : Who) (f : Thread → Thread) : (c.modTh w f).th w = f (c.th w) := by
  cases w <;> simp [Core.modTh, Core.th, Core.modHart]

@[simp] theorem State.th_modTh (s : State) (f : Thread → Thread) : (s.modTh f).th = f s.th := by
  simp [State.th, State.modTh]

@[simp] theorem State.getX_zero (s : State) : s.getX 0 = 0 := rfl

@[simp] theorem State.pc_setX (s : State) (r : Reg) (v : Word) : (s.setX r v).pc = s.pc := by
  simp [State.pc, State.setX]

theorem State.getX_setX_same (s : State) {r : Reg} (v : Word) (h : r ≠ 0) : (s.setX r v).getX r = v := by
  simp only [State.getX, State.setX, State.th_modTh]
  exact Thread.get_set_same _ v h

theorem State.getX_setX_other (s : State) {r q : Reg} (v : Word) (h : q ≠ r) : (s.setX r v).getX q = s.getX q := by
  simp only [State.getX, State.setX, State.th_modTh]
  exact Thread.get_set_other _ v h

@[simp] theorem State.pc_setPc (s : State) (v : Word) : (s.setPc v).pc = v := by
  simp [State.pc, State.setPc]

end Sys2Proof.Machine
end

