-- ==== Sys2Proof/Laws/Act.lean ====
section
/-! SUPPORT. The bodies of meanings, run on a state: what each building block answers, and how a body that answers ends
its instruction. -/

namespace Sys2Proof.Machine

variable {α β : Type}

/-! ## Building blocks -/

@[simp] theorem Act.run_pure (a : α) (s : State) : (pure a : Act α) s = .ok (a, s) := rfl

@[simp] theorem Act.run_bind (m : Act α) (f : α → Act β) (s : State) :
    (m >>= f) s = match m s with
      | .ok (a, t) => f a t
      | .error e => .error e := by
  show (StateT.bind m f) s = _
  unfold StateT.bind
  cases h : m s <;> simp [bind, Except.bind]

@[simp] theorem Act.run_look (f : State → α) (s : State) : (look f) s = .ok (f s, s) := rfl
@[simp] theorem Act.run_upd (f : State → State) (s : State) : (upd f) s = .ok ((), f s) := rfl
@[simp] theorem Act.run_readX (r : Reg) (s : State) : (readX r) s = .ok (s.getX r, s) := rfl
@[simp] theorem Act.run_writeX (r : Reg) (v : Word) (s : State) : (writeX r v) s = .ok ((), s.setX r v) := rfl
@[simp] theorem Act.run_stall (s : State) : (stall : Act α) s = .error (.wait s) := rfl
@[simp] theorem Act.run_park (s : State) : (park : Act α) s = .error (.park s) := rfl

@[simp] theorem Act.run_raise (c : BitVec 8) (a : Word) (s : State) :
    (raise c a : Act α) s = .error (.trap { cause := c, faddr := a } s) := rfl

@[simp] theorem Act.run_raiseTrap (t : Trap) (s : State) : (raiseTrap t : Act α) s = .error (.trap t s) := rfl

@[simp] theorem Act.run_trapIf (b : Bool) (c : BitVec 8) (a : Word) (s : State) :
    (trapIf b c a) s = if b then .error (.trap { cause := c, faddr := a } s) else .ok ((), s) := rfl

/-- The checks of R145 pass, or raise their first cause. -/
theorem Act.run_check (l : Legal) (s : State) :
    l.check s = match l.cause s with
      | some c => .error (.trap { cause := c } s)
      | none => .ok ((), s) := rfl

theorem Act.run_check_ok {l : Legal} {s : State} (h : l.cause s = none) : l.check s = .ok ((), s) := by
  simp [Act.run_check, h]

theorem Act.run_check_trap {l : Legal} {s : State} {c : BitVec 8} (h : l.cause s = some c) :
    l.check s = .error (.trap { cause := c } s) := by
  simp [Act.run_check, h]

/-- An instruction that has no walk to wait for goes on (R46). -/
theorem Act.run_walkerGate {vas : List Nat} {s : State} (h : s.lateWalk vas = none) : walkerGate vas s = .ok ((), s) := by
  simp [walkerGate, h]

theorem Act.run_checkData (source va pa n : Nat) (s : State) (h : s.anyBad pa n = false) :
    checkData source va pa n s = .ok ((), s) := by
  simp [checkData, h]

/-- What a bind answers comes from what its first part answers. -/
theorem Act.bind_ok {m : Act α} {f : α → Act β} {s u : State} {b : β} (h : (m >>= f) s = .ok (b, u)) :
    ∃ a t, m s = .ok (a, t) ∧ f a t = .ok (b, u) := by
  rw [Act.run_bind] at h
  cases hm : m s with
  | error e => rw [hm] at h; cases h
  | ok r => rw [hm] at h; exact ⟨r.1, r.2, rfl, h⟩

/-! ## The end of an instruction -/

theorem finish_ok {m : Act Unit} {s t : State} (h : m s = .ok ((), t)) : finish m s = .next t.retire := by
  simp [finish, h]

theorem finish_trap {m : Act Unit} {s u : State} {t : Trap} (h : m s = .error (.trap t u)) :
    finish m s = .next (u.take t) := by
  simp [finish, h, Stop.resolve]

theorem finish_wait {m : Act Unit} {s u : State} (h : m s = .error (.wait u)) : finish m s = .next u.sleepHere := by
  simp [finish, h, Stop.resolve]

theorem finish_park {m : Act Unit} {s u : State} (h : m s = .error (.park u)) : finish m s = .next u.fallAsleep := by
  simp [finish, h, Stop.resolve]

theorem finishAt_ok {m : Act Word} {s t : State} {pc : Word} (h : m s = .ok (pc, t)) :
    finishAt m s = .next (t.retireAt pc) := by
  simp [finishAt, h]

theorem finishAt_trap {m : Act Word} {s u : State} {t : Trap} (h : m s = .error (.trap t u)) :
    finishAt m s = .next (u.take t) := by
  simp [finishAt, h, Stop.resolve]

/-- Whatever a body does, its instruction answers a next state. -/
theorem finish_next (m : Act Unit) (s : State) : ∃ t, finish m s = .next t := by
  unfold finish; split <;> exact ⟨_, rfl⟩

theorem finishAt_next (m : Act Word) (s : State) : ∃ t, finishAt m s = .next t := by
  unfold finishAt; split <;> exact ⟨_, rfl⟩

/-- Without single stepping an instruction that completes is complete. -/
theorem State.retireAt_plain {s : State} (pc : Word) (h : s.stepping = false) : s.retireAt pc = s.complete pc := by
  simp [State.retireAt, h]

end Sys2Proof.Machine
end

