-- ==== Sys2Proof/Laws/Memory.lean ====
section
/-! SUPPORT. Memory keeps its canonical form under every operation, and reads what was written. -/

namespace Sys2Proof.Machine

/-! ## Bytes -/

theorem memWfFrom_mono {m : List Host.Cell} {lo hi : Nat} (h : memWfFrom hi m = true) (hl : lo ≤ hi) :
    memWfFrom lo m = true := by
  cases m with
  | nil => rfl
  | cons c m => simp [memWfFrom] at h ⊢; exact ⟨⟨by omega, h.1.2⟩, h.2⟩

theorem memWfFrom_tail {c : Host.Cell} {m : List Host.Cell} {lo : Nat} (h : memWfFrom lo (c :: m) = true) :
    memWfFrom (c.1 + 1) m = true := by
  simp [memWfFrom] at h; exact h.2

/-- Below the least listed address everything is unlisted. -/
theorem readByte_below {m : List Host.Cell} {lo a : Nat} (h : memWfFrom lo m = true) (ha : a < lo) :
    readByte m a = emptyByte := by
  cases m with
  | nil => rfl
  | cons c m =>
    obtain ⟨b, v⟩ := c
    simp [memWfFrom] at h
    simp [readByte, show a ≠ b by omega, show a < b by omega]

theorem memWfFrom_writeByte {m : List Host.Cell} {lo a : Nat} (v : Byte) (h : memWfFrom lo m = true) (hl : lo ≤ a) :
    memWfFrom lo (writeByte m a v) = true := by
  induction m generalizing lo with
  | nil => unfold writeByte; split <;> simp_all [memWfFrom]
  | cons c m ih =>
    obtain ⟨b, w⟩ := c
    have h' := h
    simp [memWfFrom] at h'
    unfold writeByte
    split
    · split
      · exact h
      · simp [memWfFrom, *]
    · split
      · rename_i hab
        split
        · exact memWfFrom_mono h'.2 (by omega)
        · simp [memWfFrom, *]
      · simp [memWfFrom, h'.1]
        exact ih h'.2 (by omega)

theorem readByte_writeByte {m : List Host.Cell} {lo : Nat} (h : memWfFrom lo m = true) (a : Nat) (v : Byte) (b : Nat) :
    readByte (writeByte m a v) b = if b = a then v else readByte m b := by
  induction m generalizing lo with
  | nil =>
    unfold writeByte
    by_cases hv : v = emptyByte
    · simp [hv, readByte]
    · simp only [hv, if_false, readByte]
      by_cases hb : b = a <;> simp [hb]
  | cons c m ih =>
    obtain ⟨k, w⟩ := c
    have ht := memWfFrom_tail h
    have hbelow : ∀ x, x < k + 1 → readByte m x = emptyByte := fun x hx => readByte_below ht hx
    unfold writeByte
    split
    · rename_i hak
      by_cases hv : v = emptyByte
      · by_cases hb : b = a
        · simp [hv, hb, readByte, show a ≠ k by omega, hak]
        · simp [hv, hb]
      · simp only [hv, if_false]
        by_cases hb : b = a
        · simp [hb, readByte]
        · by_cases hlt : b < a
          · simp [hb, readByte, hlt, show b ≠ k by omega, show b < k by omega]
          · simp [hb, readByte, hlt]
    · split
      · rename_i hak hak2
        subst hak2
        by_cases hv : v = emptyByte
        · by_cases hb : b = a
          · simp [hv, hb, hbelow a (by omega)]
          · by_cases hlt : b < a
            · simp [hv, hb, readByte, hlt, hbelow b (by omega)]
            · simp [hv, hb, readByte, hlt]
        · by_cases hb : b = a <;> simp [hv, hb, readByte]
      · rename_i h1 h2
        by_cases hb : b = k
        · simp [readByte, hb, show k ≠ a by omega]
        · by_cases hlt : b < k
          · simp [readByte, hb, hlt, show b ≠ a by omega]
          · simp [readByte, hb, hlt, ih ht]

/-! ## Runs of bytes -/

theorem wf_writeByte {m : List Host.Cell} (h : Memory.wf m = true) (a : Nat) (v : Byte) :
    Memory.wf (writeByte m a v) = true := memWfFrom_writeByte v h (Nat.zero_le a)

theorem wf_writeLE {m : List Host.Cell} (h : Memory.wf m = true) (a n v : Nat) : Memory.wf (writeLE m a n v) = true := by
  induction n generalizing m a v with
  | zero => exact h
  | succ n ih => exact ih (wf_writeByte h a _) _ _

theorem wf_writeBytes {m : List Host.Cell} (h : Memory.wf m = true) (a : Nat) (bs : List Byte) :
    Memory.wf (writeBytes m a bs) = true := by
  induction bs generalizing m a with
  | nil => exact h
  | cons b bs ih => exact ih (wf_writeByte h a b) _

theorem wf_writeCells {m : List Host.Cell} (h : Memory.wf m = true) (cs : List (Nat × Byte)) :
    Memory.wf (cs.foldl (fun m c => writeByte m c.1 c.2) m) = true := by
  induction cs generalizing m with
  | nil => exact h
  | cons c cs ih => exact ih (wf_writeByte h c.1 c.2)

theorem memWfFrom_filter {m : List Host.Cell} {lo : Nat} (f : Host.Cell → Bool) (h : memWfFrom lo m = true) :
    memWfFrom lo (m.filter f) = true := by
  induction m generalizing lo with
  | nil => rfl
  | cons c m ih =>
    obtain ⟨b, v⟩ := c
    have h' := h
    simp [memWfFrom] at h'
    rw [List.filter_cons]
    split
    · simp [memWfFrom, h'.1, ih h'.2]
    · exact memWfFrom_mono (ih h'.2) (by omega)

/-- Taking some of the listed bytes away keeps the form. -/
theorem wf_filter {m : List Host.Cell} (f : Host.Cell → Bool) (h : Memory.wf m = true) :
    Memory.wf (m.filter f) = true := memWfFrom_filter f h

theorem wf_reset : Memory.wf State.reset.mem = true := rfl

/-- Looking for a place first finds the same bytes from there on. -/
theorem readByte_seek {m : List Host.Cell} {lo : Nat} (h : memWfFrom lo m = true) {a b : Nat} (hab : a ≤ b) :
    readByte (seek a m) b = readByte m b := by
  induction m generalizing lo with
  | nil => rfl
  | cons c m ih =>
    obtain ⟨k, w⟩ := c
    have ht := memWfFrom_tail h
    unfold seek
    split
    · rename_i hk
      rw [ih ht]
      simp only at hk
      simp [readByte, show b ≠ k by omega, show ¬ b < k by omega]
    · rfl

theorem readBytes_eq {m : List Host.Cell} (h : Memory.wf m = true) (a n : Nat) :
    readBytes m a n = (List.range n).map fun i => readByte m (a + i) := by
  unfold readBytes
  exact List.map_congr_left fun i _ => readByte_seek h (Nat.le_add_right a i)

/-! ## Stores -/

/-- New checks leave the bytes alone. -/
theorem recheck_mem (s : State) (whole touched : List Nat) : (s.recheck whole touched).mem = s.mem := by
  have hlog : ∀ (l : List Nat) (t : State),
      (l.foldl (fun s k => if s.bad.contains k && regionOf (64 * k) == .hbm then s.logEvent 1 0 (64 * k) none 1 0 else s) t).mem
        = t.mem := by
    intro l
    induction l with
    | nil => intro t; rfl
    | cons k l ih =>
      intro t
      rw [List.foldl_cons, ih]
      split
      · unfold State.logEvent; dsimp only; split <;> rfl
      · rfl
  unfold State.recheck
  exact hlog _ _

theorem wf_store {s : State} (h : Memory.wf s.mem = true) (pa : Nat) (bs : List Byte) :
    Memory.wf (s.store pa bs).mem = true := by
  unfold State.store
  dsimp only
  split
  · exact wf_writeBytes h pa bs
  · rw [recheck_mem]; exact wf_writeBytes h pa bs

theorem wf_storeLE {s : State} (h : Memory.wf s.mem = true) (pa n v : Nat) : Memory.wf (s.storeLE pa n v).mem = true := by
  unfold State.storeLE
  split
  · exact wf_writeLE h pa n v
  · exact wf_store h pa _

theorem wf_storeCells {s : State} (h : Memory.wf s.mem = true) (cs : List (Nat × Byte)) :
    Memory.wf (s.storeCells cs).mem = true := by
  unfold State.storeCells
  dsimp only
  split
  · exact wf_writeCells h cs
  · rw [recheck_mem]; exact wf_writeCells h cs

end Sys2Proof.Machine
end

