-- ==== Sys2Proof/Laws/Traces.lean ====
section
/-! SUPPORT. What a successful translation and a read of memory leave: traces in caches and walkers, and nothing else. -/

namespace Sys2Proof.Machine

/-! ## Traces compose -/

theorem CoreTraces.refl (s : State) : CoreTraces s s := fun _ => rfl
theorem DieTraces.refl (s : State) : DieTraces s s := fun _ => rfl
theorem OnlyTraces.refl (s : State) : OnlyTraces s s := ⟨rfl, CoreTraces.refl s, DieTraces.refl s⟩

theorem CoreTraces.trans {s t u : State} (h : CoreTraces s t) (k : CoreTraces t u) : CoreTraces s u := by
  intro c
  rw [k c, h c]

theorem DieTraces.trans {s t u : State} (h : DieTraces s t) (k : DieTraces t u) : DieTraces s u := by
  intro d
  rw [k d, h d]

theorem OnlyTraces.trans {s t u : State} (h : OnlyTraces s t) (k : OnlyTraces t u) : OnlyTraces s u := by
  refine ⟨?_, h.2.1.trans k.2.1, h.2.2.trans k.2.2⟩
  rw [k.1, h.1]

/-- Memory, registers and everything that a program sees are as before. -/
theorem OnlyTraces.mem {s t : State} (h : OnlyTraces s t) : t.mem = s.mem := by rw [h.1]
theorem OnlyTraces.bad {s t : State} (h : OnlyTraces s t) : t.bad = s.bad := by rw [h.1]
theorem OnlyTraces.cur {s t : State} (h : OnlyTraces s t) : t.cur = s.cur := by rw [h.1]
theorem OnlyTraces.turn {s t : State} (h : OnlyTraces s t) : t.turn = s.turn := by rw [h.1]

theorem OnlyTraces.core {s t : State} (h : OnlyTraces s t) :
    t.core = { s.core with tlb := t.core.tlb, sdc := t.core.sdc, icache := t.core.icache, past := t.core.past,
                           lates := t.core.lates } := by
  have hc := h.2.1 t.cur.core
  have hs : s.cores[t.cur.core] = s.core := by simp only [h.cur, State.core]
  rw [hs] at hc
  exact hc

theorem OnlyTraces.hart {s t : State} (h : OnlyTraces s t) : t.hart = s.hart := by
  have hs : t.core.harts = s.core.harts := by rw [h.core]
  simp only [State.hart, h.cur, hs]

theorem OnlyTraces.th {s t : State} (h : OnlyTraces s t) : t.th = s.th := by
  have hs : t.core.harts = s.core.harts := by rw [h.core]
  have hm : t.core.stream = s.core.stream := by rw [h.core]
  simp only [State.th, Core.th, h.cur, hs, hm]

theorem OnlyTraces.pc {s t : State} (h : OnlyTraces s t) : t.pc = s.pc := by
  unfold State.pc
  rw [h.th]

theorem OnlyTraces.getX {s t : State} (h : OnlyTraces s t) (r : Reg) : t.getX r = s.getX r := by
  unfold State.getX
  rw [h.th]

theorem OnlyTraces.anyBad {s t : State} (h : OnlyTraces s t) (pa n : Nat) : t.anyBad pa n = s.anyBad pa n := by
  unfold State.anyBad
  rw [h.bad]

/-! ## Updates that are traces -/

theorem onlyTraces_modDie (s : State) (d : Fin 4) (f : Die → Die)
    (hf : ∀ x, f x = { x with ptrs := (f x).ptrs, walks := (f x).walks, walkWait := (f x).walkWait,
                              dcache := (f x).dcache }) :
    OnlyTraces s (s.modDie d f) := by
  refine ⟨rfl, CoreTraces.refl s, fun e => ?_⟩
  by_cases h : d.val = e.val
  · have h : d = e := Fin.ext h
    subst h
    simp only [State.modDie, Fin.getElem_fin, Vector.getElem_set_self]
    exact hf _
  · simp [State.modDie, h]

theorem onlyTraces_free (s : State) (n : Nat) : OnlyTraces s { s with free := n } :=
  ⟨rfl, fun _ => rfl, fun _ => rfl⟩

theorem onlyTraces_requests (s : State) (l : List PortRequest) : OnlyTraces s { s with requests := l } :=
  ⟨rfl, fun _ => rfl, fun _ => rfl⟩

/-! ## What passes on the way to memory (R33, R49) -/

theorem touchLine_frame (d : Die) (use : CacheUse) (k : Nat) : d.touchLine use k = { d with dcache := (d.touchLine use k).dcache } := by
  unfold Die.touchLine
  split
  · rfl
  · split <;> rfl

/-- Lines that pass die caches leave the cores as they are. -/
theorem onlyTraces_touchHbm (s : State) (use : CacheUse) (pa n : Nat) :
    OnlyTraces s (s.touchHbm use pa n) ∧ (s.touchHbm use pa n).cores = s.cores := by
  have hfold : ∀ (l : List Nat) (t : State),
      OnlyTraces t (l.foldl (fun s k => s.modDie (dieIx (64 * k / 0x2000000000)) (·.touchLine use k)) t) ∧
        (l.foldl (fun s k => s.modDie (dieIx (64 * k / 0x2000000000)) (·.touchLine use k)) t).cores = t.cores := by
    intro l
    induction l with
    | nil => intro t; exact ⟨OnlyTraces.refl t, rfl⟩
    | cons k l ih =>
      intro t
      simp only [List.foldl_cons]
      obtain ⟨h1, h2⟩ := ih (t.modDie (dieIx (64 * k / 0x2000000000)) (·.touchLine use k))
      refine ⟨(onlyTraces_modDie t _ _ fun x => ?_).trans h1, h2⟩
      rw [touchLine_frame]
  unfold State.touchHbm
  split
  · exact ⟨OnlyTraces.refl s, rfl⟩
  · exact hfold _ s

/-- A read that passes on its way to memory leaves traces only, and no core changes. -/
theorem onlyTraces_read (s : State) (use : CacheUse) (pa n : Nat) :
    OnlyTraces s (s.traffic use .read pa n []) ∧ (s.traffic use .read pa n []).cores = s.cores := by
  unfold State.traffic
  split
  · exact onlyTraces_touchHbm ..
  · exact ⟨onlyTraces_requests s _, rfl⟩
  · exact ⟨OnlyTraces.refl s, rfl⟩

/-! ## Translation (R40) -/

theorem addWalk_frame (d : Die) (w : WalkRun) : ∃ ws ask, d.addWalk w = { d with walks := ws, walkWait := ask } :=
  ⟨_, _, rfl⟩

/-- A walk leaves traces in the dies, and no core changes. -/
theorem onlyTraces_walked (s : State) (a : Agent) (va : Nat) (w : Walk × List (Nat × Nat)) (r : Walk) :
    OnlyTraces s (s.walked a va w r) ∧ (s.walked a va w r).cores = s.cores := by
  have hfold : ∀ (l : List (Nat × Nat)) (t : State),
      OnlyTraces t (l.foldl (fun s p => s.touchHbm .high (p.2 + 8 * tableIndex (p.1 - 1) va) 8) t) ∧
        (l.foldl (fun s p => s.touchHbm .high (p.2 + 8 * tableIndex (p.1 - 1) va) 8) t).cores = t.cores := by
    intro l
    induction l with
    | nil => intro t; exact ⟨OnlyTraces.refl t, rfl⟩
    | cons k l ih =>
      intro t
      simp only [List.foldl_cons]
      have ht := onlyTraces_touchHbm t .high (k.2 + 8 * tableIndex (k.1 - 1) va) 8
      obtain ⟨h1, h2⟩ := ih (t.touchHbm .high (k.2 + 8 * tableIndex (k.1 - 1) va) 8)
      exact ⟨ht.1.trans h1, h2.trans ht.2⟩
  unfold State.walked
  dsimp only
  refine ⟨(onlyTraces_modDie s _ _ fun d => ?_).trans (hfold _ _).1, (hfold _ _).2⟩
  cases a.core with
  | none => rfl
  | some c =>
    dsimp only
    obtain ⟨ws, ask, hd⟩ := addWalk_frame d
      { ctxid := rootCtxid a.root, page := va / 65536, until_ := s.time + Config.walkTime s.time, core := c.val, result := r }
    rw [hd]

/-- A walk of its own leaves traces, and no core changes. -/
theorem walkFor_traces (s : State) (a : Agent) (va : Nat) :
    OnlyTraces s (s.walkFor a va).2 ∧ (s.walkFor a va).2.cores = s.cores := by
  have hw : ∀ (t : State) (w : Walk × List (Nat × Nat)) (r : Walk), OnlyTraces s t → t.cores = s.cores →
      OnlyTraces s (if t.tlbHit a va then t else t.walked a va w r) ∧
        (if t.tlbHit a va then t else t.walked a va w r).cores = s.cores := by
    intro t w r h1 h2
    split
    · exact ⟨h1, h2⟩
    · exact ⟨h1.trans (onlyTraces_walked t a va w r).1, (onlyTraces_walked t a va w r).2.trans h2⟩
  unfold State.walkFor
  dsimp only
  generalize List.filter _ _ = others
  by_cases ho : others = []
  · rw [if_pos ho]; exact hw s _ _ (OnlyTraces.refl s) rfl
  · rw [if_neg ho]; exact hw _ _ _ (onlyTraces_free s _) rfl

/-- A resolution leaves traces, and no core changes. -/
theorem resolve_traces (s : State) (a : Agent) (va : Nat) :
    OnlyTraces s (s.resolve a va).2 ∧ (s.resolve a va).2.cores = s.cores := by
  unfold State.resolve
  split
  · exact walkFor_traces s a va
  · split
    · exact ⟨OnlyTraces.refl s, rfl⟩
    · dsimp only
      exact ⟨onlyTraces_modDie s _ _ fun _ => rfl, rfl⟩

theorem onlyTraces_resolve (s : State) (a : Agent) (va : Nat) : OnlyTraces s (s.resolve a va).2 := (resolve_traces s a va).1

/-- An update of a core's TLB alone. -/
theorem tlbOnly_modCoreAt (u : State) (c : Fin 192) (f : Core → Core) (hf : ∀ y, f y = { y with tlb := (f y).tlb }) :
    OnlyTraces u (u.modCoreAt c f) ∧
      ∀ e : Fin 192, (u.modCoreAt c f).cores[e] = { u.cores[e] with tlb := ((u.modCoreAt c f).cores[e]).tlb } := by
  have hk : ∀ e : Fin 192, (u.modCoreAt c f).cores[e] = { u.cores[e] with tlb := ((u.modCoreAt c f).cores[e]).tlb } := by
    intro e
    by_cases hce : c.val = e.val
    · have hce : c = e := Fin.ext hce
      subst hce
      simp only [State.modCoreAt, Fin.getElem_fin, Vector.getElem_set_self]
      exact hf _
    · simp only [State.modCoreAt, Fin.getElem_fin, Vector.getElem_set_ne _ _ hce]
  refine ⟨⟨rfl, fun e => ?_, DieTraces.refl _⟩, hk⟩
  rw [hk e]

/-- The current core's caches stay: a resolution changes no core. -/
theorem cores_resolve (s : State) (a : Agent) (va : Nat) : (s.resolve a va).2.cores = s.cores := (resolve_traces s a va).2

/-- A translation that answers an address changes the TLB of the agent's core at most, and leaves traces in its die. -/
theorem translate_cores {s t : State} {a : Agent} {acc : Acc} {va : Nat} {x : Xlat}
    (h : s.translate a acc va = .ok x t) :
    OnlyTraces s t ∧ ∀ c : Fin 192, t.cores[c] = { s.cores[c] with tlb := (t.cores[c]).tlb } := by
  have hr := onlyTraces_resolve s a va
  have hc := cores_resolve s a va
  unfold State.translate at h
  dsimp only at h
  split at h
  · cases h
  split at h
  · cases h
  split at h
  case h_4 =>
    split at h
    · cases h
    split at h
    · cases h
    split at h
    · cases h
    split at h
    · cases h
    split at h
    · cases h
    cases h
    split
    · exact ⟨hr, fun c => by simp [hc]⟩
    · rename_i c _
      have hm := tlbOnly_modCoreAt (s.resolve a va).2 c
      refine ⟨hr.trans (hm _ ?_).1, fun e => ?_⟩
      · intro y; split <;> rfl
      · rw [(hm _ ?_).2 e]
        · simp [hc]
        · intro y; split <;> rfl
  all_goals cases h

/-- A translation that answers an address leaves only traces. -/
theorem onlyTraces_translate {s t : State} {a : Agent} {acc : Acc} {va : Nat} {x : Xlat}
    (h : s.translate a acc va = .ok x t) : OnlyTraces s t := (translate_cores h).1

/-- The same for the party that runs. -/
theorem onlyTraces_xlat {s t : State} {acc : Acc} {va : Nat} {x : Xlat} (h : xlat acc va s = .ok (x, t)) :
    OnlyTraces s t := by
  unfold xlat at h
  split at h
  · rename_i y u hu
    cases h
    exact onlyTraces_translate hu
  all_goals cases h

/-- A reach that answers is a translation of the party that runs. -/
theorem reach_some {s : State} {acc : Acc} {va : Nat} {x : Xlat} (h : s.reach acc va = some x) :
    ∃ t, xlat acc va s = .ok (x, t) ∧ OnlyTraces s t := by
  unfold State.reach at h
  split at h
  · rename_i y t hy
    cases h
    exact ⟨t, by simp [xlat, hy], onlyTraces_translate hy⟩
  · cases h

end Sys2Proof.Machine
end

