-- ==== Sys2Proof/Laws/Access.lean ====
section
/-! SUPPORT. Reads, writes and fetches that pass the checks of R40. -/

namespace Sys2Proof.Machine

theorem onlyTraces_modCore (s : State) (f : Core → Core)
    (hf : ∀ x, f x = { x with tlb := (f x).tlb, sdc := (f x).sdc, icache := (f x).icache, past := (f x).past,
                              lates := (f x).lates }) :
    OnlyTraces s (s.modCore f) := by
  refine ⟨rfl, fun e => ?_, DieTraces.refl s⟩
  by_cases h : s.cur.core.val = e.val
  · have h : s.cur.core = e := Fin.ext h
    subst h
    simp only [State.modCore, State.setCore, State.core, Fin.getElem_fin, Vector.getElem_set_self]
    exact hf _
  · simp [State.modCore, State.setCore, h]

/-- An access that passes leaves its place in the local order, and nothing else (R191). -/
theorem onlyTraces_pass (s : State) (x : Touch) (f : PastStore → Bool) : OnlyTraces s (s.pass x f) := by
  unfold State.pass
  refine OnlyTraces.trans (t := s.passLoads x) ?_ ?_
  · unfold State.passLoads
    split
    · exact OnlyTraces.refl s
    · refine onlyTraces_modCore s _ fun c => ?_
      unfold Core.endLoads
      split <;> rfl
  · unfold State.passStores
    split
    · exact OnlyTraces.refl _
    · refine onlyTraces_modCore _ _ fun c => ?_
      unfold Core.reorder
      split <;> rfl

/-! ## The store path: memory -/

theorem logEvent_mem (s : State) (k c a : Nat) (co : Option Nat) (ha au : Nat) : (s.logEvent k c a co ha au).mem = s.mem := by
  unfold State.logEvent; dsimp only; split <;> split <;> rfl

theorem logEvent_cores (s : State) (k c a : Nat) (co : Option Nat) (ha au : Nat) :
    (s.logEvent k c a co ha au).cores = s.cores := by
  unfold State.logEvent; dsimp only; split <;> split <;> rfl

theorem logEvent_cur (s : State) (k c a : Nat) (co : Option Nat) (ha au : Nat) : (s.logEvent k c a co ha au).cur = s.cur := by
  unfold State.logEvent; dsimp only; split <;> split <;> rfl

theorem recheck_frame (s : State) (whole touched : List Nat) :
    (s.recheck whole touched).cores = s.cores ∧ (s.recheck whole touched).cur = s.cur := by
  have hfold : ∀ (l : List Nat) (t : State),
      let u := l.foldl (fun s k => if s.bad.contains k && regionOf (64 * k) == .hbm then s.logEvent 1 0 (64 * k) none 1 0 else s) t
      u.cores = t.cores ∧ u.cur = t.cur := by
    intro l
    induction l with
    | nil => intro t; exact ⟨rfl, rfl⟩
    | cons k l ih =>
      intro t
      simp only [List.foldl_cons]
      obtain ⟨h1, h2⟩ :=
        ih (if t.bad.contains k && regionOf (64 * k) == .hbm then t.logEvent 1 0 (64 * k) none 1 0 else t)
      rw [h1, h2]
      split
      · exact ⟨logEvent_cores .., logEvent_cur ..⟩
      · exact ⟨rfl, rfl⟩
  unfold State.recheck
  exact hfold _ _

/-- A store changes no core and not who runs; its bytes are those of the memory operation. -/
theorem storeLE_frame (s : State) (pa n v : Nat) :
    (s.storeLE pa n v).cores = s.cores ∧ (s.storeLE pa n v).cur = s.cur ∧
      (s.storeLE pa n v).mem = (if s.bad = [] then writeLE s.mem pa n v else writeBytes s.mem pa (bytesOfLe n v)) := by
  unfold State.storeLE
  split
  · exact ⟨rfl, rfl, rfl⟩
  · unfold State.store
    rename_i hb
    dsimp only
    rw [if_neg hb]
    exact ⟨(recheck_frame _ _ _).1, (recheck_frame _ _ _).2, recheck_mem _ _ _⟩

@[simp] theorem sdcWrite_mem (s : State) (pa : Nat) (bs : List Byte) : (s.sdcWrite pa bs).mem = s.mem := rfl

theorem notePort_mem (s : State) (pa : Nat) : (s.notePort pa).mem = s.mem := by
  unfold State.notePort
  dsimp only
  split
  · split <;> split <;> rfl
  · rfl

theorem touchHbm_mem (s : State) (use : CacheUse) (pa n : Nat) : (s.touchHbm use pa n).mem = s.mem :=
  (onlyTraces_touchHbm s use pa n).1.mem

theorem portRequest_mem (s : State) (k : ReqKind) (p pa n : Nat) (d : List Byte) :
    (s.portRequest k p pa n d).mem = s.mem := by
  unfold State.portRequest
  dsimp only
  split
  · unfold State.sendPoisoned; dsimp only; rw [logEvent_mem]; rfl
  · rfl

/-- What passes on the way to memory changes none of its bytes. -/
theorem traffic_mem (s : State) (use : CacheUse) (k : ReqKind) (pa n : Nat) (d : List Byte) :
    (s.traffic use k pa n d).mem = s.mem := by
  unfold State.traffic
  split
  · exact touchHbm_mem ..
  · exact portRequest_mem ..
  · rfl

theorem podRelease_mem (s : State) (own : Option Nat) : (s.podRelease own).mem = s.mem := by
  unfold State.podRelease
  dsimp only
  split <;> rfl

/-! ## Loads -/

/-- Without a line of the sector a cache gives memory's bytes, and then holds the line. -/
theorem pickCached_miss {s : State} {ls : List Line} {pa n : Nat} (h : (ls.all fun l => l.sector != pa / 64) = true) :
    pickCached s ls pa n =
      (readBytes s.mem pa n, ({ sector := pa / 64, bytes := sectorBytes s.mem (pa / 64) } :: ls).take 1024,
        s.traffic .high .read (64 * (pa / 64)) 64 []) := by
  have : ls.find? (·.sector == pa / 64) = none := by
    rw [List.find?_eq_none]
    intro l hl
    have := List.all_eq_true.mp h l hl
    simpa using this
  simp [pickCached, this]

theorem unorderedPast_eq {s t : State} (hp : t.core.past = s.core.past) (hc : t.cur = s.cur) (r : Role) (pa n : Nat) :
    t.unorderedPast r pa n = s.unorderedPast r pa n := by
  unfold State.unorderedPast State.ownPast
  rw [hp, hc]

/-- R191: what a load makes of the memory's bytes is what it may find, and only traces remain. -/
theorem pastRead_found (s : State) (r : Role) (pa n : Nat) :
    ∃ v t, s.pastRead r pa (readBytes s.mem pa n) = (v, t) ∧ s.mayFind r pa n (leOfBytes v) ∧ OnlyTraces s t := by
  have hlen : (readBytes s.mem pa n).length = n := by simp [readBytes]
  unfold State.pastRead
  rw [hlen]
  split
  · exact ⟨_, _, rfl, ⟨0, rfl⟩, onlyTraces_pass s _ _⟩
  · exact ⟨_, _, rfl, ⟨_, rfl⟩, (onlyTraces_free s _).trans (onlyTraces_pass _ _ _)⟩

/-- A read of data past the checks. -/
theorem readAt_ok {s : State} {src va n : Nat} {x : Xlat} {r : Role} (hs : r.scalar = true) (hr : regionOf x.pa ≠ .regs)
    (hb : s.anyBad x.pa n = false) (hc : s.notCached x = true) :
    ∃ v t, readAt src va x n r s = .ok (v, t) ∧ s.mayFind r x.pa n v ∧ OnlyTraces s t := by
  unfold readAt
  rw [if_neg hr]
  simp only [Act.run_bind, Act.run_checkData _ _ _ _ s hb, hs]
  cases hi : x.idem with
  | false =>
    exact ⟨_, _, rfl, ⟨0, rfl⟩, (onlyTraces_read s .none x.pa n).1.trans (onlyTraces_pass _ _ _)⟩
  | true =>
    have hm : (s.core.sdc.all fun l => l.sector != x.pa / 64) = true := by
      simpa [State.notCached, hi] using hc
    simp only [Bool.not_true, Bool.false_eq_true, if_false, if_true, pickCached_miss hm]
    have ht := onlyTraces_read s .high (64 * (x.pa / 64)) 64
    have hcore : (s.traffic .high .read (64 * (x.pa / 64)) 64 []).core = s.core := by simp only [State.core, ht.2, ht.1.cur]
    generalize hf : (s.traffic .high .read (64 * (x.pa / 64)) 64 []).modCore (fun c => { c with
      sdc := ({ sector := x.pa / 64, bytes := sectorBytes s.mem (x.pa / 64) } :: s.core.sdc).take 1024 }) = f
    have hft : OnlyTraces (s.traffic .high .read (64 * (x.pa / 64)) 64 []) f := by
      rw [← hf]; exact onlyTraces_modCore _ _ fun _ => rfl
    have hfp : f.core.past = s.core.past := by
      rw [← hf]; simp [hcore]
    obtain ⟨v, u, hv, hk, hu⟩ := pastRead_found f r x.pa n
    rw [hft.mem, ht.1.mem] at hv
    refine ⟨_, _, by rw [hv], ?_, (ht.1.trans hft).trans hu⟩
    obtain ⟨k, hk⟩ := hk
    refine ⟨k, ?_⟩
    rw [hk, unorderedPast_eq hfp (hft.cur.trans ht.1.cur), hft.mem, ht.1.mem]

/-- A translation of the party that runs leaves its data cache and its past stores as they are. -/
theorem xlat_core {s t : State} {acc : Acc} {va : Nat} {x : Xlat} (h : xlat acc va s = .ok (x, t)) :
    t.core = { s.core with tlb := t.core.tlb } := by
  have hst := onlyTraces_xlat h
  unfold xlat at h
  split at h
  · rename_i y u hu
    cases h
    have hk := (translate_cores hu).2 t.cur.core
    have hs : s.cores[t.cur.core] = s.core := by simp only [hst.cur, State.core]
    rw [hs] at hk
    exact hk
  all_goals cases h

/-- R168: a scalar load of a party that reaches good data. -/
theorem loadScalarAt_ok {s : State} {va n : Nat} {oc : BitVec 4} {x : Xlat}
    (h : s.reach (scalarAcc s .load n) va = some x) (hw : s.lateWalk [va] = none)
    (hg : s.goodData x.pa n = true) (hc : s.notCached x = true) :
    ∃ v t, loadScalarAt va n oc s = .ok ((x, v), t) ∧ s.mayFind { oc := oc } x.pa n v ∧ OnlyTraces s t := by
  obtain ⟨t, ht, hst⟩ := reach_some h
  simp only [State.goodData, Bool.and_eq_true, bne_iff_ne, Bool.not_eq_true'] at hg
  have hk := xlat_core ht
  have hc' : t.notCached x = true := by
    have hs : t.core.sdc = s.core.sdc := by rw [hk]
    simpa [State.notCached, hs] using hc
  obtain ⟨v, u, hu, hv, htu⟩ := readAt_ok (src := s.source 1) (va := va) (r := { oc := oc }) rfl hg.1
    (by rw [hst.anyBad]; exact hg.2) hc'
  refine ⟨v, u, ?_, ?_, hst.trans htu⟩
  · unfold loadScalarAt
    rw [Act.run_bind, Act.run_look]
    simp only []
    rw [Act.run_bind, Act.run_walkerGate hw]
    simp only []
    rw [Act.run_bind]
    have : xlat { kind := .load, source := s.source 1, device := true, align := n } va s = .ok (x, t) := ht
    rw [this]
    simp only []
    rw [Act.run_bind, hu]
    rfl
  · obtain ⟨k, hv⟩ := hv
    refine ⟨k, ?_⟩
    have hp : t.core.past = s.core.past := by rw [hk]
    rw [hv, unorderedPast_eq hp hst.cur, hst.mem]

/-! ## Stores -/

/-- A store in program order: the memory afterwards. -/
theorem storeNext_mem (s : State) (oc : BitVec 4) (idem : Bool) (pa n v : Nat) :
    (s.storeNext { oc := oc } idem pa n v).mem =
      (if s.bad = [] then writeLE s.mem pa n v else writeBytes s.mem pa (bytesOfLe n v)) := by
  have hp := onlyTraces_pass s (Role.touch { oc := oc } pa n (!idem)) fun _ => false
  have hm := (storeLE_frame (s.pass (Role.touch { oc := oc } pa n (!idem))) pa n v).2.2
  rw [hp.bad, hp.mem] at hm
  unfold State.storeNext State.putLE State.remember
  dsimp only
  split
  · rw [State.modCore_mem, traffic_mem, notePort_mem, sdcWrite_mem]; exact hm
  · rw [traffic_mem, notePort_mem, sdcWrite_mem]; exact hm

/-- R168: a scalar store of a party that reaches memory, and that no earlier store is unordered with: the memory
afterwards. -/
theorem storeScalar_mem {s : State} {va n v : Nat} {oc : BitVec 4} {x : Xlat}
    (h : s.reach (scalarAcc s .store n) va = some x) (hw : s.lateWalk [va] = none) (hr : regionOf x.pa ≠ .regs)
    (hp : s.unorderedPast { oc := oc } x.pa n = []) :
    ∃ u, storeScalar va n v oc s = .ok ((), u) ∧
      u.mem = (if s.bad = [] then writeLE s.mem x.pa n v else writeBytes s.mem x.pa (bytesOfLe n v)) := by
  obtain ⟨t, ht, hst⟩ := reach_some h
  have hk := xlat_core ht
  have hp' : t.unorderedPast { oc := oc } x.pa n = [] := by
    rw [unorderedPast_eq (by rw [hk]) hst.cur]; exact hp
  have hps : t.partyStore { oc := oc } x n v = t.storeNext { oc := oc } x.idem x.pa n v := by
    unfold State.partyStore
    have : (if x.idem = true then t.unorderedPast { oc := oc } x.pa n else []) = [] := by split <;> simp [hp']
    rw [this]
  refine ⟨t.storeNext { oc := oc } x.idem x.pa n v, ?_, ?_⟩
  · unfold storeScalar
    rw [Act.run_bind, Act.run_look]
    simp only []
    rw [Act.run_bind, Act.run_walkerGate hw]
    simp only []
    rw [Act.run_bind]
    have : xlat { kind := .store, source := s.source 2, device := true, align := n } va s = .ok (x, t) := ht
    rw [this]
    simp [writeAt, hr, hps]
  · rw [storeNext_mem, hst.bad, hst.mem]

/-! ## Fetch (R138) -/

/-- A fetch that reaches a good word, with no older line in the instruction cache, answers the word in memory and leaves
traces only. -/
theorem fetchWord_ok {s : State} {x : Xlat}
    (h : s.reach { kind := .fetch, source := s.source 0, align := 4 } s.pc.toNat = some x)
    (hw : s.lateWalk [s.pc.toNat] = none) (hb : s.anyBad x.pa 4 = false)
    (hi : (s.core.icache.all fun l => l.sector != x.pa / 64) = true) :
    ∃ t, fetchWord s.pc s = .ok (BitVec.ofNat 32 (readLE s.mem x.pa 4), t) ∧ OnlyTraces s t := by
  obtain ⟨t, ht, hst⟩ := reach_some h
  have hi' : (t.core.icache.all fun l => l.sector != x.pa / 64) = true := by
    have hk : t.core.icache = s.core.icache := by rw [xlat_core ht]
    rw [hk]; exact hi
  have hr := onlyTraces_read t .high (64 * (x.pa / 64)) 64
  refine ⟨_, ?_, (hst.trans hr.1).trans (onlyTraces_modCore _ (fun c => { c with
    icache := ({ sector := x.pa / 64, bytes := sectorBytes t.mem (x.pa / 64) } :: t.core.icache).take 1024 }) fun _ => rfl)⟩
  unfold fetchWord
  rw [Act.run_bind, Act.run_look]
  simp only []
  rw [Act.run_bind, Act.run_walkerGate hw]
  simp only []
  rw [Act.run_bind, ht]
  simp only []
  rw [Act.run_bind, Act.run_checkData _ _ _ _ t (by rw [hst.anyBad]; exact hb)]
  simp only [pickCached_miss hi', readLE, hst.mem]

end Sys2Proof.Machine
end

