-- ==== Sys2Proof/Laws/Form.lean ====
section
/-! SUPPORT. Bodies of meanings keep the canonical form of memory: one lemma per building block, so that a body's own
lemma follows its text. -/

namespace Sys2Proof.Machine

variable {α β : Type}

/-- The state in which a body stops. -/
def Stop.state : Stop → State
  | .trap _ s => s
  | .wait s => s
  | .park s => s

/-- A body keeps the form of memory, however it ends. -/
def KeepsForm (m : Act α) : Prop :=
  ∀ s : State, Memory.wf s.mem = true →
    match m s with
    | .ok r => Memory.wf r.2.mem = true
    | .error e => Memory.wf e.state.mem = true

/-! ## Building blocks -/

theorem KeepsForm.pure (a : α) : KeepsForm (Pure.pure a : Act α) := fun _ h => h

theorem KeepsForm.bind {m : Act α} {f : α → Act β} (hm : KeepsForm m) (hf : ∀ a, KeepsForm (f a)) :
    KeepsForm (m >>= f) := by
  intro s hs
  rw [Act.run_bind]
  have := hm s hs
  cases h : m s with
  | error e => rw [h] at this; exact this
  | ok r => rw [h] at this; exact hf r.1 r.2 this

theorem KeepsForm.look (f : State → α) : KeepsForm (look f) := fun _ h => h
theorem KeepsForm.readX (r : Reg) : KeepsForm (readX r) := fun _ h => h
theorem KeepsForm.writeX (r : Reg) (v : Word) : KeepsForm (writeX r v) := fun _ h => h
theorem KeepsForm.stall : KeepsForm (stall : Act α) := fun _ h => h
theorem KeepsForm.park : KeepsForm (park : Act α) := fun _ h => h
theorem KeepsForm.raise (c : BitVec 8) (a : Word) : KeepsForm (raise c a : Act α) := fun _ h => h
theorem KeepsForm.raiseTrap (t : Trap) : KeepsForm (raiseTrap t : Act α) := fun _ h => h

theorem KeepsForm.upd {f : State → State} (hf : ∀ s, Memory.wf s.mem = true → Memory.wf (f s).mem = true) :
    KeepsForm (upd f) := fun s h => hf s h

theorem KeepsForm.trapIf (b : Bool) (c : BitVec 8) (a : Word) : KeepsForm (trapIf b c a) := by
  intro s h
  rw [Act.run_trapIf]
  cases b <;> exact h

theorem KeepsForm.check (l : Legal) : KeepsForm l.check := by
  intro s h
  rw [Act.run_check]
  cases l.cause s <;> exact h

theorem KeepsForm.ite {c : Prop} [Decidable c] {m k : Act α} (hm : KeepsForm m) (hk : KeepsForm k) :
    KeepsForm (if c then m else k) := by
  split <;> assumption

/-! ## Memory (R40) -/

theorem wf_ringProduce {s t : State} (h : Memory.wf s.mem = true) {tr : Nat → Bool → Except Nat Nat} {d : Nat}
    {r : Bool → List Byte} (ht : s.ringProduce tr d r = .written t) : Memory.wf t.mem = true := by
  unfold State.ringProduce at ht
  dsimp only at ht
  repeat' split at ht
  all_goals first
    | (cases ht
       rw [traffic_mem]
       refine wf_storeLE (wf_store ?_ _ _) _ _ _
       rw [traffic_mem, traffic_mem, traffic_mem]
       exact h)
    | cases ht

theorem wf_postRequest {s : State} (h : Memory.wf s.mem = true) (id : Nat) : Memory.wf (s.postRequest id).mem = true := by
  unfold State.postRequest
  split
  · exact h
  dsimp only
  split
  · exact h
  split
  · exact h
  split
  · rename_i t ht; exact wf_ringProduce (t := t) h ht
  · exact h
  · split
    · exact h
    · rw [logEvent_mem]; exact h

theorem wf_pageIn {s : State} (h : Memory.wf s.mem = true) (a : Agent) (va level : Nat) (e : Word) (epa : Nat) :
    Memory.wf (s.pageIn a va level e epa).mem = true := by
  unfold State.pageIn
  split
  · exact h
  · refine wf_postRequest (show Memory.wf (State.mem _) = true from ?_) _
    exact (touchHbm_mem (s.storeLE epa 8 (e.toNat + 1024)) .high epa 8).symm ▸ wf_storeLE h _ _ _

theorem resolve_mem (s : State) (a : Agent) (va : Nat) : (s.resolve a va).2.mem = s.mem :=
  (onlyTraces_resolve s a va).mem

/-- The state that a translation leaves. -/
def XlatResult.state : XlatResult → State
  | .ok _ t => t
  | .fault _ t => t

theorem unitFault_mem {s t : State} {a : Agent} {pa k : Nat} (h : s.unitFault a pa = some (k, t)) : t.mem = s.mem := by
  unfold State.unitFault at h
  split at h
  · cases h
  · dsimp only at h
    split at h
    · split at h
      · cases h; rfl
      · cases h
    · split at h
      · cases h; rfl
      · cases h
    · cases h

/-- Whatever a translation answers, the form of memory stays. -/
theorem wf_translate {s : State} (h : Memory.wf s.mem = true) (a : Agent) (acc : Acc) (va : Nat) :
    Memory.wf (s.translate a acc va).state.mem = true := by
  have hr : Memory.wf (s.resolve a va).2.mem = true := by rw [resolve_mem]; exact h
  unfold State.translate
  dsimp only
  split
  · exact h
  split
  · exact h
  split
  · exact hr
  · simp only [XlatResult.state, logEvent_mem]; exact hr
  · simp only [XlatResult.state, logEvent_mem]; exact hr
  · split
    · exact hr
    · split
      · exact hr
      · split
        · exact wf_pageIn hr _ _ _ _ _
        · split
          · exact hr
          · split
            · rename_i f hf
              simp only [XlatResult.state]
              rw [unitFault_mem (k := f.1) (t := f.2) hf]; exact hr
            · split
              · exact hr
              · simp only [XlatResult.state, State.modCoreAt_mem]; exact hr

theorem KeepsForm.xlat (acc : Acc) (va : Nat) : KeepsForm (xlat acc va) := by
  intro s h
  have := wf_translate h s.agent acc va
  unfold Machine.xlat
  cases hx : s.translate s.agent acc va <;> rw [hx] at this <;> exact this

theorem KeepsForm.checkData (source va pa n : Nat) : KeepsForm (checkData source va pa n) := by
  intro s h
  unfold Machine.checkData
  cases hb : s.anyBad pa n
  · simpa using h
  · simpa [Stop.state, State.logCheck, logEvent_mem] using h

theorem wf_notePort {s : State} (h : Memory.wf s.mem = true) (pa : Nat) : Memory.wf (s.notePort pa).mem = true := by
  rw [notePort_mem]; exact h

theorem KeepsForm.walkerGate (vas : List Nat) : KeepsForm (walkerGate vas) := by
  intro s h
  unfold Machine.walkerGate
  cases s.lateWalk vas <;> exact h

theorem wf_traffic {s : State} (h : Memory.wf s.mem = true) (use : CacheUse) (k : ReqKind) (pa n : Nat) (d : List Byte) :
    Memory.wf (s.traffic use k pa n d).mem = true := by
  rw [traffic_mem]; exact h

theorem reachUnit_mem (s : State) (p : Nat) : (s.reachUnit p).mem = s.mem := by
  unfold State.reachUnit; split <;> rfl

theorem remember_mem (s t : State) (idem : Bool) (p : PastStore) : (s.remember idem p t).mem = t.mem := by
  unfold State.remember; split <;> rfl

theorem atomicTraffic_mem (s : State) (k : AtomKind) (pa n old new : Nat) : (s.atomicTraffic k pa n old new).mem = s.mem := by
  unfold State.atomicTraffic
  split <;> simp only [traffic_mem]

theorem KeepsForm.atomicAt (source va : Nat) (x : Xlat) (n : Nat) (r : Role) (k : AtomKind) (f : Nat → Option Nat) :
    KeepsForm (atomicAt source va x n r k f) := by
  refine .bind (.checkData _ _ _ _) fun _ => .bind (.upd fun s h => ?_) fun _ => .bind (.look _) fun old => ?_
  · rw [(onlyTraces_pass _ _ _).mem, reachUnit_mem]; exact h
  split
  · exact .bind (.upd fun s h => by rw [atomicTraffic_mem]; exact h) fun _ => .pure _
  · refine .bind (.upd fun s h => ?_) fun _ => .pure _
    rw [remember_mem, atomicTraffic_mem]
    exact wf_notePort (by exact wf_storeLE h _ _ _) _

theorem KeepsForm.xlatPages (acc : Acc) (as : List Nat) : KeepsForm (xlatPages acc as) := by
  induction as with
  | nil => exact .pure _
  | cons a as ih => exact .bind (.xlat _ _) fun _ => .bind ih fun _ => .pure _

theorem KeepsForm.xlatRange (acc : Acc) (va n : Nat) : KeepsForm (xlatRange acc va n) := by
  unfold Machine.xlatRange
  split
  · exact .raise _ _
  · exact .bind (.walkerGate _) fun _ => .xlatPages _ _

theorem foldl_mem {ι : Type} (f : State → ι → State) (h : ∀ u i, (f u i).mem = u.mem) (l : List ι) (s : State) :
    (l.foldl f s).mem = s.mem := by
  induction l generalizing s with
  | nil => rfl
  | cons i l ih => rw [List.foldl_cons, ih, h]

theorem rangeTraffic_mem (s : State) (p : PageMap) (use : CacheUse) (k : ReqKind) (va n : Nat) (bs : List Byte) :
    (s.rangeTraffic p use k va n bs).mem = s.mem := by
  unfold State.rangeTraffic
  exact foldl_mem _ (fun _ _ => traffic_mem ..) _ _

theorem pastRead_mem (s : State) (r : Role) (pa : Nat) (bs : List Byte) : (s.pastRead r pa bs).2.mem = s.mem := by
  unfold State.pastRead
  split
  · exact (onlyTraces_pass _ _ _).mem
  · exact (onlyTraces_pass _ _ _).mem

theorem readRange_mem (s : State) (r : Role) (p : PageMap) (va n : Nat) : (s.readRange r p va n).2.mem = s.mem := by
  have hfold : ∀ (l : List (Nat × Nat)) (q : List Byte × State),
      (l.foldl (fun q a =>
        let b := q.2.pastRead r (p.pa a.1) (readBytes q.2.mem (p.pa a.1) a.2)
        (q.1 ++ b.1, b.2)) q).2.mem = q.2.mem := by
    intro l
    induction l with
    | nil => intro q; rfl
    | cons a l ih => intro q; rw [List.foldl_cons, ih]; exact pastRead_mem _ _ _ _
  unfold State.readRange
  rw [hfold, rangeTraffic_mem]

/-- A read of less than a register changes nothing. -/
theorem regReadPart_mem (s : State) (q : Requester) (off n : Nat) (hn : n ≠ 8) : (s.regReadPart q off n).2.mem = s.mem := by
  unfold State.regReadPart
  rw [if_neg hn]
  simp only [apply_ite Prod.snd, ite_self]

theorem regReadByte_mem (s : State) (q : Requester) (off : Nat) :
    (let r := s.regReadPart q off 1; ((BitVec.ofNat 8 r.1 : Byte), r.2)).2.mem = s.mem :=
  regReadPart_mem s q off 1 (by decide)

theorem engineByte_mem (s : State) (pa : Nat) : (s.engineByte pa).2.mem = s.mem := by
  unfold State.engineByte
  by_cases h : regionOf pa = .regs
  · rw [if_pos h]; exact regReadByte_mem s deviceRequester _
  · rw [if_neg h]

theorem deviceBytes_mem (s : State) (pa n : Nat) : (s.deviceBytes pa n).2.mem = s.mem := by
  induction n generalizing s pa with
  | zero => rfl
  | succ n ih =>
    unfold State.deviceBytes
    generalize hb : s.engineByte pa = b
    have := engineByte_mem s pa
    rw [hb] at this
    dsimp only
    rw [ih, this]

theorem KeepsForm.loadBytes (acc : Acc) (va n : Nat) (oc : BitVec 4) : KeepsForm (loadBytes acc va n oc) := by
  refine .bind (.xlatRange _ _ _) fun p => ?_
  intro s h
  dsimp only
  cases hp : p.firstBad s va n with
  | none =>
    by_cases hr : regionOf (p.pa va) = .regs
    · simp only [if_pos hr]; rw [deviceBytes_mem]; exact h
    · simp only [if_neg hr]; rw [readRange_mem]; exact h
  | some b => simpa [Stop.state, State.logCheck, logEvent_mem] using h

theorem KeepsForm.acquire : KeepsForm acquire := .upd fun _ h => h

/-! ## The end of an instruction -/

theorem haltGang_mem (s : State) (c : Fin 192) (r : BitVec 8) (b : Option Who) (u : Option Trap) :
    (s.haltGang c r b u).mem = s.mem := by
  unfold State.haltGang
  refine foldl_mem _ (fun v i => ?_) _ _
  split <;> rfl

theorem terminate_mem (s : State) (i : Fin 192) (c : BitVec 8) : (s.terminate i c).mem = s.mem := by
  unfold State.terminate
  dsimp only
  split <;> rfl

theorem doubleFault_mem (s : State) : s.doubleFault.mem = s.mem := by
  unfold State.doubleFault
  dsimp only
  rw [State.modHart_mem, terminate_mem, logEvent_mem]
  rfl

theorem takeGang_mem (s : State) (c : Fin 192) (w : Who) : (s.takeGang c w).mem = s.mem := by
  unfold State.takeGang
  exact foldl_mem (fun (s : State) i => s.modCoreAt i (·.takeAll (if i = c then otherReason 0 (some w) else 0x35)))
    (fun _ _ => rfl) _ _

/-- Taking an exception changes no byte of memory. -/
theorem endLoads_mem (s : State) : s.endLoads.mem = s.mem := by
  unfold State.endLoads; split <;> rfl

theorem take_mem (s : State) (t : Trap) : (s.take t).mem = s.mem := by
  rw [← endLoads_mem s, show s.endLoads.mem = ({ s with epoch := s.epoch + 1 } : State).endLoads.mem by
    rw [endLoads_mem, endLoads_mem]]
  unfold State.take
  dsimp only
  generalize State.endLoads _ = s
  split
  · unfold State.takeStream
    split
    · rw [haltGang_mem]
    · split
      · rfl
      · split
        · rw [takeGang_mem]; rfl
        · rfl
  · unfold State.takeHart
    dsimp only
    split
    · rw [doubleFault_mem]
    · split
      · rw [haltGang_mem]
      · split
        · unfold State.deliverLc
          dsimp only
          split
          · rfl
          · rw [takeGang_mem]; rfl
        · split
          · rfl
          · split <;> rfl

theorem retireAt_mem (s : State) (pc : Word) : (s.retireAt pc).mem = s.mem := by
  have hc : (s.complete pc).mem = s.mem := by
    unfold State.complete; dsimp only; split <;> rfl
  unfold State.retireAt
  dsimp only
  split
  · rw [take_mem, hc]
  · exact hc

theorem withdraw_mem (s : State) : s.withdraw.mem = s.mem := by
  unfold State.withdraw
  split
  · dsimp only; split <;> rfl
  · rfl

theorem sleepHere_mem (s : State) : s.sleepHere.mem = s.mem := by
  unfold State.sleepHere
  split <;> rfl

theorem fallAsleep_mem (s : State) : s.fallAsleep.mem = s.mem := by
  unfold State.fallAsleep
  split
  · unfold State.takeWaiting
    dsimp only
    split
    · rfl
    · rw [State.modHart_mem, withdraw_mem]
  · exact sleepHere_mem s

theorem resolve_state_mem (e : Stop) : e.resolve.mem = e.state.mem := by
  cases e with
  | trap t s => exact take_mem s t
  | wait s => exact sleepHere_mem s
  | park s => exact fallAsleep_mem s

/-- An instruction whose body keeps the form keeps it. -/
theorem wf_finish {m : Act Unit} (hm : KeepsForm m) {s t : State} (hs : Memory.wf s.mem = true)
    (h : finish m s = .next t) : Memory.wf t.mem = true := by
  have := hm s hs
  unfold finish at h
  split at h
  · rename_i u hu
    rw [hu] at this
    cases h
    rw [State.retire, retireAt_mem]
    exact this
  · rename_i e he
    rw [he] at this
    cases h
    rw [resolve_state_mem]
    exact this

theorem wf_finishAt {m : Act Word} (hm : KeepsForm m) {s t : State} (hs : Memory.wf s.mem = true)
    (h : finishAt m s = .next t) : Memory.wf t.mem = true := by
  have := hm s hs
  unfold finishAt at h
  split at h
  · rename_i pc u hu
    rw [hu] at this
    cases h
    rw [retireAt_mem]
    exact this
  · rename_i e he
    rw [he] at this
    cases h
    rw [resolve_state_mem]
    exact this

end Sys2Proof.Machine
end

