-- ==== Sys2Proof/Laws/Pool.lean ====
section
/-! SUPPORT. Rows of the pool, and what a per-row instruction does when its registers have landed and no check fails. -/

namespace Sys2Proof.Machine

/-! ## Rows -/

theorem findRow_putRow_same (n : Nat) (r : Row) (l : List (Nat × Row)) : findRow n (putRow n r l) = some r := by
  induction l with
  | nil => simp [putRow, findRow]
  | cons c l ih =>
    obtain ⟨k, q⟩ := c
    unfold putRow
    split
    · simp [findRow]
    · split
      · simp [findRow]
      · rename_i h1 h2
        simp [findRow, h1, h2, ih]

theorem findRow_putRow_other {m n : Nat} (h : m ≠ n) (r : Row) (l : List (Nat × Row)) :
    findRow m (putRow n r l) = findRow m l := by
  induction l with
  | nil => simp [putRow, findRow, Ne.symm h]
  | cons c l ih =>
    obtain ⟨k, q⟩ := c
    unfold putRow
    split
    · rename_i hk
      by_cases hm : m < n
      · simp [findRow, Ne.symm h, hm, show ¬ k = m by omega, show m < k by omega]
      · simp [findRow, Ne.symm h, hm]
    · split
      · rename_i h2
        subst h2
        simp [findRow, Ne.symm h]
      · simp [findRow, ih]

@[simp] theorem Core.row_setRow_same (c : Core) (n : Nat) (r : Row) : (c.setRow n r).row n = r := by
  simp [Core.row, Core.setRow, findRow_putRow_same]

theorem Core.row_setRow_other (c : Core) {m n : Nat} (h : m ≠ n) (r : Row) : (c.setRow n r).row m = c.row m := by
  simp [Core.row, Core.setRow, findRow_putRow_other h]

/-! ## Checks that pass -/

/-- Registers all of whose slices have landed let an instruction go on (R134); it observes what has landed in them (R52). -/
theorem landedGate_ok {s : State} {regs : List Nat} (h : s.unlanded regs = []) :
    landedGate regs s = .ok ([], s.observe regs) := by
  simp [landedGate, h]

/-- What observing landed data changes (R52, R196): the scalar data cache, the order of the hart's earlier stores, and which
registers hold data that nothing has observed. -/
theorem observe_frame (s : State) (regs : List Nat) :
    ∃ (h : Hart) (l : List Line) (p : List PastStore) (q : List LateLoad), h = { s.hart with unseen := h.unseen } ∧
      s.observe regs =
        s.setCore { s.core with harts := s.core.harts.set s.cur.who.hartIx h, sdc := l, past := p, lates := q } := by
  unfold State.observe
  split
  · refine ⟨{ s.hart with unseen := regs.foldl (fun u r => u &&& ~~~BitVec.ofNat 32 (2 ^ r)) s.hart.unseen }, [],
      ({ s.core with sdc := [] }.orderPast (·.who == s.cur.who) (BitVec.allOnes 16)).past,
      ({ s.core with sdc := [] }.endLoads (·.who == s.cur.who)).lates, rfl, ?_⟩
    unfold State.sdcInvalidate State.orderAll State.modHart Core.modHart State.modCore State.setCore Core.orderPast
      Core.reorder Core.endLoads
    simp only [State.hart, State.core, Fin.getElem_fin, Vector.getElem_set_self, Vector.set_set]
    by_cases hc : s.cores[s.cur.core.val].past = [] <;> by_cases hd : s.cores[s.cur.core.val].lates = [] <;>
      simp only [hc, hd, if_true, if_false]
  · refine ⟨s.hart, s.core.sdc, s.core.past, s.core.lates, rfl, ?_⟩
    have hh : s.core.harts.set s.cur.who.hartIx s.hart = s.core.harts := by simp [State.hart]
    rw [hh]
    show s = { s with cores := s.cores.set s.cur.core s.core }
    have hk : s.cores.set s.cur.core s.core = s.cores := by simp [State.core]
    rw [hk]

/-- Observing landed data changes nothing where there are none. -/
theorem observe_none {s : State} {regs : List Nat} (h : s.observes regs = false) : s.observe regs = s := by
  simp [State.observe, h]

theorem abnCheck_ok {s : State} {rows : List Nat} {srcs : List (Nat × AbnKind)}
    (h : (srcs.all fun p => !s.abnFails rows p.1 p.2) = true) : abnCheck rows srcs s = .ok ((), s) := by
  have : (srcs.any fun p => s.abnFails rows p.1 p.2) = false := by
    rw [List.any_eq_false]
    intro p hp
    have := List.all_eq_true.mp h p hp
    simpa using this
  simp [abnCheck, this]

theorem failRows_sound {s : State} (h : s.sound = true) (rows : List Nat) (cols : Nat → BitVec 1024) :
    s.failRows rows cols = [] := by
  unfold State.failRows
  rw [if_pos]
  simp only [State.sound, Bool.and_eq_true] at h
  exact h.1

theorem firstFail_sound {s : State} (h : s.sound = true) (rows : List Nat) (cols : BitVec 1024) :
    s.firstFail rows cols = none := by
  simp [State.firstFail, failRows_sound h, least]

theorem masonRows_sound {s : State} (h : s.sound = true) (rows : List Nat) : s.masonRows rows = [] := by
  unfold State.masonRows
  split
  · rfl
  · rw [List.filterMap_eq_nil_iff]
    intro u hu
    simp only [State.sound, Bool.and_eq_true] at h
    have := List.all_eq_true.mp h.2 u hu
    cases u <;> simp_all

theorem planFails_sound {s : State} (h : s.sound = true) (p : Plan) (rows : List Nat) : s.planFails p rows = [] := by
  simp [State.planFails, failRows_sound h]

theorem rowCheck_ok {s : State} (h : s.sound = true) (p : Plan) (rows : List Nat) : rowCheck p rows s = .ok ((), s) := by
  simp [rowCheck, masonRows_sound h, planFails_sound h]

/-! ## The per-row frame -/

/-- What a per-row instruction leaves when nothing stops it: the rows that are due get their new content, all computed
from the state before; then latches, flags, workspace, VC bits and the progress of a replay. -/
def perRowDone (p : Plan) (f : State → Nat → Row × BitVec 5) (s : State) : State :=
  let outs := s.dueRows.map fun j => (j, f s j)
  let t := (outs.foldl (fun s o => s.setRow o.1 o.2.1) s).scramble p.lats s.dueRows
  let t := (t.mark t.hartLo t.hartHi (wkMask p.wk) 0).rowOrder p
  ((t.orFlags (outs.foldl (fun a o => a ||| o.2.2) 0)).planVc p).modHart Hart.replayStep

theorem perRow_ok {p : Plan} {s : State} (f : State → Nat → Row × BitVec 5) (hl : s.unlanded p.regs = [])
    (hn : s.observes p.regs = false) (ha : (p.srcs.all fun q => !s.abnFails s.active q.1 q.2) = true)
    (hs : s.sound = true) : perRow p f s = .ok ((), perRowDone p f s) := by
  have hf : s.failCourses [] = [] := rfl
  have hd : ∀ (u : State) (l : List (Nat × Row × BitVec 5)), (l.filter fun o => perRow.done u [] o.1) = l := by
    intro u l
    simp [perRow.done]
  have hrows : ((s.passRows.filter s.pendingRow).filter fun j => !([] : List Nat).contains (s.courseAt j)) = s.dueRows := by
    simp [State.dueRows]
  unfold perRow
  simp only [Act.run_bind, landedGate_ok hl, observe_none hn, Act.run_look, id, abnCheck_ok ha, hf, List.nil_append,
    masonRows_sound hs, planFails_sound hs, List.map_nil, hrows, Act.run_upd, hd, and_self, if_true, replayStep, perRowDone]

end Sys2Proof.Machine
end

