-- ==== Sys2Proof/Tests/Slice0.lean ====
section
/-! SUPPORT. Small tests of the decoder, of the checks on instructions and of single steps, and for each statement one
concrete state and operands that meet its hypotheses. The expected words and values come from the spec's encodings and
worked examples, or are computed from its rules by hand. -/

open Sys2Proof Sys2Proof.Machine

namespace Sys2Proof.Tests

set_option maxRecDepth 100000
set_option Elab.async false

/-! ## States for tests -/

/-- Hart 0 of core 0 runs at address 0; virtual addresses below 1 GiB are physical ones. -/
def w0 : State := State.reset.withFetchWord 32 0x10000000

/-- The same with another content of the hart and of the core. -/
def wit (f : Hart → Hart) (g : Core → Core) : State := (w0.modCore g).modHart f

def noHart (h : Hart) : Hart := h
def noCore (c : Core) : Core := c

/-- Hart 0 with two scalar registers set. -/
def regs2 (r : Reg) (v : Word) (q : Reg) (u : Word) (h : Hart) : Hart := { h with th := (h.th.set r v).set q u }

/-- The partition of "top3" in the spec: 16 registers of 32 columns, an accumulator region, 440 scratch columns. -/
def top3 (c : Core) : Core := { c with pword := 0x3754 }

/-- Four rows in the strip. -/
def vl4 (h : Hart) : Hart := { h with vl := 4 }

/-- A state for vector instructions. -/
def wv : State := wit vl4 top3

/-! ## Words

One word of every row of the opcode table, put together from the row's fixed bits and these operands in its fields; and
words that are no instruction. -/

/-- R329 to R331. -/
theorem test_words_register_arithmetic :
    decode 0x05347000 = .ok (.add 9 20 14) ∧ decode 0x05347001 = .ok (.sub 9 20 14) ∧
    decode 0x05347002 = .ok (.and 9 20 14) ∧ decode 0x05347003 = .ok (.or 9 20 14) ∧
    decode 0x05347004 = .ok (.xor 9 20 14) ∧ decode 0x05347005 = .ok (.andn 9 20 14) ∧
    decode 0x05347006 = .ok (.slt 9 20 14) ∧ decode 0x05347007 = .ok (.sltu 9 20 14) ∧
    decode 0x05347008 = .ok (.seq 9 20 14) ∧ decode 0x05347009 = .ok (.sne 9 20 14) ∧
    decode 0x0534700A = .ok (.min 9 20 14) ∧ decode 0x0534700B = .ok (.max 9 20 14) ∧
    decode 0x0534700C = .ok (.minu 9 20 14) ∧ decode 0x0534700D = .ok (.maxu 9 20 14) ∧
    decode 0x09347000 = .ok (.sll 9 20 14) ∧ decode 0x09347001 = .ok (.srl 9 20 14) ∧
    decode 0x09347002 = .ok (.sra 9 20 14) ∧ decode 0x09347003 = .ok (.rol 9 20 14) ∧
    decode 0x09347004 = .ok (.ror 9 20 14) ∧ decode 0x0D347000 = .ok (.mul 9 20 14) ∧
    decode 0x0D347001 = .ok (.mulh 9 20 14) ∧ decode 0x0D347002 = .ok (.mulhu 9 20 14) ∧
    decode 0x0D347003 = .ok (.div 9 20 14) ∧ decode 0x0D347004 = .ok (.divu 9 20 14) ∧
    decode 0x0D347005 = .ok (.rem 9 20 14) ∧ decode 0x0D347006 = .ok (.remu 9 20 14) := by
  decide +kernel

/-- R332 to R335. -/
theorem test_words_immediates :
    decode 0x1134A5C3 = .ok (.addi 9 20 0xa5c3) ∧ decode 0x1534A5C3 = .ok (.andi 9 20 0xa5c3) ∧
    decode 0x1934A5C3 = .ok (.ori 9 20 0xa5c3) ∧ decode 0x1D34A5C3 = .ok (.xori 9 20 0xa5c3) ∧
    decode 0x21341A34 = .ok (.seqi 9 20 0x1a34) ∧ decode 0x21343A34 = .ok (.snei 9 20 0x1a34) ∧
    decode 0x21345A34 = .ok (.slti 9 20 0x1a34) ∧ decode 0x21347A34 = .ok (.sgei 9 20 0x1a34) ∧
    decode 0x21349A34 = .ok (.sltui 9 20 0x1a34) ∧ decode 0x2134BA34 = .ok (.sgeui 9 20 0x1a34) ∧
    decode 0x25340017 = .ok (.slli 9 20 23) ∧ decode 0x25341017 = .ok (.srli 9 20 23) ∧
    decode 0x25342017 = .ok (.srai 9 20 23) ∧ decode 0x25343017 = .ok (.rori 9 20 23) ∧
    decode 0x25344A51 = .ok (.bext 9 20 41 17) ∧ decode 0x25345A51 = .ok (.bextu 9 20 41 17) ∧
    decode 0x25346A51 = .ok (.bins 9 20 41 17) ∧ decode 0x2920A5C3 = .ok (.lui 9 0xa5c3) ∧
    decode 0x2D20A5C3 = .ok (.auipc 9 0xa5c3) := by
  decide +kernel

/-- R336 to R341. -/
theorem test_words_branches :
    decode 0x41341A34 = .ok (.beq 9 20 0x1a34) ∧ decode 0x41343A34 = .ok (.bne 9 20 0x1a34) ∧
    decode 0x41345A34 = .ok (.blt 9 20 0x1a34) ∧ decode 0x41347A34 = .ok (.bge 9 20 0x1a34) ∧
    decode 0x41349A34 = .ok (.bltu 9 20 0x1a34) ∧ decode 0x4134BA34 = .ok (.bgeu 9 20 0x1a34) ∧
    decode 0x44801A34 = .ok (.bmany 4 0x1a34) ∧ decode 0x44803A34 = .ok (.bmnone 4 0x1a34) ∧
    decode 0x44805A34 = .ok (.bmall 4 0x1a34) ∧ decode 0x44807A34 = .ok (.bmnall 4 0x1a34) ∧
    decode 0x4920A5C3 = .ok (.jal 9 0xa5c3) ∧ decode 0x4D34A5C3 = .ok (.jalr 9 20 0xa5c3) ∧
    decode 0x50CA5A34 = .ok (.smb 6 10 2 0x1a34) ∧ decode 0x5440A5C3 = .ok (.smbsImm 2 0x25c3) ∧
    decode 0x54540000 = .ok (.smbsReg 2 20) := by
  decide +kernel

/-- R168 to R173. -/
theorem test_words_scalar_memory :
    decode 0x613460B4 = .ok (.ldN8 9 20 6 180) ∧ decode 0x613461B4 = .ok (.ldN16 9 20 6 180) ∧
    decode 0x613462B4 = .ok (.ldN32 9 20 6 180) ∧ decode 0x613463B4 = .ok (.ldN64 9 20 6 180) ∧
    decode 0x613464B4 = .ok (.ldI8 9 20 6 180) ∧ decode 0x613465B4 = .ok (.ldI16 9 20 6 180) ∧
    decode 0x613466B4 = .ok (.ldI32 9 20 6 180) ∧ decode 0x613467B4 = .ok (.ldI64 9 20 6 180) ∧
    decode 0x653460B4 = .ok (.stN8 9 20 6 180) ∧ decode 0x653461B4 = .ok (.stN16 9 20 6 180) ∧
    decode 0x653462B4 = .ok (.stN32 9 20 6 180) ∧ decode 0x653463B4 = .ok (.stN64 9 20 6 180) ∧
    decode 0x693420B4 = .ok (.ldpN8 9 20 2 180) ∧ decode 0x693421B4 = .ok (.ldpN16 9 20 2 180) ∧
    decode 0x693422B4 = .ok (.ldpN32 9 20 2 180) ∧ decode 0x693423B4 = .ok (.ldpN64 9 20 2 180) ∧
    decode 0x693424B4 = .ok (.ldpI8 9 20 2 180) ∧ decode 0x693425B4 = .ok (.ldpI16 9 20 2 180) ∧
    decode 0x693426B4 = .ok (.ldpI32 9 20 2 180) ∧ decode 0x693427B4 = .ok (.ldpI64 9 20 2 180) ∧
    decode 0x6D347075 = .ok (.amoadd 9 20 14 1 3 5) ∧ decode 0x6D3470F5 = .ok (.amoand 9 20 14 1 3 5) ∧
    decode 0x6D347175 = .ok (.amoor 9 20 14 1 3 5) ∧ decode 0x6D3471F5 = .ok (.amoxor 9 20 14 1 3 5) ∧
    decode 0x6D347275 = .ok (.amominI 9 20 14 1 3 5) ∧ decode 0x6D3472F5 = .ok (.amomaxI 9 20 14 1 3 5) ∧
    decode 0x6D347375 = .ok (.amominN 9 20 14 1 3 5) ∧ decode 0x6D3473F5 = .ok (.amomaxN 9 20 14 1 3 5) ∧
    decode 0x6D347475 = .ok (.amoswap 9 20 14 1 3 5) ∧ decode 0x6D3474F5 = .ok (.amocas 9 20 14 1 3 5) ∧
    decode 0x7280A5C3 = .ok (.fence 2 4 0xa5c3) ∧ decode 0x74CE02B4 = .ok (.pref 1 2 14 2 180) := by
  decide +kernel

/-- R175 to R179, R186, R188, R89, R92. -/
theorem test_words_vector_memory :
    decode 0x8134032C = .ok (.ldv 9 20 6 11) ∧ decode 0x8134036C = .ok (.stv 9 20 6 11) ∧
    decode 0x853475A4 = .ok (.ldvs 9 20 14 11 9) ∧ decode 0x853475E4 = .ok (.stvs 9 20 14 11 9) ∧
    decode 0x89340300 = .ok (.ldvl 9 20 6) ∧ decode 0x89340340 = .ok (.stvl 9 20 6) ∧
    decode 0x8D34702E = .ok (.ldpl 9 20 14 11 1) ∧ decode 0x8D34706E = .ok (.stpl 9 20 14 11 1) ∧
    decode 0x8C940019 = .ok (.ldplm 4 20 6) ∧ decode 0x8C940059 = .ok (.stplm 4 20 6) ∧
    decode 0x913475A6 = .ok (.vgath 9 20 14 11 9 1) ∧ decode 0x913475A7 = .ok (.vgathNb 9 20 14 11 9 1) ∧
    decode 0x913475E6 = .ok (.vscat 9 20 14 11 9 1) ∧ decode 0x993475A7 = .ok (.vgathNf 9 20 14 11 9 1 1) ∧
    decode 0x993400E5 = .ok (.kvldNf 9 20 1 37) ∧ decode 0x953405F2 = .ok (.kvld 9 20 23 1 9) ∧
    decode 0x95341006 = .ok (.kvst 9 20 6) ∧ decode 0x95342006 = .ok (.kvstT 9 20 6) ∧
    decode 0x95343006 = .ok (.kvapp 9 20 6) ∧ decode 0x95344006 = .ok (.kvappT 9 20 6) ∧
    decode 0x95345006 = .ok (.kvfold 9 20 6) ∧ decode 0x95346006 = .ok (.kvfoldT 9 20 6) := by
  decide +kernel

/-- R181 to R184. -/
theorem test_words_copies :
    decode 0xA1341D2F = .ok (.cpy 9 20 14 37 1 1 1) ∧ decode 0xA1345D2F = .ok (.cpym 9 20 14 37 1 1 1) ∧
    decode 0xA1349D2F = .ok (.cpyr 9 20 14 37 1 1 1) ∧ decode 0xA53474B8 = .ok (.cpyg 9 20 14 37 1 1) ∧
    decode 0xA9340000 = .ok (.twaitany 9 20) ∧ decode 0xA9341000 = .ok (.twaitall 9 20) ∧
    decode 0xA9342000 = .ok (.tffr 9 20) ∧ decode 0xA8093000 = .ok (.tclr 9) ∧ decode 0xA9344000 = .ok (.tpln 9 20) ∧
    decode 0xAC00AD5E = .ok (.waitc 10 13 23 2) := by
  decide +kernel

/-- R216 to R220. -/
theorem test_words_passes :
    decode 0xB1347400 = .ok (.pcmp 9 20 14 2) ∧ decode 0xB1347101 = .ok (.pwr 9 20 14 1) ∧
    decode 0xB1347402 = .ok (.pcw 9 20 14 2) ∧ decode 0xB6E1DC38 = .ok (.pcol 0x5c3 0x5c3 1) ∧
    decode 0xB8540000 = .ok (.ptag 2 2 4) ∧ decode 0xB8E9B860 = .ok (.pshift 1 20 1 0x5c3) ∧
    decode 0xBD22E180 = .ok (.pcnt 9 0x5c3) ∧ decode 0xBD26E180 = .ok (.pany 9 0x5c3) ∧
    decode 0xBD2AE180 = .ok (.pff 9 0x5c3) := by
  decide +kernel

/-- R240 to R245. -/
theorem test_words_vector_integers :
    decode 0xC13475E0 = .ok (.vadd 9 20 14 11 1 1) ∧ decode 0xC13475E1 = .ok (.vsub 9 20 14 11 1 1) ∧
    decode 0xC13475E2 = .ok (.vrsub 9 20 14 11 1 1) ∧ decode 0xC13475C3 = .ok (.vand 9 20 14 11 1) ∧
    decode 0xC13475C4 = .ok (.vor 9 20 14 11 1) ∧ decode 0xC13475C5 = .ok (.vxor 9 20 14 11 1) ∧
    decode 0xC13475C6 = .ok (.vmin 9 20 14 11 1) ∧ decode 0xC13475C7 = .ok (.vmax 9 20 14 11 1) ∧
    decode 0xC53475C0 = .ok (.vmul 9 20 14 11 1) ∧ decode 0xC53475C1 = .ok (.vmacc 9 20 14 11 1) ∧
    decode 0xC53475C2 = .ok (.vsll 9 20 14 11) ∧ decode 0xC53475C3 = .ok (.vsrl 9 20 14 11) ∧
    decode 0xC53475C4 = .ok (.vsra 9 20 14 11) ∧ decode 0xC49475C8 = .ok (.vcmpEq 4 20 14 11 1) ∧
    decode 0xC49475C9 = .ok (.vcmpNe 4 20 14 11 1) ∧ decode 0xC49475CA = .ok (.vcmpLt 4 20 14 11 1) ∧
    decode 0xC49475CB = .ok (.vcmpLe 4 20 14 11 1) ∧ decode 0xC49475CC = .ok (.vcmpGt 4 20 14 11 1) ∧
    decode 0xC49475CD = .ok (.vcmpGe 4 20 14 11 1) := by
  decide +kernel

/-- R246 to R254. -/
theorem test_words_vector_floats :
    decode 0xC9347584 = .ok (.vfadd 9 20 14 11 4) ∧ decode 0xC934758C = .ok (.vfsub 9 20 14 11 4) ∧
    decode 0xC9347594 = .ok (.vfmul 9 20 14 11 4) ∧ decode 0xC934759C = .ok (.vfma 9 20 14 11 4) ∧
    decode 0xC93475A0 = .ok (.vfmin 9 20 14 11) ∧ decode 0xC93475A8 = .ok (.vfmax 9 20 14 11) ∧
    decode 0xC9340330 = .ok (.vfneg 9 20 6) ∧ decode 0xC9340338 = .ok (.vfabs 9 20 6) ∧
    decode 0xC89475C0 = .ok (.vfcmpEq 4 20 14 11) ∧ decode 0xC89475C8 = .ok (.vfcmpLt 4 20 14 11) ∧
    decode 0xC89475D0 = .ok (.vfcmpLe 4 20 14 11) ∧ decode 0xC93475DC = .ok (.vfaddX 9 20 14 11 4) ∧
    decode 0xC93475E4 = .ok (.vfmulX 9 20 14 11 4) ∧ decode 0xC93475EC = .ok (.vfmaX 9 20 14 11 4) ∧
    decode 0xCD342701 = .ok (.vcvt 9 20 4 14 1) ∧ decode 0xCD34758C = .ok (.vqtb4 9 20 14 11 4) ∧
    decode 0xCD347594 = .ok (.vqtb8 9 20 14 11 4) ∧ decode 0xCD34759C = .ok (.vdqtb4 9 20 14 11 4) ∧
    decode 0xCD3475A4 = .ok (.vdqtb8 9 20 14 11 4) ∧ decode 0xCD34032C = .ok (.vexp2 9 20 6 4) ∧
    decode 0xCD340334 = .ok (.vrcp 9 20 6 4) ∧ decode 0xCD34033C = .ok (.vrsqrt 9 20 6 4) := by
  decide +kernel

/-- R257 to R263, R235 to R238. -/
theorem test_words_vector_moves :
    decode 0xD1340300 = .ok (.vmv 9 20 6) ∧ decode 0xD1340308 = .ok (.vbcx 9 20 6) ∧
    decode 0xD1347590 = .ok (.vbcr 9 20 14 11) ∧ decode 0xD1347598 = .ok (.vmvxr 9 20 14 11) ∧
    decode 0xD13475A4 = .ok (.vslideup 9 20 14 11 4) ∧ decode 0xD13475AC = .ok (.vslidedn 9 20 14 11 4) ∧
    decode 0xD1240330 = .ok (.vcompress 9 4 6) ∧ decode 0xD1340338 = .ok (.viota 9 20 6) ∧
    decode 0xD5340709 = .ok (.vrsum 9 20 14 1 1) ∧ decode 0xD5340318 = .ok (.vrmax 9 20 6 1 0) ∧
    decode 0xD5340328 = .ok (.vrmin 9 20 6 1 0) ∧ decode 0xD5340731 = .ok (.vscan 9 20 14 1) ∧
    decode 0xD5340340 = .ok (.vscanmax 9 20 6 0) ∧ decode 0xD5340350 = .ok (.vscanmin 9 20 6 0) ∧
    decode 0xD9340000 = .ok (.setvl 9 20) ∧ decode 0xD934180B = .ok (.setvlf 9 20 4 11) ∧
    decode 0xD9342006 = .ok (.setvlre 9 20 6) := by
  decide +kernel

/-- R268 to R292. -/
theorem test_words_selection :
    decode 0xE0947588 = .ok (.vsrch 4 20 14 11 2) ∧ decode 0xE134759B = .ok (.vham 9 20 14 11 2 1 1) ∧
    decode 0xE09475A8 = .ok (.vtopk 4 20 14 11 1) ∧ decode 0xE4098400 = .ok (.tkinit 9 2 1) ∧
    decode 0xE5348C80 = .ok (.tkins 9 20 2 4 1) ∧ decode 0xE4099300 = .ok (.tkmrg 9 2 6) ∧
    decode 0xE5349D80 = .ok (.tkrd 9 20 2 11) ∧ decode 0xE520A400 = .ok (.tkthr 9 2 1) ∧
    decode 0xE9347589 = .ok (.vterm 9 20 14 11 9) ∧ decode 0xE9340316 = .ok (.vdotv 9 20 6 1 2) ∧
    decode 0xE93475A8 = .ok (.vselv 9 20 14 11 2) ∧ decode 0xE8940338 = .ok (.vmaskv 4 20 6 4) ∧
    decode 0xE93475C0 = .ok (.vclrv 9 20 14 11) := by
  decide +kernel

/-- R295 to R317. -/
theorem test_words_slab :
    decode 0xF0090036 = .ok (.sbind 9 13 2) ∧ decode 0xF009009B = .ok (.sldb 9 13 1) ∧
    decode 0xF009A10D = .ok (.sldbg 9 20 6 1) ∧ decode 0xF1200181 = .ok (.stile 9 1) ∧
    decode 0xF009A200 = .ok (.smma 9 20) ∧ decode 0xF0096AC4 = .ok (.sdrainScratch 9 13 4 4) ∧
    decode 0xF1206ACC = .ok (.sdrainVreg 9 13 4 4) ∧ decode 0xF000030C = .ok (.szero 1 4) ∧
    decode 0xF13403BC = .ok (.miter 9 20 1 1 1 1) ∧ decode 0xF0090404 = .ok (.mpoly 9 1) ∧
    decode 0xF0090484 = .ok (.scoef 9 4) ∧ decode 0xF5340000 = .ok (.fork 9 20) ∧ decode 0xF4001000 = .ok .rdv ∧
    decode 0xF4001001 = .ok .rdvEnd := by
  decide +kernel

/-- R343 to R358, R146, R389. -/
theorem test_words_synchronisation :
    decode 0xF8090200 = .ok (.bar 9 4) ∧ decode 0xF9340600 = .ok (.mbinit 9 20 1) ∧
    decode 0xF8090A80 = .ok (.mbarrive 9 1 4) ∧ decode 0xF9340E80 = .ok (.mbexpect 9 20 1 4) ∧
    decode 0xF9341280 = .ok (.mbarrivex 9 20 1 4) ∧ decode 0xF9341780 = .ok (.mbwait 9 20 1 1 4) ∧
    decode 0xF9341A80 = .ok (.mbtest 9 20 1 4) ∧ decode 0xF9341DDB = .ok (.waitvEq 9 20 14 27) ∧
    decode 0xF93421DB = .ok (.waitvGe 9 20 14 27) ∧ decode 0xF920244F = .ok (.csrr 9 79) ∧
    decode 0xF934284F = .ok (.csrw 9 20 79) ∧ decode 0xF9342C4F = .ok (.csrs 9 20 79) ∧
    decode 0xF934304F = .ok (.csrc 9 20 79) ∧ decode 0xF80036A5 = .ok (.svc 0x2a5) ∧
    decode 0xF8003AA5 = .ok (.trap 0x2a5) ∧ decode 0xF8003EA5 = .ok (.bkpt 0x2a5) ∧ decode 0xF8004000 = .ok .eret ∧
    decode 0xF8004400 = .ok .yield ∧ decode 0xF8004800 = .ok .endHart ∧ decode 0xF9344C00 = .ok (.launch 9 20) ∧
    decode 0xF9345000 = .ok (.quiesce 9 20) ∧ decode 0xF9345600 = .ok (.tlbinv 9 20 2) ∧
    decode 0xF8005800 = .ok .icinv ∧ decode 0xF8005801 = .ok .icinvAll ∧ decode 0xF8005C00 = .ok .sdcinv ∧
    decode 0xFE7B0000 = .ok (.pfx 4 1 1 27) := by
  decide +kernel

/-- R144, R145: the word of zeros, a minor that no row has, a reserved bit, a reserved code, a register above x31. -/
theorem test_words_that_are_none : decode 0 = .illZero ∧ decode 1 = .illOp ∧ decode 0xFFFFFFFF = .rsvfld ∧
    decode 0x04A63810 = .rsvfld ∧ decode 0x0400000F = .illOp ∧ decode 0x30000000 = .illOp ∧ decode 0xF8004401 = .rsvfld := by
  decide +kernel
/-- The bytes of a word lie least significant first, and decodeTableWord reads the same instruction. -/
theorem test_word_bytes : decodeBytes [0x01, 0x38, 0xA6, 0x04, 0x55] = some (.ok (.sub 5 6 7), [0x55]) ∧
    decodeTableWord 32 0x04A63801 = some (.sub 5 6 7) ∧ decodeTableWord 32 1 = none ∧
    encode (.sub 5 6 7) = 0x04A63801 := by decide +kernel

/-! ## What is not well-formed

One instruction for each check: the illegal forms, and each kind of a reserved value; and its neighbour that is
well-formed. -/

theorem test_event_is_no_word : (Instr.moduleReset).wf = false := by decide +kernel
theorem test_bit_field_beyond : (Instr.bext 1 2 60 4).wf = false ∧ (Instr.bextu 1 2 63 1).wf = false ∧
    (Instr.bins 1 2 1 63).wf = false ∧ (Instr.bext 1 2 60 3).wf = true := by decide +kernel
theorem test_strip_mine_form : (Instr.smb 6 10 5 0).wf = false ∧ (Instr.smb 6 10 2 0).wf = true := by decide +kernel
theorem test_fence_form : (Instr.fence 2 1 0).wf = false ∧ (Instr.fence 2 6 1).wf = false ∧ (Instr.fence 2 1 1).wf = true := by
  decide +kernel
theorem test_unassigned_register : (Instr.csrr 1 0x18).wf = false ∧ (Instr.csrw 1 2 0x3FF).wf = false ∧
    (Instr.csrs 1 2 0x18).wf = false ∧ (Instr.csrc 1 2 0x18).wf = false ∧ (Instr.csrr 1 0x17).wf = true := by decide +kernel
theorem test_atomic_reserved : (Instr.amoadd 1 2 3 1 1 6).wf = false ∧ (Instr.amocas 1 2 3 1 2 15).wf = false ∧
    (Instr.amoadd 1 2 3 1 3 5).wf = true ∧ (Instr.amoadd 1 2 3 1 0 6).wf = true := by decide +kernel
theorem test_plane_and_prefetch_reserved : (Instr.pref 1 3 0 0 0).wf = false ∧ (Instr.ldplm 0 1 2).wf = false ∧
    (Instr.stplm 0 1 2).wf = false ∧ (Instr.ldplm 1 1 2).wf = true := by decide +kernel
theorem test_copy_registers : (Instr.cpy 1 2 31 0 0 0 1).wf = false ∧ (Instr.cpym 1 2 30 0 1 0 1).wf = false ∧
    (Instr.cpyr 1 2 31 0 0 0 1).wf = false ∧ (Instr.cpyg 1 31 2 0 0 0).wf = false ∧ (Instr.cpy 1 2 31 0 0 0 0).wf = true := by
  decide +kernel
theorem test_pass_reserved : (Instr.pcw 31 1 2 0).wf = false ∧ (Instr.pcw 1 31 2 0).wf = false ∧
    (Instr.ptag 1 1 6).wf = false ∧ (Instr.ptag 1 0 6).wf = true := by decide +kernel
theorem test_rounding_reserved : (Instr.vfadd 1 2 3 14 5).wf = false ∧ (Instr.vfma 1 2 3 14 7).wf = false ∧
    (Instr.vfaddX 1 2 3 14 6).wf = false ∧ (Instr.vcvt 1 2 4 14 5).wf = false ∧ (Instr.vcvt 1 2 4 4 1).wf = false ∧
    (Instr.vdqtb4 1 2 3 14 5).wf = false ∧ (Instr.vrcp 1 2 14 5).wf = false ∧ (Instr.vfadd 1 2 3 14 4).wf = true := by
  decide +kernel
theorem test_slide_and_reduction_reserved : (Instr.vslideup 1 2 3 4 5).wf = false ∧ (Instr.vslidedn 1 2 3 4 7).wf = false ∧
    (Instr.vrsum 1 2 4 0 1).wf = false ∧ (Instr.vscan 1 2 4 1).wf = false ∧ (Instr.vrmax 1 2 4 0 1).wf = false ∧
    (Instr.vscanmin 1 2 4 1).wf = false ∧ (Instr.vrsum 1 2 14 0 1).wf = true := by decide +kernel
theorem test_length_reserved : (Instr.setvlf 1 30 1 0).wf = false ∧ (Instr.setvlf 1 2 0 0).wf = false ∧
    (Instr.setvlre 1 30 0).wf = false ∧ (Instr.setvlf 1 29 1 0).wf = true := by decide +kernel
theorem test_selection_reserved : (Instr.vsrch 1 2 31 4 0).wf = false ∧ (Instr.vterm 1 2 31 2 0).wf = false ∧
    (Instr.vdotv 1 2 4 3 0).wf = false ∧ (Instr.vdotv 1 2 4 0 1).wf = false ∧ (Instr.vdotv 1 30 4 0 0).wf = false ∧
    (Instr.vselv 1 2 3 4 3).wf = false ∧ (Instr.vmaskv 1 2 4 5).wf = false ∧ (Instr.vdotv 1 29 4 1 3).wf = true := by
  decide +kernel
theorem test_slab_reserved : (Instr.stile 30 0).wf = false ∧ (Instr.smma 1 30).wf = false ∧
    (Instr.sdrainScratch 1 14 5 0).wf = false ∧ (Instr.sdrainVreg 1 14 5 0).wf = false ∧ (Instr.smma 1 29).wf = true := by
  decide +kernel
theorem test_system_reserved : (Instr.mbarrive 1 0 6).wf = false ∧ (Instr.mbwait 1 2 0 0 7).wf = false ∧
    (Instr.mbtest 1 2 0 6).wf = false ∧ (Instr.tlbinv 1 2 3).wf = false ∧ (Instr.pfx 0 1 0 0).wf = false ∧
    (Instr.pfx 1 0 0 3).wf = false ∧ (Instr.mbarrive 1 0 5).wf = true := by decide +kernel

/-! ## Single steps

Hart 0 fetches a word at address 0 and runs it. The expected values are computed by hand from the rules named. -/

/-- The state after one step from a word, with some content of the hart and of the core. -/
def go (w : Nat) (f : Hart → Hart) (g : Core → Core) : State :=
  match step (((State.reset.withFetchWord 32 w).modCore g).modHart f) with
  | .next t => t
  | _ => State.reset

def reg (s : State) (r : Reg) : Word := (s.cores[(0 : Fin 192)].harts[(0 : Fin 8)]).th.get r
def hart0 (s : State) : Hart := s.cores[(0 : Fin 192)].harts[(0 : Fin 8)]

/-- R329: the sum wraps at 2^64; R138: the program counter moves on by 4. -/
theorem test_add_wraps : let t := go 0x05347000 (regs2 20 0xFFFFFFFFFFFFFFFF 14 3) noCore
    reg t 9 = 2 ∧ (hart0 t).th.pc = 4 := by decide +kernel
/-- R2: a write of x0 is discarded. -/
theorem test_x0_stays_zero : reg (go 0x04063800 (regs2 6 5 7 9) noCore) 0 = 0 := by decide +kernel
/-- R331: division by zero gives all ones and the remainder is the dividend. -/
theorem test_division_by_zero : reg (go 0x0D347003 (regs2 20 7 14 0) noCore) 9 = 0xFFFFFFFFFFFFFFFF ∧
    reg (go 0x0D347005 (regs2 20 7 14 0) noCore) 9 = 7 := by decide +kernel
/-- R332: the immediate is sign-extended; a source that is the destination. -/
theorem test_addi_negative : reg (go 0x10A58000 (regs2 5 0x8000 0 0) noCore) 5 = 0 := by decide +kernel
/-- R168: a signed load of 4 bytes is sign-extended; the offset is 4 elements. -/
theorem test_load_sign :
    let s := (State.reset.withFetchWord 32 0x60A63604).modHart (regs2 6 0x1000 0 0)
    reg (match step { s with mem := writeLE s.mem 0x1010 4 0xFFFFFFFE } with | .next t => t | _ => State.reset) 5 =
      0xFFFFFFFFFFFFFFFE := by decide +kernel
/-- R351, R387, R390: SVC 7 enters system firmware with its code, and TPC is the next word. -/
theorem test_svc : let h := hart0 (go 0xF8003407 noHart noCore)
    h.tcause = 0x0A ∧ h.tfaddr = 7 ∧ h.tpc = 4 ∧ h.tiaddr = 0 ∧ h.sys = true ∧ h.st = .running := by decide +kernel
/-- R144, R390: the word of zeros raises ILLZERO at its own address. -/
theorem test_word_of_zeros : let h := hart0 (go 0 noHart noCore)
    h.tcause = 0 ∧ h.tpc = 0 ∧ h.sys = true := by decide +kernel
/-- R389: ERET outside a handler raises PRIV. -/
theorem test_eret_outside : (hart0 (go 0xF8004000 noHart noCore)).tcause = 0x04 := by decide +kernel
/-- R235: SETVL grants at most the rows of the hart. -/
theorem test_setvl : let t := go 0xD8E60000 (regs2 6 70000 0 0) top3
    reg t 7 = 65536 ∧ (hart0 t).vl = 65536 := by decide +kernel
/-- R240: int32 elements wrap; a row at or above VL keeps its element. -/
theorem test_vadd_wraps :
    let t := go 0xC0221A00 (fun h => { h with vl := 1 }) fun c =>
      { top3 c with rows := [(0, (Row.zero.put 72 32 0xFFFFFFFF).put 104 32 2), (1, Row.zero.put 72 32 5)] }
    (t.cores[(0 : Fin 192)].row 0).get 40 32 = 1 ∧ (t.cores[(0 : Fin 192)].row 1).get 40 32 = 0 := by decide +kernel

/-! ## Witnesses: scalar instructions -/

theorem wit_scalar_forms : w0.pfx = none := by decide +kernel
theorem wit_retire : w0.cur.who = .hart 0 ∧ w0.stepping = false := by decide +kernel
theorem wit_after_prefix : (wit (fun h => { h with pfx := some 0xFC800000 }) noCore).pfx = some 0xFC800000 := by
  decide +kernel
theorem wit_upper_pair : (wit (fun h => { h with th := { h.th with pc := 0x2000 } }) noCore).pc = 0x2000 ∧
    (wit (regs2 5 0x22000 0 0) noCore).getX 5 = 0x22000 := by decide +kernel
theorem wit_bit_fields : (60 : BitVec 6).toNat + ((3 : BitVec 6).toNat + 1) ≤ 64 ∧
    64 < (61 : BitVec 6).toNat + ((3 : BitVec 6).toNat + 1) := by decide
theorem wit_branch_on_mask : w0.isStream = false ∧ w0.pfx = none ∧ w0.sound = true := by decide +kernel
theorem wit_strip_mine : smbIllegal 6 10 2 = false ∧ smbIllegal 6 10 5 = true ∧ smbIllegal 6 31 2 = true ∧
    smbIllegal 11 10 2 = true ∧ smbIllegal 12 10 2 = false := by decide

/-! ## Witnesses: scalar memory -/

theorem wit_scalar_load : (wit (regs2 6 0x3F0 0 0) noCore).reach (scalarAcc w0 .load 8)
      (((wit (regs2 6 0x3F0 0 0) noCore).getX 6) + BitVec.ofInt 64 ((4 : BitVec 8).toInt * 8)).toNat =
        some { pa := 0x410, idem := true } ∧
    (wit (regs2 6 0x3F0 0 0) noCore).lateWalk [0x410] = none ∧
    w0.goodData 0x410 8 = true ∧ w0.notCached { pa := 0x410, idem := true } = true ∧
    w0.unorderedPast { oc := 3 } 0x410 8 = [] := by decide +kernel
/-- An unordered store of class 1 before a load of class 2: the load may find either byte; at class 1 only the new one. -/
theorem wit_unordered_accesses :
    let s := wit noHart fun c => { c with past := [{ who := .hart 0, cls := 1, scalar := false, pa := 0x410, old := [5],
                                                     new := [6], tick := 0, unordered := 0xFFFD, done := 0, scal := [],
                                                     dev := false }] }
    (s.unorderedPast { oc := 2 } 0x410 1).length = 1 ∧ s.unorderedPast { oc := 1 } 0x410 1 = [] ∧
    s.unorderedPast { oc := 2 } 0x411 1 = [] := by decide +kernel
theorem wit_scalar_store : Memory.wf w0.mem = true ∧
    w0.reach (scalarAcc w0 .store 8) (w0.getX 0 + BitVec.ofInt 64 ((4 : BitVec 8).toInt * 8)).toNat =
      some { pa := 0x20, idem := true } ∧ w0.lateWalk [0x20] = none ∧ regionOf 0x20 ≠ .regs ∧ w0.core.sendsGood = true := by
  decide +kernel
/-- A page of register space at 0x40000000, at system privilege; a store to a sector whose check fails. -/
theorem wit_register_space :
    let s := { wit (fun h => { regs2 6 0x40001000 0 0 h with sys := true }) noCore with
      mem := writeLE w0.mem 0x200008 8 0x1000000002F }
    regionOf 0x10000001000 = .regs ∧ s.pfx = none ∧ s.lateWalk [0x40001000] = none ∧
    s.reach (scalarAcc s .load 8) ((s.getX 6) + BitVec.ofInt 64 ((0 : BitVec 8).toInt * 8)).toNat =
      some { pa := 0x10000001000, idem := false } ∧
    s.reach (scalarAcc s .store 4) ((s.getX 6) + BitVec.ofInt 64 ((0 : BitVec 8).toInt * 4)).toNat =
      some { pa := 0x10000001000, idem := false } ∧
    (let t : State := { w0 with bad := [0] }
     regionOf 0x20 = .hbm ∧ t.unorderedPast { oc := 3 } 0x20 8 = [] ∧ t.sectorBad 0x20 = true) := by decide +kernel
/-- Window 0 of 16 bytes: the last word inside, and the first access outside at either end. -/
theorem wit_window : let s := wit noHart fun c => { c with wins := c.wins.set 0 { base := 0x400, size := 16 } }
    (s.core.wins[(0 : BitVec 2).toNat]).size = 16 ∧ (s.core.wins[(1 : BitVec 2).toNat]).size = 0 ∧
    ((s.getX 0 + BitVec.ofInt 64 ((1 : BitVec 8).toInt * 8)).toInt) + 8 = 16 ∧
    16 < ((s.getX 0 + BitVec.ofInt 64 ((2 : BitVec 8).toInt * 8)).toInt) + 8 ∧
    (s.getX 0 + BitVec.ofInt 64 ((255 : BitVec 8).toInt * 8)).toInt < 0 ∧
    s.reach (scalarAcc s .load 8) (0x400 + BitVec.ofInt 64 8 : Word).toNat = some { pa := 0x408, idem := true } ∧
    s.lateWalk [0x408] = none ∧ s.goodData 0x408 8 = true ∧ s.notCached { pa := 0x408, idem := true } = true := by decide +kernel
theorem wit_misaligned : let s := wit (regs2 6 1 0 0) noCore
    s.isStream = false ∧ s.pfx = none ∧ (s.getX 6 + BitVec.ofInt 64 ((0 : BitVec 8).toInt * 4)).toNat < 2 ^ 56 ∧
    (s.getX 6 + BitVec.ofInt 64 ((0 : BitVec 8).toInt * 4)).toNat % 4 ≠ 0 ∧ s.lateWalk [1] = none := by decide +kernel
theorem wit_atomic : let s : State := { w0 with podid := 0x100 }
    Memory.wf s.mem = true ∧ amoReserved 3 5 = false ∧ bitOf s.podid.toNat 8 = true ∧ s.lateWalk [0] = none ∧
    s.reach { kind := .atomic, source := s.source 2, align := 8 } (s.getX 0).toNat = some { pa := 0, idem := true } ∧
    s.goodData 0 8 = true := by decide +kernel
/-- A FENCE and a PREF; pod scope without and with a pod; the sector of a prefetch. -/
theorem wit_fence : (1 : BitVec 16) ≠ 0 ∧ scopeReserved 5 = false ∧ (2 : BitVec 2) ≠ 3 ∧ bitOf w0.podid.toNat 8 = false ∧
    bitOf ({ w0 with podid := 0x100 } : State).podid.toNat 8 = true ∧ w0.lateWalk [scalarAddr (w0.getX 0) 1 8] = none ∧
    w0.reach { kind := .load, source := 1 } (scalarAddr (w0.getX 0) 1 8) = some { pa := 8, idem := true } ∧
    regionOf 8 = .hbm ∧ w0.sectorBad 8 = false := by decide +kernel
/-- A set of the die cache with a line, a set that is full of high lines, and one that holds a low line too. -/
theorem wit_die_cache :
    let set := fun (d : Die) (k : Nat) => d.dcache.filter fun l => l.sector % 32768 == k % 32768
    let full : Die := { Die.reset with dcache := (List.range 16).map fun i => { sector := 32768 * i, high := true } }
    let mixed : Die := { Die.reset with dcache := (List.range 16).map fun i => { sector := 32768 * i, high := i != 3 } }
    (full.dcache.find? (·.sector == 32768)) = some { sector := 32768, high := true } ∧
    (full.dcache.find? (·.sector == 1)) = none ∧ (set full 1).length < 16 ∧ (set full (32768 * 16)).length = 16 ∧
    (full.touchLine .high (32768 * 16)).dcache.head? = some { sector := 32768 * 16, high := true } ∧
    ((full.touchLine .high (32768 * 16)).dcache.any fun l => l.sector == 32768 * 15) = false ∧
    ((mixed.touchLine .high (32768 * 16)).dcache.any fun l => l.sector == 32768 * 3) = false := by decide +kernel

/-! ## Witnesses: passes -/

/-- A good descriptor, and one that R212 refuses. -/
theorem wit_passes : let s := wit (fun h => { vl4 h with th := h.th.set 5 0 }) top3
    (passDesc (s.getX 5)).bad = false ∧ passLegal.cause s = none ∧
    s.vecReady passLegal (s.core.regsOfCols (((passDesc (s.getX 5)).colBits (s.getX 6)).map (passDesc (s.getX 5)).colOf)) [] =
      true ∧
    s.dueRows = [0, 1, 2, 3] := by decide +kernel
theorem wit_pass_refused : (passDesc 0xFFFFFFFFFFFFFFFF).bad = true := by decide +kernel
theorem wit_columns : selectorOf 0x7FF = .nothing ∧ selectorOf 1 ≠ .nothing ∧ selectorOf 2 ≠ .nothing ∧
    wv.vecReady passLegal (wv.core.regsOfCols ((selectorOf 1).cols ++ (selectorOf 2).cols)) [] = true ∧
    wv.vecReady { pred := true } [] [] = true := by decide +kernel
theorem wit_shift_pass : selectorOf 1 ≠ .nothing ∧ selectorOf 1 ≠ .lat 1 ∧ selectorOf 1 ≠ .lat 2 ∧ selectorOf 1 ≠ .lat 3 ∧
    (16 : Reg).toNat ≤ 16 ∧ wv.vecReady passLegal (wv.core.regsOfCols ((selectorOf 1).cols ++ (selectorOf 1).cols)) [] =
      true ∧
    wv.vecReady passLegal (wv.core.regsOfCols (selectorOf 1).cols) [] = true := by decide +kernel

/-! ## Witnesses: vector instructions -/

theorem wit_narrow : typeInt 2 = true ∧ typeInt 8 = true ∧ typeInt 14 = false := by decide
/-- Both forms of the second operand, and a subtraction whose destination is its second source. -/
theorem wit_vector_integer :
    wv.vecReady (vecLegal 1 (typeWidth 2) (srcs2 0 2 3 2) 0 (typeInt 2)) (regsOf 1 wv (srcs2 0 2 3 2))
      (kindsOf (srcs2 0 2 3 2)) = true ∧
    wv.vecReady (vecLegal 1 32 (srcs2 1 2 3 4) 64 (typeInt 4)) (regsOf 1 wv (srcs2 1 2 3 4)) (kindsOf (srcs2 1 2 3 4)) =
      true ∧
    wv.vecReady (vecLegal 3 32 (srcs2 0 2 3 4) 32 (typeInt 4)) (regsOf 3 wv (srcs2 0 2 3 4)) (kindsOf (srcs2 0 2 3 4)) =
      true ∧ wv.dueRows = [0, 1, 2, 3] := by decide +kernel
theorem wit_accumulate_shift :
    wv.vecReady (vecLegal 1 32 (src 1 4 :: srcs2 0 2 3 4) 32 (typeInt 4)) (regsOf 1 wv (src 1 4 :: srcs2 0 2 3 4))
      (kindsOf (src 1 4 :: srcs2 0 2 3 4)) = true ∧
    wv.vecReady (vecLegal 1 32 [src 2 4] 0 (typeInt 4)) (regsOf 1 wv [src 2 4]) (kindsOf [src 2 4]) = true := by
  decide +kernel
theorem wit_vector_compare :
    wv.vecReady (maskLegal (srcs2 1 2 3 4) 32 (typeInt 4)) ((srcs2 1 2 3 4).map (·.reg)) (kindsOf (srcs2 1 2 3 4)) = true := by
  decide +kernel
theorem wit_vector_float :
    wv.vecReady (floatLegal 1 14 [src 2 14, src 3 14] 64 0) (regsOf 1 wv [src 2 14, src 3 14]) (kindsOf [src 2 14, src 3 14]) =
      true ∧
    wv.vecReady (floatLegal 1 14 [src 1 14, src 2 14] 128 4) (regsOf 1 wv [src 1 14, src 2 14])
      (kindsOf [src 1 14, src 2 14]) = true ∧
    wv.vecReady (floatLegal 1 14 [src 2 14] 0 0) (regsOf 1 wv [src 2 14]) (kindsOf [src 2 14]) = true ∧
    wv.vecReady (maskLegal [src 2 14, src 3 14] 0 (typeFloat 14)) ([src 2 14, src 3 14].map (·.reg))
      (kindsOf [src 2 14, src 3 14]) = true := by decide +kernel
theorem wit_conversion :
    wv.vecReady { vecLegal 1 (typeWidth 14) [src 2 4] 64 ((14 : BitVec 4) != 15 && (4 : BitVec 4) != 15) with
      rsv := rmReservedFor (!codeNotInteger 4 && !codeNotInteger 14) 0 } (regsOf 1 wv [src 2 4]) (kindsOf [src 2 4]) = true ∧
    wv.vecReady (floatLegal 1 14 [src 2 14] 128 0) (regsOf 1 wv [src 2 14]) (kindsOf [src 2 14]) = true := by decide +kernel
/-- Patterns below, at and beyond infinity; a value to round between two neighbours, and one that overflows; operands of
each kind for a sum, a product and a fused product; a block with a NaN, an infinity and a finite value. -/
theorem wit_roundings :
    FFmt.inf .h = 0x7C00 ∧ (0x3C00 % FFmt.signBit .h) < FFmt.inf .h ∧ 0xFC00 % FFmt.signBit .h = FFmt.inf .h ∧
    FFmt.inf .h < 0x7D00 % FFmt.signBit .h ∧ FFmt.decode .h 0x3C00 = .fin false 1024 (-10) ∧ FFmt.decode .h 0xFC00 = .inf true ∧
    FFmt.decode .h 0x7D00 = .nan true ∧ FFmt.units .h 0x3C00 = 2 ^ 24 ∧ FFmt.units .h 0x3C01 = 2 ^ 24 + 2 ^ 14 ∧
    FFmt.round .h .rne false 4097 (-12) = (0x3C00, flNX) ∧ FFmt.round .h .rup false 4097 (-12) = (0x3C01, flNX) ∧
    FFmt.round .h .rne true 1 16 = (0xFC00, flOF ||| flNX) ∧ FVal.mul (.inf true) (.fin true 1 0) = some (.inf false) ∧
    FVal.mul (.inf true) (.fin true 0 0) = none ∧ nearestInt .rne false 5 (-1) = 2 ∧ nearestInt .rup false 5 (-1) = 3 ∧
    (let xs : List FVal := [.nan false, .inf true, FFmt.decode .h 0x4500]
     (xs.any FVal.isNan) = true ∧ (tbEncode 4 3 xs).e1 = 128) := by decide +kernel
/-- The example of R70: 5.0, 0.75, -0.3 (as binary32), 3.0, 1.0. -/
theorem test_block_example :
    let b := tbEncode 4 3 ([0x40A00000, 0x3F400000, 0xBE99999A, 0x40400000, 0x3F800000].map (FFmt.decode .f))
    b.e0 = 0x7D ∧ b.e1 = 0x80 ∧ b.codes = [0xA, 0x3, 0x5, 0xA, 0x8] ∧ b.flags = flUF ||| flNX := by decide +kernel
theorem wit_block_formats : (1 : Reg) ≠ 3 ∧
    wv.vecReady { pred := true, ewOk := typeFloat 14, vreads := [2], vregs := [1, 2, 3], width := typeWidth 14, wk := 64 }
      [1, 3, 2] [(2, abnKind 14)] = true ∧
    wv.vecReady (floatLegal 1 14 [{ reg := 2, width := 4, kind := .any }, { reg := 3, width := 16, kind := .int 16 }] 64 0)
      (regsOf 1 wv [{ reg := 2, width := 4, kind := .any }, { reg := 3, width := 16, kind := .int 16 }])
      (kindsOf [{ reg := 2, width := 4, kind := .any }, { reg := 3, width := 16, kind := .int 16 }]) = true := by
  decide +kernel
theorem wit_vector_moves :
    wv.vecReady (vecLegal 1 32 [{ reg := 2, width := 32, kind := .none }] 0 true)
      (regsOf 1 wv [{ reg := 2, width := 32, kind := .none }]) [] = true ∧
    wv.vecReady (vecLegal 1 32 [] 0 true) (regsOf 1 wv []) [] = true ∧
    wv.vecReady (vecLegal 1 32 [] 32 (typeInt 4)) (regsOf 1 wv []) [] = true ∧
    wv.vecReady { vecLegal 1 32 [{ reg := 2, width := 32, kind := .none }] 32 true with rsv := 5 ≤ (4 : BitVec 3).toNat }
      (regsOf 1 wv [{ reg := 2, width := 32, kind := .none }]) [] = true ∧
    wv.vecReady (vecLegal 1 16 [] 0 (decide (9 ≤ (9 : BitVec 4).toNat ∧ (9 : BitVec 4).toNat ≤ 11))) (regsOf 1 wv []) [] =
      true ∧
    wv.vecReady { ewOk := true, vregs := [2], width := 32 } [2] [] = true := by decide +kernel
theorem wit_reductions :
    wv.vecReady (redLegal false 1 2 14 .sum 0 128) (regsOf 1 wv [src 2 14]) (kindsOf [src 2 14]) = true ∧
    wv.vecReady (redLegal true 5 2 14 .max 0 128) [2] (kindsOf [src 2 14]) = true ∧
    wv.vecReady (redLegal true 5 2 4 .sum 0 0) [2] (kindsOf [src 2 4]) = true ∧
    wv.hart.vseg = 0 ∧ 0 < wv.hart.vl.toNat ∧ wv.segments = [(0, 4)] := by decide +kernel
/-- Row 1 fails its check in every group. -/
theorem wit_row_check : let s := wit vl4 fun c => { top3 c with rows := [(1, { Row.zero with chk := 0xFFFFFFFF })] }
    (vecLegal 1 32 (srcs2 0 2 3 4) 0 (typeInt 4)).cause s = none ∧ s.unlanded (regsOf 1 s (srcs2 0 2 3 4)) = [] ∧
    ((kindsOf (srcs2 0 2 3 4)).all fun p => !s.abnFails s.active p.1 p.2) = true ∧
    s.firstFail s.dueRows (s.destCols 1 32 ||| s.regCols 2 32 ||| s.regCols 3 32) = some 1 ∧ s.masonRows s.dueRows = [] := by
  decide +kernel
/-- The mason of course 0 fails in row 0, the first row of the course. -/
theorem wit_mason_failure : let s := wit vl4 fun c => { top3 c with flaws := [.microcode 0] }
    (vecLegal 1 32 (srcs2 0 2 3 4) 0 (typeInt 4)).cause s = none ∧ s.unlanded (regsOf 1 s (srcs2 0 2 3 4)) = [] ∧
    ((kindsOf (srcs2 0 2 3 4)).all fun p => !s.abnFails s.active p.1 p.2) = true ∧ s.masonRows s.dueRows = [0] := by
  decide +kernel

/-! ## Witnesses: vector memory -/

/-- x5 = 0x1000, x6 = 16. -/
def wm : State := wit (fun h => regs2 5 0x1000 6 16 (vl4 h)) top3

theorem wit_vector_load :
    wm.vecReady (ldvLegal false 1 4) (1 :: wm.copyReg) [] = true ∧ wm.accessRows = [0, 1, 2, 3] ∧
    wm.loadsEach (elemAcc .load 3 32 true) 4 (wm.loadRole 2 (wm.vlBytes 32))
      (wm.accessRows.map fun j => ((wm.getX 5).toNat + j * 32 / 8) % 2 ^ 64) =
      some [0x1000, 0x1004, 0x1008, 0x100C] ∧
    wm.vecReady { ldvLegal false 1 4 with ewOk := typeBytes 4 } (1 :: wm.copyReg) [] = true ∧
    wm.loadsEach (elemAcc .load 3 32 false) 4 (wm.loadRole 2 (wm.hart.vl.toNat * (wm.getX 6).toInt.natAbs))
      (wm.accessRows.map fun j => ((wm.getX 5).toNat + j * (wm.getX 6).toNat) % 2 ^ 64) =
      some [0x1000, 0x1010, 0x1020, 0x1030] := by decide +kernel
theorem wit_vector_store : Memory.wf wm.mem = true ∧
    wm.vecReady (ldvLegal true 1 4) [1] [] = true ∧
    (wm.storesEach (elemAcc .store 4 32 true) 4 2 (wm.accessRows.map fun j =>
      (((wm.getX 5).toNat + j * 32 / 8) % 2 ^ 64, if 8 ≤ 32 then fun _ => wm.elem 1 32 j else
        mergeBits (j * 32 % 8) 32 (wm.elem 1 32 j)))).map (·.1) = some [0x1000, 0x1004, 0x1008, 0x100C] ∧
    wm.vecReady { ldvLegal true 1 4 with ewOk := typeBytes 4 } [1] [] = true ∧
    (wm.storesEach (elemAcc .store 4 32 false) 4 2 (wm.accessRows.map fun j =>
      (((wm.getX 5).toNat + j * (wm.getX 6).toNat) % 2 ^ 64, fun _ => wm.elem 1 32 j))).map (·.1) =
        some [0x1000, 0x1010, 0x1020, 0x1030] := by decide +kernel
/-- 55 scratch bytes: an element at byte 51 fits, one at byte 52 does not. -/
theorem wit_row_local : let s := wit (fun h => regs2 5 51 6 52 (vl4 h)) top3
    s.core.sb = 55 ∧ (s.getX 5).toNat + 32 / 8 ≤ s.core.sb ∧ s.core.sb < (s.getX 6).toNat + 32 / 8 ∧
    s.vecReady { ldvLegal false 1 4 with ewOk := typeBytes 4 } (1 :: s.copyReg) [] = true ∧
    s.vecReady { ldvLegal true 1 4 with ewOk := typeBytes 4 } [1] [] = true := by decide +kernel
theorem wit_planes :
    wm.loadsEach (elemAcc .load 3 8 false) 1 (wm.loadRole 2 (wm.accessRows.map (· / 8)).eraseDups.length)
      (wm.accessRows.map fun j => ((wm.getX 5).toNat + j / 8) % 2 ^ 64) =
      some [0x1000, 0x1000, 0x1000, 0x1000] ∧
    wm.vecReady { pred := true, copy := true, vregs := [1], width := 32 } (1 :: wm.copyReg) [] = true ∧
    wm.vecReady { rsv := (1 : BitVec 3) == 0, pred := true } [] [] = true ∧ Memory.wf wm.mem = true ∧
    wm.vecReady { pred := true, vreads := [1], vregs := [1], width := 32 } [1] [] = true ∧
    ((wm.storesEach (elemAcc .store 4 8 false) 1 2 (wm.accessRows.map fun j =>
      (((wm.getX 5).toNat + j / 8) % 2 ^ 64, mergeBits (j % 8) 1 (if (wm.row j).bit 1 then 1 else 0)))).map (·.1)) =
        some [0x1000, 0x1000, 0x1000, 0x1000] := by decide +kernel

/-- Rows 0 to 3 hold their own numbers in v2, and CMASK names m1. -/
def wg : State := wit (fun h => { regs2 5 0x1000 6 16 (vl4 h) with cmask := 1 }) fun c =>
  { top3 c with rows := [(0, Row.zero), (1, Row.zero.put 72 32 1), (2, Row.zero.put 72 32 2), (3, Row.zero.put 72 32 3)] }

theorem wit_gather : wg.elem 2 32 3 = 3 ∧
    wg.loadsEach (elemAcc .load 5 32 false) 4 (wg.loadRole 2 (wg.vlBytes 32)) (wg.accessRows.map fun j => ((wg.getX 5).toNat + wg.elem 2 32 j * 4) % 2 ^ 64) =
      some [0x1000, 0x1004, 0x1008, 0x100C] ∧
    wg.vecReady (gatherLegal false false 1 2 4 0) (2 :: 1 :: wg.copyReg) [(2, .int 32)] = true ∧
    wg.vecReady (gatherLegal false true 1 2 4 0) [1, 2] [(2, .int 32)] = true ∧ wg.hart.cmask ≠ 0 ∧
    (gatherLegal false true 1 2 4 0).cause wm = none ∧ wm.hart.cmask = 0 := by decide +kernel
theorem wit_scatter : Memory.wf wg.mem = true ∧
    wg.vecReady (gatherLegal true false 1 2 4 0) [1, 2] [(2, .int 32)] = true ∧
    (wg.active.map fun j => ((wg.getX 5).toNat + wg.elem 2 32 j * 4) % 2 ^ 64) = [0x1000, 0x1004, 0x1008, 0x100C] ∧
    (wg.storesEach (elemAcc .store 5 32 false) 4 2 (wg.accessRows.map fun j =>
      (((wg.getX 5).toNat + wg.elem 2 32 j * 4) % 2 ^ 64, fun _ => wg.elem 1 32 j))).isSome = true := by decide +kernel
theorem wit_gather_nb : wg.lateWalk (wg.accessRows.map fun j => ((wg.getX 5).toNat + wg.elem 2 32 j * 4) % 2 ^ 64) = none ∧
    wg.unlanded [1] = [] ∧
    wg.mapsEach { kind := .load, source := 5, align := 4 }
      (wg.accessRows.map fun j => ((wg.getX 5).toNat + wg.elem 2 32 j * 4) % 2 ^ 64) = some [0x1000, 0x1004, 0x1008, 0x100C] ∧
    wg.vecReady (gatherLegal false false 1 2 4 0) [2] [(2, .int 32)] = true ∧
    wg.vecReady (gatherLegal false true 1 2 4 0) [2] [(2, .int 32)] = true := by decide +kernel

/-! ## Witnesses: vector length, barriers, control and status registers, exceptions -/

/-- 20 rows asked for with a limit of 65536; with a pre-emption request. -/
theorem wit_set_length : let s := wit (regs2 5 20 0 0) top3
    s.isStream = false ∧ s.pfx = none ∧ s.core.preempt = false ∧ s.sys = false ∧
    min (s.getX 5).toNat (min s.core.vlpwr.toNat s.core.vlmax) = 20 ∧
    (wit noHart fun c => { c with preempt := true }).core.preempt = true ∧
    (wit noHart fun c => { c with preempt := true }).sys = false := by decide +kernel
/-- Lengths 3, 0, 4, 6 and at most 10 rows: three fibres, 7 rows, and the fourth is not longer than 10. -/
theorem wit_set_length_of_fibres :
    let s := { wit (fun h => { h with th := ((h.th.set 5 0x1000).set 6 4).set 7 10 }) top3 with
      mem := writeLE w0.mem 0x1000 16 0x00000006000000040000000000000003 }
    (5 : Reg).toNat < 30 ∧ s.sound = true ∧ (s.core.preempt = false ∨ s.sys = true) ∧
    (s.orderAll.scalarsTo 4 2 ((List.range 4).map fun f => ((s.getX 5).toNat + 4 * f) % 2 ^ 64)).map (·.1) =
      some [3, 0, 4, 6] ∧
    [3, 0, 4].sum ≤ 10 ∧ 10 < [3, 0, 4, 6].sum ∧
    fibresThatFit 10 [3, 0, 4, 6] 0 0 [] = ([0, 3], 3, 7, false) := by
  decide +kernel
/-- The last arrival, one before it, an excess one. -/
theorem wit_barrier_object_phases :
    let o : MbarObj := { raw := 0, exp := 4, arr := 3, lerr := false, err := false, ph := false, pend := 0 }
    (o.arr + 1 = o.exp ∧ o.pend = 0) ∧ (({ o with arr := 2 } : MbarObj).arr + 1 ≠ o.exp) ∧
    (({ o with arr := 4, pend := 5 } : MbarObj).arr = o.exp ∧ ({ o with pend := 5 } : MbarObj).pend = 5) := by decide
/-- An object in memory and one in linear scratch; operands at the limits of R345. -/
theorem wit_barrier_object_steps : let s := wit (regs2 5 0x1000 6 65535) top3
    s.isStream = false ∧ s.pfx = none ∧ scopeReserved 5 = false ∧ s.core.laidOut = true ∧ Memory.wf s.mem = true ∧
    bitOf s.podid.toNat 8 = false ∧ bitOf ({ s with podid := 0x100 } : State).podid.toNat 8 = true ∧
    s.sectorBad 0x1000 = false ∧ ({ s with bad := [0x40] } : State).sectorBad 0x1000 = true ∧ s.sound = true ∧
    s.namedMbar 5 0 = some (.mem 0x1000 0x1000) ∧ s.namedMbar 5 1 = some (.pool 0x1000) ∧
    (s.mbarRead s.cur.core (.mem 0x1000 0x1000)).toOption = some (mbarObj 0) ∧
    (s.mbarRead s.cur.core (.pool 0x1000)).toOption = some (mbarObj 0) ∧
    (s.getX 6).toNat ≤ 65535 ∧ 65535 < ((wit (regs2 5 0x1000 6 65536) top3).getX 6).toNat ∧
    2 ^ 40 ≤ ((wit (regs2 5 0x1000 6 0x10000000000) top3).getX 6).toNat ∧
    (wit (regs2 5 0x1000 6 65536) top3).namedMbar 5 0 = some (.mem 0x1000 0x1000) ∧
    (wit (regs2 5 0x1000 6 0x10000000000) top3).namedMbar 5 0 = some (.mem 0x1000 0x1000) := by decide +kernel
/-- The phase bit 0 against both operands of MBWAIT. -/
theorem wit_barrier_object_tests : (mbarObj 0).ph = ((1 : BitVec 1) == 0) ∧ (mbarObj 0).ph ≠ ((1 : BitVec 1) == 1) := by
  decide
/-- A group of one and a group of two of scope 1, no barrier open; and a hart whose phase is over. -/
theorem wit_barrier_arrival : let s := wit (regs2 5 0x10000 6 0x20000) noCore
    scopeReserved 1 = false ∧ s.hart.wait = .none ∧ groupBad (s.getX 5) = false ∧ groupN (s.getX 5) = 1 ∧
    groupBad (s.getX 6) = false ∧ groupN (s.getX 6) = 2 ∧ s.bars = [] ∧ s.core.preempt = false ∧ (1 : BitVec 3) ≠ 5 ∧
    (wit (fun h => { h with wait := .departed }) noCore).hart.wait = .departed ∧ s.takenHere = false ∧
    (wit (fun h => { h with wait := .departed }) fun c =>
      { c with preempt := true, harts := c.harts.set 1 { c.harts[(1 : Fin 8)] with st := .taken }
               pallet := some { launch := 0, gang := 0, index := 0, size := 1, ctx := 0, board := .run, streams := [],
                                failed := none } }).takenHere = true := by decide +kernel
/-- The gang of core 0 is one pallet of two harts, hart 1 running: one arrival is not the last. A group of two whose other
member has arrived, and one open with another N. -/
theorem wit_barrier_joins :
    let gang := wit (regs2 5 0x10000 6 0x20000) fun c =>
      { c with pword := 1, harts := c.harts.set 1 { c.harts[(1 : Fin 8)] with st := .running }
               pallet := some { launch := 0, gang := 0, index := 0, size := 1, ctx := 0, board := .run, streams := [],
                                failed := none } }
    let b : Barrier := { id := 0, key := .gang 0 0 2 (gangInst 2 0), n := 0, arrived := [gang.arrival], counts := [], unsent := 0 }
    gang.core.palletId 0 = (0, 0, 0) ∧ gang.hart.wait = .none ∧ gang.gangDone 0 0 2 (gangInst 2 0) b = false ∧
    gang.gangDone 0 0 2 (gangInst 2 0) { b with arrived := [gang.arrival, { gang.arrival with hart := 1 }] } = true ∧
    (let s := wit (regs2 5 0x10000 6 0x20000) noCore
     let key := BarKey.group s.ctx 1 (scopeInst 1 0 0) (groupBid (s.getX 6))
     let one : Barrier := { id := 0, key := key, n := 2, arrived := [{ s.arrival with hart := 3 }], counts := [], unsent := 0 }
     let t : State := { s with bars := [one], nextBar := 1 }
     t.hart.wait = .none ∧ groupN (t.getX 6) = 2 ∧ one.open = true ∧ (one.arrived ++ [t.arrival]).length = groupN (t.getX 6) ∧
     ({ one with n := 3 } : Barrier).n ≠ groupN (t.getX 6) ∧ one.key ≠ .group s.ctx 1 (scopeInst 1 0 0) (groupBid 0x10001)) := by
  decide +kernel
/-- The first flag differs from the value expected: x6 = 0, a time that is over, and all ones, no limit. -/
theorem wit_wait_not_met :
    let s := wit (fun h => { regs2 5 0x1000 6 0 (vl4 h) with cmask := 1 }) fun c =>
      { top3 c with rows := [(0, Row.zero.put 104 32 1)] }
    readLE s.mem 0x1000 4 ≠ s.elem 3 32 0 ∧ s.getX 6 ≠ BitVec.allOnes 64 ∧ (s.getX 6).toNat ≤ 5 - 5 ∧
    ((s.setX 6 (BitVec.allOnes 64)).getX 6) = BitVec.allOnes 64 := by decide +kernel
/-- The flags are at 0x1000 plus the row number of v2; all flags and expected values are 0. -/
theorem wit_wait_on_flags :
    let s := wit (fun h => { regs2 5 0x1000 6 16 (vl4 h) with cmask := 1 }) fun c =>
      { top3 c with rows := [(1, Row.zero.put 72 32 4), (2, Row.zero.put 72 32 8), (3, Row.zero.put 72 32 12)] }
    s.vecReady { vregs := [2, 3], vreads := [2, 3], width := 32 } [2, 3] [(2, .int 32), (3, .int 32)] = true ∧
    s.lateWalk ((List.range 4).map fun j => ((s.getX 5).toNat + s.elem 2 32 j) % 2 ^ 64) = none ∧ s.hart.cmask ≠ 0 ∧
    (s.mapsEach { kind := .load, source := 5, align := 4 }
      ((List.range 4).map fun j => ((s.getX 5).toNat + s.elem 2 32 j) % 2 ^ 64)) = some [0x1000, 0x1004, 0x1008, 0x100C] ∧
    ([0x1000, 0x1004, 0x1008, 0x100C].all fun pa => !s.anyBad pa 4) = true ∧
    (([0, 1, 2, 3].zip [0x1000, 0x1004, 0x1008, 0x100C]).all fun q => readLE s.mem q.2 4 == s.elem 3 32 q.1 &&
      decide ((readLE s.mem q.2 4 + 2 ^ 32 - s.elem 3 32 q.1) % 2 ^ 32 < 2 ^ 31)) = true := by decide +kernel
/-- A hart at pallet privilege and one at system privilege read the registers that differ. -/
theorem wit_csr_reads : w0.cur.who = .hart 0 ∧ w0.pfx = none ∧ w0.hart.sys = false ∧
    (wit (fun h => { h with sys := true }) noCore).hart.sys = true := by decide +kernel
/-- The ends of the map of R349, and PTROOT at system privilege. -/
theorem wit_csr_writes : csrAssigned 0 = true ∧ csrAssigned 0x80 = true ∧ csrAssigned 0x81 = false ∧
    w0.csrCause 0 = none ∧ w0.csrCause 0x80 ≠ none ∧ (wit (fun h => { h with sys := true }) noCore).csrCause 0x80 = none := by
  decide +kernel
theorem wit_csr_write_then_read : w0.isStream = false ∧ w0.hart.sys = false ∧
    (wit (fun h => { h with sys := true }) noCore).hart.sys = true := by decide +kernel
theorem wit_software_traps : w0.isStream = false ∧ w0.pfx = none ∧ (0xFFFFFFFF : BitVec 32) ≠ 0 := by decide +kernel
theorem wit_pallet_handler : let s := wit (fun h => { h with tvec := 0x2001 }) noCore
    s.cur.who = .hart 0 ∧ s.hart.sys = false ∧ s.hart.inh = false ∧ bitOf s.hart.tvec.toNat 0 = true ∧
    causeCat2 0x80 = true ∧ causeCat2 0xBF = true ∧ bitOf s.core.dbgctl.toNat 4 = false := by decide +kernel
/-- No handler; in the handler; a cause of another category. -/
theorem wit_system_firmware : w0.cur.who = .hart 0 ∧ w0.hart.sys = false ∧ w0.core.dbgctl = 0 ∧ causeToLc 0x0A = false ∧
    causeToLc 0x93 = false ∧ bitOf w0.hart.tvec.toNat 0 = false ∧ causeCat2 0x0A = false ∧ causeCat2 0x93 = true ∧
    (wit (fun h => { h with inh := true }) noCore).hart.inh = true := by decide +kernel
theorem wit_double_fault : (wit (fun h => { h with sys := true }) noCore).hart.sys = true ∧
    (wit (fun h => { h with sys := true }) noCore).cur.who = .hart 0 := by decide +kernel
/-- ERET outside a handler, in the pallet handler, at system privilege with NORST 0 and 1. -/
theorem wit_return_from_exception : w0.pfx = none ∧ w0.hart.sys = false ∧ w0.hart.inh = false ∧ w0.stepping = false ∧
    (let s := wit (fun h => { h with inh := true }) noCore; s.hart.sys = false ∧ s.hart.inh = true ∧ s.stepping = false) ∧
    (let s := wit (fun h => { h with sys := true }) noCore; s.hart.sys = true ∧ bitOf s.hart.tcause.toNat 63 = false) ∧
    bitOf (wit (fun h => { h with sys := true, tcause := 0x8000000000000000 }) noCore).hart.tcause.toNat 63 = true := by
  decide +kernel
theorem wit_prefix_pending : w0.cur.who = .hart 0 ∧ w0.pfx = none ∧ ((3 : BitVec 3) ≠ 0 ∨ (1 : BitVec 1) = 0) := by
  decide +kernel
/-- A core number outside, a running core, and a halted core with nothing outstanding. -/
theorem wit_system_instructions :
    let s := { wit (fun h => { regs2 5 192 6 191 h with sys := true }) noCore with
      cores := w0.cores.set 191 { Core.reset with dbgstat := 1 } }
    (192 ≤ ((wit (fun h => { regs2 5 192 6 191 h with sys := true }) noCore).getX 5).toNat) ∧
    (wit (fun h => { regs2 5 192 6 191 h with sys := true }) noCore).sys = true ∧
    s.cores[(191 : Fin 192)].halted = true ∧ s.cores[(191 : Fin 192)].ops = [] ∧
    (wit (fun h => { h with sys := true, wait := .quiesce 3 }) noCore).hart.wait = .quiesce 3 ∧
    w0.cores[(191 : Fin 192)].halted = false ∧ w0.sys = false ∧ w0.isStream = false ∧ w0.pfx = none := by decide +kernel
/-- Nothing outstanding; and a page-in under way. -/
theorem wit_tlb_invalidation : let s := wit (fun h => { h with sys := true }) noCore
    let i : Inval := { kind := 2, ctxid := (s.getX 0).setWidth 16, va := (s.getX 0).toNat }
    s.sys = true ∧ s.isStream = false ∧ s.pfx = none ∧ (s.tlbInvalidate i).tlbBusy i = false ∧
    (let t : State := { s with reqs := [
        { id := 0, die := 0, va := 0, ctxid := 0, epa := 0x200000, tier := 2, core := none, posted := true, level := 0,
          fcode := none, hold := none }] }
     (t.tlbInvalidate i).tlbBusy i = true) := by decide +kernel
/-- The partner of a running stream; and the only hart of a pallet in RUN. -/
theorem wit_end_of_hart :
    (let s := wit noHart fun c => { c with stream := { c.stream with running := true } }
     s.core.stream.running = true ∧ s.core.stream.partner = 0) ∧
    (let s := wit noHart fun c => { c with pallet := some { launch := 0, gang := 0, index := 0, size := 1, ctx := 0,
                                                            board := .run, streams := [], failed := none } }
     s.core.stream.running = false ∧ s.bars = [] ∧
     ((List.finRange 8).all fun k => k == 0 || s.core.harts[k].st == .absent) = true ∧
     (s.core.pallet.map (·.board)) = some .run) := by decide +kernel
/-- A record of zeros fails its check; one with its CRC passes; a queue of 63 records takes one more. -/
theorem wit_device_launch : let s := wit (regs2 5 0x1000 0 0) noCore
    (s.getX 5).toNat % 64 = 0 ∧ s.goodData 0x1000 64 = true ∧ s.lateWalk [0x1000] = none ∧
    s.reach { kind := .load, source := 1, device := true } (s.getX 5).toNat = some { pa := 0x1000, idem := true } ∧
    recordGood ((List.range 64).map fun i => readByte s.mem (0x1000 / 65536 * 65536 + (0x1000 + i) % 65536)) = false ∧
    recordGood (List.replicate 60 0 ++ bytesOfLe 4 (crc32c (List.replicate 60 0)).toNat) = true ∧
    (s.dies[s.dieNo]).devq.length < 64 := by decide +kernel

/-! ## Witnesses: selection, lists and verdicts -/

theorem wit_search :
    wv.vecReady { maskLegal [src 2 4] 0 ((4 : BitVec 4) != 15) with rsv := (5 : Reg) == 31 } [2] (kindsOf [src 2 4]) = true ∧
    wv.vecReady { vecLegal 1 32 (srcInt 2 32 :: [srcInt 3 32]) 0 (decide (8 ≤ (10 : BitVec 4).toNat ∧ (10 : BitVec 4).toNat ≤ 10))
      with width := max 32 32 } (regsOf 1 wv (srcInt 2 32 :: [srcInt 3 32])) (kindsOf (srcInt 2 32 :: [srcInt 3 32])) = true ∧
    wv.vecReady { vecLegal 1 32 ([src 1 10] ++ srcInt 2 32 :: []) 0 (decide (8 ≤ (10 : BitVec 4).toNat ∧ (10 : BitVec 4).toNat ≤ 10))
      with width := max 32 32 } (regsOf 1 wv ([src 1 10] ++ srcInt 2 32 :: [])) (kindsOf ([src 1 10] ++ srcInt 2 32 :: [])) =
        true := by decide +kernel
/-- Both kinds of a source: a type with an ABN and the raw binary32. -/
theorem wit_topk :
    wv.vecReady (maskLegal [{ reg := 2, width := 32, kind := .none }] 0 ((4 : BitVec 4) != 15)) [2]
      (kindsOf [{ reg := 2, width := 32, kind := .none }]) = true ∧
    wv.vecReady (maskLegal [src 2 2] 0 ((2 : BitVec 4) != 15)) [2] (kindsOf [src 2 2]) = true := by decide +kernel
/-- Capacities 0, 1, 64 and 65; a list with INIT 0; one with a capacity of 4 that holds one entry; one that is busy, one
whose merge is over with a failure, and one whose storage fails. -/
theorem wit_list_instructions :
    let s := wit (fun h => { regs2 5 0x1000 6 65 (vl4 h) with cmask := 1 }) fun c =>
      { top3 c with lists := c.lists.set 1 { init := true, int32 := false, cap := 4, entries := [(7, 9)], err := none,
                                             busy := false, merged := false } }
    let l := s.core.lists[(1 : Fin 4)]
    s.isStream = false ∧ s.pfx = none ∧ l.busy = false ∧ l.err = none ∧ HwUnit.list 1 ∉ s.core.flaws ∧ l.init = true ∧
    (let l0 : TkList := { l with entries := [] }
     let t := wit noHart fun c =>
       { c with flaws := [.list 2]
                lists := (c.lists.set 0 { l0 with busy := true }).set 1
                  { l0 with merged := true, err := some { cause := 0xA4, faddr := 0 } } }
     t.core.lists[(0 : Fin 4)].busy = true ∧ t.core.lists[(1 : Fin 4)].busy = false ∧ t.core.lists[(1 : Fin 4)].merged = true ∧
     t.core.lists[(1 : Fin 4)].err.isSome = true ∧ t.core.lists[(2 : Fin 4)].busy = false ∧
     t.core.lists[(2 : Fin 4)].err = none ∧ HwUnit.list 2 ∈ t.core.flaws) ∧ l.cap ≤ 64 ∧
    l.entries.length ≤ l.cap ∧ Memory.wf s.mem = true ∧ s.core.lists[(0 : Fin 4)].init = false ∧
    s.getX 0 = 0 ∧ 64 < (s.getX 6).toNat ∧ ((wit (regs2 5 1 6 64) top3).getX 5).toNat = 1 ∧
    ((wit (regs2 5 1 6 64) top3).getX 6).toNat = 64 ∧
    (s.mapsRange { kind := .store, source := 2, align := 8 } (s.getX 5).toNat 40).isSome = true ∧
    (s.mapsRange { kind := .load, source := 6, align := 8 } (s.getX 5).toNat 520).isSome = true ∧
    s.vecReady { vregs := [2, 3], vreads := [2, 3], width := 32 } [2, 3] [] = true ∧
    s.vecReady { vregs := [2], vreads := [2], width := 32 } [2] [] = true ∧ s.hart.vcBit 3 = false := by decide +kernel
/-- A full list in order, and an offer that is better than its last entry. -/
theorem wit_list_stays_ordered :
    let es : List (BitVec 32 × BitVec 32) := [(9, 1), (7, 3)]
    let l : TkList := { init := true, int32 := true, cap := 2, entries := es, err := none, busy := false, merged := false }
    l.entries.length ≤ l.cap ∧
    l.entries.Pairwise (fun x y => ordScore l.int32 y.1.toNat < ordScore l.int32 x.1.toNat ∨
      (ordScore l.int32 y.1.toNat = ordScore l.int32 x.1.toNat ∧ x.2.toNat < y.2.toNat)) ∧
    (l.entries.map (·.2)).Nodup ∧ (l.offer (8, 2)).entries = [(9, 1), (8, 2)] := by decide +kernel
/-- PHI below PLO is refused; a query of 64 int8 with 3 at position 5, planes 0 and 1: two terms. -/
theorem wit_term_lists :
    let s := { wit (fun h => { h with th := ((h.th.set 5 0x1000).set 6 0x2000).set 7 0x4 }) top3 with
      mem := writeByte w0.mem 0x1005 3 }
    let w := (s.getX 7).toNat
    (6 : Reg) ≠ 31 ∧ typeWidth 2 = 8 ∧ Memory.wf s.mem = true ∧
    ¬ (bitsOf w 10 54 ≠ 0 ∨ bitsOf w 0 2 = 3 ∨ bitsOf w 2 4 < bitsOf w 6 4 ∨ bitsOf w 2 4 = 15) ∧
    bitsOf 0x40 2 4 < bitsOf 0x40 6 4 ∧
    ((s.readsRangeTo { kind := .load, source := 1 } (s.getX 5).toNat 64 2).bind fun p =>
      let qs := p.1
      let n := ((List.range 64).filter fun i => decide ((BitVec.ofNat 8 (leOfBytes qs / 2 ^ (i * 8))).toInt ≠ 0)).length * 2
      if n = 2 then p.2.mapsRange { kind := .store, source := 2, align := 4 } (s.getX 6).toNat (4 * n) else none).isSome =
      true := by decide +kernel
/-- One term of weight 1 on dimension 0, SIGN, one plane of 64 dimensions at byte 0 of the scratch. -/
theorem wit_verdict_walk :
    let s := { wit (fun h => { vl4 h with th := ((h.th.set 5 0x1000).set 6 0x40000001).set 7 0 }) top3 with
      mem := writeLE w0.mem 0x1000 4 0x10000 }
    let x2 := s.getX 7
    let w := s.getX 6
    let k := dotWord w 0 0 x2
    s.vecReady { pred := true, copy := true, rsv := (0 : BitVec 2) == 3, ewOk := (4 : BitVec 4) == 4, vregs := [1], width := 32 } (1 :: s.copyReg) [] = true ∧
    s.hart.walk = none ∧ s.hart.replaying = false ∧ dotBad s.core w k x2 = false ∧
    k.boff + 4 + (1 + k.np) * (k.dim / 8) ≤ s.core.sb ∧
    s.readsRange { kind := .load, source := 1, align := 4 } (s.getX 5).toNat (4 * k.nterm) 0 = some [0, 0, 1, 0] ∧
    s.core.flaws = [] ∧ s.core.lists[k.list].busy = false ∧ s.core.lists[k.list].merged = false ∧
    s.core.lists[k.list].err = none ∧
    termBad k 0x10000 = false ∧ termsOrdered [0x10000] = true ∧ k.wait = false ∧ s.boundDelivery = false ∧
    (s.active.all fun j => (s.core.coursesOf s.cur.who.hartIx.val).contains (courseOfRow (s.coreRow j))) = true := by
  decide +kernel
/-- VMASKV with each value of its field, VCLRV, and VSELV of each kind. -/
theorem wit_leaving_verdict_class :
    let sr : Src := { reg := 2, width := 32, kind := .none }
    wv.vecReady { maskLegal [sr] 0 ((4 : BitVec 4) == 4 || (4 : BitVec 4) == 14) with rsv := decide (5 ≤ (3 : BitVec 3).toNat) }
      [2] [] = true ∧
    wv.vecReady (vecLegal 1 32 [sr] 0 ((4 : BitVec 4) == 4 || (4 : BitVec 4) == 14)) (regsOf 1 wv [sr]) [] = true ∧
    wv.vecReady { vecLegal 1 32 [sr] 0 ((4 : BitVec 4) == 4) with rsv := (0 : BitVec 2) == 3 } (regsOf 1 wv [sr]) [] = true ∧
    wv.vecReady { vecLegal 1 32 [sr] 64 ((14 : BitVec 4) == 14) with rsv := (1 : BitVec 2) == 3 } (regsOf 1 wv [sr]) [] =
      true ∧
    wv.vecReady { vecLegal 1 32 [sr] 128 ((14 : BitVec 4) == 14) with rsv := (2 : BitVec 2) == 3 } (regsOf 1 wv [sr]) [] =
      true ∧
    bitsOf 53 0 8 + 2 ≤ wv.core.sb ∧ wv.core.sb < bitsOf 54 0 8 + 2 ∧ bitsOf 0x400000 20 3 ≤ 4 ∧ bitsOf 0x400000 23 9 = 0 := by
  decide +kernel

/-! ## Witnesses: copies, tags and WAITC -/

/-- 64 bytes from memory to memory, from a row-local locator on, and to another hart's register; CPYM to core 0 of its own
gang. x5 = 0x1000, x6 = 0x2000, x7 the copy word, x8 the cores of CPYM. -/
def wc (a d w n : Word) : State :=
  wit (fun h => { vl4 h with th := ((((h.th.set 5 a).set 6 d).set 7 w).set 8 n) }) fun c =>
    { top3 c with pallet := some { launch := 0, gang := 0, index := 0, size := 1, ctx := 0, board := .run, streams := [],
                                   failed := none } }

theorem wit_copy_issue : let s := wc 0x1000 0x2000 64 1
    s.isStream = false ∧ s.pfx = none ∧ copyRegsBeyond false 7 0 = false ∧ copyRegsBeyond true 7 0 = false ∧
    s.core.tagBusy 0 = false ∧ s.core.tagBusy 63 = false ∧
    countOk .cpy 64 = true ∧ countOk .cpym 64 = true ∧ countOk .cpyr 64 = true ∧
    endOk s.core .cpy (.mem 0x1000) 64 = true ∧ endOk s.core .cpym (.pool 0x2000) 64 = true ∧
    endOk s.core .cpyr (.pool 0x2000) 64 = true ∧
    endOk s.core .cpy (.pool 0x8000006100000000) 64 = true ∧ locView 0x8000006100000000 = 2 ∧
    locRows 0x8000006100000000 64 = List.range 16 ∧ s.sameGang 0 = true ∧ maskCores s.dieNo.val (s.getX 8) = [0] ∧
    (s.copyMbarTo false false 6 8).map (·.1) = some none ∧
    ((s.endPagesTo { kind := .load, source := 6, device := true, align := 1 } (.mem 0x1000) 64).map (·.1)) = some [(0, 0, true)] ∧
    ((s.endPagesTo { kind := .store, source := 6, device := true, align := 1 } (.mem 0x2000) 64).map (·.1)) = some [(0, 0, true)] ∧
    ((s.endPagesTo { kind := .atomic, source := 6, device := false, align := 4 } (.mem 0x2000) 64).map (·.1)) =
      some [(0, 0, true)] ∧
    (s.modCore fun c => c.takeTag 63).core.tagBusy 63 = true := by decide +kernel
/-- Reserved bits, bit 31, a barrier-object bit without M, and binary32 outside CPYR. -/
theorem wit_copy_malformed : bitsOf 0x4000000000 38 26 ≠ 0 ∧ bitOf 0x80000000 31 = true ∧ bitOf 0x2000000000 37 = true ∧
    bitOf 0x1000000000 36 = true ∧ CopyKind.cpy ≠ .cpyr := by decide
/-- Rows of 4 bytes from 0x1000 on, each at index × 4 of v2, to byte 0 of the rows' scratch. -/
theorem wit_gathering_copy :
    let s := wc 0x1000 4 0x4003000000000000 0
    s.vecReady { pred := true, rsv := copyRegsBeyond true 5 0, vregs := [2], vreads := [2], width := 32 } [2] [(2, .int 32)] =
      true ∧ s.core.tagBusy 5 = false ∧ bitsOf (s.getX 6).toNat 53 11 = 0 ∧ bitOf (s.getX 6).toNat 52 = false ∧
    bitsOf 0x20000000000000 53 11 ≠ 0 ∧ bitOf 0x10000000000000 52 = true ∧ locForm (s.getX 7) = true ∧
    locRegs s.core (s.getX 7) = true ∧ copygRange (s.getX 7) s.active s.core = true ∧
    (s.copyMbarTo false false 5 7).map (·.1) = some none ∧ locRlen (s.getX 7) = 4 ∧
    (s.rangesTo { kind := .load, source := 5 } 4 [0x1000, 0x1000, 0x1000, 0x1000]).isSome = true ∧
    s.accessRows = [0, 1, 2, 3] := by decide +kernel
/-- No tag, a done tag, a busy tag, a failed tag. -/
theorem wit_tag_instructions :
    let s := wit (regs2 5 0 6 0x8) fun c => { c with ctag := ~~~0x8, cterr := 0x2 }
    s.isStream = false ∧ s.pfx = none ∧ s.getX 5 = 0 ∧ tagList (s.core.ctag &&& s.getX 6) = [] ∧
    s.core.ctag &&& s.getX 6 ≠ s.getX 6 ∧ s.core.tagBusy 3 = true ∧ s.core.tagFailed 1 = true ∧
    (let t := wit (regs2 5 0 6 0x8) noCore; tagList (t.core.ctag &&& t.getX 6) = [3] ∧ t.core.ctag &&& t.getX 6 = t.getX 6) :=
  by decide +kernel
/-- One copy outstanding: met for limits of 1 and of 63, not for 0; a held error. -/
theorem wit_wait_for_counts :
    let s := wit (fun h => { h with held := some { cause := 0x95, faddr := 0 } }) fun c =>
      { c with ops := [{ id := 0, home := 0, by_ := .hart 0, ctxid := 0, pages := [], past := [],
                         kind := .copy .cpy 0 0 (.mem 0) (.mem 0) 1 false none [0] none }] }
    s.cur.who = .hart 0 ∧ s.pfx = none ∧
    (s.core.ops.filter fun o => o.by_ == .hart 0 && EngineOp.isCopy o).length = 1 ∧
    (s.core.ops.filter fun o => o.by_ == .hart 0 && EngineOp.isSlab o).length = 0 ∧ s.hart.held.isSome = true := by
  decide +kernel

/-! ## Witnesses: key-value pages -/

/-- x5 names a request block at 0x1000: key slot 0x2000, value page 0x4000, sources 0x8000 and 0x9000, spares 0x3000 and
0xA000, a spare capacity of 1216 bytes, the capacity in `cap`, `nt` tokens of dimension 64, binary32, no truncation, split
3. A page lies in the key slot; its value page is zero. -/
def wk (nt : Byte) (cap page : List Host.Cell) : State :=
  { wit (regs2 5 0x1000 6 0) top3 with
    mem := [(3, 0x10), (4097, 0x20), (4105, 0x40), (4113, 0x80), (4121, 0x90), (4129, 0x30), (4137, 0xA0), (4144, 0xC0),
        (4145, 4)] ++ cap ++ (if nt = 0 then [] else [(4152, nt)]) ++ [(4154, 14), (4156, 3)] ++ page ++
      [(0x100000, 1), (0x100002, 0x20), (0x200000, 0x5F)] }

/-- A key page at 0x2000 of `n` tokens whose 64 elements are 1 (exponent 127, plane 14), with its REFC and its HCRC. -/
def kvPage (n : Nat) (refc : List Host.Cell) (crc : List Byte) : List Host.Cell :=
  [(8192, 1), (8194, 15), (8197, 64), (8198, BitVec.ofNat 8 n), (8199, 127), (8200, 127), (8204, 0xC0), (8205, 4),
    (8208, 0xC0), (8209, 4), (8216, 1)] ++ refc ++ crc.mapIdx (fun i b => (8252 + i, b)) ++
    (List.range n).map (fun k => (8256 + k, 127)) ++ (List.range n).map (fun k => (8320 + k, 1)) ++
    (List.range (8 * n)).map (fun k => (8896 + k, 0xFF))

def kvPage1 (refc : List Host.Cell) : List Host.Cell := kvPage 1 refc [228, 181, 112, 139]
def kvPage2 (refc : List Host.Cell) : List Host.Cell := kvPage 2 refc [224, 238, 64, 101]

def cap1216 : List Host.Cell := [(4148, 0xC0), (4149, 4)]

/-- Both outcomes of the capacity test: 704 bytes are the least for dimension 64. -/
theorem wit_key_value_store :
    (((wk 1 cap1216 []).orderAll.finds (readReq .st 5)).bind fun p => (p.2.finds (kvPhaseSt p.1)).map fun _ => (p.1.cap, p.1.d)) =
      some (1216, 64) ∧
    (((wk 1 [(4148, 0x40)] []).orderAll.finds (readReq .st 5)).bind fun p => (p.2.finds (kvPhaseSt p.1)).map fun _ => p.1.cap) =
      some 64 := by decide +kernel
theorem wit_key_value_store_fits :
    let t : KeyTok := { etok := 0, mult := 1, elems := List.replicate 64 (false, 0) }
    ({ d := 64, t := 0, cap := 704, chop := false, swtag := 0, refc := 1, toks := [t] } : KvImage).fits = true ∧
    ({ d := 64, t := 0, cap := 640, chop := false, swtag := 0, refc := 1, toks := [t] } : KvImage).fits = false := by
  decide +kernel

/-- What KVAPP and KVFOLD find: the tokens of the request and of the page, COUNT and COPIERS. -/
def kvFound (s : State) (k : KvMinor) : Option (Nat × Nat × Nat × Nat) :=
  (s.orderAll.finds (readReq k 5)).bind fun p =>
    (if k = .app then p.2.finds (kvPhaseApp p.1) else p.2.finds (kvPhaseFold p.1)).map fun q =>
      let c := refcOf (leOfBytes (q.1.1.read q.2.mem (p.1.kslot + 48) 4))
      (p.1.nt, q.1.2.ntok, c.1, c.2)

/-- A page owned by one sequence: the token next to the last; and one being copied. -/
theorem wit_append_in_place : kvFound (wk 1 cap1216 (kvPage1 [(8240, 1)])) .app = some (1, 1, 1, 0) := by decide +kernel
theorem wit_append_waits : kvFound (wk 1 cap1216 (kvPage1 [(8240, 1), (8242, 1)])) .app = some (1, 1, 1, 1) := by
  decide +kernel
/-- A stale request for a token behind or before the end, and a full page. -/
theorem wit_append_stale : kvFound (wk 2 cap1216 (kvPage1 [(8240, 1)])) .app = some (2, 1, 1, 0) := by decide +kernel
theorem wit_append_stale_below : kvFound (wk 0 cap1216 (kvPage1 [(8240, 1)])) .app = some (0, 1, 1, 0) := by decide +kernel
theorem wit_append_full : kvFound (wk 64 cap1216 (kvPage1 [(8240, 1)])) .app = some (64, 1, 1, 0) := by decide +kernel
theorem wit_append_by_copy : kvFound (wk 1 cap1216 (kvPage1 [(8240, 2)])) .app = some (1, 1, 2, 0) := by decide +kernel
/-- Two equal tokens; a page that is shared; one token alone. -/
theorem wit_fold : kvFound (wk 0 cap1216 (kvPage2 [(8240, 1)])) .fold = some (0, 2, 1, 0) := by decide +kernel
theorem wit_fold_shared : kvFound (wk 0 cap1216 (kvPage2 [(8240, 2)])) .fold = some (0, 2, 2, 0) := by decide +kernel
theorem wit_fold_alone : kvFound (wk 0 cap1216 (kvPage1 [(8240, 1)])) .fold = some (0, 1, 1, 0) := by decide +kernel
theorem wit_fold_similar :
    let t : KeyTok := { etok := 127, mult := 1, elems := List.replicate 64 (false, 16384) }
    similar 0x3F800000 t t = true ∧ similar 0x3F800000 t { t with elems := List.replicate 64 (true, 16384) } = false := by
  decide +kernel

/-- A sequence descriptor at 0x1000 with a page list at 0x1100 of one entry of 1 token, whose key page is the one at
0x2000; x5 names the descriptor, x6 is the position 0, x7 the limit 1. -/
def ws : State :=
  { wit (fun h => { h with vl := 1, th := ((h.th.set 5 0x1000).set 6 0).set 7 1, cmask := 1 }) top3 with
    mem := [(3, 0x10), (0x1001, 0x11), (0x1008, 1), (0x1101, 0x20), (0x1109, 0x40), (0x110F, 1)] ++
      kvPage1 [(8240, 1)] ++ [(0x100000, 1), (0x100002, 0x20), (0x200000, 0x5F)] }

theorem wit_set_length_of_run : (5 : Reg).toNat < 30 ∧
    min (ws.getX 7).toNat (min ws.core.vlpwr.toNat ws.core.vlmax) = 1 ∧
    ((ws.orderAll.finds (readDesc (scalarSeq 2) (ws.getX 5).toNat)).bind fun p =>
      (p.2.finds (remaining (scalarSeq 2) p.1 (ws.getX 6).toNat 1)).map fun q => q.1.1) = some 1 := by decide +kernel
/-- One plane, PTOP 14, at byte 0 of the scratch. -/
theorem wit_plane_delivery_issue : let c := kvldCtl 0x1E0000000000
    c.np = 1 ∧ c.ptop = 14 ∧ bitsOf 0x1E0000000000 48 16 = 0 ∧ ws.isStream = false ∧ ws.hart.cmask ≠ 0 ∧
    ws.core.tagBusy 3 = false ∧ pfxBroken { pred := true } ws.pfx = false ∧ ws.pfx = none ∧
    ((ws.finds (readDesc (kvSeq 2) (ws.getX 5).toNat)).bind fun p =>
      (p.2.finds (remaining (kvSeq 2) p.1 0 1)).bind fun q =>
        let held := ws.active.filterMap fun j =>
          (q.1.2.find? fun e => e.1 == (c.pos + j) / 64).map fun e => (j, e.2.kpage, (c.pos + j) % 64)
        (q.2.finds (kvldHeaders false 2 p.1 (held.map (·.2.1)).eraseDups)).bind fun h =>
          (h.2.finds (kvldSlots false (kvDim p.1.dcode) c (fun k => (held.filter (·.2.1 == k)).map (·.2.2)) (sortFst h.1))).map
            fun r => (q.1.1, decide (c.boff + 4 + (1 + c.np) * (kvDim p.1.dcode / 8) ≤ ws.core.sb), r.1.2)) =
      some (1, true, [0x2000]) := by decide +kernel

/-! ## Witnesses: the slab -/

/-- The stream of core 0 moves, with hart 0 as its partner. -/
def wt (f : Thread → Thread) (g : Core → Core) : State :=
  { wit noHart fun c => { g (top3 c) with stream := { (g (top3 c)).stream with running := true, th := f c.stream.th } } with
    cur := { core := 0, who := .stream } }

def noThread (t : Thread) : Thread := t

/-- An operation of the slab that a party has issued. -/
def slabOp (w : Who) : EngineOp := { id := 0, home := 0, by_ := w, ctxid := 0, pages := [], past := [], kind := .szero 0 true }

theorem wit_stream_start : let s := wit noHart top3
    s.cur.who = .hart 0 ∧ s.pfx = none ∧ s.core.stream.running = false ∧ s.core.acol ≠ 0 ∧ firstOfThreeBad 29 = false ∧
    (wit noHart fun c => { c with stream := { c.stream with running := true } }).core.stream.running = true := by
  decide +kernel
theorem wit_stream_refusals : (wt noThread noCore).cur.who = .stream := by decide +kernel
/-- On the hart: no stream, slab work under way, the first to come, the second to come. -/
theorem wit_stream_meeting_hart :
    (let s := w0; s.cur.who = .hart 0 ∧ s.hart.wait ≠ .departed ∧ s.core.stream.running = false) ∧
    (let s := wit noHart fun c => { c with stream := { c.stream with running := true }, ops := [slabOp (.hart 0)] }
     s.core.stream.running = true ∧ s.core.stream.partner = 0 ∧ s.slabBusy = true) ∧
    (let s := wit noHart fun c => { c with stream := { c.stream with running := true } }
     s.slabBusy = false ∧ s.hart.held = none ∧ s.core.stream.rdv = none) ∧
    (let s := wit noHart fun c => { c with stream := { c.stream with running := true, rdv := some false } }
     s.slabBusy = false ∧ s.core.stream.rdv.isSome = true) := by decide +kernel
/-- On the stream: the second to come, the first to come. -/
theorem wit_stream_meeting_stream :
    (let s := wt noThread fun c => c.modHart 0 fun h => { h with wait := .rdv }
     s.isStream = true ∧ s.slabBusy = false ∧ s.core.stream.held = none ∧
     s.core.harts[s.core.stream.partner].wait = .rdv ∧ s.core.harts[s.core.stream.partner].st = .running) ∧
    (let s := wt noThread noCore
     s.slabBusy = false ∧ s.core.harts[s.core.stream.partner].wait ≠ .rdv) := by decide +kernel
theorem wit_tile_sizes :
    (let s := wt noThread noCore; s.isStream = true ∧ s.core.preempt = false ∧ s.core.stream.held = none) ∧
    (wt noThread fun c => { c with preempt := true }).core.preempt = true ∧
    ((wt noThread fun c => { c with stream := { c.stream with held := some { cause := 0x92, faddr := 0 } } }).core.stream.held).isSome
      = true := by decide +kernel

/-- x5 = 0x1000; there lies a record of some bytes. -/
def wr (bs : List Host.Cell) (g : Core → Core) : State :=
  { wt (fun t => (t.set 5 0x1000).set 6 0x1100) g with
    mem := [(3, 0x10)] ++ bs ++ [(0x100000, 1), (0x100002, 0x20), (0x200000, 0x5F)] }

/-- A record of zeros has MLEN 0; one of a row of 32 elements of code 12 at 0x2000 is good. -/
theorem wit_stream_bindings :
    let f := fun (bs : List Byte) (o k : Nat) => leOfBytes ((bs.drop o).take k)
    let good := fun (bs : List Byte) => f bs 0x1F 1 = 0 ∧ bitOf (f bs 0x1E 1) 3 = false ∧ f bs 0x1D 1 < 8 ∧
      f bs 0x1C 1 ∈ [0, 1, 2, 12, 13, 15] ∧ 1 ≤ f bs 0x14 4 ∧ f bs 0x14 4 ≤ 2 ^ 31 ∧ 1 ≤ f bs 0x18 4 ∧
      f bs 0x18 4 ≤ 2 ^ 31 ∧ (f bs 8 8 ≠ 0 → f bs 0x1C 1 = 15) ∧ (bitOf (f bs 0x1D 1) 0 = true → f bs 0 8 < 2 ^ 40)
    (((wr [] noCore).readsRangeTo { kind := .load, source := 7, align := 8 } 0x1000 32 2).any fun p => decide ¬ good p.1) = true ∧
    (((wr [(0x1001, 0x20), (0x1014, 1), (0x1018, 32), (0x101C, 12)] noCore).readsRangeTo
      { kind := .load, source := 7, align := 8 } 0x1000 32 2).any fun p => decide (good p.1)) = true ∧
    ((wr [] noCore).getX 5).toNat = 0x1000 ∧ (wr [] noCore).core.stream.held = none := by decide +kernel
/-- SLDB: one column of one element of code 2 at 0x2000; SLDBG: block codes with an index list of one entry at 0x1100. -/
theorem wit_buffer_loads :
    let s := wr [(0x1001, 0x20), (0x100C, 1), (0x100F, 2)] noCore
    let t := wr [(0x1001, 0x20), (0x100C, 1), (0x100F, 15), (0x1014, 14)] noCore
    s.isStream = true ∧ s.core.stream.held = none ∧
    ((s.readsRangeTo { kind := .load, source := 7, align := 8 } 0x1000 32 2).bind fun p =>
      (p.2.finds (checkSegments false (loadSegments { code := 2, tb8 := false } 1 1 0 0 0 0x2000 none []))).map
        fun q => (leOfBytes ((p.1.drop 0xF).take 1), q.1)) = some (2, [(0, 0, true)]) ∧
    ((t.readsRangeTo { kind := .load, source := 7, align := 8 } 0x1000 32 2).bind fun p =>
      (p.2.readsRangeTo { kind := .load, source := 7, align := 4 } 0x1100 4 2).bind fun i =>
        (i.2.finds (checkSegments false (loadSegments { code := 15, tb8 := false } 1 1 0 0 0 0x2000 (some 14) [0]))).map
          fun q => (leOfBytes ((p.1.drop 0x14).take 1), i.1, q.1.isEmpty)) = some (14, [0, 0, 0, 0], false) := by
  decide +kernel

/-- A buffer of one column of 32 elements of int8, and a binding of one row of 32. -/
def bData : BData := { fmt := { code := 2, tb8 := false }, k := 32, n := 1, spmc := 0, spn := 0,
                       columns := [[{ e0 := 0, e1 := 0, codes := List.replicate 32 (some 1) }]] }
def bindRow : Binding := { base := 0x2000, scale := 0, stride := 0, mlen := 1, klen := 32, fmt := { code := 2, tb8 := false },
                           pool := false, mFirst := false, split := 3, oc := 0, row := 0, col := 0 }
/-- x5 is the product word, x6 to x8 the sizes. -/
def wp (w m n k : Word) (g : Core → Core) : State := wt (fun t => (((t.set 5 w).set 6 m).set 7 n).set 8 k) g

theorem wit_matrix_products :
    (let s := wp 0 0 1 1 noCore; (s.getX 6).toNat = 0 ∧ s.isStream = true ∧ s.core.acol ≠ 0 ∧ firstOfThreeBad 6 = false) ∧
    bitsOf 0x80000 19 45 ≠ 0 ∧ bitOf 0x10 4 = true ∧
    (wp 0 1 1 32 noCore).core.bb[bufIx 0] = .empty ∧
    (wp 0 1 1 32 fun c => { c with bb := c.bb.set 0 (.loading 3) }).core.bb[bufIx 0] = .loading 3 ∧
    (let s := wp 0 1 1 32 fun c => { c with bb := c.bb.set 0 (.full bData), tileInt := 1 }
     s.core.bb[bufIx 0] = .full bData ∧ (s.getX 7).toNat ≤ bData.n ∧ 32 * 0 + (s.getX 8).toNat ≤ bData.k ∧
     s.core.binds[dieIx 0] = none) ∧
    bindRow.exhausted = false ∧ { bindRow with row := 1 }.exhausted = true ∧ bindRow.fmt.isBlock = bData.fmt.isBlock ∧
    (let s := wp 0 1 1 32 fun c => { c with bb := c.bb.set 0 (.full bData), binds := c.binds.set 0 (some bindRow), tileInt := 1 }
     s.core.tileInt.getLsbD 0 = !bindRow.fmt.isBlock ∧ s.core.stream.held = none ∧
     ((s.finds (checkSegments false (bindRow.strip 1 32))).map (·.1)) = some [(0, 0, true)]) := by decide +kernel
/-- One row of one binary32 at byte 0; a leading dimension of 0; 4 bytes beyond the scratch of 65536 × 55 bytes. -/
theorem wit_tile_operations :
    let w := 0x800000
    bitsOf w 53 11 = 0 ∧ bitsOf w 46 7 + 1 ≤ bitsOf w 23 16 ∧ bitsOf w 0 23 % 4 = 0 ∧ ¬ (bitsOf 0 46 7 + 1 ≤ bitsOf 0 23 16) ∧
    (let s := wt (fun t => t.set 5 0x800000) noCore
     s.pfx = none ∧ s.core.acol ≠ 0 ∧ s.core.stream.held = none ∧ s.core.tileInt.getLsbD 0 = false ∧
     bitsOf w 0 23 + ((bitsOf w 39 7 + 1 - 1) * bitsOf w 23 16 + (bitsOf w 46 7 + 1)) * 4 ≤ 65536 * s.core.sb ∧
     65536 * s.core.sb = 3604480 ∧ 65536 * s.core.sb < bitsOf (w + 3604480) 0 23 + 1 * 4) := by decide +kernel
theorem wit_tile_to_vector :
    wv.vecReady { rsv := rmReserved 0 || (false && (0 : BitVec 3) != 0), tile := true, vregs := [1], width := typeWidth 14,
                  wk := 0, ewOk := (14 : BitVec 4) == 14 } [1] [] = true ∧
    wv.vecReady { rsv := rmReserved 0, tile := true, vregs := [1], width := typeWidth 12, wk := 32,
                  ewOk := (12 : BitVec 4) == 12 } [1] [] = true ∧
    wv.core.tileInt.getLsbD 0 = false ∧
    (wit vl4 fun c => { top3 c with tileInt := 1 }).core.tileInt.getLsbD 0 = true := by decide +kernel

/-- A problem of size 1 on tiles 0 and 1: element x, coefficient k0. -/
def wi (x k0 : BitVec 32) (cap : BitVec 8) : State :=
  wt (fun t => t.set 5 1) fun c => { c.writeTile 0 0 0 x with coef := c.coef.set 0 k0, slcap := cap }

/-- What an iteration of MODE 0 finds: the residual. -/
def residualOf (s : State) : Nat :=
  let x := s.core.corner 0 1
  ((do let y ← newtonSchulz 3 1 s.core.coefAt false x
       residual 1 x y : Flagged Nat).run 0).1

/-- X = 0: the residual is 0. X = 1 with k0 = 2: 1/2, above SLTOL, with SLCAP 16 and 1. X a NaN: a NaN. -/
theorem wit_resident_iteration :
    (let s := wi 0 0 16
     s.isStream = true ∧ s.core.acol ≠ 0 ∧ s.core.laidOut = true ∧ s.sound = true ∧ s.slabBusy = false ∧
     s.core.stream.held = none ∧ s.core.preempt = false ∧ (s.getX 5).toNat = 1 ∧ s.core.slcap ≠ 0 ∧
     ((List.range 4).all fun k => !s.core.tileInt.getLsbD k) = true ∧ bitOf s.core.slphase.toNat 0 = false ∧
     residualOf s = 0) ∧
    residualOf (wi 0x3F800000 0x40000000 16) = 0x3F000000 ∧
    (FFmt.f.cmp .le 0x3F000000 (wi 0 0 16).core.sltol.toNat).1 = false ∧ ¬ ((16 : BitVec 8).toNat ≤ 0 + 1) ∧
    (wi 0x3F800000 0x40000000 1).core.slcap.toNat ≤ 0 + 1 ∧
    (FFmt.f.decode (residualOf (wi 0x7FC00000 0 16))).isNan = true := by decide +kernel
/-- Size 1 with J = 1; J = 0 is refused. -/
theorem wit_resident_polynomial :
    let w := 0x101
    bitsOf w 14 50 = 0 ∧ bitsOf w 0 8 = 1 ∧ bitsOf w 8 3 = 1 ∧ bitsOf 1 8 3 = 0 ∧ (wi 0 0 16).core.stream.held = none := by
  decide +kernel

/-! ## Witnesses: engine operations, walks, polls and page-ins -/

/-- Core 0 with one outstanding operation. -/
def wo (by_ : Who) (pages : List (Nat × Nat × Bool)) (k : OpKind) : State :=
  wit noHart fun c => { top3 c with ops := [{ id := 0, home := 0, by_ := by_, ctxid := 0, pages := pages, past := [], kind := k }], nextOp := 1 }

/-- 4 bytes of the page at 0 from 0x1000 to 0x2000; with a bad sector. -/
theorem wit_copy_completion :
    let s := wo (.hart 0) [(0, 0, true)] (.copy .cpy 63 0 (.mem 0x1000) (.mem 0x2000) 4 false none [0] none)
    (s.cores[(0 : Fin 192)].ops.find? (·.copyOn 63 0)).isSome = true ∧ Memory.wf s.mem = true ∧
    ((List.range 4).map fun i => (PageMap.pa [(0, 0, true)] (0x1000 + i), PageMap.pa [(0, 0, true)] (0x2000 + i))) =
      [(0x1000, 0x2000), (0x1001, 0x2001), (0x1002, 0x2002), (0x1003, 0x2003)] ∧
    regionOf 0x1000 ≠ .regs ∧ regionOf 0x2003 ≠ .regs ∧ s.sectorBad 0x1000 = false ∧
    ({ s with bad := [0x40] } : State).sectorBad 0x1000 = true := by decide +kernel
/-- The last element of a gather, in the last row of a slice. -/
theorem wit_gather_arrival :
    let s := wo (.hart 0) [(0, 0, true)] (.gather 0 15 none 4 [(2047, 0x1000)] [(2047, 0x1000)])
    let C := s.cores[(0 : Fin 192)]
    (C.ops.find? fun p => p.id == 0).isSome = true ∧ ([(2047, 0x1000)].find? (·.1 == 2047)) = some (2047, 0x1000) ∧
    C.laidOut = true ∧ 15 < C.nv ∧ 8 * 4 ≤ C.fw ∧ (C.row (C.row0 0 + 2047)).chk = 0 ∧ s.bad = [] ∧ C.failedSlices = [] := by
  decide +kernel
/-- The slot of the arrays and the last slot, for one row whose page lies at 0x2000. -/
theorem wit_plane_delivery :
    let s := { wo (.hart 0) [(0, 0, true)] (.planes 3 0 false 0 1 14 64 0 [(0, 0x2000, 0)] []) with
      mem := [(3, 0x10)] ++ kvPage1 [(8240, 1)] ++ [(0x100000, 1), (0x100002, 0x20), (0x200000, 0x5F)] }
    let C := s.cores[(0 : Fin 192)]
    let h := deliveryHeader (PageMap.read [(0, 0, true)] s.mem 0x2000 64) 64
    (C.ops.find? (·.planesOn 3)).isSome = true ∧ s.bad = [] ∧ C.laidOut = true ∧ (C.rows.all fun p => p.2.chk == 0) = true ∧
    C.scol0 + 8 * slotOff 64 0 0 + 8 * 12 ≤ 1024 ∧ C.scol0 + 8 * slotOff 64 0 1 + 8 * 8 ≤ 1024 ∧
    (slotBytes h 64 0 0 ((slotRanges 64 h 14 0 0).map fun p => PageMap.read [(0, 0, true)] s.mem (0x2000 + p.1) p.2)).length = 12 ∧
    slotBytes h 64 1 0 ((slotRanges 64 h 14 1 0).map fun p => PageMap.read [(0, 0, true)] s.mem (0x2000 + p.1) p.2) =
      List.replicate 8 0xFF := by decide +kernel
/-- Clearing the last tile; and a product of one row of one int8 with a buffer of one column. -/
theorem wit_slab_completion :
    (let C := (wo .stream [] (.szero 7 true)).cores[(0 : Fin 192)]
     C.slabBlocked { id := 0, home := 0, by_ := .stream, ctxid := 0, pages := [], past := [], kind := .szero 7 true } = false ∧
     C.laidOut = true ∧ C.acol ≠ 0 ∧ (C.rows.all fun p => p.2.chk == 0) = true) ∧
    bindRow.fmt.isBlock = false ∧ bindRow.pool = false ∧
    (let k : OpKind := .smma bindRow 0 0 bData 0 0 1 1 32
     (wo .stream [(0, 0, true)] k).cores[(0 : Fin 192)].slabBlocked
       { id := 0, home := 0, by_ := .stream, ctxid := 0, pages := [(0, 0, true)], past := [], kind := k } = false) := by decide +kernel
/-- One column of one int8; and metadata that break R303. -/
theorem wit_buffer_loaded :
    let k : OpKind := .bload 0 { code := 2, tb8 := false } 1 1 0 0 0 3 0x2000 false none []
    let s := (wo .stream [(0, 0, true)] k).modCore fun c => { c with bb := c.bb.set 0 (.loading 0) }
    let rd := fun y => readByte s.mem (PageMap.pa [(0, 0, true)] y)
    s.cores[(0 : Fin 192)].bb[(0 : Fin 2)] = .loading 0 ∧
    s.cores[(0 : Fin 192)].slabBlocked { id := 0, home := 0, by_ := .stream, ctxid := 0, pages := [(0, 0, true)], past := [], kind := k } = false ∧
    (loadData rd { code := 2, tb8 := false } 1 1 0 0 0 3 0x2000 none []).isSome = true ∧
    loadData rd { code := 2, tb8 := false } 8 1 0 1 2 3 0x2000 none [] = none := by decide +kernel
/-- An image of zeros is one of an empty list of scores; one with a byte of its reserved field set is not. -/
theorem wit_merge_completion :
    let s := wo (.hart 0) [(0, 0, true)] (.merge 3 0x3000)
    (s.cores[(0 : Fin 192)].ops.find? (·.mergeOn 3)).isSome = true ∧ s.bad = [] ∧
    PageMap.read [(0, 0, true)] s.mem 0x3000 4 = [0, 0, 0, 0] ∧ s.cores[(0 : Fin 192)].lists[(3 : Fin 4)].int32 = false ∧
    readByte (writeByte s.mem 0x3003 1) 0x3003 = 1 := by decide +kernel
/-- A waiting walk with a free walker, and with 384 walks under way; the two waits of a hart. -/
theorem wit_waiters_go_on :
    (let w : WalkAsk := { ctxid := 0, page := 5, time := 0, core := 0 }
     let s := w0.modDie 0 fun d => { d with walkWait := [w] }
     s.dies[(0 : Fin 4)].walkWait = [w] ∧ s.dies[(0 : Fin 4)].walks.length < 384) ∧
    (let w : WalkRun := { ctxid := 0, page := 0, until_ := 9, core := 0, result := .invalid }
     384 ≤ ((w0.modDie 0 fun d => { d with walks := List.replicate 384 w }).dies[(0 : Fin 4)]).walks.length) ∧
    (wit (fun h => { h with wait := .kvapp }) noCore).cores[(0 : Fin 192)].harts[(0 : Fin 8)].wait = .kvapp ∧
    (wit (fun h => { h with waitStart := some 0 }) noCore).cores[(0 : Fin 192)].harts[(0 : Fin 8)].waitStart.isSome = true := by
  decide +kernel

/-- One entry in Epvimond's log. -/
def logOne : LogEntry := { addr := 0, time := 0, kind := 1, cause := 0, die := 0, hand := 0, core := 0, aux := 0 }
/-- A ring descriptor at 0x3000: 16 records at 0x4000, consumer index at 0x3020; `full` puts 16 records between the
indexes. -/
def wlog (full : Bool) : State :=
  { w0 with
    log := [logOne], logring := 0x3000
    mem := [(3, 0x10), (0x3001, 0x40), (0x3008, 4)] ++ (if full then [(0x300C, 16)] else []) ++
      [(0x3010, 0x20), (0x3011, 0x30), (0x100000, 1), (0x100002, 0x20), (0x200000, 0x5F)] }
def RingResult.name : RingResult → Nat
  | .written _ => 0
  | .full => 1
  | .refused _ => 2

theorem wit_log_delivery : (wlog false).logring ≠ 0 ∧ (wlog false).log = [logOne] ∧
    RingResult.name ((wlog false).ringProduce (wlog false).physTr 0x3000 fun _ => List.replicate 32 0) = 0 ∧
    RingResult.name ((wlog true).ringProduce (wlog true).physTr 0x3000 fun _ => List.replicate 32 0) = 1 := by decide +kernel
/-- A request for a page of 64 KiB whose entry is at 0x200000, and its completion with the frame 5, with code 0x81, 0x8F, a
memory cause and one that is none of them; the same for a page of tier 1 behind a port. -/
theorem wit_page_in_completion :
    let r : PageReq := { id := 0, die := 0, va := 0, ctxid := 1, epa := 0x200000, tier := 2, core := none, posted := true,
                         level := 0, fcode := none, hold := none }
    let s : State := { w0 with reqs := [r], ctxroot := w0.ctxroot.set 0 0x11, ctxpart := w0.ctxpart.set 0 0x8000000000000001 }
    s.reqs.find? (·.id == 0) = some r ∧ Memory.wf s.mem = true ∧ s.slotOf r.ctxid = some 0 ∧ s.pgnring[ix64 0] = 0 ∧
    (s.pgnmode[ix64 0]).toNat % 4 = 0 ∧ 5 * 65536 % 2 ^ pageBits r.level = 0 ∧ 5 * 65536 + 2 ^ pageBits r.level ≤ Config.hbmSize ∧
    fcodeValid 0 = true ∧ fcodeValid 0x81 = true ∧ fcodeValid 0x8F = true ∧ fcodeValid 0x7E = true ∧ fcodeValid 0x90 = false ∧
    (let t : State := { s with reqs := [{ r with tier := 1, va := 0x10000 }]
                               mem := writeLE s.mem r.epa 8 0x8000000000041 }
     let src := t.fabric (leafFrame (readLE t.mem r.epa 8))
     (portOf (leafFrame (readLE t.mem r.epa 8))).isSome = true ∧ 6 * 65536 ≤ src ∧ r.epa + 8 ≤ src ∧
     t.anyBad src 65536 = false) := by decide +kernel

/-! ## Witnesses: queues, launches, images and debug halts -/

/-- Boot is over and both host ports are host roles. -/
def ready (s : State) : State := { s with bootstat := 0x601, roles := 3 }

/-- A launch of one pallet of queue 0. -/
def launchOne (state : LaunchState) (waits : List (Nat × Nat)) (ring : Nat) : Launch :=
  { id := 0, queue := 0, home := 0, ctx := 0, prio := 0, gang := 1, count := 1, pword := 0x3754, seq := 0, ring := ring,
    signal := 0, kernel := .none, wins := [], waits := waits, streams := [], state := state, nextGang := 0, since := 0,
    bytes := 0, pdone := 0, pfail := 0, firstFail := none, ports := 0, killed := [], hold := none, flushed := false,
    overAt := none }

/-- Core 0 runs pallet 0 of launch 0. -/
def palletOne (board : BoardState) : Pallet :=
  { launch := 0, gang := 0, index := 0, size := 1, ctx := 0, board := board, streams := [], failed := none }

theorem wit_queue_register_writes : let s := ready w0
    s.hostPort 0 = true ∧ s.hostPort 1 = true ∧ s.bootReady = true ∧ s.ownsQueue 0 15 = true ∧ s.ownsQueue 1 16 = true ∧
    bitOf 0x16 4 = true ∧ (s.queues[(0 : Fin 32)]).en = false ∧
    ({ (QueueRegs.reset) with cfg := 0x14 } : QueueRegs).en = true := by decide +kernel
/-- Queue 0 with four slots at 0x4000 holds one record: zeros, which fail their check; and a good record. -/
def wq (tries : Nat) (mem : List Host.Cell) : State :=
  { ready w0 with
    queues := w0.queues.set 0 { base := 0x4000, cfg := 0x12, tail := 1, head := 0, stat := 0, tries := tries }
    mem := mem }
theorem wit_slot_reads :
    (wq 0 w0.mem).queueReads 0 = true ∧ (wq 16 w0.mem).queueReads 0 = true ∧ (wq 17 w0.mem).queueDue 0 = true ∧
    ({ wq 17 w0.mem with linkUp := w0.linkUp.set 0 false } : State).queueDue 0 = true ∧
    ((wq 17 w0.mem).msixEntry 0 0).masked = true ∧ (wq 17 w0.mem).msixPending = [] ∧
    (({ wq 17 w0.mem with msixTable := [{ port := 0, vector := 0, addr := 0, data := 0, masked := false }] } : State).msixEntry 0
      0).masked = false ∧
    ((wq 0 w0.mem).slotRead 0).1 = none ∧
    (let bs := List.replicate 60 (0 : Byte)
     let m := writeLE w0.mem 0x403C 4 (crc32c bs).toNat
     ((wq 0 m).slotRead 0).1.isSome = true ∧ msgField bs 0x35 1 = 0) ∧
    (let bs := List.replicate 53 (0 : Byte) ++ [1] ++ List.replicate 6 0
     let m := writeLE (writeByte w0.mem 0x4035 1) 0x403C 4 (crc32c bs).toNat
     ((wq 0 m).slotRead 0).1.isSome = true ∧ msgField bs 0x35 1 = 1) := by decide +kernel
/-- The rows of R369 on a record of zeros, of a context that is valid, with a kernel at address 0 and without: order 1, no
kernel, a partition word that is refused, no quad, and accepted. -/
theorem wit_record_checks :
    let zero := fun (_ _ : Nat) => 0
    let s := { ready w0 with ctxpart := w0.ctxpart.set 0 0x8000000000000001 }
    let l := launchOf 0 0 0 0 0 zero
    let known := fun (w part : Word) =>
      (({ s with kernels := [Kernel.none], ctxpart := w0.ctxpart.set 0 part } : State).examine { l with pword := w } zero).1
    recordBad (ready w0) l zero = true ∧ recordBad s l zero = false ∧ (argTable (List.replicate 128 0)).isSome = true ∧
    argTable (List.replicate 128 1) = none ∧ s.kernels = [] ∧ pwordBad 0x3754 .none = false ∧ pwordBad 0 .none = true ∧
    streamList .none 0x3754 [] = some [] ∧ (known 0x3754 0x8000000000000001).isOk = true ∧
    (match known 0 0x8000000000000001 with | .error c => c | .ok _ => 0) = 0x13 ∧
    (match known 0x3754 0x8000000000000000 with | .error c => c | .ok _ => 0) = 0x17 := by decide +kernel
theorem wit_device_queues :
    let s := ready (w0.modDie 3 fun d => { d with devq := [(List.replicate 64 0, 0)] })
    s.dies[(3 : Fin 4)].devq = [(List.replicate 64 0, 0)] ∧ s.mayTake 35 3 = true ∧ s.reaches 2 = true := by decide +kernel
/-- A wait for a word of at least 0, which is met, and of at least 1, which is not. -/
theorem wit_launch_waits :
    let s := fun (w : Nat) => { w0 with launches := [launchOne .waiting [(0x3000, w)] 0],
                                        ctxroot := w0.ctxroot.set 0 0x100000 }
    (s 0).launch? 0 = some (launchOne .waiting [(0x3000, 0)] 0) ∧ ((s 0).queueHead 0).map (·.id) = some 0 ∧
    ((s 0).waitsMet ((s 0).lcAgent 0 0) [(0x3000, 0)]).1.toOption = some true ∧
    ((s 1).waitsMet ((s 1).lcAgent 0 0) [(0x3000, 1)]).1.toOption = some false := by decide +kernel
/-- One candidate, and core 0 fits it. -/
theorem wit_placement :
    let s := { w0 with launches := [launchOne .placing [] 0], ctxpart := w0.ctxpart.set 0 0x8000000000000001 }
    s.cands = [{ queue := 0, launch := 0, gang := 0, saved := false, prio := 0 }] ∧ s.blocked = none ∧ s.reserved = [] ∧
    ((List.finRange 192).all fun i => !s.cores[i].joined) = true ∧
    s.launch? 0 = some (launchOne .placing [] 0) ∧
    s.fit { queue := 0, launch := 0, gang := 0, saved := false, prio := 0 } false = some [0] ∧
    s.gangOnCores 0 0 = false ∧ s.outs = [] ∧ s.preemptHeld = [] := by decide +kernel
/-- A gang of four is blocked, with eight backfills. -/
theorem wit_core_reservation :
    let l := { launchOne .placing [] 0 with gang := 4, count := 4 }
    let s := { w0 with launches := [l], blocked := some (0, 0), backfills := 8, ctxpart := w0.ctxpart.set 0 0x8000000000000003 }
    s.blocked = some (l.id, 0) ∧ s.launch? l.id = some l ∧ 8 ≤ s.backfills ∧ s.reserved = [] ∧ l.gang ≠ 1 ∧
    [4, 5, 6, 7] ∈ groupsOf 0 4 ∧ ([4, 5, 6, 7].all fun c => bitOf (s.ctxpart[ix64 0]).toNat (c / 4)) = true ∧
    [8, 9, 10, 11] ∈ groupsOf 0 4 ∧ ([8, 9, 10, 11].all fun c => bitOf (s.ctxpart[ix64 0]).toNat (c / 4)) = false := by
  decide +kernel
/-- A launch whose one pallet is over; without a ring, with one that has room, and with a full one. -/
def wl (full : Bool) (ring : Nat) : State :=
  { wlog full with launches := [{ launchOne .closing [] ring with pdone := 1 }], ctxroot := w0.ctxroot.set 0 0x100000 }
theorem wit_launch_completion :
    (wl false 0).launch? 0 = some { launchOne .closing [] 0 with pdone := 1 } ∧
    ((List.finRange 192).all fun i => !(wl false 0).cores[i].joined) = true ∧
    (wl false 0).outs = [] ∧ (wl false 0x3000).ringQueue 0 0 0x3000 0 = false ∧ (wl false 0).preemptHeld = [] ∧
    (wl false 0).lowerSeq { launchOne .closing [] 0 with pdone := 1 } = false ∧
    RingResult.name ((wl false 0x3000).ringProduce ((wl false 0x3000).ringTr ((wl false 0x3000).lcAgent 0 0)) 0x3000
      fun _ => List.replicate 32 0) = 0 ∧
    RingResult.name ((wl true 0x3000).ringProduce ((wl true 0x3000).ringTr ((wl true 0x3000).lcAgent 0 0)) 0x3000
      fun _ => List.replicate 32 0) = 1 := by decide +kernel
/-- Quad 0 runs one gang; with room for its image, and without. -/
theorem wit_preemption_requests :
    let s := ready (wit noHart fun c => { c with pallet := some (palletOne .run) })
    s.reaches 0 = true ∧ (s.quadGangCores 0) = [0] ∧ 1 ≤ s.imageRoom 0 ∧
    ({ s with outs := [{ launch := 1, gang := 0, die := 0, since := 0,
                         gone := false, images := List.replicate 7 (s.imageOf 0 (palletOne .run)) }] } : State).imageRoom 0 < 1 := by
  decide +kernel
/-- Its hart has been taken: the gang of core 0 can be saved. -/
theorem wit_gang_save :
    let s := wit (fun h => { h with st := .taken, tcause := 0x10, bare := true }) fun c =>
      { top3 c with pallet := some (palletOne .run), preempt := true }
    s.canSave 0 0 = true ∧ s.runCores 0 0 = [0] ∧ s.cores[(0 : Fin 192)].saveFails = [] ∧ s.outs = [] ∧ 1 ≤ shadowImages := by
  decide +kernel
/-- A column of each form, and one with a VC bit and landed bits. -/
theorem wit_saved_columns : 0 < 32 ∧ 32 % 8 = 0 ∧ 32 ≤ 64 ∧ saveForm 32 [5, 5, 5] = .uniform ∧
    saveForm 32 [5, 7, 9] = .affine ∧ saveForm 32 [5, 0, 9] = .narrow 3 ∧ (∀ v ∈ [5, 0, 9], v < 2 ^ 32) ∧
    ((readColumn 32 3 (columnBytes 32 true 6 (saveForm 32 [5, 0, 9]) [5, 0, 9] ++ [77])).1.field 2) = 9 := by decide +kernel
/-- An image of core 0 goes back to core 4; and one without bytes, which is refused. -/
def wrestore : State :=
  let s := wit (fun h => { h with st := .taken, tcause := 0x10, bare := true }) fun c =>
    { c with pallet := some (palletOne .run), preempt := true }
  let m := s.imageOf 0 (palletOne .run)
  let m := { m with bytes := m.rendered }
  let s := { s with outs := [{ launch := 0, gang := 0, die := 0, since := 0, gone := false, images := [m] }], launches := [launchOne .placing [] 0] }
  (s.modCoreAt 0 fun c => { c with pallet := none }).modCoreAt 4 fun _ =>
    { Core.reset with ptroot := 0x100000, pallet := some (palletOne .staged) }
theorem wit_gang_restore :
    let ms := wrestore.outs.flatMap (·.images)
    let C := wrestore.cores[(4 : Fin 192)]
    wrestore.preemptHeld = [] ∧ (wrestore.outs.map fun g => (g.launch, g.gang)) = [(0, 0)] ∧
    (wrestore.outs.all wrestore.canRestore) = true ∧ ms.map wrestore.targetOf = [some 4] ∧ ms.map (·.place) = [none] ∧
    (ms.map fun m => decide (m.bytes.length < 2 ^ 32)) = [true] ∧
    (ms.map fun m => wrestore.imageRefused m C) = [none] ∧
    (ms.map fun m => wrestore.imageRefused { m with bytes := [] } C) = [some 0x22] ∧
    (ms.map fun m => (C.load m.bytes).harts[(0 : Fin 8)].st) = [.taken] ∧ (wrestore.launch? 0).isSome = true := by
  decide +kernel
/-- Core 0 runs a pallet; and stands halted. -/
theorem wit_debug_control :
    let s := ready (wit noHart fun c => { c with pallet := some (palletOne .run) })
    s.bootReady = true ∧ s.cores[(0 : Fin 192)].pallet = some (palletOne .run) ∧ s.cores[(0 : Fin 192)].halted = false ∧
    ((List.finRange 8).all fun h => s.cores[(0 : Fin 192)].harts[h].st != .taken) = true ∧
    s.cores[(0 : Fin 192)].stream.taken = false ∧ (palletOne .staged).board ≠ .run ∧
    (wit (fun h => { h with st := .halted }) fun c => { c with dbgstat := 1 }).cores[(0 : Fin 192)].halted = true ∧
    bitOf 1 0 = true ∧ bitOf 1 1 = false ∧ bitOf 2 1 = true := by decide +kernel
/-- A malformed request, and one whose object cannot be read. -/
theorem wit_code_object_loads :
    let r : LoadReq := { id := 0, queue := 0, home := 0, ctx := 0, object := 0x40000000, table := 0, status := 0x3000,
                         signed := false, signal := 0, bad := false }
    let s := fun (r : LoadReq) => { w0 with loads := [r], ctxroot := w0.ctxroot.set 0 0x100000 }
    (s r).loads.find? (·.id == r.id) = some r ∧ (s r).loadReady r = true ∧ ((s r).tryLoad r).1.1 ≠ 0 ∧
    (s { r with bad := true }).loadReady { r with bad := true } = true := by decide +kernel

/-! ## Witnesses: semaphores, registers from outside, pods, boot, power -/

/-- SEM3 held by port 1, requester 7, with SEQ 1 and a time-out of 10 µs, due at once. -/
def wsem : State :=
  ready { w0 with sems := w0.sems.set 3 { held := true, expired := false, ownPort := 1, ownRid := 7, seq := 1, timeout := 10,
                                          loadedAt := 0, tleft := 10 }, time := 10 * cyclesPerUs }
/-- A free one and a held one; the owner's release word with the current SEQ, and with another. -/
theorem wit_semaphores : (ready w0).hostPort 0 = true ∧ (ready w0).bootReady = true ∧ (ready w0).sems[(0 : Fin 16)].held = false ∧
    wsem.sems[(3 : Fin 16)].held = true ∧ wsem.hostPort 1 = true ∧ wsem.sems[(3 : Fin 16)].ownPort = BitVec.ofNat 2 1 ∧
    bitOf 0x100000001 0 = true ∧ wsem.sems[(3 : Fin 16)].seq = BitVec.ofNat 8 (0x100000001 / 2 ^ 32) ∧
    wsem.sems[(3 : Fin 16)].seq ≠ BitVec.ofNat 8 (0x200000001 / 2 ^ 32) ∧
    wsem.sems[(3 : Fin 16)].due wsem.time = true ∧ wsem.linkUp[dieIx 1] = true ∧ (1, 2047) ∉ wsem.msixPending ∧
    ({ wsem with time := 0 } : State).sems[(3 : Fin 16)].due 0 = false ∧ (ready w0).sems[(3 : Fin 16)].due w0.time = false := by decide +kernel
theorem wit_semaphore_ties : (ready w0).hostPort 0 = true ∧ (ready w0).hostPort (1 - 0) = true ∧ (ready w0).hostPort 1 = true ∧
    (ready w0).hostPort (1 - 1) = true := by decide +kernel
/-- What a read of BAR0 answers before READY, of the map and outside it; at READY, of a register of the last core; and the
narrow read of SEMACQ. -/
theorem wit_register_reads :
    (match execSemacqRead 2 0 0x1000 8 none w0 with | .next t => t.out.getLast? | _ => none) =
      some (.regRead 2 0x4B590000C0C00001) ∧
    (match execSemacqRead 2 0 0x3000 8 none w0 with | .next t => t.out.getLast? | _ => none) = some (.regRead 2 0) ∧
    (match execSemacqRead 0 7 0x100060 4 none (ready w0) with | .next t => t.out.getLast? | _ => none) = some (.regRead 0 0) ∧
    (ready w0).reaches 0 = true ∧ (ready w0).bootReady = true := by decide +kernel
/-- Vector 5 of port 0 pends, and its entry is unmasked. -/
theorem wit_interrupt_table : let s : State := { ready w0 with msixPending := [(0, 5)] }
    s.hostPort 0 = true ∧ 5 < 2048 ∧ (0, 5) ∈ s.msixPending ∧ bitOf 0x100000000 32 = true ∧ bitOf 7 32 = false := by
  decide +kernel
/-- Before READY and after it; a register of each kind at the ends of its range; a write of 4 bytes. -/
theorem wit_register_writes : (ready w0).reaches 2 = true ∧ w0.bootReady = false ∧ w0.reaches 2 = true ∧
    0x4000 + 16 * 63 < 0x4000000 ∧ (0x4000 + 16 * 63) % 8 = 0 ∧ ¬ (4 = 4 ∧ 0x2000 ≤ 0x1008 ∧ 0x1008 < 0x2800 ∧ 0x1008 % 64 = 0x10) ∧
    ¬ (0x1000 ≤ 0x1100 ∧ 0x1100 < 0x1100) := by decide +kernel
theorem wit_management_registers : (ready w0).hostPort 0 = true ∧ (ready w0).hostPort (1 - 0) = true ∧
    bitOf w0.podid.toNat 8 = false ∧ bitOf 0x100 8 = true ∧ (ready w0).reqs = [] ∧ bitOf 0x8000000000000000 63 = true := by
  decide +kernel
/-- Port 1 with requester 7 owns SEM15, or nobody does. -/
theorem wit_module_resets :
    let s := ready { w0 with sems := w0.sems.set 15 { held := true, expired := false, ownPort := 1, ownRid := 7, seq := 1,
                                                      timeout := 10, loadedAt := 0, tleft := 10 } }
    s.hostPort 1 = true ∧ bitOf 1 0 = true ∧ s.sems[(15 : Fin 16)].held = true ∧ s.sems[(15 : Fin 16)].due s.time = false ∧
    (ready w0).sems[(15 : Fin 16)].held = false ∧
    Memory.wf s.mem = true ∧ s.log.length < 256 := by decide +kernel
/-- The last bytes inside a window of 4096 bytes, and the first outside; a failing sector. -/
theorem wit_bar2_accesses : let s := { ready w0 with bar2 := 4096, bad := [2] }
    s.portUp 3 = true ∧ s.bootReady = true ∧ s.bar2 ≠ 0 ∧ w0.bootReady = false ∧ (portOf 0x8000000000000).isSome = true ∧
    portOf 4092 = none ∧ 4092 + 4 ≤ s.bar2 ∧ ¬ (4093 + 4 ≤ s.bar2) ∧ 4092 + 4 ≤ Config.hbmSize ∧
    s.anyBad 4092 4 = false ∧ 2 ∈ sectorsOf 128 4 ∧ 2 ∈ s.bad ∧ Memory.wf s.mem = true := by decide +kernel

/-- Members 0 and 1 of a pod; this package is 0, the home, or 1. -/
def wpod (id : Nat) (bars : List Barrier) : State :=
  { ready w0 with podid := BitVec.ofNat 64 (0x100 + id), podcfg := (w0.podcfg.set 0 0x100).set 1 0x100, bars := bars }
def podBar (n : Nat) (arrived : List Arrival) (unsent : Nat) : Barrier :=
  { id := 0, key := .pod 5 9, n := n, arrived := arrived, counts := [], unsent := unsent }
/-- A message from member `src`, with a good or a broken check. -/
def msg (type src n : Byte) (good : Bool) : List Byte :=
  let body := [type, src, 9, 0, 5, 0, 0, 0, 1, 0, 0, 0, n, 0, 0, 0] ++ List.replicate 44 0
  body ++ (if good then bytesOfLe 4 (crc32c body).toNat else [0, 0, 0, 0])
theorem wit_pod_messages :
    (wpod 0 []).podGood (msg 1 1 2 true) = true ∧ (wpod 0 []).podGood (msg 1 1 2 false) = false ∧
    (let s := wpod 0 [podBar 3 [] 0]
     s.podHome = s.podId ∧ (s.bars.find? (fun b => b.key == .pod 5 9)).isSome = true ∧ msgField (msg 1 1 2 true) 12 4 = 2) ∧
    (let s := wpod 1 [podBar 2 [{ launch := 0, index := 0, hart := 0 }] 0]
     s.podGood (msg 2 0 2 true) = true ∧ (s.podRecord (msg 2 0 2 true)).isSome = true ∧
     (s.podRecord (msg 3 0 2 true)).isSome = true ∧ msgField (msg 2 0 2 true) 0 1 = 2) := by decide +kernel
theorem wit_pod_arrivals_sent : let s := wpod 1 [podBar 2 [] 3]
    (s.bars.find? (·.id == 0)) = some (podBar 2 [] 3) ∧ (podBar 2 [] 3).unsent ≠ 0 ∧ s.podHome ≠ s.podId ∧
    s.podSent = [] ∧ (({ s with podSent := [((5, 9), 0)] } : State).podSent.find? (·.1 == (5, 9))).isSome = true ∧
    s.time < 0 + 64 := by decide +kernel
theorem wit_links : w0.launches = [] ∧ w0.reqs = [] ∧ wsem.sems[(3 : Fin 16)].ownPort.toNat = 1 := by decide +kernel
/-- The first and the sixth stage. -/
theorem wit_boot_stages :
    let input := fun (images : List FwImage) (fails : Bool) =>
      ({ images := images, roles := 3, bar2 := 0, signKey := [], vector := 0, raiseMin := false, minor := 0,
         linksFail := fails, portsFail := fails } : BootInput)
    State.reset.bootFailed = false ∧ State.reset.bootReady = false ∧ State.reset.bootStageNo = 1 ∧
    ({ State.reset with bootstat := 0x600 } : State).bootStageNo = 6 ∧ State.reset.stageCode 6 (input [] false) = 0 ∧
    State.reset.stageCode 5 (input [] true) = 5 ∧ State.reset.stageCode 1 (input [] false) = 4 ∧
    State.reset.stageCode 4 (input [] false) = 0 := by decide +kernel
theorem wit_attestation : (ready w0).hostPort 1 = true ∧ (7 ≠ 255) ∧ (ready w0).measured.find? (·.1 == 7) = none ∧
    (({ w0 with measured := [(1, [9])] } : State).measured.find? (·.1 == 1)).isSome = true := by decide +kernel
theorem wit_management_messages : let s := wit noHart fun c => { c with pallet := some (palletOne .run) }
    s.mctpReaches 2 = true ∧ w0.cores[(0 : Fin 192)].halted = false ∧ w0.cores[(0 : Fin 192)].pallet = none ∧
    s.cores[(0 : Fin 192)].pallet = some (palletOne .run) ∧
    ((List.finRange 8).all fun h => s.cores[(0 : Fin 192)].harts[h].st != .taken) = true ∧
    s.cores[(0 : Fin 192)].stream.taken = false ∧ w0.outs = [] ∧
    (wrestore.outs.any fun g => g.images.any fun m => m.home == 0) = true := by
  decide +kernel
/-- The limits of R381: 1600.1 W and 1519.9 W, and both inside; CAP at its ends. -/
theorem wit_power_governor : let s := w0.modDie 0 fun d => { d with cap := 2048, low := 9, stood := 100, cool := 1000 }
    s.dies[(0 : Fin 4)].thermal = false ∧ s.dies[(0 : Fin 4)].cap.toNat ≤ 65536 ∧ 16000 < (16001 : BitVec 16).toNat ∧
    (15199 : BitVec 16).toNat < 15200 ∧ 15200 ≤ (15200 : BitVec 16).toNat ∧ (16000 : BitVec 16).toNat ≤ 16000 ∧
    100 ≤ s.dies[(0 : Fin 4)].stood ∧ 16000 < ({ s with msense := 16001 } : State).power ∧ 1000 ≤ s.dies[(0 : Fin 4)].cool ∧
    s.dies[(0 : Fin 4)].tokenMode = true ∧ s.dies[(0 : Fin 4)].token < 48 := by decide +kernel
theorem wit_temperature : 95 ≤ (95 : BitVec 8).toNat ∧ (114 : BitVec 8).toNat < 115 ∧ (105 : BitVec 8).toNat ≤ 105 ∧ 105 < (106 : BitVec 8).toNat ∧ (94 : BitVec 8).toNat < 95 ∧ 115 ≤ (115 : BitVec 8).toNat ∧
    w0.log.length < 256 := by decide +kernel
theorem wit_contained_errors :
    (wit noHart fun c => { c with pallet := some (palletOne .join) }).cores[(0 : Fin 192)].pallet = some (palletOne .join) ∧
    HwUnit.siroc ≠ .pallet := by decide +kernel

/-! ## Witnesses: the machine as a whole -/

theorem wit_memory_operations : Memory.wf w0.mem = true ∧ Memory.wf [] = true ∧
    Memory.wf (writeByte w0.mem 3 0) = true ∧ (writeByte w0.mem 3 0).length + 1 = w0.mem.length := by decide +kernel
theorem wit_memory_form_kept : Memory.wf w0.mem = true ∧ (match step w0 with | .next _ => true | _ => false) = true := by
  decide +kernel
/-- A word that is an instruction, one with a reserved bit, one that is none, and the word of zeros. -/
theorem wit_step :
    let go := fun (w : Nat) => State.reset.withFetchWord 32 w
    let met := fun (s : State) (p : Party) =>
      s.inbox = [] ∧ s.turn = some p ∧ (s.tick.enter p).boundary.isNone = true ∧
      (s.tick.enter p).lateWalk [(s.tick.enter p).pc.toNat] = none ∧
      (s.tick.enter p).reach { kind := .fetch, source := (s.tick.enter p).source 0, align := 4 }
        (s.tick.enter p).pc.toNat = some { pa := 0, idem := true } ∧ s.anyBad 0 4 = false ∧
      ((s.tick.enter p).core.icache.all fun l => l.sector != 0) = true
    met (go 0x04A63801) { core := 0, who := .hart 0 } ∧ decode (readLE (go 0x04A63801).mem 0 4) = .ok (.sub 5 6 7) ∧
    met (go 0x04A63803) { core := 0, who := .hart 0 } ∧ decode 0 = .illZero ∧ decode 1 = .illOp ∧
    decode 0xB00E0141 = .rsvfld := by decide +kernel
/-- The next event; a word in the inbox, which is dropped; nothing that can move; a choice. -/
theorem wit_step_takes_events :
    (Instr.moduleReset).isWord = false ∧ (Instr.yield).isWord = true ∧ State.reset.inbox = [] ∧
    State.reset.tick.choices = [] ∧ { w0 with turn := none }.tick.choices ≠ [] := by decide +kernel
theorem wit_encode : (Instr.add 5 6 7).wf = true ∧ (Instr.bne 31 0 0x1FF0).wf = true ∧ (Instr.miter 5 6 1 0 0 0).wf = true := by
  decide +kernel

end Sys2Proof.Tests
end

section
/-! SUPPORT. Runs of bytes: what is read after a write of several, the value of a run, and when two memories are one. -/

namespace Sys2Proof.Machine

/-! ## The value of a run of bytes (R8) -/

theorem leOfBytes_lt (bs : List Byte) : leOfBytes bs < 256 ^ bs.length := by
  induction bs with
  | nil => simp [leOfBytes]
  | cons b bs ih =>
    have := b.isLt
    rw [leOfBytes, List.length_cons, pow_succ]
    omega

/-- Byte k of a value is byte k of the run, counted from the least significant. -/
theorem leOfBytes_byte (bs : List Byte) (k : Nat) : leOfBytes bs / 256 ^ k % 256 = (bs.getD k 0).toNat := by
  induction bs generalizing k with
  | nil => simp [leOfBytes]
  | cons b bs ih =>
    have := b.isLt
    cases k with
    | zero => simp only [leOfBytes, pow_zero, Nat.div_one, List.getD_cons_zero]; omega
    | succ k =>
      have hdiv : (b.toNat + 256 * leOfBytes bs) / 256 = leOfBytes bs := by omega
      rw [leOfBytes, pow_succ', ← Nat.div_div_eq_div_mul, hdiv, ih, List.getD_cons_succ]

theorem bytesOfLe_length (n v : Nat) : (bytesOfLe n v).length = n := by
  induction n generalizing v with
  | zero => rfl
  | succ n ih => rw [bytesOfLe, List.length_cons, ih]

theorem bytesOfLe_getD {n k : Nat} (v : Nat) (h : k < n) : (bytesOfLe n v).getD k 0 = BitVec.ofNat 8 (v / 256 ^ k) := by
  induction n generalizing k v with
  | zero => omega
  | succ n ih =>
    cases k with
    | zero => simp [bytesOfLe]
    | succ k => rw [bytesOfLe, List.getD_cons_succ, ih _ (by omega), pow_succ', Nat.div_div_eq_div_mul]

theorem leOfBytes_bytesOfLe (n v : Nat) : leOfBytes (bytesOfLe n v) = v % 256 ^ n := by
  induction n generalizing v with
  | zero => simp [bytesOfLe, leOfBytes, Nat.mod_one]
  | succ n ih =>
    rw [bytesOfLe, leOfBytes, ih, pow_succ', Nat.mod_mul, BitVec.toNat_ofNat]

/-! ## Reading after writing -/

/-- A store of a value is a store of its bytes. -/
theorem writeLE_eq_writeBytes (m : List Host.Cell) (a n v : Nat) : writeLE m a n v = writeBytes m a (bytesOfLe n v) := by
  induction n generalizing m a v with
  | zero => rfl
  | succ n ih => rw [writeLE, bytesOfLe, writeBytes, ih]

theorem readByte_writeBytes {m : List Host.Cell} (h : Memory.wf m = true) (a : Nat) (bs : List Byte) (b : Nat) :
    readByte (writeBytes m a bs) b = if a ≤ b ∧ b < a + bs.length then bs.getD (b - a) 0 else readByte m b := by
  induction bs generalizing m a with
  | nil => simp [writeBytes]
  | cons c bs ih =>
    rw [writeBytes, ih (wf_writeByte h a c), readByte_writeByte h, List.length_cons]
    obtain hlt | rfl | hgt := Nat.lt_trichotomy b a
    · rw [if_neg (by omega), if_neg (by omega), if_neg (by omega)]
    · rw [if_neg (by omega), if_pos rfl, if_pos (by omega), Nat.sub_self, List.getD_cons_zero]
    · obtain ⟨k, rfl⟩ : ∃ k, b = a + 1 + k := ⟨b - (a + 1), by omega⟩
      have hk : a + 1 + k - a = k + 1 := by omega
      rw [hk, List.getD_cons_succ, Nat.add_sub_cancel_left, if_neg (by omega : ¬ a + 1 + k = a)]
      exact if_congr (by omega) rfl rfl

theorem readBytes_length (m : List Host.Cell) (a n : Nat) : (readBytes m a n).length = n := by simp [readBytes]

theorem readBytes_getD {m : List Host.Cell} (h : Memory.wf m = true) (a : Nat) {n k : Nat} (hk : k < n) :
    (readBytes m a n).getD k 0 = readByte m (a + k) := by
  simp [readBytes_eq h, List.getD_eq_getElem?_getD, hk]

theorem readBytes_writeBytes {m : List Host.Cell} (h : Memory.wf m = true) (a : Nat) (bs : List Byte) :
    readBytes (writeBytes m a bs) a bs.length = bs := by
  refine List.ext_getElem (readBytes_length _ _ _) fun k _ hk => ?_
  have hwf := wf_writeBytes h a bs
  rw [← List.getD_eq_getElem _ 0, ← List.getD_eq_getElem _ 0, readBytes_getD hwf a hk, readByte_writeBytes h,
    if_pos (by omega), Nat.add_sub_cancel_left]

theorem readByte_writeLE {m : List Host.Cell} (h : Memory.wf m = true) (a n v b : Nat) :
    readByte (writeLE m a n v) b =
      if a ≤ b ∧ b < a + n then BitVec.ofNat 8 (v / 256 ^ (b - a)) else readByte m b := by
  rw [writeLE_eq_writeBytes, readByte_writeBytes h, bytesOfLe_length]
  split
  · exact bytesOfLe_getD v (by omega)
  · rfl

theorem readLE_writeLE {m : List Host.Cell} (h : Memory.wf m = true) (a n v : Nat) :
    readLE (writeLE m a n v) a n = v % 256 ^ n := by
  have hread := readBytes_writeBytes h a (bytesOfLe n v)
  rw [bytesOfLe_length] at hread
  rw [readLE, writeLE_eq_writeBytes, hread, leOfBytes_bytesOfLe]

theorem readLE_lt (m : List Host.Cell) (a n : Nat) : readLE m a n < 256 ^ n := by
  have h := leOfBytes_lt (readBytes m a n)
  rwa [readBytes_length] at h

theorem readLE_byte {m : List Host.Cell} (h : Memory.wf m = true) (a : Nat) {n k : Nat} (hk : k < n) :
    readLE m a n / 256 ^ k % 256 = (readByte m (a + k)).toNat := by
  rw [readLE, leOfBytes_byte, readBytes_getD h a hk]

/-! ## The canonical form is unique -/

/-- The first listed byte of a canonical memory, and the memory without it. -/
theorem memWfFrom_cons {lo b : Nat} {v : Byte} {m : List Host.Cell} (h : memWfFrom lo ((b, v) :: m) = true) :
    lo ≤ b ∧ v ≠ emptyByte ∧ memWfFrom (b + 1) m = true := by
  simpa [memWfFrom, and_assoc] using h

theorem readByte_head (b : Nat) (v : Byte) (m : List Host.Cell) : readByte ((b, v) :: m) b = v := by simp [readByte]

theorem readByte_tail {b a : Nat} (v : Byte) (m : List Host.Cell) (h : b < a) :
    readByte ((b, v) :: m) a = readByte m a := by
  simp [readByte, show a ≠ b by omega, show ¬ a < b by omega]

/-- A listed byte cannot read as one of a memory that begins above it. -/
theorem readByte_head_ne {b lo : Nat} {v : Byte} {m m' : List Host.Cell} (hv : v ≠ emptyByte)
    (h' : memWfFrom lo m' = true) (hb : b < lo) : readByte ((b, v) :: m) b ≠ readByte m' b := by
  rwa [readByte_head, readByte_below h' hb]

theorem memory_ext {lo : Nat} {m m' : List Host.Cell} (h : memWfFrom lo m = true) (h' : memWfFrom lo m' = true)
    (he : ∀ a, readByte m a = readByte m' a) : m = m' := by
  induction m generalizing lo m' with
  | nil =>
    cases m' with
    | nil => rfl
    | cons c m' =>
      obtain ⟨_, hv, _⟩ := memWfFrom_cons h'
      exact absurd (he c.1).symm (readByte_head_ne (lo := c.1 + 1) hv rfl (Nat.lt_succ_self _))
  | cons c m ih =>
    obtain ⟨b, v⟩ := c
    obtain ⟨_, hv, ht⟩ := memWfFrom_cons h
    cases m' with
    | nil => exact absurd (he b) (readByte_head_ne (lo := b + 1) hv rfl (Nat.lt_succ_self _))
    | cons c' m' =>
      obtain ⟨b', v'⟩ := c'
      obtain ⟨_, hv', ht'⟩ := memWfFrom_cons h'
      obtain hlt | rfl | hgt := Nat.lt_trichotomy b b'
      · exact absurd (he b) (readByte_head_ne hv (by simp [memWfFrom, hv', ht']) hlt)
      · have hvv : v = v' := by simpa only [readByte_head] using he b
        have htail : ∀ a, readByte m a = readByte m' a := fun a => by
          by_cases ha : b < a
          · simpa only [readByte_tail _ _ ha] using he a
          · rw [readByte_below ht (by omega), readByte_below ht' (by omega)]
        rw [hvv, ih ht ht' htail]
      · exact absurd (he b').symm (readByte_head_ne hv' (by simp [memWfFrom, hv, ht]) hgt)

end Sys2Proof.Machine

open Sys2Proof Sys2Proof.Machine

/-- Settles O55, from the reading rules after a write, and by induction on both lists for the uniqueness of the form. -/
theorem memoryOperations : Obligations.MemoryOperations := by
  intro m h
  exact ⟨fun a v => ⟨wf_writeByte h a v, readByte_writeByte h a v⟩,
    fun a n => ⟨readLE_lt m a n, fun k hk => readLE_byte h a hk⟩,
    fun a n v => ⟨wf_writeLE h a n v, readByte_writeLE h a n v, readLE_writeLE h a n v⟩,
    fun a bs => ⟨wf_writeBytes h a bs, readByte_writeBytes h a bs, readBytes_writeBytes h a bs⟩,
    fun m' h' he => memory_ext h h' he⟩
end

section
/-! SUPPORT. Retirement of an unstepped hart, and the end of an instruction whose first check fails. -/

namespace Sys2Proof.Machine

/-- An instruction that begins with its checks raises the first one that fails. -/
theorem finish_check_trap {l : Legal} {s : State} {c : BitVec 8} (h : l.cause s = some c) (f : Unit → Act Unit) :
    finish (l.check >>= f) s = .next (s.take { cause := c }) := by
  refine finish_trap ?_
  rw [Act.run_bind, Act.run_check_trap h]

theorem finishAt_check_trap {l : Legal} {s : State} {c : BitVec 8} (h : l.cause s = some c) (f : Unit → Act Word) :
    finishAt (l.check >>= f) s = .next (s.take { cause := c }) := by
  refine finishAt_trap ?_
  rw [Act.run_bind, Act.run_check_trap h]

/-- Whatever a pending PFX word says, an entry that accepts neither a predicate nor a destination copy breaks it (R148). -/
theorem pfxBroken_some {l : Legal} (hp : l.pred = false) (hc : l.copy = false) (w : BitVec 32) :
    pfxBroken l (some w) = true := by
  unfold pfxBroken
  rw [hp, hc]
  cases hcopy : pfxCopy w <;> cases hpred : (pfxPred w == 0) <;> simp [bne, hcopy, hpred]

theorem Legal.cause_pfxBad {l : Legal} {s : State} (hi : l.ill = false) (hr : l.rsv = false)
    (h : pfxBroken l s.pfx = true) : l.cause s = some 0x03 := by
  simp [Legal.cause, hi, hr, h]

/-- R328: under a pending PFX word the checks of a scalar word end in PFXBAD. -/
theorem scalarLegal_cause_prefixed {s : State} {w : BitVec 32} (h : s.pfx = some w) : scalarLegal.cause s = some 0x03 :=
  Legal.cause_pfxBad rfl rfl (h ▸ pfxBroken_some rfl rfl w)

/-- R138, R149: what a hart's completion changes, without single stepping. -/
theorem State.retire_hart {s : State} {h : Fin 8} (hw : s.cur.who = .hart h) (hs : s.stepping = false) :
    s.retire = { s with
       epoch := s.epoch + 1
       cores := s.cores.set s.cur.core { s.core with
         harts := s.core.harts.set h { s.core.harts[h] with
           th := { s.core.harts[h].th with pc := s.core.harts[h].th.pc + 4 }
           pfx := none, wait := .none, sleep := none, waitStart := none } } } := by
  have hpc : s.pc = s.core.harts[h].th.pc := by simp [State.pc, State.th, Core.th, hw]
  rw [State.retire, State.retireAt_plain _ hs, hpc]
  simp only [State.complete, hw]
  simp only [State.modHart, State.modCore, State.setCore, Core.modHart, Hart.complete, hw, Who.hartIx]
  rfl

end Sys2Proof.Machine

open Sys2Proof Sys2Proof.Machine

/-- Settles O3: the register rules, what retirement changes, and one prefixed word of each shape, whose first check fails. -/
theorem scalarRegistersAndRetirement : Obligations.ScalarRegistersAndRetirement := by
  refine ⟨fun t r q v => ?_, fun s h hw hs => State.retire_hart hw hs, fun s d a b w hw => ?_⟩
  · exact ⟨t.get_zero, t.set_zero v, t.get_set_same v, t.get_set_other v, t.set_pc r v, t.set_frm r v, t.set_fflags r v⟩
  · have hscalar := scalarLegal_cause_prefixed hw
    have hword {f : Unit → Act Unit} := finish_check_trap hscalar f
    have hjump {f : Unit → Act Word} := finishAt_check_trap hscalar f
    have hamo : ({ scalarLegal with rsv := amoReserved 0 0, pod := false } : Legal).cause s = some 0x03 :=
      Legal.cause_pfxBad rfl rfl (hw ▸ pfxBroken_some rfl rfl w)
    simp only [List.forall_mem_cons, List.not_mem_nil, false_imp_iff, implies_true, and_true]
    exact ⟨hword, hword, hword, hword, hword, hjump, hjump, hjump, hword, hword, finish_check_trap hamo _⟩
end

section
/-! SUPPORT. Machines whose memory is canonical: the predicate, the rules for branches and folds, and one rule for each
update of the machine that several parts of the model share. -/

namespace Sys2Proof.Machine

variable {α β ι : Type}

/-- The memory of the machine is in its canonical form. -/
def State.Formed (s : State) : Prop := Memory.wf s.mem = true

/-! ## Rules that follow the shape of a definition -/

theorem State.Formed.of_mem {s t : State} (e : t.mem = s.mem) (h : s.Formed) : t.Formed := by
  rw [State.Formed, e]
  exact h

theorem State.Formed.ite {c : Prop} [Decidable c] {s t : State} (hs : s.Formed) (ht : t.Formed) :
    (if c then s else t).Formed := by
  split <;> assumption

theorem State.Formed.foldl {f : State → ι → State} {s : State} {l : List ι}
    (hf : ∀ {u : State} {i : ι}, u.Formed → (f u i).Formed) (h : s.Formed) : (l.foldl f s).Formed := by
  induction l generalizing s with
  | nil => exact h
  | cons i l ih => exact ih (hf h)

/-- A fold over pairs, one part of which is a machine. -/
theorem State.Formed.foldl_part {g : α → State} {f : α → ι → α} {q : α} {l : List ι}
    (hf : ∀ {q : α} {i : ι}, (g q).Formed → (g (f q i)).Formed) (h : (g q).Formed) : (g (l.foldl f q)).Formed := by
  induction l generalizing q with
  | nil => exact h
  | cons i l ih => exact ih (hf h)

theorem State.Formed.elim {s : State} {f : ι → State} {o : Option ι} (h : s.Formed) (hf : ∀ {i : ι}, (f i).Formed) :
    (o.elim s f).Formed := by
  cases o with
  | none => exact h
  | some i => exact hf

section
variable {s : State}

namespace State.Formed

/-! ## Updates of one field, and stores -/

theorem modCore {f : Core → Core} (h : s.Formed) : (s.modCore f).Formed := h
theorem modCoreAt {i : Fin 192} {f : Core → Core} (h : s.Formed) : (s.modCoreAt i f).Formed := h
theorem modHart {f : Hart → Hart} (h : s.Formed) : (s.modHart f).Formed := h
theorem modDie {d : Fin 4} {f : Die → Die} (h : s.Formed) : (s.modDie d f).Formed := h

theorem store {pa : Nat} {bs : List Byte} (h : s.Formed) : (s.store pa bs).Formed := wf_store h pa bs
theorem storeLE {pa n v : Nat} (h : s.Formed) : (s.storeLE pa n v).Formed := wf_storeLE h pa n v
theorem storeCells {cs : List (Nat × Byte)} (h : s.Formed) : (s.storeCells cs).Formed := wf_storeCells h cs
theorem recheck {w t : List Nat} (h : s.Formed) : (s.recheck w t).Formed := h.of_mem (recheck_mem s w t)
theorem logEvent {k c a : Nat} {co : Option Nat} {ha au : Nat} (h : s.Formed) : (s.logEvent k c a co ha au).Formed :=
  h.of_mem (logEvent_mem ..)
theorem logCheck {c pa : Nat} (h : s.Formed) : (s.logCheck c pa).Formed := h.logEvent
theorem touchHbm {use : CacheUse} {pa n : Nat} (h : s.Formed) : (s.touchHbm use pa n).Formed := h.of_mem (touchHbm_mem ..)
theorem traffic {use : CacheUse} {k : ReqKind} {pa n : Nat} {d : List Byte} (h : s.Formed) :
    (s.traffic use k pa n d).Formed := wf_traffic h use k pa n d
theorem atomicTraffic {k : AtomKind} {pa n old new : Nat} (h : s.Formed) : (s.atomicTraffic k pa n old new).Formed :=
  h.of_mem (atomicTraffic_mem ..)
theorem reachUnit {p : Nat} (h : s.Formed) : (s.reachUnit p).Formed := h.of_mem (reachUnit_mem ..)
theorem notePort {pa : Nat} (h : s.Formed) : (s.notePort pa).Formed := wf_notePort h pa
theorem podRelease {own : Option Nat} (h : s.Formed) : (s.podRelease own).Formed := h.of_mem (podRelease_mem ..)
theorem postRequest {id : Nat} (h : s.Formed) : (s.postRequest id).Formed := wf_postRequest h id
theorem walkFor {a : Agent} {va : Nat} (h : s.Formed) : (s.walkFor a va).2.Formed := h.of_mem (walkFor_traces ..).1.mem
theorem translate {a : Agent} {acc : Acc} {va : Nat} (h : s.Formed) : (s.translate a acc va).state.Formed :=
  wf_translate h a acc va

theorem translate_ok (h : s.Formed) {a : Agent} {acc : Acc} {va : Nat} {x : Xlat} {t : State}
    (e : s.translate a acc va = .ok x t) : t.Formed := by
  have ht := h.translate (a := a) (acc := acc) (va := va)
  rwa [e] at ht

theorem translate_fault (h : s.Formed) {a : Agent} {acc : Acc} {va k : Nat} {t : State}
    (e : s.translate a acc va = .fault k t) : t.Formed := by
  have ht := h.translate (a := a) (acc := acc) (va := va)
  rwa [e] at ht

/-! ## Traps and the ends of pallets -/

theorem haltGang {c : Fin 192} {r : BitVec 8} {b : Option Who} {u : Option Trap} (h : s.Formed) :
    (s.haltGang c r b u).Formed := h.of_mem (haltGang_mem ..)
theorem terminate {i : Fin 192} {c : BitVec 8} (h : s.Formed) : (s.terminate i c).Formed := h.of_mem (terminate_mem ..)
theorem take {t : Trap} (h : s.Formed) : (s.take t).Formed := h.of_mem (take_mem s t)
theorem retireAt {pc : Word} (h : s.Formed) : (s.retireAt pc).Formed := h.of_mem (retireAt_mem s pc)
theorem retire (h : s.Formed) : s.retire.Formed := h.retireAt
theorem withdraw (h : s.Formed) : s.withdraw.Formed := h.of_mem (withdraw_mem s)
theorem sleepHere (h : s.Formed) : s.sleepHere.Formed := h.of_mem (sleepHere_mem s)
theorem fallAsleep (h : s.Formed) : s.fallAsleep.Formed := h.of_mem (fallAsleep_mem s)

theorem complete {pc : Word} (h : s.Formed) : (s.complete pc).Formed := by
  unfold State.complete
  dsimp only
  split <;> exact h

theorem takeWaiting (h : s.Formed) : s.takeWaiting.Formed := by
  unfold State.takeWaiting
  dsimp only
  split
  · exact h
  · exact .withdraw (s := { s with epoch := s.epoch + 1 }) h

theorem eret (h : s.Formed) : s.eret.Formed := by
  unfold State.eret
  dsimp only
  split
  · split
    · exact .terminate (s := { s with epoch := s.epoch + 1 }) h
    · exact h
  · exact h

/-! ## Local order, caches and the ports' flushes -/

theorem passLoads {x : Touch} (h : s.Formed) : (s.passLoads x).Formed := .ite h h
theorem passStores {x : Touch} {f : PastStore → Bool} (h : s.Formed) : (s.passStores x f).Formed := .ite h h
theorem pass {x : Touch} {f : PastStore → Bool} (h : s.Formed) : (s.pass x f).Formed := h.passLoads.passStores
theorem openLoad {r : Role} {x : Xlat} {n : Nat} {d : LoadDest} (h : s.Formed) : (s.openLoad r x n d).Formed := .ite h h
theorem sdcWrite {pa : Nat} {bs : List Byte} (h : s.Formed) : (s.sdcWrite pa bs).Formed := h
theorem sdcInvalidate (h : s.Formed) : s.sdcInvalidate.Formed := h
theorem orderAll (h : s.Formed) : s.orderAll.Formed := h
theorem orderMask {m : BitVec 16} (h : s.Formed) : (s.orderMask m).Formed := h
theorem acquireMask {m : BitVec 16} (h : s.Formed) : (s.acquireMask m).Formed := h
theorem pastRead {r : Role} {pa : Nat} {bs : List Byte} (h : s.Formed) : (s.pastRead r pa bs).2.Formed :=
  h.of_mem (pastRead_mem ..)
theorem remember {t : State} {idem : Bool} {p : PastStore} (h : t.Formed) : (s.remember idem p t).Formed :=
  h.of_mem (remember_mem ..)
theorem rangeTraffic {p : PageMap} {use : CacheUse} {k : ReqKind} {va n : Nat} {bs : List Byte} (h : s.Formed) :
    (s.rangeTraffic p use k va n bs).Formed := h.of_mem (rangeTraffic_mem ..)
theorem readRange {r : Role} {p : PageMap} {va n : Nat} (h : s.Formed) : (s.readRange r p va n).2.Formed :=
  h.of_mem (readRange_mem ..)
theorem engineByte {pa : Nat} (h : s.Formed) : (s.engineByte pa).2.Formed := h.of_mem (engineByte_mem ..)

/-- What an engine operation finds of its issuer's stores changes only the counter of free values (R196). -/
theorem forkMem {past : List (List (Nat × Byte))} (h : s.Formed) : (s.forkMem past).2.Formed := by
  unfold State.forkMem
  exact .foldl_part (g := Prod.snd) (fun h => h) h

theorem pickCached {ls : List Line} {pa n : Nat} (h : s.Formed) : (pickCached s ls pa n).2.2.Formed := by
  unfold Machine.pickCached
  dsimp only
  split
  · exact h.traffic
  · split
    · exact h
    · split
      · exact h
      · exact .traffic (s := s.fresh.2) h

end State.Formed

end
end Sys2Proof.Machine
end

section
/-! SUPPORT. Register space keeps the form of memory: the semaphores, the Launch Controller's own accesses, pre-emption,
debug halts, queues, and a read or a write of any register. -/

namespace Sys2Proof.Machine

variable {s : State} {q : Requester}

namespace State.Formed

/-! ## Interrupts and semaphores (R18 to R20) -/

theorem msix {port v : Nat} (h : s.Formed) : (s.msix port v).Formed := .ite h h
theorem bar4Write {port off n v : Nat} (h : s.Formed) : (s.bar4Write port off n v).Formed := .ite h h

theorem semSettle {n : Fin 16} (h : s.Formed) : (s.semSettle n).Formed :=
  .ite h (.ite (.msix (s := State.modSem { s with epoch := s.epoch + 1 } n Sem.expire) h) h)

theorem semAcquire {n : Fin 16} (h : s.Formed) : (s.semAcquire n q).2.Formed := by
  unfold State.semAcquire
  dsimp only
  split <;> exact h.semSettle

theorem semRelease {n : Fin 16} {v : Word} (h : s.Formed) : (s.semRelease n q v).Formed :=
  .ite h.semSettle h.semSettle.logEvent

theorem semTime {n : Fin 16} {v : Word} (h : s.Formed) : (s.semTime n q v).Formed :=
  .ite h.semSettle (.ite h.semSettle h.semSettle)

theorem semStat {n : Fin 16} {v : Word} (h : s.Formed) : (s.semStat n v).Formed := .ite h.semSettle h.semSettle

/-! ## The Launch Controller's accesses (R361) -/

theorem lcXlat {a : Agent} {acc : Acc} {va : Nat} (h : s.Formed) : (s.lcXlat a acc va).2.Formed := by
  unfold State.lcXlat
  split
  · next e => exact h.translate_ok e
  · next e => exact h.translate_fault e

theorem lcReadParts {a : Agent} {source : Nat} {ps : List (Nat × Nat)} (h : s.Formed) :
    (s.lcReadParts a source ps).2.Formed := by
  induction ps generalizing s with
  | nil => exact h
  | cons p ps ih =>
    unfold State.lcReadParts
    dsimp only
    split
    · exact h.lcXlat
    · split
      · exact h.lcXlat.logEvent
      · split <;> exact ih h.lcXlat.traffic

theorem lcRead {a : Agent} {source va n : Nat} (h : s.Formed) : (s.lcRead a source va n).2.Formed := h.lcReadParts

theorem signalAdd {ctx die va : Nat} (h : s.Formed) : (s.signalAdd ctx die va).Formed := by
  unfold State.signalAdd
  dsimp only
  split
  · exact h
  · split
    · exact h.lcXlat.logEvent
    · exact .ite h.lcXlat.logEvent h.lcXlat.storeLE.atomicTraffic

theorem releaseHeld {p : Launch → Bool} (h : s.Formed) : (s.releaseHeld p).Formed := .foldl .signalAdd h

/-! ## Pre-emption and lost contexts (R380, R384) -/

theorem preemptQuad {quad : Nat} (h : s.Formed) : (s.preemptQuad quad).Formed :=
  .ite h (.ite (.foldl (fun h => h) h) (.ite h h))

theorem retryPreempts (h : s.Formed) : s.retryPreempts.Formed := .foldl .preemptQuad h
theorem contextGone {ctx : Nat} (h : s.Formed) : (s.contextGone ctx).Formed := .retryPreempts h

/-! ## Debug halts and token mode (R382, R410 to R412) -/

theorem requestHalt {c : Fin 192} {r : BitVec 8} (h : s.Formed) : (s.requestHalt c r).Formed :=
  .ite h (.ite h.haltGang (.ite h h))

theorem resumeGang {c : Fin 192} (h : s.Formed) : (s.resumeGang c).Formed := .foldl (fun h => h) h

theorem writeDbgctl {c : Fin 192} {v : Word} (h : s.Formed) : (s.writeDbgctl c v).Formed :=
  .ite (.requestHalt (.ite (.resumeGang h) h)) (.ite (.resumeGang h) h)

theorem spreadToken (h : s.Formed) : s.spreadToken.Formed := by
  simpa only [State.Formed, State.spreadToken] using h

theorem writeTestctl {v : Word} (h : s.Formed) : (s.writeTestctl v).Formed := by
  simpa only [State.Formed, State.writeTestctl, State.spreadToken] using h

theorem moduleReset (h : s.Formed) : s.moduleReset.Formed := wf_filter _ h

/-! ## Queues (R363, R364) -/

theorem queueDisable {n : Nat} (h : s.Formed) : (s.queueDisable n).Formed := .releaseHeld h
theorem queueConfig {n : Fin 32} {v : Word} (h : s.Formed) : (s.queueConfig n v).Formed :=
  .ite (.ite h h) (.queueDisable h)

/-! ## Reads and writes by offset (R14, R437) -/

theorem semRead {n : Fin 16} {o : Nat} (h : s.Formed) : (s.semRead q n o).2.Formed := by
  unfold State.semRead
  split
  · exact h.semAcquire
  · exact h.semSettle
  · exact h
  · exact h

theorem semWrite {n : Fin 16} {o : Nat} {v : Word} (h : s.Formed) : (s.semWrite q n o v).Formed := by
  unfold State.semWrite
  split
  · exact h.semStat
  · exact h.semRelease
  · exact h.semTime
  · exact h

theorem queueWrite {n : Fin 32} {o : Nat} {v : Word} (h : s.Formed) : (s.queueWrite n o v).Formed := by
  unfold State.queueWrite
  split
  · exact .ite h h
  · exact h.queueConfig
  · exact h
  · exact h

theorem ctxWrite {n : Fin 64} {off : Nat} {v : Word} (h : s.Formed) : (s.ctxWrite n off v).Formed :=
  .ite h (.ite h (.contextGone h))

theorem pgrqWrite {d : Fin 4} {v : Word} (h : s.Formed) : (s.pgrqWrite d v).Formed := .foldl .postRequest h
theorem spillWrite {d : Fin 4} {off : Nat} {v : Word} (h : s.Formed) : (s.spillWrite d off v).Formed := .retryPreempts h

theorem mctrlWrite {v : Word} (h : s.Formed) : (s.mctrlWrite q v).Formed :=
  .ite h (.ite h.semSettle.moduleReset h.semSettle.logEvent)

theorem dqflushWrite {v : Word} (h : s.Formed) : (s.dqflushWrite v).Formed := .releaseHeld h

theorem mgmtWrite {off : Nat} {v : Word} (h : s.Formed) : (s.mgmtWrite q off v).Formed :=
  .ite (.ite h h) (.ite h.writeTestctl (.ite h (.ite h.mctrlWrite (.ite h (.ite h h)))))

theorem regRead {off : Nat} (h : s.Formed) : (s.regRead q off).2.Formed := by
  unfold State.regRead
  simp only [apply_ite Prod.snd]
  iterate 10 refine .ite h ?_
  exact .ite h.semRead h

theorem regReadPart {off n : Nat} (h : s.Formed) : (s.regReadPart q off n).2.Formed := by
  unfold State.regReadPart
  split
  · exact h.regRead
  · dsimp only
    split <;> exact h

theorem regWrite {off : Nat} {v : Word} (h : s.Formed) : (s.regWrite q off v).Formed :=
  .ite h.mgmtWrite <| .ite h <| .ite (.ite h.queueWrite h) <| .ite h <| .ite h.preemptQuad <| .ite h.dqflushWrite <|
    .ite h.pgrqWrite <| .ite h.spillWrite <| .ite h.ctxWrite <| .ite (.ite h h) <| .ite (.ite h h) <|
    .ite (.ite h.writeDbgctl h) <| .ite h.semWrite h

theorem regWritePart {off n v : Nat} (h : s.Formed) : (s.regWritePart q off n v).Formed :=
  .ite h.regWrite (.ite h.regWrite h)

end State.Formed

end Sys2Proof.Machine
end

section
/-! SUPPORT. Bodies of meanings, and the accesses of parties: how a body keeps the form of memory when it reads and writes
memory or register space. -/

namespace Sys2Proof.Machine

variable {α β : Type} {s : State}

/-! ## Rules for bodies -/

/-- However a run ends, the machine that it leaves is formed. -/
def Kept : Except Stop (α × State) → Prop
  | .ok r => r.2.Formed
  | .error e => e.state.Formed

theorem KeepsForm.of_kept {m : Act α} (hm : ∀ {s : State}, s.Formed → Kept (m s)) : KeepsForm m := by
  intro s h
  have := hm h
  cases e : m s <;> rw [e] at this <;> exact this

theorem KeepsForm.kept {m : Act α} (hm : KeepsForm m) (h : s.Formed) : Kept (m s) := by
  have := hm s h
  cases e : m s <;> rw [e] at this <;> exact this

theorem KeepsForm.change {f : State → State} (hf : ∀ {s : State}, s.Formed → (f s).Formed) : KeepsForm (Machine.upd f) :=
  .upd fun _ h => hf h

theorem Kept.trap {t : Trap} (h : s.Formed) : Kept (.error (.trap t s) : Except Stop (α × State)) := h

theorem Kept.ite {c : Prop} [Decidable c] {x y : Except Stop (α × State)} (hx : Kept x) (hy : Kept y) :
    Kept (if c then x else y) := by
  split <;> assumption

/-- A statement that is performed under a condition, and what follows it. -/
theorem KeepsForm.when {c : Prop} [Decidable c] {m : Act Unit} {k : Unit → Act α} (hm : KeepsForm m)
    (hk : ∀ b, KeepsForm (k b)) : KeepsForm (if c then m >>= k else k ()) := .ite (.bind hm hk) (hk ())

theorem KeepsForm.unless {c : Prop} [Decidable c] {m : Act Unit} {k : Unit → Act α} (hm : KeepsForm m)
    (hk : ∀ b, KeepsForm (k b)) : KeepsForm (if c then k () else m >>= k) := .ite (hk ()) (.bind hm hk)

theorem KeepsForm.either {c : Prop} [Decidable c] {m n : Act Unit} {k : Unit → Act α} (hm : KeepsForm m)
    (hn : KeepsForm n) (hk : ∀ b, KeepsForm (k b)) : KeepsForm (if c then m >>= k else n >>= k) :=
  .ite (.bind hm hk) (.bind hn hk)

/-! ## Stores of parties (R191) -/

namespace State.Formed

theorem putLE {r : Role} {pa n v : Nat} (h : s.Formed) : (s.putLE r pa n v).Formed := .ite (wf_writeLE h pa n v) h.storeLE

theorem putCells {r : Role} {cs : List (Nat × Byte)} (h : s.Formed) : (s.putCells r cs).Formed :=
  .ite (wf_writeCells h cs) h.storeCells

theorem storeNext {r : Role} {idem : Bool} {pa n v : Nat} (h : s.Formed) : (s.storeNext r idem pa n v).Formed :=
  h.pass.putLE.sdcWrite.notePort.traffic.remember

theorem storeBefore {r : Role} {pa n v k : Nat} (h : s.Formed) : (s.storeBefore r pa n v k).Formed :=
  .traffic (.notePort (.foldl .sdcWrite (.putCells h.pass)))

theorem partyStore {r : Role} {x : Xlat} {n v : Nat} (h : s.Formed) : (s.partyStore r x n v).Formed := by
  unfold State.partyStore
  split
  · exact h.storeNext
  · dsimp only
    split
    · exact .storeNext (s := s.fresh.2) h
    · exact .storeBefore (s := s.fresh.2) h

theorem noteStores {oc : BitVec 4} {p : PageMap} {va : Nat} {bs : List Byte} (h : s.Formed) :
    (s.noteStores oc p va bs).Formed := .foldl (fun h => h.pass.remember) h

theorem storeMapped {p : PageMap} {va : Nat} {bs : List Byte} (h : s.Formed) : (s.storeMapped p va bs).Formed :=
  .foldl .notePort (.rangeTraffic (.foldl .sdcWrite h.storeCells))

end State.Formed

/-! ## Accesses of parties (R40, R168, R171) -/

namespace KeepsForm

theorem alignCourses : KeepsForm alignCourses := .change .orderAll

theorem readAt {src va n : Nat} {x : Xlat} {r : Role} : KeepsForm (readAt src va x n r) := by
  unfold Machine.readAt
  refine .ite (.of_kept fun h => h.regReadPart.pass) (.bind (.checkData _ _ _ _) fun _ => .of_kept fun {s} h => ?_)
  dsimp only
  split
  · exact h.traffic.pass
  · refine State.Formed.pastRead ?_
    split
    · exact h.pickCached
    · exact h.traffic

theorem writeAt {x : Xlat} {n v : Nat} {r : Role} : KeepsForm (writeAt x n v r) :=
  .change fun h => .ite h.pass.regWritePart h.partyStore

theorem loadScalarAt {va n : Nat} {oc : BitVec 4} : KeepsForm (loadScalarAt va n oc) :=
  .bind (.look _) fun _ => .bind (.walkerGate _) fun _ => .bind (.xlat _ _) fun _ => .bind .readAt fun _ => .pure _

theorem loadScalar {va n : Nat} {oc : BitVec 4} : KeepsForm (loadScalar va n oc) :=
  .bind .loadScalarAt fun _ => .pure _

theorem storeScalar {va n v : Nat} {oc : BitVec 4} : KeepsForm (storeScalar va n v oc) :=
  .bind (.look _) fun _ => .bind (.walkerGate _) fun _ => .bind (.xlat _ _) fun _ => .writeAt

theorem fetchWord {pc : Word} : KeepsForm (fetchWord pc) :=
  .bind (.look _) fun _ => .bind (.walkerGate _) fun _ => .bind (.xlat _ _) fun _ => .bind (.checkData _ _ _ _) fun _ =>
    .of_kept fun h => h.pickCached

/-! ## Scalar instructions -/

theorem loadOp {sg : Bool} {n : Nat} {d b : Reg} {c : BitVec 4} {f : BitVec 8} : KeepsForm (loadOp sg n d b c f) :=
  .bind (.check _) fun _ => .bind (.readX _) fun _ => .bind .loadScalarAt fun _ => .bind (.change .openLoad) fun _ =>
    .writeX _ _

theorem storeOp {n : Nat} {d b : Reg} {c : BitVec 4} {f : BitVec 8} : KeepsForm (storeOp n d b c f) :=
  .bind (.check _) fun _ => .bind (.readX _) fun _ => .bind (.readX _) fun _ => .storeScalar

theorem ldpOp {sg : Bool} {n : Nat} {d b : Reg} {w : BitVec 2} {f : BitVec 8} : KeepsForm (ldpOp sg n d b w f) :=
  .bind (.check _) fun _ => .bind (.readX _) fun _ => .bind (.look _) fun _ => .bind (.look _) fun _ =>
    .bind (.trapIf _ _ _) fun _ => .bind (.trapIf _ _ _) fun _ => .bind (.trapIf _ _ _) fun _ => .bind .loadScalarAt fun _ =>
    .bind (.change .openLoad) fun _ => .writeX _ _

theorem amoOp {sg : Bool} {d a b : Reg} {z : BitVec 1} {o : BitVec 2} {q : BitVec 4} {kind : Nat → Nat → AtomKind}
    {new : Nat → Nat → Nat → Nat → Option Nat} : KeepsForm (amoOp sg d a b z o q kind new) :=
  .bind (.check _) fun _ => .bind (.readX _) fun _ => .bind (.readX _) fun _ => .bind (.readX _) fun _ =>
    .bind (.look _) fun _ => .bind (.walkerGate _) fun _ => .bind (.xlat _ _) fun _ =>
    .unless .alignCourses fun _ => .when (.change .podRelease) fun _ => .bind (.atomicAt _ _ _ _ _ _ _) fun _ =>
    .ite (.bind .acquire fun _ => .writeX _ _) (.when .alignCourses fun _ => .writeX _ _)

end KeepsForm

end Sys2Proof.Machine
end

section
/-! SUPPORT. The pool keeps the form of memory: rows and marks, landed bits, the frames of per-row instructions and of those
over all rows, and the accesses of vectors and planes. -/

namespace Sys2Proof.Machine

variable {α : Type} {s : State}

namespace State.Formed

/-! ## Rows, marks and what Epvimond logs of them (R120, R121) -/

theorem setRow {j : Nat} {r : Row} (h : s.Formed) : (s.setRow j r).Formed := h
theorem mark {lo hi : Nat} {cols : BitVec 1024} {lats : BitVec 4} (h : s.Formed) : (s.mark lo hi cols lats).Formed :=
  .ite h h

theorem logRowOf {k : Nat} {core : Fin 192} {c n : Nat} {cols : BitVec 1024} (h : s.Formed) :
    (s.logRowOf k core c n cols).Formed := .foldl .logEvent h

theorem logRows {c : Nat} {rows : List Nat} {cols : Nat → BitVec 1024} (h : s.Formed) : (s.logRows c rows cols).Formed :=
  .foldl .logRowOf h

theorem logRowsOf {core : Fin 192} {c : Nat} {rows : List Nat} {cols : BitVec 1024} (h : s.Formed) :
    (s.logRowsOf core c rows cols).Formed := .foldl .logRowOf h

theorem logSite {k : Nat} {core : Fin 192} {c : Nat} {row : Option Nat} {pa : Nat} {cols : BitVec 1024} (h : s.Formed) :
    (s.logSite k core c row pa cols).Formed := by
  cases row with
  | none => exact h.logEvent
  | some n => exact h.logRowOf

theorem observe {regs : List Nat} (h : s.Formed) : (s.observe regs).Formed := .ite h h

theorem ordinaryVc {r : Nat} (h : s.Formed) : (s.ordinaryVc r).Formed := .ite h h
theorem destVc {r : Nat} (h : s.Formed) : (s.destVc r).Formed := .foldl (fun h => h) h.ordinaryVc
theorem passVc {l : List Nat} (h : s.Formed) : (s.passVc l).Formed := .foldl .ordinaryVc h

theorem planVc {p : Plan} (h : s.Formed) : (s.planVc p).Formed := by
  refine .foldl (fun h => ?_) h
  split
  · exact h.destVc
  · exact .foldl (fun h => h) h

theorem scramble {k : Scramble} {rows : List Nat} (h : s.Formed) : (s.scramble k rows).Formed := .foldl .setRow h
theorem spoil {p : Plan} (h : s.Formed) : (s.spoil p).Formed := h.mark
theorem rowSpoil {p : Plan} {bad : List Nat} (h : s.Formed) : (s.rowSpoil p bad).Formed := h.spoil.logRows
theorem clearMasons {rows : List Nat} (h : s.Formed) : (s.clearMasons rows).Formed := .ite h h
theorem spoilCourses {p : Plan} {cs : List Nat} (h : s.Formed) : (s.spoilCourses p cs).Formed := .ite h (.foldl .mark h)

theorem rowOrder {p : Plan} (h : s.Formed) : (s.rowOrder p).Formed := .ite h (.ite h (.ite h h.pass))

theorem keepSkipped {old : State} (h : s.Formed) : (s.keepSkipped old).Formed := .ite h (.foldl .setRow h)

theorem writeCmask {act : List Nat} {f : Nat → Bool} (h : s.Formed) : (s.writeCmask act f).Formed :=
  .ite h (.foldl .setRow h)

theorem clearHeld (h : s.Formed) : s.clearHeld.Formed := .ite h h

theorem putSegs {t : State} {d : Reg} {w : Nat} {rows : List (Nat × Nat)} (h : t.Formed) : (s.putSegs t d w rows).Formed :=
  .foldl .setRow h

theorem setVl {n : Nat} {seg : BitVec 3} (h : s.Formed) : (s.setVl n seg).Formed := .modHart h.mark

theorem report {v : VecAcc} {done : List Nat} {u : State} (h : u.Formed) : (v.report s done u).Formed := by
  unfold VecAcc.report
  split
  · exact h
  · exact h.writeCmask

end State.Formed

namespace KeepsForm

/-! ## Landed bits and checks before an instruction (R120, R134) -/

theorem landedGate {regs : List Nat} : KeepsForm (landedGate regs) := .of_kept fun h => .ite h.observe h
theorem abnCheck {rows : List Nat} {srcs : List (Nat × AbnKind)} : KeepsForm (abnCheck rows srcs) :=
  .of_kept fun h => .ite h h
theorem landedStop {fs : List FailedSlice} : KeepsForm (landedStop fs : Act α) := .of_kept fun h => h

theorem landedAll {regs : List Nat} : KeepsForm (landedAll regs) :=
  .bind .landedGate fun _ => .ite (.pure _) .landedStop

theorem replayStep : KeepsForm replayStep := .change fun h => h

theorem rowCheck {p : Plan} {rows : List Nat} : KeepsForm (rowCheck p rows) := by
  refine .of_kept fun h => ?_
  unfold Machine.rowCheck
  split
  · exact .clearMasons h
  · split
    · exact h
    · exact .rowSpoil h

theorem raiseHeld : KeepsForm raiseHeld := by
  refine .of_kept fun h => ?_
  unfold Machine.raiseHeld
  split
  · exact h
  · exact h.clearHeld

theorem slabJoin : KeepsForm slabJoin := .bind (.look _) fun _ => .ite .stall .raiseHeld
theorem streamJoin : KeepsForm streamJoin := .bind (.look _) fun _ => .ite .slabJoin (.pure _)

/-! ## The frames of pool instructions -/

theorem failedRow {p : Plan} {k : RowStops} : KeepsForm (perRow.failedRow p k) :=
  .bind (.change .spoilCourses) fun _ => .of_kept fun h =>
    State.Formed.ite (.clearMasons h) (.rowSpoil (.clearMasons h))

theorem perRow {p : Plan} {f : State → Nat → Row × BitVec 5} : KeepsForm (perRow p f) :=
  .bind .landedGate fun _ => .bind (.look _) fun _ => .bind .abnCheck fun _ => .bind (.change fun h => .foldl .setRow h)
    fun _ => .bind (.change .scramble) fun _ => .bind (.change .mark) fun _ => .bind (.change .rowOrder) fun _ =>
    .bind (.change fun h => h) fun _ => .ite (.bind (.change .planVc) fun _ => .replayStep) .failedRow

theorem allRows {p : Plan} {rows : List Nat} {body : Act Unit} (hb : KeepsForm body) : KeepsForm (allRows p rows body) :=
  .bind .landedGate fun _ => .bind (.look _) fun _ => .ite (.bind (.change .spoilCourses) fun _ => .landedStop)
    (.bind .abnCheck fun _ => .bind .rowCheck fun _ => .bind hb fun _ => .bind (.change .rowOrder) fun _ =>
      .bind (.change .keepSkipped) fun _ => .bind (.change .mark) fun _ => .replayStep)

theorem passRow {sense write : List Nat} {lats : BitVec 4} {f : Row → Row} {wr : Row → Bool} :
    KeepsForm (passRow sense write lats f wr) :=
  .bind (.look _) fun _ => .bind .perRow fun _ => .change .passVc

theorem senseOp {d : Reg} {sf : BitVec 11} {f : State → List Nat → Word} : KeepsForm (senseOp d sf f) :=
  .bind (.check _) fun _ => .bind (.trapIf _ _ _) fun _ => .bind (.look _) fun _ => .allRows (.writeX _ _)

/-! ## Vector arithmetic -/

theorem elemOp {l : Legal} {d : Reg} {dw : Nat} {srcs : List Src} {f : State → Nat → Nat × BitVec 5} :
    KeepsForm (elemOp l d dw srcs f) := .bind (.check _) fun _ => .bind (.look _) fun _ => .perRow

theorem maskOp {l : Legal} {k : BitVec 3} {srcs : List Src} {f : State → Nat → Bool × BitVec 5} :
    KeepsForm (maskOp l k srcs f) := .bind (.check _) fun _ => .bind (.look _) fun _ => .perRow

theorem quantise {cw : Nat} {d a b : Reg} {e : BitVec 4} {sf : BitVec 3} : KeepsForm (quantise cw d a b e sf) :=
  .bind (.check _) fun _ => .bind (.trapIf _ _ _) fun _ => .bind (.look _) fun _ => .perRow

theorem moveOp {l : Legal} {d a : Reg} {e : BitVec 4} {f : State → Nat → Nat} : KeepsForm (moveOp l d a e f) :=
  .bind (.check _) fun _ => .bind (.look _) fun _ => .perRow

theorem crossOp {l : Legal} {d a : Reg} {e : BitVec 4} {cols : BitVec 1024} {srcs : State → List Nat}
    {f : State → Nat → Nat} : KeepsForm (crossOp l d a e cols srcs f) :=
  .bind (.check _) fun _ => .bind (.look _) fun _ => .allRows <| .bind (.change fun h => .foldl .setRow h) fun _ =>
    .bind (.change .scramble) fun _ => .change .planVc

theorem slideOp {up : Bool} {d a b : Reg} {e : BitVec 4} {imm : BitVec 3} : KeepsForm (slideOp up d a b e imm) :=
  .bind (.look _) fun _ => .crossOp

theorem reduceOp {o : RedOp} {d a : Reg} {e : BitVec 4} {sf : BitVec 1} {r : BitVec 3} :
    KeepsForm (reduceOp o d a e sf r) :=
  .bind (.look _) fun _ => .bind (.check _) fun _ => .bind (.look _) fun _ => .allRows <|
    .bind (.change fun h => h) fun _ => .either (.writeX _ _) (.change .putSegs) fun _ => .bind (.change .scramble) fun _ =>
    .change .planVc

theorem scanOp {o : RedOp} {d a : Reg} {e : BitVec 4} {r : BitVec 3} : KeepsForm (scanOp o d a e r) :=
  .bind (.check _) fun _ => .bind (.look _) fun _ => .allRows <| .bind (.change fun h => h) fun _ =>
    .bind (.change .putSegs) fun _ => .bind (.change .scramble) fun _ => .change .planVc

/-! ## Vector and plane accesses (R174 to R177, R393) -/

theorem portTrap {src : Nat} {bad : List Nat} {cols : BitVec 1024} : KeepsForm (portTrap src bad cols : Act α) :=
  .of_kept fun h => h.logRows

theorem portRead {src j : Nat} : KeepsForm (portRead src j) :=
  .of_kept fun h => .ite (KeepsForm.portTrap.kept h) h

theorem portWrite {src j : Nat} {cols : BitVec 1024} : KeepsForm (portWrite src j cols) :=
  .of_kept fun h => .ite (KeepsForm.portTrap.kept h) (State.Formed.ite h h)

theorem landedStore {v : VecAcc} : KeepsForm (landedStore v) :=
  .bind (.look _) fun _ => .bind .landedGate fun _ => .ite (.pure _) (.of_kept fun h => .report h)

end KeepsForm

theorem Run.row_formed {strict : Bool} {el : Element} {r : Run} {j : Nat} (hel : KeepsForm (el j)) (h : r.s.Formed) :
    (Run.row strict el r j).s.Formed := by
  have he := hel.kept h
  unfold Run.row
  dsimp only
  split
  · exact h
  · split <;> rename_i e <;> rw [e] at he
    · exact he
    · exact he
    · exact .ite he he
    · exact he
    · exact he

theorem runRows_formed {strict : Bool} {bad rows : List Nat} {el : Element} (hel : ∀ j, KeepsForm (el j)) (h : s.Formed) :
    (runRows strict bad rows el s).s.Formed :=
  .foldl_part (g := Run.s) (fun h => Run.row_formed (hel _) h) (.ite h h)

theorem Run.sealed_formed {r : Run} {before : State} (h : r.s.Formed) : (r.sealed before).Formed := .ite h h.recheck

namespace KeepsForm

theorem vecAccess {v : VecAcc} {el : State → Element} (hel : ∀ s j, KeepsForm (el s j)) : KeepsForm (vecAccess v el) := by
  unfold Machine.vecAccess
  refine .when .landedStore fun _ => .bind .landedGate fun fs => .bind (.look _) fun u => .bind .abnCheck fun _ =>
    .bind (.walkerGate _) fun _ => .of_kept fun {s} h => ?_
  dsimp only
  split
  · exact .report h
  · have hr {strict : Bool} {bad rows : List Nat} :
        ((runRows strict bad rows (el u) (if strict then s.orderAll else s)).sealed s).Formed :=
      Run.sealed_formed (runRows_formed (hel u) (.ite h.orderAll h))
    split
    · exact State.Formed.modHart (.foldl .destVc (.ite (.report hr) hr))
    · exact .report hr

theorem loadAt {src w va bit : Nat} {regs : List Nat} {r : Role} {x : Xlat} {j : Nat} :
    KeepsForm (loadAt src w va bit regs r x j) :=
  .bind .readAt fun _ => .bind (.look _) fun _ => .bind .portWrite fun _ => .bind (.change fun h => .openLoad h) fun _ =>
    .pure _

theorem loadElem {src w va bit : Nat} {regs : List Nat} {dev : Bool} {r : Role} {j : Nat} :
    KeepsForm (loadElem src w va bit regs dev r j) := .bind (.xlat _ _) fun _ => .loadAt

theorem storeElem {src w va bit reg : Nat} {dev : Bool} {r : Role} {j : Nat} :
    KeepsForm (storeElem src w va bit reg dev r j) :=
  .bind (.xlat _ _) fun _ => .bind .portRead fun _ => .bind (.look _) fun _ =>
    .ite (.bind .writeAt fun _ => .pure _) (.bind (.look _) fun _ => .bind .writeAt fun _ => .pure _)

theorem indexed {src : Nat} {el : Element} {j : Nat} (hel : ∀ j, KeepsForm (el j)) : KeepsForm (indexed src el j) :=
  .bind .portRead fun _ => hel j

theorem rowLocal {store : Bool} {d a : Reg} {e : BitVec 4} : KeepsForm (rowLocal store d a e) :=
  .bind (.check _) fun _ => .bind (.readX _) fun _ => .bind (.look _) fun _ => .bind (.trapIf _ _ _) fun _ =>
    .when .landedAll fun _ => .perRow

theorem planeCheck {src : Nat} {cols : BitVec 1024} {bad rows : List Nat} {j : Nat} :
    KeepsForm (planeCheck src cols bad rows j) := by
  unfold Machine.planeCheck
  split
  · exact .pure _
  · exact .ite .portTrap (.pure _)

theorem planeOp {store : Bool} {l : Legal} {a : Reg} {oc : BitVec 4} {regs dests : List Nat} {cols : State → List Nat} :
    KeepsForm (planeOp store l a oc regs dests cols) :=
  .bind (.check _) fun _ => .bind (.readX _) fun _ => .vecAccess fun _ _ => .bind (.xlat _ _) fun _ =>
    .bind .planeCheck fun _ => .ite
      (.bind (.look _) fun _ => .bind (.look _) fun _ => .bind .writeAt fun _ => .pure _)
      (.bind .readAt fun _ => .bind (.change fun h => .ite h (.openLoad h)) fun _ => .pure _)

end KeepsForm

/-! ## Gathers that do not block or do not fault (R178, R179) -/

theorem State.Formed.scatterTies {d w : Nat} {oc : BitVec 4} {rows : List (Nat × Nat)} (h : s.Formed) :
    (s.scatterTies d w oc rows).Formed := by
  refine .foldl (fun {u p} h => .ite h ?_) h
  have hk {j : Nat} := KeepsForm.kept (s := u.fresh.2)
    (KeepsForm.storeElem (src := 5) (w := w) (va := p.2) (bit := 0) (reg := d) (dev := false) (r := storeRole oc) (j := j)) h
  dsimp only
  split
  · next e => have := e ▸ hk; exact this
  · exact h

namespace KeepsForm

theorem issueRows {nf : Bool} {al : Nat} {ps : List (Nat × Nat)} : KeepsForm (issueRows nf al ps) := by
  induction ps with
  | nil => exact .pure _
  | cons p ps ih =>
    refine .of_kept fun h => ?_
    unfold Machine.issueRows
    split
    · next e =>
      have hr := ih.kept (h.translate_ok e)
      split <;> rename_i e <;> rw [e] at hr <;> exact hr
    · next e => exact .ite (ih.kept (h.translate_fault e)) (h.translate_fault e)

theorem withCmask {before : State} {m : Act Unit} (hm : KeepsForm m) : KeepsForm (withCmask before m) := by
  refine .of_kept fun h => ?_
  have hk := hm.kept h
  unfold Machine.withCmask
  split
  · next e =>
    rw [e] at hk
    exact .writeCmask hk
  · exact hk

theorem landedPending {regs : List Nat} : KeepsForm (landedPending regs) := .of_kept fun h => .ite h h

theorem indexCheck {rows : List Nat} : KeepsForm (indexCheck rows) := by
  refine .of_kept fun h => ?_
  unfold Machine.indexCheck
  split
  · exact h
  · exact KeepsForm.portTrap.kept h

theorem gatherNb {nf : Bool} {d b : Reg} {e : BitVec 4} {w : BitVec 1} {oc : BitVec 4} {base : Word} :
    KeepsForm (gatherNb nf d b e w oc base) :=
  .bind (.look _) fun _ => .bind (.withCmask .landedAll) fun _ => .bind (.look _) fun _ => .bind .landedPending fun _ =>
    .bind .abnCheck fun _ => .bind (.walkerGate _) fun _ => .bind (.withCmask <|
      .bind .indexCheck fun _ => .bind .issueRows fun _ => .bind (.change fun h => .foldl (fun h => h) h) fun _ =>
      .bind (.change fun h => .foldl .traffic h) fun _ => .bind (.change fun h => .ite h h) fun _ =>
      .bind (.change .destVc) fun _ => .ite (.change .writeCmask) (.pure _)) fun _ => .replayStep

theorem loadElemNf {src w va : Nat} {regs : List Nat} {r : Role} {j : Nat} : KeepsForm (loadElemNf src w va regs r j) := by
  refine .of_kept fun h => ?_
  unfold Machine.loadElemNf
  split
  · next e => exact KeepsForm.loadAt.kept (h.translate_ok e)
  · next e => exact .ite (h.translate_fault e) (h.translate_fault e)

end KeepsForm

end Sys2Proof.Machine
end

section
/-! SUPPORT. Synchronisation keeps the form of memory: barriers of gangs, groups and pods, barrier objects, waits on values,
control and status registers. -/

namespace Sys2Proof.Machine

variable {s : State}

namespace State.Formed

/-! ## Barriers (R22, R23, R344) -/

theorem modArrived {a : Arrival} {f : Hart → Hart} (h : s.Formed) : (s.modArrived a f).Formed := by
  simpa only [State.Formed, State.modArrived] using h

theorem depart {as : List Arrival} (h : s.Formed) : (s.depart as).Formed := .foldl .modArrived h
theorem refuseArrivals {as : List Arrival} (h : s.Formed) : (s.refuseArrivals as).Formed := .foldl .modArrived h
theorem podSend {m : Nat} {msg : List Byte} (h : s.Formed) : (s.podSend m msg).Formed := h
theorem putBarrier {b : Barrier} (h : s.Formed) : (s.putBarrier b).Formed := h
theorem setPodPhase {k b : Nat} {p : Bool} (h : s.Formed) : (s.setPodPhase k b p).Formed := h

theorem podSettle {podkey bid k : Nat} {b : Barrier} (h : s.Formed) : (s.podSettle podkey bid b k).Formed := by
  induction k generalizing s b with
  | zero => exact h.putBarrier
  | succ k ih => exact .ite h.putBarrier (ih (.setPodPhase (.foldl .podSend h.depart)))

theorem settleBarrier {b : Barrier} (h : s.Formed) : (s.settleBarrier b).Formed := by
  unfold State.settleBarrier
  split
  · exact .ite (.depart h) h
  · exact .ite (.depart h) h
  · exact .ite h.podSettle h

theorem arrive {key : BarKey} {n : Nat} (h : s.Formed) : (s.arrive key n).Formed :=
  .settleBarrier (.modHart (.ite h h.putBarrier))

theorem leaveBarriers (h : s.Formed) : s.leaveBarriers.Formed := .foldl .settleBarrier h
theorem retireBar {w : Bool} (h : s.Formed) : (s.retireBar w).Formed := .ite h.complete.takeWaiting h.retire

theorem podArrive {m : List Byte} (h : s.Formed) : (s.podArrive m).Formed :=
  .ite h.podSend (.podSettle (.ite h h.putBarrier))

theorem podDepart {m : List Byte} (h : s.Formed) : (s.podDepart m).Formed := by
  unfold State.podDepart
  dsimp only
  split
  · exact h.setPodPhase
  · exact h.setPodPhase.putBarrier.depart

theorem podRefuse {m : List Byte} (h : s.Formed) : (s.podRefuse m).Formed := by
  unfold State.podRefuse
  split
  · exact h
  · exact h.putBarrier.refuseArrivals

theorem podReceive {m : List Byte} (h : s.Formed) : (s.podReceive m).Formed :=
  .ite (.logEvent h) (.ite (.ite (.podArrive h) h) (.ite (.podDepart h) (.ite (.podRefuse h) (.logEvent h))))

theorem podFlush {id : Nat} (h : s.Formed) : (s.podFlush id).Formed := by
  unfold State.podFlush
  split
  · exact h
  · split
    · refine .ite h ?_
      simpa only [State.Formed, State.podSend, State.putBarrier] using h
    · exact h

/-! ## Barrier objects (R88 to R93) -/

theorem mbarWrite {c : Fin 192} {m : Mbar} {o : MbarObj} (h : s.Formed) : (s.mbarWrite c m o).Formed := by
  unfold State.mbarWrite
  split
  · exact h.storeLE.touchHbm
  · exact h.modCoreAt

theorem mbarSeen {m : Mbar} {o : MbarObj} (h : s.Formed) : (s.mbarSeen m o).Formed := by
  cases m with
  | mem va pa => exact h.sdcWrite
  | pool off => exact h

theorem mbarInit {c : Fin 192} {m : Mbar} {o : MbarObj} {t : State} (h : s.Formed) (e : s.mbarInit c m o = .ok t) :
    t.Formed := by
  unfold State.mbarInit at e
  split at e
  · split at e
    · cases e
    · cases e
      exact h.mbarWrite
  · split at e
    · cases e
    · cases e
      exact h.mbarWrite

theorem mbarSubtract {c : Fin 192} {tag n : Nat} {m : Mbar} {f : Bool} {t : State} (h : s.Formed)
    (e : s.mbarSubtract c tag m n f = .ok t) : t.Formed := by
  unfold State.mbarSubtract at e
  split at e
  · cases e
  · cases e
    exact h.reachUnit.mbarWrite

/-! ## Waits on values, and control and status registers -/

theorem flagsDone {a : Reg} {met : List (Nat × Bool)} (h : s.Formed) : (s.flagsDone a met).Formed := by
  have hm : (if s.hart.cmask = 0 then s
      else met.foldl (fun s p => s.setRow p.1 ((s.row p.1).putBit s.hart.cmask.toNat p.2)) s).Formed :=
    .ite h (.foldl .setRow h)
  exact hm

theorem csrWrite {n : Nat} {v : Word} (h : s.Formed) : (s.csrWrite n v).Formed := by
  unfold State.csrWrite
  repeat' refine .ite ?_ ?_
  all_goals exact h

end State.Formed

namespace KeepsForm

/-! ## Barrier objects in instructions (R344) -/

theorem mbarVa {src va : Nat} {k : AccKind} : KeepsForm (mbarVa src va k) := by
  refine .of_kept fun {s} h => ?_
  have hr : (s.resolve s.agent va).2.Formed := h.of_mem (resolve_mem ..)
  unfold Machine.mbarVa
  dsimp only
  refine .ite h (.ite h ?_)
  split
  · exact hr
  · exact hr.logEvent
  · exact hr.logCheck
  · split
    · exact hr
    · exact .ite hr hr

theorem mbarPool {l : Word} : KeepsForm (mbarPool l) := .bind (.look _) fun _ => .bind (.trapIf _ _ _) fun _ => .pure _

theorem mbarOperand {a : Reg} {p : BitVec 1} : KeepsForm (mbarOperand a p) :=
  .bind (.readX _) fun _ => .bind (.look _) fun _ => .when (.walkerGate _) fun _ => .ite .mbarPool .mbarVa

theorem mbarFail {α : Type} {m : Mbar} {a : Site} : KeepsForm (mbarFail m a : Act α) := by
  refine .of_kept fun h => ?_
  cases m with
  | mem va pa => exact .trap h.logSite
  | pool off => exact .trap h.logSite

theorem mbarLoad {m : Mbar} : KeepsForm (mbarLoad m) := by
  refine .bind (.look _) fun s => ?_
  split
  · refine .bind (.change fun h => ?_) fun _ => .pure _
    split
    · exact h.touchHbm
    · exact h
  · exact .mbarFail

theorem mbarStore {m : Mbar} {o : MbarObj} : KeepsForm (mbarStore m o) := .change fun h => h.mbarWrite.mbarSeen

theorem mbarNew {m : Mbar} {o : MbarObj} : KeepsForm (mbarNew m o) := by
  refine .of_kept fun h => ?_
  unfold Machine.mbarNew
  split
  · next e => exact (h.mbarInit e).mbarSeen
  · exact KeepsForm.mbarFail.kept h

theorem mbarOp {sf : BitVec 3} {a : Reg} {p : BitVec 1} {bad : State → Bool} {step : State → MbarStep} :
    KeepsForm (mbarOp sf a p bad step) := by
  refine .bind (.check _) fun _ => .bind .streamJoin fun _ => .bind .mbarOperand fun _ => .bind (.look _) fun s =>
    .bind (.trapIf _ _ _) fun _ => .bind .alignCourses fun _ => .bind (.change .reachUnit) fun _ => ?_
  split
  · exact .mbarNew
  · exact .when (.change .podRelease) fun _ => .bind .mbarLoad fun _ => .mbarStore

/-! ## Waits on values (R347) -/

theorem checkFlags {vas : List Nat} : KeepsForm (checkFlags vas) := by
  induction vas with
  | nil => exact .pure _
  | cons va vas ih => exact .bind (.xlat _ _) fun _ => .bind ih fun _ => .pure _

theorem readFlags {l : List (Nat × Nat)} : KeepsForm (readFlags l) := by
  induction l with
  | nil => exact .pure _
  | cons p l ih =>
    exact .bind (.checkData _ _ _ _) fun _ => .bind (.look _) fun _ => .bind (.change .traffic) fun _ =>
      .bind ih fun _ => .pure _

theorem waitvOp {ge : Bool} {d a o e : Reg} : KeepsForm (waitvOp ge d a o e) :=
  .bind (.check _) fun _ => .bind (.readX _) fun _ => .bind (.readX _) fun _ => .bind .landedAll fun _ =>
    .bind (.look _) fun _ => .bind .abnCheck fun _ => .bind .rowCheck fun _ => .bind .alignCourses fun _ =>
    .bind (.walkerGate _) fun _ => .bind .checkFlags fun _ => .bind .readFlags fun _ => .bind (.look _) fun _ =>
    .ite (.bind .acquire fun _ => .change .flagsDone) (.bind (.change .modHart) fun _ => .park)

/-! ## Control and status registers, traps (R348, R351) -/

theorem csrOp {d : Reg} {n : BitVec 10} {f : State → Word → Option Word} : KeepsForm (csrOp d n f) := by
  unfold Machine.csrOp
  refine .bind (.check _) fun _ => .bind (.look _) fun _ => ?_
  dsimp only
  split
  on_goal 1 => refine .bind (.raise _ _) fun _ => ?_
  all_goals
    refine .bind .streamJoin fun _ => .bind (.look _) fun _ => .when .acquire fun _ => ?_
    split
    · exact .writeX _ _
    · exact .bind (.change .csrWrite) fun _ => .writeX _ _

theorem trapOp {st : Bool} {c : BitVec 8} {next : Bool} {code : BitVec 10} : KeepsForm (trapOp st c next code) :=
  .bind (.check _) fun _ => .bind .streamJoin fun _ => .raiseTrap _

/-! ## Scalar arithmetic and branches -/

theorem alu {d a b : Reg} {f : Word → Word → Word} : KeepsForm (alu d a b f) :=
  .bind (.check _) fun _ => .bind (.readX _) fun _ => .bind (.readX _) fun _ => .writeX _ _

theorem aluImm {d a : Reg} {f : Word → Word} : KeepsForm (aluImm d a f) :=
  .bind (.check _) fun _ => .bind (.readX _) fun _ => .writeX _ _

theorem fieldOp {d a : Reg} {p l : BitVec 6} {f : Word → Word → Word} : KeepsForm (fieldOp d a p l f) :=
  .bind (.check _) fun _ => .bind (.readX _) fun _ => .bind (.readX _) fun _ => .writeX _ _

theorem branchOn {a b : Reg} {off : BitVec 13} {c : Word → Word → Bool} : KeepsForm (branchOn a b off c) :=
  .bind (.check _) fun _ => .bind (.readX _) fun _ => .bind (.readX _) fun _ => .bind (.look _) fun _ => .pure _

theorem branchMask {k : BitVec 3} {off : BitVec 13} {c : List Bool → Bool} : KeepsForm (branchMask k off c) :=
  .bind (.check _) fun _ => .bind (.look _) fun _ => .bind .rowCheck fun _ => .bind (.look _) fun _ => .pure _

theorem smbAdvance {a v : Nat} {is : List (Fin 4)} : KeepsForm (smbAdvance a v is) := by
  induction is with
  | nil => exact .pure _
  | cons i is ih => exact .bind (.look _) fun _ => .bind (.readX _) fun _ => .bind (.writeX _ _) fun _ => ih

theorem preemptPoint : KeepsForm preemptPoint := .bind (.look _) fun _ => .trapIf _ _ _

end KeepsForm

end Sys2Proof.Machine
end

section
/-! SUPPORT. Copies and engine operations keep the form of memory: what an operation reads and writes, its completion, and
its issue. -/

namespace Sys2Proof.Machine

variable {s : State}

namespace State.Formed

/-! ## What engines read and write (R102, R196) -/

theorem sourceBytes {c : Fin 192} {k : Nat} {ps : PageMap} {mem : List Host.Cell} {e : End} {is : List Nat}
    (h : s.Formed) : (s.sourceBytes c k ps mem e is).2.2.Formed := by
  induction is generalizing s with
  | nil => exact h
  | cons i is ih =>
    unfold State.sourceBytes
    cases e with
    | mem va =>
      dsimp only
      split
      · exact h
      · refine ih ?_
        split
        · exact h.engineByte
        · exact h
    | pool l =>
      dsimp only
      split
      · exact h
      · exact ih h

theorem forkStore {past : List (List (Nat × Byte))} {cells : List (Nat × Byte)} (h : s.Formed) :
    (s.forkStore past cells).Formed :=
  .ite h.storeCells (.storeCells (s := s.fresh.2) h)

theorem engineStore {ps : PageMap} {past : List (List (Nat × Byte))} {va : Nat} {bs : List Byte} (h : s.Formed) :
    (s.engineStore ps past va bs).Formed := .foldl .notePort h.forkStore.rangeTraffic

theorem engineAtomic {ps : PageMap} {va old new : Nat} (h : s.Formed) : (s.engineAtomic ps va old new).Formed :=
  h.storeCells.atomicTraffic.notePort

theorem engineWrite {c : Fin 192} {k : Nat} {ps : PageMap} {past : List (List (Nat × Byte))} {e : End} {bs : List Byte}
    (h : s.Formed) : (s.engineWrite c k ps past e bs).1.Formed := by
  unfold State.engineWrite
  split
  · exact h.engineStore
  · exact h

theorem reduceBytes {c : Fin 192} {k : Nat} {ps : PageMap} {dst : End} {f32 : Bool} {i : Nat} {bs : List Byte}
    (h : s.Formed) : (s.reduceBytes c k ps dst f32 i bs).1.Formed := by
  cases dst with
  | mem va =>
    fun_induction State.reduceBytes s c k ps (.mem va) f32 i bs with
    | case1 => exact h
    | case2 => exact h.engineAtomic
    | case3 => next ih => exact ih h.engineAtomic
    | case4 => exact h
  | pool l =>
    fun_induction State.reduceBytes s c k ps (.pool l) f32 i bs with
    | case1 => exact h
    | case2 => exact h
    | case3 => next ih => exact ih h
    | case4 => exact h

theorem sourceTraffic {ps : PageMap} {e : End} {n : Nat} (h : s.Formed) : (s.sourceTraffic ps e n).Formed := by
  cases e with
  | mem va => exact h.rangeTraffic
  | pool l => exact h

theorem gatherRows {c : Fin 192} {k : Nat} {ps : PageMap} {mem : List Host.Cell} {l : Word} {rlen : Nat}
    {rows : List (Nat × Nat)} (h : s.Formed) : (s.gatherRows c k ps mem l rlen rows).1.Formed := by
  induction rows generalizing s with
  | nil => exact h
  | cons r rows ih =>
    unfold State.gatherRows
    dsimp only
    split
    · exact h.sourceBytes.sourceTraffic
    · split
      · exact h.sourceBytes.sourceTraffic
      · exact ih h.sourceBytes.sourceTraffic.modCoreAt

/-! ## Completion (R98, R101, R105) -/

theorem landSlice {x : SliceRef} (h : s.Formed) : (s.landSlice x).Formed := .ite h h
theorem failSlice {x : SliceRef} {op : Nat} {c : BitVec 8} {a : Word} (h : s.Formed) : (s.failSlice x op c a).Formed := h

theorem logEngine {c : Fin 192} {ps : PageMap} {k : Nat} {row : Bool} {a : Option Site} (h : s.Formed) :
    (s.logEngine c ps k row a).Formed := by
  cases a with
  | none => exact h
  | some a => exact h.logSite

theorem logMbar {c : Fin 192} {k : Nat} {a : Site} {m : Mbar} (h : s.Formed) : (s.logMbar c k a m).Formed := by
  cases m with
  | mem va pa => exact h.logSite
  | pool off => exact h.logSite

theorem subtractFor {c : Fin 192} {tag n : Nat} {m : Option Mbar} {k : BitVec 8} {f : Option (BitVec 8 × Word)}
    (h : s.Formed) : (s.subtractFor c tag m k n f).1.Formed := by
  unfold State.subtractFor
  split
  · exact h
  · split
    · next e => exact h.mbarSubtract e
    · exact h.logMbar

theorem settleSlices {o : EngineOp} {refs : List SliceRef} {w : Nat → Bool} {f : Option (BitVec 8 × Word)} (h : s.Formed) :
    (s.settleSlices o refs w f).Formed := by
  refine .foldl (fun h => .ite h.landSlice ?_) h
  split
  · exact h.failSlice
  · exact h.landSlice

theorem completeCopy {c : Fin 192} {o : EngineOp} {dest : Nat} (h : s.Formed) : (s.completeCopy c o dest).Formed := by
  unfold State.completeCopy
  split
  · refine .ite (.modCoreAt ?_) ?_
    all_goals
      refine .ite (.modCoreAt ?_) ?_
      all_goals
        split
        on_goal 1 => refine .ite (.settleSlices ?_) ?_
        all_goals
          refine .modCoreAt (.modCoreAt (.subtractFor (.logEngine (.logEngine ?_))))
          split
          · exact .reduceBytes h.forkMem.sourceBytes.sourceTraffic.reachUnit
          · exact .engineWrite h.forkMem.sourceBytes.sourceTraffic
  · exact h

theorem completeCopyg {c : Fin 192} {o : EngineOp} (h : s.Formed) : (s.completeCopyg c o).Formed := by
  unfold State.completeCopyg
  split
  · refine .ite (.settleSlices (.modCoreAt (.subtractFor ?_))) (.modCoreAt (.subtractFor ?_))
    all_goals
      split
      · exact h.forkMem.gatherRows.logEngine
      · exact h.forkMem.gatherRows
  · exact h

/-! ## Issue -/

theorem pushOp {ps : PageMap} {oc : BitVec 4} {k : OpKind} (h : s.Formed) : (s.pushOp ps oc k).Formed := h

theorem issueInto {k : Fin 8} {dests : List Nat} {l : Word} {rows : List Nat} (h : s.Formed) :
    (s.issueInto k dests l rows).Formed := .ite h (.foldl .modCoreAt h)

theorem issueCopyg {t : Nat} {oc : BitVec 4} {l : Word} {rlen : Nat} {rows : List (Nat × Nat)} {ps : PageMap}
    {mb : Option Mbar} (h : s.Formed) : (s.issueCopyg t oc l rlen rows ps mb).Formed :=
  .pushOp (.issueInto h.modCore)

end State.Formed

namespace KeepsForm

theorem locCheck {l : Word} {r : Core → Bool} : KeepsForm (locCheck l r) :=
  .bind (.look _) fun _ => .bind (.trapIf _ _ _) fun _ => .bind (.trapIf _ _ _) fun _ => .trapIf _ _ _

theorem endPages {acc : Acc} {e : End} {n : Nat} : KeepsForm (endPages acc e n) := by
  cases e with
  | mem va => exact .ite (.pure _) (.xlatRange _ _ _)
  | pool l => exact .pure _

theorem copyMbar {m mbp : Bool} {src : Nat} {r : Reg} : KeepsForm (copyMbar m mbp src r) :=
  .ite (.pure _) <| .bind (.readX _) fun _ => .unless (.walkerGate _) fun _ =>
    .ite (.bind .mbarPool fun _ => .pure _) (.bind .mbarVa fun _ => .pure _)

theorem mbarForm {m mbp : Bool} {r : Reg} : KeepsForm (mbarForm m mbp r) :=
  .ite (.bind (.readX _) fun _ => .bind .mbarPool fun _ => .pure _) (.pure _)

theorem endCheck {k : CopyKind} {e : End} {n : Nat} : KeepsForm (endCheck k e n) := by
  cases e with
  | mem va => exact .pure _
  | pool l => exact .bind .locCheck fun _ => .bind (.trapIf _ _ _) fun _ => .trapIf _ _ _

theorem copyOp {k : CopyKind} {d a n : Reg} {t : BitVec 6} {p sf m : BitVec 1} : KeepsForm (copyOp k d a n t p sf m) := by
  unfold Machine.copyOp
  refine .bind (.check _) fun _ => .bind (.look _) fun _ => .when .stall fun _ => .bind (.readX _) fun _ =>
    .bind (.readX _) fun _ => .bind (.readX _) fun _ => .bind (.readX _) fun _ => .bind (.trapIf _ _ _) fun _ =>
    .bind .endCheck fun _ => .bind .endCheck fun _ => .bind .mbarForm fun _ => .bind (.look _) fun _ =>
    .bind (.trapIf _ _ _) fun _ => .bind .copyMbar fun _ => .bind .endPages fun _ => .bind .endPages fun _ =>
    .bind (.change .modCore) fun _ => .bind (.change fun h => ?_) fun _ => .bind (.change .pushOp) fun _ =>
    .ite (.change fun h => ?_) (.pure _)
  · split
    · exact h.issueInto
    · exact h
  · split
    · exact .foldl .completeCopy h
    · exact h

end KeepsForm

/-- What the checks of a copy's rows leave, and the machine in which they stop. -/
theorem copygRows_formed {rlen : Nat} {rows : List (Nat × Nat)} (h : s.Formed) :
    (copygRows rlen rows s).2.2.1.Formed ∧ ∀ p ∈ (copygRows rlen rows s).2.2.2, p.2.state.Formed := by
  induction rows generalizing s with
  | nil => exact ⟨h, fun _ hp => nomatch hp⟩
  | cons r rows ih =>
    have hx := (KeepsForm.xlatRange { kind := .load, source := 5 } r.2 rlen).kept h
    unfold copygRows
    split <;> rename_i e <;> rw [e] at hx
    · exact ⟨hx, fun _ hp => by cases hp; exact hx⟩
    · exact ⟨hx, fun _ hp => by cases hp; exact hx⟩
    · exact ⟨hx, fun _ hp => by cases hp; exact hx⟩
    · exact ih hx

end Sys2Proof.Machine
end

section
/-! SUPPORT. Key-value pages and verdicts keep the form of memory: readers of descriptors and headers, the writers of pages,
top-k lists, and the walk of a dot product over its terms. -/

namespace Sys2Proof.Machine

variable {α : Type} {s : State}

/-! ## The phase of checks before a writer (R87) -/

namespace KvPhase

variable {p : KvPhase} {g : KvRange}

theorem data_formed {a pa n : Nat} (h : p.s.Formed) : (p.data g a pa n).s.Formed := by
  unfold data
  extract_lets lo m q
  have hq : q.s.Formed := by
    unfold q
    split
    · exact h
    · exact h.traffic
  clear_value q
  split
  · exact hq
  · split
    · exact hq
    · exact hq.logCheck

theorem page_formed {a : Nat} (h : p.s.Formed) : (page g p a).s.Formed := by
  unfold page
  split
  · next e =>
    split
    · exact h.translate_fault e
    · exact h.translate_fault e
  · next e => exact data_formed (h.translate_ok e)

theorem range_formed (h : p.s.Formed) : (p.range g).s.Formed := by
  unfold range
  split
  · exact h
  · split
    · exact h
    · exact .foldl_part (g := KvPhase.s) page_formed h

theorem ranges_formed {gs : List KvRange} (h : p.s.Formed) : (gs.foldl KvPhase.range p).s.Formed :=
  .foldl_part (g := KvPhase.s) range_formed h

theorem keyPage_formed {r : KvReq} (h : p.s.Formed) : (p.keyPage r).1.s.Formed := by
  unfold keyPage
  extract_lets q
  have hq : q.s.Formed := range_formed h
  clear_value q
  split
  · exact hq
  · split
    · exact hq
    · dsimp only
      split
      · exact range_formed hq
      · exact range_formed (p := q.fail 0xA1 0) hq

theorem finish_kept (h : p.s.Formed) : Kept p.finish := by
  unfold finish
  split <;> exact h

end KvPhase

theorem phaseHeader_kept {o : Option KvHeader} {m : PageMap × State} (h : m.2.Formed) : Kept (phaseHeader o m) := by
  cases o <;> exact h

/-- The end of a phase, and then what its header gives. -/
theorem KvPhase.finish_bind_kept {p : KvPhase} {o : Option KvHeader} (h : p.s.Formed) :
    Kept (p.finish >>= phaseHeader o) := by
  have hf := finish_kept h
  cases e : p.finish <;> rw [e] at hf
  · exact hf
  · exact phaseHeader_kept hf

theorem State.Formed.writeRefc {ps : PageMap} {slot : Nat} {f : Nat × Nat → Nat × Nat} (h : s.Formed) :
    (s.writeRefc ps slot f).Formed := h.storeLE.sdcWrite.notePort.atomicTraffic

namespace KeepsForm

/-- What follows a look at the whole machine may use that the machine was formed. -/
theorem bind_look {β : Type} {f : State → β} {k : β → Act α} (hk : ∀ s : State, s.Formed → KeepsForm (k (f s))) :
    KeepsForm (Machine.look f >>= k) := .of_kept fun {s} h => (hk s h).kept h

/-! ## Descriptors, entries and headers (R79 to R86) -/

theorem kvBad {o : Option α} : KeepsForm (kvBad o) := by
  cases o with
  | none => exact .raise _ _
  | some a => exact .pure _

theorem readX3 {a : Reg} : KeepsForm (readX3 a) :=
  .bind (.readX _) fun _ => .bind (.readX _) fun _ => .bind (.readX _) fun _ => .pure _

theorem packFibres {va cap : Nat} {oc : BitVec 4} {n f sum : Nat} {starts : List Nat} :
    KeepsForm (packFibres va cap oc n f sum starts) := by
  induction n generalizing f sum starts with
  | zero => exact .pure _
  | succ n ih => exact .bind .loadScalar fun _ => .ite (.pure _) ih

section
variable {rd : SeqRead} (hrd : ∀ va n, KeepsForm (rd va n))
include hrd

theorem readDesc {va : Nat} : KeepsForm (readDesc rd va) := .bind (hrd _ _) fun _ => .kvBad

theorem readEntry {sd : SeqDesc} {i : Nat} : KeepsForm (readEntry rd sd i) := .bind (hrd _ _) fun _ => .kvBad

theorem runFrom {sd : SeqDesc} {c i r : Nat} {e : SeqEntry} {fuel : Nat} : KeepsForm (runFrom rd sd c i r e fuel) := by
  induction fuel generalizing i r e with
  | zero => exact .pure _
  | succ fuel ih =>
    exact .ite (.bind (.readEntry hrd) fun _ => .ite (.pure _) (.bind ih fun _ => .pure _)) (.pure _)

theorem remaining {sd : SeqDesc} {pos c : Nat} : KeepsForm (remaining rd sd pos c) :=
  .ite (.pure _) (.bind (.readEntry hrd) fun _ => .ite (.pure _) (.runFrom hrd))

end

theorem loadWords {oc : BitVec 4} {va k : Nat} : KeepsForm (loadWords oc va k) := by
  induction k generalizing va with
  | zero => exact .pure _
  | succ k ih => exact .bind .loadScalar fun _ => .bind ih fun _ => .pure _

theorem scalarSeq {oc : BitVec 4} {va n : Nat} : KeepsForm (scalarSeq oc va n) := .bind (.trapIf _ _ _) fun _ => .loadWords

theorem readReq {k : KvMinor} {a : Reg} : KeepsForm (readReq k a) :=
  .bind (.readX _) fun _ => .bind (.loadBytes _ _ _ _) fun _ => .bind (.trapIf _ _ _) fun _ => .pure _

theorem kvGate {gs : List KvRange} : KeepsForm (kvGate gs) := .walkerGate _

theorem kvPhaseSt {r : KvReq} : KeepsForm (kvPhaseSt r) :=
  .bind .kvGate fun _ => .of_kept fun h => KvPhase.finish_kept (KvPhase.ranges_formed h)

theorem kvPhaseApp {r : KvReq} : KeepsForm (kvPhaseApp r) :=
  .bind .kvGate fun _ => .of_kept fun h => KvPhase.finish_bind_kept (KvPhase.ranges_formed (KvPhase.keyPage_formed h))

theorem kvPhaseFold {r : KvReq} : KeepsForm (kvPhaseFold r) :=
  .bind .kvGate fun _ => .of_kept fun h => KvPhase.finish_bind_kept (KvPhase.range_formed (KvPhase.keyPage_formed h))

/-! ## The three writers (R88 to R93, R188) -/

theorem kvNofit {t : Bool} : KeepsForm (kvNofit t) := .ite (.raise _ _) (.pure _)

theorem kvStore {ps : PageMap} {slot seqv : Nat} {g : KvImage} {fl : BitVec 5} : KeepsForm (kvStore ps slot g seqv fl) :=
  .bind (.change .storeMapped) fun _ => .bind (.change .storeMapped) fun _ => .change fun h => h

theorem kvRead {ps : PageMap} {va n : Nat} : KeepsForm (kvRead ps va n) := .look _

theorem kvCheckRead {ps : PageMap} {va n : Nat} : KeepsForm (kvCheckRead ps va n) := by
  refine .of_kept fun h => ?_
  unfold Machine.kvCheckRead
  split
  · exact h
  · exact .trap h.logCheck

theorem kvstOp {t : Bool} {r : KvReq} : KeepsForm (kvstOp t r) :=
  .bind .kvPhaseSt fun _ => .bind (.look _) fun _ => .bind (.look _) fun _ => .ite .kvNofit <| .bind .kvRead fun _ =>
    .bind (.change .storeMapped) fun _ => .bind .kvStore fun _ => .pure _

theorem readRefc {ps : PageMap} {slot : Nat} : KeepsForm (readRefc ps slot) :=
  .bind (.change .reachUnit) fun _ => .bind .kvRead fun _ => .pure _

theorem withUndo {undo : State → State} {m : Act Word} (hu : ∀ {s : State}, s.Formed → (undo s).Formed)
    (hm : KeepsForm m) : KeepsForm (withUndo undo m) := by
  refine .of_kept fun h => ?_
  have hk := hm.kept h
  unfold Machine.withUndo
  split
  · next e =>
    rw [e] at hk
    exact hu hk
  · exact hk

theorem kvNew {r : KvReq} {ps : PageMap} {t : Nat} : KeepsForm (kvNew r ps t) :=
  .bind (.look _) fun _ => .bind (.look _) fun _ => .pure _

theorem kvCopy {t : Bool} {r : KvReq} {ps : PageMap} {hd : KvHeader} : KeepsForm (kvCopy t r ps hd) :=
  .bind .kvRead fun _ => .bind .kvNew fun _ => .ite (.bind (.change .writeRefc) fun _ => .kvNofit) <|
    .bind .kvRead fun _ => .bind (.withUndo .writeRefc (.bind .kvCheckRead fun _ => .pure _)) fun _ =>
    .bind (.change .storeMapped) fun _ => .bind (.change .writeRefc) fun _ =>
    .bind (.withUndo .writeRefc (.bind .kvCheckRead fun _ => .pure _)) fun _ => .bind .kvRead fun _ =>
    .bind (.change .storeMapped) fun _ => .bind .kvStore fun _ => .pure _

theorem kvInPlace {t : Bool} {r : KvReq} {ps : PageMap} {hd : KvHeader} : KeepsForm (kvInPlace t r ps hd) :=
  .ite (.pure _) <| .bind .kvRead fun _ => .bind .kvNew fun _ => .ite .kvNofit <| .bind (.change .storeMapped) fun _ =>
    .bind .kvStore fun _ => .pure _

theorem kvappOp {t : Bool} {r : KvReq} : KeepsForm (kvappOp t r) :=
  .bind .kvPhaseApp fun _ => .ite (.pure _) <| .ite (.pure _) <| .bind .readRefc fun _ => .bind .acquire fun _ =>
    .ite (.bind (.change .writeRefc) fun _ => .kvCopy) <| .ite .kvInPlace <| .bind (.change .modHart) fun _ => .park

theorem kvfoldOp {t : Bool} {r : KvReq} : KeepsForm (kvfoldOp t r) := by
  refine .bind .kvPhaseFold fun _ => .bind .readRefc fun _ => .bind .acquire fun _ => .ite (.pure _) <|
    .bind .kvRead fun _ => .bind .kvRead fun _ => .bind (.look _) fun _ => ?_
  dsimp only
  split
  · exact .pure _
  · exact .ite (.pure _) <| .ite .kvNofit <| .bind (.change .storeMapped) fun _ => .bind .kvStore fun _ => .pure _

theorem kvWrite {k : KvMinor} {op : KvReq → Act Word} {d a : Reg} (hop : ∀ r, KeepsForm (op r)) :
    KeepsForm (kvWrite k op d a) :=
  .bind (.check _) fun _ => .bind .alignCourses fun _ => .bind .readReq fun _ => .bind (hop _) fun _ => .writeX _ _

/-! ## KVLD (R178, R180) -/

theorem kvSeq {oc : BitVec 4} {va n : Nat} : KeepsForm (kvSeq oc va n) := .loadBytes _ _ _ _

theorem orMiss {nf : Bool} {m : Act α} (hm : KeepsForm m) : KeepsForm (orMiss nf m) := by
  refine .of_kept fun h => ?_
  have hk := hm.kept h
  unfold Machine.orMiss
  split <;> rename_i e <;> rw [e] at hk
  · exact hk
  · exact .ite hk hk
  · exact hk

theorem kvldHeader {oc : BitVec 4} {sd : SeqDesc} {k : Nat} : KeepsForm (kvldHeader oc sd k) :=
  .bind (.loadBytes _ _ _ _) fun _ => .bind .kvBad fun _ => .bind (.trapIf _ _ _) fun _ => .pure _

theorem kvldHeaders {nf : Bool} {oc : BitVec 4} {sd : SeqDesc} {ks : List Nat} : KeepsForm (kvldHeaders nf oc sd ks) := by
  induction ks with
  | nil => exact .pure _
  | cons k ks ih => exact .bind (.orMiss .kvldHeader) fun _ => .bind ih fun _ => .pure _

theorem kvldPages {k : Nat} {rs : List (Nat × Nat)} : KeepsForm (kvldPages k rs) := by
  induction rs with
  | nil => exact .pure _
  | cons r rs ih => exact .bind (.xlatRange _ _ _) fun _ => .bind ih fun _ => .pure _

theorem kvldSlots {nf : Bool} {d : Nat} {c : KvldCtl} {ks : Nat → List Nat} {ps : List (Nat × Option KvHeader)} :
    KeepsForm (kvldSlots nf d c ks ps) := by
  induction ps with
  | nil => exact .pure _
  | cons p ps ih =>
    obtain ⟨k, o⟩ := p
    cases o with
    | none => exact ih
    | some hd =>
      exact .bind (.orMiss (.bind .kvldPages fun _ => .bind .kvldPages fun _ => .pure _)) fun _ => .bind ih fun _ => .pure _

theorem kvldOp {nf : Bool} {l : Legal} {oc : BitVec 4} {d a : Reg} {v : BitVec 1} {t : BitVec 6} :
    KeepsForm (kvldOp nf l oc d a v t) :=
  .bind (.check _) fun _ => .bind (.look _) fun _ => .bind (.trapIf _ _ _) fun _ => .bind (.look _) fun _ =>
    .when .stall fun _ => .bind (.readX _) fun _ => .bind (.trapIf _ _ _) fun _ => .bind (.readX _) fun _ =>
    .bind (.readDesc fun _ _ => .kvSeq) fun _ => .bind (.look _) fun _ => .bind (.trapIf _ _ _) fun _ =>
    .bind (.remaining fun _ _ => .kvSeq) fun _ => .bind .kvldHeaders fun _ => .bind (.trapIf _ _ _) fun _ =>
    .bind .kvldSlots fun _ => .bind (.change .modCore) fun _ => .bind (.change .pushOp) fun _ =>
    .ite (.change .writeCmask) (.pure _)

/-! ## Top-k lists (R271 to R278) -/

theorem listCheck {n : Fin 4} : KeepsForm (listCheck n) := .of_kept fun h => .ite h h

theorem listJoin {n : Fin 4} : KeepsForm (listJoin n) := by
  have hrest : ∀ l : TkList, KeepsForm (Machine.listCheck n >>= fun _ => Pure.pure l) := fun _ =>
    .bind .listCheck fun _ => .pure _
  unfold Machine.listJoin
  refine .bind (.look _) fun l => .when .stall fun _ => ?_
  dsimp only
  split
  on_goal 1 => refine .bind .acquire fun _ => .bind (.change .modCore) fun _ => ?_
  all_goals
    split
    · exact .bind (.raise _ _) fun _ => hrest l
    · exact hrest l

theorem listGate {n : BitVec 2} {init : Bool} : KeepsForm (listGate n init) :=
  .bind .listJoin fun _ => .bind (.trapIf _ _ _) fun _ => .pure _

end KeepsForm

/-! ## Delivery of planes and merges (R186, R277) -/

namespace State.Formed

theorem deliverPart {v : Delivery} {mem : List Host.Cell} {hd : KvHeader} {rows : List (Nat × Nat × Nat)}
    {p : (Nat × Nat) × Nat × Nat} (h : s.Formed) : (s.deliverPart v mem hd rows p).1.Formed := by
  unfold State.deliverPart
  dsimp only
  split
  · exact h.logRowsOf
  · exact .modCoreAt (.foldl (.foldl .rangeTraffic) h)

theorem deliverPage {v : Delivery} {mem : List Host.Cell} {rows : List (Nat × Nat × Nat)} {p : Nat} (h : s.Formed) :
    (s.deliverPage v mem rows p).1.Formed := by
  unfold State.deliverPage
  split
  · exact h
  · refine .foldl_part (g := Prod.fst) (fun hq => ?_) h.rangeTraffic
    split
    · exact hq
    · exact hq.deliverPart

theorem deliverRows {v : Delivery} {mem : List Host.Cell} {rows : List (Nat × Nat × Nat)} (h : s.Formed) :
    (s.deliverRows v mem rows).1.Formed := by
  refine .foldl_part (g := Prod.fst) (fun hq => ?_) h
  split
  · exact hq
  · exact hq.deliverPage

theorem deliverSlot {c : Fin 192} {o : EngineOp} (h : s.Formed) : (s.deliverSlot c o).Formed := by
  unfold State.deliverSlot
  split
  · refine .ite h ?_
    dsimp only
    split
    · exact .modCoreAt (.ite h.forkMem.deliverRows h.forkMem.deliverRows.logEngine)
    · exact .modCoreAt h.forkMem.deliverRows
  · exact h

theorem completeMerge {c : Fin 192} {o : EngineOp} (h : s.Formed) : (s.completeMerge c o).Formed := by
  unfold State.completeMerge
  split
  · dsimp only
    split
    · exact .modCoreAt h.logSite
    · exact .ite (.modCoreAt h.forkMem.rangeTraffic) (.modCoreAt h.forkMem.rangeTraffic)
  · exact h

/-! ## The walk of a dot product (R283 to R289, R396) -/

theorem mapRows {rows : List Nat} {f : Core → Row → Row} (h : s.Formed) : (s.mapRows rows f).Formed := .foldl .setRow h

theorem lost {x : VdotvCourse} {c : BitVec 8} {a : Word} (h : s.Formed) : (x.lost s c a).1.Formed := h

theorem dotPass {rows : List Nat} {cols : BitVec 1024} {x : VdotvCourse} {go : State × VdotvCourse × Bool} (h : s.Formed)
    (hgo : go.1.Formed) : (s.dotPass rows cols x go).1.Formed := by
  unfold State.dotPass
  split
  · exact hgo
  · exact .lost h.logRows

theorem walkTerms {k : DotWord} {regs rows : List Nat} {int : Nat} {word : Option (Nat × Nat)} {x : VdotvCourse}
    {ts : List (BitVec 32)} (h : s.Formed) : (s.walkTerms k regs rows int word x ts).1.Formed := by
  induction ts generalizing s x with
  | nil => exact h
  | cons t ts ih =>
    unfold State.walkTerms
    extract_lets test
    split
    · exact h
    · exact h
    · split
      · exact h
      · rename_i etok s₁ x₁ s₂ _ _ _
        refine .dotPass h ?_
        have h₁ : s₁.Formed := h.mapRows
        have h₂ : s₂.Formed := .ite (.elim h₁ h₁.traffic) h₁
        clear_value s₁ s₂
        split
        · exact .elim h₂ h₂.logCheck
        · extract_lets theta s₃ x₂
          have h₃ : s₃.Formed := .ite h₂.mapRows h₂
          split
          · exact h₃
          · exact ih h₃

theorem walkFlaw {c : Nat} {rows : List Nat} {f : BitVec 8 × Word × State} (h : s.Formed) (e : s.walkFlaw c rows = some f) :
    f.2.2.Formed := by
  unfold State.walkFlaw at e
  dsimp only at e
  split at e
  · cases e
    exact h
  · split at e
    · cases e
      exact h
    · cases e

theorem walkSlice {d : Nat} {fs : List FailedSlice} {x : VdotvCourse} {r : State × VdotvCourse × Bool} (h : s.Formed)
    (e : s.walkSlice d fs x = some r) : r.1.Formed := by
  unfold State.walkSlice at e
  obtain ⟨f, _, rfl⟩ := Option.map_eq_some_iff.mp e
  exact .lost h.mark

theorem walkCourse {k : DotWord} {regs : List Nat} {fs : List FailedSlice} {w : Walking} {x : VdotvCourse} (h : s.Formed) :
    (s.walkCourse k regs fs w x).1.Formed := by
  unfold State.walkCourse
  split
  · exact h
  · split
    · next e => exact h.walkSlice e
    · dsimp only
      split
      · exact h
      · exact h
      · split
        · next e => exact .lost (h.walkFlaw e)
        · split
          · exact h.walkTerms
          · exact .dotPass h (.walkTerms h.mapRows)

theorem walkCourses {k : DotWord} {regs : List Nat} {fs : List FailedSlice} {w : Walking} {xs : List VdotvCourse}
    (h : s.Formed) : (s.walkCourses k regs fs w xs).1.Formed := by
  induction xs generalizing s with
  | nil => exact h
  | cons x xs ih => exact ih h.walkCourse

theorem endCourses {cs : List VdotvCourse} (h : s.Formed) : (s.endCourses cs).Formed := .scramble (.foldl .modCore h)
theorem closeCourses {w : Walking} {cs : List VdotvCourse} (h : s.Formed) : (s.closeCourses w cs).Formed :=
  .ite h.modHart (.modHart h.endCourses)
theorem endWalk {d : Reg} (h : s.Formed) : (s.endWalk d).Formed := .modHart (.foldl .modHart h)
theorem dotTrap {d : Nat} {cs : List VdotvCourse} {t : BitVec 8 × Word} (h : s.Formed) : (s.dotTrap d cs t).2.Formed :=
  .ite h.mark h

end State.Formed

theorem KeepsForm.dotIssue {k : DotWord} {w x0 x2 : Word} : KeepsForm (dotIssue k w x0 x2) := by
  unfold Machine.dotIssue
  extract_lets afterList
  have hlist : ∀ u, KeepsForm (afterList u) := fun _ => by
    refine .bind (.look _) fun _ => .bind (.trapIf _ _ _) fun _ => .bind (.trapIf _ _ _) fun _ =>
      .bind (.xlatRange _ _ _) fun p => ?_
    extract_lets afterWord
    have hword : ∀ word, KeepsForm (afterWord word) := fun _ => by
      refine .bind (.look _) fun s => ?_
      extract_lets afterCheck
      have hcheck : ∀ u, KeepsForm (afterCheck u) := fun _ =>
        .bind (.of_kept fun h => h.readRange) fun _ => .bind (.trapIf _ _ _) fun _ => .change .modHart
      split
      · exact .bind (.change .logCheck) fun _ => .bind (.raise _ _) hcheck
      · exact hcheck ()
    exact .ite (.bind (.xlat _ _) fun _ => .bind (.pure _) hword) (.bind (.pure _) hword)
  exact .ite (.bind .listJoin fun _ => hlist ()) (hlist ())

end Sys2Proof.Machine
end

section
/-! SUPPORT. The slab, the two sides of RDV and the completion of slab operations keep the form of memory. -/

namespace Sys2Proof.Machine

variable {α : Type} {s : State}

namespace State.Formed

/-! ## Held errors and tiles (R311, R319) -/

theorem operandTraffic {pool : Bool} {p : PageMap} {segs : List (Nat × Nat)} (h : s.Formed) :
    (s.operandTraffic pool p segs).Formed := .ite h (.foldl .rangeTraffic h)

theorem holdError {c : Fin 192} {w : Who} {p : PageMap} {e : HeldError} {sites : List Site} (h : s.Formed) :
    (s.holdError c w p e sites).Formed := .modCoreAt (.ite (.foldl .logSite h) (.ite h.logSite h.logEvent))

theorem holdRows {c : Fin 192} {w : Who} {rows : List Nat} {cols : BitVec 1024} (h : s.Formed) :
    (s.holdRows c w rows cols).Formed := h.holdError

theorem blurTile {c : Fin 192} {t mt nt : Nat} (h : s.Formed) : (s.blurTile c t mt nt).Formed :=
  .foldl (fun h => .modCoreAt h) h

theorem issuerFlags {c : Fin 192} {w : Who} {f : BitVec 5} (h : s.Formed) : (s.issuerFlags c w f).Formed := h.modCoreAt

/-! ## Completion of slab operations (R297, R305, R307, R309, R310) -/

theorem completeSmma {c : Fin 192} {o : EngineOp} {b : Binding} {buf : Nat} {d : BData} {tile kblk mt nt kt : Nat}
    (h : s.Formed) : (s.completeSmma c o b buf d tile kblk mt nt kt).Formed := by
  unfold State.completeSmma
  extract_lets w p f u
  have hu : u.Formed := h.operandTraffic.forkMem
  clear_value u
  split
  · exact .holdError (.modCoreAt hu.blurTile)
  · split
    · exact .holdError hu.blurTile
    · split
      · exact .holdRows hu.blurTile
      · exact .ite (.issuerFlags hu.modCoreAt) hu.modCoreAt

theorem completeSzero {c : Fin 192} {w : Who} {t : Nat} (h : s.Formed) : (s.completeSzero c w t).Formed := by
  unfold State.completeSzero
  dsimp only
  split
  · exact .holdRows h.blurTile
  · exact h.modCoreAt

theorem completeSdrain {c : Fin 192} {w : Who} {t off dld dm dn : Nat} {e : BitVec 4} {r : BitVec 3} (h : s.Formed) :
    (s.completeSdrain c w t e r off dld dm dn).Formed := by
  unfold State.completeSdrain
  dsimp only
  split
  · exact h.holdRows
  · split
    · exact .holdError (.issuerFlags h.modCoreAt)
    · exact .issuerFlags h.modCoreAt

theorem completeSlab {c : Fin 192} {o : EngineOp} (h : s.Formed) : (s.completeSlab c o).Formed := by
  unfold State.completeSlab
  refine .ite h ?_
  dsimp only
  split
  · exact .completeSmma h.modCoreAt
  · exact .completeSzero h.modCoreAt
  · exact .completeSdrain h.modCoreAt
  · exact h

theorem completeLoad {c : Fin 192} {o : EngineOp} (h : s.Formed) : (s.completeLoad c o).Formed := by
  unfold State.completeLoad
  split
  · refine .ite h ?_
    extract_lets x put f t
    have ht : t.Formed := .modCoreAt h.operandTraffic.forkMem
    have hput : ∀ b, (put t b).Formed := fun _ => ht.modCoreAt
    clear_value put t
    split
    · exact (hput _).holdError
    · split
      · exact (hput _).holdError
      · exact (hput _).issuerFlags
  · exact h

end State.Formed

namespace KeepsForm

/-! ## RDV (R295) -/

theorem rdvHart : KeepsForm rdvHart := by
  refine .bind (.look _) fun _ => .ite .acquire <| .bind (.trapIf _ _ _) fun _ => .bind .slabJoin fun _ => ?_
  split
  · exact .bind (.change .modCore) fun _ => .acquire
  · exact .bind (.change .modHart) fun _ => .park

theorem rdvStream {last : Bool} : KeepsForm (rdvStream last) :=
  .bind (.look _) fun _ => .bind .slabJoin fun _ =>
    .ite (.bind (.change .modCore) fun _ => .bind .acquire fun _ => .ite (.change .modCore) (.pure _))
      (.bind (.change .modCore) fun _ => .park)

/-! ## Checks and operands of slab instructions (R298 to R305, R319) -/

theorem streamHeld : KeepsForm streamHeld := .bind (.look _) fun _ => .ite .raiseHeld (.pure _)
theorem slarg {b : Bool} : KeepsForm (slarg b) := .trapIf _ _ _
theorem streamPreempt : KeepsForm streamPreempt := .bind (.look _) fun _ => .trapIf _ _ _
theorem alignHart : KeepsForm alignHart := .bind (.look _) fun _ => .ite (.pure _) .alignCourses

theorem loadRecord {a : Reg} {oc : BitVec 4} : KeepsForm (loadRecord a oc) := .bind (.readX _) fun _ => .loadBytes _ _ _ _

theorem checkSegments {pool : Bool} {l : List (Nat × Nat)} : KeepsForm (checkSegments pool l) := by
  induction l with
  | nil => exact .pure _
  | cons g l ih =>
    have hrest : ∀ p : PageMap, KeepsForm (Machine.checkSegments pool l >>= fun r => Pure.pure (p ++ r)) := fun _ =>
      .bind ih fun _ => .pure _
    exact .bind (.look _) fun _ => .bind (.trapIf _ _ _) fun _ =>
      .ite (.bind (.pure _) hrest) (.bind (.xlatRange _ _ _) hrest)

theorem issueLoad {x : BitVec 1} {oc : BitVec 4} {d : BDesc} {g : Option (BitVec 4)} {idx : List Nat} :
    KeepsForm (issueLoad x oc d g idx) :=
  .bind .checkSegments fun _ => .bind (.change .modCore) fun _ => .change .pushOp

/-! ## MITER and MPOLY (R313 to R317) -/

theorem iterWord {a : Reg} {b : Bool} : KeepsForm (iterWord a b) :=
  .bind (.readX _) fun _ => .bind .slarg fun _ => .pure _

theorem iterModes {g : Nat} : KeepsForm (iterModes g) := .bind (.look _) fun _ => .slarg

theorem iterTiles {g n : Nat} {tiles : List Nat} : KeepsForm (iterTiles g n tiles) := by
  refine .bind (.look _) fun _ => ?_
  split
  · exact .pure _
  · exact .bind (.change fun h => .foldl .logSite (.foldl .blurTile h)) fun _ => .raise _ _

theorem miterStep {t tr horn : Bool} {g n j sp : Nat} : KeepsForm (miterStep t tr horn g n j sp) :=
  .bind (.look _) fun _ => .bind (.change fun h => h) fun _ => .bind (.change .modCore) fun _ =>
    .bind (.change fun h => h.blurTile.blurTile) fun _ => .bind (.trapIf _ _ _) fun _ => .bind (.change .modCore) fun _ =>
    .ite (.pure _) <| .ite (.ite (.bind (.change .modCore) fun _ => .raise _ _) (.pure _)) <|
    .bind .streamPreempt fun _ => .pure _

theorem miterOp {d a : Reg} {t tr m g : BitVec 1} : KeepsForm (miterOp d a t tr m g) := by
  unfold Machine.miterOp
  refine .bind (.check _) fun _ => .bind .slabJoin fun _ => .bind .iterWord fun _ => .bind .slarg fun _ =>
    .bind (.look _) fun _ => .bind .slarg fun _ => .bind .iterModes fun _ =>
    .either .streamPreempt (.change .modCore) fun _ => .bind .slarg fun _ => .bind .iterTiles fun _ =>
    .bind .miterStep fun r => ?_
  cases r with
  | none => exact .pure _
  | some out => exact .bind (.look _) fun _ => .bind (.change .modCore) fun _ => .bind (.writeX _ _) fun _ => .pure _

end KeepsForm

end Sys2Proof.Machine
end

section
/-! SUPPORT. The Launch Controller keeps the form of memory: the queues, placement, code objects and the images of gangs. -/

namespace Sys2Proof.Machine

variable {α : Type} {s : State}

namespace State.Formed

/-! ## Queues, launches and the end of pallets (R324 to R326, R363 to R375) -/

theorem enqueueLaunch {bs : List Byte} (h : s.Formed) : (s.enqueueLaunch bs).2.Formed := by
  unfold State.enqueueLaunch
  split
  · exact h
  · split
    · exact h
    · exact h.modDie

theorem tlbInvalidate {k : Inval} (h : s.Formed) : (s.tlbInvalidate k).Formed := h
theorem modLaunch {id : Nat} {f : Launch → Launch} (h : s.Formed) : (s.modLaunch id f).Formed := h
theorem flushPorts {l : Launch} (h : s.Formed) : (s.flushPorts l).Formed := h

theorem retireCore {i : Fin 192} (h : s.Formed) : (s.retireCore i).Formed := by
  unfold State.retireCore
  split
  · exact .ite (.modLaunch h.modCoreAt) h
  · exact h

theorem retirePallets (h : s.Formed) : s.retirePallets.Formed := by
  unfold State.retirePallets
  extract_lets t
  have ht : t.Formed := .foldl .retireCore h
  clear_value t
  exact .ite ht ht.retryPreempts

/-- A record that its ring takes. -/
theorem ringProduce {t : State} {tr : Nat → Bool → Except Nat Nat} {d : Nat} {r : Bool → List Byte} (h : s.Formed)
    (e : s.ringProduce tr d r = .written t) : t.Formed := wf_ringProduce h e

theorem recordLaunch {l : Launch} (h : s.Formed) : (s.recordLaunch l).Formed := by
  unfold State.recordLaunch
  extract_lets gone hold
  have hgone : ∀ {t : State}, t.Formed → (gone t).Formed := fun {t} ht =>
    .signalAdd (s := { t with launches := t.launches.filter (·.id != l.id) }) ht
  have hhold : ∀ {t : State}, t.Formed → (hold t).Formed := fun ht => .ite (hgone ht) ht
  clear_value gone hold
  refine .ite (hgone h) (.ite (hhold h) ?_)
  split
  · next e => exact hgone (h.ringProduce e)
  · exact hhold h
  · exact hgone h.logEvent

theorem completeLaunch {id : Nat} (h : s.Formed) : (s.completeLaunch id).Formed := by
  have hr : ({ s with epoch := s.epoch + 1 } : State).retirePallets.Formed := .retirePallets h
  unfold State.completeLaunch
  dsimp only
  split
  · exact .ite hr.flushPorts.recordLaunch hr
  · exact hr

/-- The kernel, the argument block and the stream list of a record are read one after the other, until one is bad. -/
theorem examine {l : Launch} {f : Nat → Nat → Nat} (h : s.Formed) : (s.examine l f).2.Formed := by
  unfold State.examine
  split
  · exact h
  · extract_lets a r
    have hr : r.2.Formed := by
      unfold r
      split
      · exact h
      · exact h.lcRead
    clear_value r
    split
    · exact hr
    · split
      · exact hr
      · split
        · exact hr
        · split
          · exact hr
          · extract_lets q
            have hq : q.2.Formed := by
              unfold q
              split
              · exact hr
              · exact hr.lcRead
            clear_value q
            split
            · exact hq
            · split
              · exact hq
              · split
                · exact hq
                · split <;> exact hq

theorem takeRecord {q home ctx : Nat} {bs : List Byte} (h : s.Formed) : (s.takeRecord q home ctx bs).Formed := by
  have he : ∀ (l : Launch) f, (({ s with nextLaunch := s.nextLaunch + 1 } : State).examine l f).2.Formed := fun _ _ =>
    .examine h
  unfold State.takeRecord
  dsimp only
  split
  · exact h
  · split
    · exact he _ _
    · exact he _ _

theorem slotRead {q : Fin 32} (h : s.Formed) : (s.slotRead q).2.Formed := by
  unfold State.slotRead
  dsimp only
  split
  · exact h
  · split
    · exact h
    · split
      · exact h.logEvent
      · exact h.traffic

theorem queueRead {q : Fin 32} (h : s.Formed) : (s.queueRead q).Formed := by
  unfold State.queueRead
  dsimp only
  split
  · exact .takeRecord (s := (s.slotRead q).2.modQueue q _) h.slotRead
  · exact h.slotRead

theorem deviceTake {d : Fin 4} (h : s.Formed) : (s.deviceTake d).Formed := by
  unfold State.deviceTake
  split
  · exact .ite (.takeRecord h.modDie) h
  · exact h

theorem recordTake {q : Nat} (h : s.Formed) : (s.recordTake q).Formed := .ite (.ite h.queueRead h) (.ite h.deviceTake h)

theorem waitsMet {a : Agent} {ws : List (Nat × Nat)} (h : s.Formed) : (s.waitsMet a ws).2.Formed := by
  induction ws generalizing s with
  | nil => exact h
  | cons w ws ih =>
    unfold State.waitsMet
    dsimp only
    split
    · exact h.lcRead
    · split
      · exact ih h.lcRead
      · exact h.lcRead

theorem waitPoll {id : Nat} (h : s.Formed) : (s.waitPoll id).Formed := by
  unfold State.waitPoll
  split
  · exact h
  · refine .ite h ?_
    dsimp only
    split
    · exact .modLaunch h.waitsMet
    · exact h.waitsMet
    · exact .modLaunch h.waitsMet

/-! ## Placement (R371, R372) -/

theorem gangReady {launch gang : Nat} (h : s.Formed) : (s.gangReady launch gang).Formed := by
  unfold State.gangReady
  dsimp only
  split
  · exact h
  · exact .ite h (.foldl .modCoreAt h)

theorem gangFailed {launch gang : Nat} {c : Fin 192} {k : BitVec 8} (h : s.Formed) : (s.gangFailed launch gang c k).Formed :=
  .retirePallets (.foldl .modCoreAt h)

theorem placeGang {x : Cand} {cs : List Nat} (h : s.Formed) : (s.placeGang x cs).Formed := by
  unfold State.placeGang
  split
  · exact h
  · exact .ite (.modLaunch (.foldl .modCoreAt h)) (.gangReady (.modLaunch (.foldl .modCoreAt h)))

theorem unblock (h : s.Formed) : s.unblock.Formed := h

theorem tryQueues {cl : List Cand} {qs : List Nat} (h : s.Formed) : (s.tryQueues cl qs).Formed := by
  induction qs generalizing s with
  | nil => exact h
  | cons q qs ih =>
    unfold State.tryQueues
    split
    · exact ih h
    · split
      · exact .placeGang h
      · exact ih (.ite h h)

theorem decide (h : s.Formed) : s.decide.Formed := by
  unfold State.decide
  extract_lets all blocked best t
  have ht : t.Formed := by
    unfold t
    cases blocked with
    | none => exact h.unblock
    | some b => exact .ite h.unblock h
  clear_value t
  split
  · exact .placeGang (.unblock ht)
  · exact .ite ht ht.tryQueues

theorem reserve (h : s.Formed) : s.reserve.Formed := .ite h h

theorem streamComplete {i : Fin 192} {k : Nat} (h : s.Formed) : (s.streamComplete i k).Formed := by
  unfold State.streamComplete
  split
  · exact h
  · split
    · exact h
    · extract_lets src a r gone
      have hr : r.2.Formed := h.lcRead
      clear_value r
      split
      · exact .ite (.gangFailed hr.modCoreAt) (.retirePallets hr.modCoreAt)
      · exact .retirePallets (.gangReady (.modLaunch hr.modCoreAt))

/-! ## Code objects (R163, R165, R368) -/

theorem lcPlaces {a : Agent} {va n : Nat} (h : s.Formed) : (s.lcPlaces a va n).2.Formed := by
  induction n generalizing s va with
  | zero => exact h
  | succ n ih =>
    unfold State.lcPlaces
    dsimp only
    split
    · exact h.lcXlat
    · split
      · exact ih h.lcXlat
      · exact ih h.lcXlat

theorem lcPut {va : Nat} {ps : List Nat} {bs : List Byte} (h : s.Formed) : (s.lcPut va ps bs).Formed :=
  .foldl .traffic h.storeCells

theorem lcWrite {a : Agent} {va : Nat} {bs : List Byte} (h : s.Formed) : (s.lcWrite a va bs).2.Formed := by
  unfold State.lcWrite
  dsimp only
  split
  · exact h.lcPlaces
  · exact h.lcPlaces.lcPut

theorem applyUse {a : Agent} {u : RelocUse} {v : Nat} (h : s.Formed) : (s.applyUse a u v).2.Formed := by
  unfold State.applyUse
  dsimp only
  split
  · exact h.lcPlaces
  · exact .lcPut (.foldl .traffic h.lcPlaces)

theorem probe {a : Agent} {x : Nat × Nat} (h : s.Formed) : (s.probe a x).2.Formed := h.lcPlaces

theorem each {f : State → α → Bool × State} {xs : List α} (hf : ∀ {u : State} {x : α}, u.Formed → (f u x).2.Formed)
    (h : s.Formed) : (State.each f s xs).2.Formed := by
  induction xs generalizing s with
  | nil => exact h
  | cons x xs ih =>
    unfold State.each
    dsimp only
    split
    · exact ih (hf h)
    · exact hf h

theorem perform {p : Placing} {b : List Byte} {us : List (RelocUse × Nat)} {a : Agent} (h : s.Formed) :
    (p.perform b us a s).2.Formed := by
  unfold Placing.perform
  extract_lets secs r
  have hr : r.2.Formed := .each .lcWrite h
  clear_value r
  split
  · exact hr
  · have hq : (State.each (fun t x => t.applyUse a x.1 x.2) r.2 us).2.Formed := .each .applyUse hr
    split
    · exact hq
    · simpa only [State.Formed] using hq

/-- The object's header, its text and its table are read one after the other, then the places are tried, then written. -/
theorem tryLoad {r : LoadReq} (h : s.Formed) : (s.tryLoad r).2.Formed := by
  unfold State.tryLoad
  dsimp only
  split
  · exact h
  · split
    · exact h.lcRead
    · split
      · exact h.lcRead
      · split
        · exact h.lcRead.lcRead
        · split
          · exact h.lcRead.lcRead.lcRead
          · split
            · exact h.lcRead.lcRead.lcRead
            · split
              · exact h.lcRead.lcRead.lcRead
              · split
                · exact h.lcRead.lcRead.lcRead
                · split
                  · exact h.lcRead.lcRead.lcRead
                  · split
                    · exact h.lcRead.lcRead.lcRead
                    · split
                      · exact .each .probe h.lcRead.lcRead.lcRead
                      · split
                        · exact .perform (.each .probe h.lcRead.lcRead.lcRead)
                        · exact .each .probe h.lcRead.lcRead.lcRead

theorem loadObject {id : Nat} (h : s.Formed) : (s.loadObject id).Formed := by
  unfold State.loadObject
  split
  · exact h
  · refine .ite h ?_
    extract_lets x src a t
    have ht : t.Formed := h.tryLoad.lcWrite
    clear_value t
    exact .signalAdd (.of_mem (s := t) rfl ht)

/-! ## Where the images of a gang lie (R409) -/

theorem storeLow {pa : Nat} {bs : List Byte} (h : s.Formed) : (s.storeLow pa bs).Formed := h.store.touchHbm

theorem reseal {m : Image} (h : s.Formed) : (s.reseal m).2.Formed := by
  unfold State.reseal
  split
  · exact h
  · exact h.storeLow

theorem resealAll {ms : List Image} (h : s.Formed) : (s.resealAll ms).2.Formed := by
  induction ms generalizing s with
  | nil => exact h
  | cons m ms ih => exact ih h.reseal

end State.Formed

end Sys2Proof.Machine
end

section
/-! SUPPORT. Completions of engine operations, page-ins, held records and the saving and restoring of gangs keep the form of
memory. -/

namespace Sys2Proof.Machine

variable {α : Type} {s : State}

/-! ## Copies of a page (R43) -/

/-- Copying a range leaves memory canonical: what lay at the destination goes, and bytes are written one after the other. -/
theorem wf_copyRange {m : List Host.Cell} (h : Memory.wf m = true) (src dst n : Nat) :
    Memory.wf (copyRange m src dst n) = true := by
  have hw : ∀ (cs m : List Host.Cell), Memory.wf m = true →
      Memory.wf (cs.foldl (fun m c => writeByte m (c.1 - src + dst) c.2) m) = true := by
    intro cs
    induction cs with
    | nil => exact fun _ h => h
    | cons c cs ih => exact fun m h => ih _ (wf_writeByte h _ _)
  exact hw _ _ (wf_filter _ h)

namespace State.Formed

theorem copyPage {src dst n : Nat} (h : s.Formed) : (s.copyPage src dst n).Formed := by
  have hm : ∀ bad, ({ s with mem := copyRange s.mem src dst n, bad := bad } : State).Formed := fun _ =>
    wf_copyRange h src dst n
  exact (hm _).traffic.traffic

/-! ## Operations of a core or of a saved gang (R112, R113) -/

theorem swapIn {g : OutGang} (h : s.Formed) : (s.swapIn g).Formed := .foldl .modCoreAt h

theorem swapOut {old : State} {g : OutGang} (h : s.Formed) : (s.swapOut old g).Formed := by
  have hr := h.resealAll (ms := g.images.map fun m => { m with core := s.cores[coreIx m.home] })
  simpa only [State.Formed, State.swapOut] using hr

section
variable {f : State → State} (hf : ∀ {u : State}, u.Formed → (f u).Formed)
include hf

theorem actFor {c : Fin 192} {o : EngineOp} (h : s.Formed) : (s.actFor c o f).Formed :=
  hf (u := { s with cur := { core := c, who := o.by_ }, epoch := s.epoch + 1 }) h

end

theorem onOp {c : Nat} {p : EngineOp → Bool} {f : State → EngineOp → State}
    (hf : ∀ {u : State} {o : EngineOp}, u.Formed → (f u o).Formed) (h : s.Formed) : (s.onOp c p f).Formed := by
  unfold State.onOp
  split
  · exact h
  · split
    · exact .retirePallets (.actFor hf h)
    · split
      · next g o _ =>
        have ht : (((s.swapIn g).actFor (coreIx c) o fun t => f t o).swapOut s g).Formed :=
          .swapOut (.actFor hf h.swapIn)
        simpa only [State.Formed] using ht
      · exact h

theorem copyDone {c tag dest : Nat} (h : s.Formed) : (s.copyDone c tag dest).Formed := by
  unfold State.copyDone
  split
  · split
    · exact .of_mem (s := s.streamComplete (coreIx c) (tag - 64)) rfl h.streamComplete
    · exact h
  · refine .onOp (fun hu => ?_) h
    split
    · exact hu.completeCopyg
    · exact hu.completeCopy

theorem arriveElement {c : Fin 192} {o : EngineOp} {row : Nat} (h : s.Formed) : (s.arriveElement c o row).Formed := by
  unfold State.arriveElement
  split
  · split
    · exact h
    · extract_lets left regs t refs fail
      have ht : t.Formed := h.modCoreAt
      have hfail : ∀ {u : State} {a : Nat} {r : Option Nat} {cols : BitVec 1024}, u.Formed → (fail u a r cols).Formed :=
        fun hu => .foldl .failSlice hu.logSite
      clear_value t fail
      split
      · exact hfail ht
      · split
        · exact hfail ht.forkMem
        · exact .foldl .landSlice (.modCoreAt ht.forkMem)
  · exact h

/-! ## Walks and page-ins (R43, R46, R398 to R400) -/

theorem startWalk {d : Fin 4} (h : s.Formed) : (s.startWalk d).Formed := by
  unfold State.startWalk
  split
  · exact .ite h (.ite (.walkFor h) h)
  · exact h

theorem arriveImages {r : PageReq} {fix : Core → Core} {b : Bool} {ms : List Image} (h : s.Formed) :
    (s.arriveImages r fix b ms).2.Formed := by
  induction ms generalizing s with
  | nil => exact h
  | cons m ms ih =>
    unfold State.arriveImages
    extract_lets new q t
    have hq : q.2.Formed := by
      unfold q
      split
      · exact h.reseal
      · exact h
    exact ih hq

theorem arriveOuts {r : PageReq} {fix : Core → Core} {b : Bool} {gs : List OutGang} (h : s.Formed) :
    (s.arriveOuts r fix b gs).2.Formed := by
  induction gs generalizing s with
  | nil => exact h
  | cons g gs ih => exact ih h.arriveImages

theorem pageArrived {r : PageReq} {k : BitVec 8} (h : s.Formed) : (s.pageArrived r k).Formed := by
  unfold State.pageArrived
  extract_lets fix q
  have hq : q.2.Formed := h.arriveOuts
  clear_value q
  exact .of_mem rfl hq

theorem notifyMbar {ctx mode : Nat} {r : PageReq} {b : Bool} (h : s.Formed) : (s.notifyMbar ctx r b mode).Formed := by
  unfold State.notifyMbar
  dsimp only
  split
  · next e =>
    have ht := h.translate_ok e
    split
    · exact ht.logEvent
    · split
      · next e => exact ht.mbarSubtract e
      · exact ht.logEvent
  · next e => exact (h.translate_fault e).logEvent

theorem notifyTag {ctx tag : Nat} {r : PageReq} {k : BitVec 8} (h : s.Formed) : (s.notifyTag ctx r k tag).Formed := by
  unfold State.notifyTag
  split
  · exact h
  · exact .ite h.modCoreAt h

theorem notifyPage {ctx : Nat} {r : PageReq} {k : BitVec 8} (h : s.Formed) : (s.notifyPage ctx r k).Formed :=
  .ite h.notifyMbar (.ite h.notifyTag h)

theorem reportPage {r : PageReq} {k : BitVec 8} (h : s.Formed) : (s.reportPage r k).Formed := by
  unfold State.reportPage
  extract_lets drop hold
  have hdrop : ∀ {t : State}, t.Formed → (drop t).Formed := fun ht => ht
  have hhold : ∀ {t : State}, t.Formed → (hold t).Formed := fun ht => ht
  clear_value drop hold
  split
  · exact hdrop h
  · extract_lets ring done
    have hdone : ∀ {t : State}, t.Formed → (done t).Formed := fun ht => hdrop ht.notifyPage
    clear_value done
    refine .ite (hdone h) (.ite (hhold h) ?_)
    split
    · next e => exact hdone (h.ringProduce e)
    · exact hhold h
    · exact hdone h.logEvent

theorem pageInDone {id frame : Nat} {k : BitVec 8} (h : s.Formed) : (s.pageInDone id frame k).Formed := by
  unfold State.pageInDone
  split
  · exact h
  · refine .ite h ?_
    extract_lets e src failed code t leaf u v
    have ht : t.Formed := .elim h h.logEvent
    clear_value t
    have hu : u.Formed := .ite ht.copyPage ht
    clear_value u
    have hv : v.Formed := hu.traffic.storeLE.traffic
    clear_value v
    exact .reportPage (.pageArrived (.of_mem (s := v) rfl hv))

/-! ## Held records (R111, R326, R446) -/

theorem sendLog (h : s.Formed) : s.sendLog.Formed := by
  unfold State.sendLog
  refine .ite h ?_
  split
  · exact h
  · split
    · next e =>
      have ht := h.ringProduce e
      exact ht
    · exact h
    · exact .ite h (.logEvent (.of_mem (s := s) rfl h))

theorem pollHeld {n : Nat} (h : s.Formed) : (s.pollHeld n).Formed := by
  unfold State.pollHeld
  split
  · split
    · exact .ite h.recordLaunch h
    · exact h
  · split
    · split
      · split
        · exact h.reportPage
        · exact h.postRequest
      · exact h
    · exact h.sendLog

/-! ## Context images (R401 to R409) -/

theorem logSaveFails {i : Fin 192} (h : s.Formed) : (s.logSaveFails i).Formed := .foldl .logRowOf h

theorem placeImages {g : OutGang} {ms : List Image} (h : s.Formed) : (s.placeImages g ms).Formed := by
  induction ms generalizing s with
  | nil => exact h
  | cons m ms ih => exact ih (.of_mem rfl (h.reseal (m := { m with place := s.imagePlace (dieIx g.die) })))

theorem saveGang {launch gang : Nat} (h : s.Formed) : (s.saveGang launch gang).Formed := by
  unfold State.saveGang
  refine .ite h ?_
  extract_lets cs t
  have ht : t.Formed := h
  clear_value t
  split
  · exact .retirePallets (.foldl .terminate (.foldl .logSaveFails ht))
  · refine .placeImages (.of_mem rfl (.foldl (l := cs) (.modCoreAt (f := Core.vacate)) ht))

theorem readImages {ms : List Image} (h : s.Formed) : (s.readImages ms).Formed :=
  .foldl (fun hu => .elim hu hu.touchHbm) h

theorem markUsed {m : Image} (h : s.Formed) : (s.markUsed m).Formed := by
  unfold State.markUsed
  split
  · exact h
  · exact h.storeLow

theorem restoreGang {launch gang : Nat} (h : s.Formed) : (s.restoreGang launch gang).Formed := by
  unfold State.restoreGang
  split
  · exact h
  · refine .ite h ?_
    extract_lets t pairs src gone
    have ht : t.Formed := h
    clear_value t
    have hgone : gone.Formed := .of_mem rfl (ht.readImages)
    clear_value gone
    split
    · exact .retryPreempts (.retirePallets (.foldl .terminate hgone.logEvent))
    · exact .retryPreempts (.foldl .markUsed (.foldl .modCoreAt hgone))

end State.Formed

end Sys2Proof.Machine
end

section
/-! SUPPORT. What reaches the package from outside, and Epvimond, keep the form of memory. -/

namespace Sys2Proof.Machine

variable {s : State}

namespace State.Formed

/-! ## Registers and semaphores (R14, R19, R20) -/

theorem outsideWrite {port off size : Nat} {rid : BitVec 16} {v : Word} (h : s.Formed) :
    (s.outsideWrite port rid off size v).Formed := by
  have hw : (s.regWritePart (requester port rid) off size v.toNat).Formed := h.regWritePart
  unfold State.outsideWrite
  split
  · split
    · simpa only [State.Formed] using hw
    · exact h
  · split
    · exact h.bar4Write
    · exact h

theorem outsideRead {port off size : Nat} {rid : BitVec 16} (h : s.Formed) :
    (s.outsideRead port rid off size).Formed := by
  have hr : (s.regReadPart (requester port rid) off size).2.Formed := h.regReadPart
  unfold State.outsideRead
  dsimp only
  split
  · split
    · simpa only [State.Formed] using hr
    · exact h
  · split
    · exact h
    · exact h

theorem tied (h : s.Formed) : s.tied.2.Formed := h

theorem semacq {port off size : Nat} {rid : BitVec 16} {tie : Option (BitVec 16)} (h : s.Formed) :
    (s.semacq port rid off size tie).Formed := by
  unfold State.semacq
  split
  · exact h.outsideRead
  · exact .ite (.ite h.outsideRead.outsideRead h.outsideRead)
      (.ite h.tied.outsideRead.outsideRead h.tied.outsideRead.outsideRead)

/-! ## BAR2, the pod mailbox and links (R18, R23, R25, R28) -/

theorem bar2Answer {port a n : Nat} (h : s.Formed) : (s.bar2Answer port a n).Formed := by
  unfold State.bar2Answer
  split
  · exact h
  · split
    · exact h
    · extract_lets bad t
      have ht : t.Formed := .foldl .logEvent h
      clear_value t
      exact ht

theorem takeIn {pa : Nat} {bs : List Byte} {b : Bool} (h : s.Formed) : (s.takeIn pa bs b).Formed := by
  unfold State.takeIn
  extract_lets t
  have ht : t.Formed := h.store
  clear_value t
  exact .ite ht ht

theorem mailbox {m : List Byte} (h : s.Formed) : (s.mailbox m).Formed := .ite h.podReceive h
theorem retryHeld (h : s.Formed) : s.retryHeld.Formed := .foldl .pollHeld h
theorem msixSend {port : Nat} (h : s.Formed) : (s.msixSend port).Formed := h

/-! ## Boot and attestation (R438 to R440, R444, R445) -/

theorem measure {v : BitVec 32} {f : FwImage} (h : s.Formed) : (s.measure v f).Formed := h

theorem raiseMinima (h : s.Formed) : s.raiseMinima.Formed := by
  unfold State.raiseMinima
  split
  · simpa only [State.Formed] using h
  · exact h

/-- Stage 4 clears HBM: a part of memory is left (R438). -/
theorem bootEffect {n : Nat} {b : BootInput} (h : s.Formed) : (s.bootEffect n b).Formed := by
  unfold State.bootEffect
  extract_lets t
  have ht : t.Formed := .ite h (.foldl .measure h)
  clear_value t
  split
  · exact .raiseMinima (.of_mem (s := t) rfl ht)
  · split
    · exact .raiseMinima (.of_mem (s := t) rfl ht)
    · split
      · exact wf_filter _ ht
      · split
        · exact .spreadToken (.of_mem (s := t) rfl ht)
        · exact .ite ht ht

theorem boot {b : BootInput} (h : s.Formed) : (s.boot b).Formed := by
  unfold State.boot
  extract_lets n
  split
  · exact h
  · split
    · exact h
    · have ht : (s.bootEffect n b).Formed := h.bootEffect
      simpa only [State.Formed] using ht

theorem answer {port : Nat} {a : SpdmAnswer} (h : s.Formed) : (s.answer port a).Formed := .ite h h
theorem mctpAnswer {via : Nat} {bs : List Byte} (h : s.Formed) : (s.mctpAnswer via bs).Formed := .ite h h

/-! ## Power, temperature and hardware errors (R320, R381, R382, R384, R441) -/

theorem setCap {d : Fin 4} {c : BitVec 17} (h : s.Formed) : (s.setCap d c).Formed := by
  simpa only [State.Formed, State.setCap, modDie_mem] using h

theorem setPower {p : BitVec 16} (h : s.Formed) : (s.setPower p).Formed := h
theorem setTj {t : BitVec 8} (h : s.Formed) : (s.setTj t).Formed := h
theorem govern {d : Fin 4} {p : BitVec 16} (h : s.Formed) : (s.govern d p).Formed := .setCap (.modDie h.setPower)

theorem setThermal {b : Bool} (h : s.Formed) : (s.setThermal b).Formed := .spreadToken (.of_mem (s := s) rfl h)
theorem throttle (h : s.Formed) : s.throttle.Formed := .foldl .setCap h.setThermal

theorem thermalRelease (h : s.Formed) : s.thermalRelease.Formed := by
  unfold State.thermalRelease
  extract_lets t
  have ht : t.Formed := h.setThermal
  clear_value t
  exact .ite ht ht

theorem setLogAndBootstat {l : List LogEntry} {b : Word} (h : s.Formed) :
    ({ s with log := l, bootstat := b } : State).Formed := h

theorem thermalReset {t : BitVec 8} (h : s.Formed) : (s.thermalReset t).Formed := by
  have hu : ((s.moduleReset.setTj t).throttle).Formed := h.moduleReset.setTj.throttle
  unfold State.thermalReset
  exact hu.setLogAndBootstat

theorem readTj {t : BitVec 8} (h : s.Formed) : (s.readTj t).Formed :=
  .ite h.thermalReset (.ite h.setTj.throttle (.ite h.setTj.thermalRelease h.setTj))

theorem hardwareError {c : Fin 192} (h : s.Formed) : (s.hardwareError c).Formed :=
  .ite (.terminate (.haltGang (.of_mem (s := s) rfl h))) h

end State.Formed

end Sys2Proof.Machine
end

section
/-! SUPPORT. Who moves next, and how a party gets its next instruction, keep the form of memory. -/

namespace Sys2Proof.Machine

variable {s : State}

namespace State.Formed

/-! ## Delayed loads and prefetches (R173, R195) -/

theorem loadNow {l : LateLoad} (h : s.Formed) : (s.loadNow l).Formed := by
  unfold State.loadNow
  dsimp only
  split
  · exact h.passStores
  · exact h.passStores.setRow

theorem settleLoad {i : Instr} {l : LateLoad} (h : s.Formed) : (State.settleLoad i s l).Formed := by
  have hf : s.fresh.2.Formed := h
  unfold State.settleLoad
  dsimp only
  split
  · exact .ite hf hf.modCore
  · exact .ite hf.modCore (.modCore hf.loadNow)
  · exact hf.modCore

theorem settleLoads {i : Instr} (h : s.Formed) : (s.settleLoads i).Formed := .foldl .settleLoad h
theorem endDelays (h : s.Formed) : s.endDelays.Formed := .ite h h

theorem prefetchPage {va : Nat} (h : s.Formed) : (s.prefetchPage va).Formed := by
  unfold State.prefetchPage
  split
  · next e => exact .ite (h.translate_fault e) h
  · exact h

theorem prefetchLine {va : Nat} (h : s.Formed) : (s.prefetchLine va).Formed := by
  unfold State.prefetchLine
  split
  · next e => exact .ite h (.modCore (h.translate_ok e).pickCached)
  · exact h

theorem prefetchDie {use : CacheUse} {va : Nat} (h : s.Formed) : (s.prefetchDie use va).Formed := by
  unfold State.prefetchDie
  split
  · next e => exact .ite (h.translate_ok e).touchHbm h
  · exact h

theorem prefetch {p : BitVec 1} {t : BitVec 2} {va : Nat} (h : s.Formed) : (s.prefetch p t va).Formed := by
  unfold State.prefetch
  extract_lets u
  have hu : u.Formed := .ite h.prefetchPage h
  clear_value u
  exact .ite hu.prefetchLine hu.prefetchDie

/-! ## Turns (R138, R376, R397) -/

theorem tick (h : s.Formed) : s.tick.Formed := h
theorem idle (h : s.Formed) : s.idle.Formed := h

theorem choose {cs : List Choice} (h : s.Formed) : (s.choose cs).2.Formed := by
  unfold State.choose
  split <;> exact h

theorem enter {p : Party} (h : s.Formed) : (s.enter p).Formed := by
  unfold State.enter
  dsimp only
  split
  · exact .modHart (s := { s with cur := p, turn := none, issued := some p }) h
  · exact h

theorem boundary {t : State} (h : s.Formed) (e : s.boundary = some t) : t.Formed := by
  unfold State.boundary at e
  split at e
  · split at e <;> cases e
    exact h.haltGang
  · split at e
    · split at e <;> cases e
      exact .take h.modCore
    · split at e
      · cases e
      · split at e
        · cases e
          exact .take (.modHart h.withdraw)
        · split at e <;> cases e
          exact .take (.modHart h.withdraw)

end State.Formed

/-- The machine that a turn has come to before its instruction is formed. -/
def Fetched.Formed : Fetched → Prop
  | .stopped t => t.Formed
  | .run _ t => t.Formed
  | .illegal _ t => t.Formed

theorem State.Formed.fetch (h : s.Formed) : s.fetch.Formed := by
  have hk := KeepsForm.fetchWord (pc := s.pc).kept h
  unfold State.fetch
  split <;> rename_i e <;> rw [e] at hk
  · exact .of_mem (resolve_state_mem _) hk
  · split
    · exact State.Formed.settleLoads hk
    · exact State.Formed.take hk
    · exact hk

theorem State.Formed.turnOf {p : Party} (h : s.Formed) : (s.turnOf p).Formed := by
  unfold State.turnOf
  dsimp only
  split
  · next e => exact h.enter.boundary e
  · exact h.enter.fetch

end Sys2Proof.Machine
end

section
/-! SUPPORT. Answers of instructions of parties: what the instructions that share no body with others do to the form of
memory. -/

namespace Sys2Proof.Machine

variable {s : State}

/-- If the answer is a next machine, that machine is formed. -/
def NextFormed (o : Host.Outcome State Fault Refusal) : Prop := ∀ t, o = .next t → t.Formed

theorem State.Formed.resolve {e : Stop} (h : e.state.Formed) : e.resolve.Formed := .of_mem (resolve_state_mem e) h

namespace NextFormed

theorem next (h : s.Formed) : NextFormed (.next s) := fun _ e => by
  cases e
  exact h

theorem finish {m : Act Unit} (hm : KeepsForm m) (h : s.Formed) : NextFormed (finish m s) := fun _ e => wf_finish hm h e
theorem finishAt {m : Act Word} (hm : KeepsForm m) (h : s.Formed) : NextFormed (finishAt m s) := fun _ e =>
  wf_finishAt hm h e

end NextFormed

/-! ## Bodies that stand in a meaning itself -/

namespace KeepsForm

theorem storeBytes {acc : Acc} {va : Nat} {bs : List Byte} {oc : BitVec 4} : KeepsForm (storeBytes acc va bs oc) :=
  .bind (.xlatRange _ _ _) fun _ => .change fun h => h.noteStores.storeMapped

end KeepsForm

namespace NextFormed

/-! ## Scalar instructions (R328 to R341) -/

theorem execLui {d : Reg} {imm : BitVec 21} (h : s.Formed) : NextFormed (execLui d imm s) :=
  .finish (.bind (.check _) fun _ => .writeX _ _) h
theorem execAuipc {d : Reg} {imm : BitVec 21} (h : s.Formed) : NextFormed (execAuipc d imm s) :=
  .finish (.bind (.check _) fun _ => .bind (.look _) fun _ => .writeX _ _) h
theorem execJal {d : Reg} {f : BitVec 21} (h : s.Formed) : NextFormed (execJal d f s) :=
  .finishAt (.bind (.check _) fun _ => .bind (.look _) fun _ => .bind (.writeX _ _) fun _ => .pure _) h

theorem execJalr {d a : Reg} {imm : BitVec 16} (h : s.Formed) : NextFormed (execJalr d a imm s) :=
  .finishAt (.bind (.check _) fun _ => .bind (.look _) fun _ => .bind (.readX _) fun _ => .bind (.writeX _ _)
    fun _ => .pure _) h

theorem execSmb {c a : Reg} {n : BitVec 3} {f : BitVec 13} (h : s.Formed) : NextFormed (execSmb c a n f s) :=
  .finishAt (.bind (.check _) fun _ => .bind (.look _) fun _ => .bind (.readX _) fun _ => .bind (.writeX _ _)
    fun _ => .bind .smbAdvance fun _ => .bind (.readX _) fun _ => .bind (.look _) fun _ => .pure _) h

theorem execSmbsImm {sf : BitVec 2} {imm : BitVec 15} (h : s.Formed) : NextFormed (execSmbsImm sf imm s) :=
  .finish (.bind (.check _) fun _ => .change .modHart) h
theorem execSmbsReg {sf : BitVec 2} {a : Reg} (h : s.Formed) : NextFormed (execSmbsReg sf a s) :=
  .finish (.bind (.check _) fun _ => .bind (.readX _) fun _ => .change .modHart) h

/-! ## Memory (R167, R172 to R177) -/

theorem execFence {k : BitVec 2} {sf : BitVec 3} {m : BitVec 16} (h : s.Formed) : NextFormed (execFence k sf m s) :=
  .finish (.bind (.check _) fun _ => .when (.change .podRelease) fun _ => .ite (.change fun h =>
    h.sdcInvalidate.acquireMask) (.change .orderMask)) h

theorem execPref {p : BitVec 1} {t : BitVec 2} {b : Reg} {w : BitVec 2} {f : BitVec 8} (h : s.Formed) :
    NextFormed (execPref p t b w f s) :=
  .finish (.bind (.check _) fun _ => .bind (.readX _) fun _ => .bind (.walkerGate _) fun _ => .change .prefetch) h

theorem execLdv {d a : Reg} {e c : BitVec 4} (h : s.Formed) : NextFormed (execLdv d a e c s) :=
  .finish (.bind (.check _) fun _ => .bind (.readX _) fun _ => .bind (.look _) fun _ => .vecAccess fun _ _ =>
    .loadElem) h

theorem execStv {d a : Reg} {e c : BitVec 4} (h : s.Formed) : NextFormed (execStv d a e c s) :=
  .finish (.bind (.check _) fun _ => .bind (.readX _) fun _ => .vecAccess fun _ _ => .storeElem) h

theorem execLdvs {d a b : Reg} {e c : BitVec 4} (h : s.Formed) : NextFormed (execLdvs d a b e c s) :=
  .finish (.bind (.check _) fun _ => .bind (.readX _) fun _ => .bind (.readX _) fun _ => .bind (.look _) fun _ =>
    .vecAccess fun _ _ => .loadElem) h

theorem execStvs {d a b : Reg} {e c : BitVec 4} (h : s.Formed) : NextFormed (execStvs d a b e c s) :=
  .finish (.bind (.check _) fun _ => .bind (.readX _) fun _ => .bind (.readX _) fun _ => .vecAccess fun _ _ =>
    .storeElem) h

theorem execVgath {d a b : Reg} {e c : BitVec 4} {w : BitVec 1} (h : s.Formed) :
    NextFormed (execVgath d a b e c w s) :=
  .finish (.bind (.check _) fun _ => .bind (.readX _) fun _ => .bind (.look _) fun _ => .bind (.look _) fun _ =>
    .vecAccess fun _ _ => .indexed fun _ => .loadElem) h

theorem execVgathNb {d a b : Reg} {e c : BitVec 4} {w : BitVec 1} (h : s.Formed) :
    NextFormed (execVgathNb d a b e c w s) :=
  .finish (.bind (.check _) fun _ => .bind (.readX _) fun _ => .gatherNb) h

theorem execVscat {d a b : Reg} {e c : BitVec 4} {w : BitVec 1} (h : s.Formed) :
    NextFormed (execVscat d a b e c w s) :=
  .finish (.bind (.check _) fun _ => .bind (.readX _) fun _ => .bind (.look _) fun _ => .bind (.vecAccess fun _ _ =>
    .storeElem) fun _ => .change .scatterTies) h

theorem execVgathNf {d a b : Reg} {e c : BitVec 4} {w n : BitVec 1} (h : s.Formed) :
    NextFormed (execVgathNf d a b e c w n s) :=
  .finish (.bind (.check _) fun _ => .bind (.look _) fun _ => .bind (.trapIf _ _ _) fun _ => .bind (.readX _)
    fun _ => .ite .gatherNb (.bind (.look _) fun _ => .vecAccess fun _ _ => .indexed fun _ => .loadElemNf)) h

/-! ## Copies and tags (R180 to R184) -/

theorem execCpyg {d a imm : Reg} {t : BitVec 6} {w m : BitVec 1} (h : s.Formed) :
    NextFormed (execCpyg d a imm t w m s) := by
  unfold Machine.execCpyg
  refine .finish (.bind (.check _) fun _ => .bind (.look _) fun _ => .when .stall fun _ => .bind (.readX _) fun _ =>
    .bind (.readX _) fun _ => .bind (.readX _) fun _ => .bind (.trapIf _ _ _) fun _ => .bind (.look _) fun _ =>
    .bind .locCheck fun _ => .bind .mbarForm fun _ => .bind .landedAll fun _ => .bind .abnCheck fun _ =>
    .bind .indexCheck fun _ => .bind .copyMbar fun _ => .of_kept fun h => ?_) h
  extract_lets r
  have hr : r.2.2.1.Formed := (copygRows_formed h).1
  have hstop : ∀ p ∈ r.2.2.2, p.2.state.Formed := (copygRows_formed h).2
  clear_value r
  split
  · next e => exact hstop _ e
  · next e => exact hstop _ e
  · exact Kept.trap (.writeCmask (.ite hr hr.issueCopyg))
  · refine State.Formed.modHart (.ite ?_ hr.issueCopyg)
    split
    · exact hr.issueCopyg.completeCopyg
    · exact hr.issueCopyg

theorem execTwaitany {d a : Reg} (h : s.Formed) : NextFormed (execTwaitany d a s) := by
  refine .finish (.bind (.check _) fun _ => .bind (.readX _) fun _ => .ite (.writeX _ _) <| .bind (.look _) fun c => ?_) h
  split
  · exact .park
  · exact .bind .acquire fun _ => .writeX _ _

theorem execTwaitall {d a : Reg} (h : s.Formed) : NextFormed (execTwaitall d a s) :=
  .finish (.bind (.check _) fun _ => .bind (.readX _) fun _ => .bind (.look _) fun _ => .ite (.unless .acquire
    fun _ => .writeX _ _) .park) h

theorem execTffr {d a : Reg} (h : s.Formed) : NextFormed (execTffr d a s) :=
  .finish (.bind (.check _) fun _ => .bind (.readX _) fun _ => .bind (.look _) fun _ => .ite (.bind .acquire
    fun _ => .writeX _ _) (.writeX _ _)) h

theorem execTclr {a : Reg} (h : s.Formed) : NextFormed (execTclr a s) :=
  .finish (.bind (.check _) fun _ => .bind (.readX _) fun _ => .change .modCore) h

theorem execTpln {d a : Reg} (h : s.Formed) : NextFormed (execTpln d a s) :=
  .finish (.bind (.check _) fun _ => .bind (.readX _) fun _ => .bind (.look _) fun _ => .unless .acquire fun _ =>
    .writeX _ _) h

theorem execWaitc {l sf : BitVec 4} {c : BitVec 6} {t : BitVec 2} (h : s.Formed) :
    NextFormed (execWaitc l sf c t s) :=
  .finish (.bind (.check _) fun _ => .bind (.look _) fun _ => .ite (.when .raiseHeld fun _ => .ite .acquire (.pure
    _)) .stall) h

/-! ## Pass instructions (R212 to R219) -/

theorem execPcmp {k m c : Reg} {t : BitVec 2} (h : s.Formed) : NextFormed (execPcmp k m c t s) :=
  .finish (.bind (.check _) fun _ => .bind (.readX _) fun _ => .bind (.readX _) fun _ => .bind (.trapIf _ _ _)
    fun _ => .passRow) h

theorem execPwr {k m c : Reg} {l : BitVec 1} (h : s.Formed) : NextFormed (execPwr k m c l s) :=
  .finish (.bind (.check _) fun _ => .bind (.readX _) fun _ => .bind (.readX _) fun _ => .bind (.trapIf _ _ _)
    fun _ => .passRow) h

theorem execPcw {k m c : Reg} {t : BitVec 2} (h : s.Formed) : NextFormed (execPcw k m c t s) :=
  .finish (.bind (.check _) fun _ => .bind (.readX _) fun _ => .bind (.readX _) fun _ => .bind (.readX _) fun _ =>
    .bind (.readX _) fun _ => .bind (.trapIf _ _ _) fun _ => .passRow) h

theorem execPcol {d sf : BitVec 11} {imm : BitVec 1} (h : s.Formed) : NextFormed (execPcol d sf imm s) :=
  .finish (.bind (.check _) fun _ => .bind (.trapIf _ _ _) fun _ => .passRow) h

theorem execPtag {d sf : BitVec 2} {f : BitVec 3} (h : s.Formed) : NextFormed (execPtag d sf f s) :=
  .finish (.bind (.check _) fun _ => .passRow) h

theorem execPshift {r : BitVec 1} {j : Reg} {f : BitVec 1} {sf : BitVec 11} (h : s.Formed) :
    NextFormed (execPshift r j f sf s) :=
  .finish (.bind (.check _) fun _ => .bind (.trapIf _ _ _) fun _ => .bind (.look _) fun _ => .allRows <| .change fun
    h => .passVc (.foldl .setRow h)) h

/-! ## Vector instructions -/

theorem execVmacc {d a b : Reg} {e : BitVec 4} {x : BitVec 1} (h : s.Formed) : NextFormed (execVmacc d a b e x s) :=
  .finish .elemOp h
theorem execVcvt {d a : Reg} {sf e : BitVec 4} {r : BitVec 3} (h : s.Formed) : NextFormed (execVcvt d a sf e r s) :=
  .finish .elemOp h

theorem execVmvxr {d a b : Reg} {e : BitVec 4} (h : s.Formed) : NextFormed (execVmvxr d a b e s) :=
  .finish (.bind (.check _) fun _ => .bind (.look _) fun _ => .allRows <| .bind (.change .scramble) fun _ => .writeX
    _ _) h

theorem execVcompress {d : Reg} {k : BitVec 3} {e : BitVec 4} (h : s.Formed) : NextFormed (execVcompress d k e s) :=
  .finish (.bind (.check _) fun _ => .bind (.look _) fun _ => .allRows <| .bind (.change fun h => .foldl (fun hu =>
    .ite hu.setRow hu) h) fun _ => .bind (.change .scramble) fun _ => .change .planVc) h

theorem execViota {d a : Reg} {e : BitVec 4} (h : s.Formed) : NextFormed (execViota d a e s) :=
  .finish (.bind (.readX _) fun _ => .elemOp) h

theorem execSetvl {d a : Reg} (h : s.Formed) : NextFormed (execSetvl d a s) :=
  .finish (.bind (.check _) fun _ => .bind .preemptPoint fun _ => .bind (.readX _) fun _ => .bind (.look _) fun _ =>
    .bind (.change .setVl) fun _ => .writeX _ _) h

theorem execSetvlf {d a : Reg} {k : BitVec 3} {c : BitVec 4} (h : s.Formed) : NextFormed (execSetvlf d a k c s) :=
  .finish (.bind (.check _) fun _ => .bind .preemptPoint fun _ => .bind .alignCourses fun _ => .bind .readX3
    fun _ => .bind (.look _) fun _ => .bind .packFibres fun _ => .bind .rowCheck fun _ => .bind (.change .setVl) fun _ =>
    .bind (.change fun h => .foldl .setRow h) fun _ => .writeX _ _) h

theorem execSetvlre {d a : Reg} {c : BitVec 4} (h : s.Formed) : NextFormed (execSetvlre d a c s) :=
  .finish (.bind (.check _) fun _ => .bind .preemptPoint fun _ => .bind .alignCourses fun _ => .bind .readX3
    fun _ => .bind (.readDesc fun _ _ => .scalarSeq) fun _ => .bind (.look _) fun _ => .bind (.remaining fun _ _ =>
    .scalarSeq) fun _ => .bind (.change .setVl) fun _ => .writeX _ _) h

/-! ## Search, top-k lists and dot products (R265 to R292) -/

theorem execVsrch {k : BitVec 3} {a b : Reg} {e : BitVec 4} {t : BitVec 2} (h : s.Formed) :
    NextFormed (execVsrch k a b e t s) := .finish (.bind (.check _) fun _ => .maskOp) h
theorem execVham {d a b : Reg} {e : BitVec 4} {w : BitVec 2} {c x : BitVec 1} (h : s.Formed) :
    NextFormed (execVham d a b e w c x s) :=
  .finish (.bind (.check _) fun _ => .bind (.trapIf _ _ _) fun _ => .elemOp) h

theorem execVtopk {k : BitVec 3} {a b : Reg} {e : BitVec 4} {m : BitVec 1} (h : s.Formed) :
    NextFormed (execVtopk k a b e m s) :=
  .finish (.bind (.check _) fun _ => .bind (.readX _) fun _ => .bind (.look _) fun _ => .allRows <| .bind (.change
    fun h => .ite h (.foldl .setRow h)) fun _ => .change .scramble) h

theorem execTkinit {a : Reg} {n : BitVec 2} {sf : BitVec 1} (h : s.Formed) : NextFormed (execTkinit a n sf s) :=
  .finish (.bind (.check _) fun _ => .bind .listGate fun _ => .bind (.readX _) fun _ => .bind (.trapIf _ _ _)
    fun _ => .change .modCore) h

theorem execTkins {d a : Reg} {n : BitVec 2} {k : BitVec 3} {v : BitVec 1} (h : s.Formed) :
    NextFormed (execTkins d a n k v s) :=
  .finish (.bind (.check _) fun _ => .bind .listGate fun _ => .bind (.readX _) fun _ => .bind .landedAll fun _ =>
    .bind (.look _) fun _ => .bind .abnCheck fun _ => .bind .rowCheck fun _ => .bind (.change .modCore) fun _ =>
    .bind (.change .scramble) fun _ => .replayStep) h

theorem execTkmrg {a : Reg} {n : BitVec 2} {c : BitVec 4} (h : s.Formed) : NextFormed (execTkmrg a n c s) :=
  .finish (.bind (.check _) fun _ => .bind .listGate fun _ => .bind (.readX _) fun _ => .bind (.xlatRange _ _ _) fun
    _ => .bind (.change .modCore) fun _ => .change .pushOp) h

theorem execTkrd {d a : Reg} {n : BitVec 2} {c : BitVec 4} (h : s.Formed) : NextFormed (execTkrd d a n c s) :=
  .finish (.bind (.check _) fun _ => .bind .listGate fun _ => .bind (.readX _) fun _ => .bind .storeBytes fun _ =>
    .writeX _ _) h

theorem execTkthr {d : Reg} {n : BitVec 2} {o : BitVec 1} (h : s.Formed) : NextFormed (execTkthr d n o s) :=
  .finish (.bind (.check _) fun _ => .bind .listGate fun _ => .writeX _ _) h

theorem execVterm {d a b : Reg} {e c : BitVec 4} (h : s.Formed) : NextFormed (execVterm d a b e c s) :=
  .finish (.bind (.check _) fun _ => .bind (.readX _) fun _ => .bind (.readX _) fun _ => .bind (.readX _) fun _ =>
    .bind (.trapIf _ _ _) fun _ => .bind (.loadBytes _ _ _ _) fun _ => .bind .storeBytes fun _ => .writeX _ _) h

theorem execVdotv {d a : Reg} {e : BitVec 4} {p n : BitVec 2} (h : s.Formed) :
    NextFormed (execVdotv d a e p n s) := by
  unfold Machine.execVdotv
  refine .finish (.bind (.check _) fun _ => .bind (.readX _) fun _ => .bind (.readX _) fun _ => .bind (.readX _) fun _ =>
    .bind (.look _) fun _ => .when .dotIssue fun _ => .bind (.look _) fun _ => .bind .landedGate fun _ =>
    .bind_look fun u hu => ?_) h
  split
  · exact .pure _
  · refine .bind (.change fun _ => .closeCourses (.walkCourses hu.pass)) fun _ => .bind (.look _) fun _ => .ite .stall ?_
    split
    · exact .of_kept fun h => .trap h.dotTrap
    · exact .change .endWalk

theorem execVselv {d a b : Reg} {e : BitVec 4} {m : BitVec 2} (h : s.Formed) : NextFormed (execVselv d a b e m s) :=
  .finish (.bind (.check _) fun _ => .bind (.readX _) fun _ => .bind (.trapIf _ _ _) fun _ => .bind (.look _)
    fun _ => .bind (.trapIf _ _ _) fun _ => .bind (.look _) fun _ => .perRow) h

theorem execVmaskv {k : BitVec 3} {a : Reg} {e : BitVec 4} {sf : BitVec 3} (h : s.Formed) :
    NextFormed (execVmaskv k a e sf s) := .finish .maskOp h
theorem execVclrv {d a b : Reg} {e : BitVec 4} (h : s.Formed) : NextFormed (execVclrv d a b e s) :=
  .finish (.bind (.check _) fun _ => .bind (.readX _) fun _ => .bind (.look _) fun _ => .perRow) h

end NextFormed

end Sys2Proof.Machine
end

section
/-! SUPPORT. Answers of slab, barrier and system instructions, and of events, as far as they share no body with others. -/

namespace Sys2Proof.Machine

variable {s : State}

/-- A run that ends well leaves a formed machine. -/
theorem State.Formed.ok {m : Act Unit} {r : Unit × State} (h : s.Formed) (e : m s = .ok r) (hm : KeepsForm m) :
    r.2.Formed := by
  have hk := hm.kept h
  rwa [e] at hk

/-- A run that stops leaves a formed machine once the stop is resolved. -/
theorem State.Formed.error {m : Act Unit} {x : Stop} (h : s.Formed) (e : m s = .error x) (hm : KeepsForm m) :
    x.resolve.Formed := by
  have hk := hm.kept h
  rw [e] at hk
  exact .resolve hk

namespace NextFormed

/-! ## Slab instructions (R293 to R317) -/

theorem execFork {d a : Reg} (h : s.Formed) : NextFormed (execFork d a s) :=
  .finish (.bind (.check _) fun _ => .bind (.look _) fun _ => .bind (.trapIf _ _ _) fun _ => .bind (.readX _)
    fun _ => .bind (.readX _) fun _ => .change .modCore) h

theorem execRdv (h : s.Formed) : NextFormed (execRdv s) :=
  .finish (.bind (.check _) fun _ => .bind (.look _) fun _ => .ite .rdvStream .rdvHart) h
theorem execRdvEnd (h : s.Formed) : NextFormed (execRdvEnd s) := .finish (.bind (.check _) fun _ => .rdvStream) h

theorem execSbind {a : Reg} {c : BitVec 4} {n : BitVec 2} (h : s.Formed) : NextFormed (execSbind a c n s) := by
  refine .finish (.bind (.check _) fun _ => .bind .streamHeld fun _ => .bind .loadRecord fun _ => ?_) h
  split
  · exact .slarg
  · exact .change .modCore

theorem execSldb {a : Reg} {c : BitVec 4} {x : BitVec 1} (h : s.Formed) : NextFormed (execSldb a c x s) := by
  refine .finish (.bind (.check _) fun _ => .bind .streamHeld fun _ => .bind .loadRecord fun _ => ?_) h
  split
  · exact .slarg
  · exact .issueLoad

theorem execSldbg {a b : Reg} {c : BitVec 4} {x : BitVec 1} (h : s.Formed) : NextFormed (execSldbg a b c x s) := by
  refine .finish (.bind (.check _) fun _ => .bind .streamHeld fun _ => .bind .loadRecord fun _ => ?_) h
  split
  · exact .slarg
  · refine .bind (.readX _) fun _ => .bind (.xlatRange _ _ _) fun _ => .bind (.look _) fun _ => ?_
    split
    · exact .change fun h => .holdError h.modCore
    · exact .bind (.of_kept fun h => h.readRange) fun _ => .issueLoad

theorem execStile {d : Reg} {w : BitVec 1} (h : s.Formed) : NextFormed (execStile d w s) :=
  .finish (.bind (.check _) fun _ => .bind .streamPreempt fun _ => .bind .raiseHeld fun _ => .bind (.readX _)
    fun _ => .bind (.readX _) fun _ => .bind (.readX _) fun _ => .bind (.writeX _ _) fun _ => .bind (.writeX _ _) fun _ =>
    .writeX _ _) h

theorem execScoef {a : Reg} {k : BitVec 3} (h : s.Formed) : NextFormed (execScoef a k s) :=
  .finish (.bind (.check _) fun _ => .bind .raiseHeld fun _ => .bind (.readX _) fun _ => .change .modCore) h

theorem execSmma {a b : Reg} (h : s.Formed) : NextFormed (execSmma a b s) := by
  refine .finish (.bind (.check _) fun _ => .bind (.readX _) fun _ => .bind (.readX _) fun _ => .bind (.readX _) fun _ =>
    .bind (.readX _) fun _ => .ite (.pure _) <| .bind .raiseHeld fun _ => .bind .slarg fun _ => .bind (.look _)
    fun _ => ?_) h
  dsimp only
  split
  · exact .slarg
  · exact .stall
  · refine .bind .slarg fun _ => .bind .slarg fun _ => ?_
    split
    · exact .raise _ _
    · exact .bind (.trapIf _ _ _) fun _ => .bind .slarg fun _ => .bind .checkSegments fun _ =>
        .bind (.change .pushOp) fun _ => .change .modCore

theorem execSzero {m : BitVec 1} {t : BitVec 3} (h : s.Formed) : NextFormed (execSzero m t s) :=
  .finish (.bind (.check _) fun _ => .bind .streamHeld fun _ => .bind .alignHart fun _ => .bind (.change .pushOp)
    fun _ => .change .modCore) h

theorem execSdrainScratch {a : Reg} {t : BitVec 4} {r l : BitVec 3} (h : s.Formed) :
    NextFormed (execSdrainScratch a t r l s) :=
  .finish (.bind (.look _) fun _ => .bind (.check _) fun _ => .bind .streamHeld fun _ => .bind (.readX _) fun _ =>
    .bind .slarg fun _ => .bind (.trapIf _ _ _) fun _ => .bind (.look _) fun _ => .bind .alignHart fun _ => .change
    .pushOp) h

theorem execSdrainVreg {d : Reg} {t : BitVec 4} {r l : BitVec 3} (h : s.Formed) :
    NextFormed (execSdrainVreg d t r l s) :=
  .finish (.bind (.look _) fun _ => .bind (.check _) fun _ => .bind (.look _) fun _ => .perRow) h

theorem execMiter {d a : Reg} {t r m g : BitVec 1} (h : s.Formed) : NextFormed (execMiter d a t r m g s) :=
  .finishAt (.bind (.look _) fun _ => .bind .miterOp fun _ => .pure _) h

theorem execMpoly {a : Reg} {g : BitVec 1} (h : s.Formed) : NextFormed (execMpoly a g s) :=
  .finish (.bind (.check _) fun _ => .bind .slabJoin fun _ => .bind .iterWord fun _ => .bind .iterModes fun _ =>
    .bind .iterTiles fun _ => .bind (.look _) fun _ => .bind (.change fun h => h) fun _ => .bind (.change .modCore)
    fun _ => .change fun h => h.blurTile.blurTile) h

/-! ## Barriers (R343 to R346) -/

/-- BAR (R343): a hart that comes back departs, one that waits goes on waiting, any other arrives. -/
theorem execBar {a : Reg} {sf : BitVec 3} (h : s.Formed) : NextFormed (execBar a sf s) := by
  unfold Machine.execBar
  extract_lets waited sc body
  have hd : KeepsForm barDepart := .acquire
  have hb : KeepsForm body := by
    refine .bind (.check _) fun _ => .bind (.look _) fun _ => .bind (.trapIf _ _ _) fun _ => .bind (.trapIf _ _ _)
      fun _ => ?_
    split
    · exact hd
    · exact .raise _ _
    · exact .park
    · exact .bind (.trapIf _ _ _) fun _ => .bind (.trapIf _ _ _) fun _ => .ite hd <| .when (.change .podRelease) fun _ =>
        .bind (.change fun h => h.reachUnit.arrive) fun _ => .bind (.look _) fun _ => .ite hd .park
  split
  · next e => exact .next (.retireBar (h.ok e hb))
  · next e => exact .next (h.error e hb)

theorem execMbwait {d a : Reg} {p q : BitVec 1} {sf : BitVec 3} (h : s.Formed) :
    NextFormed (execMbwait d a p q sf s) :=
  .finish (.bind (.check _) fun _ => .bind .streamJoin fun _ => .bind .mbarOperand fun _ => .bind .mbarLoad fun _ =>
    .ite .park (.bind .acquire fun _ => .writeX _ _)) h

theorem execMbtest {d a : Reg} {p : BitVec 1} {sf : BitVec 3} (h : s.Formed) : NextFormed (execMbtest d a p sf s) :=
  .finish (.bind (.check _) fun _ => .bind .streamJoin fun _ => .bind .mbarOperand fun _ => .bind .mbarLoad fun _ =>
    .bind .acquire fun _ => .writeX _ _) h

/-! ## System instructions (R348 to R358) -/

theorem execPfx {p : BitVec 3} {v c : BitVec 1} {r : BitVec 5} (h : s.Formed) : NextFormed (execPfx p v c r s) := by
  unfold Machine.execPfx
  split
  · next e => exact .next (h.ok e (.bind (.check _) fun _ => .change fun h => h))
  · next e => exact .next (h.error e (.bind (.check _) fun _ => .change fun h => h))

theorem execEret (h : s.Formed) : NextFormed (execEret s) := by
  unfold Machine.execEret
  split
  · next e =>
    have ht := h.ok e (.bind (.check _) fun _ => .bind (.look _) fun _ => .trapIf _ _ _)
    exact .next (.ite ht.eret.take ht.eret)
  · next e => exact .next (h.error e (.bind (.check _) fun _ => .bind (.look _) fun _ => .trapIf _ _ _))

theorem execEndHart (h : s.Formed) : NextFormed (execEndHart s) := by
  unfold Machine.execEndHart
  split
  · next e =>
    have ht := h.ok e (.bind (.check _) fun _ => .bind (.look _) fun _ => .trapIf _ _ _)
    exact .next (.leaveBarriers (.modCore (.modHart ht.complete)))
  · next e => exact .next (h.error e (.bind (.check _) fun _ => .bind (.look _) fun _ => .trapIf _ _ _))

theorem execYield (h : s.Formed) : NextFormed (execYield s) :=
  .finish (.bind (.check _) fun _ => .bind .streamJoin fun _ => .change fun h => .ite h h.modHart) h

theorem execLaunch {d a : Reg} (h : s.Formed) : NextFormed (execLaunch d a s) :=
  .finish (.bind (.check _) fun _ => .bind (.readX _) fun _ => .bind .alignCourses fun _ => .bind (.loadBytes _ _ _
    _) fun _ => .bind_look fun _ hu => .bind (.change fun _ => hu.enqueueLaunch) fun _ => .writeX _ _) h

theorem execQuiesce {d a : Reg} (h : s.Formed) : NextFormed (execQuiesce d a s) := by
  refine .finish (.bind (.check _) fun _ => .bind (.readX _) fun _ => .ite (.writeX _ _) <| .bind (.look _) fun _ =>
    .bind (.look _) fun _ => ?_) h
  extract_lets bound
  cases bound with
  | none => exact .writeX _ _
  | some b =>
    exact .bind (.look _) fun _ => .ite (.bind (.change .modHart) fun _ => .stall) (.bind .acquire fun _ => .writeX _ _)

theorem execTlbinv {d a : Reg} {k : BitVec 2} (h : s.Formed) : NextFormed (execTlbinv d a k s) :=
  .finish (.bind (.check _) fun _ => .bind (.readX _) fun _ => .bind (.readX _) fun _ => .bind (.change
    .tlbInvalidate) fun _ => .bind (.look _) fun _ => .ite .stall (.pure _)) h

theorem execIcinv (h : s.Formed) : NextFormed (execIcinv s) := .finish (.bind (.check _) fun _ => .change .modCore) h
theorem execIcinvAll (h : s.Formed) : NextFormed (execIcinvAll s) :=
  .finish (.bind (.check _) fun _ => .change fun h => h) h
theorem execSdcinv (h : s.Formed) : NextFormed (execSdcinv s) :=
  .finish (.bind (.check _) fun _ => .bind .streamJoin fun _ => .change .sdcInvalidate) h

/-! ## Events of engines and of the Launch Controller -/

theorem execCopyComplete {core tag dest : Nat} (h : s.Formed) : NextFormed (execCopyComplete core tag dest s) :=
  .next h.copyDone
theorem execGatherElementArrive {core op row : Nat} (h : s.Formed) :
    NextFormed (execGatherElementArrive core op row s) := .next (h.onOp .arriveElement)
theorem execPlaneSlotDelivered {core tag : Nat} (h : s.Formed) : NextFormed (execPlaneSlotDelivered core tag s) :=
  .next (h.onOp .deliverSlot)
theorem execSlabOpComplete {core op : Nat} (h : s.Formed) : NextFormed (execSlabOpComplete core op s) :=
  .next (h.onOp .completeSlab)
theorem execBLoadComplete {core op : Nat} (h : s.Formed) : NextFormed (execBLoadComplete core op s) :=
  .next (h.onOp .completeLoad)
theorem execTkmrgComplete {core list : Nat} (h : s.Formed) : NextFormed (execTkmrgComplete core list s) :=
  .next (h.onOp .completeMerge)
theorem execPageInComplete {req frame : Nat} {fcode : BitVec 8} (h : s.Formed) :
    NextFormed (execPageInComplete req frame fcode s) := .next h.pageInDone
theorem execWalkStart {die : Nat} (h : s.Formed) : NextFormed (execWalkStart die s) := .next (.ite h.startWalk h)
theorem execKvappWaitRetry {core hart : Nat} (h : s.Formed) : NextFormed (execKvappWaitRetry core hart s) :=
  .next (.ite (.of_mem rfl h) h)
theorem execWaitvPoll {core hart : Nat} (h : s.Formed) : NextFormed (execWaitvPoll core hart s) :=
  .next (.ite (.of_mem rfl h) h)
theorem execRingHeadPoll {held : Nat} (h : s.Formed) : NextFormed (execRingHeadPoll held s) :=
  .next (.of_mem rfl (h.pollHeld (n := held)))
theorem execQueueSlotRetry {q : Nat} (h : s.Formed) : NextFormed (execQueueSlotRetry q s) :=
  .next (.ite (.of_mem rfl (h.queueRead (q := qIx q))) h)
theorem execQueueStall {q : Nat} (h : s.Formed) : NextFormed (execQueueStall q s) :=
  .next (.ite (.msix (.of_mem rfl h)) h)
theorem execLaunchRecordTake {q : Nat} (h : s.Formed) : NextFormed (execLaunchRecordTake q s) :=
  .next (.of_mem rfl (h.recordTake (q := q)))
theorem execCodeObjectLoad {req : Nat} (h : s.Formed) : NextFormed (execCodeObjectLoad req s) := .next h.loadObject
theorem execLaunchWaitPoll {launch : Nat} (h : s.Formed) : NextFormed (execLaunchWaitPoll launch s) :=
  .next (.of_mem rfl (h.waitPoll (id := launch)))
theorem execPlacementDecision (h : s.Formed) : NextFormed (execPlacementDecision s) := by
  have ht := h.retirePallets.decide
  exact .next (by simpa only [State.Formed] using ht)

theorem execCoreReservation (h : s.Formed) : NextFormed (execCoreReservation s) := .next h.reserve
theorem execLaunchComplete {launch : Nat} (h : s.Formed) : NextFormed (execLaunchComplete launch s) :=
  .next h.completeLaunch
theorem execGangSave {launch gang : Nat} (h : s.Formed) : NextFormed (execGangSave launch gang s) := .next h.saveGang
theorem execGangRestore {launch gang : Nat} (h : s.Formed) : NextFormed (execGangRestore launch gang s) :=
  .next h.restoreGang
theorem execSemaphoreExpiry {sem : Nat} (h : s.Formed) : NextFormed (execSemaphoreExpiry sem s) :=
  .next (.ite h.semSettle h)
theorem execPodArriveSend {barrier : Nat} (h : s.Formed) : NextFormed (execPodArriveSend barrier s) :=
  .next (.of_mem rfl (h.podFlush (id := barrier)))

/-! ## Events from outside -/

theorem execQueueKick {port q : Nat} {value : Word} (h : s.Formed) : NextFormed (execQueueKick port q value s) :=
  .next (.ite h.outsideWrite h)
theorem execQueueEnable {port q : Nat} {value : Word} (h : s.Formed) : NextFormed (execQueueEnable port q value s) :=
  .next (.ite h.outsideWrite h)
theorem execQueueDisable {port q : Nat} {value : Word} (h : s.Formed) :
    NextFormed (execQueueDisable port q value s) := .next (.ite h.outsideWrite h)
theorem execPreemptqWrite {port : Nat} {value : Word} (h : s.Formed) : NextFormed (execPreemptqWrite port value s) :=
  .next h.outsideWrite
theorem execDqflush {port : Nat} {value : Word} (h : s.Formed) : NextFormed (execDqflush port value s) :=
  .next h.outsideWrite
theorem execDebugHalt {core : Nat} {value : Word} (h : s.Formed) : NextFormed (execDebugHalt core value s) :=
  .next (.ite h.outsideWrite h)
theorem execDebugResume {core : Nat} {value : Word} (h : s.Formed) : NextFormed (execDebugResume core value s) :=
  .next (.ite h.outsideWrite h)
theorem execSemacqRead {port : Nat} {rid : BitVec 16} {off size : Nat} {tie : Option (BitVec 16)} (h : s.Formed) :
    NextFormed (execSemacqRead port rid off size tie s) := .next h.semacq
theorem execSemrelWrite {port : Nat} {rid : BitVec 16} {sem : Nat} {value : Word} (h : s.Formed) :
    NextFormed (execSemrelWrite port rid sem value s) := .next (.ite h.outsideWrite h)
theorem execSemtimeWrite {port : Nat} {rid : BitVec 16} {sem : Nat} {value : Word} (h : s.Formed) :
    NextFormed (execSemtimeWrite port rid sem value s) := .next (.ite h.outsideWrite h)
theorem execSemstatWrite {port sem : Nat} {value : Word} (h : s.Formed) :
    NextFormed (execSemstatWrite port sem value s) := .next (.ite h.outsideWrite h)

theorem execPodidWrite {port : Nat} {value : Word} {tie : Option Word} (h : s.Formed) :
    NextFormed (execPodidWrite port value tie s) := by
  unfold Machine.execPodidWrite
  refine .next ?_
  split
  · exact h.outsideWrite
  · exact .ite h.outsideWrite (.ite h.tied.outsideWrite.outsideWrite h.tied.outsideWrite.outsideWrite)

theorem execMctrlReset {port : Nat} {rid : BitVec 16} {value : Word} (h : s.Formed) :
    NextFormed (execMctrlReset port rid value s) := .next h.outsideWrite
theorem execTestctlWrite {port : Nat} {value : Word} (h : s.Formed) : NextFormed (execTestctlWrite port value s) :=
  .next h.outsideWrite
theorem execPgrqWrite {port die : Nat} {value : Word} (h : s.Formed) : NextFormed (execPgrqWrite port die value s) :=
  .next (.ite h.outsideWrite h)
theorem execCtxpartWrite {port slot : Nat} {value : Word} (h : s.Formed) :
    NextFormed (execCtxpartWrite port slot value s) := .next (.ite h.outsideWrite h)
theorem execRegisterWrite {port : Nat} {rid : BitVec 16} {off size : Nat} {value : Word} (h : s.Formed) :
    NextFormed (execRegisterWrite port rid off size value s) := .next h.outsideWrite
theorem execBar2Read {port addr len : Nat} (h : s.Formed) : NextFormed (execBar2Read port addr len s) :=
  .next (.ite h.bar2Answer h)
theorem execBar2Write {port addr : Nat} {data : List (BitVec 8)} {poisoned : Bool} (h : s.Formed) :
    NextFormed (execBar2Write port addr data poisoned s) := .next (.ite h.takeIn (.ite h h.takeIn.touchHbm))
theorem execArrive {msg : List (BitVec 8)} (h : s.Formed) : NextFormed (execArrive msg s) := .next h.mailbox
theorem execDepart {msg : List (BitVec 8)} (h : s.Formed) : NextFormed (execDepart msg s) := .next h.mailbox
theorem execRefuse {msg : List (BitVec 8)} (h : s.Formed) : NextFormed (execRefuse msg s) := .next h.mailbox

theorem execHostLinkDown {port : Nat} (h : s.Formed) : NextFormed (execHostLinkDown port s) := by
  have hs : ((List.finRange 16).foldl State.semSettle s).Formed := .foldl .semSettle h
  exact .next (.ite (by simpa only [State.Formed] using hs) h)

theorem execHostLinkUp {port : Nat} (h : s.Formed) : NextFormed (execHostLinkUp port s) :=
  .next (.ite (.retryHeld (.msixSend (.of_mem rfl h))) h)
theorem execPeerPortLinkUp {port : Nat} (h : s.Formed) : NextFormed (execPeerPortLinkUp port s) :=
  .next (.ite (.retryHeld (.of_mem rfl h)) h)
theorem execModuleReset (h : s.Formed) : NextFormed (execModuleReset s) := .next h.moduleReset
theorem execBootStage {images : List FwImage} {config : SignedConfig} {minor : BitVec 16} {linksFail portsFail : Bool}
    (h : s.Formed) :
    NextFormed (execBootStage images config minor linksFail portsFail s) := .next h.boot
theorem execGetVersion {port : Nat} (h : s.Formed) : NextFormed (execGetVersion port s) := .next h.answer
theorem execGetCapabilities {port : Nat} (h : s.Formed) : NextFormed (execGetCapabilities port s) := .next h.answer
theorem execNegotiateAlgorithms {port : Nat} (h : s.Formed) : NextFormed (execNegotiateAlgorithms port s) :=
  .next h.answer
theorem execGetDigests {port : Nat} (h : s.Formed) : NextFormed (execGetDigests port s) := .next h.answer
theorem execGetCertificate {port slot : Nat} (h : s.Formed) : NextFormed (execGetCertificate port slot s) :=
  .next h.answer
theorem execChallenge {port slot nonce : Nat} (h : s.Formed) : NextFormed (execChallenge port slot nonce s) :=
  .next h.answer
theorem execGetMeasurements {port index : Nat} (h : s.Formed) : NextFormed (execGetMeasurements port index s) :=
  .next h.answer
theorem execSpdmUnsupportedRequest {port : Nat} {code : BitVec 8} (h : s.Formed) :
    NextFormed (execSpdmUnsupportedRequest port code s) := .next h.answer
theorem execMctpReadMsense {via : Nat} (h : s.Formed) : NextFormed (execMctpReadMsense via s) := .next h.mctpAnswer
theorem execMctpReadBootstat {via : Nat} (h : s.Formed) : NextFormed (execMctpReadBootstat via s) :=
  .next h.mctpAnswer
theorem execMctpReadLog {via : Nat} (h : s.Formed) : NextFormed (execMctpReadLog via s) := .next h.mctpAnswer
theorem execMctpHaltRequest {via core : Nat} (h : s.Formed) : NextFormed (execMctpHaltRequest via core s) :=
  .next (.ite (.requestHalt (.of_mem rfl h)) h)
theorem execGovernorUpdate {die : Nat} {power : BitVec 16} (h : s.Formed) :
    NextFormed (execGovernorUpdate die power s) := .next (.ite h.govern h)
theorem execPowerRecoveryEnter {die : Nat} (h : s.Formed) : NextFormed (execPowerRecoveryEnter die s) :=
  .next (.ite (.spreadToken h.modDie) h)
theorem execPowerRecoveryExit {die : Nat} (h : s.Formed) : NextFormed (execPowerRecoveryExit die s) :=
  .next (.ite (.spreadToken h.modDie) h)
theorem execPowerTokenPass {die : Nat} (h : s.Formed) : NextFormed (execPowerTokenPass die s) :=
  .next (.ite (.spreadToken h.modDie) h)
theorem execThermalThrottle {tj : BitVec 8} (h : s.Formed) : NextFormed (execThermalThrottle tj s) := .next h.readTj
theorem execThermalRelease {tj : BitVec 8} (h : s.Formed) : NextFormed (execThermalRelease tj s) := .next h.readTj
theorem execThermalReset {tj : BitVec 8} (h : s.Formed) : NextFormed (execThermalReset tj s) := .next h.readTj

theorem execContainedHardwareError {place : HwPlace} (h : s.Formed) :
    NextFormed (execContainedHardwareError place s) := by
  unfold Machine.execContainedHardwareError
  refine .next (.ite ?_ h)
  split
  · exact h.hardwareError
  · exact h.modCoreAt

end NextFormed

end Sys2Proof.Machine
end

section
/-! The canonical form of memory is kept: by every meaning, by every step of an engine, by every step of the machine. -/

namespace Sys2Proof.Machine

variable {s : State}

namespace NextFormed

/-- Every meaning keeps the form: the instructions in the order of their tables, those that share a body together. -/
theorem exec {i : Instr} (h : s.Formed) : NextFormed (exec i s) := by
  cases i with
  | add | sub | and | or | xor | andn | slt | sltu | seq | sne | min | max | minu | maxu | sll | srl | sra
  | rol | ror | mul | mulh | mulhu | div | divu | rem | remu => exact .finish .alu h
  | addi | andi | ori | xori | seqi | snei | slti | sgei | sltui | sgeui | slli | srli | srai
  | rori => exact .finish .aluImm h
  | bext | bextu | bins => exact .finish .fieldOp h
  | lui => exact .execLui h
  | auipc => exact .execAuipc h
  | beq | bne | blt | bge | bltu | bgeu => exact .finishAt .branchOn h
  | bmany | bmnone | bmall | bmnall => exact .finishAt .branchMask h
  | jal => exact .execJal h
  | jalr => exact .execJalr h
  | smb => exact .execSmb h
  | smbsImm => exact .execSmbsImm h
  | smbsReg => exact .execSmbsReg h
  | ldN8 | ldN16 | ldN32 | ldN64 | ldI8 | ldI16 | ldI32 | ldI64 => exact .finish .loadOp h
  | stN8 | stN16 | stN32 | stN64 => exact .finish .storeOp h
  | ldpN8 | ldpN16 | ldpN32 | ldpN64 | ldpI8 | ldpI16 | ldpI32 | ldpI64 => exact .finish .ldpOp h
  | amoadd | amoand | amoor | amoxor | amominI | amomaxI | amominN | amomaxN | amoswap
  | amocas => exact .finish .amoOp h
  | fence => exact .execFence h
  | pref => exact .execPref h
  | ldv => exact .execLdv h
  | stv => exact .execStv h
  | ldvs => exact .execLdvs h
  | stvs => exact .execStvs h
  | ldvl | stvl => exact .finish .rowLocal h
  | ldpl | stpl | ldplm | stplm => exact .finish .planeOp h
  | vgath => exact .execVgath h
  | vgathNb => exact .execVgathNb h
  | vscat => exact .execVscat h
  | vgathNf => exact .execVgathNf h
  | kvldNf | kvld => exact .finish .kvldOp h
  | kvst | kvstT => exact .finish (.kvWrite fun _ => .kvstOp) h
  | kvapp | kvappT => exact .finish (.kvWrite fun _ => .kvappOp) h
  | kvfold | kvfoldT => exact .finish (.kvWrite fun _ => .kvfoldOp) h
  | cpy | cpym | cpyr => exact .finish .copyOp h
  | cpyg => exact .execCpyg h
  | twaitany => exact .execTwaitany h
  | twaitall => exact .execTwaitall h
  | tffr => exact .execTffr h
  | tclr => exact .execTclr h
  | tpln => exact .execTpln h
  | waitc => exact .execWaitc h
  | pcmp => exact .execPcmp h
  | pwr => exact .execPwr h
  | pcw => exact .execPcw h
  | pcol => exact .execPcol h
  | ptag => exact .execPtag h
  | pshift => exact .execPshift h
  | pcnt | pany | pff => exact .finish .senseOp h
  | vadd | vsub | vrsub | vand | vor | vxor | vmin | vmax | vmul | vsll | vsrl | vsra | vfadd | vfsub | vfmul
  | vfma | vfmin | vfmax | vfneg | vfabs | vfaddX | vfmulX | vfmaX | vdqtb4 | vdqtb8 | vexp2 | vrcp | vrsqrt
  | vbcx => exact .finish .elemOp h
  | vmacc => exact .execVmacc h
  | vcmpEq | vcmpNe | vcmpLt | vcmpLe | vcmpGt | vcmpGe | vfcmpEq | vfcmpLt | vfcmpLe => exact .finish .maskOp h
  | vcvt => exact .execVcvt h
  | vqtb4 | vqtb8 => exact .finish .quantise h
  | vmv => exact .finish .moveOp h
  | vbcr => exact .finish .crossOp h
  | vmvxr => exact .execVmvxr h
  | vslideup | vslidedn => exact .finish .slideOp h
  | vcompress => exact .execVcompress h
  | viota => exact .execViota h
  | vrsum | vrmax | vrmin => exact .finish .reduceOp h
  | vscan | vscanmax | vscanmin => exact .finish .scanOp h
  | setvl => exact .execSetvl h
  | setvlf => exact .execSetvlf h
  | setvlre => exact .execSetvlre h
  | vsrch => exact .execVsrch h
  | vham => exact .execVham h
  | vtopk => exact .execVtopk h
  | tkinit => exact .execTkinit h
  | tkins => exact .execTkins h
  | tkmrg => exact .execTkmrg h
  | tkrd => exact .execTkrd h
  | tkthr => exact .execTkthr h
  | vterm => exact .execVterm h
  | vdotv => exact .execVdotv h
  | vselv => exact .execVselv h
  | vmaskv => exact .execVmaskv h
  | vclrv => exact .execVclrv h
  | sbind => exact .execSbind h
  | sldb => exact .execSldb h
  | sldbg => exact .execSldbg h
  | stile => exact .execStile h
  | smma => exact .execSmma h
  | sdrainScratch => exact .execSdrainScratch h
  | sdrainVreg => exact .execSdrainVreg h
  | szero => exact .execSzero h
  | miter => exact .execMiter h
  | mpoly => exact .execMpoly h
  | scoef => exact .execScoef h
  | fork => exact .execFork h
  | rdv => exact .execRdv h
  | rdvEnd => exact .execRdvEnd h
  | bar => exact .execBar h
  | mbinit | mbarrive | mbexpect | mbarrivex => exact .finish .mbarOp h
  | mbwait => exact .execMbwait h
  | mbtest => exact .execMbtest h
  | waitvEq | waitvGe => exact .finish .waitvOp h
  | csrr | csrw | csrs | csrc => exact .finish .csrOp h
  | svc | trap | bkpt => exact .finish .trapOp h
  | eret => exact .execEret h
  | yield => exact .execYield h
  | endHart => exact .execEndHart h
  | launch => exact .execLaunch h
  | quiesce => exact .execQuiesce h
  | tlbinv => exact .execTlbinv h
  | icinv => exact .execIcinv h
  | icinvAll => exact .execIcinvAll h
  | sdcinv => exact .execSdcinv h
  | pfx => exact .execPfx h
  | copyComplete => exact .execCopyComplete h
  | gatherElementArrive => exact .execGatherElementArrive h
  | planeSlotDelivered => exact .execPlaneSlotDelivered h
  | slabOpComplete => exact .execSlabOpComplete h
  | bLoadComplete => exact .execBLoadComplete h
  | tkmrgComplete => exact .execTkmrgComplete h
  | pageInComplete => exact .execPageInComplete h
  | walkStart => exact .execWalkStart h
  | kvappWaitRetry => exact .execKvappWaitRetry h
  | waitvPoll => exact .execWaitvPoll h
  | ringHeadPoll => exact .execRingHeadPoll h
  | queueKick => exact .execQueueKick h
  | queueEnable => exact .execQueueEnable h
  | queueDisable => exact .execQueueDisable h
  | queueSlotRetry => exact .execQueueSlotRetry h
  | queueStall => exact .execQueueStall h
  | launchRecordTake => exact .execLaunchRecordTake h
  | codeObjectLoad => exact .execCodeObjectLoad h
  | launchWaitPoll => exact .execLaunchWaitPoll h
  | placementDecision => exact .execPlacementDecision h
  | coreReservation => exact .execCoreReservation h
  | launchComplete => exact .execLaunchComplete h
  | preemptqWrite => exact .execPreemptqWrite h
  | gangSave => exact .execGangSave h
  | gangRestore => exact .execGangRestore h
  | dqflush => exact .execDqflush h
  | debugHalt => exact .execDebugHalt h
  | debugResume => exact .execDebugResume h
  | semacqRead => exact .execSemacqRead h
  | semrelWrite => exact .execSemrelWrite h
  | semtimeWrite => exact .execSemtimeWrite h
  | semstatWrite => exact .execSemstatWrite h
  | semaphoreExpiry => exact .execSemaphoreExpiry h
  | podidWrite => exact .execPodidWrite h
  | mctrlReset => exact .execMctrlReset h
  | testctlWrite => exact .execTestctlWrite h
  | pgrqWrite => exact .execPgrqWrite h
  | registerWrite => exact .execRegisterWrite h
  | bar2Read => exact .execBar2Read h
  | bar2Write => exact .execBar2Write h
  | arrive => exact .execArrive h
  | depart => exact .execDepart h
  | refuse => exact .execRefuse h
  | podArriveSend => exact .execPodArriveSend h
  | hostLinkDown => exact .execHostLinkDown h
  | hostLinkUp => exact .execHostLinkUp h
  | moduleReset => exact .execModuleReset h
  | bootStage => exact .execBootStage h
  | getVersion => exact .execGetVersion h
  | getCapabilities => exact .execGetCapabilities h
  | negotiateAlgorithms => exact .execNegotiateAlgorithms h
  | getDigests => exact .execGetDigests h
  | getCertificate => exact .execGetCertificate h
  | challenge => exact .execChallenge h
  | getMeasurements => exact .execGetMeasurements h
  | spdmUnsupportedRequest => exact .execSpdmUnsupportedRequest h
  | mctpReadMsense => exact .execMctpReadMsense h
  | mctpReadBootstat => exact .execMctpReadBootstat h
  | mctpReadLog => exact .execMctpReadLog h
  | mctpHaltRequest => exact .execMctpHaltRequest h
  | governorUpdate => exact .execGovernorUpdate h
  | powerRecoveryEnter => exact .execPowerRecoveryEnter h
  | powerRecoveryExit => exact .execPowerRecoveryExit h
  | powerTokenPass => exact .execPowerTokenPass h
  | thermalThrottle => exact .execThermalThrottle h
  | thermalRelease => exact .execThermalRelease h
  | thermalReset => exact .execThermalReset h
  | illegalWord => exact .finish (.raise _ _) h
  | ctxpartWrite => exact .execCtxpartWrite h
  | containedHardwareError => exact .execContainedHardwareError h
  | peerPortLinkUp => exact .execPeerPortLinkUp h

/-- Every step of an engine or of the Launch Controller keeps the form. -/
theorem perform {e : EngineStep} (h : s.Formed) : NextFormed (e.perform s) := by
  cases e with
  | copyComplete => exact .execCopyComplete h
  | gatherElementArrive => exact .execGatherElementArrive h
  | planeSlotDelivered => exact .execPlaneSlotDelivered h
  | slabOpComplete => exact .execSlabOpComplete h
  | bLoadComplete => exact .execBLoadComplete h
  | tkmrgComplete => exact .execTkmrgComplete h
  | walkStart => exact .execWalkStart h
  | ringHeadPoll => exact .execRingHeadPoll h
  | queueSlotRetry => exact .execQueueSlotRetry h
  | queueStall => exact .execQueueStall h
  | launchRecordTake => exact .execLaunchRecordTake h
  | codeObjectLoad => exact .execCodeObjectLoad h
  | launchWaitPoll => exact .execLaunchWaitPoll h
  | placementDecision => exact .execPlacementDecision h
  | coreReservation => exact .execCoreReservation h
  | launchComplete => exact .execLaunchComplete h
  | gangSave => exact .execGangSave h
  | gangRestore => exact .execGangRestore h
  | semaphoreExpiry => exact .execSemaphoreExpiry h
  | podArriveSend => exact .execPodArriveSend h

/-- A step keeps the form, whoever moves: an event, nobody, an engine or a party. -/
theorem step (h : s.Formed) : NextFormed (step s) := by
  unfold Machine.step
  extract_lets t
  have ht : t.Formed := h.tick
  clear_value t
  split
  · split
    · exact .next ht
    · exact .exec (.endDelays ht)
  · have hc := ht.choose (cs := t.choices)
    split <;> rename_i e <;> rw [e] at hc
    · exact .next (.idle hc)
    · exact .perform (.endDelays hc)
    · have hf := State.Formed.turnOf (p := ‹Party›) hc
      split <;> rename_i e <;> rw [e] at hf
      · exact .next hf
      · exact .exec hf
      · exact .finish (.raise _ _) hf

end NextFormed

/-- Settles O56: by cases of who moves and of what moves; every update of the machine has its rule. -/
theorem memoryFormKept : Obligations.MemoryFormKept := by
  unfold Obligations.MemoryFormKept
  exact fun _ t h e => NextFormed.step h t e

end Sys2Proof.Machine
end

section
/-! SUPPORT. What reset leaves in one element of each of the machine's vectors. -/

namespace Sys2Proof.Machine

theorem State.reset_core (c : Fin 192) : State.reset.cores[c] = .reset := Vector.getElem_replicate ..
theorem State.reset_die (d : Fin 4) : State.reset.dies[d] = .reset := Vector.getElem_replicate ..
theorem State.reset_sem (n : Fin 16) : State.reset.sems[n] = .reset := Vector.getElem_replicate ..
theorem State.reset_queue (q : Fin 32) : State.reset.queues[q] = .reset := Vector.getElem_replicate ..

theorem Core.reset_hart (h : Fin 8) : Core.reset.harts[h] = .reset := Vector.getElem_replicate ..
theorem Core.reset_list (n : Fin 4) : Core.reset.lists[n] = .reset := Vector.getElem_replicate ..
theorem Core.reset_bind (n : Fin 4) : Core.reset.binds[n] = none := Vector.getElem_replicate ..
theorem Core.reset_buffer (n : Fin 2) : Core.reset.bb[n] = .empty := Vector.getElem_replicate ..

end Sys2Proof.Machine

open Sys2Proof Sys2Proof.Machine

/-- Settles O54: every element of a vector of the reset machine is that part's own reset value, whose fields are given. -/
theorem resetValues : Obligations.ResetValues := by
  unfold Obligations.ResetValues
  refine ⟨fun c h => ?harts, fun c => ?cores, fun n => ?semaphores, fun q => ?queues, fun d => ?dies, ?package⟩
  case harts => simp only [State.reset_core, Core.reset_hart, Hart.reset, and_self]
  case cores =>
    have hlists (n : Fin 4) : Core.reset.lists[n].init = false ∧ Core.reset.binds[n] = none :=
      ⟨by rw [Core.reset_list, TkList.reset], Core.reset_bind n⟩
    simp only [State.reset_core]
    exact ⟨rfl, rfl, rfl, rfl, rfl, rfl, rfl, rfl, rfl, rfl, rfl, rfl, rfl, rfl, hlists, Core.reset_buffer⟩
  case semaphores => exact State.reset_sem n
  case queues => simp only [State.reset_queue, QueueRegs.reset, and_self]
  case dies => simp only [State.reset_die, Die.reset, and_self]
  case package => exact ⟨rfl, rfl, rfl, wf_reset⟩
end

section
/-! SUPPORT. Log delivery (R446): the bytes of an entry, what a poll of the log becomes when the ring takes the record, and
a machine whose log ring lies behind a port by which a core's failure stands recorded. -/

namespace Sys2Proof.Machine

/-- R446: the 32 bytes of a log entry, field by field. -/
theorem LogEntry.bytes_eq (e : LogEntry) (ph : Bool) :
    let body := bytesOfLe 8 e.addr.toNat ++ bytesOfLe 8 e.time.toNat ++
      [0, (if ph then 1 else 0), e.kind, e.cause, e.die, e.hand] ++ bytesOfLe 2 e.core.toNat ++ bytesOfLe 4 e.aux.toNat
    e.bytes ph = body ++ bytesOfLe 4 (crc32c body).toNat := by
  cases ph <;> simp [LogEntry.bytes, sealRecord, bytesOfLe]

/-- A poll of the log whose oldest entry the ring takes: the entry leaves the log of the machine that the ring leaves. -/
theorem exec_ringHeadPoll_log_written {s t : State} {e : LogEntry} {rest : List LogEntry} (k : Nat) (hr : s.logring ≠ 0)
    (hl : s.log = e :: rest) (hw : s.ringProduce s.physTr s.logring.toNat e.bytes = .written t) :
    exec (.ringHeadPoll (3 * k + 2)) s = .next { t with log := rest, epoch := s.epoch + 1 } := by
  have hsend : s.sendLog = { t with log := rest } := by simp only [State.sendLog, if_neg hr, hl, hw]
  have hpoll : s.pollHeld (3 * k + 2) = s.sendLog := by
    rw [State.pollHeld, if_neg (by omega), if_neg (by omega)]
  show Host.Outcome.next { s.pollHeld (3 * k + 2) with epoch := s.epoch + 1 } = _
  rw [hpoll, hsend]

/-- An entry for the log: a discarded SEMREL write (R446, kind 3). -/
def semrelEntry : LogEntry :=
  { addr := 0, time := 0, kind := 3, cause := 0, die := 0, hand := 0, core := 0xFFFF, aux := 0 }

/-- The reset machine with a log ring whose descriptor, at 64 in HBM, is good: 16 slots from the start of port 0's window,
HEAD at 0, nothing in the ring. One entry waits, and core 0 is the one by which a failure of the data that next leave
through port 0 stands recorded (R323, log 95). -/
def failingLogPort : State :=
  { State.reset with
    mem := [(70, 8), (72, 4)], logring := 64, log := [semrelEntry],
    cores := State.reset.cores.set 0 { Core.reset with flaws := [.outgoing 0] } }

/-- Whether a record was written and a core is left without a failing unit. -/
def RingResult.writtenWithoutFlaw (c : Fin 192) : RingResult → Bool
  | .written t => t.cores[c].flaws.isEmpty
  | _ => false

theorem RingResult.writtenWithoutFlaw_iff (c : Fin 192) (r : RingResult) :
    r.writtenWithoutFlaw c = true ↔ ∃ t, r = .written t ∧ t.cores[c].flaws = [] := by
  cases r <;> simp [RingResult.writtenWithoutFlaw]

/-- The record is taken and leaves through the port poisoned: the failure is over and no longer stands by core 0. -/
theorem failingLogPort_written :
    ∃ t, failingLogPort.ringProduce failingLogPort.physTr failingLogPort.logring.toNat semrelEntry.bytes = .written t ∧
      t.cores[(0 : Fin 192)].flaws = [] :=
  (RingResult.writtenWithoutFlaw_iff _ _).mp (by decide +kernel)

end Sys2Proof.Machine

open Sys2Proof Sys2Proof.Machine

/-- Refutes O42: log delivery does not leave the cores as they were. Where the log ring lies behind a port through which the
next data leave with a failing check (R29, R323), the record is written, and with it the failure goes from the core by
which it stood recorded (log 95). -/
theorem not_waitsAndRings : ¬ Obligations.WaitsAndRings := by
  unfold Obligations.WaitsAndRings
  rintro ⟨-, hlog, -⟩
  obtain ⟨t, ht, hgone⟩ := failingLogPort_written
  obtain ⟨hwritten, -, -⟩ := hlog failingLogPort semrelEntry [] 0 (by decide) rfl
  obtain ⟨u, hu, -, -, hcores⟩ := hwritten t (by rw [← ht]; congr 1; funext ph; exact (semrelEntry.bytes_eq ph).symm)
  obtain rfl := Host.Outcome.next.inj ((exec_ringHeadPoll_log_written 0 (by decide) rfl ht).symm.trans hu)
  have hstays : t.cores[(0 : Fin 192)].flaws = [.outgoing 0] := by
    rw [show t.cores = failingLogPort.cores from hcores]
    rfl
  rw [hgone] at hstays
  cases hstays
end
section
/-! SUPPORT. Reading a record of memory (R40), the phase of R87 and the request block of R187: where they answer, the
machine keeps everything but traces in caches and walkers. -/

namespace Sys2Proof.Machine

variable {α β : Type} {s t u : State}

theorem State.finds_eq_some {m : Act α} {q : α × State} : s.finds m = some q ↔ m s = .ok q := by
  unfold State.finds
  cases m s <;> simp

/-- A part that answers leaves traces only. -/
def LeavesTraces (m : Act α) : Prop := ∀ (s t : State) (a : α), m s = .ok (a, t) → OnlyTraces s t

namespace LeavesTraces

theorem pure (a : α) : LeavesTraces (pure a : Act α) := by
  rintro s t b ⟨⟩
  exact .refl s

theorem bind {m : Act α} {f : α → Act β} (hm : LeavesTraces m) (hf : ∀ a, LeavesTraces (f a)) :
    LeavesTraces (m >>= f) := by
  intro s t b h
  obtain ⟨a, u, ha, hb⟩ := Act.bind_ok h
  exact (hm _ _ _ ha).trans (hf a _ _ _ hb)

theorem look (f : State → α) : LeavesTraces (look f) := by
  rintro s t a ⟨⟩
  exact .refl s

theorem trapIf (b : Bool) (c : BitVec 8) (a : Word) : LeavesTraces (trapIf b c a) := by
  intro s t x h
  rw [Act.run_trapIf] at h
  split at h <;> cases h
  exact .refl s

theorem walkerGate (vas : List Nat) : LeavesTraces (walkerGate vas) := by
  intro s t x h
  unfold Machine.walkerGate at h
  split at h <;> cases h
  exact .refl s

theorem xlatPages (acc : Acc) (vas : List Nat) : LeavesTraces (xlatPages acc vas) := by
  induction vas with
  | nil => exact .pure _
  | cons a as ih => exact .bind (fun _ _ _ => onlyTraces_xlat) fun _ => .bind ih fun _ => .pure _

theorem xlatRange (acc : Acc) (va n : Nat) : LeavesTraces (xlatRange acc va n) := by
  unfold Machine.xlatRange
  split
  · intro s t x h
    cases h
  · exact .bind (.walkerGate _) fun _ => .xlatPages _ _

end LeavesTraces

theorem OnlyTraces.foldl {f : State → β → State} (hf : ∀ t b, OnlyTraces t (f t b)) (l : List β) (s : State) :
    OnlyTraces s (l.foldl f s) := by
  induction l generalizing s with
  | nil => exact .refl s
  | cons b l ih => exact (hf s b).trans (ih _)

theorem onlyTraces_pastRead (s : State) (r : Role) (pa n : Nat) :
    OnlyTraces s (s.pastRead r pa (readBytes s.mem pa n)).2 := by
  obtain ⟨v, t, ht, -, hst⟩ := pastRead_found s r pa n
  rw [ht]
  exact hst

theorem onlyTraces_readRange (s : State) (r : Role) (p : PageMap) (va n : Nat) : OnlyTraces s (s.readRange r p va n).2 := by
  have hparts : ∀ (l : List (Nat × Nat)) (q : List Byte × State),
      OnlyTraces q.2 (l.foldl (fun q a =>
        let b := q.2.pastRead r (p.pa a.1) (readBytes q.2.mem (p.pa a.1) a.2)
        (q.1 ++ b.1, b.2)) q).2 := by
    intro l
    induction l with
    | nil => exact fun q => .refl q.2
    | cons a l ih => exact fun q => (onlyTraces_pastRead q.2 r _ _).trans (ih _)
  refine OnlyTraces.trans (.foldl (fun t q => ?_) _ s) (hparts _ _)
  simp only [List.drop_nil, List.take_nil]
  exact (onlyTraces_read t _ _ _).1

/-! ## Where a record lies (R40 step 5, R57) -/

theorem regionOf_eq_regs {pa : Nat} : regionOf pa = .regs ↔ 0x10000000000 ≤ pa ∧ pa < 0x10100000000 := by
  unfold regionOf Config.hbmSize
  repeat' split
  all_goals simp; omega

theorem fabric_not_regs {pa : Nat} (h : regionOf pa ≠ .regs) : regionOf (s.fabric pa) ≠ .regs := by
  unfold State.fabric
  split
  · split
    · rw [ne_eq, regionOf_eq_regs]
      omega
    · exact h
  · exact h

/-- An access that may not touch device-class memory does not reach register space. -/
theorem translate_not_regs {a : Agent} {acc : Acc} {va : Nat} {x : Xlat} (hd : acc.device = false)
    (h : s.translate a acc va = .ok x t) : regionOf x.pa ≠ .regs := by
  unfold State.translate at h
  dsimp only at h
  split at h
  · cases h
  split at h
  · cases h
  split at h
  case h_4 =>
    split at h
    · cases h
    split at h
    · cases h
    next hclass =>
    split at h
    · cases h
    next habsent =>
    split at h
    · cases h
    split at h
    · cases h
    cases h
    refine fabric_not_regs fun hregs => hclass ?_
    cases hidem : leafIdem _ <;> simp [hd, hregs, habsent]
  all_goals cases h

theorem xlat_not_regs {acc : Acc} {va : Nat} {x : Xlat} (hd : acc.device = false) (h : xlat acc va s = .ok (x, t)) :
    regionOf x.pa ≠ .regs := by
  unfold xlat at h
  split at h
  · next e =>
    cases h
    exact translate_not_regs hd e
  · cases h

/-- A range that is not empty begins in its first page. -/
theorem pageStarts_eq_cons (va : Nat) {n : Nat} (hn : n ≠ 0) : ∃ l, pageStarts va n = va :: l := by
  have hlen : (va + n - 1) / 65536 + 1 - va / 65536 = (va + n - 1) / 65536 - va / 65536 + 1 := by omega
  have hva : max va (va / 65536 * 65536) = va := by omega
  rw [pageStarts, if_neg hn, hlen, List.range'_succ, List.map_cons, hva]
  exact ⟨_, rfl⟩

/-- The first byte of a range through the pages of its own translations is no register. -/
theorem xlatRange_not_regs {acc : Acc} {va n : Nat} {p : PageMap} (hd : acc.device = false) (hn : n ≠ 0)
    (h : xlatRange acc va n s = .ok (p, t)) : regionOf (p.pa va) ≠ .regs := by
  obtain ⟨l, hl⟩ := pageStarts_eq_cons va hn
  unfold xlatRange at h
  split at h
  · cases h
  · obtain ⟨-, u, -, hpages⟩ := Act.bind_ok h
    rw [hl, xlatPages] at hpages
    obtain ⟨x, v, hx, hrest⟩ := Act.bind_ok hpages
    obtain ⟨r, w, -, hp⟩ := Act.bind_ok hrest
    cases hp
    have hx := xlat_not_regs (acc := { acc with align := 1 }) hd hx
    simp only [PageMap.pa, List.find?_cons_of_pos, BEq.rfl, ne_eq, regionOf_eq_regs] at hx ⊢
    omega

/-- A record is never read from register space, so reading it changes no register. -/
theorem LeavesTraces.loadBytes {acc : Acc} {va n : Nat} {oc : BitVec 4} (hd : acc.device = false) (hn : n ≠ 0) :
    LeavesTraces (loadBytes acc va n oc) := by
  intro s t bs h
  obtain ⟨p, u, hp, hread⟩ := Act.bind_ok h
  refine (LeavesTraces.xlatRange _ _ _ _ _ _ hp).trans ?_
  split at hread
  · cases hread
  · rw [if_neg (xlatRange_not_regs hd hn hp)] at hread
    have ht : _ = t := congrArg Prod.snd (Except.ok.inj hread)
    exact ht ▸ onlyTraces_readRange ..

theorem LeavesTraces.readReq (k : KvMinor) (a : Reg) : LeavesTraces (readReq k a) :=
  .bind (.look _) fun _ => .bind (.loadBytes rfl (by decide)) fun _ => .bind (.trapIf _ _ _) fun _ => .pure _

/-! ## The phase of R87 -/

/-- The phase has met neither a fault nor a tier miss. -/
def KvPhase.clean (p : KvPhase) : Prop := p.fault = none ∧ p.miss = none

/-- A part of the phase: after it the phase is clean only if it was clean before, and then the part left traces only. -/
structure KvPhase.Leads (p q : KvPhase) : Prop where
  of_clean : q.clean → p.clean ∧ OnlyTraces p.s q.s

namespace KvPhase

variable {p q r : KvPhase}

theorem Leads.refl (p : KvPhase) : p.Leads p := ⟨fun h => ⟨h, .refl _⟩⟩

theorem Leads.trans (h : p.Leads q) (k : q.Leads r) : p.Leads r where
  of_clean hr :=
    have ⟨hq, hqr⟩ := k.of_clean hr
    have ⟨hp, hpq⟩ := h.of_clean hq
    ⟨hp, hpq.trans hqr⟩

theorem Leads.foldl {f : KvPhase → β → KvPhase} (hf : ∀ (p : KvPhase) (b : β), p.Leads (f p b)) (l : List β)
    (p : KvPhase) : p.Leads (l.foldl f p) := by
  induction l generalizing p with
  | nil => exact .refl p
  | cons b l ih => exact (hf p b).trans (ih _)

/-- What is faulted stays so: it leads to anything. -/
theorem leads_fail (p q : KvPhase) (c : BitVec 8) (va : Nat) : q.Leads (p.fail c va) := by
  refine ⟨fun ⟨hf, _⟩ => ?_⟩
  cases hp : p.fault <;> simp [fail, hp] at hf

theorem leads_data (p : KvPhase) (g : KvRange) (a pa n : Nat) : p.Leads (p.data g a pa n) := by
  unfold data
  extract_lets lo m q
  have hq : p.Leads q := by
    unfold q
    split
    · exact .refl p
    · exact ⟨fun h => ⟨h, (onlyTraces_read ..).1⟩⟩
  split
  · exact hq
  · split
    · exact hq
    · exact leads_fail ..

theorem leads_page (g : KvRange) (p : KvPhase) (a : Nat) : p.Leads (page g p a) := by
  unfold page
  split
  · split
    · refine ⟨fun ⟨_, hm⟩ => ?_⟩
      cases hp : p.miss <;> simp [hp] at hm
    · exact leads_fail ..
  · next x t e =>
    have hpage : p.Leads { p with s := t, pages := (a / 65536, x.pa / 65536, x.idem) :: p.pages } :=
      ⟨fun h => ⟨h, onlyTraces_translate e⟩⟩
    exact hpage.trans (leads_data ..)

theorem leads_range (p : KvPhase) (g : KvRange) : p.Leads (p.range g) := by
  unfold range
  split
  · exact .refl p
  · split
    · exact leads_fail ..
    · exact .foldl (leads_page g) _ p

theorem leads_keyPage (p : KvPhase) (r : KvReq) : p.Leads (p.keyPage r).1 := by
  unfold keyPage
  extract_lets q
  have hq : p.Leads q := leads_range p _
  clear_value q
  split
  · exact hq
  · split
    · exact leads_fail ..
    · dsimp only
      split
      · exact hq.trans (leads_range ..)
      · exact (leads_fail ..).trans (leads_range ..)

theorem finish_ok {ps : PageMap} (h : p.finish = .ok (ps, t)) : p.clean ∧ p.s = t := by
  unfold finish at h
  split at h <;> cases h
  next hf hm => exact ⟨⟨hf, hm⟩, rfl⟩

/-- A phase that begins clean and ends with an answer leaves traces only. -/
theorem Leads.traces {ps : PageMap} (h : p.Leads q) (hq : q.finish = .ok (ps, t)) : OnlyTraces p.s t := by
  obtain ⟨hclean, rfl⟩ := finish_ok hq
  exact (h.of_clean hclean).2

end KvPhase

theorem phaseHeader_ok {o : Option KvHeader} {m : PageMap × State} {x : PageMap × KvHeader}
    (h : phaseHeader o m = .ok (x, t)) : t = m.2 := by
  cases o <;> cases h
  rfl

theorem LeavesTraces.kvPhaseFold (r : KvReq) : LeavesTraces (kvPhaseFold r) := by
  refine .bind (.walkerGate _) fun _ s t x h => ?_
  extract_lets y n at h
  have hy : ({ s := s } : KvPhase).Leads y.1 := KvPhase.leads_keyPage _ r
  cases hm : (y.1.range { kind := .atomic, align := 64, va := r.vpage, n := 68 * r.d, rlen := n }).finish with
  | error e => rw [hm] at h; cases h
  | ok m =>
    rw [hm] at h
    obtain rfl := phaseHeader_ok h
    exact (hy.trans (KvPhase.leads_range ..)).traces hm

end Sys2Proof.Machine
end

section
/-! SUPPORT. KVST and KVFOLD (R88, R92, R93, R187), run from the end of the phase of R87: the capacity test, the stores of
an image, and each outcome of a fold. -/

namespace Sys2Proof.Machine

variable {s s1 s2 t : State} {r : KvReq} {ps : PageMap}

/-! ## The frame of a writer (R188) -/

theorem Legal.cause_default (hs : s.isStream = false) (hp : s.pfx = none) : ({} : Legal).cause s = none := by
  simp [Legal.cause, pfxBroken, hs, hp]

/-- A writer whose request is read does its work and writes its status word. -/
theorem kvWrite_run {k : KvMinor} {op : KvReq → Act Word} {d a : Reg} (hs : s.isStream = false) (hp : s.pfx = none)
    (hr : readReq k a s.orderAll = .ok (r, s1)) : kvWrite k op d a s = (op r >>= writeX d) s1 := by
  have halign : alignCourses s = .ok ((), s.orderAll) := rfl
  simp only [kvWrite, Act.run_bind, Act.run_check_ok (Legal.cause_default hs hp), halign, hr]

theorem finish_kvWrite_ok {k : KvMinor} {op : KvReq → Act Word} {d a : Reg} {w : Word} (hs : s.isStream = false)
    (hp : s.pfx = none) (hr : readReq k a s.orderAll = .ok (r, s1)) (hop : op r s1 = .ok (w, t)) :
    finish (kvWrite k op d a) s = .next (t.setX d w).retire :=
  finish_ok (by rw [kvWrite_run hs hp hr, Act.run_bind, hop]; rfl)

theorem finish_kvWrite_trap {k : KvMinor} {op : KvReq → Act Word} {d a : Reg} {e : Trap} (hs : s.isStream = false)
    (hp : s.pfx = none) (hr : readReq k a s.orderAll = .ok (r, s1)) (hop : op r s1 = .error (.trap e t)) :
    finish (kvWrite k op d a) s = .next (t.take e) :=
  finish_trap (by rw [kvWrite_run hs hp hr, Act.run_bind, hop])

/-! ## Values, body, header (R88) -/

/-- The bytes of a value page of dimension d: tokens, then zeros. -/
def valuePage (d : Nat) (tokens : List Byte) : List Byte := tokens ++ List.replicate (68 * d - tokens.length) 0

/-- The stores of a page in the order of R88: the value page's bytes, the key page's body, its header. -/
def State.storePage (s : State) (ps : PageMap) (vpage : Nat) (values : List Byte) (kslot : Nat) (g : KvImage) (seqv : Nat) :
    State :=
  ((s.storeMapped ps vpage values).storeMapped ps (kslot + 64) g.body).storeMapped ps kslot (g.header seqv)

@[simp] theorem Act.run_kvStore (slot : Nat) (g : KvImage) (seqv : Nat) (fl : BitVec 5) (s : State) :
    kvStore ps slot g seqv fl s =
      .ok ((), ((s.storeMapped ps (slot + 64) g.body).storeMapped ps slot (g.header seqv)).orFlags fl) := rfl

@[simp] theorem Act.run_kvRead (va n : Nat) (s : State) : kvRead ps va n s = .ok (ps.read s.mem va n, s) := rfl

@[simp] theorem Act.run_kvNofit_word (s : State) : kvNofit false s = .ok (kvWord 2 0 0 0 0, s) := rfl

@[simp] theorem Act.run_kvNofit_trap (s : State) : kvNofit true s = .error (.trap { cause := 0xA0 } s) := rfl

/-! ## KVST -/

/-- The image that KVST makes of its key source. -/
def KvReq.storeImage (r : KvReq) (ks : List FVal) : KvImage :=
  { d := r.d, t := r.trunc, cap := r.cap, chop := false, swtag := 0, refc := 1,
    toks := ((chunk r.d ks r.nt).map (kvEncode r.trunc)).map (·.1) }

/-- The value tokens that KVST makes of its value source, with their flags. -/
def KvReq.storeValues (r : KvReq) (vs : List FVal) : List (List Byte × BitVec 5) :=
  (chunk r.d vs r.nt).map (valueTok r.d r.split)

/-- The flags of all encodings of a KVST. -/
def KvReq.storeFlags (r : KvReq) (ks vs : List FVal) : BitVec 5 :=
  ((chunk r.d ks r.nt).map (kvEncode r.trunc)).foldl (fun a e => a ||| e.2) 0 |||
    (r.storeValues vs).foldl (fun a v => a ||| v.2) 0

section
variable {ks vs : List FVal} (hphase : kvPhaseSt r s1 = .ok (ps, s2))
  (hks : kvSource r ps r.ksrc (r.nt * r.d) s2 = .ok (ks, s2)) (hvs : kvSource r ps r.vsrc (r.nt * r.d) s2 = .ok (vs, s2))
include hphase hks hvs

theorem kvstOp_fits (b : Bool) (hfits : (r.storeImage ks).fits = true) :
    kvstOp b r s1 = .ok ((r.storeImage ks).word 0,
      (s2.storePage ps r.vpage (valuePage r.d ((r.storeValues vs).flatMap (·.1))) r.kslot (r.storeImage ks)
        (leOfBytes (ps.read s2.mem (r.kslot + 24) 8))).orFlags (r.storeFlags ks vs)) := by
  simp only [kvstOp, Act.run_bind, hphase, hks, hvs]
  rw [KvReq.storeImage] at hfits
  simp only [hfits, Bool.not_true, Bool.false_eq_true, if_false]
  rfl

theorem kvstOp_nofit (b : Bool) (hfits : (r.storeImage ks).fits = false) : kvstOp b r s1 = kvNofit b s2 := by
  simp only [kvstOp, Act.run_bind, hphase, hks, hvs]
  rw [KvReq.storeImage] at hfits
  simp only [hfits, Bool.not_false, if_true]

end

/-! ## KVFOLD -/

/-- The machine after the atomic on REFC, which is an acquire (R89, R92). -/
def State.afterRefc (s : State) : State := (s.reachUnit s.ownPlace).sdcInvalidate.orderAll

theorem reachUnit_frame (s : State) (place : Nat) :
    (s.reachUnit place).mem = s.mem ∧ (s.reachUnit place).cores = s.cores ∧ (s.reachUnit place).cur = s.cur := by
  unfold State.reachUnit
  split <;> exact ⟨rfl, rfl, rfl⟩

theorem onlyTraces_orderAll (s : State) : OnlyTraces s s.orderAll := by
  refine onlyTraces_modCore s _ fun c => ?_
  unfold Core.endLoads Core.orderPast Core.reorder
  split <;> split <;> rfl

theorem onlyTraces_sdcInvalidate (s : State) : OnlyTraces s s.sdcInvalidate := onlyTraces_modCore s _ fun _ => rfl

theorem afterRefc_mem (s : State) : s.afterRefc.mem = s.mem := (reachUnit_frame s _).1

theorem afterRefc_hart (s : State) : s.afterRefc.hart = s.hart := by
  obtain ⟨-, hcores, hcur⟩ := reachUnit_frame s s.ownPlace
  rw [State.afterRefc, ((onlyTraces_sdcInvalidate _).trans (onlyTraces_orderAll _)).hart]
  simp only [State.hart, State.core, hcores, hcur]

/-- The atomic on REFC, with its acquire, and what follows it. -/
theorem Act.run_refc {α : Type} (slot : Nat) (f : Nat × Nat → Act α) (s : State) :
    (readRefc ps slot >>= fun c => acquire >>= fun _ => f c) s =
      f (refcOf (leOfBytes (ps.read s.mem (slot + 48) 4))) s.afterRefc := by
  simp only [readRefc, acquire, Act.run_bind, Act.run_upd, Act.run_kvRead, Act.run_pure, (reachUnit_frame s _).1]
  rfl

/-- The tokens of a page, with their value blocks. -/
def KvHeader.pageToks (h : KvHeader) (d : Nat) (page vals : List Byte) : List FoldTok :=
  (List.range h.ntok).map fun k =>
    { m := max 1 (keyTok page h k).mult, key := keyTok page h k, vals := (vals.drop (k * vtok d)).take (vtok d), flags := 0 }

/-- The image of the tokens that remain of a page after a fold. -/
def KvHeader.foldImage (h : KvHeader) (d : Nat) (page : List Byte) (toks : List FoldTok) : KvImage :=
  { d := d, t := h.t, cap := h.cap, chop := h.chop, swtag := h.swtag, refc := msgField page 48 4,
    toks := toks.map fun k => { k.key with mult := k.m } }

/-- A fold of a page that one sequence owns: what is written of the tokens that remain, where some pair merged. -/
def kvFoldOwned (b : Bool) (r : KvReq) (ps : PageMap) (h : KvHeader) (theta : Nat) (page : List Byte) :
    List FoldTok → Act Word
  | [] => pure (kvWord 0 0 0 0 0)
  | first :: rest =>
    let f := foldToks theta r.d h.t first rest
    let g := h.foldImage r.d page f.1
    if !f.2 then pure (kvWord 0 0 0 0 0)
    else if !g.fits then kvNofit b
    else do
      upd (·.storeMapped ps r.vpage (valuePage r.d (f.1.flatMap (·.vals))))
      kvStore ps r.kslot g (msgField page 24 8) (f.1.foldl (fun a k => a ||| k.flags) 0)
      pure (g.word 0)

section
variable {h : KvHeader} (hphase : kvPhaseFold r s1 = .ok ((ps, h), s2))
include hphase

/-- R92: a page that is shared or being copied is left. -/
theorem kvfoldOp_shared (b : Bool) {c : Nat × Nat} (hc : refcOf (leOfBytes (ps.read s2.mem (r.kslot + 48) 4)) = c)
    (hshared : c.1 ≠ 1 ∨ c.2 ≠ 0) : kvfoldOp b r s1 = .ok (kvWord 4 0 0 0 0, s2.afterRefc) := by
  rw [kvfoldOp, Act.run_bind, hphase]
  simp only [Act.run_refc, hc, if_pos hshared, Act.run_pure]

theorem kvfoldOp_owned (b : Bool) (hc : refcOf (leOfBytes (ps.read s2.mem (r.kslot + 48) 4)) = (1, 0)) :
    kvfoldOp b r s1 =
      kvFoldOwned b r ps h s2.hart.kvfthr.toNat (ps.read s2.mem r.kslot h.plen)
        (h.pageToks r.d (ps.read s2.mem r.kslot h.plen) (ps.read s2.mem r.vpage (h.ntok * vtok r.d))) s2.afterRefc := by
  rw [kvfoldOp, Act.run_bind, hphase]
  simp only [Act.run_refc, hc]
  rw [if_neg (by simp)]
  simp only [Act.run_bind, Act.run_kvRead, Act.run_look, afterRefc_mem, afterRefc_hart]
  generalize htoks : h.pageToks r.d _ _ = toks
  rw [KvHeader.pageToks] at htoks
  simp only [htoks]
  cases toks <;> rfl

end

section
variable {h : KvHeader} {theta : Nat} {page : List Byte} {first : FoldTok} {rest : List FoldTok} {f : List FoldTok × Bool}
  (hf : foldToks theta r.d h.t first rest = f)
include hf

theorem kvFoldOwned_unmerged (b : Bool) (hmerged : f.2 = false) :
    kvFoldOwned b r ps h theta page (first :: rest) t = .ok (kvWord 0 0 0 0 0, t) := by
  simp only [kvFoldOwned, hf, hmerged, Bool.not_false, if_true, Act.run_pure]

variable (hmerged : f.2 = true)
include hmerged

theorem kvFoldOwned_nofit (b : Bool) (hfits : (h.foldImage r.d page f.1).fits = false) :
    kvFoldOwned b r ps h theta page (first :: rest) t = kvNofit b t := by
  simp only [kvFoldOwned, hf, hmerged, hfits, Bool.not_true, Bool.not_false, Bool.false_eq_true, if_false, if_true]

theorem kvFoldOwned_fits (b : Bool) (hfits : (h.foldImage r.d page f.1).fits = true) :
    kvFoldOwned b r ps h theta page (first :: rest) t = .ok ((h.foldImage r.d page f.1).word 0,
      (t.storePage ps r.vpage (valuePage r.d (f.1.flatMap (·.vals))) r.kslot (h.foldImage r.d page f.1)
        (msgField page 24 8)).orFlags (f.1.foldl (fun a k => a ||| k.flags) 0)) := by
  simp only [kvFoldOwned, hf, hmerged, hfits, Bool.not_true, Bool.false_eq_true, if_false]
  rfl

end

end Sys2Proof.Machine

open Sys2Proof Sys2Proof.Machine

/-- Settles O34: a writer is its operation on the request that it reads. KVST's is the capacity test and the stores. KVFOLD's
leaves the machine as it is after the atomic on REFC, unless one sequence owns the page and some pair merges; its threshold
is that of the hart before the instruction, because up to the atomic only traces are left. -/
theorem keyValueStoreAndFold : Obligations.KeyValueStoreAndFold := by
  unfold Obligations.KeyValueStoreAndFold
  refine ⟨?store, ?fold⟩
  case store =>
    intro s s1 s2 d a oc r ps ks vs hs hp hr hphase hks hvs
    rw [State.finds_eq_some] at hr hphase hks hvs
    constructor
    · intro hfits i hi
      have hok (b : Bool) := finish_kvWrite_ok (d := d) hs hp hr (kvstOp_fits hphase hks hvs b hfits)
      rcases List.mem_pair.mp hi with rfl | rfl
      · exact hok false
      · exact hok true
    · intro hfits
      have hop (b : Bool) := kvstOp_nofit hphase hks hvs b hfits
      exact ⟨finish_kvWrite_ok hs hp hr (hop false), finish_kvWrite_trap hs hp hr (hop true)⟩
  case fold =>
    intro s s1 s2 d a oc r ps h first rest hs hp hr hphase
    rw [State.finds_eq_some] at hr hphase
    have hhart : s2.hart = s.hart :=
      ((onlyTraces_orderAll s).trans (LeavesTraces.readReq _ _ _ _ _ hr) |>.trans
        (LeavesTraces.kvPhaseFold _ _ _ _ hphase)).hart
    intro s3 refc page vals toks f g bytes z
    have howned (b : Bool) (hc : refc = (1, 0)) : kvfoldOp b r s1 = kvFoldOwned b r ps h s.hart.kvfthr.toNat page toks s3 :=
      hhart ▸ kvfoldOp_owned hphase b hc
    intro i hi
    obtain ⟨b, hexec, hplain, htrap⟩ : ∃ b, exec i s = finish (kvWrite .fold (kvfoldOp b) d a) s ∧
        (i = .kvfold d a oc → b = false) ∧ (i = .kvfoldT d a oc → b = true) := by
      rcases List.mem_pair.mp hi with rfl | rfl
      · exact ⟨false, rfl, fun _ => rfl, nofun⟩
      · exact ⟨true, rfl, nofun, fun _ => rfl⟩
    rw [hexec]
    refine ⟨fun hshared => ?shared, fun hc hnone => ?unmerged, fun hc htoks hmerged hfits => ?nofit,
      fun hc htoks hmerged hfits => ?fits⟩
    case shared => exact finish_kvWrite_ok hs hp hr (kvfoldOp_shared hphase b rfl hshared)
    case unmerged =>
      refine finish_kvWrite_ok hs hp hr ((howned b hc).trans ?_)
      rcases hnone with htoks | ⟨htoks, hmerged⟩
      · rw [htoks]
        rfl
      · rw [htoks]
        exact kvFoldOwned_unmerged rfl b hmerged
    case nofit =>
      have hop : kvfoldOp b r s1 = kvNofit b s3 := by
        rw [howned b hc, htoks]
        exact kvFoldOwned_nofit rfl hmerged b hfits
      refine ⟨fun hi => finish_kvWrite_ok hs hp hr ?_, fun hi => finish_kvWrite_trap hs hp hr ?_⟩
      · rw [hop, hplain hi]
        rfl
      · rw [hop, htrap hi]
        rfl
    case fits =>
      refine finish_kvWrite_ok hs hp hr ((howned b hc).trans ?_)
      rw [htoks]
      exact kvFoldOwned_fits rfl hmerged b hfits
end

section
/-! SUPPORT. What stores through a page map leave of a party's privilege, and a KVAPP by copy whose spare slots lie behind a
port by which a core's failure stands recorded. -/

namespace Sys2Proof.Machine

variable {s t u : State}

/-- The same party runs, at the same privilege and under the same debug control. -/
structure SameMode (s t : State) : Prop where
  cur : t.cur = s.cur
  sys : t.hart.sys = s.hart.sys
  dbgctl : t.core.dbgctl = s.core.dbgctl

namespace SameMode

theorem refl (s : State) : SameMode s s := ⟨rfl, rfl, rfl⟩

theorem trans (h : SameMode s t) (k : SameMode t u) : SameMode s u :=
  ⟨k.cur.trans h.cur, k.sys.trans h.sys, k.dbgctl.trans h.dbgctl⟩

theorem stepping (h : SameMode s t) : t.stepping = s.stepping := by
  simp only [State.stepping, h.cur, h.sys, h.dbgctl]

theorem of_cores (hcores : t.cores = s.cores) (hcur : t.cur = s.cur) : SameMode s t := by
  refine ⟨hcur, ?_, ?_⟩ <;> simp only [State.hart, State.core, hcores, hcur]

theorem foldl {β : Type} {f : State → β → State} (hf : ∀ t b, SameMode t (f t b)) (l : List β) (s : State) :
    SameMode s (l.foldl f s) := by
  induction l generalizing s with
  | nil => exact .refl s
  | cons b l ih => exact (hf s b).trans (ih _)

theorem modCoreAt (i : Fin 192) {f : Core → Core} (hf : ∀ c, (f c).harts = c.harts ∧ (f c).dbgctl = c.dbgctl) :
    SameMode s (s.modCoreAt i f) := by
  have hcore : (s.modCoreAt i f).core.harts = s.core.harts ∧ (s.modCoreAt i f).core.dbgctl = s.core.dbgctl := by
    by_cases h : i = s.cur.core
    · subst h
      simpa [State.core, State.modCoreAt] using hf _
    · have hne : i.val ≠ s.cur.core.val := fun e => h (Fin.ext e)
      simp [State.core, State.modCoreAt, hne]
  exact ⟨rfl, by simp only [State.hart, hcore.1]; rfl, hcore.2⟩

theorem modCore {f : Core → Core} (hf : ∀ c, (f c).harts = c.harts ∧ (f c).dbgctl = c.dbgctl) :
    SameMode s (s.modCore f) :=
  .modCoreAt s.cur.core hf

theorem modTh (f : Thread → Thread) : SameMode s (s.modTh f) := by
  have hcore : (s.modTh f).core = s.core.modTh s.cur.who f := State.core_modCore ..
  cases hw : s.cur.who with
  | hart h => exact ⟨rfl, by simp [State.hart, hcore, hw, Core.modTh, Core.modHart, Who.hartIx],
      by simp [hcore, hw, Core.modTh]⟩
  | stream => exact ⟨rfl, by simp [State.hart, hcore, hw, Core.modTh], by simp [hcore, hw, Core.modTh]⟩

theorem setX (r : Reg) (v : Word) : SameMode s (s.setX r v) := .modTh _
theorem orFlags (f : BitVec 5) : SameMode s (s.orFlags f) := .modTh _

theorem sdcWrite (pa : Nat) (bs : List Byte) : SameMode s (s.sdcWrite pa bs) :=
  .modCore fun c => by split <;> exact ⟨rfl, rfl⟩

theorem sendPoisoned (core : Fin 192) (port place n : Nat) : SameMode s (s.sendPoisoned core port place n) := by
  have hflaws : SameMode s (s.modCoreAt core fun c => { c with flaws := c.flaws.erase (.outgoing (dieIx port)) }) :=
    .modCoreAt _ fun _ => ⟨rfl, rfl⟩
  exact hflaws.trans (.of_cores (logEvent_cores ..) (logEvent_cur ..))

theorem portRequest (k : ReqKind) (p pa n : Nat) (d : List Byte) : SameMode s (s.portRequest k p pa n d) := by
  unfold State.portRequest
  extract_lets fails t
  have ht : SameMode s t := .of_cores rfl rfl
  clear_value t
  cases fails with
  | none => exact ht
  | some core => exact ht.trans (sendPoisoned ..)

theorem traffic (use : CacheUse) (k : ReqKind) (pa n : Nat) (d : List Byte) : SameMode s (s.traffic use k pa n d) := by
  unfold State.traffic
  split
  · exact .of_cores (onlyTraces_touchHbm ..).2 (onlyTraces_touchHbm ..).1.cur
  · exact .portRequest ..
  · exact .refl s

theorem storeCells (cs : List (Nat × Byte)) : SameMode s (s.storeCells cs) := by
  unfold State.storeCells
  dsimp only
  split
  · exact .of_cores rfl rfl
  · exact .of_cores (recheck_frame ..).1 (recheck_frame ..).2

theorem notePort (pa : Nat) : SameMode s (s.notePort pa) := by
  unfold State.notePort
  split
  · extract_lets q
    have hq : SameMode s q := by
      unfold q
      split
      · exact .refl s
      · exact .modCore fun c => ⟨rfl, rfl⟩
    clear_value q
    split
    · exact hq.trans (.of_cores rfl rfl)
    · exact hq
  · exact .refl s

theorem storeMapped (p : PageMap) (va : Nat) (bs : List Byte) : SameMode s (s.storeMapped p va bs) := by
  unfold State.storeMapped
  dsimp only
  exact (((storeCells _).trans (foldl (fun _ _ => sdcWrite ..) ..)).trans (foldl (fun _ _ => traffic ..) ..)).trans
    (foldl (fun _ _ => notePort _) ..)

/-- The stores of a page, its flags and its status word. -/
theorem storePage {ps : PageMap} {vpage kslot seqv : Nat} {values : List Byte} {g : KvImage} {fl : BitVec 5} {d : Reg}
    {w : Word} : SameMode s (((s.storePage ps vpage values kslot g seqv).orFlags fl).setX d w) :=
  ((((storeMapped ..).trans (storeMapped ..)).trans (storeMapped ..)).trans (orFlags _)).trans (setX ..)

end SameMode

/-- An instruction that completes without single stepping leaves the privilege of its hart. -/
theorem retire_sys {h : Fin 8} (hw : s.cur.who = .hart h) (hs : s.stepping = false) : s.retire.hart.sys = s.hart.sys := by
  rw [State.retire_hart hw hs]
  simp [State.hart, State.core, hw, Who.hartIx]

/-- A key page of dimension 64 that two sequences share; its one token is zero. -/
def sharedZeroPage : KvImage :=
  { d := 64, t := 0, cap := 704, chop := false, swtag := 0, refc := 2, toks := [{ etok := 0, mult := 0, elems := [] }] }

/-- At hart 0 of core 0, x5 names a request block at 0x1000 to append a second token to the page above, in slot 0x2000
with its value page at 0x4000. One address, the start of port 0's window, is given both as the spare key slot, of 704
bytes, and as the spare value page: VA 0x40000000 is mapped to it. Core 0 is the one by which a failure of the data that
next leave through port 0 stands recorded (R323, log 95). -/
def spareSlotsBehindFailingPort : State :=
  let s := State.reset.withFetchWord 32 0
  let request : List Host.Cell :=
    [(0x1001, 0x20), (0x1009, 0x40), (0x1011, 0x80), (0x1019, 0x90), (0x1023, 0x40), (0x102B, 0x40), (0x1030, 0xC0),
      (0x1031, 2), (0x1038, 1), (0x103A, 14), (0x103C, 3)]
  let page := writeBytes (request ++ s.mem) 0x2000 (sharedZeroPage.header 0)
  { (s.modHart fun h => { h with th := h.th.set 5 0x1000 }).modCore fun c => { c with flaws := [.outgoing 0] } with
    mem := writeLE page 0x200008 8 0x800000000015F, linkUp := s.linkUp.set 0 true }

/-- Whether the hart that runs is at system privilege afterwards. -/
def inSystemAfter : Host.Outcome State Fault Refusal → Bool
  | .next t => t.hart.sys
  | _ => false

/-- A hart at pallet privilege that completes is at pallet privilege still. -/
theorem SameMode.not_inSystemAfter {h : Fin 8} (hmode : SameMode s t) (hw : s.cur.who = .hart h)
    (hstep : s.stepping = false) (hsys : s.hart.sys = false) : inSystemAfter (.next t.retire) = false :=
  (retire_sys (hmode.cur ▸ hw) (hmode.stepping.trans hstep)).trans (hmode.sys.trans hsys)

theorem State.finds_get {α : Type} {m : Act α} (h : (s.finds m).isSome = true) :
    s.finds m = some (((s.finds m).get h).1, ((s.finds m).get h).2) := (Option.some_get h).symm

theorem State.finds_get_pair {α β : Type} {m : Act (α × β)} (h : (s.finds m).isSome = true) :
    s.finds m = some ((((s.finds m).get h).1.1, ((s.finds m).get h).1.2), ((s.finds m).get h).2) := (Option.some_get h).symm

theorem spareSlots_request_isSome : (spareSlotsBehindFailingPort.orderAll.finds (readReq .app 5)).isSome = true := by
  decide +kernel

/-- The request of that block, and the machine afterwards. -/
def spareSlotsRequest : KvReq × State :=
  (spareSlotsBehindFailingPort.orderAll.finds (readReq .app 5)).get spareSlots_request_isSome

theorem spareSlots_pages_isSome : (spareSlotsRequest.2.finds (kvPhaseApp spareSlotsRequest.1)).isSome = true := by
  decide +kernel

end Sys2Proof.Machine

open Sys2Proof Sys2Proof.Machine

/-- Refutes O35: the append by copy need not reach its status word where one slot is given as spare key slot and as spare
value page. Behind a port by which a failing transfer stands recorded, the values that KVAPP copies there arrive poisoned
(R29, R323); its next step, reading the spare slot's old SEQV, then meets that failing check, and the instruction raises
CHECKFAIL (R90), though no check failed before it. -/
theorem not_keyValueAppend : ¬ Obligations.KeyValueAppend := by
  unfold Obligations.KeyValueAppend
  rintro ⟨-, hcopy⟩
  obtain ⟨hfits, -⟩ := hcopy spareSlotsBehindFailingPort _ _ 9 5 0 _ _ _ _ rfl rfl rfl
    (State.finds_get spareSlots_request_isSome) (State.finds_get_pair spareSlots_pages_isSome)
    (by decide +kernel) (by decide +kernel) (by decide +kernel) rfl
  -- the claim: the instruction completes at pallet privilege; the run: it is in system firmware
  have hnext := hfits (by decide +kernel) (.kvapp 9 5 0) List.mem_cons_self
  have htrap : inSystemAfter (exec (.kvapp 9 5 0) spareSlotsBehindFailingPort) = true := by decide +kernel
  rw [hnext] at htrap
  refine absurd (htrap.symm.trans (SameMode.storePage.not_inSystemAfter (h := 0) ?hart ?unstepped ?pallet)) (by decide)
  all_goals decide +kernel
end

section
/-! SUPPORT. Copy tags (R99): what the issue of an operation, its completion and TCLR make of the two bits of each tag; and the
bodies of the tag instructions and of WAITC (R183, R184). -/

namespace Sys2Proof.Machine

variable {s : State} {c : Core} {n k : Nat}

/-! ## The two bits of a tag (R99) -/

theorem getLsbD_twoPow {w : Nat} (hk : k < w) : (BitVec.ofNat w (2 ^ n)).getLsbD k = decide (k = n) := by
  rw [BitVec.getLsbD_ofNat, Nat.testBit_two_pow, decide_eq_true hk, Bool.true_and]
  exact decide_eq_decide.mpr eq_comm

theorem getLsbD_setBit {w : Nat} (x : BitVec w) (hk : k < w) :
    (x ||| BitVec.ofNat w (2 ^ n)).getLsbD k = (decide (k = n) || x.getLsbD k) := by
  rw [BitVec.getLsbD_or, getLsbD_twoPow hk, Bool.or_comm]

theorem getLsbD_clearBit {w : Nat} (x : BitVec w) (hk : k < w) :
    (x &&& ~~~BitVec.ofNat w (2 ^ n)).getLsbD k = (!decide (k = n) && x.getLsbD k) := by
  rw [BitVec.getLsbD_and, BitVec.getLsbD_not, getLsbD_twoPow hk, decide_eq_true hk, Bool.true_and, Bool.and_comm]

theorem Core.tagBusy_eq (c : Core) (k : Nat) : c.tagBusy k = !c.ctag.getLsbD k := rfl
theorem Core.tagFailed_eq (c : Core) (k : Nat) : c.tagFailed k = c.cterr.getLsbD k := rfl

/-- The issue of an operation makes its tag BUSY, and no other. -/
theorem Core.tagBusy_takeTag (c : Core) (n : Nat) (hk : k < 64) :
    (c.takeTag n).tagBusy k = (decide (k = n) || c.tagBusy k) := by
  rw [Core.tagBusy_eq, Core.takeTag, getLsbD_clearBit _ hk, Bool.not_and, Bool.not_not]
  rfl

theorem Core.tagFailed_takeTag (c : Core) (n : Nat) (hk : k < 64) :
    (c.takeTag n).tagFailed k = (!decide (k = n) && c.tagFailed k) := getLsbD_clearBit _ hk

/-- A completion ends BUSY of its tag, and of no other. -/
theorem Core.tagBusy_endTag (c : Core) (n : Nat) (f : Option (BitVec 8 × Word)) (hk : k < 64) :
    (c.endTag n f).tagBusy k = (!decide (k = n) && c.tagBusy k) := by
  rw [Core.tagBusy_eq, Core.endTag, getLsbD_setBit _ hk, Bool.not_or]
  rfl

theorem Core.tagFailed_endTag (c : Core) (n : Nat) (f : Option (BitVec 8 × Word)) (hk : k < 64) :
    (c.endTag n f).tagFailed k = if k = n then f.isSome else c.tagFailed k := by
  cases f with
  | none => rw [Core.tagFailed_eq, Core.endTag, Option.isSome_none, if_neg Bool.false_ne_true, getLsbD_clearBit _ hk]
            by_cases hn : k = n <;> simp [hn, Core.tagFailed_eq]
  | some p => rw [Core.tagFailed_eq, Core.endTag, Option.isSome_some, if_pos rfl, getLsbD_setBit _ hk]
              by_cases hn : k = n <;> simp [hn, Core.tagFailed_eq]

@[simp] theorem Core.tags_endTag (c : Core) (n : Nat) (f : Option (BitVec 8 × Word)) :
    (c.endTag n f).tags[tagIx n] = f.elim { cause := 0, addr := 0, planes := 0 } fun p =>
      { cause := p.1, addr := p.2, planes := 0 } := by
  simp [Core.endTag, Core.setTag]

@[simp] theorem Core.ops_endTag (c : Core) (n : Nat) (f : Option (BitVec 8 × Word)) : (c.endTag n f).ops = c.ops := rfl
@[simp] theorem Core.rows_endTag (c : Core) (n : Nat) (f : Option (BitVec 8 × Word)) : (c.endTag n f).rows = c.rows := rfl

theorem tagOf_eq (x : Word) : tagOf x = x.toNat % 64 := rfl

/-! ## TCLR -/

theorem Core.clearTags_cons (c : Core) (n : Nat) (ns : List Nat) :
    c.clearTags (n :: ns) = (if c.tagBusy n then c else c.endTag n none).clearTags ns := rfl

/-- TCLR changes the tags' registers alone. -/
theorem Core.clearTags_frame (c : Core) (ns : List Nat) :
    c.clearTags ns =
      { c with ctag := (c.clearTags ns).ctag, cterr := (c.clearTags ns).cterr, tags := (c.clearTags ns).tags } := by
  induction ns generalizing c with
  | nil => rfl
  | cons n ns ih =>
    rw [Core.clearTags_cons, ih]
    split <;> rfl

/-- R183: tags of the list that are DONE or FAILED become IDLE: none changes BUSY, and those lose FAILED. -/
theorem Core.clearTags_bits (c : Core) (ns : List Nat) (hk : k < 64) :
    (c.clearTags ns).tagBusy k = c.tagBusy k ∧
      (c.clearTags ns).tagFailed k = (c.tagFailed k && !(ns.contains k && !c.tagBusy k)) := by
  induction ns generalizing c with
  | nil => simp [Core.clearTags]
  | cons n ns ih =>
    rw [Core.clearTags_cons]
    by_cases hb : c.tagBusy n = true
    · rw [if_pos hb, (ih c).1, (ih c).2]
      by_cases hn : k = n
      · subst hn
        simp [hb]
      · simp [hn]
    · rw [if_neg hb, (ih _).1, (ih _).2, Core.tagBusy_endTag _ _ _ hk, Core.tagFailed_endTag _ _ _ hk]
      by_cases hn : k = n
      · subst hn
        simp [hb]
      · simp [hn]

theorem contains_tagList (x : Word) (hk : k < 64) : (tagList x).contains k = bitOf x.toNat k := by
  simp [tagList, hk]

/-- A party keeps its scalar registers where its core keeps its harts and its stream. -/
theorem State.th_congr {s u : State} (hcur : u.cur = s.cur) (hharts : u.core.harts = s.core.harts)
    (hstream : u.core.stream = s.core.stream) : u.th = s.th := by
  simp only [State.th, Core.th, hcur, hharts, hstream]

/-- What changes the current core alone. -/
theorem onlyCore_modCore (s : State) (f : Core → Core) : OnlyCore s (s.modCore f) := by
  simp [OnlyCore, State.modCore, State.setCore, State.core]

/-! ## Instructions that check nothing but their place (R145) -/

section
variable (hs : s.isStream = false) (hp : s.pfx = none)
include hs hp

/-- An instruction of a hart without operands to check runs its body. -/
theorem checked_run (m : Act Unit) : (({} : Legal).check >>= fun _ => m) s = m s := by
  rw [Act.run_bind, Act.run_check_ok (Legal.cause_default hs hp)]

theorem finish_checked (m : Act Unit) : finish (({} : Legal).check >>= fun _ => m) s = finish m s := by
  unfold finish
  rw [checked_run hs hp]

end

@[simp] theorem Act.run_acquire (s : State) : acquire s = .ok ((), s.sdcInvalidate.orderAll) := rfl

/-! ## WAITC (R184) -/

/-- Whether the limits of a WAITC are met. The stores not yet performed are none (log 8). -/
def State.waitcMet (s : State) (l : BitVec 4) (c : BitVec 6) (t : BitVec 2) : Prop :=
  (l = 15 ∨ s.outstanding EngineOp.isLoad ≤ l.toNat) ∧ (c = 63 ∨ s.outstanding EngineOp.isCopy ≤ c.toNat) ∧
    (t = 3 ∨ s.outstanding EngineOp.isSlab ≤ t.toNat)

theorem within_eq {w : Nat} (n : Nat) (x : BitVec w) : within n x.toNat (2 ^ w - 1) = decide (x = BitVec.allOnes w ∨ n ≤ x.toNat) := by
  rw [Bool.eq_iff_iff]
  simp [within, ← BitVec.toNat_inj]

theorem waitc_gate (s : State) (l sf : BitVec 4) (c : BitVec 6) (t : BitVec 2) :
    (within (s.outstanding EngineOp.isLoad) l.toNat 15 && within 0 sf.toNat 15 &&
      within (s.outstanding EngineOp.isCopy) c.toNat 63 && within (s.outstanding EngineOp.isSlab) t.toNat 3) = true ↔
      s.waitcMet l c t := by
  have hl := within_eq (s.outstanding EngineOp.isLoad) l
  have hc := within_eq (s.outstanding EngineOp.isCopy) c
  have ht := within_eq (s.outstanding EngineOp.isSlab) t
  have hsf : within 0 sf.toNat 15 = true := by simp [within]
  simp only [Nat.reducePow, Nat.reduceSub] at hl hc ht
  rw [hl, hc, ht, hsf]
  simp only [Bool.and_eq_true, decide_eq_true_eq, and_true, and_assoc]
  rfl

theorem raiseHeld_none (h : s.heldError = none) : raiseHeld s = .ok ((), s) := by simp [raiseHeld, h]

theorem raiseHeld_some {e : HeldError} (h : s.heldError = some e) :
    raiseHeld s = .error (.trap { cause := e.cause, faddr := e.faddr } s.clearHeld) := by simp [raiseHeld, h]

section
variable {l sf : BitVec 4} {c : BitVec 6} {t : BitVec 2} (hs : s.isStream = false) (hp : s.pfx = none)
include hs hp

theorem execWaitc_unmet (hm : ¬ s.waitcMet l c t) : execWaitc l sf c t s = .next s.sleepHere := by
  refine (finish_checked hs hp _).trans (finish_wait ?_)
  simp only [Act.run_bind, Act.run_look, id, if_neg (mt (waitc_gate s l sf c t).mp hm), Act.run_stall]

variable (hm : s.waitcMet l c t)
include hm

theorem execWaitc_met (hheld : t ≠ 0 ∨ s.hart.held = none) :
    execWaitc l sf c t s = .next (if l = 0 ∨ c = 0 ∨ t = 0 then s.sdcInvalidate.orderAll else s).retire := by
  have hnone (h0 : t = 0) : s.heldError = none := by
    simpa [State.heldError, hs] using hheld.resolve_left (not_not_intro h0)
  refine (finish_checked hs hp _).trans (finish_ok ?_)
  by_cases h0 : t = 0
  · simp only [Act.run_bind, Act.run_look, id, if_pos ((waitc_gate s l sf c t).mpr hm), if_pos h0, raiseHeld_none (hnone h0),
      if_pos (show l = 0 ∨ c = 0 ∨ t = 0 from .inr (.inr h0)), Act.run_acquire]
  · by_cases hany : l = 0 ∨ c = 0 ∨ t = 0
    · simp only [Act.run_bind, Act.run_look, id, if_pos ((waitc_gate s l sf c t).mpr hm), if_neg h0, if_pos hany,
        Act.run_acquire]
    · simp only [Act.run_bind, Act.run_look, id, if_pos ((waitc_gate s l sf c t).mpr hm), if_neg h0, if_neg hany,
        Act.run_pure]

theorem execWaitc_held (h0 : t = 0) {e : HeldError} (hheld : s.hart.held = some e) :
    execWaitc l sf c t s =
      .next ((s.modHart fun k => { k with held := none }).take { cause := e.cause, faddr := e.faddr }) := by
  have hsome : s.heldError = some e := by simpa [State.heldError, hs] using hheld
  have hclear : s.clearHeld = s.modHart fun k => { k with held := none } := by simp [State.clearHeld, hs]
  refine (finish_checked hs hp _).trans (finish_trap ?_)
  simp only [Act.run_bind, Act.run_look, id, if_pos ((waitc_gate s l sf c t).mpr hm), if_pos h0, raiseHeld_some hsome, hclear]

end

end Sys2Proof.Machine

open Sys2Proof Sys2Proof.Machine

/-- Settles O33: each tag instruction by the case that its statement names; TCLR by induction on the tags that its mask names;
WAITC by whether its limits are met and whether it meets a held error. -/
theorem tagsAndCounts : Obligations.TagsAndCounts := by
  unfold Obligations.TagsAndCounts
  refine ⟨fun s d a hs hp => ?tags, fun s l sf c t h hw hp => ?waitc⟩
  case tags =>
    have hrun (m : Act Unit) := finish_checked hs hp m
    dsimp only
    refine ⟨fun hx => ?anyZero, fun hx hd => ?anyWaits, fun hx hd => ?anyDone, fun hx => ?all, fun hx => ?allWaits, ?tffr,
      ?tpln, ?tclr⟩
    case anyZero => exact (hrun _).trans (finish_ok (by simp only [Act.run_bind, Act.run_readX, if_pos hx, Act.run_writeX]))
    case anyWaits =>
      refine (hrun _).trans (finish_park ?_)
      simp only [Act.run_bind, Act.run_readX, if_neg hx, Act.run_look, hd, Act.run_park]
    case anyDone =>
      obtain ⟨m, ms, hm⟩ := List.exists_cons_of_ne_nil hd
      refine (hrun _).trans (finish_ok ?_)
      simp only [Act.run_bind, Act.run_readX, if_neg hx, Act.run_look, hm, Act.run_acquire, Act.run_writeX, List.headD_cons]
    case all =>
      refine (hrun _).trans (finish_ok ?_)
      by_cases h0 : s.getX a = 0
      · simp only [Act.run_bind, Act.run_readX, Act.run_look, if_pos hx, if_pos h0, Act.run_writeX]
      · simp only [Act.run_bind, Act.run_readX, Act.run_look, if_pos hx, if_neg h0, Act.run_acquire, Act.run_writeX]
    case allWaits =>
      refine (hrun _).trans (finish_park ?_)
      simp only [Act.run_bind, Act.run_readX, Act.run_look, if_neg hx, Act.run_park]
    case tffr =>
      refine (hrun _).trans (finish_ok ?_)
      simp only [← tagOf_eq]
      by_cases hf : s.core.tagFailed (tagOf (s.getX a)) = true
      · simp only [Act.run_bind, Act.run_readX, Act.run_look, hf, if_true, Act.run_acquire, Act.run_writeX]
      · simp only [Act.run_bind, Act.run_readX, Act.run_look, hf, Bool.false_eq_true, if_false, Act.run_writeX]
    case tpln =>
      refine (hrun _).trans (finish_ok ?_)
      simp only [← tagOf_eq]
      by_cases h0 : s.core.tags[tagIx (tagOf (s.getX a))].planes = 0
      · simp only [Act.run_bind, Act.run_readX, Act.run_look, h0, if_true, Act.run_writeX]
      · simp only [Act.run_bind, Act.run_readX, Act.run_look, h0, if_false, Act.run_acquire, Act.run_writeX]
    case tclr =>
      refine ⟨s.modCore fun c => c.clearTags (tagList (s.getX a)), (hrun _).trans (finish_ok rfl), rfl, ?_, fun k hk => ?_,
        onlyCore_modCore s _, ?_⟩
      · refine congrArg Thread.pc (State.th_congr rfl ?_ ?_)
        all_goals rw [State.core_modCore, Core.clearTags_frame]
      · rw [State.core_modCore, ← contains_tagList _ hk]
        exact s.core.clearTags_bits _ hk
      · rw [State.core_modCore]
        exact s.core.clearTags_frame _
  case waitc =>
    have hs : s.isStream = false := by simp [State.isStream, hw]
    intro mine met
    have hmet : s.waitcMet l c t ↔ met := by simp only [State.waitcMet, State.outstanding, hw, met, mine]
    exact ⟨fun hm => execWaitc_unmet hs hp (mt hmet.mp hm), fun hm => execWaitc_met hs hp (hmet.mpr hm),
      fun hm h0 e => execWaitc_held hs hp (hmet.mpr hm) h0⟩
end

section
/-! SUPPORT. What the step of an engine leaves of a core beside what its operation does: rows, operations, tags and landed
slices stay when accesses pass die caches and ports, when a failure is logged, and when pallets retire. -/

namespace Sys2Proof.Machine

variable {s t u : State}

/-! ## Cores that keep their data -/

/-- A core keeps its rows, its outstanding operations, its tags and which slices have landed. -/
structure Core.SameData (c d : Core) : Prop where
  pword : d.pword = c.pword
  rows : d.rows = c.rows
  marks : d.marks = c.marks
  ops : d.ops = c.ops
  ctag : d.ctag = c.ctag
  cterr : d.cterr = c.cterr
  tags : d.tags = c.tags
  failedSlices : d.failedSlices = c.failedSlices
  landed : ∀ h : Fin 8, d.harts[h].landed = c.harts[h].landed

namespace Core.SameData

variable {c d e : Core}

theorem refl (c : Core) : c.SameData c := ⟨rfl, rfl, rfl, rfl, rfl, rfl, rfl, rfl, fun _ => rfl⟩

theorem trans (h : c.SameData d) (k : d.SameData e) : c.SameData e :=
  ⟨k.pword.trans h.pword, k.rows.trans h.rows, k.marks.trans h.marks, k.ops.trans h.ops, k.ctag.trans h.ctag,
    k.cterr.trans h.cterr, k.tags.trans h.tags, k.failedSlices.trans h.failedSlices,
    fun i => (k.landed i).trans (h.landed i)⟩

theorem row (h : c.SameData d) (n : Nat) : d.row n = c.row n := by simp only [Core.row, h.rows, h.marks]

theorem tagBusy (h : c.SameData d) (n : Nat) : d.tagBusy n = c.tagBusy n := by simp only [Core.tagBusy, h.ctag]

theorem tagFailed (h : c.SameData d) (n : Nat) : d.tagFailed n = c.tagFailed n := by simp only [Core.tagFailed, h.cterr]

end Core.SameData

/-- Every core keeps its data. -/
structure State.SameCores (s t : State) : Prop where
  core : ∀ i : Fin 192, s.cores[i].SameData t.cores[i]

@[simp] theorem State.cores_modCoreAt_same (s : State) (i : Fin 192) (f : Core → Core) :
    (s.modCoreAt i f).cores[i] = f s.cores[i] := by
  simp [State.modCoreAt]

theorem State.cores_modCoreAt_other (s : State) {i j : Fin 192} (f : Core → Core) (h : j ≠ i) :
    (s.modCoreAt i f).cores[j] = s.cores[j] := by
  have hne : i.val ≠ j.val := fun e => h (Fin.ext e.symm)
  simp [State.modCoreAt, hne]

namespace State.SameCores

theorem refl (s : State) : s.SameCores s := ⟨fun _ => .refl _⟩

theorem trans (h : s.SameCores t) (k : t.SameCores u) : s.SameCores u := ⟨fun i => (h.core i).trans (k.core i)⟩

theorem of_cores (h : t.cores = s.cores) : s.SameCores t := ⟨fun i => by rw [h]; exact .refl _⟩

theorem foldl {β : Type} {f : State → β → State} (hf : ∀ (t : State) (b : β), t.SameCores (f t b)) (l : List β) (s : State) :
    s.SameCores (l.foldl f s) := by
  induction l generalizing s with
  | nil => exact .refl s
  | cons b l ih => exact (hf s b).trans (ih _)

theorem modCoreAt (i : Fin 192) {f : Core → Core} (hf : ∀ c : Core, c.SameData (f c)) :
    s.SameCores (s.modCoreAt i f) := by
  refine ⟨fun j => ?_⟩
  by_cases h : j = i
  · subst h
    rw [State.cores_modCoreAt_same]
    exact hf _
  · rw [State.cores_modCoreAt_other s f h]
    exact .refl _

/-! ## Accesses on their way (R33, R49), and the log -/

theorem logEvent (k c a : Nat) (co : Option Nat) (ha au : Nat) : s.SameCores (s.logEvent k c a co ha au) :=
  .of_cores (logEvent_cores ..)

theorem sendPoisoned (i : Fin 192) (p pa n : Nat) : s.SameCores (s.sendPoisoned i p pa n) := by
  have hflaw (c : Core) : c.SameData { c with flaws := c.flaws.erase (.outgoing (dieIx p)) } :=
    ⟨rfl, rfl, rfl, rfl, rfl, rfl, rfl, rfl, fun _ => rfl⟩
  unfold State.sendPoisoned
  dsimp only
  refine SameCores.trans ?_ (.logEvent ..)
  exact (SameCores.modCoreAt i hflaw).trans (.of_cores rfl)

theorem portRequest (k : ReqKind) (p pa n : Nat) (d : List Byte) : s.SameCores (s.portRequest k p pa n d) := by
  unfold State.portRequest
  extract_lets fails t
  have ht : s.SameCores t := .of_cores rfl
  clear_value t
  cases fails with
  | none => exact ht
  | some core => exact ht.trans (.sendPoisoned ..)

theorem traffic (use : CacheUse) (k : ReqKind) (pa n : Nat) (d : List Byte) : s.SameCores (s.traffic use k pa n d) := by
  unfold State.traffic
  split
  · exact .of_cores (onlyTraces_touchHbm ..).2
  · exact .portRequest ..
  · exact .refl s

theorem rangeTraffic (p : PageMap) (use : CacheUse) (k : ReqKind) (va n : Nat) (bs : List Byte) :
    s.SameCores (s.rangeTraffic p use k va n bs) := .foldl (fun _ _ => .traffic ..) _ s

theorem notePort (pa : Nat) : s.SameCores (s.notePort pa) := by
  have hnote (l : List (Who × Nat)) (c : Core) : c.SameData { c with unflushed := c.unflushed ++ l } :=
    ⟨rfl, rfl, rfl, rfl, rfl, rfl, rfl, rfl, fun _ => rfl⟩
  unfold State.notePort
  split
  · extract_lets q
    have hq : s.SameCores q := by
      unfold q
      split
      · exact .refl s
      · exact .modCoreAt s.cur.core (hnote _)
    clear_value q
    split
    · exact hq.trans (.of_cores rfl)
    · exact hq
  · exact .refl s

theorem storeCells (cs : List (Nat × Byte)) : s.SameCores (s.storeCells cs) := by
  unfold State.storeCells
  dsimp only
  split
  · exact .of_cores rfl
  · exact .of_cores (recheck_frame ..).1

theorem engineStore (p : PageMap) (past : List (List (Nat × Byte))) (va : Nat) (bs : List Byte) :
    s.SameCores (s.engineStore p past va bs) := by
  unfold State.engineStore State.forkStore
  dsimp only
  refine (SameCores.trans ?_ (.rangeTraffic ..)).trans (.foldl (fun _ _ => .notePort _) ..)
  split
  · exact .storeCells _
  · exact SameCores.trans (t := s.fresh.2) (.of_cores rfl) (.storeCells _)

/-! ## Pallets retire (R375, R403) -/

theorem preemptQuad (quad : Nat) : s.SameCores (s.preemptQuad quad) := by
  have hpre (c : Core) : c.SameData { c with preempt := true } :=
    ⟨rfl, rfl, rfl, rfl, rfl, rfl, rfl, rfl, fun _ => rfl⟩
  unfold State.preemptQuad
  dsimp only
  split
  · exact .refl s
  · split
    · exact .foldl (fun _ i => .modCoreAt i hpre) _ s
    · split <;> exact .of_cores rfl

theorem retireCore (i : Fin 192) : s.SameCores (s.retireCore i) := by
  have hfree (c : Core) : c.SameData c.free := ⟨rfl, rfl, rfl, rfl, rfl, rfl, rfl, rfl, fun h => by simp [Core.free]⟩
  unfold State.retireCore
  split
  · split
    · exact (SameCores.modCoreAt i hfree).trans (.of_cores rfl)
    · exact .refl s
  · exact .refl s

theorem retirePallets : s.SameCores s.retirePallets := by
  have hretry (t : State) : t.SameCores t.retryPreempts :=
    SameCores.trans (t := { t with preemptHeld := [] }) (.of_cores rfl) (.foldl (fun _ _ => .preemptQuad _) ..)
  unfold State.retirePallets
  generalize List.finRange 192 = l
  have hfold : s.SameCores (l.foldl State.retireCore s) := .foldl (fun _ _ => .retireCore _) l s
  dsimp only
  split
  · exact hfold
  · exact hfold.trans (hretry _)

end State.SameCores

theorem preemptQuad_mem (s : State) (quad : Nat) : (s.preemptQuad quad).mem = s.mem := by
  unfold State.preemptQuad
  dsimp only
  split
  · rfl
  · split
    · exact foldl_mem (fun (s : State) i => s.modCoreAt i fun c => { c with preempt := true }) (fun _ _ => rfl) _ s
    · split <;> rfl

theorem retireCore_mem (s : State) (i : Fin 192) : (s.retireCore i).mem = s.mem := by
  unfold State.retireCore
  split
  · split <;> rfl
  · rfl

theorem retirePallets_mem (s : State) : s.retirePallets.mem = s.mem := by
  unfold State.retirePallets
  generalize List.finRange 192 = l
  have hfold := foldl_mem State.retireCore retireCore_mem l s
  dsimp only
  split
  · exact hfold
  · exact (foldl_mem _ preemptQuad_mem _ _).trans hfold

/-! ## The step of an operation that is found in its core (R112) -/

@[simp] theorem coreIx_val (c : Fin 192) : coreIx c.val = c := by simp [coreIx]

/-- The machine in which an operation acts: its issuer is the party that runs. -/
def State.acting (s : State) (c : Fin 192) (o : EngineOp) : State :=
  { s with cur := { core := c, who := o.by_ }, epoch := s.epoch + 1 }

/-- A step of an operation in its core does what the operation does, and pallets may retire then. -/
theorem onOp_found {c : Fin 192} {p : EngineOp → Bool} {o : EngineOp} (h : s.cores[c].ops.find? p = some o)
    (f : State → EngineOp → State) :
    (f (s.acting c o) o).SameCores (s.onOp c.val p f) ∧ (s.onOp c.val p f).mem = (f (s.acting c o) o).mem := by
  have hstep : s.onOp c.val p f = ({ f (s.acting c o) o with cur := s.cur } : State).retirePallets := by
    simp only [State.onOp, if_neg (Nat.not_le.2 c.isLt), coreIx_val, h, State.actFor, State.acting]
  rw [hstep, retirePallets_mem]
  exact ⟨State.SameCores.trans (t := { f (s.acting c o) o with cur := s.cur }) (.of_cores rfl) .retirePallets, rfl⟩

/-! ## The memory that an operation finds (R102, R196) -/

theorem nodup_eraseDups {α : Type} [BEq α] [LawfulBEq α] : ∀ l : List α, l.eraseDups.Nodup
  | [] => .nil
  | a :: l => by
    rw [List.eraseDups_cons, List.nodup_cons]
    exact ⟨by simp [List.mem_eraseDups], nodup_eraseDups _⟩
termination_by l => l.length
decreasing_by exact Nat.lt_succ_of_le (List.length_filter_le ..)

/-- The next sector as its free value says. -/
def forkStep (past : List (List (Nat × Byte))) (q : List Host.Cell × State) (i : Nat) : List Host.Cell × State :=
  (backOut past i (Config.freeNat q.2.free % (past.length + 1)) q.1, { q.2 with free := q.2.free + 1 })

theorem foldl_forkStep (past : List (List (Nat × Byte))) {l : List Nat} (hl : l.Nodup) (m : List Host.Cell) (s : State) :
    ∃ (k : Nat → Nat) (n : Nat), l.foldl (forkStep past) (m, s) =
      (l.foldl (fun m i => backOut past i (k i) m) m, { s with free := n }) := by
  induction l generalizing m s with
  | nil => exact ⟨fun _ => 0, s.free, rfl⟩
  | cons i l ih =>
    obtain ⟨hi, hl⟩ := List.nodup_cons.1 hl
    obtain ⟨k, n, hk⟩ := ih hl (backOut past i (Config.freeNat s.free % (past.length + 1)) m) { s with free := s.free + 1 }
    refine ⟨Function.update k i (Config.freeNat s.free % (past.length + 1)), n, ?_⟩
    rw [List.foldl_cons, List.foldl_cons, Function.update_self]
    refine hk.trans (Prod.ext (List.foldl_ext _ _ _ fun m j hj => ?_) rfl)
    rw [Function.update_of_ne (ne_of_mem_of_not_mem hj hi)]

/-- The machine with another counter of free values. -/
def State.withFree (s : State) (n : Nat) : State := { s with free := n }

/-- Each sector is as it stands or as it stood before some layers; only the counter of free values advances. -/
theorem forkMem_finds (s : State) (past : List (List (Nat × Byte))) :
    ∃ (k : Nat → Nat) (n : Nat), s.forkMem past = (forkMemAt s.mem past k, s.withFree n) :=
  foldl_forkStep past (nodup_eraseDups _) s.mem s

end Sys2Proof.Machine
end

section
/-! SUPPORT. A CPY between places of memory completes (R95, R99, R100): the bytes that it reads, the cells that it writes, and
what is left of its tag and of its operation. -/

namespace Sys2Proof.Machine

variable {s : State}

/-! ## Cells written one after another -/

/-- Memory after writing some cells, the later ones over the earlier ones. -/
def writeCells (m : List Host.Cell) (cs : List (Nat × Byte)) : List Host.Cell :=
  cs.foldl (fun m c => writeByte m c.1 c.2) m

theorem readByte_writeCells_other {m : List Host.Cell} (hm : Memory.wf m = true) {cs : List (Nat × Byte)} {x : Nat}
    (hx : ∀ d ∈ cs, d.1 ≠ x) : readByte (writeCells m cs) x = readByte m x := by
  induction cs generalizing m with
  | nil => rfl
  | cons d cs ih =>
    rw [writeCells, List.foldl_cons]
    refine (ih (wf_writeByte hm d.1 d.2) fun e he => hx e (.tail _ he)).trans ?_
    rw [readByte_writeByte hm, if_neg (hx d (.head _)).symm]

theorem readByte_writeCells_mem {m : List Host.Cell} (hm : Memory.wf m = true) {cs : List (Nat × Byte)} {x : Nat} {v : Byte}
    (hx : (x, v) ∈ cs) (hv : ∀ d ∈ cs, d.1 = x → d.2 = v) : readByte (writeCells m cs) x = v := by
  induction cs generalizing m with
  | nil => exact absurd hx List.not_mem_nil
  | cons d cs ih =>
    rw [writeCells, List.foldl_cons]
    by_cases hlater : ∃ e ∈ cs, e.1 = x
    · obtain ⟨e, he, hex⟩ := hlater
      have hxe : (x, v) = e := Prod.ext hex.symm (hv e (.tail _ he) hex).symm
      exact ih (wf_writeByte hm d.1 d.2) (hxe ▸ he) fun e he => hv e (.tail _ he)
    · have hother : ∀ e ∈ cs, e.1 ≠ x := fun e he h => hlater ⟨e, he, h⟩
      obtain rfl | htail := List.mem_cons.1 hx
      · refine (readByte_writeCells_other (wf_writeByte hm _ _) hother).trans ?_
        rw [readByte_writeByte hm, if_pos rfl]
      · exact absurd rfl (hother _ htail)

theorem storeCells_mem (s : State) (cs : List (Nat × Byte)) : (s.storeCells cs).mem = writeCells s.mem cs := by
  unfold State.storeCells
  dsimp only
  split
  · rfl
  · exact recheck_mem ..

/-- Cells whose place an unordered store of the issuer has written. -/
def hiddenBy (past : List (List (Nat × Byte))) (x : Nat) : Bool := past.any fun l => l.any fun e => e.1 == x

/-- Either all cells are written, or all but those that the issuer's unordered stores come after. -/
theorem forkStore_mem (s : State) (past : List (List (Nat × Byte))) (cs : List (Nat × Byte)) :
    ∃ kept : Bool, (s.forkStore past cs).mem =
      writeCells s.mem (if kept then cs.filter fun c => !hiddenBy past c.1 else cs) := by
  unfold State.forkStore
  dsimp only
  split
  · exact ⟨false, storeCells_mem ..⟩
  · exact ⟨Config.freeBit s.free 0, storeCells_mem ..⟩

theorem engineStore_mem (s : State) (p : PageMap) (past : List (List (Nat × Byte))) (va : Nat) (bs : List Byte) :
    (s.engineStore p past va bs).mem =
      (s.forkStore past ((bs.mapIdx fun i b => (p.pa (va + i), b)).filter fun c => regionOf c.1 ≠ .regs)).mem := by
  unfold State.engineStore
  dsimp only
  rw [foldl_mem (fun s a => State.notePort s (p.pa a)) (fun _ _ => notePort_mem ..), rangeTraffic_mem]

/-- The cells of some bytes from an address that no register space holds. -/
theorem storedCells_eq {p : PageMap} {b n : Nat} (g : Nat → Byte) (hreg : ∀ i : Nat, i < n → regionOf (p.pa (b + i)) ≠ .regs) :
    ((((List.range n).map g).mapIdx fun i x => (p.pa (b + i), x)).filter fun d => regionOf d.1 ≠ .regs) =
      (List.range n).map fun i => (p.pa (b + i), g i) := by
  have hcells : (((List.range n).map g).mapIdx fun i x => (p.pa (b + i), x)) = (List.range n).map fun i => (p.pa (b + i), g i) :=
    List.ext_getElem (by simp) (by simp)
  rw [hcells, List.filter_eq_self]
  intro d hd
  obtain ⟨i, hi, rfl⟩ := List.mem_map.1 hd
  exact decide_eq_true (hreg i (List.mem_range.1 hi))

/-- Every byte of the destination is the one stored, or stays as a store that the engine is not ordered after left it; no
other byte changes. -/
theorem engineStore_reads {p : PageMap} {past : List (List (Nat × Byte))} {b n : Nat} (g : Nat → Byte)
    (hwf : Memory.wf s.mem = true) (hreg : ∀ i : Nat, i < n → regionOf (p.pa (b + i)) ≠ .regs)
    (hinj : ∀ i j : Nat, i < n → j < n → p.pa (b + i) = p.pa (b + j) → i = j) :
    ∃ kept : Bool,
      (∀ i : Nat, i < n → readByte (s.engineStore p past b ((List.range n).map g)).mem (p.pa (b + i)) =
        if kept = true ∧ hiddenBy past (p.pa (b + i)) = true then readByte s.mem (p.pa (b + i)) else g i) ∧
      ∀ x : Nat, (∀ i : Nat, i < n → x ≠ p.pa (b + i)) →
        readByte (s.engineStore p past b ((List.range n).map g)).mem x = readByte s.mem x := by
  obtain ⟨kept, hmem⟩ := forkStore_mem s past ((List.range n).map fun i => (p.pa (b + i), g i))
  have hcell {d : Nat × Byte} (hd : d ∈ if kept then ((List.range n).map fun i => (p.pa (b + i), g i)).filter
        fun c => !hiddenBy past c.1 else (List.range n).map fun i => (p.pa (b + i), g i)) :
      (∃ j, j < n ∧ d = (p.pa (b + j), g j)) ∧ (kept = true → hiddenBy past d.1 = false) := by
    cases kept <;> simp at hd <;> grind
  refine ⟨kept, fun i hi => ?_, fun x hx => ?_⟩ <;> rw [engineStore_mem, storedCells_eq g hreg, hmem]
  · by_cases hhid : kept = true ∧ hiddenBy past (p.pa (b + i)) = true
    · rw [if_pos hhid]
      refine readByte_writeCells_other hwf fun d hd hdi => ?_
      exact absurd hhid.2 (by rw [← hdi, (hcell hd).2 hhid.1]; exact Bool.false_ne_true)
    · rw [if_neg hhid]
      refine readByte_writeCells_mem hwf ?_ fun d hd hdi => ?_
      · have hin : (p.pa (b + i), g i) ∈ (List.range n).map fun i => (p.pa (b + i), g i) :=
          List.mem_map.2 ⟨i, List.mem_range.2 hi, rfl⟩
        cases kept
        · exact hin
        · exact List.mem_filter.2 ⟨hin, by simpa using hhid⟩
      · obtain ⟨⟨j, hj, rfl⟩, -⟩ := hcell hd
        rw [hinj j i hj hi hdi]
  · refine readByte_writeCells_other hwf fun d hd hdx => ?_
    obtain ⟨⟨j, hj, rfl⟩, -⟩ := hcell hd
    exact hx j hj hdx.symm

theorem logEngine_none (s : State) (c : Fin 192) (p : PageMap) (k : Nat) (row : Bool) :
    s.logEngine c p k row none = s := rfl

theorem State.SameCores.logEngine (c : Fin 192) (p : PageMap) (k : Nat) (a : Option Site) :
    s.SameCores (s.logEngine c p k false a) := by
  cases a with
  | none => exact .refl s
  | some a => exact .logEvent ..

/-! ## The bytes of a source in memory -/

section
variable {c : Fin 192} {h va : Nat} {p : PageMap} {m : List Host.Cell} {is : List Nat}

theorem sourceBytes_of_sound (hreg : ∀ i ∈ is, regionOf (p.pa (va + i)) ≠ .regs)
    (hok : ∀ i ∈ is, s.sectorBad (p.pa (va + i)) = false) :
    s.sourceBytes c h p m (.mem va) is = (is.map fun i => readByte m (p.pa (va + i)), none, s) := by
  induction is with
  | nil => rfl
  | cons i is ih =>
    rw [State.sourceBytes]
    dsimp only
    rw [hok i (.head _), if_neg Bool.false_ne_true, if_neg (hreg i (.head _)),
      ih (fun j hj => hreg j (.tail _ hj)) fun j hj => hok j (.tail _ hj), List.map_cons]

theorem sourceBytes_of_bad (hreg : ∀ i ∈ is, regionOf (p.pa (va + i)) ≠ .regs)
    (hbad : ∃ i ∈ is, s.sectorBad (p.pa (va + i)) = true) :
    ∃ bs a, s.sourceBytes c h p m (.mem va) is = (bs, some a, s) := by
  induction is with
  | nil => obtain ⟨i, hi, -⟩ := hbad; exact absurd hi List.not_mem_nil
  | cons i is ih =>
    rw [State.sourceBytes]
    dsimp only
    by_cases hi : s.sectorBad (p.pa (va + i)) = true
    · exact ⟨_, _, if_pos hi⟩
    · have hlater : ∃ j ∈ is, s.sectorBad (p.pa (va + j)) = true := by
        obtain ⟨j, hj, hb⟩ := hbad
        obtain rfl | hj := List.mem_cons.1 hj
        · exact absurd hb hi
        · exact ⟨j, hj, hb⟩
      obtain ⟨bs, a, hbs⟩ := ih (fun j hj => hreg j (.tail _ hj)) hlater
      rw [if_neg hi, if_neg (hreg i (.head _)), hbs]
      exact ⟨_, _, rfl⟩

end

/-! ## The completion -/

@[simp] theorem Core.ops_putOp_none (c : Core) (o : EngineOp) : (c.putOp o none).ops = c.ops.filter (·.id ≠ o.id) := by
  have hrow (p : EngineOp) : (if p.id = o.id then [] else [p]) = if decide (p.id ≠ o.id) = true then [p] else [] := by
    by_cases h : p.id = o.id <;> simp [h]
  simp only [Core.putOp, hrow]
  induction c.ops with
  | nil => rfl
  | cons p l ih => rw [List.flatMap_cons, List.filter_cons, ih]; split <;> rfl

/-- What the completion of an operation leaves of its core: it is gone, and its tag has ended. -/
def Core.finishOp (c : Core) (o : EngineOp) (tag : Nat) (f : Option (BitVec 8 × Word)) : Core :=
  (c.putOp o none).endTag tag f

theorem modCoreAt_modCoreAt (s : State) (i : Fin 192) (f g : Core → Core) :
    (s.modCoreAt i f).modCoreAt i g = s.modCoreAt i fun c => g (f c) := by
  simp [State.modCoreAt]

theorem completeCopy_cpy {c : Fin 192} {o : EngineOp} {tag a b n : Nat} {h : Fin 8} {f : Bool} {m : List Host.Cell}
    {bs : List Byte} {bad : Option Site} {v u : State} (hk : o.kind = .copy .cpy tag h (.mem a) (.mem b) n f none [c.val] none)
    (hm : s.forkMem o.past = (m, v)) (hr : v.sourceBytes c h.val o.pages m (.mem a) (List.range n) = (bs, bad, u)) :
    ∃ t : State, u.SameCores t ∧
      (bad = none → t.mem = ((u.sourceTraffic o.pages (.mem a) bs.length).engineStore o.pages o.past b bs).mem) ∧
      s.completeCopy c o c.val = t.modCoreAt c (·.finishOp o tag (failAt 0x7E bad)) := by
  have hflags (x : BitVec 5) (k : Core) :
      k.SameData (k.modHart h fun q => { q with th := { q.th with fflags := q.th.fflags ||| x } }) :=
    ⟨rfl, rfl, rfl, rfl, rfl, rfl, rfl, rfl, fun i => by
      by_cases hi : i = h
      · subst hi; simp [Core.modHart]
      · simp [Core.modHart, Fin.val_ne_of_ne (Ne.symm hi)]⟩
  have hstores : u.SameCores ((u.sourceTraffic o.pages (.mem a) bs.length).engineStore o.pages o.past b bs) :=
    (State.SameCores.rangeTraffic ..).trans (.engineStore ..)
  refine ⟨_, (hstores.trans (.logEngine c o.pages 0x7E bad)).trans (.modCoreAt c (hflags 0)), ?_, ?_⟩
  · rintro rfl
    rfl
  · have hleft : ([c.val].filter (· != c.val)) = [] := by simp
    simp only [State.completeCopy, hk, hm, hr, coreIx_val, State.engineWrite, End.isPool, logEngine_none, State.subtractFor,
      hleft, if_true, reduceCtorEq, false_and, if_false]
    rw [modCoreAt_modCoreAt]
    cases bad <;> rfl

/-- The step that completes a copy on its tag does what `completeCopy` says, acting for the issuer. -/
theorem exec_copyComplete {c : Fin 192} {o : EngineOp} {k : CopyKind} {tag n : Nat} {h : Fin 8} {src dst : End} {f : Bool}
    {mb : Option Mbar} {dests : List Nat} {fl : Option (BitVec 8 × Word)}
    (hfind : s.cores[c].ops.find? (·.copyOn tag c.val) = some o) (htag : tag < 64)
    (hk : o.kind = .copy k tag h src dst n f mb dests fl) :
    ∃ u : State, exec (.copyComplete c.val tag c.val) s = .next u ∧
      ((s.acting c o).completeCopy c o c.val).SameCores u ∧ u.mem = ((s.acting c o).completeCopy c o c.val).mem := by
  refine ⟨s.copyDone c.val tag c.val, rfl, ?_⟩
  rw [State.copyDone, if_neg (Nat.not_le.2 htag)]
  refine ⟨State.SameCores.trans ?_ (onOp_found hfind _).1, (onOp_found hfind _).2.trans ?_⟩
  · simp only [hk, coreIx_val]
    exact .refl _
  · simp only [hk, coreIx_val]

theorem Core.finishOp_tag (c : Core) (o : EngineOp) {tag : Nat} (f : Option (BitVec 8 × Word)) (htag : tag < 64) :
    (c.finishOp o tag f).tagBusy tag = false ∧ (c.finishOp o tag f).tagFailed tag = f.isSome := by
  rw [Core.finishOp, Core.tagBusy_endTag _ _ _ htag, Core.tagFailed_endTag _ _ _ htag]
  simp

theorem Core.mem_ops_finishOp {c : Core} {o p : EngineOp} {tag : Nat} {f : Option (BitVec 8 × Word)}
    (hp : p ∈ (c.finishOp o tag f).ops) : p ∈ c.ops ∧ p.id ≠ o.id := by
  simpa [Core.finishOp] using hp

section
variable {c : Fin 192} {o : EngineOp} {tag a b n : Nat} {f : Bool} {h : Fin 8}
  (hfind : s.cores[c].ops.find? (·.copyOn tag c.val) = some o) (htag : tag < 64)
  (hk : o.kind = .copy .cpy tag h (.mem a) (.mem b) n f none [c.val] none)
  (hreg : ∀ i : Nat, i < n → regionOf (PageMap.pa o.pages (a + i)) ≠ .regs ∧ regionOf (PageMap.pa o.pages (b + i)) ≠ .regs)
include hfind htag hk hreg

/-- A failing check of a source sector leaves the tag FAILED. -/
theorem copy_fails (hbad : ∃ i : Nat, i < n ∧ s.sectorBad (PageMap.pa o.pages (a + i)) = true) :
    Becomes (.copyComplete c.val tag c.val) s fun u =>
      u.cores[c].tagBusy tag = false ∧ u.cores[c].tagFailed tag = true ∧ u.cores[c].tags[tagIx tag].cause = 0x7E := by
  obtain ⟨u, hexec, hcores, -⟩ := exec_copyComplete hfind htag hk
  obtain ⟨k, free, hfork⟩ := forkMem_finds (s.acting c o) o.past
  obtain ⟨bs, x, hsrc⟩ := sourceBytes_of_bad (s := (s.acting c o).withFree free) (c := c) (h := h.val)
    (m := forkMemAt s.mem o.past k) (is := List.range n) (fun i hi => (hreg i (List.mem_range.1 hi)).1)
    (hbad.imp fun i hi => ⟨List.mem_range.2 hi.1, hi.2⟩)
  obtain ⟨t, -, -, hdone⟩ := completeCopy_cpy hk hfork hsrc
  have hsame := hcores.core c
  rw [hdone, State.cores_modCoreAt_same] at hsame
  obtain ⟨hbusy, hfailed⟩ := Core.finishOp_tag t.cores[c] o (failAt 0x7E (some x)) htag
  refine ⟨u, hexec, (hsame.tagBusy _).trans hbusy, (hsame.tagFailed _).trans hfailed, ?_⟩
  rw [hsame.tags]
  exact congrArg Tag.cause (Core.tags_endTag ..)

theorem copy_succeeds (hwf : Memory.wf s.mem = true)
    (hinj : ∀ i j : Nat, i < n → j < n → PageMap.pa o.pages (b + i) = PageMap.pa o.pages (b + j) → i = j)
    (hok : ∀ i : Nat, i < n → s.sectorBad (PageMap.pa o.pages (a + i)) = false) :
    Becomes (.copyComplete c.val tag c.val) s fun u =>
      (∃ (k : Nat → Nat) (kept : Bool), ∀ i : Nat, i < n → readByte u.mem (PageMap.pa o.pages (b + i)) =
        if kept = true ∧ (o.past.any fun l => l.any fun e => e.1 == PageMap.pa o.pages (b + i)) = true
        then readByte s.mem (PageMap.pa o.pages (b + i))
        else readByte (forkMemAt s.mem o.past k) (PageMap.pa o.pages (a + i))) ∧
      (∀ x : Nat, (∀ i : Nat, i < n → x ≠ PageMap.pa o.pages (b + i)) → readByte u.mem x = readByte s.mem x) ∧
      u.cores[c].tagBusy tag = false ∧ u.cores[c].tagFailed tag = false ∧
      (∀ p ∈ u.cores[c].ops, p ∈ s.cores[c].ops ∧ p.id ≠ o.id) := by
  obtain ⟨u, hexec, hcores, hmem⟩ := exec_copyComplete hfind htag hk
  obtain ⟨k, free, hfork⟩ := forkMem_finds (s.acting c o) o.past
  have hsrc := sourceBytes_of_sound (s := (s.acting c o).withFree free) (c := c) (h := h.val)
    (m := forkMemAt s.mem o.past k) (is := List.range n) (fun i hi => (hreg i (List.mem_range.1 hi)).1)
    (fun i hi => hok i (List.mem_range.1 hi))
  obtain ⟨t, hsame, htmem, hdone⟩ := completeCopy_cpy hk hfork hsrc
  rw [hdone, State.modCoreAt_mem, htmem rfl] at hmem
  obtain ⟨kept, hread, hother⟩ := engineStore_reads (past := o.past)
    (s := ((s.acting c o).withFree free).sourceTraffic o.pages (.mem a) n)
    (fun i => readByte (forkMemAt s.mem o.past k) (PageMap.pa o.pages (a + i)))
    (by rw [State.sourceTraffic, rangeTraffic_mem]; exact hwf) (fun i hi => (hreg i hi).2) hinj
  have hcore := hcores.core c
  rw [hdone, State.cores_modCoreAt_same] at hcore
  obtain ⟨hbusy, hfailed⟩ := Core.finishOp_tag t.cores[c] o (failAt 0x7E none) htag
  simp only [List.length_map, List.length_range] at hmem
  simp only [State.sourceTraffic, rangeTraffic_mem] at hread hother hmem
  refine ⟨u, hexec, ⟨k, kept, fun i hi => ?_⟩, fun x hx => ?_, (hcore.tagBusy _).trans hbusy,
    (hcore.tagFailed _).trans hfailed, fun p hp => ?_⟩
  · rw [hmem]
    exact hread i hi
  · rw [hmem]
    exact hother x hx
  · rw [hcore.ops] at hp
    obtain ⟨hin, hid⟩ := Core.mem_ops_finishOp hp
    exact ⟨(hsame.core c).ops ▸ hin, hid⟩

end

end Sys2Proof.Machine
end

section
/-! SUPPORT. Bits of a row after writes to some of its columns (R117), and the arrival of a gathered element (R133, R178). -/

namespace Sys2Proof.Machine

variable {s : State}

/-! ## Columns of a row, bit by bit -/

theorem getLsbD_colMask (lo w : Nat) {col : Nat} (h : col < 1024) :
    (colMask lo w).getLsbD col = decide (lo ≤ col ∧ col < lo + w) := by
  rw [colMask, BitVec.getLsbD_ofNat, Nat.testBit_mul_two_pow, Nat.testBit_two_pow_sub_one]
  by_cases hlo : lo ≤ col
  · simp [h, hlo, Nat.sub_lt_iff_lt_add' hlo]
  · simp [hlo]

theorem Row.bit_put (r : Row) (lo w v : Nat) {col : Nat} (h : col < 1024) :
    (r.put lo w v).bit col = if lo ≤ col ∧ col < lo + w then v.testBit (col - lo) else r.bit col := by
  simp only [Row.bit, Row.put, BitVec.getLsbD_or, BitVec.getLsbD_and, BitVec.getLsbD_not, getLsbD_colMask lo w h,
    BitVec.getLsbD_ofNat, Nat.testBit_mul_two_pow, Nat.testBit_mod_two_pow, h]
  by_cases hlo : lo ≤ col
  · by_cases hw : col < lo + w
    · simp [hlo, hw, Nat.sub_lt_iff_lt_add' hlo]
    · simp [hlo, hw, Nat.sub_lt_iff_lt_add' hlo]
  · simp [hlo]

theorem Row.testBit_get (r : Row) (lo w i : Nat) : (r.get lo w).testBit i = (decide (i < w) && r.bit (lo + i)) := by
  rw [Row.get, bitsOf, Nat.testBit_mod_two_pow, Nat.testBit_div_two_pow, Row.bit, BitVec.getLsbD, Nat.add_comm]

/-- A field is a value whose bits are in its columns. -/
theorem Row.get_eq {r : Row} {lo w v : Nat} (hv : v < 2 ^ w) (h : ∀ i, i < w → r.bit (lo + i) = v.testBit i) :
    r.get lo w = v := by
  refine Nat.eq_of_testBit_eq fun i => ?_
  rw [Row.testBit_get]
  by_cases hi : i < w
  · simp [hi, h i hi]
  · simp [hi, Nat.testBit_lt_two_pow (hv.trans_le (Nat.pow_le_pow_right Nat.two_pos (Nat.not_lt.1 hi)))]

/-- A row got the low bits of a value in some columns, and kept the others. -/
def Row.Got (r q : Row) (lo w v : Nat) : Prop :=
  ∀ col, col < 1024 → q.bit col = if lo ≤ col ∧ col < lo + w then v.testBit (col - lo) else r.bit col

theorem Row.Got.get {r q : Row} {lo w v : Nat} (h : r.Got q lo w v) (hw : lo + w ≤ 1024) (hv : v < 2 ^ w) :
    q.get lo w = v :=
  Row.get_eq hv fun i hi => by rw [h _ (by omega), if_pos (by omega), Nat.add_sub_cancel_left]

theorem Row.Got.other {r q : Row} {lo w v col : Nat} (h : r.Got q lo w v) (hcol : col < 1024) (hout : col < lo ∨ lo + w ≤ col) :
    q.bit col = r.bit col := by
  rw [h col hcol, if_neg (by omega)]

theorem testBit_leOfBytes_cons (b : Byte) (bs : List Byte) (i : Nat) :
    (leOfBytes (b :: bs)).testBit i = if i < 8 then b.toNat.testBit i else (leOfBytes bs).testBit (i - 8) := by
  have hsplit : leOfBytes (b :: bs) = 2 ^ 8 * leOfBytes bs + b.toNat := by rw [leOfBytes]; omega
  rw [hsplit, Nat.testBit_two_pow_mul_add _ b.isLt]

/-- Bytes put one after another from a column on. -/
theorem Row.got_putBytes (bs : List Byte) (r : Row) (lo : Nat) :
    r.Got ((bs.mapIdx fun i b => (lo + 8 * i, b)).foldl (fun q c => q.put c.1 8 c.2.toNat) r) lo (8 * bs.length)
      (leOfBytes bs) := by
  intro col h
  induction bs generalizing r lo with
  | nil => rw [if_neg (by simp)]; rfl
  | cons b bs ih =>
    have hshift : (fun i b => (lo + 8 * (i + 1), b) : Nat → Byte → Nat × Byte) = fun i b => (lo + 8 + 8 * i, b) := by
      funext i b
      rw [Nat.mul_succ, Nat.add_right_comm, Nat.add_assoc]
    rw [List.mapIdx_cons, List.foldl_cons, hshift, ih, Row.bit_put _ _ _ _ h, testBit_leOfBytes_cons, List.length_cons]
    grind

/-- A row-port write of bytes to a row whose check columns are good puts them. -/
theorem Row.portWrite_bytes {r : Row} (hr : r.chk = 0) (bs : List Byte) (lo : Nat) :
    ∃ q : Row, r.portWrite (bs.mapIdx fun i b => (lo + 8 * i, b)) = some q ∧
      r.Got q lo (8 * bs.length) (leOfBytes bs) := by
  have hfails (cols : BitVec 1024) : r.portFails cols = false := by simp [Row.portFails, hr]
  rw [Row.portWrite, hfails, if_neg Bool.false_ne_true]
  exact ⟨_, rfl, Row.got_putBytes bs (r.portReset _) lo⟩

/-! ## Landing a slice -/

theorem slicePending_congr {s t : State} (h : ∀ i : Fin 192, t.cores[i].ops = s.cores[i].ops) (x : SliceRef) :
    t.slicePending x = s.slicePending x := by
  simp only [State.slicePending, h]

/-- A core keeps its rows and operations. -/
structure Core.SameRows (c d : Core) : Prop where
  pword : d.pword = c.pword
  rows : d.rows = c.rows
  marks : d.marks = c.marks
  ops : d.ops = c.ops

theorem Core.SameRows.row {c d : Core} (h : c.SameRows d) (n : Nat) : d.row n = c.row n := by
  simp only [Core.row, h.rows, h.marks]

theorem landSlice_mem (s : State) (x : SliceRef) : (s.landSlice x).mem = s.mem := by
  unfold State.landSlice
  dsimp only
  split <;> rfl

theorem landSlice_sameRows (s : State) (x : SliceRef) (i : Fin 192) : s.cores[i].SameRows (s.landSlice x).cores[i] := by
  unfold State.landSlice
  dsimp only
  split
  · exact ⟨rfl, rfl, rfl, rfl⟩
  · by_cases h : i = coreIx x.core
    · subst h
      rw [State.cores_modCoreAt_same]
      exact ⟨rfl, rfl, rfl, rfl⟩
    · rw [State.cores_modCoreAt_other _ _ h]
      exact ⟨rfl, rfl, rfl, rfl⟩

/-- A slice that nothing has still to write, and that holds no failure, has landed. -/
theorem landSlice_lands (s : State) (c : Fin 192) (h : Fin 8) (r k : Nat) (hk : k < 32)
    (hpend : s.slicePending { core := c.val, hart := h, reg := r, slice := k } = false) (hfail : s.cores[c].failedSlices = []) :
    (((s.landSlice { core := c.val, hart := h, reg := r, slice := k }).cores[c].harts[h]).landed[(regIx r).val]).getLsbD k
      = true := by
  simp only [State.landSlice, coreIx_val, hpend, hfail, List.any_nil, Bool.or_false, Bool.false_eq_true, if_false]
  simp only [State.cores_modCoreAt_same]
  simp only [Core.modHart, Hart.land, Fin.getElem_fin, Vector.getElem_set_self, BitVec.getLsbD_or]
  rw [getLsbD_twoPow hk]
  simp

/-! ## The arrival -/

theorem Core.vcol_le {c : Core} (hlaid : c.laidOut = true) {r w : Nat} (hr : r < c.nv) (hw : w ≤ c.fw) :
    c.vcol r + w ≤ 1024 := by
  have hcols : 8 + c.nv * c.fw + c.acol + c.scol = 1024 := by simpa [Core.laidOut] using hlaid
  have hreg : (r + 1) * c.fw ≤ c.nv * c.fw := Nat.mul_le_mul_right _ hr
  rw [Nat.add_mul] at hreg
  unfold Core.vcol
  omega

theorem length_pageRead (p : PageMap) (m : List Host.Cell) (va n : Nat) : (p.read m va n).length = n := by
  simp [PageMap.read]

/-- What is left of a gather once the element of a row is there. -/
def leftGather (h : Fin 8) (vd bytes : Nat) (rows pending : List (Nat × Nat)) (row : Nat) : Option OpKind :=
  if pending.filter (·.1 != row) = [] then none
  else some (.gather h vd none bytes rows (pending.filter (·.1 != row)))

/-- A gather whose element of a row has been taken off its list. -/
def State.tookElement (s : State) (c : Fin 192) (o : EngineOp) (h : Fin 8) (vd bytes : Nat) (rows pending : List (Nat × Nat))
    (row : Nat) : State := s.modCoreAt c (·.putOp o (leftGather h vd bytes rows pending row))

/-- The element's bytes are put in the row, and its slice lands if nothing else is to come. -/
theorem arriveElement_sound {c : Fin 192} {o : EngineOp} {h : Fin 8} {vd bytes row va : Nat} {rows pending : List (Nat × Nat)}
    (hk : o.kind = .gather h vd none bytes rows pending) (hp : pending.find? (·.1 == row) = some (row, va))
    (hbad : s.bad = []) (hchk : (s.cores[c].row (s.cores[c].row0 h.val + row)).chk = 0) :
    ∃ (k : Nat → Nat) (free : Nat) (q : Row),
      s.arriveElement c o row =
        (((s.tookElement c o h vd bytes rows pending row).withFree free).modCoreAt c
          (·.setRow (s.cores[c].row0 h.val + row) q)).landSlice
            { core := c.val, hart := h, reg := vd, slice := row / 2048 } ∧
      (s.cores[c].row (s.cores[c].row0 h.val + row)).Got q (s.cores[c].vcol vd) (8 * bytes)
        (leOfBytes (PageMap.read o.pages (forkMemAt s.mem o.past k) va bytes)) := by
  obtain ⟨k, free, hfork⟩ := forkMem_finds (s.tookElement c o h vd bytes rows pending row) o.past
  obtain ⟨q, hwrite, hbits⟩ := Row.portWrite_bytes hchk
    (bytesOfLe bytes (leOfBytes (PageMap.read o.pages (forkMemAt s.mem o.past k) va bytes))) (s.cores[c].vcol vd)
  refine ⟨k, free, q, ?_, ?_⟩
  · have htook : (s.modCoreAt c fun q => q.putOp o (if pending.filter (·.1 != row) = [] then none
        else some (.gather h vd none bytes rows (pending.filter (·.1 != row))))) = s.tookElement c o h vd bytes rows pending row :=
      rfl
    have hcore : ((s.tookElement c o h vd bytes rows pending row).withFree free).cores[c] =
        s.cores[c].putOp o (leftGather h vd bytes rows pending row) :=
      State.cores_modCoreAt_same s c fun k => k.putOp o (leftGather h vd bytes rows pending row)
    have hmem : (s.tookElement c o h vd bytes rows pending row).mem = s.mem := rfl
    have hgood : PageMap.firstBad o.pages (s.tookElement c o h vd bytes rows pending row) va bytes = none := if_pos hbad
    have hrow (k : Option OpKind) (n : Nat) : (s.cores[c].putOp o k).row n = s.cores[c].row n := rfl
    have hrow0 (k : Option OpKind) (n : Nat) : (s.cores[c].putOp o k).row0 n = s.cores[c].row0 n := rfl
    have hcol (k : Option OpKind) (n : Nat) : (s.cores[c].putOp o k).vcol n = s.cores[c].vcol n := rfl
    simp only [State.arriveElement, hk, hp, Option.toList_none, htook, hgood, hfork, hcore, hmem,
      hrow, hrow0, hcol, List.flatMap_cons, List.flatMap_nil, List.append_nil, hwrite, List.map_cons, List.map_nil,
      List.foldl_cons, List.foldl_nil]
  · rwa [bytesOfLe_length, leOfBytes_bytesOfLe, Nat.mod_eq_of_lt] at hbits
    simpa only [length_pageRead] using leOfBytes_lt (PageMap.read o.pages (forkMemAt s.mem o.past k) va bytes)

/-- The step in which an element arrives does what `arriveElement` says, acting for the issuer. -/
theorem exec_gatherElementArrive {c : Fin 192} {o : EngineOp} {row : Nat}
    (hfind : s.cores[c].ops.find? (fun p => p.id == o.id) = some o) :
    ∃ u : State, exec (.gatherElementArrive c.val o.id row) s = .next u ∧
      ((s.acting c o).arriveElement c o row).SameCores u ∧ u.mem = ((s.acting c o).arriveElement c o row).mem := by
  have hstep := onOp_found hfind fun t p => t.arriveElement (coreIx c.val) p row
  simp only [coreIx_val] at hstep
  refine ⟨_, rfl, ?_⟩
  simpa only [coreIx_val] using hstep

theorem gather_arrives {c : Fin 192} {o : EngineOp} {h : Fin 8} {vd bytes row va : Nat} {rows pending : List (Nat × Nat)}
    (hfind : s.cores[c].ops.find? (fun p => p.id == o.id) = some o) (hk : o.kind = .gather h vd none bytes rows pending)
    (hp : pending.find? (·.1 == row) = some (row, va)) (hlaid : s.cores[c].laidOut = true) (hvd : vd < s.cores[c].nv)
    (hw : 8 * bytes ≤ s.cores[c].fw) (hchk : (s.cores[c].row (s.cores[c].row0 h.val + row)).chk = 0) (hbad : s.bad = []) :
    Becomes (.gatherElementArrive c.val o.id row) s fun u =>
      (∃ k : Nat → Nat, (u.cores[c].row (s.cores[c].row0 h.val + row)).get (s.cores[c].vcol vd) (8 * bytes) =
        leOfBytes (PageMap.read o.pages (forkMemAt s.mem o.past k) va bytes)) ∧
      (∀ m col : Nat, col < 1024 →
        (m ≠ s.cores[c].row0 h.val + row ∨ col < s.cores[c].vcol vd ∨ s.cores[c].vcol vd + 8 * bytes ≤ col) →
        (u.cores[c].row m).bit col = (s.cores[c].row m).bit col) ∧
      u.mem = s.mem ∧
      (u.slicePending { core := c.val, hart := h, reg := vd, slice := row / 2048 } = false → s.cores[c].failedSlices = [] →
        row < 65536 → (u.cores[c].harts[h].landed[(regIx vd).val]).getLsbD (row / 2048) = true) := by
  obtain ⟨u, hexec, hsame, hmem⟩ := exec_gatherElementArrive (row := row) hfind
  obtain ⟨k, free, q, harrive, hgot⟩ := arriveElement_sound (s := s.acting c o) hk hp hbad hchk
  rw [harrive] at hsame hmem
  generalize hX : (((s.acting c o).tookElement c o h vd bytes rows pending row).withFree free).modCoreAt c
    (·.setRow ((s.acting c o).cores[c].row0 h.val + row) q) = X at hsame hmem
  have hcore : X.cores[c] = (s.cores[c].putOp o (leftGather h vd bytes rows pending row)).setRow
      (s.cores[c].row0 h.val + row) q := by
    rw [← hX, State.cores_modCoreAt_same, State.withFree, State.tookElement, State.cores_modCoreAt_same]
    rfl
  have hrow (m : Nat) : u.cores[c].row m = if m = s.cores[c].row0 h.val + row then q else s.cores[c].row m := by
    rw [(hsame.core c).row, (landSlice_sameRows X _ c).row, hcore]
    split
    · next hm => rw [hm, Core.row_setRow_same]
    · next hm => rw [Core.row_setRow_other _ hm]; rfl
  have hfit := Core.vcol_le hlaid hvd hw
  refine ⟨u, hexec, ⟨k, ?_⟩, fun m col hcol hout => ?_, ?_, fun hpend hfail hr => ?_⟩
  · rw [hrow, if_pos rfl]
    refine hgot.get hfit ?_
    have hlt := leOfBytes_lt (PageMap.read o.pages (forkMemAt s.mem o.past k) va bytes)
    rwa [length_pageRead, show (256 : Nat) = 2 ^ 8 from rfl, ← Nat.pow_mul] at hlt
  · rw [hrow]
    split
    · next hm =>
      subst hm
      exact hgot.other hcol (hout.resolve_left fun h => h rfl)
    · rfl
  · rw [hmem, landSlice_mem, ← hX]
    rfl
  · rw [(hsame.core c).landed]
    refine landSlice_lands X c h vd (row / 2048) (by omega) ?_ (by rw [hcore]; exact hfail)
    rwa [slicePending_congr fun i => (hsame.core i).ops, slicePending_congr fun i => (landSlice_sameRows X _ i).ops] at hpend

end Sys2Proof.Machine
end

section
/-! SUPPORT. The delivery of a plane slot (R104, R108, R109, R186): what it writes in the rows of the delivery, part after part
of a page and page after page. -/

namespace Sys2Proof.Machine

variable {s t u : State}

/-! ## Rows whose check columns are good -/

theorem Mark.chk_foldl (l : List Mark) (n : Nat) (r : Row) : (l.foldl (fun r m => m.apply n r) r).chk = r.chk := by
  have happly (m : Mark) (q : Row) : (m.apply n q).chk = q.chk := by
    unfold Mark.apply
    split <;> rfl
  induction l generalizing r with
  | nil => rfl
  | cons m l ih => rw [List.foldl_cons, ih, happly]

theorem findRow_mem {n : Nat} {r : Row} {l : List (Nat × Row)} (h : findRow n l = some r) : (n, r) ∈ l := by
  induction l with
  | nil => exact absurd h (by simp [findRow])
  | cons p l ih =>
    rw [findRow] at h
    split at h
    · next hn => rw [← hn, ← Option.some.inj h]; exact .head _
    · split at h
      · exact absurd h (by simp)
      · exact .tail _ (ih h)

/-- No listed row of a core has a failing check column. -/
def Core.rowsGood (c : Core) : Bool := c.rows.all fun p => p.2.chk == 0

theorem Core.chk_row {c : Core} (h : c.rowsGood = true) (n : Nat) : (c.row n).chk = 0 := by
  unfold Core.row
  split
  · next r hr => exact beq_iff_eq.1 (List.all_eq_true.1 h _ (findRow_mem hr))
  · exact Mark.chk_foldl ..

theorem mem_putRow {n : Nat} {r : Row} {l : List (Nat × Row)} {p : Nat × Row} (h : p ∈ putRow n r l) : p = (n, r) ∨ p ∈ l := by
  induction l with
  | nil => exact .inl (List.mem_singleton.1 h)
  | cons q l ih =>
    rw [putRow] at h
    split at h
    · exact List.mem_cons.1 h
    · split at h
      · exact (List.mem_cons.1 h).imp_right (.tail _)
      · obtain rfl | h := List.mem_cons.1 h
        · exact .inr (.head _)
        · exact (ih h).imp_right (.tail _)

theorem Core.rowsGood_setRow {c : Core} (h : c.rowsGood = true) (n : Nat) {r : Row} (hr : r.chk = 0) :
    (c.setRow n r).rowsGood = true := by
  refine List.all_eq_true.2 fun p hp => ?_
  obtain rfl | hp := mem_putRow hp
  · exact beq_iff_eq.2 hr
  · exact List.all_eq_true.1 h p hp

/-! ## Values put in some rows -/

/-- A row of a delivery: its hart row, its key page and its token. -/
abbrev PlaneRow := Nat × Nat × Nat

theorem Row.got_put (r : Row) (lo w v : Nat) : r.Got (r.put lo w v) lo w v := fun _ h => r.bit_put lo w v h

/-- Bytes that lie next to each other make one value. -/
theorem testBit_leOfBytes_append (xs ys : List Byte) (i : Nat) :
    (leOfBytes (xs ++ ys)).testBit i =
      if i < 8 * xs.length then (leOfBytes xs).testBit i else (leOfBytes ys).testBit (i - 8 * xs.length) := by
  induction xs generalizing i with
  | nil => simp
  | cons x xs ih =>
    rw [List.cons_append, testBit_leOfBytes_cons, testBit_leOfBytes_cons, ih, List.length_cons]
    grind

theorem Row.Got.append {r q p : Row} {lo b : Nat} {xs ys : List Byte} (h : r.Got q lo (8 * xs.length) (leOfBytes xs))
    (k : q.Got p (lo + 8 * xs.length) (8 * b) (leOfBytes ys)) :
    r.Got p lo (8 * (xs.length + b)) (leOfBytes (xs ++ ys)) := by
  intro col hcol
  rw [k col hcol, h col hcol, testBit_leOfBytes_append]
  grind

/-- Values put in some columns of some rows, one row after another. -/
def Core.putRows (c : Core) (row0 lo w : Nat) (f : PlaneRow → Nat) (rows : List PlaneRow) : Core :=
  rows.foldl (fun c r => c.setRow (row0 + r.1) ((c.row (row0 + r.1)).put lo w (f r))) c

/-- Some rows of a core got a value in some columns; the core is as before but for that. -/
structure Core.Laid (row0 lo w : Nat) (f : PlaneRow → Nat) (rows : List PlaneRow) (c d : Core) : Prop where
  core : d = { c with rows := d.rows }
  good : c.rowsGood = true → d.rowsGood = true
  got : ∀ r ∈ rows, (c.row (row0 + r.1)).Got (d.row (row0 + r.1)) lo w (f r)
  other : ∀ m, (∀ r ∈ rows, m ≠ row0 + r.1) → d.row m = c.row m

namespace Core.Laid

variable {row0 lo w : Nat} {f : PlaneRow → Nat} {rows : List PlaneRow} {c d e : Core}

theorem nil (c : Core) : Laid row0 lo w f [] c c := ⟨rfl, id, fun _ h => absurd h List.not_mem_nil, fun _ _ => rfl⟩

/-- Two lots of rows that share none. -/
theorem union {rows' : List PlaneRow} (h : Laid row0 lo w f rows c d) (k : Laid row0 lo w f rows' d e)
    (hdisj : ∀ r ∈ rows, ∀ q ∈ rows', r.1 ≠ q.1) : Laid row0 lo w f (rows ++ rows') c e := by
  refine ⟨by rw [k.core, h.core], fun hc => k.good (h.good hc), fun r hr => ?_, fun m hm => ?_⟩
  · obtain hr | hr := List.mem_append.1 hr
    · rw [k.other _ fun q hq heq => hdisj r hr q hq (Nat.add_left_cancel heq)]
      exact h.got r hr
    · rw [← h.other _ fun q hq heq => hdisj q hq r hr (Nat.add_left_cancel heq.symm)]
      exact k.got r hr
  · rw [k.other m fun r hr => hm r (List.mem_append_right _ hr), h.other m fun r hr => hm r (List.mem_append_left _ hr)]

theorem congr {rows' : List PlaneRow} {g : PlaneRow → Nat} (h : Laid row0 lo w f rows c d) (hrows : ∀ r, r ∈ rows' ↔ r ∈ rows)
    (hfg : ∀ r ∈ rows, g r = f r) : Laid row0 lo w g rows' c d := by
  refine ⟨h.core, h.good, fun r hr => ?_, fun m hm => h.other m fun r hr => hm r ((hrows r).2 hr)⟩
  rw [hfg r ((hrows r).1 hr)]
  exact h.got r ((hrows r).1 hr)

theorem single (r : PlaneRow) :
    Laid row0 lo w f [r] c (c.setRow (row0 + r.1) ((c.row (row0 + r.1)).put lo w (f r))) := by
  refine ⟨rfl, fun hc => Core.rowsGood_setRow hc _ (Core.chk_row hc _), fun q hq => ?_, fun m hm => ?_⟩
  · rw [List.mem_singleton.1 hq, Core.row_setRow_same]
    exact Row.got_put _ _ _ _
  · exact Core.row_setRow_other _ (hm r (.head _)) _

theorem putRows (hrows : (rows.map (·.1)).Nodup) : Laid row0 lo w f rows c (c.putRows row0 lo w f rows) := by
  induction rows generalizing c with
  | nil => exact .nil c
  | cons r rows ih =>
    obtain ⟨hr, hrows⟩ := List.nodup_cons.1 hrows
    refine (single r).union (ih hrows) fun p hp q hq heq => hr ?_
    rw [List.mem_singleton.1 hp] at heq
    exact List.mem_map.2 ⟨q, hq, heq.symm⟩

/-- Two parts that lie next to each other in the same rows. -/
theorem append {a b : Nat} {xs ys : PlaneRow → List Byte} (hlen : ∀ r ∈ rows, (xs r).length = a)
    (h : Laid row0 lo (8 * a) (fun r => leOfBytes (xs r)) rows c d)
    (k : Laid row0 (lo + 8 * a) (8 * b) (fun r => leOfBytes (ys r)) rows d e) :
    Laid row0 lo (8 * (a + b)) (fun r => leOfBytes (xs r ++ ys r)) rows c e := by
  refine ⟨by rw [k.core, h.core], fun hc => k.good (h.good hc), fun r hr => ?_,
    fun m hm => (k.other m hm).trans (h.other m hm)⟩
  have hgot := h.got r hr
  have kgot := k.got r hr
  rw [← hlen r hr] at hgot kgot ⊢
  exact hgot.append kgot

end Core.Laid

/-! ## The slot of a row -/

namespace Delivery

/-- The header of a page as the delivery reads it. -/
def header (v : Delivery) (mem : List Host.Cell) (page : Nat) : KvHeader := deliveryHeader (v.pages.read mem page 64) v.d

/-- The bytes of a row's slot. -/
def bytes (v : Delivery) (mem : List Host.Cell) (r : PlaneRow) : List Byte :=
  slotBytes (v.header mem r.2.1) v.d v.slot r.2.2 ((v.ranges (v.header mem r.2.1) r).map fun p => v.pages.read mem p.1 p.2)

/-- The bytes of a slot in a row (R186). -/
def width (v : Delivery) : Nat := if v.slot = 0 then 4 + v.d / 8 else v.d / 8

/-- The first column of the slot. -/
def column (v : Delivery) (c : Core) : Nat := c.scol0 + 8 * slotOff v.d v.boff v.slot

end Delivery

/-- A delivery's rows got their values: memory and its checks stay, and so does the core but for those rows. -/
structure State.Laid (c : Fin 192) (row0 lo w : Nat) (f : PlaneRow → Nat) (rows : List PlaneRow) (s t : State) : Prop where
  mem : t.mem = s.mem
  bad : t.bad = s.bad
  core : Core.Laid row0 lo w f rows s.cores[c] t.cores[c]

theorem Core.Laid.row0_eq {row0 lo w : Nat} {f : PlaneRow → Nat} {rows : List PlaneRow} {c d : Core}
    (h : Core.Laid row0 lo w f rows c d) (k : Nat) : d.row0 k = c.row0 k := by rw [h.core]; rfl

theorem Core.Laid.column_eq {row0 lo w : Nat} {f : PlaneRow → Nat} {rows : List PlaneRow} {c d : Core}
    (h : Core.Laid row0 lo w f rows c d) (v : Delivery) : v.column d = v.column c := by rw [h.core]; rfl

/-- Reads on their way: memory, its checks and the cores stay. -/
structure State.OnlyReads (s t : State) : Prop where
  mem : t.mem = s.mem
  bad : t.bad = s.bad
  cores : t.cores = s.cores

namespace State.OnlyReads

theorem refl (s : State) : s.OnlyReads s := ⟨rfl, rfl, rfl⟩

theorem trans (h : s.OnlyReads t) (k : t.OnlyReads u) : s.OnlyReads u :=
  ⟨k.mem.trans h.mem, k.bad.trans h.bad, k.cores.trans h.cores⟩

theorem foldl {β : Type} {f : State → β → State} (hf : ∀ (t : State) (b : β), t.OnlyReads (f t b)) (l : List β) (s : State) :
    s.OnlyReads (l.foldl f s) := by
  induction l generalizing s with
  | nil => exact .refl s
  | cons b l ih => exact (hf s b).trans (ih _)

theorem rangeTraffic (s : State) (p : PageMap) (va n : Nat) : s.OnlyReads (s.rangeTraffic p .low .read va n []) := by
  refine .foldl (fun t q => ?_) _ s
  rw [List.drop_nil, List.take_nil]
  obtain ⟨⟨hframe, -⟩, hcores⟩ := onlyTraces_read t (if p.idem q.1 then .low else .none) (p.pa q.1) q.2
  exact ⟨(congrArg State.mem hframe :), (congrArg State.bad hframe :), hcores⟩

end State.OnlyReads

/-! ## One part of a slot for the rows of a page -/

/-- The bytes of a part of each row's slot. -/
def Delivery.partBytes (v : Delivery) (mem : List Host.Cell) (part : (Nat × Nat) × Nat × Nat) (r : PlaneRow) : List Byte :=
  ((v.bytes mem r).drop part.1.1).take part.1.2

theorem deliverPart_sound {v : Delivery} {mem : List Host.Cell} {page : Nat} {rows : List PlaneRow}
    (part : (Nat × Nat) × Nat × Nat) (hpage : ∀ r ∈ rows, r.2.1 = page) (hrows : (rows.map (·.1)).Nodup)
    (hbad : s.bad = []) (hgood : s.cores[v.core].rowsGood = true) :
    ∃ t, s.deliverPart v mem (v.header mem page) rows part = (t, none) ∧
      State.Laid v.core (s.cores[v.core].row0 v.hart) (v.column s.cores[v.core] + 8 * part.1.1) (8 * part.1.2)
        (fun r => leOfBytes (v.partBytes mem part r)) rows s t := by
  have hfirst (p : Nat × Nat) : v.pages.firstBad s p.1 p.2 = none := if_pos hbad
  have hport (cols : BitVec 1024) (l : List Nat) : s.cores[v.core].planePortFails cols l = [] := if_pos hgood
  have hall (l : List PlaneRow) (src : PlaneRow → List (Nat × Nat)) :
      (l.takeWhile fun r => ((src r).findSome? fun p => v.pages.firstBad s p.1 p.2).isNone) = l :=
    List.takeWhile_eq_self_iff.2 fun r _ => by simp [hfirst]
  have hreads : s.OnlyReads (rows.foldl (fun t r => (((v.ranges (v.header mem page) r).drop part.2.1).take part.2.2).foldl
      (fun t p => t.rangeTraffic v.pages .low .read p.1 p.2 []) t) s) :=
    .foldl (fun t r => .foldl (fun t (p : Nat × Nat) => .rangeTraffic t v.pages p.1 p.2) _ t) rows s
  unfold State.deliverPart
  simp only [hall, hport, List.drop_length, List.head?_nil, Option.bind_none, Option.map_none]
  refine ⟨_, rfl, hreads.mem, hreads.bad, ?_⟩
  rw [State.cores_modCoreAt_same, hreads.cores, Delivery.column, Nat.add_assoc, ← Nat.mul_add]
  refine (Core.Laid.putRows hrows).congr (fun _ => .rfl) fun r hr => ?_
  rw [Delivery.partBytes, Delivery.bytes, hpage r hr]

/-! ## A page, and all pages -/

/-- The slot of the rows of one page. -/
theorem deliverPage_sound {v : Delivery} {mem : List Host.Cell} {page : Nat} {rows : List PlaneRow}
    (hrows : (rows.map (·.1)).Nodup) (hwidth : ∀ r ∈ rows, (v.bytes mem r).length = v.width) (hbad : s.bad = [])
    (hgood : s.cores[v.core].rowsGood = true) :
    ∃ t, s.deliverPage v mem rows page = (t, none) ∧
      State.Laid v.core (s.cores[v.core].row0 v.hart) (v.column s.cores[v.core]) (8 * v.width)
        (fun r => leOfBytes (v.bytes mem r)) (rows.filter fun r => r.2.1 == page) s t := by
  have hreads : s.OnlyReads (s.rangeTraffic v.pages .low .read page 64 []) := .rangeTraffic s v.pages page 64
  have hpage : ∀ r ∈ rows.filter fun r => r.2.1 == page, r.2.1 = page := fun r hr => beq_iff_eq.1 (List.mem_filter.1 hr).2
  have hnodup : ((rows.filter fun r => r.2.1 == page).map (·.1)).Nodup := hrows.sublist (List.filter_sublist.map _)
  have hlen : ∀ r ∈ rows.filter fun r => r.2.1 == page, (v.bytes mem r).length = v.width := fun r hr =>
    hwidth r (List.mem_filter.1 hr).1
  have hsector : s.sectorBad (v.pages.pa page) = false := by simp [State.sectorBad, hbad]
  unfold State.deliverPage
  rw [hsector, if_neg Bool.false_ne_true]
  dsimp only
  rw [← Delivery.header]
  generalize s.rangeTraffic v.pages .low .read page 64 [] = s0 at hreads
  generalize rows.filter (fun r => r.2.1 == page) = l at *
  rw [← hreads.cores] at hgood ⊢
  by_cases h0 : v.slot = 0
  · obtain ⟨t, ht, hl⟩ := deliverPart_sound (mem := mem) ((0, 4), 0, 2) hpage hnodup (hreads.bad.trans hbad) hgood
    obtain ⟨u, hu, hk⟩ := deliverPart_sound (mem := mem) ((4, v.d / 8), 2, 1) hpage hnodup
      ((hl.bad.trans hreads.bad).trans hbad) (hl.core.good hgood)
    rw [slotParts, if_pos h0, List.foldl_cons, List.foldl_cons, List.foldl_nil, Option.isSome_none, if_neg Bool.false_ne_true,
      ht, Option.isSome_none, if_neg Bool.false_ne_true, hu]
    refine ⟨u, rfl, (hk.mem.trans hl.mem).trans hreads.mem, (hk.bad.trans hl.bad).trans hreads.bad, ?_⟩
    rw [← hreads.cores]
    rw [Delivery.width, if_pos h0] at hlen ⊢
    have hkcore := hk.core
    rw [hl.core.row0_eq, hl.core.column_eq] at hkcore
    refine (Core.Laid.append (fun r hr => ?_) hl.core hkcore).congr (fun _ => .rfl) fun r hr => ?_
    · rw [Delivery.partBytes, List.length_take, List.length_drop, hlen r hr]
      exact Nat.min_eq_left (Nat.le_add_right 4 _)
    · rw [Delivery.partBytes, Delivery.partBytes, List.drop_zero, List.take_of_length_le (l := (v.bytes mem r).drop 4),
        List.take_append_drop]
      rw [List.length_drop, hlen r hr]
      exact (Nat.add_sub_cancel_left 4 _).le
  · obtain ⟨t, ht, hl⟩ := deliverPart_sound (mem := mem) ((0, v.d / 8), 0, 1) hpage hnodup (hreads.bad.trans hbad) hgood
    rw [slotParts, if_neg h0, List.foldl_cons, List.foldl_nil, Option.isSome_none, if_neg Bool.false_ne_true, ht]
    refine ⟨t, rfl, hl.mem.trans hreads.mem, hl.bad.trans hreads.bad, ?_⟩
    rw [← hreads.cores]
    rw [Delivery.width, if_neg h0] at hlen ⊢
    refine hl.core.congr (fun _ => .rfl) fun r hr => ?_
    rw [Delivery.partBytes, List.drop_zero, List.take_of_length_le (hlen r hr).le]

/-- The pages of a delivery, one after another. -/
theorem deliverPages_sound {v : Delivery} {mem : List Host.Cell} {rows : List PlaneRow} {pages : List Nat}
    (hpages : pages.Nodup) (hrows : (rows.map (·.1)).Nodup) (hwidth : ∀ r ∈ rows, (v.bytes mem r).length = v.width)
    (hbad : s.bad = []) (hgood : s.cores[v.core].rowsGood = true) :
    ∃ t, pages.foldl (fun q p => if q.2.isSome then q else q.1.deliverPage v mem rows p) (s, none) = (t, none) ∧
      State.Laid v.core (s.cores[v.core].row0 v.hart) (v.column s.cores[v.core]) (8 * v.width)
        (fun r => leOfBytes (v.bytes mem r)) (pages.flatMap fun p => rows.filter fun r => r.2.1 == p) s t := by
  induction pages generalizing s with
  | nil => exact ⟨s, rfl, rfl, rfl, .nil _⟩
  | cons p pages ih =>
    obtain ⟨hp, hpages⟩ := List.nodup_cons.1 hpages
    obtain ⟨t, ht, hl⟩ := deliverPage_sound (page := p) hrows hwidth hbad hgood
    obtain ⟨u, hu, hk⟩ := ih hpages (hl.bad.trans hbad) (hl.core.good hgood)
    rw [List.foldl_cons, Option.isSome_none, if_neg Bool.false_ne_true, ht]
    refine ⟨u, hu, hk.mem.trans hl.mem, hk.bad.trans hl.bad, ?_⟩
    have hkcore := hk.core
    rw [hl.core.row0_eq, hl.core.column_eq] at hkcore
    rw [List.flatMap_cons]
    refine hl.core.union hkcore fun r hr q hq heq => hp ?_
    obtain ⟨p', hp', hq⟩ := List.mem_flatMap.1 hq
    obtain ⟨hr, hrp⟩ := List.mem_filter.1 hr
    obtain ⟨hq, hqp⟩ := List.mem_filter.1 hq
    have hrq : r = q := List.inj_on_of_nodup_map hrows hr hq heq
    rw [← beq_iff_eq.1 hrp, hrq, beq_iff_eq.1 hqp]
    exact hp'

/-- A slot of a delivery whose reads and rows pass their checks. -/
theorem deliverRows_sound {v : Delivery} {mem : List Host.Cell} {rows : List PlaneRow} (hrows : (rows.map (·.1)).Nodup)
    (hwidth : ∀ r ∈ rows, (v.bytes mem r).length = v.width) (hbad : s.bad = []) (hgood : s.cores[v.core].rowsGood = true) :
    ∃ t, s.deliverRows v mem rows = (t, none) ∧
      State.Laid v.core (s.cores[v.core].row0 v.hart) (v.column s.cores[v.core]) (8 * v.width)
        (fun r => leOfBytes (v.bytes mem r)) rows s t := by
  obtain ⟨t, ht, hl⟩ := deliverPages_sound (nodup_eraseDups (rows.map (·.2.1))) hrows hwidth hbad hgood
  refine ⟨t, ht, hl.mem, hl.bad, hl.core.congr (fun r => ?_) fun _ _ => rfl⟩
  simp only [List.mem_flatMap, List.mem_filter, List.mem_eraseDups]
  exact ⟨fun hr => ⟨r.2.1, List.mem_map_of_mem hr, hr, beq_self_eq_true _⟩, fun ⟨_, _, hr, _⟩ => hr⟩

/-! ## The step -/

/-- The step of a plane slot does what `deliverSlot` says, acting for the issuer. -/
theorem exec_planeSlotDelivered {c : Fin 192} {o : EngineOp} {tag : Nat}
    (hfind : s.cores[c].ops.find? (·.planesOn tag) = some o) :
    ∃ u : State, exec (.planeSlotDelivered c.val tag) s = .next u ∧
      ((s.acting c o).deliverSlot c o).SameCores u ∧ u.mem = ((s.acting c o).deliverSlot c o).mem := by
  have hstep := onOp_found hfind fun t p => t.deliverSlot (coreIx c.val) p
  simp only [coreIx_val] at hstep
  refine ⟨_, rfl, ?_⟩
  simpa only [coreIx_val] using hstep

/-- The count of planes on a tag is one more; the delivery goes on. -/
def Core.countPlane (c : Core) (o : EngineOp) (tag slots : Nat) (k : OpKind) : Core :=
  { c.putOp o (some k) with tags := c.tags.set (tagIx tag) { c.tags[tagIx tag] with planes := slots + 1 } }

theorem Core.tags_countPlane (c : Core) (o : EngineOp) (tag slots : Nat) (k : OpKind) :
    (c.countPlane o tag slots k).tags[tagIx tag] = { c.tags[tagIx tag] with planes := slots + 1 } := by
  simp [Core.countPlane]

/-- A byte of a value that some columns hold. -/
theorem Row.Got.byte {r q : Row} {lo n i : Nat} {bs : List Byte} (h : r.Got q lo (8 * n) (leOfBytes bs))
    (hfit : lo + 8 * n ≤ 1024) (hi : i < n) : q.get (lo + 8 * i) 8 = (bs.getD i 0).toNat := by
  refine Row.get_eq (bs.getD i 0).isLt fun j hj => ?_
  rw [h _ (by omega), if_pos (by omega), ← leOfBytes_byte, show (256 : Nat) = 2 ^ 8 from rfl, Nat.testBit_mod_two_pow,
    ← Nat.pow_mul, Nat.testBit_div_two_pow, decide_eq_true hj, Bool.true_and]
  congr 1
  omega

section
variable {c : Fin 192} {o : EngineOp} {tag boff np ptop d slots : Nat} {h : Fin 8} {rows : List PlaneRow} {settled : List Nat}
  (hfind : s.cores[c].ops.find? (·.planesOn tag) = some o)
  (hk : o.kind = .planes tag h false boff np ptop d slots rows settled)
include hfind hk

/-- After the last slot the tag is DONE. -/
theorem planes_end (htag : tag < 64) (hnp : np < slots) :
    Becomes (.planeSlotDelivered c.val tag) s fun u =>
      u.cores[c].tags[tagIx tag].planes = 0 ∧ u.cores[c].tagBusy tag = false ∧ u.cores[c].tagFailed tag = false ∧
      u.cores[c].rows = s.cores[c].rows ∧ u.mem = s.mem ∧ (∀ p ∈ u.cores[c].ops, p ∈ s.cores[c].ops ∧ p.id ≠ o.id) := by
  obtain ⟨u, hexec, hsame, hmem⟩ := exec_planeSlotDelivered hfind
  have hdone : (s.acting c o).deliverSlot c o = (s.acting c o).modCoreAt c (·.finishOp o tag none) := by
    simp only [State.deliverSlot, hk, if_pos hnp]
    rfl
  rw [hdone] at hsame hmem
  have hcore := hsame.core c
  rw [State.cores_modCoreAt_same] at hcore
  obtain ⟨hbusy, hfailed⟩ := Core.finishOp_tag (s.acting c o).cores[c] o none htag
  refine ⟨u, hexec, ?_, (hcore.tagBusy _).trans hbusy, (hcore.tagFailed _).trans hfailed, hcore.rows, hmem, fun p hp => ?_⟩
  · rw [hcore.tags]
    exact congrArg Tag.planes (Core.tags_endTag ..)
  · rw [hcore.ops] at hp
    exact Core.mem_ops_finishOp hp

/-- A slot is laid in every row of the delivery whose page is not settled. -/
theorem planes_delivered (hbad : s.bad = []) (hgood : s.cores[c].rowsGood = true) (hrows : (rows.map (·.1)).Nodup)
    (hnp : slots ≤ np) :
    let v : Delivery := { core := c, hart := h.val, pages := o.pages, d := d, boff := boff, ptop := ptop, slot := slots }
    v.column s.cores[c] + 8 * v.width ≤ 1024 →
    (∀ k : Nat → Nat, ∀ r ∈ rows, (v.bytes (forkMemAt s.mem o.past k) r).length = v.width) →
    ∃ k : Nat → Nat, Becomes (.planeSlotDelivered c.val tag) s fun u =>
      (∀ r ∈ rows, r.2.1 ∉ settled → ∀ i : Nat, i < v.width →
        (u.cores[c].row (s.cores[c].row0 h.val + r.1)).get (v.column s.cores[c] + 8 * i) 8 =
          ((v.bytes (forkMemAt s.mem o.past k) r).getD i 0).toNat) ∧
      (∀ m col : Nat, col < 1024 → (m ∉ rows.map (fun r => s.cores[c].row0 h.val + r.1) ∨ col < v.column s.cores[c] ∨
        v.column s.cores[c] + 8 * v.width ≤ col) → (u.cores[c].row m).bit col = (s.cores[c].row m).bit col) ∧
      u.mem = s.mem ∧ u.cores[c].tags[tagIx tag].planes = slots + 1 ∧ u.cores[c].tagBusy tag = s.cores[c].tagBusy tag := by
  intro v hfit hwidth
  obtain ⟨u, hexec, hsame, hmem⟩ := exec_planeSlotDelivered hfind
  obtain ⟨k, free, hfork⟩ := forkMem_finds (s.acting c o) o.past
  obtain ⟨t, ht, hl⟩ := deliverRows_sound (s := (s.acting c o).withFree free) (v := v) (mem := forkMemAt s.mem o.past k)
    (rows := rows.filter fun r => !settled.contains r.2.1) (hrows.sublist (List.filter_sublist.map _))
    (fun r hr => hwidth k r (List.mem_filter.1 hr).1) hbad hgood
  have hdone : (s.acting c o).deliverSlot c o = t.modCoreAt c (·.countPlane o tag slots
      (.planes tag h false boff np ptop d (slots + 1) rows settled)) := by
    simp only [State.deliverSlot, hk, if_neg (Nat.not_lt.2 hnp), Bool.false_and, Bool.false_eq_true, if_false, hfork]
    have hlit : { core := c, hart := h.val, pages := o.pages, d := d, boff := boff, ptop := ptop, slot := slots } = v := rfl
    have hmem : (s.acting c o).mem = s.mem := rfl
    rw [hlit, hmem, ht]
    rfl
  rw [hdone] at hsame hmem
  have hcore := hsame.core c
  rw [State.cores_modCoreAt_same] at hcore
  have hrow (m : Nat) : u.cores[c].row m = t.cores[c].row m := hcore.row m
  have hlaid := hl.core
  refine ⟨k, u, hexec, fun r hr hset i hi => ?_, fun m col hcol hout => ?_, hmem.trans hl.mem, ?_, ?_⟩
  · rw [hrow]
    refine (hlaid.got r (List.mem_filter.2 ⟨hr, ?_⟩)).byte hfit hi
    simpa using hset
  · rw [hrow]
    by_cases hm : ∃ r ∈ rows.filter fun r => !settled.contains r.2.1, m = s.cores[c].row0 h.val + r.1
    · obtain ⟨r, hr, rfl⟩ := hm
      refine (hlaid.got r hr).other hcol (hout.resolve_left fun hnot => hnot ?_)
      exact List.mem_map.2 ⟨r, (List.mem_filter.1 hr).1, rfl⟩
    · exact congrArg (Row.bit · col) (hlaid.other m fun r hr heq => hm ⟨r, hr, heq⟩)
  · rw [hcore.tags]
    exact congrArg Tag.planes (Core.tags_countPlane ..)
  · refine (hcore.tagBusy _).trans ?_
    rw [hl.core.core]
    rfl

end

end Sys2Proof.Machine
end

section
/-! Arrivals of the engines (O40). -/

namespace Sys2Proof.Machine

/-- The bytes of a row as its source ranges give them: nothing is read for a token at or above NTOK. -/
theorem Delivery.bytes_eq (v : Delivery) (mem : List Host.Cell) (r : PlaneRow) :
    v.bytes mem r = slotBytes (v.header mem r.2.1) v.d v.slot r.2.2
      (if r.2.2 < (v.header mem r.2.1).ntok then (slotRanges v.d (v.header mem r.2.1) v.ptop v.slot r.2.2).map fun p =>
        PageMap.read v.pages mem (r.2.1 + p.1) p.2 else []) := by
  rw [Delivery.bytes, Delivery.ranges]
  split
  · rw [List.map_map]
    rfl
  · rfl

end Sys2Proof.Machine

open Sys2Proof Sys2Proof.Machine

/-- Settles O40: a copy, a gathered element and a plane slot each by what its completion does in the core of the operation,
which the step then only carries past caches, ports, the log and retiring pallets. -/
theorem engineArrivals : Obligations.EngineArrivals := by
  unfold Obligations.EngineArrivals
  refine ⟨?_, ?_, ?_⟩
  · intro s c o tag a b n f h src dst hfind htag hk hwf hreg hinj
    exact ⟨copy_succeeds hfind htag hk hreg hwf hinj, copy_fails hfind htag hk hreg⟩
  · intro s c o h vd bytes row va rows pending C m slice hfind hk hp hlaid hvd hw hchk hbad
    exact gather_arrives hfind hk hp hlaid hvd hw hchk hbad
  · intro s c o tag h boff np ptop d slots rows settled C hdr part bytes first width hfind htag hk hbad _ hgood hrows hfit
      hwidth
    refine ⟨fun hnp => ?_, planes_end hfind hk htag⟩
    have hdelivered := planes_delivered hfind hk hbad hgood hrows hnp hfit
    simp only [Delivery.bytes_eq] at hdelivered
    exact hdelivered hwidth

end

section
/-! SUPPORT. Translations at the issue of a copy (R40, R103, R181): which pages they answer, and that they change a TLB at
most. -/

namespace Sys2Proof.Machine

variable {s t u : State} {acc : Acc}

/-- What a translation may change: a core's TLB, and traces outside the core. -/
structure State.OnlyTlb (s t : State) : Prop where
  traces : OnlyTraces s t
  core : ∀ c : Fin 192, t.cores[c] = { s.cores[c] with tlb := t.cores[c].tlb }

namespace State.OnlyTlb

theorem refl (s : State) : s.OnlyTlb s := ⟨.refl s, fun _ => rfl⟩

theorem trans (h : s.OnlyTlb t) (k : t.OnlyTlb u) : s.OnlyTlb u :=
  ⟨h.traces.trans k.traces, fun c => by rw [k.core, h.core]⟩

theorem of_cores (h : OnlyTraces s t) (hc : t.cores = s.cores) : s.OnlyTlb t := ⟨h, fun c => by rw [hc]⟩

theorem translate {a : Agent} {va : Nat} {x : Xlat} (h : s.translate a acc va = .ok x t) : s.OnlyTlb t :=
  ⟨(translate_cores h).1, (translate_cores h).2⟩

theorem mapsTo {vas : List Nat} {xs : List Xlat} (h : s.mapsTo acc vas = some (xs, t)) : s.OnlyTlb t := by
  induction vas generalizing s xs with
  | nil => obtain ⟨rfl, rfl⟩ := Prod.mk.inj (Option.some.inj h); exact .refl s
  | cons va vas ih =>
    rw [State.mapsTo] at h
    split at h
    · next x v hx =>
      obtain ⟨r, hr, hq⟩ := Option.map_eq_some_iff.1 h
      obtain ⟨rfl, rfl⟩ := Prod.mk.inj hq
      exact (OnlyTlb.translate hx).trans (ih hr)
    · exact absurd h (by simp)

theorem mapsRangeTo {va n : Nat} {p : PageMap} (h : s.mapsRangeTo acc va n = some (p, t)) : s.OnlyTlb t := by
  rw [State.mapsRangeTo] at h
  split at h
  · obtain ⟨r, hr, hq⟩ := Option.map_eq_some_iff.1 h
    obtain ⟨-, rfl⟩ := Prod.mk.inj hq
    exact .mapsTo hr
  · exact absurd h (by simp)

theorem endPagesTo {e : End} {n : Nat} {p : PageMap} (h : s.endPagesTo acc e n = some (p, t)) : s.OnlyTlb t := by
  cases e with
  | pool l => obtain ⟨-, rfl⟩ := Prod.mk.inj (Option.some.inj h); exact .refl s
  | mem va =>
    rw [State.endPagesTo] at h
    split at h
    · obtain ⟨-, rfl⟩ := Prod.mk.inj (Option.some.inj h); exact .refl s
    · exact .mapsRangeTo h

end State.OnlyTlb

/-! ## The pages that a range is translated to -/

theorem run_xlatPages {vas : List Nat} {xs : List Xlat} (h : s.mapsTo acc vas = some (xs, t)) :
    xlatPages acc vas s = .ok ((vas.zip xs).map fun p => (p.1 / 65536, p.2.pa / 65536, p.2.idem), t) := by
  induction vas generalizing s xs with
  | nil => obtain ⟨rfl, rfl⟩ := Prod.mk.inj (Option.some.inj h); rfl
  | cons va vas ih =>
    rw [State.mapsTo] at h
    split at h
    · next x v hx =>
      obtain ⟨r, hr, hq⟩ := Option.map_eq_some_iff.1 h
      obtain ⟨rfl, rfl⟩ := Prod.mk.inj hq
      have hxlat : xlat acc va s = .ok (x, v) := by simp only [xlat, hx]
      rw [xlatPages, Act.run_bind, hxlat]
      dsimp only
      rw [Act.run_bind, ih hr]
      rfl
    · exact absurd h (by simp)

theorem run_xlatRange {va n : Nat} {p : PageMap} (h : s.mapsRangeTo acc va n = some (p, t)) :
    xlatRange acc va n s = .ok (p, t) := by
  rw [State.mapsRangeTo] at h
  split at h
  · next hgate =>
    obtain ⟨r, hr, hq⟩ := Option.map_eq_some_iff.1 h
    obtain ⟨rfl, rfl⟩ := Prod.mk.inj hq
    rw [xlatRange, if_neg (not_not.2 hgate.1), Act.run_bind, Act.run_walkerGate hgate.2]
    exact run_xlatPages hr
  · exact absurd h (by simp)

theorem run_endPages {e : End} {n : Nat} {p : PageMap} (h : s.endPagesTo acc e n = some (p, t)) :
    endPages acc e n s = .ok (p, t) := by
  cases e with
  | pool l => obtain ⟨rfl, rfl⟩ := Prod.mk.inj (Option.some.inj h); rfl
  | mem va =>
    rw [State.endPagesTo] at h
    rw [endPages]
    split at h
    · next hn => obtain ⟨rfl, rfl⟩ := Prod.mk.inj (Option.some.inj h); rw [if_pos hn]; rfl
    · next hn => rw [if_neg hn]; exact run_xlatRange h

/-! ## The barrier object -/

theorem State.OnlyTlb.mbarVa {source va : Nat} {k : AccKind} {b : Mbar} (h : mbarVa source va k s = .ok (b, t)) :
    s.OnlyTlb t := by
  have hres : s.OnlyTlb (s.resolve s.agent va).2 := .of_cores (onlyTraces_resolve ..) (cores_resolve ..)
  unfold Machine.mbarVa at h
  dsimp only at h
  split at h
  · exact absurd h (by simp)
  split at h
  · exact absurd h (by simp)
  split at h
  · exact absurd h (by simp)
  · exact absurd h (by simp)
  · exact absurd h (by simp)
  · split at h
    · exact absurd h (by simp)
    · split at h
      · rw [← (Prod.mk.inj (Except.ok.inj h)).2]
        exact hres
      · exact absurd h (by simp)

theorem trapIf_ok {b : Bool} {c : BitVec 8} {a : Word} (h : trapIf b c a s = .ok ((), t)) : t = s := by
  cases b with
  | true => exact absurd h (by simp [trapIf])
  | false => exact (Prod.mk.inj (Except.ok.inj h)).2.symm

theorem mbarPool_state {l : Word} {b : Mbar} (h : mbarPool l s = .ok (b, t)) : t = s := by
  obtain ⟨c, v, hlook, h⟩ := Act.bind_ok h
  obtain ⟨_, w, htrap, hpure⟩ := Act.bind_ok h
  rw [← (Prod.mk.inj (Except.ok.inj hpure)).2, trapIf_ok htrap, ← (Prod.mk.inj (Except.ok.inj hlook)).2]

theorem walkerGate_state {vas : List Nat} (h : walkerGate vas s = .ok ((), t)) : t = s := by
  rw [walkerGate] at h
  split at h
  · exact (Prod.mk.inj (Except.ok.inj h)).2.symm
  · exact absurd h (by simp)

/-- A copy's barrier object that is found: its form passes too, and a TLB changes at most. -/
theorem copyMbarTo_some {m mbp : Bool} {source : Nat} {r : Reg} {b : Option Mbar}
    (h : s.copyMbarTo m mbp source r = some (b, t)) :
    mbarForm m mbp r s = .ok ((), s) ∧ copyMbar m mbp source r s = .ok (b, t) ∧ s.OnlyTlb t := by
  have hrun : copyMbar m mbp source r s = .ok (b, t) := by
    rw [State.copyMbarTo] at h
    split at h
    · next q hq => rw [hq, Option.some.inj h]
    · exact absurd h (by simp)
  cases m with
  | false =>
    obtain ⟨-, rfl⟩ := Prod.mk.inj (Except.ok.inj hrun)
    exact ⟨rfl, hrun, .refl s⟩
  | true =>
    obtain ⟨x, v, hx, hnamed⟩ := Act.bind_ok hrun
    obtain ⟨rfl, rfl⟩ := Prod.mk.inj (Except.ok.inj hx)
    cases mbp with
    | true =>
      have hpool : (mbarPool (s.getX r) >>= fun b => pure (some b)) s = .ok (b, t) := hnamed
      obtain ⟨o, w, hobj, hpure⟩ := Act.bind_ok hpool
      obtain ⟨-, rfl⟩ := Prod.mk.inj (Except.ok.inj hpure)
      obtain rfl := mbarPool_state hobj
      refine ⟨?_, hrun, .refl _⟩
      rw [mbarForm, Bool.and_self, if_pos rfl, Act.run_bind, Act.run_readX]
      dsimp only
      rw [Act.run_bind, hobj]
      rfl
    | false =>
      have hva : (walkerGate [(s.getX r).toNat] >>= fun _ =>
          mbarVa source (s.getX r).toNat .store >>= fun b => pure (some b)) s = .ok (b, t) := hnamed
      obtain ⟨_, v, hgate, hva⟩ := Act.bind_ok hva
      obtain ⟨o, w, hobj, hpure⟩ := Act.bind_ok hva
      obtain ⟨-, rfl⟩ := Prod.mk.inj (Except.ok.inj hpure)
      obtain rfl := walkerGate_state hgate
      exact ⟨rfl, hrun, .mbarVa hobj⟩

end Sys2Proof.Machine
end

section
/-! SUPPORT. The issue of a copy (R101, R103, R181): the tag is taken, the destination's slices have to land again, and the
operation is outstanding. -/

namespace Sys2Proof.Machine

variable {s t u : State}

/-! ## Landed bits and VC bits of a core -/

/-- Landed bits and VC bits of the harts may change, and which slices hold a failure. -/
structure Core.OnlyLands (c d : Core) : Prop where
  core : d = { c with harts := d.harts, failedSlices := d.failedSlices }
  hart : ∀ h : Fin 8, d.harts[h] = { c.harts[h] with landed := d.harts[h].landed, vc := d.harts[h].vc }

/-- The same of every core. -/
structure State.OnlyLands (s t : State) : Prop where
  mem : t.mem = s.mem
  cur : t.cur = s.cur
  core : ∀ i : Fin 192, s.cores[i].OnlyLands t.cores[i]

/-- The landed bits of some slices of a register are cleared. -/
def Hart.clearSlices (r : Nat) (l : List Nat) (k : Hart) : Hart :=
  { k with
    landed := k.landed.set (r % 32) (l.foldl (fun b i => b &&& ~~~BitVec.ofNat 32 (2 ^ i))
      (k.landed[r % 32]'(Nat.mod_lt _ (by decide)))) (Nat.mod_lt _ (by decide)) }

namespace Core.OnlyLands

variable {c d e : Core}

theorem refl (c : Core) : c.OnlyLands c := ⟨rfl, fun _ => rfl⟩

theorem trans (h : c.OnlyLands d) (k : d.OnlyLands e) : c.OnlyLands e :=
  ⟨by rw [k.core, h.core], fun i => by rw [k.hart, h.hart]⟩

theorem modHart (c : Core) (i : Fin 8) {f : Hart → Hart}
    (hf : ∀ k : Hart, f k = { k with landed := (f k).landed, vc := (f k).vc }) :
    c.OnlyLands (c.modHart i f) := by
  refine ⟨rfl, fun j => ?_⟩
  by_cases h : j = i
  · subst h
    simpa [Core.modHart] using hf _
  · simp [Core.modHart, Fin.val_ne_of_ne (Ne.symm h)]

theorem clearLanded (c : Core) (i : Fin 8) (r : Nat) (l : List Nat) : c.OnlyLands (c.clearLanded i r l) := by
  obtain ⟨-, hhart⟩ := modHart c i (f := Hart.clearSlices r l) fun _ => rfl
  exact ⟨rfl, hhart⟩

end Core.OnlyLands

namespace State.OnlyLands

theorem refl (s : State) : s.OnlyLands s := ⟨rfl, rfl, fun _ => .refl _⟩

theorem trans (h : s.OnlyLands t) (k : t.OnlyLands u) : s.OnlyLands u :=
  ⟨k.mem.trans h.mem, k.cur.trans h.cur, fun i => (h.core i).trans (k.core i)⟩

theorem modCoreAt (i : Fin 192) {f : Core → Core} (hf : ∀ c : Core, c.OnlyLands (f c)) : s.OnlyLands (s.modCoreAt i f) := by
  refine ⟨rfl, rfl, fun j => ?_⟩
  by_cases h : j = i
  · subst h
    rw [State.cores_modCoreAt_same]
    exact hf _
  · rw [State.cores_modCoreAt_other s f h]
    exact .refl _

end State.OnlyLands

/-- The write of some slices of a register of a hart is outstanding; an ordinary write of every row ends its VC bit. -/
def Core.awaitSlices (all : Bool) (h : Fin 8) (r : Nat) (slices : List Nat) (c : Core) : Core :=
  (c.clearLanded h r slices).modHart h fun k => if all then k.setVc r false else k

theorem Core.onlyLands_awaitSlices (all : Bool) (h : Fin 8) (r : Nat) (slices : List Nat) (c : Core) :
    c.OnlyLands (c.awaitSlices all h r slices) :=
  (OnlyLands.clearLanded c h r slices).trans (.modHart _ h fun k => by cases all <;> rfl)

theorem getLsbD_clearBits (l : List Nat) (x : BitVec 32) {k : Nat} (hk : k < 32) :
    (l.foldl (fun b i => b &&& ~~~BitVec.ofNat 32 (2 ^ i)) x).getLsbD k = (x.getLsbD k && !l.contains k) := by
  induction l generalizing x with
  | nil => simp
  | cons i l ih =>
    rw [List.foldl_cons, ih, getLsbD_clearBit _ hk, List.contains_cons]
    rw [Bool.not_or, ← Bool.and_assoc, beq_eq_decide, Bool.and_comm (x.getLsbD k)]

theorem regIx_val {r : Nat} (hr : r < 32) : (regIx r).val = r := by simp [regIx, hr]

/-- The slices of a register of a hart have still to land. -/
def Core.Awaits (h : Fin 8) (r : Nat) (slices : List Nat) (c : Core) : Prop :=
  ∀ k ∈ slices, k < 32 → (c.harts[h].landed[(regIx r).val]).getLsbD k = false

theorem Core.awaits_awaitSlices (all : Bool) (h : Fin 8) {r : Nat} (hr : r < 32) (slices : List Nat) (c : Core) :
    Core.Awaits h r slices (c.awaitSlices all h r slices) := by
  intro k hk hk32
  have hlanded : (c.awaitSlices all h r slices).harts[h].landed = (c.harts[h].clearSlices r slices).landed := by
    cases all <;> simp [Core.awaitSlices, Core.clearLanded, Core.modHart, Hart.setVc, Hart.clearSlices]
  simp only [hlanded, Hart.clearSlices, regIx_val hr, Nat.mod_eq_of_lt hr, Vector.getElem_set_self]
  rw [getLsbD_clearBits _ _ hk32]
  simp [hk]

theorem Core.vcBit_awaitSlices (h : Fin 8) {r : Nat} (hr : r < 32) (slices : List Nat) (c : Core) :
    ((c.awaitSlices true h r slices).harts[h]).vcBit r = false := by
  have hbit (k : Hart) : (k.setVc r false).vcBit r = false := by
    rw [Hart.vcBit, Hart.setVc, if_neg Bool.false_ne_true, getLsbD_clearBit _ hr]
    simp
  simpa [Core.awaitSlices, Core.modHart] using hbit _

/-! ## Into every destination core -/

section
variable {f : Core → Core} {P : Core → Prop} (hf : ∀ c : Core, P (f c))
include hf

theorem modCoreAt_keeps {j : Fin 192} (i : Fin 192) (h : P s.cores[j]) : P (s.modCoreAt i f).cores[j] := by
  by_cases hij : j = i
  · subst hij
    rw [State.cores_modCoreAt_same]
    exact hf _
  · rwa [State.cores_modCoreAt_other s f hij]

theorem foldl_modCoreAt_keeps {j : Fin 192} (l : List Nat) (h : P s.cores[j]) :
    P (l.foldl (fun s i => s.modCoreAt (coreIx i) f) s).cores[j] := by
  induction l generalizing s with
  | nil => exact h
  | cons i l ih => exact ih (modCoreAt_keeps hf _ h)

/-- What an update brings about holds afterwards in every core that it was made in. -/
theorem foldl_modCoreAt_makes {l : List Nat} {c : Nat} (hc : c ∈ l) :
    P (l.foldl (fun s i => s.modCoreAt (coreIx i) f) s).cores[coreIx c] := by
  induction l generalizing s with
  | nil => exact absurd hc List.not_mem_nil
  | cons i l ih =>
    obtain rfl | hc := List.mem_cons.1 hc
    · refine foldl_modCoreAt_keeps hf l ?_
      rw [State.cores_modCoreAt_same]
      exact hf _
    · exact ih hc

end

theorem issueInto_eq {h : Fin 8} {dests : List Nat} {l : Word} {rows : List Nat} (hview : locView l = 2) (hrows : rows ≠ []) :
    s.issueInto h dests l rows =
      dests.foldl (fun t i => t.modCoreAt (coreIx i) (·.awaitSlices s.writesAll h (locReg l) (slicesOf rows))) s := by
  rw [State.issueInto, if_neg (not_or.2 ⟨not_not.2 hview, hrows⟩)]
  rfl

theorem issueInto_onlyLands (s : State) (h : Fin 8) (dests : List Nat) (l : Word) (rows : List Nat) :
    s.OnlyLands (s.issueInto h dests l rows) := by
  by_cases hnone : locView l ≠ 2 ∨ rows = []
  · rw [State.issueInto, if_pos hnone]
    exact .refl s
  · rw [not_or, not_not] at hnone
    rw [issueInto_eq hnone.1 hnone.2]
    generalize s.writesAll = all
    induction dests generalizing s with
    | nil => exact .refl s
    | cons i dests ih =>
      exact (State.OnlyLands.modCoreAt (coreIx i) (Core.onlyLands_awaitSlices all h (locReg l) (slicesOf rows))).trans (ih _)

theorem locReg_lt (l : Word) : locReg l < 32 := Nat.mod_lt _ (by decide)

theorem mem_slicesOf {rows : List Nat} {r : Nat} (h : r ∈ rows) : r / 2048 ∈ slicesOf rows :=
  List.mem_eraseDups.2 (List.mem_map_of_mem h)

/-- The slices of a view's rows have to land again in every destination core. -/
theorem issueInto_awaits {h : Fin 8} {dests : List Nat} {l : Word} {rows : List Nat} {c r : Nat} (hview : locView l = 2)
    (hc : c ∈ dests) (hr : r ∈ rows) (hslice : r / 2048 < 32) :
    (((s.issueInto h dests l rows).cores[coreIx c].harts[h]).landed[(regIx (locReg l)).val]).getLsbD (r / 2048) = false := by
  rw [issueInto_eq hview (List.ne_nil_of_mem hr)]
  exact foldl_modCoreAt_makes (Core.awaits_awaitSlices s.writesAll h (locReg_lt l) (slicesOf rows)) hc _ (mem_slicesOf hr) hslice

/-- An ordinary write of every row ends the register's VC bit in every destination core. -/
theorem issueInto_vc {h : Fin 8} {dests : List Nat} {l : Word} {rows : List Nat} {c : Nat} (hview : locView l = 2)
    (hc : c ∈ dests) (hrows : rows ≠ []) (hall : s.writesAll = true) :
    ((s.issueInto h dests l rows).cores[coreIx c].harts[h]).vcBit (locReg l) = false := by
  rw [issueInto_eq hview hrows, hall]
  exact foldl_modCoreAt_makes (P := fun k => (k.harts[h]).vcBit (locReg l) = false)
    (Core.vcBit_awaitSlices h (locReg_lt l) (slicesOf rows)) hc

end Sys2Proof.Machine
end

section
/-! SUPPORT. What the issue of an engine operation on a tag leaves of the machine (R99, R103, R181). -/

namespace Sys2Proof.Machine

variable {s t u v : State} {tag : Nat}

/-- The operation is outstanding on its tag, which is BUSY; rows, memory, scalar registers and the other tags stay. -/
structure State.Issues (tag : Nat) (op : EngineOp) (s u : State) : Prop where
  cur : u.cur = s.cur
  mem : u.mem = s.mem
  th : u.th = s.th
  rows : u.core.rows = s.core.rows
  ops : u.core.ops = s.core.ops ++ [op]
  busy : u.core.tagBusy tag = true
  failed : u.core.tagFailed tag = false
  others : ∀ k, k < 64 → k ≠ tag → u.core.tagBusy k = s.core.tagBusy k ∧ u.core.tagFailed k = s.core.tagFailed k

/-- An operation of the party that runs, as its issue leaves it. -/
def State.newOp (s : State) (pages : PageMap) (oc : BitVec 4) (kind : OpKind) : EngineOp :=
  { id := s.core.nextOp, home := s.cur.core.val, by_ := s.cur.who, ctxid := rootCtxid s.core.ptroot, pages := pages,
    past := s.forkPast oc, kind := kind }

theorem State.OnlyTlb.current (h : s.OnlyTlb t) : t.core = { s.core with tlb := t.core.tlb } := by
  have hcore := h.core s.cur.core
  simpa only [State.core, h.traces.cur] using hcore

theorem State.OnlyLands.current (h : s.OnlyLands t) : s.core.OnlyLands t.core := by
  have hcore := h.core s.cur.core
  simpa only [State.core, h.cur] using hcore

theorem State.OnlyLands.th (h : s.OnlyLands t) : t.th = s.th := by
  rw [State.th, State.th, h.cur]
  cases s.cur.who with
  | stream => rw [Core.th, Core.th, h.current.core]
  | hart i => rw [Core.th, Core.th, h.current.hart]

theorem State.forkPast_congr (hcur : t.cur = s.cur) (hpast : t.core.past = s.core.past) (oc : BitVec 4) :
    t.forkPast oc = s.forkPast oc := by
  simp only [State.forkPast, hcur, hpast]

/-- Translations, then the tag and the landed bits, then the operation itself. -/
theorem pushOp_issues (hv : s.OnlyTlb v) (hl : (v.modCore (·.takeTag tag)).OnlyLands t) (htag : tag < 64) (pages : PageMap)
    (oc : BitVec 4) (kind : OpKind) : State.Issues tag (s.newOp pages oc kind) s (t.pushOp pages oc kind) := by
  have hcur : t.cur = s.cur := hl.cur.trans hv.traces.cur
  have hlands := hl.current
  rw [State.core_modCore, hv.current] at hlands
  obtain ⟨hcore, -⟩ := hlands
  have hpush : (t.pushOp pages oc kind).core =
      { t.core with nextOp := t.core.nextOp + 1, ops := t.core.ops ++ [t.newOp pages oc kind] } := State.core_modCore ..
  have hop : t.newOp pages oc kind = s.newOp pages oc kind := by
    rw [State.newOp, State.newOp, State.forkPast_congr hcur (by rw [hcore]; rfl), hcur, hcore]
    rfl
  have hth : (t.pushOp pages oc kind).th = s.th := by
    have htake : (v.modCore (·.takeTag tag)).th = v.th :=
      State.th_congr rfl (by rw [State.core_modCore]; rfl) (by rw [State.core_modCore]; rfl)
    have hdone : (t.pushOp pages oc kind).th = t.th := State.th_congr rfl (by rw [hpush]) (by rw [hpush])
    rw [hdone, hl.th, htake, hv.traces.th]
  have htags (k : Nat) : (t.pushOp pages oc kind).core.tagBusy k = (s.core.takeTag tag).tagBusy k ∧
      (t.pushOp pages oc kind).core.tagFailed k = (s.core.takeTag tag).tagFailed k := by
    rw [hpush, hcore]
    exact ⟨rfl, rfl⟩
  refine ⟨hcur, hl.mem.trans hv.traces.mem, hth, by rw [hpush, hcore]; rfl, ?_, ?_, ?_, fun k hk hne => ?_⟩
  · rw [hpush, hop, hcore]
    rfl
  · rw [(htags tag).1, Core.tagBusy_takeTag _ _ htag]
    simp
  · rw [(htags tag).2, Core.tagFailed_takeTag _ _ htag]
    simp
  · rw [(htags k).1, (htags k).2, Core.tagBusy_takeTag _ _ hk, Core.tagFailed_takeTag _ _ hk]
    simp [hne]

end Sys2Proof.Machine
end

section
/-! SUPPORT. CPY, CPYM and CPYR at issue (R95, R103, R180, R181). -/

namespace Sys2Proof.Machine

variable {s : State}

section
variable {k : CopyKind} {d a n : Reg} {t : BitVec 6} {p sf m : BitVec 1}

/-- An end of a copy whose address or locator a register holds. -/
def endOf (sel : BitVec 1) (x : Word) : End := if sel = 1 then .pool x else .mem x.toNat

/-- How a copy reads its source (R181). -/
def CopyKind.readAcc (k : CopyKind) : Acc :=
  { kind := .load, source := 6, device := k == .cpy, align := if k = .cpyr then 4 else 1 }

/-- How a copy accesses its destination: a copy-reduce reads and writes it (R98, R181). -/
def CopyKind.writeAcc (k : CopyKind) : Acc :=
  { k.readAcc with kind := if k = .cpyr then .atomic else .store }

/-- What R181 refuses of a copy's descriptor. -/
def descBad (k : CopyKind) (w next : Word) (p m : BitVec 1) : Bool :=
  bitsOf w.toNat 38 26 != 0 || bitOf w.toNat 31 || (bitOf w.toNat 36 && k != .cpyr) || !countOk k (bitsOf w.toNat 0 31) ||
    (bitOf w.toNat 37 && m == 0) || (k == .cpym && p == 0) || (k == .cpym && bitsOf next.toNat 48 16 != 0)

/-- The destinations of a copy: the cores of the mask, or the issuer's own. -/
def State.copyDests (s : State) (k : CopyKind) (mask : Word) : List Nat :=
  if k = .cpym then maskCores s.dieNo.val mask else [s.cur.core.val]

/-- A copy that has passed its checks: the tag is taken, its slices have to land again, and it is outstanding. -/
def State.issueCopy (s : State) (tag : Nat) (h : Fin 8) (dests : List Nat) (dst : End) (count : Nat)
    (pages : PageMap) (oc : BitVec 4) (kind : OpKind) : State :=
  let u := s.modCore (·.takeTag tag)
  (match dst with
    | .pool l => u.issueInto h dests l (locRows l count)
    | .mem _ => u).pushOp pages oc kind

theorem endOf_eq (sel : BitVec 1) (x : Word) : (if sel = 1 then End.pool x else .mem x.toNat) = endOf sel x := rfl

theorem readAcc_eq (k : CopyKind) :
    ({ kind := .load, source := 6, device := k == .cpy, align := if k = .cpyr then 4 else 1 } : Acc) = k.readAcc := rfl

theorem writeAcc_eq (k : CopyKind) :
    ({ kind := if k = .cpyr then .atomic else .store, source := 6, device := k == .cpy,
       align := if k = .cpyr then 4 else 1 } : Acc) = k.writeAcc := rfl

theorem run_locCheck {l : Word} {range : Core → Bool} (hform : locForm l = true) (hregs : locRegs s.core l = true)
    (hrange : range s.core = true) : locCheck l range s = .ok ((), s) := by
  simp only [locCheck, Act.run_bind, Act.run_look, Act.run_trapIf, hform, hregs, hrange, Bool.not_true, Bool.false_eq_true,
    if_false]

/-- What R97 and R98 ask of an end's place lets `endCheck` pass. -/
theorem run_endCheck {e : End} {count : Nat} (h : endOk s.core k e count = true) : endCheck k e count s = .ok ((), s) := by
  cases e with
  | mem va => rfl
  | pool l =>
    simp only [endOk, Bool.and_eq_true, Bool.or_eq_true] at h
    obtain ⟨⟨⟨hform, hregs⟩, hrange⟩, hreduce⟩ := h
    have hview : (k == .cpyr && locView l == 2) = false := by
      obtain (h | h) | h := hreduce <;> simp_all
    have halign : (k == .cpyr && if locView l = 0 then locOff l % 4 != 0
        else locBoff l % 4 != 0 || locRlen l % 4 != 0) = false := by
      obtain (h | h) | h := hreduce <;> simp_all
    simp only [endCheck, Act.run_bind, run_locCheck (range := fun c => locRange c l count) hform hregs hrange,
      Act.run_trapIf, hview, halign, Bool.false_eq_true, if_false]

variable (hs : s.isStream = false) (hp : s.pfx = none) (hregs : copyRegsBeyond (k == .cpym) n m = false)
include hs hp hregs

theorem run_copyOp_busy (hb : s.core.tagBusy t.toNat = true) : copyOp k d a n t p sf m s = .error (.wait s) := by
  simp only [copyOp, hregs, Act.run_bind, Act.run_check_ok (Legal.cause_default hs hp), Act.run_look, hb, if_true,
    Act.run_stall]

theorem run_copyOp_malformed (hb : s.core.tagBusy t.toNat = false)
    (hbad : descBad k (s.getX n) (s.getX (n + 1)) p m = true) :
    copyOp k d a n t p sf m s = .error (.trap { cause := 0xB3 } s) := by
  rw [descBad] at hbad
  simp only [copyOp, hregs, Act.run_bind, Act.run_check_ok (Legal.cause_default hs hp), Act.run_look, hb, if_false,
    Bool.false_eq_true, Act.run_readX, Act.run_trapIf, hbad, if_true]

theorem run_copyOp_issued {s1 s2 s3 : State} {mb : Option Mbar} {ps pd : PageMap}
    (hb : s.core.tagBusy t.toNat = false) (hgood : descBad k (s.getX n) (s.getX (n + 1)) p m = false)
    (hcount : 0 < bitsOf (s.getX n).toNat 0 31)
    (hsrc : endOk s.core k (endOf sf (s.getX a)) (bitsOf (s.getX n).toNat 0 31) = true)
    (hdst : endOk s.core k (endOf p (s.getX d)) (bitsOf (s.getX n).toNat 0 31) = true)
    (hdests : k = .cpym → 1 ≤ (s.copyDests k (s.getX (n + 1))).length ∧ (s.copyDests k (s.getX (n + 1))).length ≤ 16 ∧
      ∀ i ∈ s.copyDests k (s.getX (n + 1)), s.sameGang i = true)
    (hmbar : s.copyMbarTo (m == 1) (bitOf (s.getX n).toNat 37) 6 (if k = .cpym then n + 2 else n + 1) = some (mb, s1))
    (hps : s1.endPagesTo k.readAcc (endOf sf (s.getX a)) (bitsOf (s.getX n).toNat 0 31) = some (ps, s2))
    (hpd : s2.endPagesTo k.writeAcc (endOf p (s.getX d)) (bitsOf (s.getX n).toNat 0 31) = some (pd, s3)) :
    copyOp k d a n t p sf m s = .ok ((), s3.issueCopy t.toNat s.cur.who.hartIx (s.copyDests k (s.getX (n + 1)))
      (endOf p (s.getX d)) (bitsOf (s.getX n).toNat 0 31) (ps ++ pd ++ mbarPages mb) (BitVec.ofNat 4 (bitsOf (s.getX n).toNat 32 4))
      (.copy k t.toNat s.cur.who.hartIx (endOf sf (s.getX a)) (endOf p (s.getX d)) (bitsOf (s.getX n).toNat 0 31)
        (bitOf (s.getX n).toNat 36) mb (s.copyDests k (s.getX (n + 1))) none)) := by
  obtain ⟨hform, hrun, hv⟩ := copyMbarTo_some hmbar
  have hgang : (k == .cpym && ((s.copyDests k (s.getX (n + 1))).isEmpty ||
      decide (16 < (s.copyDests k (s.getX (n + 1))).length) ||
      !(s.copyDests k (s.getX (n + 1))).all s.sameGang)) = false := by
    by_cases hk : k = .cpym
    · obtain ⟨hone, hmany, hsame⟩ := hdests hk
      rw [List.isEmpty_eq_false_iff.2 (List.ne_nil_of_length_pos hone), decide_eq_false (Nat.not_lt.2 hmany),
        List.all_eq_true.2 hsame]
      exact Bool.and_false _
    · simp [hk]
  rw [descBad] at hgood
  rw [State.copyDests] at hgang
  simp only [copyOp, hregs, Act.run_bind, Act.run_check_ok (Legal.cause_default hs hp), Act.run_look, hb, if_false,
    Bool.false_eq_true, Act.run_pure, Act.run_readX, Act.run_trapIf, hgood, endOf_eq, readAcc_eq, writeAcc_eq,
    run_endCheck hsrc, run_endCheck hdst, hform, hgang, hrun, run_endPages hps, run_endPages hpd, if_neg hcount.ne', id_eq,
    Act.run_upd]
  cases endOf p (s.getX d) <;> rfl

end

theorem descBad_iff {k : CopyKind} {w next : Word} {p m : BitVec 1} :
    descBad k w next p m = true ↔ bitsOf w.toNat 38 26 ≠ 0 ∨ bitOf w.toNat 31 = true ∨ (bitOf w.toNat 36 = true ∧ k ≠ .cpyr) ∨
      countOk k (bitsOf w.toNat 0 31) = false ∨ (bitOf w.toNat 37 = true ∧ m = 0) ∨
      (k = .cpym ∧ (p = 0 ∨ bitsOf next.toNat 48 16 ≠ 0)) := by
  simp only [descBad, Bool.or_eq_true, Bool.and_eq_true, bne_iff_ne, beq_iff_eq, Bool.not_eq_true', and_or_left, or_assoc]

/-! ## What an issued copy leaves -/

theorem pushOp_harts (s : State) (pages : PageMap) (oc : BitVec 4) (kind : OpKind) (i : Fin 192) :
    (s.pushOp pages oc kind).cores[i].harts = s.cores[i].harts := by
  by_cases h : i = s.cur.core
  · subst h
    have hcore : (s.pushOp pages oc kind).core =
        { s.core with nextOp := s.core.nextOp + 1, ops := s.core.ops ++ [s.newOp pages oc kind] } := State.core_modCore ..
    exact (congrArg Core.harts hcore :)
  · exact (congrArg Core.harts (State.core_setCore_other s _ h) :)

section
variable {v : State} {tag count : Nat} {h : Fin 8} {dests : List Nat} {dst : End} {pages : PageMap} {oc : BitVec 4}
  {kind : OpKind}

theorem issueCopy_awaits {l : Word} {c r : Nat} (hdst : dst = .pool l) (hview : locView l = 2) (hc : c ∈ dests)
    (hr : r ∈ locRows l count) (hslice : r / 2048 < 32) :
    (((v.issueCopy tag h dests dst count pages oc kind).cores[coreIx c].harts[h]).landed[(regIx (locReg l)).val]).getLsbD
      (r / 2048) = false := by
  subst hdst
  rw [State.issueCopy, pushOp_harts]
  exact issueInto_awaits hview hc hr hslice

variable (hv : s.OnlyTlb v)
include hv

theorem issueCopy_issues (htag : tag < 64) :
    State.Issues tag (s.newOp pages oc kind) s (v.issueCopy tag h dests dst count pages oc kind) := by
  cases dst with
  | mem va => exact pushOp_issues hv (.refl _) htag pages oc kind
  | pool l => exact pushOp_issues hv (issueInto_onlyLands ..) htag pages oc kind

theorem writesAll_takeTag : (v.modCore (·.takeTag tag)).writesAll = s.writesAll := by
  have hcore : (v.modCore (·.takeTag tag)).core = v.core.takeTag tag := State.core_modCore ..
  have hhart : (v.modCore (·.takeTag tag)).hart = s.hart := by
    rw [State.hart, hcore, ← hv.traces.hart]
    rfl
  have hstream : (v.modCore (·.takeTag tag)).isStream = s.isStream := by
    rw [State.isStream, State.isStream, ← hv.traces.cur]
    rfl
  have hvlmax : (v.modCore (·.takeTag tag)).core.vlmax = s.core.vlmax := by
    rw [hcore, hv.current]
    rfl
  simp only [State.writesAll, State.predicated, State.pfx, hhart, hstream, hvlmax]

theorem issueCopy_vc {l : Word} {c : Nat} (hdst : dst = .pool l) (hview : locView l = 2) (hc : c ∈ dests)
    (hrows : locRows l count ≠ []) (hall : s.writesAll = true) :
    ((v.issueCopy tag h dests dst count pages oc kind).cores[coreIx c].harts[h]).vcBit (locReg l) = false := by
  subst hdst
  rw [State.issueCopy, pushOp_harts]
  exact issueInto_vc hview hc hrows ((writesAll_takeTag hv).trans hall)

end

/-- A copy of some bytes into a view VREG whose locator passes writes some rows. -/
theorem locRows_ne_nil {k : CopyKind} {l : Word} {count : Nat} (hok : endOk s.core k (.pool l) count = true)
    (hview : locView l = 2) (hcount : 0 < count) : locRows l count ≠ [] := by
  have hrange : count % locBytes l = 0 := by
    simp only [endOk, locRange, hview, Bool.and_eq_true, beq_iff_eq] at hok
    exact hok.1.2.1
  have hbytes : 0 < locBytes l := Nat.two_pow_pos _
  have hrows : 0 < count / locBytes l := Nat.div_pos (Nat.le_of_dvd hcount (Nat.dvd_of_mod_eq_zero hrange)) hbytes
  rw [locRows, Ne, List.range'_eq_nil_iff]
  exact hrows.ne'

/-- The instruction of each kind is `copyOp` of it. -/
theorem exec_copy {d a n : Reg} {t : BitVec 6} {p sf m : BitVec 1} {q : Instr × CopyKind}
    (hq : q ∈ [(.cpy d a n t p sf m, .cpy), (.cpym d a n t p sf m, .cpym), (.cpyr d a n t p sf m, .cpyr)]) :
    exec q.1 s = finish (copyOp q.2 d a n t p sf m) s := by
  simp only [List.mem_cons, List.not_mem_nil, or_false] at hq
  obtain rfl | rfl | rfl := hq <;> rfl

theorem retires_finish {i : Instr} {m : Act Unit} {u : State} {P : State → Prop} (hexec : exec i s = finish m s)
    (hrun : m s = .ok ((), u)) (hcur : u.cur = s.cur) (hth : u.th = s.th) (hP : P u) : Retires i s P := by
  refine ⟨u, ?_, hcur, ?_, hP⟩
  · rw [hexec, finish, hrun]
  · rw [State.pc, State.pc, hth]

end Sys2Proof.Machine
end

section
/-! SUPPORT. A translation answers the same in a machine that has observed landed data (R52): observing touches neither TLBs nor
tables. -/

namespace Sys2Proof.Machine

variable {s t u : State}

/-- The machine with other cores. -/
def State.withCores (s : State) (cs : Vector Core 192) : State := { s with cores := cs }

/-- What observing landed data may change of a core (R52, R196). -/
structure Core.Alike (c d : Core) : Prop where
  core : d = { c with harts := d.harts, sdc := d.sdc, past := d.past, lates := d.lates }
  hart : ∀ h : Fin 8, d.harts[h] = { c.harts[h] with unseen := d.harts[h].unseen }

/-- What observing landed data may change of the machine. -/
structure State.Alike (s t : State) : Prop where
  state : t = s.withCores t.cores
  core : ∀ i : Fin 192, s.cores[i].Alike t.cores[i]

/-! ## Walks depend on the TLB alone of a core -/

section
variable {cs : Vector Core 192}

theorem walkLevel_withCores (s : State) (va l table : Nat) : walkLevel (s.withCores cs) va l table = walkLevel s va l table := by
  have hmem : (s.withCores cs).mem = s.mem := rfl
  have hbad (pa : Nat) : (s.withCores cs).sectorBad pa = s.sectorBad pa := rfl
  induction l generalizing table with
  | zero => rw [walkLevel, walkLevel, hmem, hbad]
  | succ l ih => rw [walkLevel, walkLevel, hmem, hbad]; simp only [ih]

theorem touchHbm_withCores (s : State) (use : CacheUse) (pa n : Nat) :
    (s.withCores cs).touchHbm use pa n = (s.touchHbm use pa n).withCores cs := by
  have hfold (l : List Nat) (t : State) : l.foldl (fun s k => s.modDie (dieIx (64 * k / 0x2000000000)) (·.touchLine use k))
      (t.withCores cs) =
      (l.foldl (fun s k => s.modDie (dieIx (64 * k / 0x2000000000)) (·.touchLine use k)) t).withCores cs := by
    induction l generalizing t with
    | nil => rfl
    | cons k l ih => exact ih (t.modDie (dieIx (64 * k / 0x2000000000)) (·.touchLine use k))
  cases use with
  | none => rfl
  | high => exact hfold _ s
  | low => exact hfold _ s

theorem walked_withCores (s : State) (a : Agent) (va : Nat) (w : Walk × List (Nat × Nat)) (r : Walk) :
    (s.withCores cs).walked a va w r = (s.walked a va w r).withCores cs := by
  have hfold (l : List (Nat × Nat)) (t : State) :
      l.foldl (fun s p => s.touchHbm .high (p.2 + 8 * tableIndex (p.1 - 1) va) 8) (t.withCores cs) =
      (l.foldl (fun s p => s.touchHbm .high (p.2 + 8 * tableIndex (p.1 - 1) va) 8) t).withCores cs := by
    induction l generalizing t with
    | nil => rfl
    | cons p l ih => rw [List.foldl_cons, List.foldl_cons, touchHbm_withCores, ih]
  unfold State.walked
  dsimp only
  rw [← hfold]
  rfl

variable (hc : ∀ i : Fin 192, cs[i].tlb = s.cores[i].tlb)
include hc

theorem tlbHit_withCores (a : Agent) (va : Nat) : (s.withCores cs).tlbHit a va = s.tlbHit a va := by
  unfold State.tlbHit
  cases a.core with
  | none => rfl
  | some c => simp only [Core.tlbFor, State.withCores, hc]

theorem tlbFor_withCores (i : Fin 192) (id : BitVec 16) (va : Nat) :
    (s.withCores cs).cores[i].tlbFor id va = s.cores[i].tlbFor id va := by
  simp only [Core.tlbFor, State.withCores, hc]

theorem walkFor_withCores (a : Agent) (va : Nat) :
    (s.withCores cs).walkFor a va = ((s.walkFor a va).1, (s.walkFor a va).2.withCores cs) := by
  have hdies : (s.withCores cs).dies = s.dies := rfl
  have hfresh : (s.withCores cs).fresh = (s.fresh.1, s.fresh.2.withCores cs) := rfl
  have hnext : ∀ i : Fin 192, cs[i].tlb = s.fresh.2.cores[i].tlb := hc
  have hpair (r : Walk) (t : State) : (r, t.withCores cs) = ((r, t).1, (r, t).2.withCores cs) := rfl
  unfold State.walkFor
  simp only [walkLevel_withCores, tlbFor_withCores hc, hdies, hfresh, tlbHit_withCores hc, tlbHit_withCores hnext,
    walked_withCores]
  generalize List.filter _ _ = others
  generalize walkLevel s va 3 (rootTable a.root) = w
  generalize s.tlbHit a va = hit
  generalize s.fresh.2.tlbHit a va = hitNext
  by_cases ho : others = []
  · rw [if_pos ho, if_pos ho]
    cases hit
    · exact hpair _ _
    · exact hpair _ _
  · rw [if_neg ho, if_neg ho]
    cases hitNext
    · exact hpair _ _
    · exact hpair _ _

theorem resolve_withCores (a : Agent) (va : Nat) :
    (s.withCores cs).resolve a va = ((s.resolve a va).1, (s.resolve a va).2.withCores cs) := by
  have hjoin : (s.withCores cs).joinable a va = s.joinable a va := by
    unfold State.joinable
    cases a.core with
    | none => rfl
    | some c => simp only [tlbHit_withCores hc]; rfl
  unfold State.resolve
  rw [hjoin]
  split
  · exact walkFor_withCores hc a va
  · split <;> rfl

end

/-! ## Translations -/

namespace Core.Alike

variable {c d e : Core}

theorem refl (c : Core) : c.Alike c := ⟨rfl, fun _ => rfl⟩

theorem tlb (h : c.Alike d) : d.tlb = c.tlb := by rw [h.core]

theorem flaws (h : c.Alike d) : d.flaws = c.flaws := by rw [h.core]

/-- An update of what observing does not touch, and that depends on nothing else. -/
theorem update (h : c.Alike d) {f : Core → Core} (hf : ∀ k : Core, f k = { k with tlb := (f k).tlb })
    (htlb : ∀ k l : Core, k.tlb = l.tlb → (f k).tlb = (f l).tlb) : (f c).Alike (f d) := by
  have hharts (k : Core) : (f k).harts = k.harts := by rw [hf]
  refine ⟨?_, fun i => ?_⟩
  · rw [hf d, hf c, htlb d c h.tlb, h.core]
  · simp only [hharts]
    exact h.hart i

end Core.Alike

namespace State.Alike

theorem modCoreAt (h : s.Alike t) (i : Fin 192) {f : Core → Core} (hf : ∀ k : Core, f k = { k with tlb := (f k).tlb })
    (htlb : ∀ k l : Core, k.tlb = l.tlb → (f k).tlb = (f l).tlb) : (s.modCoreAt i f).Alike (t.modCoreAt i f) := by
  refine ⟨?_, fun j => ?_⟩
  · rw [h.state]
    rfl
  · by_cases hij : j = i
    · subst hij
      rw [State.cores_modCoreAt_same, State.cores_modCoreAt_same]
      exact (h.core j).update hf htlb
    · rw [State.cores_modCoreAt_other _ _ hij, State.cores_modCoreAt_other _ _ hij]
      exact h.core j

theorem current (h : s.Alike t) : s.core.Alike t.core := by
  have hcur : t.cur = s.cur := by rw [h.state]; rfl
  simpa only [State.core, hcur] using h.core s.cur.core

theorem hart (h : s.Alike t) : t.hart = { s.hart with unseen := t.hart.unseen } := by
  have hcur : t.cur = s.cur := by rw [h.state]; rfl
  simpa only [State.hart, hcur] using h.current.hart s.cur.who.hartIx

theorem agent (h : s.Alike t) : t.agent = s.agent := by
  have hcur : t.cur = s.cur := by rw [h.state]; rfl
  have hsys : t.sys = s.sys := by rw [State.sys, State.sys, State.isStream, State.isStream, hcur, h.hart]
  have hroot : t.core.ptroot = s.core.ptroot := by rw [h.current.core]
  rw [State.agent, State.agent, hcur, hsys, hroot]

theorem resolve (h : s.Alike t) (a : Agent) (va : Nat) :
    (t.resolve a va).1 = (s.resolve a va).1 ∧ (s.resolve a va).2.Alike (t.resolve a va).2 := by
  have hres := resolve_withCores (cs := t.cores) (fun i => (h.core i).tlb) a va
  rw [← h.state] at hres
  rw [hres]
  refine ⟨rfl, rfl, fun i => ?_⟩
  have hcores : (s.resolve a va).2.cores[i] = s.cores[i] := by rw [cores_resolve]
  rw [hcores]
  exact h.core i

end State.Alike

end Sys2Proof.Machine
end

section
/-! SUPPORT. Ranges and barrier objects that a machine translates, translated in one that has observed landed data. -/

namespace Sys2Proof.Machine

variable {s t u : State} {acc : Acc}

theorem copyMbarTo_iff {m mbp : Bool} {source : Nat} {r : Reg} {q : Option Mbar × State} :
    s.copyMbarTo m mbp source r = some q ↔ copyMbar m mbp source r s = .ok q := by
  rw [State.copyMbarTo]
  split
  · next p hp => rw [hp, Option.some.injEq, Except.ok.injEq]
  · next e he => simp [he]

theorem walkerGate_none {vas : List Nat} (h : walkerGate vas s = .ok ((), t)) : s.lateWalk vas = none := by
  rw [walkerGate] at h
  split at h
  · assumption
  · exact absurd h (by simp)

namespace State.Alike

theorem cur (h : s.Alike t) : t.cur = s.cur := by rw [h.state]; rfl

theorem behindDown (h : s.Alike t) (pa : Nat) : t.behindDown pa = s.behindDown pa := by rw [h.state]; rfl

theorem fabric (h : s.Alike t) (pa : Nat) : t.fabric pa = s.fabric pa := by rw [h.state]; rfl

theorem unitFault (h : s.Alike t) {a : Agent} {pa : Nat} (hs : s.unitFault a pa = none) : t.unitFault a pa = none := by
  unfold State.unitFault at hs ⊢
  cases ha : a.core with
  | none => rfl
  | some c =>
    simp only [ha, (h.core c).flaws] at hs ⊢
    cases hr : regionOf pa with
    | port n =>
      simp only [hr, ite_eq_right_iff, reduceCtorEq, imp_false] at hs ⊢
      exact hs
    | hbm =>
      simp only [hr, ite_eq_right_iff, reduceCtorEq, imp_false] at hs ⊢
      exact hs
    | _ => rfl

/-- A TLB that takes an entry. -/
def tlbTakes (e : TlbEntry) (k : Core) : Core := if k.tlb.contains e then k else { k with tlb := (e :: k.tlb).take 192 }

theorem takeEntry (h : s.Alike t) (i : Fin 192) (e : TlbEntry) :
    (s.modCoreAt i (tlbTakes e)).Alike (t.modCoreAt i (tlbTakes e)) := by
  refine h.modCoreAt i (fun k => ?_) fun k l hkl => ?_ <;> unfold tlbTakes
  · split <;> rfl
  · rw [hkl]
    split <;> simp [hkl]

theorem translate (h : s.Alike t) {a : Agent} {va : Nat} {x : Xlat} (hs : s.translate a acc va = .ok x u) :
    ∃ v, t.translate a acc va = .ok x v ∧ u.Alike v := by
  obtain ⟨hw, hr⟩ := h.resolve a va
  unfold State.translate at hs ⊢
  dsimp only at hs ⊢
  rw [hw]
  generalize (s.resolve a va).1 = w at hs ⊢
  generalize (s.resolve a va).2 = p at hs hr
  generalize (t.resolve a va).2 = q at hr ⊢
  split at hs
  · exact absurd hs (by simp)
  next hva =>
  split at hs
  · exact absurd hs (by simp)
  next halign =>
  rw [if_neg hva, if_neg halign]
  split at hs
  case h_4 level e epa =>
    split at hs
    · exact absurd hs (by simp)
    next hperm =>
    split at hs
    · exact absurd hs (by simp)
    next hclass =>
    split at hs
    · exact absurd hs (by simp)
    next hthere =>
    split at hs
    · exact absurd hs (by simp)
    next hup =>
    split at hs
    · exact absurd hs (by simp)
    next hunit =>
    simp only [if_neg hclass, if_neg hthere, hr.behindDown, if_neg hup, hr.unitFault hunit, hr.fabric]
    obtain ⟨rfl, rfl⟩ := XlatResult.ok.inj hs
    refine ⟨_, rfl, ?_⟩
    cases a.core with
    | none => exact hr
    | some c => exact hr.takeEntry c _
  all_goals exact absurd hs (by simp)

theorem mapsTo (h : s.Alike t) {vas : List Nat} {xs : List Xlat} (hs : s.mapsTo acc vas = some (xs, u)) :
    ∃ v, t.mapsTo acc vas = some (xs, v) ∧ u.Alike v := by
  induction vas generalizing s t xs with
  | nil =>
    obtain ⟨rfl, rfl⟩ := Prod.mk.inj (Option.some.inj hs)
    exact ⟨t, rfl, h⟩
  | cons va vas ih =>
    rw [State.mapsTo] at hs
    split at hs
    · next x p hp =>
      obtain ⟨r, hr, hrest⟩ := Option.map_eq_some_iff.1 hs
      obtain ⟨rfl, rfl⟩ := Prod.mk.inj hrest
      obtain ⟨q, hq, hpq⟩ := h.translate hp
      obtain ⟨v, hv, hrv⟩ := ih hpq hr
      refine ⟨v, ?_, hrv⟩
      rw [State.mapsTo, h.agent, hq]
      dsimp only
      rw [hv]
      rfl
    · exact absurd hs (by simp)

theorem lateWalk (h : s.Alike t) (vas : List Nat) : t.lateWalk vas = s.lateWalk vas := by
  have hhit (va : Nat) : t.tlbHit s.agent va = s.tlbHit s.agent va := by
    rw [h.state]
    exact tlbHit_withCores (fun i => (h.core i).tlb) _ _
  have hdie : t.dies[t.dieNo] = s.dies[s.dieNo] := by
    have hdies : t.dies = s.dies := by rw [h.state]; rfl
    simp only [State.dieNo, hdies, h.cur]
  have hroot : t.core.ptroot = s.core.ptroot := by rw [h.current.core]
  unfold State.lateWalk
  dsimp only
  rw [hdie, hroot, h.agent]
  simp only [hhit]

theorem mapsRangeTo (h : s.Alike t) {va n : Nat} {p : PageMap} (hs : s.mapsRangeTo acc va n = some (p, u)) :
    ∃ v, t.mapsRangeTo acc va n = some (p, v) ∧ u.Alike v := by
  rw [State.mapsRangeTo] at hs
  split at hs
  · next hgate =>
    obtain ⟨r, hr, hq⟩ := Option.map_eq_some_iff.1 hs
    obtain ⟨rfl, rfl⟩ := Prod.mk.inj hq
    obtain ⟨v, hv, hrv⟩ := h.mapsTo hr
    refine ⟨v, ?_, hrv⟩
    rw [State.mapsRangeTo, h.lateWalk, if_pos hgate, hv]
    rfl
  · exact absurd hs (by simp)

theorem rangesTo (h : s.Alike t) {n : Nat} {vas : List Nat} {p : PageMap} (hs : s.rangesTo acc n vas = some (p, u)) :
    ∃ v, t.rangesTo acc n vas = some (p, v) ∧ u.Alike v := by
  induction vas generalizing s t p with
  | nil =>
    obtain ⟨rfl, rfl⟩ := Prod.mk.inj (Option.some.inj hs)
    exact ⟨t, rfl, h⟩
  | cons va vas ih =>
    rw [State.rangesTo] at hs
    split at hs
    · next r hr =>
      obtain ⟨q, hq, hrest⟩ := Option.map_eq_some_iff.1 hs
      obtain ⟨rfl, rfl⟩ := Prod.mk.inj hrest
      obtain ⟨v, hv, hrv⟩ := h.mapsRangeTo hr
      obtain ⟨w, hw, hqw⟩ := ih hrv hq
      refine ⟨w, ?_, hqw⟩
      rw [State.rangesTo, hv]
      dsimp only
      rw [hw]
      rfl
    · exact absurd hs (by simp)

theorem th (h : s.Alike t) : t.th = s.th := by
  rw [State.th, State.th, h.cur]
  cases s.cur.who with
  | stream => rw [Core.th, Core.th, h.current.core]
  | hart i => rw [Core.th, Core.th, h.current.hart]

theorem getX (h : s.Alike t) (r : Reg) : t.getX r = s.getX r := by rw [State.getX, State.getX, h.th]

theorem mbarVa (h : s.Alike t) {source va : Nat} {k : AccKind} {b : Mbar} (hs : mbarVa source va k s = .ok (b, u)) :
    ∃ v, mbarVa source va k t = .ok (b, v) ∧ u.Alike v := by
  have hsys : t.sys = s.sys := congrArg Agent.sys h.agent
  obtain ⟨hw, hr⟩ := h.resolve s.agent va
  unfold Machine.mbarVa at hs ⊢
  dsimp only at hs ⊢
  rw [h.agent, hw, hsys]
  generalize (s.resolve s.agent va).1 = w at hs ⊢
  generalize (s.resolve s.agent va).2 = p at hs hr
  generalize (t.resolve s.agent va).2 = q at hr ⊢
  split at hs
  · exact absurd hs (by simp)
  next hva =>
  split at hs
  · exact absurd hs (by simp)
  next halign =>
  rw [if_neg hva, if_neg halign]
  split at hs
  case h_4 level e epa =>
    split at hs
    · exact absurd hs (by simp)
    next hperm =>
    split at hs
    next hplace =>
      obtain ⟨rfl, rfl⟩ := Prod.mk.inj (Except.ok.inj hs)
      simp only [if_pos hplace]
      exact ⟨q, rfl, hr⟩
    · exact absurd hs (by simp)
  all_goals exact absurd hs (by simp)

theorem mbarPool (h : s.Alike t) {l : Word} {b : Mbar} (hs : mbarPool l s = .ok (b, u)) :
    ∃ v, mbarPool l t = .ok (b, v) ∧ u.Alike v := by
  have hsb : t.core.sb = s.core.sb := by rw [h.current.core]; rfl
  obtain rfl := mbarPool_state hs
  simp only [Machine.mbarPool, Act.run_bind, Act.run_look, Act.run_trapIf, hsb] at hs ⊢
  generalize (locView l != 0 || bitsOf l.toNat 40 22 != 0 || locOff l % 16 != 0 ||
    Decidable.decide (65536 * u.core.sb < locOff l + 16)) = refused at hs ⊢
  cases refused with
  | true => exact absurd hs (by simp)
  | false =>
    obtain ⟨rfl, -⟩ := Prod.mk.inj (Except.ok.inj hs)
    exact ⟨t, rfl, h⟩

theorem copyMbarTo (h : s.Alike t) {m mbp : Bool} {source : Nat} {r : Reg} {b : Option Mbar}
    (hs : s.copyMbarTo m mbp source r = some (b, u)) : ∃ v, t.copyMbarTo m mbp source r = some (b, v) ∧ u.Alike v := by
  rw [copyMbarTo_iff] at hs
  simp only [copyMbarTo_iff]
  cases m with
  | false =>
    obtain ⟨rfl, rfl⟩ := Prod.mk.inj (Except.ok.inj hs)
    exact ⟨t, rfl, h⟩
  | true =>
    cases mbp with
    | true =>
      have hpool : (Machine.mbarPool (s.getX r) >>= fun b => pure (some b)) s = .ok (b, u) := hs
      obtain ⟨o, w, hobj, hpure⟩ := Act.bind_ok hpool
      obtain ⟨rfl, rfl⟩ := Prod.mk.inj (Except.ok.inj hpure)
      obtain ⟨v, hv, hwv⟩ := h.mbarPool hobj
      refine ⟨v, ?_, hwv⟩
      have hrun : (Machine.mbarPool (t.getX r) >>= fun b => pure (some b)) t = .ok (some o, v) := by
        rw [Act.run_bind, h.getX, hv]
        rfl
      exact hrun
    | false =>
      have hva : (walkerGate [(s.getX r).toNat] >>= fun _ =>
          Machine.mbarVa source (s.getX r).toNat .store >>= fun b => pure (some b)) s = .ok (b, u) := hs
      obtain ⟨_, p, hgate, hva⟩ := Act.bind_ok hva
      obtain ⟨o, w, hobj, hpure⟩ := Act.bind_ok hva
      obtain ⟨rfl, rfl⟩ := Prod.mk.inj (Except.ok.inj hpure)
      have hwalk := walkerGate_none hgate
      obtain rfl := walkerGate_state hgate
      obtain ⟨v, hv, hwv⟩ := h.mbarVa hobj
      refine ⟨v, ?_, hwv⟩
      have hrun : (walkerGate [(t.getX r).toNat] >>= fun _ =>
          Machine.mbarVa source (t.getX r).toNat .store >>= fun b => pure (some b)) t = .ok (some o, v) := by
        rw [h.getX, Act.run_bind, Act.run_walkerGate ((h.lateWalk _).trans hwalk)]
        dsimp only
        rw [Act.run_bind, hv]
        rfl
      exact hrun

end State.Alike

end Sys2Proof.Machine
end

section
/-! SUPPORT. CPYG at issue (R103, R182). -/

namespace Sys2Proof.Machine

variable {s t u : State}

/-! ## The machine that has observed the index register -/

/-- Observing landed data leaves what translations and rows depend on. -/
theorem observe_alike (s : State) (regs : List Nat) : s.Alike (s.observe regs) := by
  obtain ⟨h, l, p, q, hh, hobs⟩ := observe_frame s regs
  rw [hobs]
  refine ⟨rfl, fun i => ?_⟩
  by_cases hi : i = s.cur.core
  · subst hi
    have hcore : (s.setCore { s.core with
        harts := s.core.harts.set s.cur.who.hartIx h, sdc := l, past := p, lates := q }).cores[s.cur.core] =
        { s.core with harts := s.core.harts.set s.cur.who.hartIx h, sdc := l, past := p, lates := q } := State.core_setCore ..
    rw [hcore]
    refine ⟨rfl, fun j => ?_⟩
    by_cases hj : j = s.cur.who.hartIx
    · subst hj
      simpa [State.hart, State.core] using hh
    · simp [Fin.val_ne_of_ne (Ne.symm hj), State.core]
  · rw [State.core_setCore_other s _ hi]
    exact .refl _

theorem State.Alike.row (h : s.Alike t) (j : Nat) : t.row j = s.row j := by
  rw [State.row, State.row, State.coreRow, State.coreRow, h.cur, h.current.core]
  rfl

theorem State.Alike.abnFails (h : s.Alike t) (rows : List Nat) (reg : Nat) (k : AbnKind) :
    t.abnFails rows reg k = s.abnFails rows reg k := by
  have helem (w j : Nat) : t.elem reg w j = s.elem reg w j := by
    rw [State.elem, State.elem, h.row, h.current.core]
    rfl
  have hvc : t.hart.vcBit reg = s.hart.vcBit reg := by rw [h.hart]; rfl
  unfold State.abnFails
  simp only [hvc, helem]

theorem State.Alike.chk_row (h : s.Alike t) (hs : s.sound = true) (j : Nat) : (t.row j).chk = 0 := by
  rw [h.row]
  refine Core.chk_row ?_ _
  simp only [State.sound, Bool.and_eq_true] at hs
  exact hs.1

theorem run_indexCheck {rows : List Nat} (h : ∀ j ∈ rows, (s.row j).chk = 0) : indexCheck rows s = .ok ((), s) := by
  have hnone : (rows.filter fun j => (s.row j).chk != 0) = [] := List.filter_eq_nil_iff.2 fun j hj => by simp [h j hj]
  simp only [indexCheck, hnone]

theorem run_landedAll {regs : List Nat} (h : s.unlanded regs = []) : landedAll regs s = .ok ((), s.observe regs) := by
  simp only [landedAll, Act.run_bind, landedGate_ok h, if_true, Act.run_pure]

/-! ## The pages of the rows -/

/-- How a CPYG reads a row. -/
def copygAcc : Acc := { kind := .load, source := 5 }

theorem State.OnlyTlb.rangesTo {acc : Acc} {n : Nat} {vas : List Nat} {p : PageMap}
    (h : s.rangesTo acc n vas = some (p, t)) : s.OnlyTlb t := by
  induction vas generalizing s p with
  | nil => obtain ⟨-, rfl⟩ := Prod.mk.inj (Option.some.inj h); exact .refl s
  | cons va vas ih =>
    rw [State.rangesTo] at h
    split at h
    · next r hr =>
      obtain ⟨q, hq, hrest⟩ := Option.map_eq_some_iff.1 h
      obtain ⟨-, rfl⟩ := Prod.mk.inj hrest
      exact (OnlyTlb.mapsRangeTo hr).trans (ih hq)
    · exact absurd h (by simp)

theorem copygRows_ok {n : Nat} {rows : List (Nat × Nat)} {p : PageMap}
    (h : s.rangesTo copygAcc n (rows.map (·.2)) = some (p, t)) : copygRows n rows s = (rows, p, t, none) := by
  induction rows generalizing s p with
  | nil => obtain ⟨rfl, rfl⟩ := Prod.mk.inj (Option.some.inj h); rfl
  | cons q rows ih =>
    rw [List.map_cons, State.rangesTo] at h
    split at h
    · next r hr =>
      obtain ⟨v, hv, hrest⟩ := Option.map_eq_some_iff.1 h
      obtain ⟨rfl, rfl⟩ := Prod.mk.inj hrest
      have hrange : xlatRange { kind := .load, source := 5 } q.2 n s = .ok (r.1, r.2) := run_xlatRange hr
      simp only [copygRows, hrange, ih hv]
    · exact absurd h (by simp)

/-! ## What the issue leaves -/

theorem issueCopyg_issues {v : State} {tag rlen : Nat} {oc : BitVec 4} {l : Word} {rows : List (Nat × Nat)} {pages : PageMap}
    {mb : Option Mbar} (hv : s.OnlyTlb v) (htag : tag < 64) :
    State.Issues tag (s.newOp (pages ++ mbarPages mb) oc (.copyg tag s.cur.who.hartIx l rlen rows mb)) s
      (v.issueCopyg tag oc l rlen rows pages mb) := by
  rw [← hv.traces.cur]
  exact pushOp_issues hv (issueInto_onlyLands ..) htag _ oc _

theorem pushOp_hart (s : State) (pages : PageMap) (oc : BitVec 4) (kind : OpKind) : (s.pushOp pages oc kind).hart = s.hart := by
  have hharts := pushOp_harts s pages oc kind s.cur.core
  exact congrArg (fun l => l[s.cur.who.hartIx]) hharts

theorem issueCopyg_awaits {v : State} {tag rlen : Nat} {oc : BitVec 4} {l : Word} {rows : List (Nat × Nat)} {pages : PageMap}
    {mb : Option Mbar} (hview : locView l = 2) {q : Nat × Nat} (hq : q ∈ rows) (hslice : (locRow0 l + q.1) / 2048 < 32) :
    ((v.issueCopyg tag oc l rlen rows pages mb).hart.landed[(regIx (locReg l)).val]).getLsbD ((locRow0 l + q.1) / 2048)
      = false := by
  have hawaits := issueInto_awaits (s := v.modCore (·.takeTag tag)) (h := v.cur.who.hartIx) (dests := [v.cur.core.val])
    hview (List.mem_singleton.2 rfl) (List.mem_map_of_mem (f := fun r => locRow0 l + r.1) hq) hslice
  simp only [coreIx_val] at hawaits
  have hcur := (issueInto_onlyLands (v.modCore (·.takeTag tag)) v.cur.who.hartIx [v.cur.core.val] l
    (rows.map fun r => locRow0 l + r.1)).cur
  have htake : (v.modCore (·.takeTag tag)).cur = v.cur := rfl
  rw [State.issueCopyg, pushOp_hart]
  simpa only [State.hart, State.core, hcur, htake] using hawaits

/-- One vector instruction is done: what a replay has still to do changes, and nothing else. -/
theorem replayStep_frame (s : State) :
    (s.modHart Hart.replayStep).core = { s.core with harts := (s.modHart Hart.replayStep).core.harts } ∧
      (s.modHart Hart.replayStep).hart.landed = s.hart.landed ∧ (s.modHart Hart.replayStep).th = s.th := by
  have hcore : (s.modHart Hart.replayStep).core = s.core.modHart s.cur.who.hartIx Hart.replayStep := State.core_modCore ..
  have hstep (h : Hart) : h.replayStep.landed = h.landed ∧ h.replayStep.th = h.th := by
    unfold Hart.replayStep
    split <;> exact ⟨rfl, rfl⟩
  have hcur : (s.modHart Hart.replayStep).cur = s.cur := rfl
  refine ⟨by rw [hcore]; rfl, ?_, ?_⟩
  · rw [State.hart, hcore, State.hart]
    simp [Core.modHart, (hstep _).1]
  · rw [State.th, State.th, hcore, hcur]
    cases hw : s.cur.who with
    | stream => rfl
    | hart i => simp [Core.th, Core.modHart, Who.hartIx, (hstep _).2]

/-- What the issue of a CPYG leaves of the machine before it observed its index register. -/
theorem copyg_leaves {regs : List Nat} {v : State} {tag rlen : Nat} {oc : BitVec 4} {l : Word} {rows : List (Nat × Nat)}
    {pages : PageMap} {mb : Option Mbar} (hv : (s.observe regs).OnlyTlb v) (htag : tag < 64) :
    State.Issues tag
      { s.newOp (pages ++ mbarPages mb) oc (.copyg tag s.cur.who.hartIx l rlen rows mb) with
        past := (s.observe regs).forkPast oc } s
      ((v.issueCopyg tag oc l rlen rows pages mb).modHart Hart.replayStep) := by
  have halike := observe_alike s regs
  have hissues := issueCopyg_issues (oc := oc) (l := l) (rlen := rlen) (rows := rows) (pages := pages) (mb := mb) hv htag
  generalize v.issueCopyg tag oc l rlen rows pages mb = u at hissues ⊢
  obtain ⟨hcore, -, hth⟩ := replayStep_frame u
  have hmem : (s.observe regs).mem = s.mem := by rw [halike.state]; rfl
  have hop : (s.observe regs).newOp (pages ++ mbarPages mb) oc (.copyg tag (s.observe regs).cur.who.hartIx l rlen rows mb) =
      { s.newOp (pages ++ mbarPages mb) oc (.copyg tag s.cur.who.hartIx l rlen rows mb) with
        past := (s.observe regs).forkPast oc } := by
    rw [State.newOp, State.newOp, halike.cur, halike.current.core]
  have hbusy (k : Nat) : (u.modHart Hart.replayStep).core.tagBusy k = u.core.tagBusy k := by rw [hcore]; rfl
  have hfailed (k : Nat) : (u.modHart Hart.replayStep).core.tagFailed k = u.core.tagFailed k := by rw [hcore]; rfl
  have hbusyBefore (k : Nat) : (s.observe regs).core.tagBusy k = s.core.tagBusy k := by rw [halike.current.core]; rfl
  have hfailedBefore (k : Nat) : (s.observe regs).core.tagFailed k = s.core.tagFailed k := by
    rw [halike.current.core]; rfl
  refine ⟨hissues.cur.trans halike.cur, hissues.mem.trans hmem, (hth.trans hissues.th).trans halike.th, ?_, ?_,
    (hbusy _).trans hissues.busy, (hfailed _).trans hissues.failed, fun k hk hne => ?_⟩
  · rw [hcore]
    refine hissues.rows.trans ?_
    rw [halike.current.core]
  · rw [hcore]
    refine hissues.ops.trans ?_
    rw [hop, halike.current.core]
  · obtain ⟨hb, hf⟩ := hissues.others k hk hne
    rw [hbusy, hfailed, hb, hf]
    exact ⟨hbusyBefore k, hfailedBefore k⟩

/-! ## The instruction -/

/-- What CPYG asks of the registers that it names (R145, R182). -/
def copygLegal (a imm : Reg) (w m : BitVec 1) : Legal :=
  { pred := true, rsv := copyRegsBeyond true a m, vregs := [imm.toNat], vreads := [imm.toNat], width := indexWidth w }

/-- The bytes of a row that a CPYG moves. -/
def copygLen (l : Word) : Nat := if locView l = 2 then locBytes l else locRlen l

/-- The rows that a CPYG issues, with the address of each. -/
def State.copygAddrs (s : State) (a imm : Reg) (w : BitVec 1) : List (Nat × Nat) :=
  s.accessRows.map fun j =>
    (j, ((s.getX a).toNat + s.elem imm.toNat (indexWidth w) j * bitsOf (s.getX (a + 1)).toNat 0 48) % 2 ^ 64)

theorem copygDesc_iff {x : Nat} {mbp : Bool} {m : BitVec 1} :
    (bitsOf x 53 11 != 0 || (mbp && m == 0)) = true ↔ bitsOf x 53 11 ≠ 0 ∨ (mbp = true ∧ m = 0) := by
  simp only [Bool.or_eq_true, Bool.and_eq_true, bne_iff_ne, beq_iff_eq]

section
variable {d a imm : Reg} {t : BitVec 6} {w m : BitVec 1}
  (hready : s.vecReady (copygLegal a imm w m) [imm.toNat] [(imm.toNat, .int (indexWidth w))] = true)
include hready

theorem copyg_ready : (copygLegal a imm w m).cause s = none ∧ s.unlanded [imm.toNat] = [] ∧
    s.abnFails s.active imm.toNat (.int (indexWidth w)) = false ∧ s.sound = true := by
  simp only [State.vecReady, Bool.and_eq_true, Option.isNone_iff_eq_none, List.isEmpty_iff, List.all_cons, List.all_nil,
    Bool.and_true, Bool.not_eq_true'] at hready
  obtain ⟨⟨⟨⟨hlegal, hlanded⟩, habn⟩, hsound⟩, -⟩ := hready
  exact ⟨hlegal, hlanded, habn, hsound⟩

theorem exec_cpyg_busy (hb : s.core.tagBusy t.toNat = true) : exec (.cpyg d a imm t w m) s = .next s.sleepHere := by
  obtain ⟨hlegal, -⟩ := copyg_ready hready
  rw [copygLegal] at hlegal
  show execCpyg d a imm t w m s = _
  simp only [execCpyg, finish, Act.run_bind, Act.run_check_ok hlegal, Act.run_look, hb, if_true, Act.run_stall]
  rfl

theorem exec_cpyg_malformed (hb : s.core.tagBusy t.toNat = false)
    (hbad : (bitsOf (s.getX (a + 1)).toNat 53 11 != 0 || (bitOf (s.getX (a + 1)).toNat 52 && m == 0)) = true) :
    Traps (.cpyg d a imm t w m) s { cause := 0xB3 } := by
  obtain ⟨hlegal, -⟩ := copyg_ready hready
  rw [copygLegal] at hlegal
  show execCpyg d a imm t w m s = _
  simp only [execCpyg, finish, Act.run_bind, Act.run_check_ok hlegal, Act.run_look, hb, if_false, Bool.false_eq_true,
    Act.run_readX, Act.run_trapIf, hbad, if_true]
  rfl

theorem exec_cpyg_issued {s1 s2 : State} {mb : Option Mbar} {pages : PageMap} (hb : s.core.tagBusy t.toNat = false)
    (hgood : (bitsOf (s.getX (a + 1)).toNat 53 11 != 0 || (bitOf (s.getX (a + 1)).toNat 52 && m == 0)) = false)
    (hform : locForm (s.getX d) = true) (hregs : locRegs s.core (s.getX d) = true)
    (hrange : copygRange (s.getX d) s.active s.core = true)
    (hmbarForm : mbarForm (m == 1) (bitOf (s.getX (a + 1)).toNat 52) (a + 2) s = .ok ((), s))
    (hmbar : copyMbar (m == 1) (bitOf (s.getX (a + 1)).toNat 52) 5 (a + 2) (s.observe [imm.toNat]) = .ok (mb, s1))
    (hpages : s1.rangesTo copygAcc (copygLen (s.getX d)) ((s.copygAddrs a imm w).map (·.2)) = some (pages, s2))
    (hrows : s.copygAddrs a imm w ≠ []) :
    exec (.cpyg d a imm t w m) s = .next ((s2.issueCopyg t.toNat
      (BitVec.ofNat 4 (bitsOf (s.getX (a + 1)).toNat 48 4)) (s.getX d) (copygLen (s.getX d)) (s.copygAddrs a imm w) pages mb).modHart Hart.replayStep).retire := by
  obtain ⟨hlegal, hlanded, habn, hsound⟩ := copyg_ready hready
  have halike := observe_alike s [imm.toNat]
  have habnRun : abnCheck s.active [(imm.toNat, .int (indexWidth w))] (s.observe [imm.toNat]) =
      .ok ((), s.observe [imm.toNat]) :=
    abnCheck_ok (by simp [halike.abnFails, habn])
  have hindex : indexCheck (s.active.filter s.pendingRow) (s.observe [imm.toNat]) = .ok ((), s.observe [imm.toNat]) :=
    run_indexCheck fun j _ => halike.chk_row hsound j
  have hcopyg : copygRows (if locView (s.getX d) = 2 then locBytes (s.getX d) else locRlen (s.getX d))
      ((s.active.filter s.pendingRow).map fun j =>
        (j, ((s.getX a).toNat + s.elem imm.toNat (indexWidth w) j * bitsOf (s.getX (a + 1)).toNat 0 48) % 2 ^ 64)) s1 =
      (s.copygAddrs a imm w, pages, s2, none) := copygRows_ok hpages
  rw [copygLegal] at hlegal
  show execCpyg d a imm t w m s = _
  simp only [execCpyg, finish, Act.run_bind, Act.run_check_ok hlegal, Act.run_look, hb, if_false, Bool.false_eq_true,
    Act.run_readX, Act.run_trapIf, hgood, id_eq,
    run_locCheck (range := copygRange (s.getX d) s.active) hform hregs hrange, hmbarForm, run_landedAll hlanded, habnRun,
    hindex, hmbar, hcopyg, if_neg hrows]
  rfl

end

end Sys2Proof.Machine
end

section
/-! The issue of copies (O32). -/

open Sys2Proof Sys2Proof.Machine

/-- Settles O32: an issue of CPY, CPYM or CPYR, and of CPYG, is run check by check; translations change a TLB at most, and so the
tag, the landed bits and the new operation are all that is left. CPYG's checks are taken over to the machine that has observed
the index register. -/
theorem copyIssue : Obligations.CopyIssue := by
  unfold Obligations.CopyIssue
  refine ⟨?copies, ?gathering⟩
  case copies =>
    intro s s1 s2 s3 d a n t P S m mb ps pd hs hp w next count mbp src dst q hq hregs
    have hexec := exec_copy (s := s) hq
    refine ⟨fun hb => ?_, fun hb => ⟨fun hbad => ?_, fun hgood hcount hsrc hdst => ?_⟩⟩
    · rw [hexec, finish, run_copyOp_busy hs hp hregs hb]
      rfl
    · rw [Traps, hexec, finish, run_copyOp_malformed hs hp hregs hb (descBad_iff.2 hbad)]
      rfl
    · intro dests hdests hmbar hps hpd
      have hv : s.OnlyTlb s3 := ((copyMbarTo_some hmbar).2.2.trans (.endPagesTo hps)).trans (.endPagesTo hpd)
      have hrun := run_copyOp_issued hs hp hregs hb (Bool.eq_false_iff.2 (mt descBad_iff.1 hgood)) hcount hsrc hdst hdests hmbar
        hps hpd
      have hissues := issueCopy_issues (h := s.cur.who.hartIx) (dests := dests) (dst := dst) (count := count)
        (pages := ps ++ pd ++ mbarPages mb) (oc := BitVec.ofNat 4 (bitsOf w 32 4))
        (kind := .copy q.2 t.toNat s.cur.who.hartIx src dst count (bitOf w 36) mb dests none) hv t.isLt
      refine retires_finish hexec hrun hissues.cur hissues.th ⟨hissues.ops, hissues.busy, hissues.failed, hissues.others,
        hissues.rows, hissues.mem, hissues.th, fun l hl hview c hc _ r hr hslice => ?_,
        fun l hl hview hpred hvl c hc _ => ?_⟩
      · exact issueCopy_awaits hl hview hc hr hslice
      · refine issueCopy_vc hv hl hview hc (locRows_ne_nil (hl ▸ hdst) hview hcount) ?_
        simp [State.writesAll, hpred, hvl]
  case gathering =>
    intro s s1 s2 d a imm t w m mb pages word l mbp iw rlen rows hready
    refine ⟨exec_cpyg_busy hready, fun hb => ⟨fun hbad => exec_cpyg_malformed hready hb (copygDesc_iff.2 hbad), ?_⟩⟩
    intro hzero hneeds hform hregs hrange hmbar hpages hrows
    obtain ⟨v1, hmbar1, h1⟩ := (observe_alike s [imm.toNat]).copyMbarTo hmbar
    obtain ⟨v2, hpages2, -⟩ := h1.rangesTo hpages
    have hgood : (bitsOf word 53 11 != 0 || (mbp && m == 0)) = false := by
      refine Bool.eq_false_iff.2 (mt copygDesc_iff.1 ?_)
      rintro (hword | ⟨hmbp, hm⟩)
      · exact hword hzero
      · rw [hneeds hmbp] at hm
        exact absurd hm (by decide)
    have hexec := exec_cpyg_issued hready hb hgood hform hregs hrange (copyMbarTo_some hmbar).1 (copyMbarTo_iff.1 hmbar1)
      hpages2 hrows
    have hissues := copyg_leaves (oc := BitVec.ofNat 4 (bitsOf word 48 4)) (l := l) (rlen := rlen) (rows := rows)
      (pages := pages) (mb := mb) ((copyMbarTo_some hmbar1).2.2.trans (.rangesTo hpages2)) t.isLt
    refine ⟨_, hexec, hissues.cur, congrArg Thread.pc hissues.th, hissues.ops, hissues.busy, hissues.failed, hissues.rows,
      hissues.mem, hissues.th, fun hview q hq hslice => ?_⟩
    rw [(replayStep_frame _).2.1]
    exact issueCopyg_awaits hview hq hslice

end
section
/-! SUPPORT. Which rows an instruction performs, and a strip that runs past its hart's last row (R115): VL = VLMAX + 1, with a
mason that fails in course 0. -/

namespace Sys2Proof.Machine

/-- The rows that an instruction performs, one condition each (R11, R209, R395). -/
theorem State.mem_dueRows {s : State} {j : Nat} :
    j ∈ s.dueRows ↔ j < s.hart.vl.toNat ∧ s.pred j = true ∧ (s.row j).bit 0 = false ∧ s.pendingRow j = true := by
  simp only [State.dueRows, State.passRows, State.active, List.mem_filter, List.mem_range, Bool.not_eq_true', and_assoc]

/-- Without a prefix every row meets the predicate (R146). -/
theorem State.pred_unprefixed {s : State} (h : s.pfx = none) (j : Nat) : s.pred j = true := by simp [State.pred, h]

/-- Outside a replay every row is still to be performed (R395). -/
theorem State.pendingRow_fresh {s : State} (h : s.hart.replaying = false) (j : Nat) : s.pendingRow j = true := by
  simp [State.pendingRow, h]

/-- Where the check columns agree with the data, no column's check fails (R121). -/
theorem Row.fails_of_agrees {r : Row} (h : r.chk = 0) (cols : BitVec 1024) : r.fails cols = false := by
  simp [Row.fails, h]

/-- Where one row alone is listed, the others hold zeros (R132). -/
theorem Core.row_of_single {c : Core} {m : Nat} {r : Row} (hrows : c.rows = [(m, r)]) (hmarks : c.marks = []) (n : Nat) :
    c.row n = if m = n then r else .zero := by
  rw [Core.row, hrows, hmarks]
  by_cases h : m = n <;> simp [findRow, h]

/-- Hart 0's rows are the first of its core, and v0 lies from column 8 on (R115, R128), whatever the partition. -/
theorem State.elem_v0_of_hart0 {s : State} (h : s.cur.who = .hart 0) (w j : Nat) :
    s.elem 0 w j = (s.core.row j).get 8 w := by
  simp [State.elem, State.row, State.coreRow, Core.row0, Core.vcol, h, Who.hartIx]

/-- A core row whose register v1 holds 1, where a register has 32 columns. -/
def oneInV1 : Row := Row.zero.put 40 32 1

/-- Hart 0 of a core of eight harts, each with the 8192 rows of one course (R115), has VL = 8193. Core row 8192, the first row
of hart 1, holds 1 in v1; the microcode of course 0's mason fails. -/
def stripPastLastRow : State :=
  ((State.reset.withFetchWord 32 0).modCore fun c =>
    { c with pword := 0x3757, rows := [(8192, oneInV1)], flaws := [.microcode 0] }).modHart fun h => { h with vl := 8193 }

theorem stripPastLastRow_coreRow (j : Nat) : stripPastLastRow.coreRow j = j := by
  rw [State.coreRow, show stripPastLastRow.core.row0 stripPastLastRow.cur.who.hartIx.val = 0 by decide +kernel, Nat.zero_add]

theorem stripPastLastRow_row (j : Nat) : stripPastLastRow.row j = if 8192 = j then oneInV1 else .zero := by
  rw [State.row, stripPastLastRow_coreRow]
  exact Core.row_of_single rfl rfl j

theorem stripPastLastRow_agrees (j : Nat) : (stripPastLastRow.row j).chk = 0 := by
  rw [stripPastLastRow_row]
  split <;> rfl

/-- Every row below VL is performed: no gate is closed. -/
theorem stripPastLastRow_mem_dueRows {j : Nat} (h : j < 8193) : j ∈ stripPastLastRow.dueRows := by
  have hgate : (stripPastLastRow.row j).bit 0 = false := by
    rw [stripPastLastRow_row]
    split <;> decide +kernel
  exact State.mem_dueRows.mpr
    ⟨h, State.pred_unprefixed (by decide +kernel) j, hgate, State.pendingRow_fresh (by decide +kernel) j⟩

/-- The only mason that fails is that of course 0. -/
theorem stripPastLastRow_flaw {c : Fin 8} : .microcode c ∈ stripPastLastRow.core.flaws ↔ c = 0 := by
  rw [show stripPastLastRow.core.flaws = [.microcode 0] from rfl]
  simp

end Sys2Proof.Machine

open Sys2Proof Sys2Proof.Machine

/-- Refutes O15: nothing in the statement bounds VL by VLMAX (R235). Where hart 0 of eight has VL = 8193, VADD performs row 8192.
Its course 1 does not stop when the mason of course 0 fails, so its element is to hold the sum, 1 + 1, and the model
writes it; but that row is the first of hart 1, and is to be as before. -/
theorem not_rowCheckTraps : ¬ Obligations.RowCheckTraps := by
  unfold Obligations.RowCheckTraps
  intro h
  obtain ⟨hoff, htrap⟩ := h stripPastLastRow 0 1 1 4 0 (by decide +kernel) (by decide +kernel) (by decide +kernel)
  have hfirst : 0 ∈ stripPastLastRow.masonRows stripPastLastRow.dueRows :=
    (hoff 0).mpr ⟨stripPastLastRow_mem_dueRows (by decide), ⟨0, stripPastLastRow_flaw.mpr rfl, by decide +kernel⟩,
      fun i _ _ => Nat.zero_le i⟩
  have hgoesOn : (((stripPastLastRow.masonRows stripPastLastRow.dueRows).map stripPastLastRow.courseAt).contains
      (stripPastLastRow.courseAt 8192)) = false := by
    simp only [List.contains_eq_mem, decide_eq_false_iff_not, List.mem_map, not_exists, not_and]
    intro j hj hsame
    obtain ⟨-, ⟨c, hc, hcourse⟩, -⟩ := (hoff j).mp hj
    rw [stripPastLastRow_flaw.mp hc, hsame] at hcourse
    exact absurd hcourse (by decide +kernel)
  obtain ⟨u, -, -, -, hsums, -, -, hcur, -, hothers⟩ := htrap 0 (List.mem_append_left _ hfirst) fun i _ => Nat.zero_le i
  obtain ⟨hsum, -⟩ := hsums (List.filter_eq_nil_iff.mpr fun i _ =>
    Bool.eq_false_iff.mp (Row.fails_of_agrees (stripPastLastRow_agrees i) _))
  have hwritten := hsum 8192 (List.mem_filter.mpr ⟨stripPastLastRow_mem_dueRows (by decide), by rw [hgoesOn]; rfl⟩) 0
    List.mem_cons_self
  have hkept := hothers 8192 (.inr (by decide +kernel))
  rw [State.elem_v0_of_hart0 (by rw [hcur]; rfl), hkept] at hwritten
  exact absurd hwritten (by decide +kernel)
end
section
/-! SUPPORT. Words of instructions (R138, R139): an instruction's word, a sum of its fields, is read back field by field; and a
word that is read is the sum of the fields that were read. One lemma per major opcode and shape for the first, one per major
opcode for the second. -/

namespace Sys2Proof

-- The proofs about the majors are many and independent of each other: run side by side they need one thread each.
set_option Elab.async false

/-! ## The fields of a sum of fields -/

section
variable {A k K n m : Nat}

/-- A field added at `k` is read back where nothing else lies in its bits. -/
theorem field_div {x : BitVec n} (hk : 0 < k) (h : A / k % 2 ^ n = 0) : BitVec.ofNat n ((A + x.toNat * k) / k) = x := by
  refine BitVec.eq_of_toNat_eq ?_
  rw [BitVec.toNat_ofNat, Nat.add_mul_div_right _ _ hk, Nat.add_mod, h, Nat.zero_add, Nat.mod_mod, Nat.mod_eq_of_lt x.isLt]

/-- The same at the low end. -/
theorem field_low {x : BitVec n} (h : A % 2 ^ n = 0) : BitVec.ofNat n (A + x.toNat) = x := by
  refine BitVec.eq_of_toNat_eq ?_
  rw [BitVec.toNat_ofNat, Nat.add_mod, h, Nat.zero_add, Nat.mod_mod, Nat.mod_eq_of_lt x.isLt]

/-- A field at the low end does not reach the bits from `K` on. -/
theorem drop_low {x : BitVec n} (hK : K % 2 ^ n = 0) (h : A % 2 ^ n = 0) : (A + x.toNat) / K = A / K := by
  obtain ⟨q, rfl⟩ := Nat.dvd_of_mod_eq_zero hK
  rw [← Nat.div_div_eq_div_mul, ← Nat.div_div_eq_div_mul, Nat.add_div_of_dvd_right (Nat.dvd_of_mod_eq_zero h),
    Nat.div_eq_of_lt x.isLt, Nat.add_zero]

/-- A field at `k` that ends below `K` does not reach the bits from `K` on. -/
theorem drop_div {x : BitVec n} (hk : 0 < k) (hK : K % (k * 2 ^ n) = 0) (h : A / k % 2 ^ n = 0) :
    (A + x.toNat * k) / K = A / K := by
  obtain ⟨q, rfl⟩ := Nat.dvd_of_mod_eq_zero hK
  rw [Nat.mul_assoc, ← Nat.div_div_eq_div_mul, ← Nat.div_div_eq_div_mul A, Nat.add_mul_div_right _ _ hk]
  exact drop_low (by simp) h

/-- A field above the bits that are read does not touch them. -/
theorem above_mod {x : Nat} (h : k % m = 0) : (A + x * k) % m = A % m := by
  obtain ⟨q, rfl⟩ := Nat.dvd_of_mod_eq_zero h
  rw [Nat.mul_left_comm, Nat.add_mul_mod_self_left]

/-- The same for bits read from `K` on. -/
theorem above_div_mod {x : Nat} (hK : 0 < K) (h : k % (K * m) = 0) : (A + x * k) / K % m = A / K % m := by
  obtain ⟨q, rfl⟩ := Nat.dvd_of_mod_eq_zero h
  rw [show x * (K * m * q) = x * (m * q) * K by ring, Nat.add_mul_div_right _ _ hK, above_mod (by simp)]

end

/-! ## From an instruction to its word -/

/-- The fields of an instruction's word are the instruction, and no reserved bit is set. -/
def Decodes (i : Instr) : Prop := decodeFields (encode i) = .word i false

/-- The word of `i` belongs to major `M`, whose decoder reads `i` from it: both are computed field by field, by the rules above. -/
theorem decodes_of_major (M : Nat) (dec : Nat → Raw) {i : Instr}
    (hM : encode i / 0x4000000 = M := by
      delta encode
      simp only [drop_low, drop_div, above_mod, above_div_mod, Nat.reduceDiv, Nat.reduceMod, Nat.reducePow, Nat.reduceMul,
        Nat.reduceLT])
    (h : dec (encode i) = .word i false := by
      delta encode decodeMajor01 decodeMajor02
        decodeMajor03 decodeMajor04 decodeMajor05 decodeMajor06 decodeMajor07 decodeMajor08 decodeMajor09 decodeMajor0A
        decodeMajor0B decodeMajor10 decodeMajor11 decodeMajor12 decodeMajor13 decodeMajor14 decodeMajor15 decodeMajor18
        decodeMajor19 decodeMajor1A decodeMajor1B decodeMajor1C decodeMajor1D decodeMajor20 decodeMajor21 decodeMajor22
        decodeMajor23 decodeMajor24 decodeMajor25 decodeMajor26 decodeMajor28 decodeMajor29 decodeMajor2A decodeMajor2B
        decodeMajor2C decodeMajor2D decodeMajor2E decodeMajor2F decodeMajor30 decodeMajor31 decodeMajor32 decodeMajor33
        decodeMajor34 decodeMajor35 decodeMajor36 decodeMajor38 decodeMajor39 decodeMajor3A decodeMajor3C decodeMajor3D
        decodeMajor3E decodeMajor3F
      simp only [field_div, field_low, drop_low, drop_div, above_mod, above_div_mod, Nat.reduceDiv, Nat.reduceMod,
        Nat.reducePow, Nat.reduceMul, Nat.reduceLT, bne_self_eq_false, Bool.or_false, ↓reduceIte, one_ne_zero])
    (hdec : ∀ w, w / 0x4000000 = M → decodeFields w = dec w := by
      intro w hw
      delta decodeFields
      rw [hw]
      rfl) : Decodes i :=
  (hdec _ hM).trans h

theorem decodes_major01 (d a b : BitVec 5) : Decodes (.add d a b) ∧ Decodes (.sub d a b) ∧ Decodes (.and d a b) ∧
    Decodes (.or d a b) ∧ Decodes (.xor d a b) ∧ Decodes (.andn d a b) ∧ Decodes (.slt d a b) ∧ Decodes (.sltu d a b) ∧
    Decodes (.seq d a b) ∧ Decodes (.sne d a b) ∧ Decodes (.min d a b) ∧ Decodes (.max d a b) ∧ Decodes (.minu d a b) ∧
    Decodes (.maxu d a b) := by
  and_intros <;> exact decodes_of_major 0x01 decodeMajor01

theorem decodes_major02 (d a b : BitVec 5) : Decodes (.sll d a b) ∧ Decodes (.srl d a b) ∧ Decodes (.sra d a b) ∧
    Decodes (.rol d a b) ∧ Decodes (.ror d a b) := by
  and_intros <;> exact decodes_of_major 0x02 decodeMajor02

theorem decodes_major03 (d a b : BitVec 5) : Decodes (.mul d a b) ∧ Decodes (.mulh d a b) ∧ Decodes (.mulhu d a b) ∧
    Decodes (.div d a b) ∧ Decodes (.divu d a b) ∧ Decodes (.rem d a b) ∧ Decodes (.remu d a b) := by
  and_intros <;> exact decodes_of_major 0x03 decodeMajor03

theorem decodes_major04 (d a : BitVec 5) (imm : BitVec 16) : Decodes (.addi d a imm) :=
  decodes_of_major 0x04 decodeMajor04

theorem decodes_major05 (d a : BitVec 5) (imm : BitVec 16) : Decodes (.andi d a imm) :=
  decodes_of_major 0x05 decodeMajor05

theorem decodes_major06 (d a : BitVec 5) (imm : BitVec 16) : Decodes (.ori d a imm) :=
  decodes_of_major 0x06 decodeMajor06

theorem decodes_major07 (d a : BitVec 5) (imm : BitVec 16) : Decodes (.xori d a imm) :=
  decodes_of_major 0x07 decodeMajor07

theorem decodes_major08 (d a : BitVec 5) (imm : BitVec 13) : Decodes (.seqi d a imm) ∧ Decodes (.snei d a imm) ∧
    Decodes (.slti d a imm) ∧ Decodes (.sgei d a imm) ∧ Decodes (.sltui d a imm) ∧ Decodes (.sgeui d a imm) := by
  and_intros <;> exact decodes_of_major 0x08 decodeMajor08

theorem decodes_major09_slli (d a : BitVec 5) (sf : BitVec 6) : Decodes (.slli d a sf) ∧ Decodes (.srli d a sf) ∧
    Decodes (.srai d a sf) ∧ Decodes (.rori d a sf) := by
  and_intros <;> exact decodes_of_major 0x09 decodeMajor09

theorem decodes_major09_bext (d a : BitVec 5) (p l : BitVec 6) : Decodes (.bext d a p l) ∧ Decodes (.bextu d a p l) ∧
    Decodes (.bins d a p l) := by
  and_intros <;> exact decodes_of_major 0x09 decodeMajor09

theorem decodes_major0A (d : BitVec 5) (imm : BitVec 21) : Decodes (.lui d imm) :=
  decodes_of_major 0x0A decodeMajor0A

theorem decodes_major0B (d : BitVec 5) (imm : BitVec 21) : Decodes (.auipc d imm) :=
  decodes_of_major 0x0B decodeMajor0B

theorem decodes_major10 (a b : BitVec 5) (f : BitVec 13) : Decodes (.beq a b f) ∧ Decodes (.bne a b f) ∧ Decodes (.blt a b f) ∧
    Decodes (.bge a b f) ∧ Decodes (.bltu a b f) ∧ Decodes (.bgeu a b f) := by
  and_intros <;> exact decodes_of_major 0x10 decodeMajor10

theorem decodes_major11 (k : BitVec 3) (f : BitVec 13) : Decodes (.bmany k f) ∧ Decodes (.bmnone k f) ∧ Decodes (.bmall k f) ∧
    Decodes (.bmnall k f) := by
  and_intros <;> exact decodes_of_major 0x11 decodeMajor11

theorem decodes_major12 (d : BitVec 5) (f : BitVec 21) : Decodes (.jal d f) :=
  decodes_of_major 0x12 decodeMajor12

theorem decodes_major13 (d a : BitVec 5) (imm : BitVec 16) : Decodes (.jalr d a imm) :=
  decodes_of_major 0x13 decodeMajor13

theorem decodes_major14 (c a : BitVec 5) (n : BitVec 3) (f : BitVec 13) : Decodes (.smb c a n f) :=
  decodes_of_major 0x14 decodeMajor14

theorem decodes_major15_smbsReg (sf : BitVec 2) (a : BitVec 5) : Decodes (.smbsReg sf a) :=
  decodes_of_major 0x15 decodeMajor15

theorem decodes_major15_smbsImm (sf : BitVec 2) (imm : BitVec 15) : Decodes (.smbsImm sf imm) :=
  decodes_of_major 0x15 decodeMajor15

theorem decodes_major18 (d b : BitVec 5) (c : BitVec 4) (f : BitVec 8) : Decodes (.ldN8 d b c f) ∧ Decodes (.ldN16 d b c f) ∧
    Decodes (.ldN32 d b c f) ∧ Decodes (.ldN64 d b c f) ∧ Decodes (.ldI8 d b c f) ∧ Decodes (.ldI16 d b c f) ∧
    Decodes (.ldI32 d b c f) ∧ Decodes (.ldI64 d b c f) := by
  and_intros <;> exact decodes_of_major 0x18 decodeMajor18

theorem decodes_major19 (d b : BitVec 5) (c : BitVec 4) (f : BitVec 8) : Decodes (.stN8 d b c f) ∧ Decodes (.stN16 d b c f) ∧
    Decodes (.stN32 d b c f) ∧ Decodes (.stN64 d b c f) := by
  and_intros <;> exact decodes_of_major 0x19 decodeMajor19

theorem decodes_major1A (d b : BitVec 5) (w : BitVec 2) (f : BitVec 8) : Decodes (.ldpN8 d b w f) ∧ Decodes (.ldpN16 d b w f) ∧
    Decodes (.ldpN32 d b w f) ∧ Decodes (.ldpN64 d b w f) ∧ Decodes (.ldpI8 d b w f) ∧ Decodes (.ldpI16 d b w f) ∧
    Decodes (.ldpI32 d b w f) ∧ Decodes (.ldpI64 d b w f) := by
  and_intros <;> exact decodes_of_major 0x1A decodeMajor1A

theorem decodes_major1B (d a b : BitVec 5) (z : BitVec 1) (o : BitVec 2) (q : BitVec 4) : Decodes (.amoadd d a b z o q) ∧
    Decodes (.amoand d a b z o q) ∧ Decodes (.amoor d a b z o q) ∧ Decodes (.amoxor d a b z o q) ∧
    Decodes (.amominI d a b z o q) ∧ Decodes (.amomaxI d a b z o q) ∧ Decodes (.amominN d a b z o q) ∧
    Decodes (.amomaxN d a b z o q) ∧ Decodes (.amoswap d a b z o q) ∧ Decodes (.amocas d a b z o q) := by
  and_intros <;> exact decodes_of_major 0x1B decodeMajor1B

theorem decodes_major1C (k : BitVec 2) (sf : BitVec 3) (m : BitVec 16) : Decodes (.fence k sf m) :=
  decodes_of_major 0x1C decodeMajor1C

theorem decodes_major1D (p : BitVec 1) (t w : BitVec 2) (b : BitVec 5) (f : BitVec 8) : Decodes (.pref p t b w f) :=
  decodes_of_major 0x1D decodeMajor1D

theorem decodes_major20 (d a : BitVec 5) (e c : BitVec 4) : Decodes (.ldv d a e c) ∧ Decodes (.stv d a e c) := by
  and_intros <;> exact decodes_of_major 0x20 decodeMajor20

theorem decodes_major21 (d a b : BitVec 5) (e c : BitVec 4) : Decodes (.ldvs d a b e c) ∧ Decodes (.stvs d a b e c) := by
  and_intros <;> exact decodes_of_major 0x21 decodeMajor21

theorem decodes_major22 (d a : BitVec 5) (e : BitVec 4) : Decodes (.ldvl d a e) ∧ Decodes (.stvl d a e) := by
  and_intros <;> exact decodes_of_major 0x22 decodeMajor22

theorem decodes_major23_ldpl (d a b : BitVec 5) (c : BitVec 4) (g : BitVec 1) : Decodes (.ldpl d a b c g) ∧
    Decodes (.stpl d a b c g) := by
  and_intros <;> exact decodes_of_major 0x23 decodeMajor23

theorem decodes_major23_ldplm (k : BitVec 3) (a : BitVec 5) (c : BitVec 4) : Decodes (.ldplm k a c) ∧
    Decodes (.stplm k a c) := by
  and_intros <;> exact decodes_of_major 0x23 decodeMajor23

theorem decodes_major24 (d a b : BitVec 5) (e c : BitVec 4) (w : BitVec 1) : Decodes (.vgath d a b e c w) ∧
    Decodes (.vgathNb d a b e c w) ∧ Decodes (.vscat d a b e c w) := by
  and_intros <;> exact decodes_of_major 0x24 decodeMajor24

theorem decodes_major25_kvld (d a : BitVec 5) (t : BitVec 6) (v : BitVec 1) (c : BitVec 4) : Decodes (.kvld d a t v c) :=
  decodes_of_major 0x25 decodeMajor25

theorem decodes_major25_kvst (d a : BitVec 5) (c : BitVec 4) : Decodes (.kvst d a c) ∧ Decodes (.kvstT d a c) ∧
    Decodes (.kvapp d a c) ∧ Decodes (.kvappT d a c) ∧ Decodes (.kvfold d a c) ∧ Decodes (.kvfoldT d a c) := by
  and_intros <;> exact decodes_of_major 0x25 decodeMajor25

theorem decodes_major26_vgathNf (d a b : BitVec 5) (e c : BitVec 4) (w n : BitVec 1) : Decodes (.vgathNf d a b e c w n) :=
  decodes_of_major 0x26 decodeMajor26

theorem decodes_major26_kvldNf (d a : BitVec 5) (v : BitVec 1) (t : BitVec 6) : Decodes (.kvldNf d a v t) :=
  decodes_of_major 0x26 decodeMajor26

theorem decodes_major28 (d a n : BitVec 5) (t : BitVec 6) (p sf m : BitVec 1) : Decodes (.cpy d a n t p sf m) ∧
    Decodes (.cpym d a n t p sf m) ∧ Decodes (.cpyr d a n t p sf m) := by
  and_intros <;> exact decodes_of_major 0x28 decodeMajor28

theorem decodes_major29 (d a imm : BitVec 5) (t : BitVec 6) (w m : BitVec 1) : Decodes (.cpyg d a imm t w m) :=
  decodes_of_major 0x29 decodeMajor29

theorem decodes_major2A_twaitany (d a : BitVec 5) : Decodes (.twaitany d a) ∧ Decodes (.twaitall d a) ∧ Decodes (.tffr d a) ∧
    Decodes (.tpln d a) := by
  and_intros <;> exact decodes_of_major 0x2A decodeMajor2A

theorem decodes_major2A_tclr (a : BitVec 5) : Decodes (.tclr a) :=
  decodes_of_major 0x2A decodeMajor2A

theorem decodes_major2B (l sf : BitVec 4) (c : BitVec 6) (t : BitVec 2) : Decodes (.waitc l sf c t) :=
  decodes_of_major 0x2B decodeMajor2B

theorem decodes_major2C_pcmp (k m c : BitVec 5) (t : BitVec 2) : Decodes (.pcmp k m c t) ∧ Decodes (.pcw k m c t) := by
  and_intros <;> exact decodes_of_major 0x2C decodeMajor2C

theorem decodes_major2C_pwr (k m c : BitVec 5) (l : BitVec 1) : Decodes (.pwr k m c l) :=
  decodes_of_major 0x2C decodeMajor2C

theorem decodes_major2D (d sf : BitVec 11) (imm : BitVec 1) : Decodes (.pcol d sf imm) :=
  decodes_of_major 0x2D decodeMajor2D

theorem decodes_major2E_ptag (d sf : BitVec 2) (f : BitVec 3) : Decodes (.ptag d sf f) :=
  decodes_of_major 0x2E decodeMajor2E

theorem decodes_major2E_pshift (r f : BitVec 1) (j : BitVec 5) (sf : BitVec 11) : Decodes (.pshift r j f sf) :=
  decodes_of_major 0x2E decodeMajor2E

theorem decodes_major2F (d : BitVec 5) (sf : BitVec 11) : Decodes (.pcnt d sf) ∧ Decodes (.pany d sf) ∧
    Decodes (.pff d sf) := by
  and_intros <;> exact decodes_of_major 0x2F decodeMajor2F

theorem decodes_major30_vadd (d a b : BitVec 5) (e : BitVec 4) (x sf : BitVec 1) : Decodes (.vadd d a b e x sf) ∧
    Decodes (.vsub d a b e x sf) ∧ Decodes (.vrsub d a b e x sf) := by
  and_intros <;> exact decodes_of_major 0x30 decodeMajor30

theorem decodes_major30_vand (d a b : BitVec 5) (e : BitVec 4) (x : BitVec 1) : Decodes (.vand d a b e x) ∧
    Decodes (.vor d a b e x) ∧ Decodes (.vxor d a b e x) ∧ Decodes (.vmin d a b e x) ∧ Decodes (.vmax d a b e x) := by
  and_intros <;> exact decodes_of_major 0x30 decodeMajor30

theorem decodes_major31_vmul (d a b : BitVec 5) (e : BitVec 4) (x : BitVec 1) : Decodes (.vmul d a b e x) ∧
    Decodes (.vmacc d a b e x) := by
  and_intros <;> exact decodes_of_major 0x31 decodeMajor31

theorem decodes_major31_vsll (d a b : BitVec 5) (e : BitVec 4) : Decodes (.vsll d a b e) ∧ Decodes (.vsrl d a b e) ∧
    Decodes (.vsra d a b e) := by
  and_intros <;> exact decodes_of_major 0x31 decodeMajor31

theorem decodes_major31_vcmpEq (k : BitVec 3) (a b : BitVec 5) (e : BitVec 4) (x : BitVec 1) : Decodes (.vcmpEq k a b e x) ∧
    Decodes (.vcmpNe k a b e x) ∧ Decodes (.vcmpLt k a b e x) ∧ Decodes (.vcmpLe k a b e x) ∧ Decodes (.vcmpGt k a b e x) ∧
    Decodes (.vcmpGe k a b e x) := by
  and_intros <;> exact decodes_of_major 0x31 decodeMajor31

theorem decodes_major32_vfadd (d a b : BitVec 5) (e : BitVec 4) (r : BitVec 3) : Decodes (.vfadd d a b e r) ∧
    Decodes (.vfsub d a b e r) ∧ Decodes (.vfmul d a b e r) ∧ Decodes (.vfma d a b e r) ∧ Decodes (.vfaddX d a b e r) ∧
    Decodes (.vfmulX d a b e r) ∧ Decodes (.vfmaX d a b e r) := by
  and_intros <;> exact decodes_of_major 0x32 decodeMajor32

theorem decodes_major32_vfmin (d a b : BitVec 5) (e : BitVec 4) : Decodes (.vfmin d a b e) ∧ Decodes (.vfmax d a b e) := by
  and_intros <;> exact decodes_of_major 0x32 decodeMajor32

theorem decodes_major32_vfneg (d a : BitVec 5) (e : BitVec 4) : Decodes (.vfneg d a e) ∧ Decodes (.vfabs d a e) := by
  and_intros <;> exact decodes_of_major 0x32 decodeMajor32

theorem decodes_major32_vfcmpEq (k : BitVec 3) (a b : BitVec 5) (e : BitVec 4) : Decodes (.vfcmpEq k a b e) ∧
    Decodes (.vfcmpLt k a b e) ∧ Decodes (.vfcmpLe k a b e) := by
  and_intros <;> exact decodes_of_major 0x32 decodeMajor32

theorem decodes_major33_vcvt (d a : BitVec 5) (sf e : BitVec 4) (r : BitVec 3) : Decodes (.vcvt d a sf e r) :=
  decodes_of_major 0x33 decodeMajor33

theorem decodes_major33_vqtb4 (d a b : BitVec 5) (e : BitVec 4) (sf : BitVec 3) : Decodes (.vqtb4 d a b e sf) ∧
    Decodes (.vqtb8 d a b e sf) := by
  and_intros <;> exact decodes_of_major 0x33 decodeMajor33

theorem decodes_major33_vdqtb4 (d a b : BitVec 5) (e : BitVec 4) (r : BitVec 3) : Decodes (.vdqtb4 d a b e r) ∧
    Decodes (.vdqtb8 d a b e r) := by
  and_intros <;> exact decodes_of_major 0x33 decodeMajor33

theorem decodes_major33_vexp2 (d a : BitVec 5) (e : BitVec 4) (r : BitVec 3) : Decodes (.vexp2 d a e r) ∧
    Decodes (.vrcp d a e r) ∧ Decodes (.vrsqrt d a e r) := by
  and_intros <;> exact decodes_of_major 0x33 decodeMajor33

theorem decodes_major34_vmv (d a : BitVec 5) (e : BitVec 4) : Decodes (.vmv d a e) ∧ Decodes (.vbcx d a e) ∧
    Decodes (.viota d a e) := by
  and_intros <;> exact decodes_of_major 0x34 decodeMajor34

theorem decodes_major34_vbcr (d a b : BitVec 5) (e : BitVec 4) : Decodes (.vbcr d a b e) ∧ Decodes (.vmvxr d a b e) := by
  and_intros <;> exact decodes_of_major 0x34 decodeMajor34

theorem decodes_major34_vslideup (d a b : BitVec 5) (e : BitVec 4) (imm : BitVec 3) : Decodes (.vslideup d a b e imm) ∧
    Decodes (.vslidedn d a b e imm) := by
  and_intros <;> exact decodes_of_major 0x34 decodeMajor34

theorem decodes_major34_vcompress (d : BitVec 5) (k : BitVec 3) (e : BitVec 4) : Decodes (.vcompress d k e) :=
  decodes_of_major 0x34 decodeMajor34

theorem decodes_major35_vrsum (d a : BitVec 5) (e : BitVec 4) (sf : BitVec 1) (r : BitVec 3) : Decodes (.vrsum d a e sf r) ∧
    Decodes (.vrmax d a e sf r) ∧ Decodes (.vrmin d a e sf r) := by
  and_intros <;> exact decodes_of_major 0x35 decodeMajor35

theorem decodes_major35_vscan (d a : BitVec 5) (e : BitVec 4) (r : BitVec 3) : Decodes (.vscan d a e r) ∧
    Decodes (.vscanmax d a e r) ∧ Decodes (.vscanmin d a e r) := by
  and_intros <;> exact decodes_of_major 0x35 decodeMajor35

theorem decodes_major36_setvl (d a : BitVec 5) : Decodes (.setvl d a) :=
  decodes_of_major 0x36 decodeMajor36

theorem decodes_major36_setvlf (d a : BitVec 5) (k : BitVec 3) (c : BitVec 4) : Decodes (.setvlf d a k c) :=
  decodes_of_major 0x36 decodeMajor36

theorem decodes_major36_setvlre (d a : BitVec 5) (c : BitVec 4) : Decodes (.setvlre d a c) :=
  decodes_of_major 0x36 decodeMajor36

theorem decodes_major38_vsrch (k : BitVec 3) (a b : BitVec 5) (e : BitVec 4) (t : BitVec 2) : Decodes (.vsrch k a b e t) :=
  decodes_of_major 0x38 decodeMajor38

theorem decodes_major38_vham (d a b : BitVec 5) (e : BitVec 4) (w : BitVec 2) (c x : BitVec 1) :
    Decodes (.vham d a b e w c x) :=
  decodes_of_major 0x38 decodeMajor38

theorem decodes_major38_vtopk (k : BitVec 3) (a b : BitVec 5) (e : BitVec 4) (m : BitVec 1) : Decodes (.vtopk k a b e m) :=
  decodes_of_major 0x38 decodeMajor38

theorem decodes_major39_tkinit (a : BitVec 5) (n : BitVec 2) (sf : BitVec 1) : Decodes (.tkinit a n sf) :=
  decodes_of_major 0x39 decodeMajor39

theorem decodes_major39_tkins (d a : BitVec 5) (n : BitVec 2) (k : BitVec 3) (v : BitVec 1) : Decodes (.tkins d a n k v) :=
  decodes_of_major 0x39 decodeMajor39

theorem decodes_major39_tkmrg (a : BitVec 5) (n : BitVec 2) (c : BitVec 4) : Decodes (.tkmrg a n c) :=
  decodes_of_major 0x39 decodeMajor39

theorem decodes_major39_tkrd (d a : BitVec 5) (n : BitVec 2) (c : BitVec 4) : Decodes (.tkrd d a n c) :=
  decodes_of_major 0x39 decodeMajor39

theorem decodes_major39_tkthr (d : BitVec 5) (n : BitVec 2) (o : BitVec 1) : Decodes (.tkthr d n o) :=
  decodes_of_major 0x39 decodeMajor39

theorem decodes_major3A_vterm (d a b : BitVec 5) (e c : BitVec 4) : Decodes (.vterm d a b e c) :=
  decodes_of_major 0x3A decodeMajor3A

theorem decodes_major3A_vdotv (d a : BitVec 5) (e : BitVec 4) (p n : BitVec 2) : Decodes (.vdotv d a e p n) :=
  decodes_of_major 0x3A decodeMajor3A

theorem decodes_major3A_vselv (d a b : BitVec 5) (e : BitVec 4) (m : BitVec 2) : Decodes (.vselv d a b e m) :=
  decodes_of_major 0x3A decodeMajor3A

theorem decodes_major3A_vmaskv (k sf : BitVec 3) (a : BitVec 5) (e : BitVec 4) : Decodes (.vmaskv k a e sf) :=
  decodes_of_major 0x3A decodeMajor3A

theorem decodes_major3A_vclrv (d a b : BitVec 5) (e : BitVec 4) : Decodes (.vclrv d a b e) :=
  decodes_of_major 0x3A decodeMajor3A

theorem decodes_major3C_sbind (a : BitVec 5) (c : BitVec 4) (n : BitVec 2) : Decodes (.sbind a c n) :=
  decodes_of_major 0x3C decodeMajor3C

theorem decodes_major3C_sldb (a : BitVec 5) (c : BitVec 4) (x : BitVec 1) : Decodes (.sldb a c x) :=
  decodes_of_major 0x3C decodeMajor3C

theorem decodes_major3C_sldbg (a b : BitVec 5) (c : BitVec 4) (x : BitVec 1) : Decodes (.sldbg a b c x) :=
  decodes_of_major 0x3C decodeMajor3C

theorem decodes_major3C_stile (d : BitVec 5) (w : BitVec 1) : Decodes (.stile d w) :=
  decodes_of_major 0x3C decodeMajor3C

theorem decodes_major3C_smma (a b : BitVec 5) : Decodes (.smma a b) :=
  decodes_of_major 0x3C decodeMajor3C

theorem decodes_major3C_sdrainScratch (a : BitVec 5) (t : BitVec 4) (r l : BitVec 3) : Decodes (.sdrainScratch a t r l) :=
  decodes_of_major 0x3C decodeMajor3C

theorem decodes_major3C_sdrainVreg (d : BitVec 5) (t : BitVec 4) (r l : BitVec 3) : Decodes (.sdrainVreg d t r l) :=
  decodes_of_major 0x3C decodeMajor3C

theorem decodes_major3C_szero (m : BitVec 1) (t : BitVec 3) : Decodes (.szero m t) :=
  decodes_of_major 0x3C decodeMajor3C

theorem decodes_major3C_miter (d a : BitVec 5) (t r m g : BitVec 1) : Decodes (.miter d a t r m g) :=
  decodes_of_major 0x3C decodeMajor3C

theorem decodes_major3C_mpoly (a : BitVec 5) (g : BitVec 1) : Decodes (.mpoly a g) :=
  decodes_of_major 0x3C decodeMajor3C

theorem decodes_major3C_scoef (a : BitVec 5) (k : BitVec 3) : Decodes (.scoef a k) :=
  decodes_of_major 0x3C decodeMajor3C

theorem decodes_major3D_fork (d a : BitVec 5) : Decodes (.fork d a) :=
  decodes_of_major 0x3D decodeMajor3D

theorem decodes_major3D_rdv : Decodes .rdv ∧ Decodes .rdvEnd := by
  and_intros <;> exact decodes_of_major 0x3D decodeMajor3D

theorem decodes_major3E_bar (a : BitVec 5) (sf : BitVec 3) : Decodes (.bar a sf) :=
  decodes_of_major 0x3E decodeMajor3E

theorem decodes_major3E_mbinit (d a : BitVec 5) (p : BitVec 1) : Decodes (.mbinit d a p) :=
  decodes_of_major 0x3E decodeMajor3E

theorem decodes_major3E_mbarrive (a : BitVec 5) (p : BitVec 1) (sf : BitVec 3) : Decodes (.mbarrive a p sf) :=
  decodes_of_major 0x3E decodeMajor3E

theorem decodes_major3E_mbexpect (d a : BitVec 5) (p : BitVec 1) (sf : BitVec 3) : Decodes (.mbexpect d a p sf) ∧
    Decodes (.mbarrivex d a p sf) ∧ Decodes (.mbtest d a p sf) := by
  and_intros <;> exact decodes_of_major 0x3E decodeMajor3E

theorem decodes_major3E_mbwait (d a : BitVec 5) (p q : BitVec 1) (sf : BitVec 3) : Decodes (.mbwait d a p q sf) :=
  decodes_of_major 0x3E decodeMajor3E

theorem decodes_major3E_waitvEq (d a o e : BitVec 5) : Decodes (.waitvEq d a o e) ∧ Decodes (.waitvGe d a o e) := by
  and_intros <;> exact decodes_of_major 0x3E decodeMajor3E

theorem decodes_major3E_csrr (d : BitVec 5) (n : BitVec 10) : Decodes (.csrr d n) :=
  decodes_of_major 0x3E decodeMajor3E

theorem decodes_major3E_csrw (d a : BitVec 5) (n : BitVec 10) : Decodes (.csrw d a n) ∧ Decodes (.csrs d a n) ∧
    Decodes (.csrc d a n) := by
  and_intros <;> exact decodes_of_major 0x3E decodeMajor3E

theorem decodes_major3E_svc (c : BitVec 10) : Decodes (.svc c) ∧ Decodes (.trap c) ∧ Decodes (.bkpt c) := by
  and_intros <;> exact decodes_of_major 0x3E decodeMajor3E

theorem decodes_major3E_eret : Decodes .eret ∧ Decodes .yield ∧ Decodes .endHart ∧ Decodes .icinv ∧ Decodes .icinvAll ∧
    Decodes .sdcinv := by
  and_intros <;> exact decodes_of_major 0x3E decodeMajor3E

theorem decodes_major3E_launch (d a : BitVec 5) : Decodes (.launch d a) ∧ Decodes (.quiesce d a) := by
  and_intros <;> exact decodes_of_major 0x3E decodeMajor3E

theorem decodes_major3E_tlbinv (d a : BitVec 5) (k : BitVec 2) : Decodes (.tlbinv d a k) :=
  decodes_of_major 0x3E decodeMajor3E

theorem decodes_major3F (p : BitVec 3) (v c : BitVec 1) (r : BitVec 5) : Decodes (.pfx p v c r) :=
  decodes_of_major 0x3F decodeMajor3F

/-- Every instruction word is read back from its encoding, whatever its operands. -/
theorem decodes_of_isWord {i : Instr} (h : i.isWord = true) : Decodes i := by
  cases i <;> cases h <;> simp only [
    decodes_major01, decodes_major02, decodes_major03, decodes_major04, decodes_major05, decodes_major06, decodes_major07,
    decodes_major08, decodes_major09_slli, decodes_major09_bext, decodes_major0A, decodes_major0B, decodes_major10,
    decodes_major11, decodes_major12, decodes_major13, decodes_major14, decodes_major15_smbsReg, decodes_major15_smbsImm,
    decodes_major18, decodes_major19, decodes_major1A, decodes_major1B, decodes_major1C, decodes_major1D, decodes_major20,
    decodes_major21, decodes_major22, decodes_major23_ldpl, decodes_major23_ldplm, decodes_major24, decodes_major25_kvld,
    decodes_major25_kvst, decodes_major26_vgathNf, decodes_major26_kvldNf, decodes_major28, decodes_major29,
    decodes_major2A_twaitany, decodes_major2A_tclr, decodes_major2B, decodes_major2C_pcmp, decodes_major2C_pwr, decodes_major2D,
    decodes_major2E_ptag, decodes_major2E_pshift, decodes_major2F, decodes_major30_vadd, decodes_major30_vand,
    decodes_major31_vmul, decodes_major31_vsll, decodes_major31_vcmpEq, decodes_major32_vfadd, decodes_major32_vfmin,
    decodes_major32_vfneg, decodes_major32_vfcmpEq, decodes_major33_vcvt, decodes_major33_vqtb4, decodes_major33_vdqtb4,
    decodes_major33_vexp2, decodes_major34_vmv, decodes_major34_vbcr, decodes_major34_vslideup, decodes_major34_vcompress,
    decodes_major35_vrsum, decodes_major35_vscan, decodes_major36_setvl, decodes_major36_setvlf, decodes_major36_setvlre,
    decodes_major38_vsrch, decodes_major38_vham, decodes_major38_vtopk, decodes_major39_tkinit, decodes_major39_tkins,
    decodes_major39_tkmrg, decodes_major39_tkrd, decodes_major39_tkthr, decodes_major3A_vterm, decodes_major3A_vdotv,
    decodes_major3A_vselv, decodes_major3A_vmaskv, decodes_major3A_vclrv, decodes_major3C_sbind, decodes_major3C_sldb,
    decodes_major3C_sldbg, decodes_major3C_stile, decodes_major3C_smma, decodes_major3C_sdrainScratch,
    decodes_major3C_sdrainVreg, decodes_major3C_szero, decodes_major3C_miter, decodes_major3C_mpoly, decodes_major3C_scoef,
    decodes_major3D_fork, decodes_major3D_rdv, decodes_major3E_bar, decodes_major3E_mbinit, decodes_major3E_mbarrive,
    decodes_major3E_mbexpect, decodes_major3E_mbwait, decodes_major3E_waitvEq, decodes_major3E_csrr, decodes_major3E_csrw,
    decodes_major3E_svc, decodes_major3E_eret, decodes_major3E_launch, decodes_major3E_tlbinv, decodes_major3F]

/-! ## From a word to its instruction -/

/-- What `r` reads without a reserved bit is an instruction word, and `w` is its encoding. -/
def Reads (r : Raw) (w : Nat) : Prop := ∀ i, r = .word i false → i.isWord = true ∧ encode i = w

theorem reads_illOp {w : Nat} : Reads .illOp w := by
  rintro i ⟨⟩

/-- The low part of a number is what its quotient leaves: with it a sum of slices telescopes. -/
theorem low_cast (w n : Nat) : ((w % n : Nat) : Int) = w - n * (w / n : Nat) := by
  have := Nat.div_add_mod w n
  omega

/-- A word whose reserved bits are 0 is the sum of its slices, each where it was read: the slices telescope to the word. -/
theorem reads_word {i : Instr} {reserved : Bool} {w : Nat} (hi : i.isWord = true := by rfl)
    (h : reserved = false → encode i = w := by
      intro hr
      delta encode
      simp only [Bool.or_eq_false_iff, bne_eq_false_iff_eq, BitVec.toNat_ofNat, Nat.reducePow, ← Nat.cast_inj (R := Int),
        Nat.cast_add, Nat.cast_mul, low_cast, Nat.div_div_eq_div_mul, Nat.cast_ofNat, Nat.reduceMul] at *
      omega) : Reads (.word i reserved) w := by
  rintro i ⟨⟩
  exact ⟨hi, h rfl⟩

theorem reads_major01 {w : Nat} (hM : w / 0x4000000 = 0x01) : Reads (decodeMajor01 w) w := by
  delta decodeMajor01
  split
  any_goals exact reads_illOp
  all_goals exact reads_word

theorem reads_major02 {w : Nat} (hM : w / 0x4000000 = 0x02) : Reads (decodeMajor02 w) w := by
  delta decodeMajor02
  split
  any_goals exact reads_illOp
  all_goals exact reads_word

theorem reads_major03 {w : Nat} (hM : w / 0x4000000 = 0x03) : Reads (decodeMajor03 w) w := by
  delta decodeMajor03
  split
  any_goals exact reads_illOp
  all_goals exact reads_word

theorem reads_major04 {w : Nat} (hM : w / 0x4000000 = 0x04) : Reads (decodeMajor04 w) w := by
  delta decodeMajor04
  exact reads_word

theorem reads_major05 {w : Nat} (hM : w / 0x4000000 = 0x05) : Reads (decodeMajor05 w) w := by
  delta decodeMajor05
  exact reads_word

theorem reads_major06 {w : Nat} (hM : w / 0x4000000 = 0x06) : Reads (decodeMajor06 w) w := by
  delta decodeMajor06
  exact reads_word

theorem reads_major07 {w : Nat} (hM : w / 0x4000000 = 0x07) : Reads (decodeMajor07 w) w := by
  delta decodeMajor07
  exact reads_word

theorem reads_major08 {w : Nat} (hM : w / 0x4000000 = 0x08) : Reads (decodeMajor08 w) w := by
  delta decodeMajor08
  split
  any_goals exact reads_illOp
  all_goals exact reads_word

theorem reads_major09 {w : Nat} (hM : w / 0x4000000 = 0x09) : Reads (decodeMajor09 w) w := by
  delta decodeMajor09
  split
  any_goals exact reads_illOp
  all_goals exact reads_word

theorem reads_major0A {w : Nat} (hM : w / 0x4000000 = 0x0A) : Reads (decodeMajor0A w) w := by
  delta decodeMajor0A
  exact reads_word

theorem reads_major0B {w : Nat} (hM : w / 0x4000000 = 0x0B) : Reads (decodeMajor0B w) w := by
  delta decodeMajor0B
  exact reads_word

theorem reads_major10 {w : Nat} (hM : w / 0x4000000 = 0x10) : Reads (decodeMajor10 w) w := by
  delta decodeMajor10
  split
  any_goals exact reads_illOp
  all_goals exact reads_word

theorem reads_major11 {w : Nat} (hM : w / 0x4000000 = 0x11) : Reads (decodeMajor11 w) w := by
  delta decodeMajor11
  split
  any_goals exact reads_illOp
  all_goals exact reads_word

theorem reads_major12 {w : Nat} (hM : w / 0x4000000 = 0x12) : Reads (decodeMajor12 w) w := by
  delta decodeMajor12
  exact reads_word

theorem reads_major13 {w : Nat} (hM : w / 0x4000000 = 0x13) : Reads (decodeMajor13 w) w := by
  delta decodeMajor13
  exact reads_word

theorem reads_major14 {w : Nat} (hM : w / 0x4000000 = 0x14) : Reads (decodeMajor14 w) w := by
  delta decodeMajor14
  exact reads_word

theorem reads_major15 {w : Nat} (hM : w / 0x4000000 = 0x15) : Reads (decodeMajor15 w) w := by
  delta decodeMajor15
  split
  any_goals exact reads_illOp
  all_goals exact reads_word

theorem reads_major18 {w : Nat} (hM : w / 0x4000000 = 0x18) : Reads (decodeMajor18 w) w := by
  delta decodeMajor18
  split
  any_goals exact reads_illOp
  all_goals exact reads_word

theorem reads_major19 {w : Nat} (hM : w / 0x4000000 = 0x19) : Reads (decodeMajor19 w) w := by
  delta decodeMajor19
  split
  any_goals exact reads_illOp
  all_goals exact reads_word

theorem reads_major1A {w : Nat} (hM : w / 0x4000000 = 0x1A) : Reads (decodeMajor1A w) w := by
  delta decodeMajor1A
  split
  any_goals exact reads_illOp
  all_goals exact reads_word

theorem reads_major1B {w : Nat} (hM : w / 0x4000000 = 0x1B) : Reads (decodeMajor1B w) w := by
  delta decodeMajor1B
  split
  any_goals exact reads_illOp
  all_goals exact reads_word

theorem reads_major1C {w : Nat} (hM : w / 0x4000000 = 0x1C) : Reads (decodeMajor1C w) w := by
  delta decodeMajor1C
  exact reads_word

theorem reads_major1D {w : Nat} (hM : w / 0x4000000 = 0x1D) : Reads (decodeMajor1D w) w := by
  delta decodeMajor1D
  exact reads_word

theorem reads_major20 {w : Nat} (hM : w / 0x4000000 = 0x20) : Reads (decodeMajor20 w) w := by
  delta decodeMajor20
  split
  any_goals exact reads_illOp
  all_goals exact reads_word

theorem reads_major21 {w : Nat} (hM : w / 0x4000000 = 0x21) : Reads (decodeMajor21 w) w := by
  delta decodeMajor21
  split
  any_goals exact reads_illOp
  all_goals exact reads_word

theorem reads_major22 {w : Nat} (hM : w / 0x4000000 = 0x22) : Reads (decodeMajor22 w) w := by
  delta decodeMajor22
  split
  any_goals exact reads_illOp
  all_goals exact reads_word

theorem reads_major23 {w : Nat} (hM : w / 0x4000000 = 0x23) : Reads (decodeMajor23 w) w := by
  delta decodeMajor23
  split
  any_goals exact reads_illOp
  all_goals exact reads_word

theorem reads_major24 {w : Nat} (hM : w / 0x4000000 = 0x24) : Reads (decodeMajor24 w) w := by
  delta decodeMajor24
  split
  any_goals exact reads_illOp
  all_goals exact reads_word

theorem reads_major25 {w : Nat} (hM : w / 0x4000000 = 0x25) : Reads (decodeMajor25 w) w := by
  delta decodeMajor25
  split
  any_goals exact reads_illOp
  all_goals exact reads_word

theorem reads_major26 {w : Nat} (hM : w / 0x4000000 = 0x26) : Reads (decodeMajor26 w) w := by
  delta decodeMajor26
  split
  any_goals exact reads_illOp
  all_goals exact reads_word

theorem reads_major28 {w : Nat} (hM : w / 0x4000000 = 0x28) : Reads (decodeMajor28 w) w := by
  delta decodeMajor28
  split
  any_goals exact reads_illOp
  all_goals exact reads_word

theorem reads_major29 {w : Nat} (hM : w / 0x4000000 = 0x29) : Reads (decodeMajor29 w) w := by
  delta decodeMajor29
  exact reads_word

theorem reads_major2A {w : Nat} (hM : w / 0x4000000 = 0x2A) : Reads (decodeMajor2A w) w := by
  delta decodeMajor2A
  split
  any_goals exact reads_illOp
  all_goals exact reads_word

theorem reads_major2B {w : Nat} (hM : w / 0x4000000 = 0x2B) : Reads (decodeMajor2B w) w := by
  delta decodeMajor2B
  exact reads_word

theorem reads_major2C {w : Nat} (hM : w / 0x4000000 = 0x2C) : Reads (decodeMajor2C w) w := by
  delta decodeMajor2C
  split
  any_goals exact reads_illOp
  all_goals exact reads_word

theorem reads_major2D {w : Nat} (hM : w / 0x4000000 = 0x2D) : Reads (decodeMajor2D w) w := by
  delta decodeMajor2D
  exact reads_word

theorem reads_major2E {w : Nat} (hM : w / 0x4000000 = 0x2E) : Reads (decodeMajor2E w) w := by
  delta decodeMajor2E
  split
  any_goals exact reads_illOp
  all_goals exact reads_word

theorem reads_major2F {w : Nat} (hM : w / 0x4000000 = 0x2F) : Reads (decodeMajor2F w) w := by
  delta decodeMajor2F
  split
  any_goals exact reads_illOp
  all_goals exact reads_word

theorem reads_major30 {w : Nat} (hM : w / 0x4000000 = 0x30) : Reads (decodeMajor30 w) w := by
  delta decodeMajor30
  split
  any_goals exact reads_illOp
  all_goals exact reads_word

theorem reads_major31 {w : Nat} (hM : w / 0x4000000 = 0x31) : Reads (decodeMajor31 w) w := by
  delta decodeMajor31
  repeat' split
  any_goals exact reads_illOp
  all_goals exact reads_word

theorem reads_major32 {w : Nat} (hM : w / 0x4000000 = 0x32) : Reads (decodeMajor32 w) w := by
  delta decodeMajor32
  split
  any_goals exact reads_illOp
  all_goals exact reads_word

theorem reads_major33 {w : Nat} (hM : w / 0x4000000 = 0x33) : Reads (decodeMajor33 w) w := by
  delta decodeMajor33
  split
  any_goals exact reads_illOp
  all_goals exact reads_word

theorem reads_major34 {w : Nat} (hM : w / 0x4000000 = 0x34) : Reads (decodeMajor34 w) w := by
  delta decodeMajor34
  split
  any_goals exact reads_illOp
  all_goals exact reads_word

theorem reads_major35 {w : Nat} (hM : w / 0x4000000 = 0x35) : Reads (decodeMajor35 w) w := by
  delta decodeMajor35
  repeat' split
  any_goals exact reads_illOp
  all_goals exact reads_word

theorem reads_major36 {w : Nat} (hM : w / 0x4000000 = 0x36) : Reads (decodeMajor36 w) w := by
  delta decodeMajor36
  split
  any_goals exact reads_illOp
  all_goals exact reads_word

theorem reads_major38 {w : Nat} (hM : w / 0x4000000 = 0x38) : Reads (decodeMajor38 w) w := by
  delta decodeMajor38
  split
  any_goals exact reads_illOp
  all_goals exact reads_word

theorem reads_major39 {w : Nat} (hM : w / 0x4000000 = 0x39) : Reads (decodeMajor39 w) w := by
  delta decodeMajor39
  split
  any_goals exact reads_illOp
  all_goals exact reads_word

theorem reads_major3A {w : Nat} (hM : w / 0x4000000 = 0x3A) : Reads (decodeMajor3A w) w := by
  delta decodeMajor3A
  split
  any_goals exact reads_illOp
  all_goals exact reads_word

theorem reads_major3C {w : Nat} (hM : w / 0x4000000 = 0x3C) : Reads (decodeMajor3C w) w := by
  delta decodeMajor3C
  repeat' split
  any_goals exact reads_illOp
  all_goals exact reads_word

theorem reads_major3D {w : Nat} (hM : w / 0x4000000 = 0x3D) : Reads (decodeMajor3D w) w := by
  delta decodeMajor3D
  repeat' split
  any_goals exact reads_illOp
  all_goals exact reads_word

theorem reads_major3E {w : Nat} (hM : w / 0x4000000 = 0x3E) : Reads (decodeMajor3E w) w := by
  delta decodeMajor3E
  repeat' split
  any_goals exact reads_illOp
  all_goals exact reads_word

theorem reads_major3F {w : Nat} (hM : w / 0x4000000 = 0x3F) : Reads (decodeMajor3F w) w := by
  delta decodeMajor3F
  exact reads_word

/-- A word that reads as an instruction is that instruction's encoding. -/
theorem reads_decodeFields (w : Nat) : Reads (decodeFields w) w := by
  delta decodeFields
  split
  · exact reads_major01 ‹_›
  · exact reads_major02 ‹_›
  · exact reads_major03 ‹_›
  · exact reads_major04 ‹_›
  · exact reads_major05 ‹_›
  · exact reads_major06 ‹_›
  · exact reads_major07 ‹_›
  · exact reads_major08 ‹_›
  · exact reads_major09 ‹_›
  · exact reads_major0A ‹_›
  · exact reads_major0B ‹_›
  · exact reads_major10 ‹_›
  · exact reads_major11 ‹_›
  · exact reads_major12 ‹_›
  · exact reads_major13 ‹_›
  · exact reads_major14 ‹_›
  · exact reads_major15 ‹_›
  · exact reads_major18 ‹_›
  · exact reads_major19 ‹_›
  · exact reads_major1A ‹_›
  · exact reads_major1B ‹_›
  · exact reads_major1C ‹_›
  · exact reads_major1D ‹_›
  · exact reads_major20 ‹_›
  · exact reads_major21 ‹_›
  · exact reads_major22 ‹_›
  · exact reads_major23 ‹_›
  · exact reads_major24 ‹_›
  · exact reads_major25 ‹_›
  · exact reads_major26 ‹_›
  · exact reads_major28 ‹_›
  · exact reads_major29 ‹_›
  · exact reads_major2A ‹_›
  · exact reads_major2B ‹_›
  · exact reads_major2C ‹_›
  · exact reads_major2D ‹_›
  · exact reads_major2E ‹_›
  · exact reads_major2F ‹_›
  · exact reads_major30 ‹_›
  · exact reads_major31 ‹_›
  · exact reads_major32 ‹_›
  · exact reads_major33 ‹_›
  · exact reads_major34 ‹_›
  · exact reads_major35 ‹_›
  · exact reads_major36 ‹_›
  · exact reads_major38 ‹_›
  · exact reads_major39 ‹_›
  · exact reads_major3A ‹_›
  · exact reads_major3C ‹_›
  · exact reads_major3D ‹_›
  · exact reads_major3E ‹_›
  · exact reads_major3F ‹_›
  · exact reads_illOp

/-- No word of more than 32 bits is an instruction (R138). -/
theorem decodeFields_of_ge {w : Nat} (h : 2 ^ 32 ≤ w) : decodeFields w = .illOp := by
  delta decodeFields
  split <;> first | omega | rfl

/-! ## The decoder (R144, R145), and its input as bytes -/

/-- What the decoder answers an instruction for. -/
theorem decode_eq_ok_iff {w : Nat} {i : Instr} :
    decode w = .ok i ↔ w ≠ 0 ∧ decodeFields w = .word i false ∧ i.illForm = false ∧ i.rsvForm = false := by
  unfold decode
  by_cases hw : w = 0
  · simp [hw]
  rw [if_neg hw]
  cases hf : decodeFields w with
  | illZero => simp
  | illOp => simp
  | word j reserved =>
    by_cases hill : j.illForm = true
    · simp only [hill, if_true]
      grind
    · cases reserved <;> by_cases hrsv : j.rsvForm = true <;> grind

theorem Instr.wf_iff {i : Instr} : i.wf = true ↔ i.isWord = true ∧ i.illForm = false ∧ i.rsvForm = false := by
  simp [Instr.wf, and_assoc]

theorem lt_of_decodeFields {w : Nat} {i : Instr} {reserved : Bool} (h : decodeFields w = .word i reserved) : w < 2 ^ 32 := by
  by_contra hw
  rw [decodeFields_of_ge (Nat.le_of_not_lt hw)] at h
  cases h

theorem decode_encode {i : Instr} (h : i.wf = true) : decode (encode i) = .ok i := by
  obtain ⟨hword, hill, hrsv⟩ := Instr.wf_iff.mp h
  have hfields : decodeFields (encode i) = .word i false := decodes_of_isWord hword
  refine decode_eq_ok_iff.mpr ⟨fun hzero => ?_, hfields, hill, hrsv⟩
  rw [hzero] at hfields
  cases hfields

theorem encode_lt {i : Instr} (h : i.wf = true) : encode i < 2 ^ 32 :=
  lt_of_decodeFields (decode_eq_ok_iff.mp (decode_encode h)).2.1

theorem wf_of_decode {w : Nat} {i : Instr} (h : decode w = .ok i) : i.wf = true ∧ encode i = w := by
  obtain ⟨-, hfields, hill, hrsv⟩ := decode_eq_ok_iff.mp h
  obtain ⟨hword, hw⟩ := reads_decodeFields w i hfields
  exact ⟨Instr.wf_iff.mpr ⟨hword, hill, hrsv⟩, hw⟩

/-- The four bytes of a word in memory order are read as that word (R138). -/
theorem decodeBytes_bytesOfWord {w : Nat} (h : w < 2 ^ 32) (rest : List Byte) :
    decodeBytes (bytesOfWord w ++ rest) = some (decode w, rest) := by
  have hw : wordOfBytes (BitVec.ofNat 8 w) (BitVec.ofNat 8 (w / 256)) (BitVec.ofNat 8 (w / 0x10000))
      (BitVec.ofNat 8 (w / 0x1000000)) = w := by
    simp only [wordOfBytes, BitVec.toNat_ofNat]
    omega
  simp only [bytesOfWord, List.cons_append, List.nil_append, decodeBytes, hw]

/-- A word of the opcode table reads as the decoder reads it. The definition is unfolded as a function: a kernel that compares it
applied with its body would evaluate the decoder. -/
theorem decodeTableWord_of_decode {w nbits : Nat} {i : Instr} (h : w < 2 ^ 32) (hi : decode w = .ok i) :
    decodeTableWord nbits w = some i := by
  have hb := decodeBytes_bytesOfWord h []
  rw [List.append_nil, hi] at hb
  have hdef : decodeTableWord = decodeTableWord := rfl
  conv at hdef => rhs; delta decodeTableWord
  rw [hdef]
  simp only [hb]

end Sys2Proof
end
section
/-! The encoding of instructions (O60). -/

open Sys2Proof

/-- Settles O60: the fields of an instruction's word are read back one by one, and a word that is read is the sum of the
fields that were read, so that encoding and decoding are inverse to each other, on words and on their bytes. -/
theorem decodeAndEncodeAgree : Obligations.DecodeAndEncodeAgree := by
  unfold Obligations.DecodeAndEncodeAgree
  refine ⟨fun i hwf => ?_, fun w i hw => ?_⟩
  · exact ⟨encode_lt hwf, decode_encode hwf, decodeTableWord_of_decode (encode_lt hwf) (decode_encode hwf)⟩
  · obtain ⟨hwf, rfl⟩ := wf_of_decode hw
    exact ⟨hwf, rfl, fun rest => by rw [decodeBytes_bytesOfWord (encode_lt hwf), hw]⟩
end
section
/-! SUPPORT. A party's turn up to its instruction (R138, R353, R376): counting the issue cycle and taking the turn leave the threads,
the prefixes and the delayed loads, and so does a fetch. -/

namespace Sys2Proof.Machine

/-- Of a core the same but which hart issued last, the counters of idle issue cycles and the caches: threads, prefixes and delayed
loads are as before. -/
def Core.SameTurn (c d : Core) : Prop := (∀ w, d.th w = c.th w) ∧ (∀ h : Fin 8, d.harts[h].pfx = c.harts[h].pfx) ∧ d.lates = c.lates

theorem Core.SameTurn.refl (c : Core) : c.SameTurn c := ⟨fun _ => rfl, fun _ => rfl, rfl⟩

theorem Core.SameTurn.trans {c d e : Core} (h : c.SameTurn d) (k : d.SameTurn e) : c.SameTurn e :=
  ⟨fun w => (k.1 w).trans (h.1 w), fun i => (k.2.1 i).trans (h.2.1 i), k.2.2.trans h.2.2⟩

theorem Core.issue_sameTurn (c : Core) (h : Fin 8) : c.SameTurn (c.issue h) := by
  refine ⟨fun w => ?_, fun k => ?_, rfl⟩
  · cases w with
    | stream => rfl
    | hart k => simp only [Core.th, Core.issue, Fin.getElem_fin, Vector.getElem_ofFn]; split <;> rfl
  · simp only [Core.issue, Fin.getElem_fin, Vector.getElem_ofFn]; split <;> rfl

theorem Core.streamCycle_sameTurn (c : Core) : c.SameTurn c.streamCycle := by
  refine ⟨fun w => ?_, fun k => ?_, rfl⟩
  · cases w <;> simp [Core.th, Core.streamCycle]
  · simp [Core.streamCycle]

/-- Counting the issue cycle of the last step leaves every core's threads, prefixes and delayed loads. -/
theorem State.countIssue_sameTurn (s : State) (i : Fin 192) : s.cores[i].SameTurn s.countIssue[i] := by
  unfold State.countIssue
  split
  · exact .refl _
  next p _ =>
    dsimp only
    split
    · exact .refl _
    · by_cases hp : p.core = i
      · subst hp
        simp only [Fin.getElem_fin, Vector.getElem_set_self]
        split
        · exact Core.issue_sameTurn _ _
        · exact Core.streamCycle_sameTurn _
      · have hne : p.core.val ≠ i.val := fun e => hp (Fin.ext e)
        simp only [Fin.getElem_fin, Vector.getElem_set_ne _ _ hne]
        exact .refl _

theorem Core.modHart_sameTurn (c : Core) (h : Fin 8) (f : Hart → Hart) (hth : ∀ k, (f k).th = k.th) (hpfx : ∀ k, (f k).pfx = k.pfx) :
    c.SameTurn (c.modHart h f) := by
  have hget : ∀ k : Fin 8, (c.modHart h f).harts[k] = if h = k then f c.harts[k] else c.harts[k] := by
    intro k
    by_cases hk : h = k
    · subst hk; simp [Core.modHart]
    · have hne : h.val ≠ k.val := fun e => hk (Fin.ext e)
      simp [Core.modHart, hk, hne]
  refine ⟨fun w => ?_, fun k => ?_, rfl⟩
  · cases w with
    | stream => rfl
    | hart k =>
      simp only [Core.th, hget]
      split
      · exact hth _
      · rfl
  · rw [hget]
    split
    · exact hpfx _
    · rfl

theorem State.enter_cur (s : State) (p : Party) : (s.enter p).cur = p := by
  cases hp : p.who <;> simp [State.enter, hp, State.modHart, State.modCore, State.setCore]

/-- A party that takes its turn finds its core's threads, prefixes and delayed loads as they were. -/
theorem State.enter_sameTurn (s : State) (p : Party) : s.cores[p.core].SameTurn (s.enter p).core := by
  cases hp : p.who with
  | hart h =>
    have : (s.enter p).core = s.cores[p.core].modHart h fun k => { k with yieldLeft := 0 } := by
      simp [State.enter, hp, State.modHart, State.core, State.modCore, State.setCore, Who.hartIx]
    rw [this]
    exact Core.modHart_sameTurn _ _ _ (fun _ => rfl) fun _ => rfl
  | stream =>
    have : (s.enter p).core = s.cores[p.core] := by simp [State.enter, hp, State.core]
    rw [this]
    exact .refl _

theorem State.enter_turn (s : State) (p : Party) : (s.enter p).turn = none := by
  cases hp : p.who <;> simp [State.enter, hp, State.modHart, State.modCore, State.setCore]

theorem State.enter_mem (s : State) (p : Party) : (s.enter p).mem = s.mem := by
  cases hp : p.who <;> simp [State.enter, hp, State.modHart, State.modCore, State.setCore]

theorem State.enter_bad (s : State) (p : Party) : (s.enter p).bad = s.bad := by
  cases hp : p.who <;> simp [State.enter, hp, State.modHart, State.modCore, State.setCore]

/-! ## Fetching delays no load -/

/-- What a cache answers changes no core. -/
theorem pickCached_core (s : State) (ls : List Line) (pa n : Nat) : (pickCached s ls pa n).2.2.core = s.core := by
  have hread : ∀ t : State, (t.traffic .high .read (64 * (pa / 64)) 64 []).core = t.core := fun t => by
    obtain ⟨htraces, hcores⟩ := onlyTraces_read t .high (64 * (pa / 64)) 64
    simp only [State.core, htraces.cur, hcores]
  unfold pickCached
  dsimp only
  split
  · exact hread s
  · split
    · rfl
    · split
      · rfl
      · exact hread _

theorem checkData_ok {s t : State} {source va pa n : Nat} (h : checkData source va pa n s = .ok ((), t)) : t = s := by
  unfold checkData at h
  split at h <;> cases h
  rfl

theorem walkerGate_ok {s t : State} {vas : List Nat} (h : walkerGate vas s = .ok ((), t)) : t = s := by
  unfold walkerGate at h
  split at h <;> cases h
  rfl

/-- A fetch leaves the delayed loads of its core (R138). -/
theorem fetchWord_lates {s t : State} {pc : Word} {w : BitVec 32} (h : fetchWord pc s = .ok (w, t)) :
    t.core.lates = s.core.lates := by
  unfold fetchWord at h
  obtain ⟨src, s1, hsrc, hgated⟩ := Act.bind_ok h
  cases hsrc
  obtain ⟨⟨⟩, s1, hgate, htranslated⟩ := Act.bind_ok hgated
  obtain rfl := walkerGate_ok hgate
  obtain ⟨x, s2, hx, hchecked⟩ := Act.bind_ok htranslated
  obtain ⟨⟨⟩, s3, hdata, hread⟩ := Act.bind_ok hchecked
  obtain rfl := checkData_ok hdata
  cases hread
  rw [State.core_modCore, pickCached_core, xlat_core hx]

/-! ## The step of a party -/

theorem OnlyTraces.pfx {s t : State} (h : OnlyTraces s t) : t.pfx = s.pfx := by
  unfold State.pfx State.isStream
  rw [h.cur, h.hart]

theorem State.pfx_of_hart {s : State} {h : Fin 8} (hw : s.cur.who = .hart h) : s.pfx = s.core.harts[h].pfx := by
  simp [State.pfx, State.isStream, State.hart, hw, Who.hartIx]

theorem State.pfx_of_stream {s : State} (hw : s.cur.who = .stream) : s.pfx = none := by
  simp [State.pfx, State.isStream, hw]

/-- Loads of other parties alone settle nothing before the party's instruction (log 93). -/
theorem State.settleLoads_of_others {s : State} {i : Instr} (h : ∀ l ∈ s.core.lates, l.who ≠ s.cur.who) :
    s.settleLoads i = s := by
  have : s.core.lates.filter (·.who == s.cur.who) = [] := List.filter_eq_nil_iff.mpr fun l hl => by simpa using h l hl
  rw [State.settleLoads, this]
  rfl

/-- A party whose turn it is, with nothing outside the machine waiting, takes the step. -/
theorem step_of_turn {s : State} {p : Party} (hin : s.inbox = []) (hturn : s.turn = some p) :
    step s = match s.tick.turnOf p with
      | .stopped u => .next u
      | .run i u => exec i u
      | .illegal w u => execIllegalWord w u := by
  have hchoices : s.tick.choices = [.party p] := by
    have : s.tick.turn = some p := hturn
    rw [State.choices, this]
  have hinbox : s.tick.inbox = [] := hin
  unfold step
  dsimp only
  rw [hinbox, hchoices]
  rfl

/-- A turn at whose boundary nothing is met runs the word that it fetches. -/
theorem State.turnOf_run {s t : State} {p : Party} {w : BitVec 32} {i : Instr} (hb : (s.enter p).boundary = none)
    (hf : fetchWord (s.enter p).pc (s.enter p) = .ok (w, t)) (hi : decode w.toNat = .ok i) :
    s.turnOf p = .run i (t.settleLoads i) := by
  simp only [State.turnOf, hb, State.fetch, hf, hi]

end Sys2Proof.Machine
end
section
/-! A step runs the instruction at the program counter (O57). -/

open Sys2Proof Sys2Proof.Machine

/-- Settles O57: the turn that the party takes leaves its thread, its PFX word and its delayed loads; the fetch leaves traces; and
the step is the meaning of the word it fetched. -/
theorem stepRunsDecoded : Obligations.StepRunsDecoded := by
  unfold Obligations.StepRunsDecoded
  intro s p x i hin hturn hbound hwalk hreach hgood hmiss hdecode
  have hgood' : (s.tick.enter p).anyBad x.pa 4 = false := by
    simpa [State.anyBad, State.enter_bad] using hgood
  obtain ⟨u, hfetch, htraces⟩ := fetchWord_ok hreach hwalk hgood' hmiss
  have hword : (BitVec.ofNat 32 (readLE (s.tick.enter p).mem x.pa 4)).toNat = readLE s.mem x.pa 4 := by
    rw [State.enter_mem, State.tick_mem, BitVec.toNat_ofNat]
    exact Nat.mod_eq_of_lt (readLE_lt s.mem x.pa 4)
  have hrun := State.turnOf_run hbound hfetch (hword ▸ hdecode)
  have hstep : step s = exec i (u.settleLoads i) := by rw [step_of_turn hin hturn, hrun]
  have hsame : s.cores[p.core].SameTurn (s.tick.enter p).core :=
    (State.countIssue_sameTurn s p.core).trans (State.enter_sameTurn s.tick p)
  obtain ⟨hth, hpfx, hlates⟩ := hsame
  have hcur : u.cur = p := htraces.cur.trans (State.enter_cur ..)
  refine ⟨u, hstep, fun hothers => ?_, htraces, hcur, htraces.turn.trans (State.enter_turn ..), ?_, ?_, ?_⟩
  · rw [hstep, State.settleLoads_of_others]
    rw [fetchWord_lates hfetch, hlates, hcur]
    exact hothers
  · rw [htraces.mem, State.enter_mem, State.tick_mem]
  · rw [htraces.th, State.th, State.enter_cur]
    exact hth _
  · rw [htraces.pfx]
    have hwho : (s.tick.enter p).cur.who = p.who := by rw [State.enter_cur]
    cases hp : p.who with
    | hart h => exact (State.pfx_of_hart (hwho.trans hp)).trans (hpfx h)
    | stream => exact State.pfx_of_stream (hwho.trans hp)
end

section
/-! SUPPORT. The system instructions without a memory access (R145, R146, R353, R356 to R358): what their checks answer, and what
the waits of QUIESCE and TLBINV look for. -/

namespace Sys2Proof.Machine

variable {s : State}

/-! ## The checks of R145 for an entry without vector operands -/

theorem State.isStream_of_hart {h : Fin 8} (hw : s.cur.who = .hart h) : s.isStream = false := by
  simp [State.isStream, hw]

theorem State.isStream_of_stream (hw : s.cur.who = .stream) : s.isStream = true := by
  simp [State.isStream, hw]

theorem State.sys_of_hart {h : Fin 8} (hw : s.cur.who = .hart h) : s.sys = s.hart.sys := by
  simp [State.sys, State.isStream_of_hart hw]

theorem Legal.cause_reserved {l : Legal} (hill : l.ill = false) (hrsv : l.rsv = true) : l.cause s = some 0x02 := by
  simp [Legal.cause, hill, hrsv]

theorem Legal.cause_unprivileged (hp : s.pfx = none) (hsys : s.sys = false) :
    ({ priv := true } : Legal).cause s = some 0x04 := by
  simp [Legal.cause, pfxBroken, hp, hsys]

theorem Legal.cause_privileged (hs : s.isStream = false) (hp : s.pfx = none) (hsys : s.sys = true) :
    ({ priv := true } : Legal).cause s = none := by
  simp [Legal.cause, pfxBroken, hs, hp, hsys]

theorem Legal.cause_stream (hp : s.pfx = none) : ({ stream := true } : Legal).cause s = none := by
  simp [Legal.cause, pfxBroken, hp]

/-! ## Major 0x3E on a hart and on the stream (R297) -/

theorem streamJoin_hart (hs : s.isStream = false) : streamJoin s = .ok ((), s) := by
  simp [streamJoin, hs]

theorem streamJoin_stream (hbusy : s.slabBusy = false) (hheld : s.heldError = none) : streamJoin s = .ok ((), s) := by
  unfold streamJoin slabJoin raiseHeld
  cases hs : s.isStream <;> simp [hs, hbusy, hheld]

/-- An instruction that the stream may run too goes on with its body, where nothing is left to join. -/
theorem finish_joined (hp : s.pfx = none) (hj : streamJoin s = .ok ((), s)) (m : Act Unit) :
    finish (({ stream := true } : Legal).check >>= fun _ => streamJoin >>= fun _ => m) s = finish m s := by
  unfold finish
  rw [Act.run_bind, Act.run_check_ok (Legal.cause_stream hp)]
  dsimp only
  rw [Act.run_bind, hj]

/-- An instruction for system privilege runs its body there. -/
theorem finish_privileged (hs : s.isStream = false) (hp : s.pfx = none) (hsys : s.sys = true) (f : Unit → Act Unit) :
    finish (({ priv := true } : Legal).check >>= f) s = finish (f ()) s := by
  unfold finish
  rw [Act.run_bind, Act.run_check_ok (Legal.cause_privileged hs hp hsys)]

theorem finish_upd (f : State → State) : finish (upd f) s = .next (f s).retire := finish_ok (Act.run_upd f s)

/-! ## PFX (R146) -/

theorem toNat_append_eq_add {m n : Nat} (x : BitVec m) (y : BitVec n) : (x ++ y).toNat = x.toNat * 2 ^ n + y.toNat := by
  rw [BitVec.toNat_append, ← Nat.shiftLeft_add_eq_or_of_lt y.isLt, Nat.shiftLeft_eq]

/-- The fields of the word of a PFX, from its opcode down. -/
theorem pfxWord_eq_append (p : BitVec 3) (v c : BitVec 1) (r : BitVec 5) :
    pfxWord p v c r = (0x3F#6 ++ p ++ v ++ c ++ r ++ 0#16 : BitVec 32) := by
  refine BitVec.eq_of_toNat_eq ?_
  have hp := p.isLt
  have hv := v.isLt
  have hc := c.isLt
  have hr := r.isLt
  simp only [toNat_append_eq_add, pfxWord, BitVec.toNat_ofNat]
  omega

/-- Which fields of a PFX are reserved: an inversion without a predicate, and a register without a copy. -/
theorem pfx_rsv_iff (p : BitVec 3) (v c : BitVec 1) (r : BitVec 5) :
    ((p == 0 && v == 1) || (c == 0 && r != 0)) = true ↔ ¬ ((p ≠ 0 ∨ v = 0) ∧ (c = 1 ∨ r = 0)) := by
  have hv : v = 1 ↔ v ≠ 0 := by revert v; decide
  have hc : c = 0 ↔ c ≠ 1 := by revert c; decide
  simp only [Bool.or_eq_true, Bool.and_eq_true, beq_iff_eq, bne_iff_ne, hv, hc]
  tauto

theorem execPfx_trap {p : BitVec 3} {v c : BitVec 1} {r : BitVec 5} {e : BitVec 8}
    (h : ({ rsv := (p == 0 && v == 1) || (c == 0 && r != 0) } : Legal).cause s = some e) :
    execPfx p v c r s = .next (s.take { cause := e }) := by
  unfold execPfx
  rw [Act.run_bind, Act.run_check_trap h]
  rfl

/-- A PFX of a hart without reserved fields is pending from then on; nothing retires (R149). -/
theorem execPfx_hart {h : Fin 8} {p : BitVec 3} {v c : BitVec 1} {r : BitVec 5} (hw : s.cur.who = .hart h)
    (hl : ({ rsv := (p == 0 && v == 1) || (c == 0 && r != 0) } : Legal).cause s = none) :
    execPfx p v c r s = .next { s with
      epoch := s.epoch + 1
      cores := s.cores.set s.cur.core { s.core with
        harts := s.core.harts.set h { s.hart with
          th := { s.hart.th with pc := s.pc + 4 }
          pfx := some (pfxWord p v c r) } } } := by
  unfold execPfx
  rw [Act.run_bind, Act.run_check_ok hl]
  dsimp only
  rw [Act.run_upd]
  simp [State.setPc, State.modTh, Core.modTh, State.modHart, State.modCore, State.setCore, State.core, State.hart, Core.modHart, hw,
    Who.hartIx]

/-! ## QUIESCE (R356) -/

/-- An operation that is not over, on a core or with a saved gang. -/
def State.OpenOp (s : State) (o : EngineOp) : Prop :=
  (∃ c : Fin 192, o ∈ s.cores[c].ops) ∨ ∃ g ∈ s.outs, ∃ m ∈ g.images, o ∈ m.core.ops

theorem any_cores_iff (cs : Vector Core 192) (p : Core → Bool) :
    cs.toList.any p = true ↔ ∃ c : Fin 192, p cs[c] = true := by
  rw [List.any_eq_true]
  constructor
  · rintro ⟨x, hx, hpx⟩
    obtain ⟨i, hi, rfl⟩ := Vector.mem_iff_getElem.mp (Vector.mem_toList_iff.mp hx)
    exact ⟨⟨i, hi⟩, hpx⟩
  · rintro ⟨c, hc⟩
    exact ⟨cs[c], Vector.mem_toList_iff.mpr (Vector.getElem_mem c.isLt), hc⟩

theorem any_images_iff (gs : List OutGang) (p : EngineOp → Bool) :
    (gs.any fun g => g.images.any fun m => m.core.ops.any p) = true ↔ ∃ g ∈ gs, ∃ m ∈ g.images, ∃ o ∈ m.core.ops, p o = true := by
  simp only [List.any_eq_true]

/-- A search of the operations that are not over finds one. -/
theorem any_openOp_iff (p : EngineOp → Bool) :
    ((s.cores.toList.any fun c => c.ops.any p) || s.outs.any fun g => g.images.any fun m => m.core.ops.any p) = true ↔
      ∃ o, s.OpenOp o ∧ p o = true := by
  rw [Bool.or_eq_true, any_cores_iff, any_images_iff]
  simp only [List.any_eq_true]
  constructor
  · rintro (⟨c, o, ho, hpo⟩ | ⟨g, hg, m, hm, o, ho, hpo⟩)
    · exact ⟨o, .inl ⟨c, ho⟩, hpo⟩
    · exact ⟨o, .inr ⟨g, hg, m, hm, ho⟩, hpo⟩
  · rintro ⟨o, ⟨c, ho⟩ | ⟨g, hg, m, hm, ho⟩, hpo⟩
    · exact .inl ⟨c, o, ho, hpo⟩
    · exact .inr ⟨g, hg, m, hm, o, ho, hpo⟩

theorem State.opsBefore_iff (s : State) (k : Fin 192) (b : Nat) :
    s.opsBefore k b = true ↔ ∃ o, s.OpenOp o ∧ o.home = k.val ∧ o.id < b := by
  refine (any_openOp_iff _).trans ?_
  simp only [Bool.and_eq_true, beq_iff_eq, decide_eq_true_eq]

theorem State.opsBefore_eq_false {k : Fin 192} {b : Nat} (h : ∀ o, s.OpenOp o → o.home = k.val → b ≤ o.id) :
    s.opsBefore k b = false := by
  rw [Bool.eq_false_iff, ne_eq, State.opsBefore_iff]
  rintro ⟨o, hopen, hhome, hlt⟩
  exact absurd hlt (not_lt.mpr (h o hopen hhome))

/-- The second half of a QUIESCE: it waits for the operations numbered below its bound. -/
def quiesceFor (d : Reg) (k : Fin 192) (b : Nat) : Act Unit := do
  let busy ← look fun s => s.opsBefore k b
  if busy then do
    upd (·.modHart fun h => { h with wait := .quiesce b })
    stall
  else do
    acquire
    writeX d 0

theorem finish_quiesceFor_over (d : Reg) {k : Fin 192} {b : Nat} (h : ∀ o, s.OpenOp o → o.home = k.val → b ≤ o.id) :
    finish (quiesceFor d k b) s = .next (s.sdcInvalidate.orderAll.setX d 0).retire := by
  refine finish_ok ?_
  simp [quiesceFor, State.opsBefore_eq_false h]

theorem finish_quiesceFor_waits (d : Reg) {k : Fin 192} {b : Nat} (h : ∃ o, s.OpenOp o ∧ o.home = k.val ∧ o.id < b) :
    finish (quiesceFor d k b) s = .next (s.modHart fun h => { h with wait := .quiesce b }).sleepHere := by
  refine finish_wait ?_
  simp [quiesceFor, (State.opsBefore_iff s k b).mpr h]

/-- The bound of a QUIESCE: the one that the hart waits for, or what a halted core has issued. -/
def quiesceBound (w : Wait) (c : Core) : Option Nat :=
  match w with
  | .quiesce b => some b
  | _ => if c.halted then some c.nextOp else none

theorem quiesceBound_of_ne {w : Wait} (c : Core) (hw : ∀ b, w ≠ .quiesce b) :
    quiesceBound w c = if c.halted then some c.nextOp else none := by
  cases w with
  | quiesce b => exact absurd rfl (hw b)
  | _ => rfl

/-- A QUIESCE with a bound, or of a core that is not halted. -/
def quiesceOn (d : Reg) (k : Fin 192) : Option Nat → Act Unit
  | none => writeX d 1
  | some b => quiesceFor d k b

section
variable {d a : Reg} (hs : s.isStream = false) (hp : s.pfx = none) (hsys : s.sys = true)
include hs hp hsys

theorem execQuiesce_outside (hk : 192 ≤ (s.getX a).toNat) : execQuiesce d a s = .next (s.setX d 2).retire := by
  unfold execQuiesce
  rw [finish_privileged hs hp hsys]
  refine finish_ok ?_
  simp [hk]

/-- On the number of a core, a QUIESCE reads its bound and answers, or waits, by it. -/
theorem execQuiesce_inside {k : Fin 192} (hk : (s.getX a).toNat = k.val) :
    execQuiesce d a s = finish (quiesceOn d k (quiesceBound s.hart.wait s.cores[k])) s := by
  unfold execQuiesce
  rw [finish_privileged hs hp hsys]
  unfold finish
  have hin : ¬ 192 ≤ k.val := not_le.mpr k.isLt
  simp only [Act.run_bind, Act.run_readX, hk, if_neg hin, Act.run_look, coreIx_val]
  rfl

/-- A QUIESCE that waits already goes on with the bound it took. -/
theorem execQuiesce_waiting {k : Fin 192} {b : Nat} (hk : (s.getX a).toNat = k.val) (hwait : s.hart.wait = .quiesce b) :
    execQuiesce d a s = finish (quiesceFor d k b) s := by
  rw [execQuiesce_inside hs hp hsys hk, hwait]
  rfl

/-- A QUIESCE that comes to a halted core takes as its bound what the core has issued so far. -/
theorem execQuiesce_halted {k : Fin 192} (hk : (s.getX a).toNat = k.val) (hwait : ∀ b, s.hart.wait ≠ .quiesce b)
    (hhalted : s.cores[k].halted = true) : execQuiesce d a s = finish (quiesceFor d k s.cores[k].nextOp) s := by
  rw [execQuiesce_inside hs hp hsys hk, quiesceBound_of_ne _ hwait, if_pos hhalted]
  rfl

theorem execQuiesce_running {k : Fin 192} (hk : (s.getX a).toNat = k.val) (hwait : ∀ b, s.hart.wait ≠ .quiesce b)
    (hhalted : s.cores[k].halted = false) : execQuiesce d a s = .next (s.setX d 1).retire := by
  rw [execQuiesce_inside hs hp hsys hk, quiesceBound_of_ne _ hwait, hhalted]
  exact finish_ok rfl

end

/-! ## TLBINV (R357) -/

theorem Inval.tlb_iff (i : Inval) (e : TlbEntry) :
    i.tlb e = true ↔ i.kind = 2 ∨ (e.ctxid = i.ctxid ∧ (i.kind = 1 ∨ i.va / 2 ^ pageBits e.level = e.page)) := by
  unfold Inval.tlb
  by_cases hk : i.kind = 2 <;> simp [hk]

theorem Inval.ptr_iff (i : Inval) (e : BitVec 16 × Nat × Nat × Nat) :
    i.ptr e = true ↔ i.kind = 2 ∨ (e.1 = i.ctxid ∧ (i.kind = 1 ∨ vaPrefix e.2.1 i.va = e.2.2.1)) := by
  unfold Inval.ptr
  by_cases hk : i.kind = 2 <;> simp [hk]

theorem State.cores_tlbInvalidate (s : State) (i : Inval) (c : Fin 192) :
    (s.tlbInvalidate i).cores[c] = { s.cores[c] with tlb := s.cores[c].tlb.filter fun e => !i.tlb e } := by
  simp [State.tlbInvalidate]

theorem State.dies_tlbInvalidate (s : State) (i : Inval) (c : Fin 4) :
    (s.tlbInvalidate i).dies[c] = { s.dies[c] with
      ptrs := s.dies[c].ptrs.filter fun p => !i.ptr p
      walks := s.dies[c].walks.filter fun w => !i.walk w } := by
  simp [State.tlbInvalidate]

theorem mem_filter_not {α : Type} (p : α → Bool) (l : List α) (a : α) :
    (a ∈ l.filter fun x => !p x) ↔ a ∈ l ∧ ¬ p a = true := by
  simp [List.mem_filter]

theorem State.mem_tlb_tlbInvalidate (s : State) (i : Inval) (c : Fin 192) (e : TlbEntry) :
    e ∈ (s.tlbInvalidate i).cores[c].tlb ↔ e ∈ s.cores[c].tlb ∧
      ¬ (i.kind = 2 ∨ (e.ctxid = i.ctxid ∧ (i.kind = 1 ∨ i.va / 2 ^ pageBits e.level = e.page))) := by
  rw [State.cores_tlbInvalidate, mem_filter_not, Inval.tlb_iff]

theorem State.mem_walks_tlbInvalidate (s : State) (i : Inval) (c : Fin 4) (w : WalkRun) :
    w ∈ (s.tlbInvalidate i).dies[c].walks ↔ w ∈ s.dies[c].walks ∧ i.walk w = false := by
  rw [State.dies_tlbInvalidate, mem_filter_not, Bool.not_eq_true]

theorem State.mem_ptrs_tlbInvalidate (s : State) (i : Inval) (c : Fin 4) (e : BitVec 16 × Nat × Nat × Nat) :
    e ∈ (s.tlbInvalidate i).dies[c].ptrs ↔ e ∈ s.dies[c].ptrs ∧
      ¬ (i.kind = 2 ∨ (e.1 = i.ctxid ∧ (i.kind = 1 ∨ vaPrefix e.2.1 i.va = e.2.2.1))) := by
  rw [State.dies_tlbInvalidate, mem_filter_not, Inval.ptr_iff]

/-- An invalidation is over when no page request, and no operation on a core or with a saved gang, may have used what it
removes. -/
theorem State.tlbBusy_tlbInvalidate (s : State) (i : Inval) :
    (s.tlbInvalidate i).tlbBusy i = true ↔ (∃ r ∈ s.reqs, i.req r = true) ∨ (∃ c : Fin 192, ∃ o ∈ s.cores[c].ops, i.op o = true) ∨
      ∃ g ∈ s.outs, ∃ m ∈ g.images, ∃ o ∈ m.core.ops, i.op o = true := by
  have hops : ∀ c : Fin 192, (s.tlbInvalidate i).cores[c].ops = s.cores[c].ops := fun c => by rw [State.cores_tlbInvalidate]
  unfold State.tlbBusy
  rw [Bool.or_eq_true, Bool.or_eq_true, any_cores_iff, any_images_iff, or_assoc]
  simp only [hops, List.any_eq_true]
  rfl

theorem execTlbinv_trap {d a : Reg} {k : BitVec 2} {e : BitVec 8}
    (h : ({ priv := true, rsv := k == 3 } : Legal).cause s = some e) : execTlbinv d a k s = .next (s.take { cause := e }) :=
  finish_check_trap h _

section
variable {d a : Reg} {k : BitVec 2} {i : Inval} (hs : s.isStream = false) (hp : s.pfx = none) (hsys : s.sys = true) (hk : k ≠ 3)
  (hi : i = { kind := k, ctxid := (s.getX d).setWidth 16, va := (s.getX a).toNat })
include hs hp hsys hk hi

theorem execTlbinv_over (hbusy : (s.tlbInvalidate i).tlbBusy i = false) :
    execTlbinv d a k s = .next (s.tlbInvalidate i).retire := by
  subst hi
  unfold execTlbinv
  rw [beq_eq_false_iff_ne.mpr hk, finish_privileged hs hp hsys]
  refine finish_ok ?_
  simp [hbusy]

theorem execTlbinv_waits (hbusy : (s.tlbInvalidate i).tlbBusy i = true) :
    execTlbinv d a k s = .next (s.tlbInvalidate i).sleepHere := by
  subst hi
  unfold execTlbinv
  rw [beq_eq_false_iff_ne.mpr hk, finish_privileged hs hp hsys]
  refine finish_wait ?_
  simp [hbusy]

end

end Sys2Proof.Machine
end

section
/-! Control of the system: PFX, YIELD, QUIESCE and the invalidations (O26). -/

open Sys2Proof Sys2Proof.Machine

/-- Settles O26, clause by clause: the checks of R145 pass or give their cause, and each body is run on the state. -/
theorem systemControl : Obligations.SystemControl := by
  unfold Obligations.SystemControl
  refine ⟨fun s p v c r h hw => ?_, fun s h hw hp => ?_, fun s hw hbusy hheld => ?_, fun s d a h hw hp => ?_,
    fun s d a k h hw hp => ?_⟩
  · have hs := State.isStream_of_hart hw
    refine ⟨fun hl hp => ?_, fun hl hp => ?_, fun hl => ?_⟩
    · have hrsv := Bool.eq_false_iff.mpr fun h => (pfx_rsv_iff p v c r).mp h hl
      rw [← pfxWord_eq_append]
      refine execPfx_hart hw ?_
      rw [hrsv]
      exact Legal.cause_default hs hp
    · have hrsv := Bool.eq_false_iff.mpr fun h => (pfx_rsv_iff p v c r).mp h hl
      obtain ⟨w, hw⟩ := Option.ne_none_iff_exists'.mp hp
      exact execPfx_trap (Legal.cause_pfxBad rfl hrsv (hw ▸ pfxBroken_some rfl rfl w))
    · exact execPfx_trap (Legal.cause_reserved rfl ((pfx_rsv_iff p v c r).mpr hl))
  · have hs := State.isStream_of_hart hw
    have hj := streamJoin_hart hs
    rw [← State.sys_of_hart hw]
    refine ⟨?_, ?_, ?_, fun hsys => ?_, fun hsys => finish_check_trap (Legal.cause_unprivileged hp hsys) _⟩
    · refine (finish_joined hp hj _).trans ((finish_upd _).trans ?_)
      simp [hs]
    · exact (finish_checked hs hp _).trans (finish_upd _)
    · exact (finish_joined hp hj _).trans (finish_upd _)
    · exact (finish_privileged hs hp hsys _).trans (finish_upd _)
  · have hp := State.pfx_of_stream hw
    have hj := streamJoin_stream hbusy hheld
    refine ⟨(finish_joined hp hj _).trans ((finish_upd _).trans ?_), (finish_joined hp hj _).trans (finish_upd _)⟩
    simp [State.isStream_of_stream hw]
  · have hs := State.isStream_of_hart hw
    rw [← State.sys_of_hart hw]
    refine ⟨fun hsys => finish_check_trap (Legal.cause_unprivileged hp hsys) _, fun hsys hk => execQuiesce_outside hs hp hsys hk,
      fun hsys k hk => ⟨fun b hwait => ?_, fun hwait => ⟨fun hrun => execQuiesce_running hs hp hsys hk hwait hrun, fun hhalt => ?_⟩⟩⟩
    · have hrun : exec (.quiesce d a) s = _ := execQuiesce_waiting hs hp hsys hk hwait
      rw [hrun]
      exact ⟨finish_quiesceFor_over d, finish_quiesceFor_waits d⟩
    · have hrun : exec (.quiesce d a) s = _ := execQuiesce_halted hs hp hsys hk hwait hhalt
      rw [hrun]
      exact ⟨finish_quiesceFor_over d, finish_quiesceFor_waits d⟩
  · have hs := State.isStream_of_hart hw
    rw [← State.sys_of_hart hw]
    refine ⟨fun hk => execTlbinv_trap (Legal.cause_reserved rfl (beq_iff_eq.mpr hk)), fun hk hsys => ?_,
      fun hk hsys => ⟨execTlbinv_over hs hp hsys hk rfl, execTlbinv_waits hs hp hsys hk rfl⟩, rfl,
      fun c => ⟨?_, State.mem_tlb_tlbInvalidate s _ c⟩,
      fun c => ⟨?_, State.mem_walks_tlbInvalidate s _ c, State.mem_ptrs_tlbInvalidate s _ c⟩, State.tlbBusy_tlbInvalidate s _⟩
    · refine execTlbinv_trap ?_
      rw [beq_eq_false_iff_ne.mpr hk]
      exact Legal.cause_unprivileged hp hsys
    · rw [State.cores_tlbInvalidate]
    · rw [State.dies_tlbInvalidate]

end

section
/-! SUPPORT. Loading a code object (R163, R165, R368): the Launch Controller's accesses leave the contexts' tables and every
instruction cache, and a load ends with a status that is not 0 before it changes them, or performed. -/

namespace Sys2Proof.Machine

/-- The load requests, the symbols, the kernels and the partitions of the contexts are as before, and so is every core's
instruction cache. -/
structure State.KeepsContexts (s t : State) : Prop where
  loads : t.loads = s.loads
  symbols : t.symbols = s.symbols
  kernels : t.kernels = s.kernels
  ctxpart : t.ctxpart = s.ctxpart
  icache : ∀ i : Fin 192, t.cores[i].icache = s.cores[i].icache

variable {s t u : State}

namespace State.KeepsContexts

theorem refl (s : State) : s.KeepsContexts s := ⟨rfl, rfl, rfl, rfl, fun _ => rfl⟩

theorem trans (h : s.KeepsContexts t) (k : t.KeepsContexts u) : s.KeepsContexts u :=
  ⟨k.loads.trans h.loads, k.symbols.trans h.symbols, k.kernels.trans h.kernels, k.ctxpart.trans h.ctxpart,
    fun i => (k.icache i).trans (h.icache i)⟩

theorem foldl {ι : Type} {f : State → ι → State} (hf : ∀ (t : State) (b : ι), t.KeepsContexts (f t b)) (l : List ι) (s : State) :
    s.KeepsContexts (l.foldl f s) := by
  induction l generalizing s with
  | nil => exact refl s
  | cons b l ih => exact (hf s b).trans (ih _)

theorem of_traces (h : OnlyTraces s t) (hcores : t.cores = s.cores) : s.KeepsContexts t := by
  obtain ⟨h, -, -⟩ := h
  exact ⟨by rw [h], by rw [h], by rw [h], by rw [h], fun i => by rw [hcores]⟩

theorem modCoreAt (i : Fin 192) {f : Core → Core} (hf : ∀ c : Core, (f c).icache = c.icache) :
    s.KeepsContexts (s.modCoreAt i f) := by
  refine ⟨rfl, rfl, rfl, rfl, fun j => ?_⟩
  by_cases h : j = i
  · subst h
    rw [State.cores_modCoreAt_same]
    exact hf _
  · rw [State.cores_modCoreAt_other s f h]

/-! ## The log, stores, and accesses on their way (R25, R33, R49) -/

theorem logEvent (k c a : Nat) (co : Option Nat) (ha au : Nat) : s.KeepsContexts (s.logEvent k c a co ha au) := by
  unfold State.logEvent
  extract_lets die e l
  clear_value l
  split
  · exact ⟨rfl, rfl, rfl, rfl, fun _ => rfl⟩
  · exact ⟨rfl, rfl, rfl, rfl, fun _ => rfl⟩

theorem recheck (whole touched : List Nat) : s.KeepsContexts (s.recheck whole touched) := by
  unfold State.recheck
  refine trans (t := { s with bad := s.bad.filter (!whole.contains ·) }) ⟨rfl, rfl, rfl, rfl, fun _ => rfl⟩ ?_
  refine foldl (fun t k => ?_) _ _
  split
  · exact logEvent ..
  · exact refl t

theorem ofMem (m : List Host.Cell) : s.KeepsContexts { s with mem := m } := ⟨rfl, rfl, rfl, rfl, fun _ => rfl⟩

theorem store (pa : Nat) (bs : List Byte) : s.KeepsContexts (s.store pa bs) := by
  unfold State.store
  dsimp only
  split
  · exact ofMem _
  · exact (ofMem _).trans (recheck ..)

theorem storeLE (pa n v : Nat) : s.KeepsContexts (s.storeLE pa n v) := by
  unfold State.storeLE
  split
  · exact ofMem _
  · exact store ..

theorem storeCells (cs : List (Nat × Byte)) : s.KeepsContexts (s.storeCells cs) := by
  unfold State.storeCells
  dsimp only
  split
  · exact ofMem _
  · exact (ofMem _).trans (recheck ..)

theorem touchHbm (use : CacheUse) (pa n : Nat) : s.KeepsContexts (s.touchHbm use pa n) :=
  of_traces (onlyTraces_touchHbm s use pa n).1 (onlyTraces_touchHbm s use pa n).2

theorem sendPoisoned (i : Fin 192) (p pa n : Nat) : s.KeepsContexts (s.sendPoisoned i p pa n) := by
  have hflaw : s.KeepsContexts (s.modCoreAt i fun c => { c with flaws := c.flaws.erase (.outgoing (dieIx p)) }) :=
    modCoreAt i fun _ => rfl
  unfold State.sendPoisoned
  dsimp only
  refine trans ?_ (logEvent ..)
  exact hflaw.trans ⟨rfl, rfl, rfl, rfl, fun _ => rfl⟩

theorem portRequest (k : ReqKind) (p pa n : Nat) (d : List Byte) : s.KeepsContexts (s.portRequest k p pa n d) := by
  unfold State.portRequest
  extract_lets fails t
  have ht : s.KeepsContexts t := ⟨rfl, rfl, rfl, rfl, fun _ => rfl⟩
  clear_value t
  cases fails with
  | none => exact ht
  | some core => exact ht.trans (sendPoisoned ..)

theorem traffic (use : CacheUse) (k : ReqKind) (pa n : Nat) (d : List Byte) : s.KeepsContexts (s.traffic use k pa n d) := by
  unfold State.traffic
  split
  · exact touchHbm ..
  · exact portRequest ..
  · exact refl s

/-! ## Page-in requests (R42, R111) -/

theorem ringProduce {tr : Nat → Bool → Except Nat Nat} {d : Nat} {r : Bool → List Byte} (h : s.ringProduce tr d r = .written t) :
    s.KeepsContexts t := by
  unfold State.ringProduce at h
  dsimp only at h
  repeat' split at h
  all_goals cases h
  exact ((((((traffic ..).trans (traffic ..)).trans (traffic ..)).trans (store ..)).trans (storeLE ..)).trans (traffic ..))

theorem postRequest (id : Nat) : s.KeepsContexts (s.postRequest id) := by
  unfold State.postRequest
  split
  · exact refl s
  dsimp only
  split
  · exact refl s
  split
  · exact refl s
  split
  · next h => exact trans (ringProduce h) ⟨rfl, rfl, rfl, rfl, fun _ => rfl⟩
  · exact refl s
  · split
    · exact refl s
    · refine trans ?_ (logEvent ..)
      exact ⟨rfl, rfl, rfl, rfl, fun _ => rfl⟩

theorem pageIn (a : Agent) (va level : Nat) (e : Word) (epa : Nat) : s.KeepsContexts (s.pageIn a va level e epa) := by
  unfold State.pageIn
  split
  · exact refl s
  · refine trans ?_ (postRequest _)
    exact ((storeLE ..).trans (touchHbm ..)).trans ⟨rfl, rfl, rfl, rfl, fun _ => rfl⟩

/-! ## Translation (R40) -/

theorem unitFault {a : Agent} {pa : Nat} {f : Nat × State} (h : s.unitFault a pa = some f) : s.KeepsContexts f.2 := by
  have hused : ∀ (c : Fin 192) (x : HwUnit), s.KeepsContexts (s.modCoreAt c fun k => { k with flaws := k.flaws.erase x }) :=
    fun c x => modCoreAt c fun _ => rfl
  unfold State.unitFault at h
  dsimp only at h
  repeat' split at h
  all_goals cases h
  all_goals exact hused _ _

/-- Whatever a translation answers, it leaves the contexts. -/
theorem translate (a : Agent) (acc : Acc) (va : Nat) : s.KeepsContexts (s.translate a acc va).state := by
  have hr : s.KeepsContexts (s.resolve a va).2 := of_traces (resolve_traces s a va).1 (resolve_traces s a va).2
  have hentry (e : TlbEntry) (c : Core) :
      (if c.tlb.contains e then c else { c with tlb := (e :: c.tlb).take 192 }).icache = c.icache := by
    split <;> rfl
  unfold State.translate
  dsimp only
  split
  · exact refl s
  split
  · exact refl s
  split
  · exact hr
  · exact hr.trans (logEvent ..)
  · exact hr.trans (logEvent ..)
  · split
    · exact hr
    split
    · exact hr
    split
    · exact hr.trans (pageIn ..)
    split
    · exact hr
    split
    · next h => exact hr.trans (unitFault h)
    · split
      · exact hr
      · exact hr.trans (modCoreAt (s := (s.resolve a va).2) _ (hentry _))

/-! ## The Launch Controller's accesses (R40, R368) -/

theorem lcXlat (a : Agent) (acc : Acc) (va : Nat) : s.KeepsContexts (s.lcXlat a acc va).2 := by
  have h := translate (s := s) a acc va
  unfold State.lcXlat
  split
  · next e => rwa [e] at h
  · next e => rwa [e] at h

theorem lcReadParts (a : Agent) (source : Nat) (ps : List (Nat × Nat)) : s.KeepsContexts (s.lcReadParts a source ps).2 := by
  induction ps generalizing s with
  | nil => exact refl s
  | cons p ps ih =>
    unfold State.lcReadParts
    dsimp only
    split
    · exact lcXlat ..
    · split
      · exact (lcXlat ..).trans (logEvent ..)
      · split <;> exact ((lcXlat ..).trans (traffic ..)).trans ih

theorem lcRead (a : Agent) (source va n : Nat) : s.KeepsContexts (s.lcRead a source va n).2 := lcReadParts ..

theorem lcPlaces (a : Agent) (va n : Nat) : s.KeepsContexts (s.lcPlaces a va n).2 := by
  induction n generalizing s va with
  | zero => exact refl s
  | succ n ih =>
    unfold State.lcPlaces
    dsimp only
    split
    · exact lcXlat ..
    · split <;> exact (lcXlat ..).trans (ih _)

theorem lcPut (va : Nat) (ps : List Nat) (bs : List Byte) : s.KeepsContexts (s.lcPut va ps bs) :=
  (storeCells _).trans (foldl (fun _ _ => traffic ..) _ _)

theorem lcWrite (a : Agent) (va : Nat) (bs : List Byte) : s.KeepsContexts (s.lcWrite a va bs).2 := by
  unfold State.lcWrite
  dsimp only
  split
  · exact lcPlaces ..
  · exact (lcPlaces ..).trans (lcPut ..)

theorem applyUse (a : Agent) (u : RelocUse) (v : Nat) : s.KeepsContexts (s.applyUse a u v).2 := by
  unfold State.applyUse
  dsimp only
  split
  · exact lcPlaces ..
  · exact ((lcPlaces ..).trans (foldl (fun _ _ => traffic ..) _ _)).trans (lcPut ..)

theorem each {α : Type} {f : State → α → Bool × State} (hf : ∀ (u : State) (x : α), u.KeepsContexts (f u x).2) (xs : List α) :
    s.KeepsContexts (State.each f s xs).2 := by
  induction xs generalizing s with
  | nil => exact refl s
  | cons x xs ih =>
    unfold State.each
    dsimp only
    split
    · exact (hf s x).trans ih
    · exact hf s x

theorem probes (a : Agent) (xs : List (Nat × Nat)) : s.KeepsContexts (State.each (fun u x => u.probe a x) s xs).2 :=
  each (fun _ _ => lcPlaces ..) xs

end State.KeepsContexts

/-! ## The end of a load -/

/-- A load that is performed leaves the requests, and empties the instruction caches of the context's partition (R53). -/
theorem perform_true {p : Placing} {b : List Byte} {us : List (RelocUse × Nat)} {a : Agent} (h : (p.perform b us a s).1 = true) :
    (p.perform b us a s).2.loads = s.loads ∧ ∀ i : Fin 192, bitOf (s.ctxpart[ix64 p.ctx]).toNat (i.val / 4) = true →
      (p.perform b us a s).2.cores[i].icache = [] := by
  unfold Placing.perform at h ⊢
  dsimp only at h ⊢
  generalize (p.obj.sections.zip p.places).filter (·.1.placed) = secs at h ⊢
  have hr : s.KeepsContexts (State.each (fun t x => t.lcWrite a x.2 (sectionBytes b x.1)) s secs).2 := .each (fun _ _ => .lcWrite ..) _
  generalize State.each (fun t x => t.lcWrite a x.2 (sectionBytes b x.1)) s secs = r at h hr ⊢
  have hq : s.KeepsContexts (State.each (fun t x => t.applyUse a x.1 x.2) r.2 us).2 := hr.trans (.each (fun _ _ => .applyUse ..) _)
  generalize State.each (fun t x => t.applyUse a x.1 x.2) r.2 us = q at h hq ⊢
  obtain ⟨sectionsWritten, t⟩ := r
  obtain ⟨usesApplied, u⟩ := q
  cases sectionsWritten with
  | false => cases h
  | true =>
    cases usesApplied with
    | false => cases h
    | true =>
      simp only [Bool.not_true, Bool.false_eq_true, if_false]
      refine ⟨hq.loads, fun i hi => ?_⟩
      rw [Fin.getElem_fin, Vector.getElem_ofFn, hi]
      rfl

/-- Checks 4 to 7 fail with their own number. -/
theorem examine_error {p : Placing} {e : LoadStatus} (h : p.examine s = .error e) : e.1 ≠ 0 := by
  unfold Placing.examine at h
  dsimp only at h
  repeat' split at h
  all_goals cases h
  all_goals exact Nat.succ_ne_zero _

/-- How a load ends: with a status that is not 0 and nothing of the contexts changed, or performed where its checks left the
machine. -/
inductive State.LoadEnds (s : State) (r : LoadReq) : LoadStatus × State → Prop where
  | failed {e : LoadStatus} {t : State} (he : e.1 ≠ 0) (ht : s.KeepsContexts t) : s.LoadEnds r (e, t)
  | performed {p : Placing} {b : List Byte} {us : List (RelocUse × Nat)} {a : Agent} {t : State} (hctx : p.ctx = r.ctx)
      (ht : s.KeepsContexts t) (hok : (p.perform b us a t).1 = true) : s.LoadEnds r ((0, 0), (p.perform b us a t).2)

/-- The object's header, its text and its table are read one after the other, then checked; the places are tried, then
written. -/
theorem tryLoad_ends (s : State) (r : LoadReq) : s.LoadEnds r (s.tryLoad r) := by
  unfold State.tryLoad
  have hhead : ∀ a, s.KeepsContexts (s.lcRead a 1 r.object 64).2 := fun a => .lcRead ..
  have hobject : ∀ a n, s.KeepsContexts ((s.lcRead a 1 r.object 64).2.lcRead a 1 r.object n).2 := fun a n => (hhead a).trans (.lcRead ..)
  have htable : ∀ a n k, s.KeepsContexts (((s.lcRead a 1 r.object 64).2.lcRead a 1 r.object n).2.lcRead a 1 r.table k).2 :=
    fun a n k => (hobject a n).trans (.lcRead ..)
  dsimp only
  split
  · exact .failed one_ne_zero (.refl s)
  split
  · exact .failed one_ne_zero (hhead _)
  split
  · exact .failed one_ne_zero (hhead _)
  split
  · exact .failed one_ne_zero (hobject ..)
  split
  · exact .failed one_ne_zero (htable ..)
  split
  · exact .failed one_ne_zero (htable ..)
  split
  · exact .failed one_ne_zero (htable ..)
  split
  · exact .failed two_ne_zero (htable ..)
  split
  · exact .failed three_ne_zero (htable ..)
  split
  · next h => exact .failed (examine_error h) (htable ..)
  split
  · exact .failed one_ne_zero ((htable ..).trans (.probes ..))
  split
  · next hok => exact .performed rfl ((htable ..).trans (.probes ..)) hok
  · exact .failed one_ne_zero ((htable ..).trans (.probes ..))

theorem tryLoad_bad {r : LoadReq} (h : r.bad = true) : s.tryLoad r = ((1, 0), s) := by
  simp [State.tryLoad, h]

/-- What a load leaves up to its status: the requests, the tables of every context where it failed, and empty instruction
caches in the context's partition where it did not. -/
theorem State.LoadEnds.result {r : LoadReq} {x : LoadStatus × State} (h : s.LoadEnds r x) :
    x.2.loads = s.loads ∧ (x.1.1 ≠ 0 → x.2.symbols = s.symbols ∧ x.2.kernels = s.kernels) ∧
      (x.1.1 = 0 → ∀ i : Fin 192, bitOf (s.ctxpart[ix64 r.ctx]).toNat (i.val / 4) = true → x.2.cores[i].icache = []) := by
  cases h with
  | failed he ht => exact ⟨ht.loads, fun _ => ⟨ht.symbols, ht.kernels⟩, fun h0 => absurd h0 he⟩
  | performed hctx ht hok =>
    obtain ⟨hloads, hicache⟩ := perform_true hok
    simp only [ht.ctxpart, hctx] at hicache
    exact ⟨hloads.trans ht.loads, fun h0 => absurd rfl h0, fun _ => hicache⟩

theorem signalAdd_zero (s : State) (ctx die : Nat) : s.signalAdd ctx die 0 = s := rfl

/-- A load that may run is over after its step: the status block is written and the request is gone. -/
theorem loadObject_of_ready {r : LoadReq} (hfind : s.loads.find? (·.id == r.id) = some r) (hready : s.loadReady r = true)
    (hsignal : r.signal = 0) {t : State}
    (ht : t = ((s.tryLoad r).2.lcWrite { s.lcAgent r.ctx r.home with sys := true } r.status (statusBytes (s.tryLoad r).1)).2) :
    s.loadObject r.id = { t with loads := t.loads.filter (·.id != r.id), epoch := t.epoch + 1 } := by
  subst ht
  simp [State.loadObject, hfind, hready, hsignal, signalAdd_zero]

end Sys2Proof.Machine
end

section
/-! Loading a code object (O47). -/

open Sys2Proof Sys2Proof.Machine

/-- Settles O47: the load ends failed or performed, and the write of its status block leaves what it left of the contexts. -/
theorem codeObjectLoads : Obligations.CodeObjectLoads := by
  unfold Obligations.CodeObjectLoads
  intro s r hfind hready hsignal a x
  obtain ⟨hloads, hfailed, hdone⟩ := (tryLoad_ends s r).result
  have hkept : x.2.KeepsContexts (x.2.lcWrite a r.status (statusBytes x.1)).2 := .lcWrite ..
  refine ⟨s.loadObject r.id, rfl, ?_⟩
  rw [loadObject_of_ready hfind hready hsignal rfl]
  refine ⟨?_, rfl, fun h => ?_, fun h i hi => ?_, tryLoad_bad⟩
  · show List.filter _ _ = _
    rw [hkept.loads, hloads]
    exact List.filter_congr fun q _ => by rw [Bool.eq_iff_iff, bne_iff_ne, decide_eq_true_iff]
  · exact ⟨hkept.symbols.trans (hfailed h).1, hkept.kernels.trans (hfailed h).2⟩
  · exact (hkept.icache i).trans (hdone h i hi)

end

section
/-! SUPPORT. A port through which the next data leave with a failing check that stands recorded by another core than the one
that stores (R323, log 95); and what a vector store that completes is said to leave of the other cores. -/

namespace Sys2Proof.Machine

variable {s u : State}

/-- Hart 0 of core 0 has one row, and x5 names the start of port 0's window, which VA 0x40000000 is mapped to. Core 1 is the
one by which a failure of the data that next leave through port 0 stands recorded. -/
def failureByOtherCore : State :=
  let s := State.reset.withFetchWord 32 0
  let t := (s.modHart fun h => { h with vl := 1, th := h.th.set 5 0x40000000 }).modCore fun c => { c with pword := 0x3754 }
  { t.modCoreAt 1 fun c => { c with flaws := [.outgoing 0] } with mem := writeLE s.mem 0x200008 8 0x800000000015F }

/-- The failing units of core 1, and the sectors whose check fails, after an instruction. -/
def failuresAfter : Host.Outcome State Fault Refusal → Option (List HwUnit × List Nat)
  | .next t => some (t.cores[(1 : Fin 192)].flaws, t.bad)
  | _ => none

theorem failureByOtherCore_hart : failureByOtherCore.cur.who = .hart 0 ∧ failureByOtherCore.stepping = false := by
  decide +kernel

theorem failureByOtherCore_failures :
    failureByOtherCore.cores[(1 : Fin 192)].flaws = [.outgoing 0] ∧ failureByOtherCore.bad = [] := by
  decide +kernel

theorem Hart.replayStep_sys (h : Hart) : h.replayStep.sys = h.sys := by
  unfold Hart.replayStep
  split <;> rfl

/-- The end of an instruction of a hart that is not single-stepped changes no other core and no check. -/
theorem retire_elsewhere {h : Fin 8} (hw : s.cur.who = .hart h) (hstep : s.stepping = false) :
    s.retire.bad = s.bad ∧ ∀ c : Fin 192, c ≠ s.cur.core → s.retire.cores[c] = s.cores[c] := by
  rw [State.retire_hart hw hstep]
  exact ⟨rfl, fun _ hc => State.core_setCore_other s _ hc⟩

theorem OnlyStore.cur (h : OnlyStore s u) : u.cur = s.cur := by rw [h.1]

theorem OnlyStore.core (h : OnlyStore s u) :
    u.core = { s.core with tlb := u.core.tlb, sdc := u.core.sdc, icache := u.core.icache, past := u.core.past,
                           lates := u.core.lates, unflushed := u.core.unflushed, flaws := u.core.flaws } := by
  obtain ⟨-, -, hcores, -⟩ := id h
  have hcore := hcores u.cur.core
  have hbefore : s.cores[u.cur.core] = s.core := by simp only [h.cur, State.core]
  rwa [hbefore] at hcore

theorem OnlyStore.sameMode (h : OnlyStore s u) : SameMode s u := by
  have hharts : u.core.harts = s.core.harts := by rw [h.core]
  refine ⟨h.cur, ?_, by rw [h.core]⟩
  simp only [State.hart, h.cur, hharts]

/-- A vector store that completes as it is said to leaves the other cores as they were. -/
theorem StoresElements.elsewhere {i : Instr} {rows : List Nat} {n w : Nat} {bit : Nat → Nat} {r : List Nat × State} {h : Fin 8}
    (hstores : StoresElements i s rows n w bit r) (hw : s.cur.who = .hart h) (hstep : s.stepping = false) :
    ∃ t, exec i s = .next t ∧ ∀ c : Fin 192, c ≠ s.cur.core → t.cores[c] = s.cores[c] := by
  obtain ⟨u, hexec, hcur, -, -, -, -, ⟨-, -, -, hcores, hcore⟩, hhart⟩ := hstores
  have hmode : SameMode s u := by
    refine ⟨hcur, ?_, by rw [hcore]⟩
    rw [hhart]
    exact s.hart.replayStep_sys
  obtain ⟨-, hothers⟩ := retire_elsewhere (hcur ▸ hw) (hmode.stepping.trans hstep)
  exact ⟨_, hexec, fun c hc => (hothers c (hcur ▸ hc)).trans (hcores c hc)⟩

/-- A vector store from there cannot complete so, where it ends the failure by which core 1 stands. -/
theorem not_storesElements {i : Instr} {rows : List Nat} {n w : Nat} {bit : Nat → Nat} {r : List Nat × State}
    (hends : (failuresAfter (exec i failureByOtherCore)).map (·.1) = some []) :
    ¬ StoresElements i failureByOtherCore rows n w bit r := by
  intro hstores
  obtain ⟨hw, hstep⟩ := failureByOtherCore_hart
  obtain ⟨t, hexec, hothers⟩ := hstores.elsewhere hw hstep
  rw [hexec, failuresAfter, hothers 1 (by decide +kernel), failureByOtherCore_failures.1] at hends
  cases hends

end Sys2Proof.Machine
end

section
/-! The words of the spec (O59), and the statements that a failure recorded by another core refutes (O6, O16, O17). -/

open Sys2Proof Sys2Proof.Machine

/-- Settles O59: each word is decoded. -/
theorem wordsOfTheSpec : Obligations.WordsOfTheSpec := by
  unfold Obligations.WordsOfTheSpec
  decide

/-- Refutes O6: a store of a core from which no failing transfer leaves can leave a failing check all the same. Where the data
that next leave through a port fail their check there, and that failure stands recorded by another core, the store is sent
poisoned (R29, R323), and the memory behind the port keeps a sector that fails. -/
theorem not_scalarMemory : ¬ Obligations.ScalarMemory := by
  unfold Obligations.ScalarMemory
  rintro ⟨-, hstores, -⟩
  obtain ⟨u, hexec, hstore, -, hgood, -⟩ := hstores failureByOtherCore 0 5 0 0 { pa := 0x10000000000000000, idem := true }
    (by decide +kernel) (by decide +kernel) (.stN64 0 5 0 0, 8) (by simp [scalarStores]) (by decide +kernel) (by decide +kernel)
    (by decide +kernel)
  obtain ⟨hw, hstep⟩ := failureByOtherCore_hart
  have hmode := hstore.sameMode
  obtain ⟨hbad, -⟩ := retire_elsewhere (hmode.cur ▸ hw) (hmode.stepping.trans hstep)
  have hpoisoned : (failuresAfter (exec (.stN64 0 5 0 0) failureByOtherCore)).map (·.2) = some [0x400000000000000] := by
    decide +kernel
  rw [hexec, failuresAfter, hbad, hgood (by decide +kernel), failureByOtherCore_failures.2] at hpoisoned
  cases hpoisoned

/-- Refutes O16: a vector store need not leave the other cores as they were. STV of one byte to a port, by a core from which
no failing transfer leaves, is sent poisoned where a failure stands recorded by core 1 (R323, log 95), and with it the
failure goes from core 1. -/
theorem not_vectorMemory : ¬ Obligations.VectorMemory := by
  unfold Obligations.VectorMemory
  rintro ⟨-, hstores, -⟩
  obtain ⟨hpacked, -⟩ := hstores failureByOtherCore 0 5 0 2 0 _ (by decide +kernel)
  exact not_storesElements (i := .stv 0 5 2 0) (by decide +kernel)
    (hpacked (by decide +kernel) (Option.some_get (by decide +kernel)).symm)

/-- Refutes O17: the same of a plane store. STPLM of one row to a port is sent poisoned where a failure stands recorded by core
1 (R323, log 95), and with it the failure goes from core 1. -/
theorem not_rowAndPlaneMoves : ¬ Obligations.RowAndPlaneMoves := by
  unfold Obligations.RowAndPlaneMoves
  rintro ⟨-, hplanes⟩
  obtain ⟨-, hstores⟩ := hplanes failureByOtherCore 0 5 0 1 0 0 [] _
  obtain ⟨-, hmask⟩ := hstores (by decide +kernel)
  exact not_storesElements (i := .stplm 1 5 0) (by decide +kernel)
    (hmask (by decide +kernel) (Option.some_get (by decide +kernel)).symm)
end

section
/-! SUPPORT. How the effects of a store on its way compose (R25, R33, R49, R171): what each of them leaves is a store's, or a
trace. -/

namespace Sys2Proof.Machine

variable {s t u : State}

theorem CoreTraces.coreStores (h : CoreTraces s u) : CoreStores s u := by
  intro c
  rw [h c]

theorem CoreStores.trans (h : CoreStores s t) (k : CoreStores t u) : CoreStores s u := by
  intro c
  rw [k c, h c]

theorem OnlyTraces.onlyStore (h : OnlyTraces s u) : OnlyStore s u := by
  obtain ⟨hu, hcores, hdies⟩ := h
  refine ⟨?_, ?_, hcores.coreStores, hdies⟩ <;> rw [hu]

theorem OnlyStore.trans (h : OnlyStore s t) (k : OnlyStore t u) : OnlyStore s u := by
  obtain ⟨ht, hlaunches, hcores, hdies⟩ := h
  obtain ⟨hu, klaunches, kcores, kdies⟩ := k
  refine ⟨?_, klaunches.trans hlaunches, hcores.trans kcores, hdies.trans kdies⟩
  rw [hu, ht]

theorem onlyStore_modCoreAt (s : State) (c : Fin 192) (f : Core → Core)
    (hf : ∀ x, f x = { x with tlb := (f x).tlb, sdc := (f x).sdc, icache := (f x).icache, past := (f x).past,
                              lates := (f x).lates, unflushed := (f x).unflushed, flaws := (f x).flaws }) :
    OnlyStore s (s.modCoreAt c f) := by
  refine ⟨rfl, rfl, fun e => ?_, DieTraces.refl s⟩
  by_cases h : c.val = e.val
  · have h : c = e := Fin.ext h
    subst h
    simp only [State.modCoreAt, Fin.getElem_fin, Vector.getElem_set_self]
    exact hf _
  · simp [State.modCoreAt, h]

theorem onlyStore_modCore (s : State) (f : Core → Core)
    (hf : ∀ x, f x = { x with tlb := (f x).tlb, sdc := (f x).sdc, icache := (f x).icache, past := (f x).past,
                              lates := (f x).lates, unflushed := (f x).unflushed, flaws := (f x).flaws }) :
    OnlyStore s (s.modCore f) := onlyStore_modCoreAt s s.cur.core f hf

theorem onlyStore_logEvent (s : State) (k c a : Nat) (co : Option Nat) (ha au : Nat) :
    OnlyStore s (s.logEvent k c a co ha au) := by
  unfold State.logEvent
  dsimp only
  split <;> split <;> exact ⟨rfl, rfl, fun _ => rfl, DieTraces.refl s⟩

theorem onlyStore_checks (s : State) (m : List Host.Cell) (b : List Nat) : OnlyStore s { s with mem := m, bad := b } :=
  ⟨rfl, rfl, fun _ => rfl, DieTraces.refl s⟩

theorem OnlyStore.foldl {β : Type} {f : State → β → State} (hf : ∀ t b, OnlyStore t (f t b)) (l : List β)
    (s : State) :
    OnlyStore s (l.foldl f s) := by
  induction l generalizing s with
  | nil => exact (OnlyTraces.refl s).onlyStore
  | cons b l ih => exact (hf s b).trans (ih _)

theorem onlyStore_recheck (s : State) (whole touched : List Nat) : OnlyStore s (s.recheck whole touched) := by
  unfold State.recheck
  refine (onlyStore_checks s s.mem _).trans (.foldl (fun t k => ?_) _ _)
  split
  · exact onlyStore_logEvent ..
  · exact (OnlyTraces.refl t).onlyStore

theorem onlyStore_store (s : State) (pa : Nat) (bs : List Byte) : OnlyStore s (s.store pa bs) := by
  unfold State.store
  dsimp only
  split
  · exact onlyStore_checks s _ s.bad
  · exact (onlyStore_checks s _ s.bad).trans (onlyStore_recheck _ _ _)

theorem onlyStore_storeLE (s : State) (pa n v : Nat) : OnlyStore s (s.storeLE pa n v) := by
  unfold State.storeLE
  split
  · exact onlyStore_checks s _ s.bad
  · exact onlyStore_store ..

theorem onlyTraces_sdcWrite (s : State) (pa : Nat) (bs : List Byte) : OnlyTraces s (s.sdcWrite pa bs) := by
  refine onlyTraces_modCore s _ fun c => ?_
  split <;> rfl

/-- A write through a port leaves the note that it was passed, with the core and with the launch. -/
theorem onlyStore_notePort (s : State) (pa : Nat) : OnlyStore s (s.notePort pa) := by
  have hlaunch : ∀ (t : State) (p : Launch → Prop) [DecidablePred p] (b : BitVec 4),
      OnlyStore t { t with launches := t.launches.map fun l => if p l then { l with ports := l.ports ||| b } else l } := by
    intro t p _ b
    refine ⟨rfl, ?_, fun _ => rfl, DieTraces.refl t⟩
    rw [List.map_map]
    refine List.map_congr_left fun l _ => ?_
    rw [Function.comp]
    split <;> rfl
  unfold State.notePort
  split
  case h_1 n _ =>
    have hnote : ∀ b : Bool, OnlyStore s (if b then s
        else s.modCore fun c => { c with unflushed := c.unflushed ++ [(s.cur.who, n)] }) := by
      intro b
      split
      · exact (OnlyTraces.refl s).onlyStore
      · exact onlyStore_modCore s _ fun _ => rfl
    dsimp only
    split
    · exact (hnote _).trans (hlaunch _ _ _)
    · exact hnote _
  · exact (OnlyTraces.refl s).onlyStore

/-- What leaves a port as anything but a write is a request, and no failure of its data is found. -/
theorem onlyTraces_traffic (s : State) (use : CacheUse) {k : ReqKind} (hk : k ≠ .write) (pa n : Nat) (data : List Byte) :
    OnlyTraces s (s.traffic use k pa n data) := by
  unfold State.traffic
  split
  · exact (onlyTraces_touchHbm s use pa n).1
  · unfold State.portRequest
    rw [if_neg hk]
    exact onlyTraces_requests s _
  · exact OnlyTraces.refl s

theorem onlyStore_traffic (s : State) (use : CacheUse) (k : ReqKind) (pa n : Nat) (data : List Byte) :
    OnlyStore s (s.traffic use k pa n data) := by
  unfold State.traffic
  split
  · exact (onlyTraces_touchHbm s use pa n).1.onlyStore
  · unfold State.portRequest
    extract_lets fails t
    have ht : OnlyStore s t := (onlyTraces_requests s _).onlyStore
    clear_value t
    cases fails with
    | none => exact ht
    | some core =>
      exact ht.trans <| (onlyStore_modCoreAt t core _ fun _ => rfl).trans <|
        (onlyStore_checks _ _ _).trans (onlyStore_logEvent ..)
  · exact (OnlyTraces.refl s).onlyStore

theorem onlyTraces_atomicTraffic (s : State) (k : AtomKind) (pa n old new : Nat) :
    OnlyTraces s (s.atomicTraffic k pa n old new) := by
  unfold State.atomicTraffic
  cases k with
  | loop => exact (onlyTraces_traffic s _ (by decide) ..).trans (onlyTraces_traffic _ _ (by decide) ..)
  | _ => exact onlyTraces_traffic s _ (by decide) ..

theorem onlyTraces_remember (s : State) (idem : Bool) (p : PastStore) (t : State) : OnlyTraces t (s.remember idem p t) := by
  unfold State.remember
  split
  · exact onlyTraces_modCore t _ fun _ => rfl
  · exact OnlyTraces.refl t

/-! ## Atomic units -/

theorem OnlyTraces.reachUnit (h : OnlyTraces s t) (p : Nat) : OnlyTraces (s.reachUnit p) (t.reachUnit p) := by
  have htime : t.time = s.time ∧ t.unitLast = s.unitLast := by rw [h.1]; exact ⟨rfl, rfl⟩
  obtain ⟨ht, hcores, hdies⟩ := h
  unfold State.reachUnit
  rw [htime.1, htime.2]
  split <;> exact ⟨by rw [ht], hcores, hdies⟩

theorem OnlyTraces.ownPlace (h : OnlyTraces s t) : t.ownPlace = s.ownPlace := by
  unfold State.ownPlace
  rw [h.cur]

/-- A change of the current core commutes with traces where the change of a core does. -/
theorem OnlyTraces.modCore (h : OnlyTraces s t) (f : Core → Core)
    (hf : ∀ x y : Core,
      y = { x with tlb := y.tlb, sdc := y.sdc, icache := y.icache, past := y.past, lates := y.lates } →
      f y = { f x with tlb := (f y).tlb, sdc := (f y).sdc, icache := (f y).icache, past := (f y).past,
                       lates := (f y).lates }) :
    OnlyTraces (s.modCore f) (t.modCore f) := by
  have hcur := h.cur
  have hcore := hf _ _ h.core
  obtain ⟨ht, hcores, hdies⟩ := h
  refine ⟨?_, fun e => ?_, hdies⟩
  · rw [ht]
    rfl
  · by_cases he : s.cur.core.val = e.val
    · have he : s.cur.core = e := Fin.ext he
      subst he
      simp only [State.modCore, State.setCore, hcur, Fin.getElem_fin, Vector.getElem_set_self]
      exact hcore
    · simp only [State.modCore, State.setCore, hcur, Fin.getElem_fin, Vector.getElem_set_ne _ _ he]
      exact hcores e

theorem OnlyTraces.out (h : OnlyTraces s t) (l : List Output) : OnlyTraces { s with out := l } { t with out := l } := by
  obtain ⟨ht, hcores, hdies⟩ := h
  exact ⟨by rw [ht], hcores, hdies⟩

theorem OnlyTraces.podRelease (h : OnlyTraces s t) (own : Option Nat) :
    OnlyTraces (s.podRelease own) (t.podRelease own) := by
  have hports : t.core.unflushed = s.core.unflushed := by rw [h.core]
  have hout : t.out = s.out := by rw [h.1]
  unfold State.podRelease
  rw [hports, h.cur, hout]
  generalize hps : (s.core.unflushed.filter _).map _ = ps
  dsimp only
  split
  · exact h
  · have hflushed := (h.out (s.out ++ ps.map fun n => Output.flush n)).modCore
      (fun c => { c with unflushed := c.unflushed.filter fun p => !(p.1 == s.cur.who && ps.contains p.2) })
      (by intro x y hy; rw [hy])
    rwa [h.cur] at hflushed

theorem podRelease_frame (s : State) (own : Option Nat) :
    (s.podRelease own).mem = s.mem ∧ (s.podRelease own).bad = s.bad ∧ (s.podRelease own).cur = s.cur := by
  unfold State.podRelease
  dsimp only
  split <;> exact ⟨rfl, rfl, rfl⟩
end Sys2Proof.Machine
end

section
/-! SUPPORT. Atomics (R171): what the atomic unit does, what an atomic orders, and the whole operation where it meets no
fault. -/

namespace Sys2Proof.Machine

variable {s t u : State}

theorem storeLE_storedLE (hwf : Memory.wf s.mem = true) (pa n v : Nat) : StoredLE s (s.storeLE pa n v) pa n v := by
  intro a
  rw [(storeLE_frame s pa n v).2.2, ← writeLE_eq_writeBytes, ite_self, readByte_writeLE hwf]

/-- Bytes that stay as they are read as a store of their own value would leave them. -/
theorem storedLE_self (hwf : Memory.wf s.mem = true) (pa n : Nat) (hmem : u.mem = s.mem) :
    StoredLE s u pa n (readLE s.mem pa n) := by
  intro a
  rw [hmem]
  split
  case isTrue ha =>
    obtain ⟨k, rfl⟩ := Nat.exists_eq_add_of_le ha.1
    apply BitVec.eq_of_toNat_eq
    rw [BitVec.toNat_ofNat, Nat.add_sub_cancel_left, show 2 ^ 8 = 256 from rfl,
      readLE_byte hwf pa (Nat.add_lt_add_iff_left.mp ha.2)]
  · rfl

theorem StoredLE.congr {s' u' : State} {pa n v : Nat} (h : StoredLE s u pa n v) (hs : s'.mem = s.mem) (hu : u'.mem = u.mem) :
    StoredLE s' u' pa n v := by
  intro a
  rw [hs, hu]
  exact h a

/-- R171: what an atomic unit leaves where the check of the data is good: the value that `f` answers, or the old one. -/
theorem atomicAt_ok {src va n : Nat} {x : Xlat} {r : Role} {k : AtomKind} (f : Nat → Option Nat)
    (hwf : Memory.wf s.mem = true) (hbad : s.anyBad x.pa n = false) :
    ∃ u, atomicAt src va x n r k f s = .ok (readLE s.mem x.pa n, u) ∧ OnlyStore (s.reachUnit s.ownPlace) u ∧
      StoredLE s u x.pa n ((f (readLE s.mem x.pa n)).getD (readLE s.mem x.pa n)) := by
  obtain ⟨hmem, -, -⟩ := reachUnit_frame s s.ownPlace
  generalize hseen : (fun p : PastStore => overlaps p.pa p.old.length x.pa n) = seen
  have htraces := onlyTraces_pass (s.reachUnit s.ownPlace) (r.touch x.pa n) seen
  generalize ht : (s.reachUnit s.ownPlace).pass (r.touch x.pa n) seen = t at htraces
  have htmem : t.mem = s.mem := htraces.mem.trans hmem
  unfold atomicAt
  simp only [Act.run_bind, Act.run_checkData _ _ _ _ s hbad, Act.run_upd, Act.run_look, hseen, ht, htmem]
  cases hf : f (readLE s.mem x.pa n) with
  | none =>
    exact ⟨_, rfl, (htraces.trans (onlyTraces_atomicTraffic t _ _ _ _ _)).onlyStore,
      storedLE_self hwf _ _ (by rw [atomicTraffic_mem, htmem])⟩
  | some v =>
    refine ⟨_, rfl, htraces.onlyStore.trans ?_, (storeLE_storedLE (htmem ▸ hwf) x.pa n v).congr htmem.symm ?_⟩
    · exact (onlyStore_storeLE t x.pa n v).trans <| (onlyTraces_sdcWrite _ _ _).onlyStore.trans <|
        (onlyStore_notePort _ _).trans <| (onlyTraces_atomicTraffic _ _ _ _ _ _).onlyStore.trans <|
        (onlyTraces_remember _ _ _ _).onlyStore
    · rw [remember_mem, atomicTraffic_mem, notePort_mem, sdcWrite_mem]

/-! ## What is ordered (R191) -/

theorem Core.reorder_frame (c : Core) (f : PastStore → PastStore) :
    c.reorder f = { c with past := (c.reorder f).past } := by
  unfold Core.reorder
  split <;> rfl

theorem Core.endLoads_frame (c : Core) (f : LateLoad → Bool) :
    c.endLoads f = { c with lates := (c.endLoads f).lates } := by
  unfold Core.endLoads
  split <;> rfl

/-- The stores that stay after a change of their places are those that some class is still unordered with. -/
theorem Core.mem_reorder (c : Core) (f : PastStore → PastStore) (q : PastStore) :
    q ∈ (c.reorder f).past ↔ (∃ p ∈ c.past, f p = q) ∧ q.unordered ≠ 0 := by
  unfold Core.reorder
  split
  case isTrue h => simp [h]
  case isFalse h => simp

theorem Core.mem_endLoads {c : Core} {f : LateLoad → Bool} {l : LateLoad} (h : l ∈ (c.endLoads f).lates) :
    l ∈ c.lates ∧ f l = false := by
  unfold Core.endLoads at h
  split at h
  case isTrue hnone => simp [hnone] at h
  case isFalse => simpa using h

theorem orderAll_ordered (s : State) : s.orderAll.ordered := by
  have hcore : s.orderAll.core =
      (s.core.orderPast (·.who == s.cur.who) (BitVec.allOnes 16)).endLoads (·.who == s.cur.who) := by
    rw [State.orderAll, State.core_modCore]
  have hcur : s.orderAll.cur = s.cur := rfl
  refine ⟨fun q hq => ?_, fun l hl => ?_⟩
  · rw [hcore, Core.endLoads_frame] at hq
    obtain ⟨⟨p, -, rfl⟩, hleft⟩ := (Core.mem_reorder _ _ _).mp hq
    split at hleft
    · simp at hleft
    case isFalse hwho =>
      rw [if_neg hwho, hcur]
      exact fun h => hwho (beq_iff_eq.mpr h)
  · rw [hcore] at hl
    rw [hcur]
    simpa using (Core.mem_endLoads hl).2

theorem acquire_acquired (s : State) : s.sdcInvalidate.orderAll.acquired := by
  refine ⟨?_, orderAll_ordered _⟩
  have hcore : s.sdcInvalidate.orderAll.core.sdc = s.sdcInvalidate.core.sdc := by
    rw [State.orderAll, State.core_modCore, Core.endLoads_frame, Core.orderPast, Core.reorder_frame]
  rw [hcore, State.sdcInvalidate, State.core_modCore]

/-- The checks of a scalar instruction that may run on the stream, and that has a scope. -/
theorem scalarLegal_cause_pod {rsv pod : Bool} (hpfx : s.pfx = none) (hrsv : rsv = false)
    (hpod : pod = true → bitOf s.podid.toNat 8 = true) :
    ({ scalarLegal with rsv := rsv, pod := pod } : Legal).cause s = none := by
  have hpod' : (pod && !bitOf s.podid.toNat 8) = false := by
    cases hp : pod with
    | false => rfl
    | true => simp [hpod hp]
  simp [Legal.cause, pfxBroken, scalarLegal, hpfx, hrsv, hpod']

/-- What an atomic orders after it, by its field `o` (R166, R171). -/
theorem amoOrder_run (o : BitVec 2) (s : State) :
    ∃ u, (∀ k : Act Unit,
        (if o = 1 ∨ o = 3 then do acquire; k else if o = 2 then do alignCourses; k else k : Act Unit) s = k u) ∧
      OnlyTraces s u ∧ (o = 1 ∨ o = 3 → u.acquired) ∧ (o ≠ 0 → u.ordered) := by
  split
  · exact ⟨_, fun _ => rfl, (onlyTraces_sdcInvalidate s).trans (onlyTraces_orderAll _), fun _ => acquire_acquired s,
      fun _ => orderAll_ordered _⟩
  case isFalse h13 =>
    split
    · exact ⟨_, fun _ => rfl, onlyTraces_orderAll s, (absurd · h13), fun _ => orderAll_ordered s⟩
    · exact ⟨_, fun _ => rfl, .refl s, (absurd · h13), fun h => by bv_omega⟩

/-- R171: an atomic that meets no fault. -/
theorem amoOp_ok {signed : Bool} {d a b : Reg} {z : BitVec 1} {o : BitVec 2} {q : BitVec 4} {x : Xlat} {n : Nat}
    {r : State} (kind : Nat → Nat → AtomKind) (new : Nat → Nat → Nat → Nat → Option Nat) (hpfx : s.pfx = none)
    (hwf : Memory.wf s.mem = true) (hq : amoReserved o q = false) (hpod : o ≠ 0 → q = 5 → bitOf s.podid.toNat 8 = true)
    (hn : n = if z = 0 then 4 else 8)
    (hreach : s.reach { kind := .atomic, source := s.source 2, align := n } (s.getX a).toNat = some x)
    (hwalk : s.lateWalk [(s.getX a).toNat] = none) (hdata : s.goodData x.pa n = true)
    (hr : r = if 2 ≤ o.toNat ∧ q = 5 then s.podRelease (portOf x.pa) else s) :
    let old := readLE s.mem x.pa n
    let v := (new n old ((s.getX b).toNat % 2 ^ (8 * n)) ((s.getX d).toNat % 2 ^ (8 * n))).getD old
    ∃ u : State, OnlyStore (r.reachUnit r.ownPlace) u ∧ StoredLE s u x.pa n v ∧ (o ≠ 0 → u.ordered) ∧
      (o = 1 ∨ o = 3 → u.acquired) ∧
      finish (amoOp signed d a b z o q kind new) s = .next (u.setX d (extendTo (signed && n == 4) n old)).retire := by
  have hlegal : ({ scalarLegal with rsv := amoReserved o q, pod := o != 0 && q == 5 } : Legal).cause s = none := by
    refine scalarLegal_cause_pod hpfx hq fun h => ?_
    simp only [Bool.and_eq_true, bne_iff_ne, beq_iff_eq] at h
    exact hpod h.1 h.2
  obtain ⟨t1, hxlat, htraces1⟩ := reach_some hreach
  simp only [State.goodData, Bool.and_eq_true, Bool.not_eq_true'] at hdata
  have halign : ∃ t2, (∀ k : Act Unit, (if o = 0 then k else do alignCourses; k : Act Unit) t1 = k t2) ∧
      OnlyTraces s t2 := by
    split
    · exact ⟨_, fun _ => rfl, htraces1⟩
    · exact ⟨_, fun _ => rfl, htraces1.trans (onlyTraces_orderAll t1)⟩
  obtain ⟨t2, halign, htraces2⟩ := halign
  have hrelease : ∃ t3, (∀ k : Act Unit,
      (if 2 ≤ o ∧ q = 5 then do upd (·.podRelease (portOf x.pa)); k else k : Act Unit) t2 = k t3) ∧ OnlyTraces r t3 := by
    rw [hr]
    by_cases hrel : 2 ≤ o ∧ q = 5
    · rw [if_pos (show 2 ≤ o.toNat ∧ q = 5 from hrel)]
      exact ⟨_, fun _ => by rw [if_pos hrel]; rfl, htraces2.podRelease _⟩
    · rw [if_neg (show ¬(2 ≤ o.toNat ∧ q = 5) from hrel)]
      exact ⟨_, fun _ => by rw [if_neg hrel], htraces2⟩
  obtain ⟨t3, hrelease, htraces3⟩ := hrelease
  have hrframe : r.mem = s.mem ∧ r.bad = s.bad ∧ r.cur = s.cur := by
    rw [hr]
    split
    · exact podRelease_frame s _
    · exact ⟨rfl, rfl, rfl⟩
  obtain ⟨hrmem, hrbad, -⟩ := hrframe
  have hmem3 : t3.mem = s.mem := htraces3.mem.trans hrmem
  have hbad3 : t3.anyBad x.pa n = false := by
    rw [htraces3.anyBad, State.anyBad, hrbad]
    exact hdata.2
  obtain ⟨t4, hat, hstore4, hstored4⟩ := atomicAt_ok (src := s.source 2) (va := (s.getX a).toNat)
    (r := { oc := if o = 0 then q else 0 })
    (k := kind ((s.getX b).toNat % 2 ^ (8 * n)) ((s.getX d).toNat % 2 ^ (8 * n)))
    (fun old => new n old ((s.getX b).toNat % 2 ^ (8 * n)) ((s.getX d).toNat % 2 ^ (8 * n)))
    (hmem3 ▸ hwf) hbad3
  obtain ⟨u, horder, htraces5, hacq, hord⟩ := amoOrder_run o t4
  have hunit := htraces3.reachUnit r.ownPlace
  rw [← htraces3.ownPlace] at hunit
  rw [hmem3] at hstored4 hat
  refine ⟨u, ?_, hstored4.congr hmem3.symm htraces5.mem, hord, hacq, ?_⟩
  · rw [← htraces3.ownPlace]
    exact hunit.onlyStore.trans (hstore4.trans htraces5.onlyStore)
  · refine finish_ok ?_
    unfold amoOp
    simp only [← hn, Act.run_bind, Act.run_check_ok hlegal, Act.run_readX, Act.run_look, Act.run_walkerGate hwalk, hxlat,
      halign, hrelease, hat, horder, Act.run_writeX]

end Sys2Proof.Machine
end

section
/-! SUPPORT. What an atomic returns (R171). -/

namespace Sys2Proof.Machine

variable {s t u : State}

theorem signExtendNat_eq {v l : Nat} (hv : v < 2 ^ l) : signExtendNat v l = (BitVec.ofNat l v).signExtend 64 := by
  have hnat : (BitVec.ofNat l v).toNat = v := by rw [BitVec.toNat_ofNat, Nat.mod_eq_of_lt hv]
  have hmsb : (BitVec.ofNat l v).msb = bitOf v (l - 1) := by
    rw [BitVec.msb_eq_getLsbD_last, BitVec.getLsbD, hnat, bitOf]
  rw [signExtendNat, BitVec.signExtend, BitVec.toInt_eq_msb_cond, hmsb, hnat]
  split
  · norm_cast
  · rw [BitVec.ofInt_natCast]

/-- What an atomic of 4 or 8 bytes returns of the old value. -/
theorem extendTo_old {signed : Bool} {z : BitVec 1} {n old : Nat} (hn : n = if z = 0 then 4 else 8)
    (hold : old < 256 ^ n) :
    extendTo (signed && n == 4) n old =
      if signed ∧ z = 0 then (BitVec.ofNat 32 old).signExtend 64 else BitVec.ofNat 64 old := by
  by_cases hz : z = 0
  · rw [if_pos hz] at hn
    subst hn
    rw [← Nat.pow_mul 2 8 4] at hold
    cases signed
    · rfl
    · rw [if_pos ⟨rfl, hz⟩]
      exact signExtendNat_eq hold
  · rw [if_neg hz] at hn
    subst hn
    rw [if_neg fun h => hz h.2]
    cases signed <;> rfl

theorem signedLt_iff (n a b : Nat) :
    signedLt n a b = true ↔ (BitVec.ofNat (8 * n) a).toInt < (BitVec.ofNat (8 * n) b).toInt :=
  BitVec.slt_iff_toInt_lt

end Sys2Proof.Machine
end

section
/-! SUPPORT. What a FENCE orders, and what a release at pod scope flushes (R172, R191, R207). -/

namespace Sys2Proof.Machine

variable {s t u : State}

/-! ## Releases at pod scope -/

/-- The ports that a release at pod scope flushes. -/
def State.releasedPorts (s : State) (own : Option Nat) : List Nat :=
  (s.core.unflushed.filter fun p => p.1 == s.cur.who && some p.2 != own).map (·.2)

theorem podRelease_eq (s : State) (own : Option Nat) :
    s.podRelease own = if s.releasedPorts own = [] then s else
      { s with out := s.out ++ (s.releasedPorts own).map Output.flush }.modCore fun c =>
        { c with unflushed := c.unflushed.filter fun p => !(p.1 == s.cur.who && (s.releasedPorts own).contains p.2) } := rfl

theorem podRelease_out (s : State) (own : Option Nat) :
    (s.podRelease own).out = s.out ++ (s.releasedPorts own).map Output.flush := by
  rw [podRelease_eq]
  split
  case isTrue h => rw [h, List.map_nil, List.append_nil]
  case isFalse => rfl

theorem podRelease_unflushed (s : State) (own : Option Nat) :
    (s.podRelease own).core.unflushed =
      s.core.unflushed.filter fun p => !(p.1 == s.cur.who && (s.releasedPorts own).contains p.2) := by
  rw [podRelease_eq]
  split
  case isTrue h => simp [h]
  case isFalse => rw [State.core_modCore]; rfl

/-- A release that has no port of its own flushes every port that the party has posted writes through. -/
theorem podRelease_none (s : State) :
    (s.podRelease none).out = s.out ++ (s.core.unflushed.filter (·.1 == s.cur.who)).map (fun q => Output.flush q.2) ∧
      (s.podRelease none).core.unflushed = s.core.unflushed.filter (·.1 != s.cur.who) := by
  have hports : s.releasedPorts none = (s.core.unflushed.filter (·.1 == s.cur.who)).map (·.2) := by
    have hown : (fun p : Who × Nat => p.1 == s.cur.who && some p.2 != none) = (·.1 == s.cur.who) :=
      funext fun p => Bool.and_true _
    rw [State.releasedPorts, hown]
  refine ⟨by rw [podRelease_out, hports, List.map_map]; rfl, ?_⟩
  rw [podRelease_unflushed, hports]
  refine List.filter_congr fun p hp => ?_
  cases hwho : p.1 == s.cur.who with
  | false => simp [bne, hwho]
  | true =>
    have hmem : p.2 ∈ (s.core.unflushed.filter (·.1 == s.cur.who)).map (·.2) :=
      List.mem_map_of_mem (List.mem_filter.mpr ⟨hp, hwho⟩)
    simp only [List.contains_iff_mem.mpr hmem, bne, hwho]
    rfl

/-! ## The frame of a FENCE -/

/-- What is still on its way of the current core, with other values: its flushes, the scalar data cache, and the order of
its stores and loads. -/
def State.withOrders (s : State) (out : List Output) (sdc : List Line) (past : List PastStore) (lates : List LateLoad)
    (unflushed : List (Who × Nat)) : State :=
  { s with
    out := out
    cores := s.cores.set s.cur.core { s.core with sdc := sdc, past := past, lates := lates, unflushed := unflushed } }

theorem withOrders_core (s : State) (out : List Output) (sdc : List Line) (past : List PastStore) (lates : List LateLoad)
    (unflushed : List (Who × Nat)) :
    (s.withOrders out sdc past lates unflushed).core =
      { s.core with sdc := sdc, past := past, lates := lates, unflushed := unflushed } :=
  Vector.getElem_set_self _

theorem withOrders_self (s : State) :
    s.withOrders s.out s.core.sdc s.core.past s.core.lates s.core.unflushed = s := by
  have hself : s.cores.set s.cur.core s.core = s.cores := Vector.set_getElem_self _
  unfold State.withOrders
  rw [hself]

/-- Nothing else changed. -/
def OnlyOrders (s u : State) : Prop := ∃ out sdc past lates unflushed, u = s.withOrders out sdc past lates unflushed

theorem OnlyOrders.eq (h : OnlyOrders s u) :
    u = s.withOrders u.out u.core.sdc u.core.past u.core.lates u.core.unflushed := by
  obtain ⟨out, sdc, past, lates, unflushed, rfl⟩ := h
  rw [withOrders_core]
  rfl

theorem OnlyOrders.refl (s : State) : OnlyOrders s s := ⟨_, _, _, _, _, (withOrders_self s).symm⟩

theorem OnlyOrders.trans (h : OnlyOrders s t) (k : OnlyOrders t u) : OnlyOrders s u := by
  obtain ⟨out, sdc, past, lates, unflushed, rfl⟩ := h
  obtain ⟨out', sdc', past', lates', unflushed', rfl⟩ := k
  refine ⟨out', sdc', past', lates', unflushed', ?_⟩
  rw [State.withOrders, withOrders_core]
  simp only [State.withOrders, Vector.set_set]

theorem OnlyOrders.cur (h : OnlyOrders s u) : u.cur = s.cur := by rw [h.eq]; rfl

theorem OnlyOrders.pc (h : OnlyOrders s u) : u.pc = s.pc := by
  have hharts : u.core.harts = s.core.harts := by rw [h.eq, withOrders_core]
  have hstream : u.core.stream = s.core.stream := by rw [h.eq, withOrders_core]
  simp only [State.pc, State.th, Core.th, h.cur, hharts, hstream]

theorem onlyOrders_modCore (s : State) (f : Core → Core) (out : List Output)
    (hf : ∀ c, f c = { c with sdc := (f c).sdc, past := (f c).past, lates := (f c).lates, unflushed := (f c).unflushed }) :
    OnlyOrders s ({ s with out := out }.modCore f) :=
  ⟨out, (f s.core).sdc, (f s.core).past, (f s.core).lates, (f s.core).unflushed,
    congrArg (fun c => { s with out := out, cores := s.cores.set s.cur.core c }) (hf s.core)⟩

theorem onlyOrders_podRelease (s : State) (own : Option Nat) : OnlyOrders s (s.podRelease own) := by
  unfold State.podRelease
  dsimp only
  split
  · exact .refl s
  · exact onlyOrders_modCore s _ _ fun _ => rfl

theorem onlyOrders_sdcInvalidate (s : State) : OnlyOrders s s.sdcInvalidate := onlyOrders_modCore s _ s.out fun _ => rfl

theorem Core.orderPast_frame (c : Core) (f : PastStore → Bool) (m : BitVec 16) :
    c.orderPast f m = { c with past := (c.orderPast f m).past } := Core.reorder_frame c _

theorem Core.delayMask_frame (c : Core) (w : Who) (m : BitVec 16) :
    c.delayMask w m = { c with lates := (c.delayMask w m).lates } := by
  unfold Core.delayMask
  split <;> rfl

theorem onlyOrders_orderPast (s : State) (f : PastStore → Bool) (m : BitVec 16) :
    OnlyOrders s (s.modCore (·.orderPast f m)) :=
  onlyOrders_modCore s _ s.out fun c => by rw [Core.orderPast_frame]

theorem orderPast_core (s : State) (f : PastStore → Bool) (m : BitVec 16) :
    (s.modCore (·.orderPast f m)).core = s.core.orderPast f m := State.core_modCore _ _

theorem onlyOrders_orderMask (s : State) (m : BitVec 16) : OnlyOrders s (s.orderMask m) :=
  onlyOrders_modCore s _ s.out fun c => by rw [Core.delayMask_frame, Core.orderPast_frame]

theorem orderMask_core (s : State) (m : BitVec 16) :
    (s.orderMask m).core =
      (s.core.orderPast (fun p => p.who == s.cur.who && p.done &&& m != 0) m).delayMask s.cur.who m := by
  rw [State.orderMask, State.core_modCore]

theorem orderMask_unflushed (s : State) (m : BitVec 16) : (s.orderMask m).core.unflushed = s.core.unflushed := by
  rw [orderMask_core, Core.delayMask_frame, Core.orderPast_frame]

theorem orderMask_sdc (s : State) (m : BitVec 16) : (s.orderMask m).core.sdc = s.core.sdc := by
  rw [orderMask_core, Core.delayMask_frame, Core.orderPast_frame]

/-! ## What a FENCE orders -/

/-- A store that is not taken stays as it is, or was ordered before every class already. -/
theorem Core.orderPast_keeps {c : Core} {f : PastStore → Bool} {q : PastStore} (m : BitVec 16) (hq : q ∈ c.past)
    (hf : f q = false) : q ∈ (c.orderPast f m).past ∨ q.unordered = 0 := by
  by_cases hzero : q.unordered = 0
  · exact .inr hzero
  · exact .inl ((Core.mem_reorder _ _ _).mpr ⟨⟨q, hq, by simp [hf]⟩, hzero⟩)

/-- A store that is taken is ordered before the classes of the mask. -/
theorem Core.orderPast_orders {c : Core} {f : PastStore → Bool} {q : PastStore} {m : BitVec 16}
    (hq : q ∈ (c.orderPast f m).past) (hfq : f q = true) :
    q.unordered &&& m = 0 := by
  obtain ⟨⟨p, -, rfl⟩, -⟩ := (Core.mem_reorder _ _ _).mp hq
  by_cases hp : f p = true
  · rw [if_pos hp]
    ext i hi
    simp
  · rw [if_neg hp] at hfq
    exact absurd hfq hp

theorem Core.delayMask_past (c : Core) (w : Who) (m : BitVec 16) : (c.delayMask w m).past = c.past := by
  rw [Core.delayMask_frame]

theorem orderMask_orders {q : PastStore} {m : BitVec 16} (hq : q ∈ (s.orderMask m).core.past) (hwho : q.who = s.cur.who)
    (hdone : q.done &&& m ≠ 0) : q.unordered &&& m = 0 := by
  rw [orderMask_core, Core.delayMask_past] at hq
  exact Core.orderPast_orders hq (by simpa [hwho] using hdone)

theorem orderMask_delays {l : LateLoad} {m : BitVec 16} (hl : l ∈ (s.orderMask m).core.lates) (hwho : l.who = s.cur.who)
    (hcls : m.getLsbD l.cls.toNat = true) : m &&& ~~~l.behind = 0 := by
  rw [orderMask_core] at hl
  unfold Core.delayMask at hl
  split at hl
  case isTrue hnone => exact absurd hl (hnone ▸ List.not_mem_nil)
  case isFalse =>
    obtain ⟨p, -, rfl⟩ := List.mem_map.mp hl
    split at hwho
    case isTrue hp =>
      rw [if_pos hp]
      ext i hi
      simpa using fun h _ => h
    case isFalse hp =>
      rw [if_neg hp] at hcls
      exact absurd ⟨hwho, hcls⟩ hp

theorem orderMask_keeps {q : PastStore} (m : BitVec 16) (hq : q ∈ s.core.past) (hwho : q.who ≠ s.cur.who) :
    q ∈ (s.orderMask m).core.past ∨ q.unordered = 0 := by
  rw [orderMask_core, Core.delayMask_past]
  exact Core.orderPast_keeps m hq (by simp [hwho])

/-- What a FENCE of a kind and a mask orders, past its checks and the flushes of a release. -/
def State.fenced (s : State) (k : BitVec 2) (m : BitVec 16) : State :=
  if k = 1 ∨ k = 3 then s.sdcInvalidate.acquireMask m else s.orderMask m

/-- Every FENCE ends in the order of its mask; what an acquire does before that leaves the stores of the other parties. -/
theorem fenced_eq (s : State) (k : BitVec 2) (m : BitVec 16) :
    ∃ t, s.fenced k m = t.orderMask m ∧ OnlyOrders s t ∧ t.out = s.out ∧ t.core.unflushed = s.core.unflushed ∧
      t.core.sdc = (if k = 1 ∨ k = 3 then [] else s.core.sdc) ∧
      ∀ q ∈ s.core.past, q.who ≠ s.cur.who → q ∈ t.core.past ∨ q.unordered = 0 := by
  unfold State.fenced
  split
  · have hcore : s.sdcInvalidate.core = { s.core with sdc := [] } := State.core_modCore _ _
    refine ⟨_, rfl, (onlyOrders_sdcInvalidate s).trans (onlyOrders_orderPast _ _ m), rfl, ?_, ?_, fun q hq hwho => ?_⟩
    · rw [orderPast_core, Core.orderPast_frame, hcore]
    · rw [orderPast_core, Core.orderPast_frame, hcore]
    · rw [orderPast_core, hcore]
      exact Core.orderPast_keeps m hq (by simp [show s.sdcInvalidate.cur = s.cur from rfl, hwho])
  · exact ⟨s, rfl, .refl s, rfl, rfl, rfl, fun q hq _ => .inl hq⟩

end Sys2Proof.Machine
end

section
/-! SUPPORT. What a translation that faults leaves of the cores (R40, R42): a page-in that it posts is a store of the walker. -/

namespace Sys2Proof.Machine

variable {s t u : State}

/-- The party that runs is as before, and so is every core beyond what translations, reads and stores leave. -/
structure State.KeepsCores (s t : State) : Prop where
  cur : t.cur = s.cur
  cores : CoreStores s t

namespace State.KeepsCores

theorem of_store (h : OnlyStore s t) : s.KeepsCores t := ⟨h.cur, h.2.2.1⟩

theorem of_traces (h : OnlyTraces s t) : s.KeepsCores t := of_store h.onlyStore

theorem refl (s : State) : s.KeepsCores s := of_traces (.refl s)

theorem trans (h : s.KeepsCores t) (k : t.KeepsCores u) : s.KeepsCores u := ⟨k.cur.trans h.cur, h.cores.trans k.cores⟩

theorem core (h : s.KeepsCores t) :
    t.core = { s.core with tlb := t.core.tlb, sdc := t.core.sdc, icache := t.core.icache, past := t.core.past,
                           lates := t.core.lates, unflushed := t.core.unflushed, flaws := t.core.flaws } := by
  have hcore := h.cores t.cur.core
  have hbefore : s.cores[t.cur.core] = s.core := by simp only [h.cur, State.core]
  rwa [hbefore] at hcore

theorem hart (h : s.KeepsCores t) : t.hart = s.hart := by
  have hharts : t.core.harts = s.core.harts := by rw [h.core]
  simp only [State.hart, h.cur, hharts]

theorem th (h : s.KeepsCores t) : t.th = s.th := by
  have hharts : t.core.harts = s.core.harts := by rw [h.core]
  have hstream : t.core.stream = s.core.stream := by rw [h.core]
  simp only [State.th, Core.th, h.cur, hharts, hstream]

theorem pc (h : s.KeepsCores t) : t.pc = s.pc := by
  unfold State.pc
  rw [h.th]

theorem requests (l : List PageReq) (n : Nat) : s.KeepsCores { s with reqs := l, nextReq := n } := ⟨rfl, fun _ => rfl⟩

theorem ringProduce {tr : Nat → Bool → Except Nat Nat} {d : Nat} {r : Bool → List Byte} (h : s.ringProduce tr d r = .written t) :
    s.KeepsCores t := by
  unfold State.ringProduce at h
  dsimp only at h
  repeat' split at h
  all_goals cases h
  refine of_store ?_
  exact (((((onlyStore_traffic ..).trans (onlyStore_traffic ..)).trans (onlyStore_traffic ..)).trans
    (onlyStore_store ..)).trans (onlyStore_storeLE ..)).trans (onlyStore_traffic ..)

theorem postRequest (s : State) (id : Nat) : s.KeepsCores (s.postRequest id) := by
  unfold State.postRequest
  split
  · exact refl s
  dsimp only
  split
  · exact refl s
  split
  · exact refl s
  split
  · next h => exact (ringProduce h).trans (requests _ _)
  · exact refl s
  · split
    · exact refl s
    · exact trans (t := s.modDie _ _) ⟨rfl, fun _ => rfl⟩ (of_store (onlyStore_logEvent ..))

theorem pageIn (s : State) (a : Agent) (va level : Nat) (e : Word) (epa : Nat) : s.KeepsCores (s.pageIn a va level e epa) := by
  unfold State.pageIn
  split
  · exact refl s
  · refine trans ?_ (postRequest _ _)
    exact ((of_store (onlyStore_storeLE ..)).trans (of_traces (onlyTraces_touchHbm ..).1)).trans (requests _ _)

theorem unitFault {a : Agent} {pa : Nat} {f : Nat × State} (h : s.unitFault a pa = some f) : s.KeepsCores f.2 := by
  have hused : ∀ (c : Fin 192) (x : HwUnit), s.KeepsCores (s.modCoreAt c fun k => { k with flaws := k.flaws.erase x }) :=
    fun c x => of_store (onlyStore_modCoreAt s c _ fun _ => rfl)
  unfold State.unitFault at h
  dsimp only at h
  repeat' split at h
  all_goals cases h
  all_goals exact hused _ _

/-- Whatever a translation answers, it leaves the cores. -/
theorem translate (s : State) (a : Agent) (acc : Acc) (va : Nat) : s.KeepsCores (s.translate a acc va).state := by
  have hr : s.KeepsCores (s.resolve a va).2 := of_traces (onlyTraces_resolve s a va)
  cases hres : s.translate a acc va with
  | ok x t => exact of_traces (onlyTraces_translate hres)
  | fault k t =>
    unfold State.translate at hres
    dsimp only at hres
    split at hres
    · cases hres; exact refl s
    split at hres
    · cases hres; exact refl s
    split at hres
    · cases hres; exact hr
    · cases hres; exact hr.trans (of_store (onlyStore_logEvent ..))
    · cases hres; exact hr.trans (of_store (onlyStore_logEvent ..))
    · split at hres
      · cases hres; exact hr
      split at hres
      · cases hres; exact hr
      split at hres
      · cases hres; exact hr.trans (pageIn ..)
      split at hres
      · cases hres; exact hr
      split at hres
      · next h => cases hres; exact hr.trans (unitFault h)
      · cases hres

end State.KeepsCores

end Sys2Proof.Machine
end

section
/-! SUPPORT. What a PREF leaves (R173, R49). -/

namespace Sys2Proof.Machine

variable {s t u : State}

theorem onlyTraces_pickCached (s : State) (ls : List Line) (pa n : Nat) : OnlyTraces s (pickCached s ls pa n).2.2 := by
  have hfill (t : State) : OnlyTraces t (t.traffic .high .read (64 * (pa / 64)) 64 []) := (onlyTraces_read t _ _ _).1
  unfold pickCached
  dsimp only
  split
  · exact hfill s
  · split
    · exact .refl s
    · split
      · exact onlyTraces_free s _
      · exact (onlyTraces_free s _).trans (hfill _)

theorem keepsCores_prefetchPage (s : State) (va : Nat) : s.KeepsCores (s.prefetchPage va) := by
  have h := State.KeepsCores.translate s s.agent { kind := .load, source := 1 } va
  unfold State.prefetchPage
  split
  case h_1 k t hfault =>
    rw [hfault] at h
    split
    · exact h
    · exact .refl s
  · exact .refl s

theorem onlyTraces_prefetchLine (s : State) (va : Nat) : OnlyTraces s (s.prefetchLine va) := by
  unfold State.prefetchLine
  split
  case h_1 x t hx =>
    have ht := onlyTraces_translate hx
    split
    · exact .refl s
    · exact (ht.trans (onlyTraces_pickCached _ _ _ _)).trans (onlyTraces_modCore _ _ fun _ => rfl)
  · exact .refl s

theorem onlyTraces_prefetchDie (s : State) (use : CacheUse) (va : Nat) : OnlyTraces s (s.prefetchDie use va) := by
  unfold State.prefetchDie
  split
  case h_1 x t hx =>
    have ht := onlyTraces_translate hx
    split
    · exact ht.trans (onlyTraces_touchHbm ..).1
    · exact .refl s
  · exact .refl s

/-- What a PREF brings to its target. -/
def State.prefetchTo (s : State) (t : BitVec 2) (va : Nat) : State :=
  if t = 2 then s.prefetchLine va else s.prefetchDie (if t = 0 then .high else .low) va

theorem prefetch_eq (s : State) (p : BitVec 1) (t : BitVec 2) (va : Nat) :
    s.prefetch p t va = (if p = 1 then s.prefetchPage va else s).prefetchTo t va := rfl

theorem onlyTraces_prefetchTo (s : State) (t : BitVec 2) (va : Nat) : OnlyTraces s (s.prefetchTo t va) := by
  unfold State.prefetchTo
  split
  · exact onlyTraces_prefetchLine s va
  · exact onlyTraces_prefetchDie s _ va

theorem keepsCores_prefetch (s : State) (p : BitVec 1) (t : BitVec 2) (va : Nat) : s.KeepsCores (s.prefetch p t va) := by
  rw [prefetch_eq]
  refine .trans ?_ (.of_traces (onlyTraces_prefetchTo _ t va))
  split
  · exact keepsCores_prefetchPage s va
  · exact .refl s

/-- A line that is used stands first, and is of high priority where the access has it (R49). -/
theorem touchLine_head (d : Die) {use : CacheUse} (k : Nat) (huse : use ≠ .none) :
    ∃ l rest, (d.touchLine use k).dcache = l :: rest ∧ l.sector = k ∧ (use = .high → l.high = true) := by
  unfold Die.touchLine
  split
  · exact absurd rfl huse
  · split
    case h_1 l hl =>
      exact ⟨_, _, rfl, by simpa using List.find?_some hl, fun h => by simp [h]⟩
    · exact ⟨_, _, rfl, rfl, fun h => by simp [h]⟩

/-- A prefetch into the die cache brings the sector, where its load would succeed (R173). -/
theorem prefetchDie_line {use : CacheUse} {va : Nat} {x : Xlat} (huse : use ≠ .none)
    (hx : s.reach { kind := .load, source := 1 } va = some x) (hr : regionOf x.pa = .hbm) (hbad : s.sectorBad x.pa = false) :
    ∃ l rest, (s.prefetchDie use va).dies[dieIx (x.pa / 0x2000000000)].dcache = l :: rest ∧ l.sector = x.pa / 64 ∧
      (use = .high → l.high = true) := by
  have hsector : sectorsOf x.pa 1 = [x.pa / 64] := by simp [sectorsOf]
  have hdie : 64 * (x.pa / 64) / 0x2000000000 = x.pa / 0x2000000000 := by omega
  unfold State.reach at hx
  split at hx
  case h_2 => cases hx
  case h_1 y t hy =>
    cases hx
    have hbad' : t.sectorBad x.pa = false := by rw [State.sectorBad, (onlyTraces_translate hy).bad]; exact hbad
    unfold State.prefetchDie
    rw [hy]
    dsimp only
    have hline : (t.touchHbm use x.pa 1).dies[dieIx (x.pa / 0x2000000000)] =
        (t.dies[dieIx (x.pa / 0x2000000000)]).touchLine use (x.pa / 64) := by
      cases use with
      | none => exact absurd rfl huse
      | high | low =>
        simp only [State.touchHbm, hsector, List.foldl_cons, List.foldl_nil, hdie, State.modDie, Fin.getElem_fin,
          Vector.getElem_set_self]
    rw [if_pos (by simp [hr, hbad']), hline]
    exact touchLine_head _ _ huse

end Sys2Proof.Machine
end

section
/-! SUPPORT. The lines of a die cache (R48, R49). -/

namespace Sys2Proof.Machine

variable (d : Die) {use : CacheUse} {k : Nat}

/-- The set of a die cache that a sector belongs to. -/
def Die.cacheSet (d : Die) (k : Nat) : List DieLine := d.dcache.filter fun l => l.sector % cacheSets == k % cacheSets

theorem touchLine_hit {l : DieLine} (huse : use ≠ .none) (h : d.dcache.find? (·.sector == k) = some l) :
    (d.touchLine use k).dcache = { l with high := l.high || use == .high } :: d.dcache.erase l := by
  cases use with
  | none => exact absurd rfl huse
  | high | low => simp only [Die.touchLine, h]

theorem touchLine_miss (huse : use ≠ .none) (h : d.dcache.find? (·.sector == k) = none) :
    (d.touchLine use k).dcache = { sector := k, high := use == .high } ::
      if (d.cacheSet k).length < 16 then d.dcache
      else match cacheVictim (d.cacheSet k) with
        | some v => d.dcache.erase v
        | none => d.dcache := by
  cases use with
  | none => exact absurd rfl huse
  | high | low => simp only [Die.touchLine, h]; rfl

/-- The line that gives way is the least recently used of its priority, and of high priority only where all are. -/
theorem cacheVictim_some {set : List DieLine} (h : set ≠ []) :
    ∃ v ∈ set, cacheVictim set = some v ∧ (v.high = true → ∀ l ∈ set, l.high = true) ∧
      (set.filter fun l => l.high == v.high).getLast? = some v := by
  unfold cacheVictim
  split
  case h_1 v hv =>
    have hmem := List.mem_filter.mp (List.mem_of_getLast? hv)
    have hlow : v.high = false := by simpa using hmem.2
    refine ⟨v, hmem.1, rfl, fun hhigh => by simp [hlow] at hhigh, ?_⟩
    rw [hlow]
    have hfun : (fun l : DieLine => l.high == false) = fun l => !l.high := by
      funext l
      cases l.high <;> rfl
    rw [hfun, hv]
  case h_2 hnone =>
    have hall : ∀ l ∈ set, l.high = true := by
      rw [List.getLast?_eq_none_iff, List.filter_eq_nil_iff] at hnone
      simpa using hnone
    obtain ⟨v, hv⟩ := Option.ne_none_iff_exists'.mp (mt List.getLast?_eq_none_iff.mp h)
    have hmem := List.mem_of_getLast? hv
    refine ⟨v, hmem, hv, fun _ => hall, ?_⟩
    rw [List.filter_eq_self.mpr fun l hl => by rw [hall l hl, hall v hmem]; rfl, hv]

end Sys2Proof.Machine
end

section
/-! SUPPORT. The atomics, FENCE and PREF as instructions (R171 to R173). -/

namespace Sys2Proof.Machine

variable {s t u : State}

/-- R171: an instruction that is an atomic, where it meets no fault; `v` is the value that its bytes have afterwards. -/
theorem atomic_next {i : Instr} {signed : Bool} {d a b : Reg} {z : BitVec 1} {o : BitVec 2} {q : BitVec 4} {x : Xlat} {v : Nat}
    {kind : Nat → Nat → AtomKind} {new : Nat → Nat → Nat → Nat → Option Nat}
    (hexec : exec i s = finish (amoOp signed d a b z o q kind new) s) (hpfx : s.pfx = none)
    (hwf : Memory.wf s.mem = true) (hq : amoReserved o q = false) (hpod : o ≠ 0 → q = 5 → bitOf s.podid.toNat 8 = true) :
    let n := if z = 0 then 4 else 8
    let r := if 2 ≤ o.toNat ∧ q = 5 then s.podRelease (portOf x.pa) else s
    let old := readLE s.mem x.pa n
    s.reach { kind := .atomic, source := s.source 2, align := n } (s.getX a).toNat = some x →
    s.lateWalk [(s.getX a).toNat] = none → s.goodData x.pa n = true →
    (new n old ((s.getX b).toNat % 2 ^ (8 * n)) ((s.getX d).toNat % 2 ^ (8 * n))).getD old = v →
    ∃ u : State, OnlyStore (r.reachUnit r.ownPlace) u ∧ StoredLE s u x.pa n v ∧ (o ≠ 0 → u.ordered) ∧
      (o = 1 ∨ o = 3 → u.acquired) ∧
      exec i s = .next (u.setX d
        (if signed ∧ z = 0 then (BitVec.ofNat 32 old).signExtend 64 else BitVec.ofNat 64 old)).retire := by
  intro n r old hreach hwalk hdata hv
  have hreturns := extendTo_old (signed := signed) (n := n) (old := old) rfl (readLE_lt _ _ _)
  rw [hexec, ← hv, ← hreturns]
  exact amoOp_ok kind new hpfx hwf hq hpod rfl hreach hwalk hdata rfl

/-! ## FENCE -/

/-- R21: the scope of the pod without a valid PODID. -/
theorem fence_cause_pod {sf : BitVec 3} {m : BitVec 16} (hpfx : s.pfx = none) (hm : m ≠ 0) (hsf : scopeReserved sf = false)
    (hpod : sf = 5) (hbit : bitOf s.podid.toNat 8 = false) :
    ({ scalarLegal with ill := m == 0, rsv := scopeReserved sf, pod := sf == 5 } : Legal).cause s = some 0x04 := by
  rw [beq_eq_false_iff_ne.mpr hm, hsf, beq_iff_eq.mpr hpod]
  simp [Legal.cause, pfxBroken, scalarLegal, hpfx, hbit]

/-- The state in which a FENCE orders: past what a release at pod scope flushes. -/
def State.released (s : State) (k : BitVec 2) (sf : BitVec 3) : State :=
  if 2 ≤ k ∧ sf = 5 then s.podRelease none else s

theorem execFence_ok {k : BitVec 2} {sf : BitVec 3} {m : BitVec 16} (hpfx : s.pfx = none) (hm : m ≠ 0)
    (hsf : scopeReserved sf = false) (hpod : sf = 5 → bitOf s.podid.toNat 8 = true) :
    exec (.fence k sf m) s = .next ((s.released k sf).fenced k m).retire := by
  have hlegal : ({ scalarLegal with ill := m == 0, rsv := scopeReserved sf, pod := sf == 5 } : Legal).cause s = none := by
    rw [beq_eq_false_iff_ne.mpr hm]
    exact scalarLegal_cause_pod hpfx hsf fun h => hpod (beq_iff_eq.mp h)
  refine finish_ok ?_
  rw [Act.run_bind, Act.run_check_ok hlegal]
  unfold State.released State.fenced
  dsimp only
  by_cases hrel : 2 ≤ k ∧ sf = 5 <;> by_cases hk : k = 1 ∨ k = 3 <;>
    simp only [hrel, hk, if_true, if_false, Act.run_bind, Act.run_upd, and_self]

theorem released_core (s : State) (k : BitVec 2) (sf : BitVec 3) :
    OnlyOrders s (s.released k sf) ∧ (s.released k sf).core.sdc = s.core.sdc ∧ (s.released k sf).core.past = s.core.past := by
  unfold State.released
  split
  · refine ⟨onlyOrders_podRelease s none, ?_⟩
    rw [podRelease_eq]
    split
    · exact ⟨rfl, rfl⟩
    · rw [State.core_modCore]
      exact ⟨rfl, rfl⟩
  · exact ⟨.refl s, rfl, rfl⟩

theorem released_flushes (s : State) (k : BitVec 2) (sf : BitVec 3) :
    if 2 ≤ k.toNat ∧ sf = 5 then
      (s.released k sf).out = s.out ++ (s.core.unflushed.filter (·.1 == s.cur.who)).map (fun q => Output.flush q.2) ∧
        (s.released k sf).core.unflushed = s.core.unflushed.filter (·.1 != s.cur.who)
    else (s.released k sf).out = s.out ∧ (s.released k sf).core.unflushed = s.core.unflushed := by
  unfold State.released
  by_cases hrel : 2 ≤ k ∧ sf = 5
  · rw [if_pos hrel, if_pos (show 2 ≤ k.toNat ∧ sf = 5 from hrel)]
    exact podRelease_none s
  · rw [if_neg hrel, if_neg (show ¬(2 ≤ k.toNat ∧ sf = 5) from hrel)]
    exact ⟨rfl, rfl⟩

/-! ## PREF -/

theorem execPref_ok {p : BitVec 1} {t w : BitVec 2} {b : Reg} {f : BitVec 8} (hpfx : s.pfx = none) (ht : t ≠ 3)
    (hwalk : s.lateWalk [scalarAddr (s.getX b) f (2 ^ w.toNat)] = none) :
    exec (.pref p t b w f) s = .next (s.prefetch p t (scalarAddr (s.getX b) f (2 ^ w.toNat))).retire := by
  have hlegal : ({ scalarLegal with rsv := t == 3 } : Legal).cause s = none :=
    scalarLegal_cause_pod (pod := false) hpfx (beq_eq_false_iff_ne.mpr ht) nofun
  refine finish_ok ?_
  simp only [Act.run_bind, Act.run_check_ok hlegal, Act.run_readX, Act.run_walkerGate hwalk, Act.run_upd]

end Sys2Proof.Machine
end

section
/-! The obligation on atomics, FENCE, PREF and the die cache (O7). -/

open Sys2Proof Sys2Proof.Machine

/-- Settles O7. The atomics are one operation (`amoOp_ok`), whose order of effects agrees with the stated one because a release
and a unit that is reached commute with traces. -/
theorem atomicsAndFences : Obligations.AtomicsAndFences := by
  unfold Obligations.AtomicsAndFences
  refine ⟨?atomics, ?fences, ?lines, fun s own => ⟨podRelease_out s own, podRelease_unflushed s own⟩⟩
  case atomics =>
    intro s d a b z o q x hpfx hwf hq hpod n hreach hwalk hdata r old B lt p hp
    have hatomic {i : Instr} {signed : Bool} {v : Nat} {kind : Nat → Nat → AtomKind} {new : Nat → Nat → Nat → Nat → Option Nat}
        (hexec : exec i s = finish (amoOp signed d a b z o q kind new) s)
        (hv : (new n old B ((s.getX d).toNat % 2 ^ (8 * n))).getD old = v) :=
      atomic_next hexec hpfx hwf hq hpod hreach hwalk hdata hv
    simp only [List.mem_cons, List.not_mem_nil, or_false] at hp
    rcases hp with rfl | rfl | rfl | rfl | rfl | rfl | rfl | rfl | rfl | rfl
    · exact hatomic rfl rfl
    · exact hatomic rfl rfl
    · exact hatomic rfl rfl
    · exact hatomic rfl rfl
    · exact hatomic rfl (by simp only [Option.getD_some, signedLt_iff]; rfl)
    · exact hatomic rfl (by simp only [Option.getD_some, signedLt_iff]; rfl)
    · exact hatomic rfl rfl
    · exact hatomic rfl rfl
    · exact hatomic rfl rfl
    · refine hatomic rfl ?_
      dsimp only
      split <;> rfl
  case fences =>
    intro s k sf m p t w b f hpfx
    refine ⟨fun hm hsf => ⟨fun hpod hbit => finish_check_trap (fence_cause_pod hpfx hm hsf hpod hbit) _, fun hpod => ?_⟩,
      fun ht hwalk => ?_⟩
    · obtain ⟨hreleased, hsdc, hpast⟩ := released_core s k sf
      have hflushes := released_flushes s k sf
      obtain ⟨v, hv, hacquired, hout, hunflushed, hsdc', hkeeps⟩ := fenced_eq (s.released k sf) k m
      have horders := (hreleased.trans hacquired).trans (onlyOrders_orderMask v m)
      obtain ⟨hcur, hcur'⟩ := And.intro hreleased.cur hacquired.cur
      refine ⟨_, execFence_ok hpfx hm hsf hpod, ?_⟩
      rw [hv]
      refine ⟨horders.cur, horders.pc, ?_, ?_, fun q hq hwho => ?_, fun l hl hwho => ?_, fun q hq hwho => ?_, horders.eq⟩
      · rw [orderMask_unflushed, hunflushed]
        exact hout ▸ hflushes
      · rw [orderMask_sdc, hsdc', hsdc]
      · exact orderMask_orders hq (by rw [hwho, hcur', hcur])
      · exact orderMask_delays hl (by rw [hwho, hcur', hcur])
      · rcases hkeeps q (hpast ▸ hq) (hcur ▸ hwho) with hqv | hzero
        · exact orderMask_keeps m hqv (by rwa [hcur', hcur])
        · exact .inr hzero
    · have hkeeps := keepsCores_prefetch s p t (scalarAddr (s.getX b) f (2 ^ w.toNat))
      refine ⟨_, execPref_ok hpfx ht hwalk, hkeeps.cur, hkeeps.pc, hkeeps.th, hkeeps.hart, fun hp => ?_, fun x hp ht hx hr hbad => ?_⟩
      · rw [hp]
        exact onlyTraces_prefetchTo s t _
      · subst hp
        rw [prefetch_eq, if_neg (by decide), State.prefetchTo, if_neg ht]
        obtain ⟨l, rest, hline, hsector, hhigh⟩ :=
          prefetchDie_line (use := if t = 0 then .high else .low) (by split <;> decide) hx hr hbad
        exact ⟨l, rest, hline, hsector, fun h => hhigh (if_pos h)⟩
  case lines =>
    intro d k use set lines
    refine ⟨touchLine_frame d use k, fun h => by simp only [lines, h]; rfl, fun huse => ⟨fun l hl => touchLine_hit d huse hl, ?_⟩⟩
    intro hnone
    have hmiss := touchLine_miss d huse hnone
    refine ⟨fun hlen => hmiss.trans (by rw [if_pos]; exact hlen), fun hlen => ?_⟩
    have hset : set ≠ [] := by rintro h; rw [h] at hlen; simp at hlen
    obtain ⟨v, hv, hvictim, hhigh, hlast⟩ := cacheVictim_some hset
    refine ⟨v, hv, hmiss.trans ?_, hhigh, hlast⟩
    have hv' : cacheVictim (d.cacheSet k) = some v := hvictim
    rw [if_neg, hv']
    exact Nat.not_lt.mpr hlen

end

section
/-! SUPPORT. What the reads of KVLD leave of the cores where they answer, and where they trap (R103, R186): a page that misses a
tier does not end its non-faulting form. -/

namespace Sys2Proof.Machine

variable {α β : Type} {s t : State}

/-- Where a part of an instruction answers or traps, it leaves the cores as translations, reads and stores do. -/
structure LeavesCores (m : Act α) : Prop where
  ok : ∀ {s t : State} {a : α}, m s = .ok (a, t) → s.KeepsCores t
  trap : ∀ {s t : State} {e : Trap}, m s = .error (.trap e t) → s.KeepsCores t

namespace LeavesCores

theorem pure (a : α) : LeavesCores (pure a : Act α) :=
  ⟨by rintro s t b ⟨⟩; exact .refl s, by rintro s t e ⟨⟩⟩

theorem raise (c : BitVec 8) (a : Word) : LeavesCores (raise c a : Act α) :=
  ⟨by rintro s t b ⟨⟩, by rintro s t e ⟨⟩; exact .refl s⟩

theorem bind {m : Act α} {f : α → Act β} (hm : LeavesCores m) (hf : ∀ a, LeavesCores (f a)) : LeavesCores (m >>= f) := by
  refine ⟨fun {s t b} h => ?_, fun {s t e} h => ?_⟩
  · obtain ⟨a, u, ha, hb⟩ := Act.bind_ok h
    exact (hm.ok ha).trans ((hf a).ok hb)
  · rw [Act.run_bind] at h
    cases hrun : m s with
    | ok q =>
      rw [hrun] at h
      exact (hm.ok hrun).trans ((hf q.1).trap h)
    | error e' =>
      rw [hrun] at h
      cases h
      exact hm.trap hrun

theorem trapIf (b : Bool) (c : BitVec 8) (a : Word) : LeavesCores (trapIf b c a) := by
  unfold Machine.trapIf
  cases b with
  | true => exact .raise c a
  | false => exact .pure ()

theorem ite {p : Prop} [Decidable p] {m n : Act α} (hm : LeavesCores m) (hn : LeavesCores n) :
    LeavesCores (if p then m else n) := by
  split
  · exact hm
  · exact hn

theorem walkerGate (vas : List Nat) : LeavesCores (walkerGate vas) := by
  refine ⟨fun h => walkerGate_state h ▸ .refl _, fun {s t e} h => ?_⟩
  unfold Machine.walkerGate at h
  split at h <;> cases h

theorem xlat (acc : Acc) (va : Nat) : LeavesCores (xlat acc va) := by
  refine ⟨fun h => .of_traces (onlyTraces_xlat h), fun {s t e} h => ?_⟩
  have hkeeps := State.KeepsCores.translate s s.agent acc va
  unfold Machine.xlat at h
  split at h
  · cases h
  · next hfault =>
    cases h
    rwa [hfault] at hkeeps

theorem xlatPages (acc : Acc) (vas : List Nat) : LeavesCores (xlatPages acc vas) := by
  induction vas with
  | nil => exact .pure _
  | cons a as ih => exact .bind (.xlat _ _) fun _ => .bind ih fun _ => .pure _

theorem xlatRange (acc : Acc) (va n : Nat) : LeavesCores (xlatRange acc va n) :=
  .ite (.raise _ _) (.bind (.walkerGate _) fun _ => .xlatPages _ _)

theorem loadBytes {acc : Acc} {va n : Nat} {oc : BitVec 4} (hd : acc.device = false) (hn : n ≠ 0) :
    LeavesCores (loadBytes acc va n oc) := by
  refine ⟨fun h => .of_traces (LeavesTraces.loadBytes hd hn _ _ _ h), fun {s t e} h => ?_⟩
  unfold Machine.loadBytes at h
  rw [Act.run_bind] at h
  cases hrange : Machine.xlatRange acc va n s with
  | error e' =>
    rw [hrange] at h
    cases h
    exact (LeavesCores.xlatRange acc va n).trap hrange
  | ok q =>
    rw [hrange] at h
    refine ((LeavesCores.xlatRange acc va n).ok hrange).trans ?_
    dsimp only at h
    split at h
    · cases h
      exact .of_store (onlyStore_logEvent ..)
    · split at h <;> cases h

theorem kvBad (o : Option α) : LeavesCores (kvBad o) := by
  cases o with
  | none => exact .raise _ _
  | some a => exact .pure a

theorem readDesc (oc : BitVec 4) (va : Nat) : LeavesCores (readDesc (kvSeq oc) va) :=
  .bind (.loadBytes rfl (by decide)) fun _ => .kvBad _

theorem readEntry (oc : BitVec 4) (sd : SeqDesc) (i : Nat) : LeavesCores (readEntry (kvSeq oc) sd i) :=
  .bind (.loadBytes rfl (by decide)) fun _ => .kvBad _

theorem runFrom (oc : BitVec 4) (sd : SeqDesc) (c i r : Nat) (e : SeqEntry) (fuel : Nat) :
    LeavesCores (runFrom (kvSeq oc) sd c i r e fuel) := by
  induction fuel generalizing i r e with
  | zero => exact .pure _
  | succ fuel ih =>
    exact .ite (.bind (.readEntry _ _ _) fun _ => .ite (.pure _) (.bind (ih _ _ _) fun _ => .pure _)) (.pure _)

theorem remaining (oc : BitVec 4) (sd : SeqDesc) (pos c : Nat) : LeavesCores (remaining (kvSeq oc) sd pos c) :=
  .ite (.pure _) (.bind (.readEntry _ _ _) fun _ => .ite (.pure _) (.runFrom _ _ _ _ _ _ _))

/-- A page that misses a tier is left out, past what its translation left. -/
theorem orMiss {m : Act α} (nf : Bool) (hm : LeavesCores m) : LeavesCores (orMiss nf m) := by
  refine ⟨fun {s t a} h => ?_, fun {s t e} h => ?_⟩
  · unfold Machine.orMiss at h
    split at h
    · next hrun => cases h; exact hm.ok hrun
    · next hrun =>
      split at h
      · cases h; exact hm.trap hrun
      · cases h
    · cases h
  · unfold Machine.orMiss at h
    split at h
    · cases h
    · next hrun =>
      split at h
      · cases h
      · cases h; exact hm.trap hrun
    · next hother hrun =>
      cases h
      exact absurd rfl (hother _ _)

theorem kvldHeader (oc : BitVec 4) (sd : SeqDesc) (kpage : Nat) : LeavesCores (kvldHeader oc sd kpage) :=
  .bind (.loadBytes rfl (by decide)) fun _ => .bind (.kvBad _) fun _ => .bind (.trapIf _ _ _) fun _ => .pure _

theorem kvldHeaders (nf : Bool) (oc : BitVec 4) (sd : SeqDesc) (ks : List Nat) : LeavesCores (kvldHeaders nf oc sd ks) := by
  induction ks with
  | nil => exact .pure _
  | cons k ks ih => exact .bind (.orMiss nf (.kvldHeader _ _ _)) fun _ => .bind ih fun _ => .pure _

theorem kvldPages (kpage : Nat) (rs : List (Nat × Nat)) : LeavesCores (kvldPages kpage rs) := by
  induction rs with
  | nil => exact .pure _
  | cons r rs ih => exact .bind (.xlatRange _ _ _) fun _ => .bind ih fun _ => .pure _

theorem kvldSlots (nf : Bool) (d : Nat) (c : KvldCtl) (ks : Nat → List Nat) (ps : List (Nat × Option KvHeader)) :
    LeavesCores (kvldSlots nf d c ks ps) := by
  induction ps with
  | nil => exact .pure _
  | cons p ps ih =>
    obtain ⟨k, h⟩ := p
    cases h with
    | none => exact ih
    | some h =>
      refine .bind (.orMiss nf (.bind (.kvldPages _ _) fun _ => .bind (.kvldPages _ _) fun _ => .pure _)) fun _ =>
        .bind ih fun _ => .pure _

end LeavesCores

end Sys2Proof.Machine
end

section
/-! SUPPORT. The rows after a mask register tells which of them were performed (R117, R167). -/

namespace Sys2Proof.Machine

variable {s t u : State}

/-- Rows of the current core may change, and nothing else that the party sees. -/
structure State.OnlyRows (s t : State) : Prop where
  cur : t.cur = s.cur
  mem : t.mem = s.mem
  core : t.core = { s.core with rows := t.core.rows }

namespace State.OnlyRows

theorem refl (s : State) : s.OnlyRows s := ⟨rfl, rfl, rfl⟩

theorem trans (h : s.OnlyRows t) (k : t.OnlyRows u) : s.OnlyRows u :=
  ⟨k.cur.trans h.cur, k.mem.trans h.mem, by rw [k.core, h.core]⟩

theorem setRow (s : State) (j : Nat) (r : Row) : s.OnlyRows (s.setRow j r) :=
  ⟨rfl, rfl, by rw [State.setRow, State.core_modCore]; rfl⟩

theorem hart (h : s.OnlyRows t) : t.hart = s.hart := by
  have hharts : t.core.harts = s.core.harts := by rw [h.core]
  simp only [State.hart, h.cur, hharts]

theorem th (h : s.OnlyRows t) : t.th = s.th := State.th_congr h.cur (by rw [h.core]) (by rw [h.core])

theorem coreRow (h : s.OnlyRows t) (j : Nat) : t.coreRow j = s.coreRow j := by
  rw [State.coreRow, State.coreRow, h.cur, h.core]
  rfl

end State.OnlyRows

/-- A row in which one column at most changed. -/
structure Row.KeepsBut (K : Nat) (r q : Row) : Prop where
  chk : q.chk = r.chk
  bit : ∀ col, col < 1024 → col ≠ K → q.bit col = r.bit col
  t : q.t = r.t
  c : q.c = r.c
  f0 : q.f0 = r.f0
  f1 : q.f1 = r.f1

theorem Row.KeepsBut.refl (K : Nat) (r : Row) : r.KeepsBut K r := ⟨rfl, fun _ _ _ => rfl, rfl, rfl, rfl, rfl⟩

theorem Row.KeepsBut.trans {K : Nat} {r q p : Row} (h : r.KeepsBut K q) (k : q.KeepsBut K p) : r.KeepsBut K p :=
  ⟨k.chk.trans h.chk, fun col hc hK => (k.bit col hc hK).trans (h.bit col hc hK), k.t.trans h.t, k.c.trans h.c,
    k.f0.trans h.f0, k.f1.trans h.f1⟩

theorem Row.keepsBut_putBit (r : Row) (K : Nat) (b : Bool) : r.KeepsBut K (r.putBit K b) := by
  refine ⟨rfl, fun col hc hK => ?_, rfl, rfl, rfl, rfl⟩
  rw [Row.putBit, Row.bit_put _ _ _ _ hc, if_neg (by omega)]

theorem Row.bit_putBit (r : Row) {K : Nat} (hK : K < 1024) (b : Bool) : (r.putBit K b).bit K = b := by
  rw [Row.putBit, Row.bit_put _ _ _ _ hK, if_pos (by omega), Nat.sub_self]
  cases b <;> rfl

/-- One row of the mask register. -/
def State.maskRow (done : Nat → Bool) (s : State) (j : Nat) : State :=
  s.setRow j ((s.row j).putBit s.hart.cmask.toNat (done j))

theorem writeCmask_eq {act : List Nat} {done : Nat → Bool} (h : s.hart.cmask ≠ 0) :
    s.writeCmask act done = act.foldl (State.maskRow done) s := if_neg h

section
variable (done : Nat → Bool)

theorem onlyRows_maskRow (s : State) (j : Nat) : s.OnlyRows (s.maskRow done j) := .setRow ..

theorem maskRow_row_same (s : State) (j : Nat) :
    (s.maskRow done j).core.row (s.coreRow j) = (s.row j).putBit s.hart.cmask.toNat (done j) := by
  rw [State.maskRow, State.setRow, State.core_modCore, Core.row_setRow_same]

theorem maskRow_row_other (s : State) {j n : Nat} (h : n ≠ s.coreRow j) : (s.maskRow done j).core.row n = s.core.row n := by
  rw [State.maskRow, State.setRow, State.core_modCore, Core.row_setRow_other _ h]

theorem onlyRows_maskRows (act : List Nat) (s : State) : s.OnlyRows (act.foldl (State.maskRow done) s) := by
  induction act generalizing s with
  | nil => exact .refl s
  | cons j act ih => exact (onlyRows_maskRow done s j).trans (ih _)

theorem maskRows_keepsBut (act : List Nat) (s : State) (n : Nat) :
    (s.core.row n).KeepsBut s.hart.cmask.toNat ((act.foldl (State.maskRow done) s).core.row n) := by
  induction act generalizing s with
  | nil => exact .refl _ _
  | cons j act ih =>
    have hrest := ih (s.maskRow done j)
    rw [(onlyRows_maskRow done s j).hart] at hrest
    refine .trans ?_ hrest
    by_cases hn : n = s.coreRow j
    · rw [hn, maskRow_row_same]
      exact Row.keepsBut_putBit ..
    · rw [maskRow_row_other done s hn]
      exact .refl _ _

theorem maskRows_other {act : List Nat} {s : State} {n : Nat} (h : n ∉ act.map s.coreRow) :
    (act.foldl (State.maskRow done) s).core.row n = s.core.row n := by
  induction act generalizing s with
  | nil => rfl
  | cons j act ih =>
    rw [List.map_cons, List.mem_cons, not_or] at h
    refine (ih ?_).trans (maskRow_row_other done s h.1)
    rw [funext (onlyRows_maskRow done s j).coreRow]
    exact h.2

theorem maskRows_bit {act : List Nat} {s : State} {j : Nat} (hact : act.Nodup) (hj : j ∈ act) :
    ((act.foldl (State.maskRow done) s).row j).bit s.hart.cmask.toNat = done j := by
  have hK : s.hart.cmask.toNat < 1024 := lt_of_lt_of_le s.hart.cmask.isLt (by decide)
  induction act generalizing s with
  | nil => cases hj
  | cons i act ih =>
    have hrows := onlyRows_maskRow done s i
    obtain ⟨hi, hact⟩ := List.nodup_cons.mp hact
    obtain rfl | hj := List.mem_cons.mp hj
    · have hout : s.coreRow j ∉ act.map (s.maskRow done j).coreRow := by
        rw [funext hrows.coreRow, List.mem_map]
        rintro ⟨k, hk, hsame⟩
        exact hi (Nat.add_left_cancel hsame ▸ hk)
      rw [List.foldl_cons, State.row, (onlyRows_maskRows done act _).coreRow, hrows.coreRow, maskRows_other done hout,
        maskRow_row_same, Row.bit_putBit _ hK]
    · rw [List.foldl_cons, ← hrows.hart]
      exact ih hact hj (by rw [hrows.hart]; exact hK)

end

theorem onlyRows_writeCmask (s : State) (act : List Nat) (done : Nat → Bool) : s.OnlyRows (s.writeCmask act done) := by
  unfold State.writeCmask
  split
  · exact .refl s
  · exact onlyRows_maskRows done act s

theorem RowsChanged.of_rows (hrows : ∀ n, t.core.row n = s.core.row n) (rows : List Nat) (cols : BitVec 1024) (wk : Nat) :
    RowsChanged s t rows cols wk := by
  intro n
  rw [hrows n]
  exact ⟨rfl, fun _ _ _ _ => rfl, fun _ => ⟨rfl, rfl, rfl, rfl⟩⟩

theorem getLsbD_maskCols {k col : Nat} (hk : k ≠ 0) (hcol : col < 1024) : (maskCols k).getLsbD col = decide (col = k) := by
  rw [maskCols, if_neg hk, getLsbD_colMask _ _ hcol, decide_eq_decide]
  omega

/-- Beyond the mask register that tells which rows were performed, no row changes. -/
theorem rowsChanged_writeCmask {act : List Nat} {done : Nat → Bool} {K : BitVec 3} (hrows : ∀ n, t.core.row n = s.core.row n)
    (hcoreRow : ∀ j, t.coreRow j = s.coreRow j) (hcmask : t.hart.cmask = K) (hK : K ≠ 0) :
    RowsChanged s (t.writeCmask act done) act (maskCols K.toNat) 0 := by
  subst hcmask
  rw [writeCmask_eq hK]
  intro n
  have hkeeps := maskRows_keepsBut done act t n
  have hother (h : n ∉ act.map s.coreRow) : (act.foldl (State.maskRow done) t).core.row n = s.core.row n := by
    rw [maskRows_other done (by rwa [funext hcoreRow]), hrows]
  rw [hrows] at hkeeps
  refine ⟨hkeeps.chk, fun col hcol hout _ => ?_, fun h => by rw [hother h]; exact ⟨rfl, rfl, rfl, rfl⟩⟩
  obtain hcols | h := hout
  · rw [getLsbD_maskCols (fun h => hK (BitVec.eq_of_toNat_eq h)) hcol, decide_eq_false_iff_not] at hcols
    exact hkeeps.bit col hcol hcols
  · rw [hother h]

theorem maskBit_writeCmask {act : List Nat} {done : Nat → Bool} {K : BitVec 3} (hcmask : t.hart.cmask = K) (hK : K ≠ 0)
    (hact : act.Nodup) {j : Nat} (hj : j ∈ act) : (t.writeCmask act done).maskBit K.toNat j = done j := by
  subst hcmask
  have hk : t.hart.cmask.toNat ≠ 0 := fun h => hK (BitVec.eq_of_toNat_eq h)
  rw [writeCmask_eq hK, State.maskBit, if_neg hk]
  exact maskRows_bit done hact hj

theorem active_nodup (s : State) : s.active.Nodup := List.nodup_range.filter _

end Sys2Proof.Machine
end

section
/-! SUPPORT. The issue of a plane delivery (R186). -/

namespace Sys2Proof.Machine

variable {s t u s1 s2 s3 s4 : State}

namespace State.KeepsCores

theorem isStream (h : s.KeepsCores t) : t.isStream = s.isStream := by rw [State.isStream, State.isStream, h.cur]

theorem coreRow (h : s.KeepsCores t) (j : Nat) : t.coreRow j = s.coreRow j := by
  rw [State.coreRow, State.coreRow, h.cur, h.core]
  rfl

theorem rows (h : s.KeepsCores t) (n : Nat) : t.core.row n = s.core.row n := by
  rw [h.core]
  rfl

theorem active (h : s.KeepsCores t) : t.active = s.active := by
  have hrow (j : Nat) : t.row j = s.row j := by rw [State.row, State.row, h.coreRow, h.rows]
  have hpred : t.pred = s.pred := by
    funext j
    simp only [State.pred, State.pfx, h.isStream, h.hart, State.maskBit, hrow]
  rw [State.active, State.active, h.hart, hpred]

end State.KeepsCores

theorem keepsCores_finds {α : Type} {m : Act α} {a : α} (hm : LeavesCores m) (h : s.finds m = some (a, t)) :
    s.KeepsCores t := hm.ok (State.finds_eq_some.mp h)

/-- A token of a row that a delivery takes: the row, the key page and the token's number in it. -/
def heldTokens (run : List (Nat × SeqEntry)) (pos : Nat) (rows : List Nat) : List (Nat × Nat × Nat) :=
  rows.filterMap fun j => (run.find? fun e => e.1 == (pos + j) / 64).map fun e => (j, e.2.kpage, (pos + j) % 64)

/-- A delivery that is outstanding, and the mask register of its non-faulting form. -/
def State.deliver (s : State) (nf : Bool) (tag : Nat) (pages : PageMap) (oc : BitVec 4) (kind : OpKind) (act : List Nat)
    (done : Nat → Bool) : State :=
  let u := (s.modCore (·.takeTag tag)).pushOp pages oc kind
  if nf then u.writeCmask act done else u

section
variable {nf : Bool} {l : Legal} {oc : BitVec 4} {d a : Reg} {v : BitVec 1} {tag : BitVec 6} {sd : SeqDesc}
  {run : Nat × List (Nat × SeqEntry)} {hs : List (Nat × Option KvHeader)} {ps : PageMap × List Nat}

/-- A delivery that passes every check of R186. -/
theorem kvldOp_run (hlegal : l.cause s = none) (hmask : nf = true → s.hart.cmask ≠ 0)
    (hbusy : s.core.tagBusy tag.toNat = false) :
    let c := kvldCtl (s.getX a)
    let dim := kvDim sd.dcode
    let held := heldTokens run.2 c.pos s.active
    let rows := held.filter fun r => ps.2.contains r.2.1
    bitsOf (s.getX a).toNat 48 16 = 0 → c.ptop ≠ 15 → c.np ≤ c.ptop + 1 →
    s.finds (readDesc (kvSeq oc) (s.getX d).toNat) = some (sd, s1) → c.boff + 4 + (1 + c.np) * (dim / 8) ≤ s.core.sb →
    s1.finds (remaining (kvSeq oc) sd c.pos s.hart.vl.toNat) = some (run, s2) → s.hart.vl.toNat ≤ run.1 →
    s2.finds (kvldHeaders nf oc sd (held.map (·.2.1)).eraseDups) = some (hs, s3) →
    s3.finds (kvldSlots nf dim c (fun k => (held.filter (·.2.1 == k)).map (·.2.2)) (sortFst hs)) = some (ps, s4) →
    kvldOp nf l oc d a v tag s = .ok ((), s4.deliver nf tag.toNat ps.1 oc
      (.planes tag.toNat s.cur.who.hartIx (v == 1) c.boff c.np c.ptop dim 0 rows []) s.active fun j => rows.any (·.1 == j)) := by
  dsimp only
  intro hword hptop hnp hdesc hroom hrun hlen hheaders hslots
  rw [State.finds_eq_some] at hdesc hrun hheaders hslots
  have hkeeps := (LeavesCores.readDesc oc _).ok hdesc
  have hsb : s1.core.sb = s.core.sb := by rw [hkeeps.core]; rfl
  have hcmask : (nf && s.hart.cmask == 0) = false := by
    cases nf with
    | false => rfl
    | true => simpa using hmask rfl
  have hcontrol : (bitsOf (s.getX a).toNat 48 16 != 0 || (kvldCtl (s.getX a)).ptop == 15 ||
      decide ((kvldCtl (s.getX a)).ptop + 1 < (kvldCtl (s.getX a)).np)) = false := by
    simp only [Bool.or_eq_false_iff, bne_eq_false_iff_eq, beq_eq_false_iff_ne, decide_eq_false_iff_not]
    exact ⟨⟨hword, hptop⟩, Nat.not_lt.mpr hnp⟩
  simp only [kvldOp, Act.run_bind, Act.run_check_ok hlegal, Act.run_look, Act.run_trapIf, hcmask, hbusy, Act.run_readX,
    hcontrol, Bool.false_eq_true, if_false, hdesc, id_eq, hsb, decide_eq_false (Nat.not_lt.mpr hroom), hkeeps.hart,
    hkeeps.active, hkeeps.cur, hrun, decide_eq_false (Nat.not_lt.mpr hlen), Act.run_upd]
  unfold heldTokens at hheaders hslots
  simp only [hheaders, hslots]
  cases nf <;> rfl

end

section
variable {nf : Bool} {tag : Nat} {pages : PageMap} {oc : BitVec 4} {kind : OpKind} {act : List Nat} {done : Nat → Bool}
  (hk : s.KeepsCores t) (htag : tag < 64)
include hk htag

/-- What an outstanding delivery leaves of the machine that its issue began in. -/
theorem deliver_leaves :
    (t.deliver nf tag pages oc kind act done).cur = s.cur ∧ (t.deliver nf tag pages oc kind act done).th = s.th ∧
      (t.deliver nf tag pages oc kind act done).core.ops = s.core.ops ++
        [{ s.newOp pages oc kind with past := t.forkPast oc }] ∧
      (t.deliver nf tag pages oc kind act done).core.tagBusy tag = true := by
  have hissues := pushOp_issues (s := t) (v := t) (.refl t) (.refl _) htag pages oc kind
  have hrows : ((t.modCore (·.takeTag tag)).pushOp pages oc kind).OnlyRows (t.deliver nf tag pages oc kind act done) := by
    cases nf with
    | false => exact .refl _
    | true => exact onlyRows_writeCmask ..
  have hop : t.newOp pages oc kind = { s.newOp pages oc kind with past := t.forkPast oc } := by
    rw [State.newOp, State.newOp, hk.cur, hk.core]
  have hops : t.core.ops = s.core.ops := by rw [hk.core]
  refine ⟨(hrows.cur.trans hissues.cur).trans hk.cur, (hrows.th.trans hissues.th).trans hk.th, ?_, ?_⟩
  · rw [hrows.core, ← hop, ← hops]
    exact hissues.ops
  · rw [hrows.core]
    exact hissues.busy

theorem deliver_rows {K : BitVec 3} (hK : nf = true → s.hart.cmask = K ∧ K ≠ 0) :
    RowsChanged s (t.deliver nf tag pages oc kind act done) act (if nf then maskCols K.toNat else 0) 0 ∧
      (nf = true → act.Nodup → ∀ j ∈ act, (t.deliver nf tag pages oc kind act done).maskBit K.toNat j = done j) := by
  have hissues := pushOp_issues (s := t) (v := t) (.refl t) (.refl _) htag pages oc kind
  have hpush : ∃ n ops, ((t.modCore (·.takeTag tag)).pushOp pages oc kind).core =
      { t.core.takeTag tag with nextOp := n, ops := ops } :=
    ⟨_, _, by rw [State.pushOp, State.core_modCore, State.core_modCore]⟩
  obtain ⟨n, ops, hpush⟩ := hpush
  have hrows (n : Nat) : ((t.modCore (·.takeTag tag)).pushOp pages oc kind).core.row n = s.core.row n := by
    rw [hpush, ← hk.rows]
    rfl
  have hcoreRow (j : Nat) : ((t.modCore (·.takeTag tag)).pushOp pages oc kind).coreRow j = s.coreRow j := by
    rw [State.coreRow, hpush, hissues.cur, ← hk.coreRow]
    rfl
  have hhart : ((t.modCore (·.takeTag tag)).pushOp pages oc kind).hart = s.hart := by
    rw [State.hart, hpush, ← hk.hart]
    rfl
  cases nf with
  | false => exact ⟨.of_rows hrows _ _ _, fun h => absurd h Bool.false_ne_true⟩
  | true =>
    obtain ⟨hcmask, hK⟩ := hK rfl
    rw [← hhart] at hcmask
    exact ⟨rowsChanged_writeCmask hrows hcoreRow hcmask hK, fun _ hact j hj => maskBit_writeCmask hcmask hK hact hj⟩

end

end Sys2Proof.Machine
end

section
/-! SUPPORT. What a machine that has observed landed data has in common with the machine before (R52), as the issue of a gather
asks for it. -/

namespace Sys2Proof.Machine

variable {s t u : State}

namespace State.Alike

theorem coreRow (h : s.Alike t) (j : Nat) : t.coreRow j = s.coreRow j := by
  rw [State.coreRow, State.coreRow, h.cur, h.current.core]
  rfl

theorem elem (h : s.Alike t) (reg w j : Nat) : t.elem reg w j = s.elem reg w j := by
  rw [State.elem, State.elem, h.row, h.current.core]
  rfl

theorem pfx (h : s.Alike t) : t.pfx = s.pfx := by
  rw [State.pfx, State.pfx, State.isStream, State.isStream, h.cur, h.hart]

theorem copyReg (h : s.Alike t) : t.copyReg = s.copyReg := by rw [State.copyReg, State.copyReg, h.pfx]

theorem active (h : s.Alike t) : t.active = s.active := by
  have hpred : t.pred = s.pred := by
    funext j
    simp only [State.pred, State.maskBit, h.pfx, h.row]
    rw [h.hart]
  rw [State.active, State.active, hpred, h.hart]

theorem pendingRow (h : s.Alike t) : t.pendingRow = s.pendingRow := by
  funext j
  unfold State.pendingRow
  rw [h.hart, h.coreRow]

theorem accessRows (h : s.Alike t) : t.accessRows = s.accessRows := by
  rw [State.accessRows, State.accessRows, h.active, h.pendingRow]

theorem unlanded (h : s.Alike t) (regs : List Nat) : t.unlanded regs = s.unlanded regs := by
  have hslices : t.core.slices = s.core.slices := by rw [h.current.core]; rfl
  unfold State.unlanded
  rw [h.hart, hslices]

theorem sliceFailure (h : s.Alike t) (p : Nat × Nat) : t.sliceFailure p = s.sliceFailure p := by
  rw [State.sliceFailure, State.sliceFailure, h.cur, h.current.core]

theorem writesAll (h : s.Alike t) : t.writesAll = s.writesAll := by
  have hvlmax : t.core.vlmax = s.core.vlmax := by rw [h.current.core]; rfl
  rw [State.writesAll, State.writesAll, State.predicated, State.predicated, h.pfx, hvlmax, h.hart]

theorem gatherVas (h : s.Alike t) (base : Word) (b : Reg) (w : BitVec 1) (e : BitVec 4) (rows : List Nat) :
    gatherVas t base b w e rows = gatherVas s base b w e rows := by
  unfold Machine.gatherVas gatherVa
  simp only [h.elem]

end State.Alike

/-! ## The checks of a gather at issue (R40, R178) -/

theorem run_issueRows {nf : Bool} {n : Nat} {rows : List (Nat × Nat)} {xs : List Xlat}
    (h : s.mapsTo { kind := .load, source := 5, align := n } (rows.map (·.2)) = some (xs, t)) :
    issueRows nf n rows s =
      .ok ((rows, (rows.zip xs).map fun p => (p.1.2 / 65536, p.2.pa / 65536, p.2.idem)), t) := by
  induction rows generalizing s xs with
  | nil => obtain ⟨rfl, rfl⟩ := Prod.mk.inj (Option.some.inj h); rfl
  | cons q rows ih =>
    rw [List.map_cons, State.mapsTo] at h
    split at h
    · next x v hx =>
      obtain ⟨r, hr, hq⟩ := Option.map_eq_some_iff.1 h
      obtain ⟨rfl, rfl⟩ := Prod.mk.inj hq
      simp only [issueRows, hx, ih hr]
      rfl
    · cases h

theorem withCmask_ok {before : State} {m : Act Unit} (h : m s = .ok ((), t)) : withCmask before m s = .ok ((), t) := by
  unfold withCmask
  rw [h]

theorem run_landedPending {regs : List Nat} (h : ((s.unlanded regs).all fun p => (s.sliceFailure p).isSome) = true) :
    landedPending regs s = .ok ((), s) := if_pos h

end Sys2Proof.Machine
end

section
/-! SUPPORT. What the issue of a gather leaves (R133, R178): the slices of its destinations have to land again, their VC bits are
those of an ordinary write, and the operation is outstanding. -/

namespace Sys2Proof.Machine

variable {s t u : State}

/-! ## VC bits (R73) -/

/-- The VC bits of the current hart may change, and nothing else. -/
structure State.OnlyVc (s t : State) : Prop where
  cur : t.cur = s.cur
  mem : t.mem = s.mem
  core : t.core = { s.core with harts := t.core.harts }
  hart : t.hart = { s.hart with vc := t.hart.vc }
  th : t.th = s.th

namespace State.OnlyVc

theorem refl (s : State) : s.OnlyVc s := ⟨rfl, rfl, rfl, rfl, rfl⟩

theorem trans (h : s.OnlyVc t) (k : t.OnlyVc u) : s.OnlyVc u :=
  ⟨k.cur.trans h.cur, k.mem.trans h.mem, by rw [k.core, h.core], by rw [k.hart, h.hart], k.th.trans h.th⟩

theorem setVc (s : State) (r : Nat) (b : Bool) : s.OnlyVc (s.setVc r b) := by
  have hcore : (s.setVc r b).core = s.core.modHart s.cur.who.hartIx (·.setVc r b) := State.core_modCore ..
  refine ⟨rfl, rfl, by rw [hcore]; rfl, by rw [State.setVc, State.hart_modHart]; rfl, ?_⟩
  have hcur : (s.setVc r b).cur = s.cur := rfl
  rw [State.th, State.th, hcore, hcur]
  cases s.cur.who with
  | stream => rfl
  | hart i => simp [Core.th, Core.modHart, Who.hartIx, Hart.setVc]

theorem ordinaryVc (s : State) (r : Nat) : s.OnlyVc (s.ordinaryVc r) := by
  unfold State.ordinaryVc
  split
  · exact setVc ..
  · exact refl s

theorem destVc (s : State) (r : Nat) : s.OnlyVc (s.destVc r) := by
  have hfold (l : List Nat) (t : State) : t.OnlyVc (l.foldl (fun t k => t.setVc k (t.hart.vcBit r)) t) := by
    induction l generalizing t with
    | nil => exact refl t
    | cons k l ih => exact (setVc ..).trans (ih _)
  exact (ordinaryVc s r).trans (hfold _ _)

end State.OnlyVc

theorem setVc_vc (h : t.hart.vc = s.hart.vc) (r : Nat) (b : Bool) : (t.setVc r b).hart.vc = (s.setVc r b).hart.vc := by
  simp only [State.setVc, State.hart_modHart, Hart.setVc, h]

/-- The VC bits after an ordinary write depend on those before, on the copy, and on whether every row is written. -/
theorem destVc_vc (hvc : t.hart.vc = s.hart.vc) (hcopy : t.copyReg = s.copyReg) (hall : t.writesAll = s.writesAll) (r : Nat) :
    (t.destVc r).hart.vc = (s.destVc r).hart.vc := by
  have hord : (t.ordinaryVc r).hart.vc = (s.ordinaryVc r).hart.vc := by
    rw [State.writesAll, State.writesAll] at hall
    unfold State.ordinaryVc
    rw [hall]
    split
    · exact setVc_vc hvc _ _
    · exact hvc
  have hfold (l : List Nat) (p q : State) (h : p.hart.vc = q.hart.vc) :
      (l.foldl (fun t k => t.setVc k (t.hart.vcBit r)) p).hart.vc = (l.foldl (fun t k => t.setVc k (t.hart.vcBit r)) q).hart.vc := by
    induction l generalizing p q with
    | nil => exact h
    | cons k l ih =>
      have hbit : p.hart.vcBit r = q.hart.vcBit r := by rw [Hart.vcBit, Hart.vcBit, h]
      rw [List.foldl_cons, List.foldl_cons, hbit]
      exact ih _ _ (setVc_vc h k _)
  unfold State.destVc
  dsimp only
  rw [hcopy]
  exact hfold _ _ _ hord

/-! ## The slices of the destinations (R101, R133) -/

/-- The landed bits of some slices of the current hart's registers are cleared. -/
def State.clearDests (s : State) (h : Fin 8) (slices regs : List Nat) : State :=
  regs.foldl (fun t k => t.modCore fun c => c.clearLanded h k slices) s

/-- The current hart's landed bits, a core's operations and translations may change, and which slices hold a failure. -/
structure State.OnlyAwaits (s t : State) : Prop where
  cur : t.cur = s.cur
  mem : t.mem = s.mem
  core : t.core = { s.core with harts := t.core.harts, failedSlices := t.core.failedSlices, tlb := t.core.tlb,
                                ops := t.core.ops, nextOp := t.core.nextOp }
  hart : t.hart = { s.hart with landed := t.hart.landed }
  th : t.th = s.th

namespace State.OnlyAwaits

theorem refl (s : State) : s.OnlyAwaits s := ⟨rfl, rfl, rfl, rfl, rfl⟩

theorem trans (h : s.OnlyAwaits t) (k : t.OnlyAwaits u) : s.OnlyAwaits u :=
  ⟨k.cur.trans h.cur, k.mem.trans h.mem, by rw [k.core, h.core], by rw [k.hart, h.hart], k.th.trans h.th⟩

theorem of_tlb (h : s.OnlyTlb t) : s.OnlyAwaits t :=
  ⟨h.traces.cur, h.traces.mem, by rw [h.current], by rw [h.traces.hart], h.traces.th⟩

theorem clearLanded (s : State) (k : Nat) (slices : List Nat) :
    s.OnlyAwaits (s.modCore fun c => c.clearLanded s.cur.who.hartIx k slices) := by
  have hcore : (s.modCore fun c => c.clearLanded s.cur.who.hartIx k slices).core =
      s.core.clearLanded s.cur.who.hartIx k slices := State.core_modCore ..
  have hlands : s.OnlyLands (s.modCore fun c => c.clearLanded s.cur.who.hartIx k slices) :=
    .modCoreAt s.cur.core fun c => .clearLanded c _ _ _
  refine ⟨rfl, rfl, by rw [hcore]; rfl, ?_, hlands.th⟩
  rw [State.hart, hcore]
  simp [Core.clearLanded, Core.modHart, State.hart]

theorem pushOp (s : State) (pages : PageMap) (oc : BitVec 4) (kind : OpKind) : s.OnlyAwaits (s.pushOp pages oc kind) := by
  have hcore : (s.pushOp pages oc kind).core =
      { s.core with nextOp := s.core.nextOp + 1, ops := s.core.ops ++ [s.newOp pages oc kind] } := State.core_modCore ..
  exact ⟨rfl, rfl, by rw [hcore], by rw [pushOp_hart], State.th_congr rfl (by rw [hcore]) (by rw [hcore])⟩

end State.OnlyAwaits

theorem clearDests_onlyAwaits (s : State) (slices regs : List Nat) :
    s.OnlyAwaits (s.clearDests s.cur.who.hartIx slices regs) := by
  induction regs generalizing s with
  | nil => exact .refl s
  | cons k regs ih => exact (State.OnlyAwaits.clearLanded s k slices).trans (ih _)

theorem clearDests_ops (s : State) (h : Fin 8) (slices regs : List Nat) :
    (s.clearDests h slices regs).core.ops = s.core.ops ∧ (s.clearDests h slices regs).core.nextOp = s.core.nextOp := by
  induction regs generalizing s with
  | nil => exact ⟨rfl, rfl⟩
  | cons k regs ih =>
    have hcore : (s.modCore fun c => c.clearLanded h k slices).core = s.core.clearLanded h k slices := State.core_modCore ..
    obtain ⟨hops, hnext⟩ := ih (s.modCore fun c => c.clearLanded h k slices)
    rw [hcore] at hops hnext
    exact ⟨hops, hnext⟩

/-- The reads of a gather, on their way, change no core. -/
theorem gatherReads_cores (s : State) (use : CacheUse) (p : PageMap) (n : Nat) (rows : List (Nat × Nat)) :
    OnlyTraces s (rows.foldl (fun t q => t.traffic use .read (p.pa q.2) n []) s) ∧
      (rows.foldl (fun t q => t.traffic use .read (p.pa q.2) n []) s).cores = s.cores := by
  induction rows generalizing s with
  | nil => exact ⟨.refl s, rfl⟩
  | cons q rows ih =>
    obtain ⟨htraces, hcores⟩ := onlyTraces_read s use (p.pa q.2) n
    obtain ⟨htraces', hcores'⟩ := ih (s.traffic use .read (p.pa q.2) n [])
    exact ⟨htraces.trans htraces', hcores'.trans hcores⟩

theorem clearLanded_landed (s : State) (k : Nat) (slices : List Nat) {r i : Nat} (hr : r < 32) (hi : i < 32) :
    ((s.modCore fun c => c.clearLanded s.cur.who.hartIx k slices).hart.landed[r]).getLsbD i =
      (s.hart.landed[r].getLsbD i && !(k % 32 == r && slices.contains i)) := by
  have hhart : (s.modCore fun c => c.clearLanded s.cur.who.hartIx k slices).hart = s.hart.clearSlices k slices := by
    have hcore : (s.modCore fun c => c.clearLanded s.cur.who.hartIx k slices).core =
      s.core.clearLanded s.cur.who.hartIx k slices := State.core_modCore ..
    rw [State.hart, hcore]
    simp [Core.clearLanded, Core.modHart, State.hart, Hart.clearSlices]
  by_cases hk : k % 32 = r
  · subst hk
    simp only [hhart, Hart.clearSlices, Vector.getElem_set_self, getLsbD_clearBits _ _ hi, beq_self_eq_true, Bool.true_and]
  · simp only [hhart, Hart.clearSlices, Vector.getElem_set_ne _ _ hk, beq_eq_false_iff_ne.mpr hk, Bool.false_and,
      Bool.not_false, Bool.and_true]

/-- The slices of every destination have to land again, and landing them is nothing that the others undo. -/
theorem clearDests_landed {h : Fin 8} {slices regs : List Nat} {r i : Nat} (hh : s.cur.who.hartIx = h) (hr : r < 32)
    (hi : i < 32) (hslice : i ∈ slices) (hreg : r ∈ regs ∨ (s.hart.landed[r]).getLsbD i = false) :
    ((s.clearDests h slices regs).hart.landed[r]).getLsbD i = false := by
  induction regs generalizing s with
  | nil => exact hreg.resolve_left List.not_mem_nil
  | cons k regs ih =>
    have hstep := clearLanded_landed s k slices hr hi
    rw [hh] at hstep
    rw [State.clearDests, List.foldl_cons]
    refine ih (s := s.modCore fun c => c.clearLanded h k slices) hh ?_
    rw [hstep, List.contains_iff_mem.mpr hslice]
    obtain hreg | hclear := hreg
    · obtain rfl | hreg := List.mem_cons.mp hreg
      · rw [Nat.mod_eq_of_lt hr]
        simp
      · exact .inl hreg
    · rw [hclear]
      exact .inr (Bool.false_and _)

end Sys2Proof.Machine
end

section
/-! SUPPORT. The issue of a non-blocking gather (R178). -/

namespace Sys2Proof.Machine

variable {s t u : State}

/-- The slices of a gather's rows have to land again, and its reads leave. -/
def State.readRows (s : State) (h : Fin 8) (use : CacheUse) (dests : List Nat) (n : Nat) (rows : List (Nat × Nat))
    (pages : PageMap) : State :=
  rows.foldl (fun t q => t.traffic use .read (pages.pa q.2) n []) (s.clearDests h (slicesOf (rows.map (·.1))) dests)

/-- The rows of a gather are outstanding. -/
def State.requestRows (s : State) (h : Fin 8) (oc : BitVec 4) (use : CacheUse) (d : Nat) (copy : List Nat) (n : Nat)
    (rows : List (Nat × Nat)) (pages : PageMap) : State :=
  let t := s.readRows h use (d :: copy) n rows pages
  if rows = [] then t else t.pushOp pages oc (.gather h d copy.head? n rows rows)

/-- Which rows a non-faulting gather loads, in the mask register that the hart names: a row that a replay skips keeps its bit. -/
def State.reportRows (s : State) (nf : Bool) (rows : List (Nat × Nat)) (t : State) : State :=
  if nf then t.writeCmask s.active fun j =>
    if s.pendingRow j then rows.any (·.1 == j) else s.maskBit s.hart.cmask.toNat j
  else t

/-- The end of a gather's issue: the VC bits, the mask register of a non-faulting one, and the step of a replay. -/
def State.endGather (s0 : State) (nf : Bool) (d : Nat) (rows : List (Nat × Nat)) (q : State) : State :=
  (s0.reportRows nf rows (q.destVc d)).modHart Hart.replayStep

section
variable {h : Fin 8} {oc : BitVec 4} {use : CacheUse} {d : Nat} {copy : List Nat} {n : Nat} {rows : List (Nat × Nat)}
  {pages : PageMap} (hh : s.cur.who.hartIx = h)
include hh

theorem readRows_core {dests : List Nat} : s.OnlyAwaits (s.readRows h use dests n rows pages) ∧
    (s.readRows h use dests n rows pages).core = (s.clearDests h (slicesOf (rows.map (·.1))) dests).core := by
  subst hh
  obtain ⟨htraces, hcores⟩ := gatherReads_cores (s.clearDests s.cur.who.hartIx (slicesOf (rows.map (·.1))) dests) use pages n rows
  refine ⟨(clearDests_onlyAwaits s _ _).trans (.of_tlb (.of_cores htraces hcores)), ?_⟩
  have hcur := htraces.cur
  simp only [State.readRows, State.core, hcur, hcores]

theorem requestRows_onlyAwaits : s.OnlyAwaits (s.requestRows h oc use d copy n rows pages) := by
  obtain ⟨hreads, -⟩ := readRows_core (use := use) (n := n) (rows := rows) (pages := pages) (dests := d :: copy) hh
  unfold State.requestRows
  dsimp only
  split
  · exact hreads
  · exact hreads.trans (.pushOp ..)

theorem requestRows_ops (hrows : rows ≠ []) :
    (s.requestRows h oc use d copy n rows pages).core.ops =
      s.core.ops ++ [s.newOp pages oc (.gather h d copy.head? n rows rows)] := by
  obtain ⟨hreads, hcore⟩ := readRows_core (use := use) (n := n) (rows := rows) (pages := pages) (dests := d :: copy) hh
  obtain ⟨hops, hnext⟩ := clearDests_ops s h (slicesOf (rows.map (·.1))) (d :: copy)
  rw [← hcore] at hops hnext
  have hpast : (s.readRows h use (d :: copy) n rows pages).core.past = s.core.past := by rw [hreads.core]
  have hroot : (s.readRows h use (d :: copy) n rows pages).core.ptroot = s.core.ptroot := by rw [hreads.core]
  unfold State.requestRows
  rw [if_neg hrows, State.pushOp, State.core_modCore, State.newOp, hops, hnext, hreads.cur, hroot,
    State.forkPast_congr hreads.cur hpast]

theorem requestRows_hart : (s.requestRows h oc use d copy n rows pages).hart =
    (s.clearDests h (slicesOf (rows.map (·.1))) (d :: copy)).hart := by
  obtain ⟨hreads, hcore⟩ := readRows_core (use := use) (n := n) (rows := rows) (pages := pages) (dests := d :: copy) hh
  have hhart : (s.readRows h use (d :: copy) n rows pages).hart =
      (s.clearDests h (slicesOf (rows.map (·.1))) (d :: copy)).hart := by
    have hcur : (s.clearDests h (slicesOf (rows.map (·.1))) (d :: copy)).cur = s.cur := by
      subst hh
      exact (clearDests_onlyAwaits s _ _).cur
    simp only [State.hart, hcore, hreads.cur, hcur]
  unfold State.requestRows
  dsimp only
  split
  · exact hhart
  · rw [pushOp_hart, hhart]

theorem requestRows_landed {r j : Nat} (hr : r < 32) (hreg : r ∈ d :: copy) (hj : j ∈ rows.map (·.1)) (hslice : j / 2048 < 32) :
    ((s.requestRows h oc use d copy n rows pages).hart.landed[r]).getLsbD (j / 2048) = false := by
  have hclear := clearDests_landed hh hr hslice (mem_slicesOf hj) (.inl hreg)
  rwa [requestRows_hart hh]

end

section
variable {nf : Bool} {d b : Reg} {e : BitVec 4} {w : BitVec 1} {oc : BitVec 4} {base : Word} {xs : List Xlat} {v : State}

/-- A gather that passes every check at issue (R40, R178). -/
theorem gatherNb_run {s0 : State} (hs0 : s.observe [b.toNat] = s0) {rows : List (Nat × Nat)} {pages : PageMap}
    (hrows : gatherVas s0 base b w e s0.accessRows = rows)
    (hpages : (rows.zip xs).map (fun p => (p.1.2 / 65536, p.2.pa / 65536, p.2.idem)) = pages)
    (hlanded : s.unlanded [b.toNat] = [])
    (hpending : ((s0.unlanded (d.toNat :: s0.copyReg)).all fun p => (s0.sliceFailure p).isSome) = true)
    (habn : s0.abnFails s0.active b.toNat (.int (indexWidth w)) = false)
    (hwalk : s0.lateWalk (rows.map (·.2)) = none) (hchk : ∀ j, (s0.row j).chk = 0)
    (hmaps : s0.mapsTo { kind := .load, source := 5, align := typeWidth e / 8 } (rows.map (·.2)) = some (xs, v)) :
    gatherNb nf d b e w oc base s = .ok ((),
      s0.endGather nf d.toNat rows (v.requestRows s0.cur.who.hartIx oc
        (s0.loadRole oc (s0.vlBytes (typeWidth e))).cache d.toNat s0.copyReg (typeWidth e / 8) rows pages)) := by
  have hobserve : withCmask s (landedAll [b.toNat]) s = .ok ((), s0) := withCmask_ok (hs0 ▸ run_landedAll hlanded)
  have habnRun : abnCheck s0.active [(b.toNat, .int (indexWidth w))] s0 = .ok ((), s0) := abnCheck_ok (by simp [habn])
  have hindex : indexCheck (rows.map (·.1)) s0 = .ok ((), s0) := run_indexCheck fun j _ => hchk j
  have hissue := run_issueRows (nf := nf) hmaps
  rw [hpages] at hissue
  unfold gatherNb
  simp only [Act.run_bind, Act.run_look, id_eq, hobserve, run_landedPending hpending, habnRun]
  rw [State.accessRows] at hrows
  rw [hrows, Act.run_walkerGate hwalk]
  dsimp only
  rw [withCmask_ok]
  · rfl
  simp only [Act.run_bind, hindex, hissue, Act.run_upd]
  cases nf <;> rfl

end

/-! ## What is left of the machine -/

theorem RowsChanged.congr {rows : List Nat} {cols : BitVec 1024} {wk : Nat} (h : RowsChanged s t rows cols wk)
    (hrows : ∀ n, u.core.row n = t.core.row n) : RowsChanged s u rows cols wk := by
  intro n
  rw [hrows]
  exact h n

theorem replayStep_vc (s : State) : (s.modHart Hart.replayStep).hart.vc = s.hart.vc := by
  rw [State.hart_modHart]
  unfold Hart.replayStep
  split <;> rfl

namespace State.OnlyAwaits

theorem pfx (h : s.OnlyAwaits t) : t.pfx = s.pfx := by
  rw [State.pfx, State.pfx, State.isStream, State.isStream, h.cur, h.hart]

theorem writesAll (h : s.OnlyAwaits t) : t.writesAll = s.writesAll := by
  have hvlmax : t.core.vlmax = s.core.vlmax := by rw [h.core]; rfl
  rw [State.writesAll, State.writesAll, State.predicated, State.predicated, h.pfx, hvlmax, h.hart]

theorem row (h : s.OnlyAwaits t) (n : Nat) : t.core.row n = s.core.row n := by
  rw [h.core]
  rfl

theorem coreRow (h : s.OnlyAwaits t) (j : Nat) : t.coreRow j = s.coreRow j := by
  rw [State.coreRow, State.coreRow, h.cur, h.core]
  rfl

end State.OnlyAwaits

section
variable {s0 q : State} {nf : Bool} {d : Nat} {rows : List (Nat × Nat)} (halike : s.Alike s0) (hawaits : s0.OnlyAwaits q)
include halike hawaits

theorem endGather_leaves :
    (s0.endGather nf d rows q).cur = s.cur ∧ (s0.endGather nf d rows q).mem = s.mem ∧ (s0.endGather nf d rows q).th = s.th ∧
      (s0.endGather nf d rows q).core.ops = q.core.ops ∧ (s0.endGather nf d rows q).hart.landed = q.hart.landed ∧
      (s0.endGather nf d rows q).hart.vc = (s.destVc d).hart.vc := by
  have hvc := State.OnlyVc.destVc q d
  have hreport : (q.destVc d).OnlyRows (s0.reportRows nf rows (q.destVc d)) := by
    cases nf with
    | false => exact .refl _
    | true => exact onlyRows_writeCmask ..
  obtain ⟨hcore, hlanded, hth⟩ := replayStep_frame (s0.reportRows nf rows (q.destVc d))
  have hmem : s0.mem = s.mem := by rw [halike.state]; rfl
  have hops : (q.destVc d).core.ops = q.core.ops := by rw [hvc.core]
  refine ⟨((hreport.cur.trans hvc.cur).trans hawaits.cur).trans halike.cur,
    ((hreport.mem.trans hvc.mem).trans hawaits.mem).trans hmem,
    (((hth.trans hreport.th).trans hvc.th).trans hawaits.th).trans halike.th, ?_, ?_, ?_⟩
  · rw [State.endGather, hcore, ← hops, hreport.core]
  · rw [State.endGather, hlanded, hreport.hart, hvc.hart]
  · rw [State.endGather, replayStep_vc, hreport.hart]
    have hcopy : q.copyReg = s.copyReg := by rw [State.copyReg, hawaits.pfx, halike.pfx, State.copyReg]
    exact destVc_vc (by rw [hawaits.hart, halike.hart]) hcopy (hawaits.writesAll.trans halike.writesAll) d

theorem endGather_rows {K : BitVec 3} (hK : nf = true → s.hart.cmask = K ∧ K ≠ 0) :
    RowsChanged s (s0.endGather nf d rows q) s.active (if nf then maskCols K.toNat else 0) 0 ∧
      (nf = true → ∀ j ∈ s.accessRows, (s0.endGather nf d rows q).maskBit K.toNat j = rows.any (·.1 == j)) := by
  have hvc := State.OnlyVc.destVc q d
  have hrows (n : Nat) : (q.destVc d).core.row n = s.core.row n := by
    have hpast : (q.destVc d).core.row n = q.core.row n := by rw [hvc.core]; rfl
    have hbefore : s0.core.row n = s.core.row n := by rw [halike.current.core]; rfl
    exact hpast.trans ((hawaits.row n).trans hbefore)
  have hcoreRow (j : Nat) : (q.destVc d).coreRow j = s.coreRow j := by
    rw [← halike.coreRow, ← hawaits.coreRow, State.coreRow, State.coreRow, hvc.cur, hvc.core]
    rfl
  have hcmask : (q.destVc d).hart.cmask = s.hart.cmask := by rw [hvc.hart, hawaits.hart, halike.hart]
  obtain ⟨hcore, -, -⟩ := replayStep_frame (s0.reportRows nf rows (q.destVc d))
  have hend (n : Nat) : (s0.endGather nf d rows q).core.row n = (s0.reportRows nf rows (q.destVc d)).core.row n := by
    rw [State.endGather, hcore]
    rfl
  cases nf with
  | false => exact ⟨.of_rows (fun n => (hend n).trans (hrows n)) _ _ _, fun h => absurd h Bool.false_ne_true⟩
  | true =>
    obtain ⟨hmask, hK⟩ := hK rfl
    refine ⟨?_, fun _ j hj => ?_⟩
    · rw [← halike.active]
      exact (rowsChanged_writeCmask hrows hcoreRow (hcmask.trans hmask) hK).congr hend
    · obtain ⟨hactive, hpending⟩ := List.mem_filter.mp hj
      have hreport : (s0.reportRows true rows (q.destVc d)).maskBit K.toNat j =
          if s0.pendingRow j then rows.any (·.1 == j) else s0.maskBit s0.hart.cmask.toNat j :=
        maskBit_writeCmask (hcmask.trans hmask) hK (active_nodup s0) (halike.active ▸ hactive)
      rw [halike.pendingRow, if_pos hpending] at hreport
      have hbit (t : State) : t.maskBit K.toNat j = (t.row j).bit K.toNat :=
        if_neg fun h => hK (BitVec.eq_of_toNat_eq h)
      have hat : (s0.endGather true d rows q).coreRow j = (s0.reportRows true rows (q.destVc d)).coreRow j := by
        rw [State.coreRow, State.endGather, hcore]
        rfl
      rw [← hreport, hbit, hbit, State.row, State.row, hat, hend]

end

end Sys2Proof.Machine
end

section
/-! SUPPORT. The non-blocking gathers and the plane deliveries as instructions (R178, R186). -/

namespace Sys2Proof.Machine

variable {s : State}

/-! ## Gathers -/

/-- The rows that a gather issues, with the address of each. -/
def State.gatherAddrs (s : State) (a b : Reg) (e : BitVec 4) (w : BitVec 1) : List (Nat × Nat) :=
  s.accessRows.map fun j =>
    (j, ((s.getX a).toNat + s.elem b.toNat (indexWidth w) j * (typeWidth e / 8)) % 2 ^ 64)

/-- What the readiness of a vector instruction with one index register says. -/
theorem gather_ready {l : Legal} {b : Reg} {iw : Nat} (h : s.vecReady l [b.toNat] [(b.toNat, .int iw)] = true) :
    l.cause s = none ∧ s.unlanded [b.toNat] = [] ∧ s.abnFails s.active b.toNat (.int iw) = false ∧ s.sound = true := by
  simp only [State.vecReady, Bool.and_eq_true, Option.isNone_iff_eq_none, List.isEmpty_iff, List.all_cons, List.all_nil,
    Bool.and_true, Bool.not_eq_true'] at h
  obtain ⟨⟨⟨⟨hlegal, hlanded⟩, habn⟩, hsound⟩, -⟩ := h
  exact ⟨hlegal, hlanded, habn, hsound⟩

/-- What is left of a gather that is issued. -/
structure State.GatherIssued (s u : State) (nf : Bool) (d : Nat) (n : Nat) (oc : BitVec 4) (past : State) (rows : List (Nat × Nat))
    (pages : PageMap) : Prop where
  cur : u.cur = s.cur
  mem : u.mem = s.mem
  th : u.th = s.th
  vc : u.hart.vc = (s.destVc d).hart.vc
  ops : rows ≠ [] → u.core.ops = s.core.ops ++
    [{ s.newOp pages oc (.gather s.cur.who.hartIx d s.copyReg.head? n rows rows) with past := past.forkPast oc }]
  landed : ∀ r ∈ d :: s.copyReg, ∀ h : r < 32, ∀ j ∈ rows.map (·.1), j / 2048 < 32 →
    (u.hart.landed[r]).getLsbD (j / 2048) = false
  rows : ∀ K : BitVec 3, (nf = true → s.hart.cmask = K ∧ K ≠ 0) →
    RowsChanged s u s.active (if nf then maskCols K.toNat else 0) 0 ∧
      (nf = true → ∀ j ∈ s.accessRows, u.maskBit K.toNat j = rows.any (·.1 == j))

section
variable {nf : Bool} {d a b : Reg} {e oc : BitVec 4} {w : BitVec 1} {xs : List Xlat} {v : State}

theorem gatherNb_issued {l : Legal} (hready : s.vecReady l [b.toNat] [(b.toNat, .int (indexWidth w))] = true)
    (hpending : ((s.unlanded (d.toNat :: s.copyReg)).all fun p => (s.sliceFailure p).isSome) = true)
    (hwalk : s.lateWalk ((s.gatherAddrs a b e w).map (·.2)) = none)
    (hmaps : s.mapsTo { kind := .load, source := 5, align := typeWidth e / 8 } ((s.gatherAddrs a b e w).map (·.2)) =
      some (xs, v)) :
    ∃ u, gatherNb nf d b e w oc (s.getX a) s = .ok ((), u) ∧
      s.GatherIssued u nf d.toNat (typeWidth e / 8) oc (s.observe [b.toNat]) (s.gatherAddrs a b e w)
        (((s.gatherAddrs a b e w).zip xs).map fun p => (p.1.2 / 65536, p.2.pa / 65536, p.2.idem)) := by
  obtain ⟨-, hlanded, habn, hsound⟩ := gather_ready hready
  have halike := observe_alike s [b.toNat]
  generalize hs0 : s.observe [b.toNat] = s0 at halike ⊢
  obtain ⟨v0, hmaps0, -⟩ := halike.mapsTo hmaps
  have hrows : gatherVas s0 (s.getX a) b w e s0.accessRows = s.gatherAddrs a b e w := by
    rw [halike.gatherVas, halike.accessRows]
    rfl
  have hpending0 : ((s0.unlanded (d.toNat :: s0.copyReg)).all fun p => (s0.sliceFailure p).isSome) = true := by
    rw [halike.unlanded, halike.copyReg]
    simpa only [halike.sliceFailure] using hpending
  have habn0 : s0.abnFails s0.active b.toNat (.int (indexWidth w)) = false := by rw [halike.abnFails, halike.active, habn]
  have hrun := gatherNb_run (nf := nf) (d := d) (oc := oc) hs0 hrows rfl hlanded hpending0 habn0
    ((halike.lateWalk _).trans hwalk) (halike.chk_row hsound) hmaps0
  refine ⟨_, hrun, ?_⟩
  generalize ((s.gatherAddrs a b e w).zip xs).map _ = pages
  generalize (s0.loadRole oc (s0.vlBytes (typeWidth e))).cache = use
  have htlb : s0.OnlyTlb v0 := .mapsTo hmaps0
  have hhart : v0.cur.who.hartIx = s0.cur.who.hartIx := by rw [htlb.traces.cur]
  have hawaits : s0.OnlyAwaits (v0.requestRows s0.cur.who.hartIx oc use d.toNat s0.copyReg (typeWidth e / 8)
      (s.gatherAddrs a b e w) pages) := (State.OnlyAwaits.of_tlb htlb).trans (requestRows_onlyAwaits hhart)
  obtain ⟨hcur, hmem, hth, hops, hlands, hvc⟩ := endGather_leaves (nf := nf) (d := d.toNat) (rows := s.gatherAddrs a b e w)
    halike hawaits
  refine ⟨hcur, hmem, hth, hvc, fun hne => ?_, fun r hr hr32 j hj hslice => ?_, fun K hK => endGather_rows halike hawaits hK⟩
  · refine hops.trans ((requestRows_ops hhart hne).trans ?_)
    rw [State.newOp, State.newOp, State.forkPast_congr htlb.traces.cur (by rw [htlb.current]), htlb.traces.cur, htlb.current,
      halike.copyReg, halike.cur, halike.current.core]
  · simp only [hlands]
    exact requestRows_landed hhart hr32 (halike.copyReg ▸ hr) hj hslice

end

/-! ## Plane deliveries -/

theorem predLegal_cause (hs : s.isStream = false) (hp : pfxBroken { pred := true } s.pfx = false)
    (hcopy : ∀ r : Nat, s.pfx.bind pfxCopy = some r → r < s.core.nv) : ({ pred := true } : Legal).cause s = none := by
  cases hreg : s.pfx.bind pfxCopy with
  | none => simp [Legal.cause, hs, hp, hreg]
  | some r => simp [Legal.cause, hs, hp, hreg, hcopy r hreg]

/-- The checks of KVLD, and of its non-faulting form. -/
def kvldLegal (nf : BitVec 1) : Legal := if nf = 1 then {} else { pred := true }

theorem exec_kvld (d a : Reg) (t : BitVec 6) (v nf : BitVec 1) (oc : BitVec 4) :
    exec (if nf = 1 then .kvldNf d a v t else .kvld d a t v oc) s =
      finish (kvldOp (nf == 1) (kvldLegal nf) (if nf = 1 then 0 else oc) d a v t) s := by
  by_cases h : nf = 1
  · subst h
    rfl
  · rw [if_neg h, if_neg h, beq_eq_false_iff_ne.mpr h, kvldLegal, if_neg h]
    rfl

end Sys2Proof.Machine
end

section
/-! The obligation on the issue of non-blocking gathers and of plane deliveries (O18). -/

open Sys2Proof Sys2Proof.Machine

/-- Settles O18. The checks of a gather are taken over to the machine that has observed its index register; past them, and past
the reads of a delivery, nothing of the cores changed but what translations and reads leave, so the operation, the landed
bits or the tag, and the mask register are all that is new. -/
theorem nonBlockingIssue : Obligations.NonBlockingIssue := by
  unfold Obligations.NonBlockingIssue
  refine ⟨?gathers, ?deliveries⟩
  case gathers =>
    intro s d a b e c w r ew n iw va rows K issued hwalk hpending hmaps
    have haddrs : s.gatherAddrs a b e w = rows := rfl
    have hvas : rows.map (·.2) = s.accessRows.map va := by rw [List.map_map]; rfl
    have hjs : rows.map (·.1) = s.accessRows := by rw [List.map_map]; exact List.map_id _
    rw [← hvas] at hwalk hmaps
    have hfacts {nf : Bool} {l : Legal} (hready : s.vecReady l [b.toNat] [(b.toNat, .int iw)] = true) :=
      gatherNb_issued (nf := nf) (d := d) (a := a) (e := e) (oc := c) hready hpending hwalk hmaps
    refine ⟨fun hready => ?_, fun hready hK => ?_⟩
    · obtain ⟨u, hrun, hissued⟩ := hfacts (nf := false) hready
      obtain ⟨hlegal, -⟩ := gather_ready hready
      have hexec : execVgathNb d a b e c w s = .next u.retire :=
        finish_ok (by simp only [Act.run_bind, Act.run_check_ok hlegal, Act.run_readX, hrun])
      obtain ⟨hchanged, -⟩ := hissued.rows 0 nofun
      exact ⟨u, hexec, hissued.cur, congrArg Thread.pc hissued.th, fun hne => hissued.ops (mt List.map_eq_nil_iff.mp hne),
        fun r hr h j hj => hissued.landed r hr h j (hjs ▸ hj), hchanged, hissued.mem, hissued.th, hissued.vc⟩
    · obtain ⟨u, hrun, hissued⟩ := hfacts (nf := true) hready
      obtain ⟨hlegal, -⟩ := gather_ready hready
      have hcmask : (s.hart.cmask == 0) = false := beq_eq_false_iff_ne.mpr hK
      have hexec : execVgathNf d a b e c w 1 s = .next u.retire :=
        finish_ok (by simp only [Act.run_bind, Act.run_check_ok hlegal, Act.run_look, Act.run_trapIf, hcmask,
          Bool.false_eq_true, if_false, Act.run_readX, if_true, hrun])
      obtain ⟨hchanged, hbits⟩ := hissued.rows K fun _ => ⟨rfl, hK⟩
      refine ⟨⟨u, hexec, hissued.cur, congrArg Thread.pc hissued.th, fun hne => hissued.ops (mt List.map_eq_nil_iff.mp hne),
        fun r hr h j hj => hissued.landed r hr h j (hjs ▸ hj), hchanged, hissued.mem, hissued.th, hissued.vc⟩,
        u, hexec, hissued.cur, congrArg Thread.pc hissued.th, fun j hj => (hbits rfl j hj).trans ?_⟩
      exact List.any_eq_true.mpr ⟨(j, va j), List.mem_map_of_mem hj, beq_self_eq_true j⟩
  case deliveries =>
    intro s s1 s2 s3 s4 d a t v nf oc sd run hs ps c o dim i hstream hpfx hcopy hmask hbusy hword hptop hnp hdesc hroom hrun
      hlen held hheaders hslots rows
    have hlegal : (kvldLegal nf).cause s = none := by
      by_cases h : nf = 1
      · rw [if_pos h] at hpfx
        rw [kvldLegal, if_pos h]
        exact Legal.cause_default hstream hpfx
      · rw [if_neg h] at hpfx
        rw [kvldLegal, if_neg h]
        exact predLegal_cause hstream hpfx hcopy
    have hnf : (nf == 1) = true → s.hart.cmask = s.hart.cmask ∧ s.hart.cmask ≠ 0 := fun h => ⟨rfl, hmask (beq_iff_eq.mp h)⟩
    have hexec := kvldOp_run (d := d) (a := a) (v := v) hlegal (fun h => (hnf h).2) hbusy hword hptop hnp hdesc hroom hrun hlen
      hheaders hslots
    have hkeeps : s.KeepsCores s4 := (((keepsCores_finds (.readDesc _ _) hdesc).trans
      (keepsCores_finds (.remaining _ _ _ _) hrun)).trans (keepsCores_finds (.kvldHeaders _ _ _ _) hheaders)).trans
      (keepsCores_finds (.kvldSlots _ _ _ _ _) hslots)
    obtain ⟨hcur, hth, hops, hbusy'⟩ := deliver_leaves hkeeps t.isLt
    obtain ⟨hchanged, hbits⟩ := deliver_rows hkeeps t.isLt hnf
    simp only [beq_iff_eq] at hchanged
    exact retires_finish (exec_kvld ..) hexec hcur hth
      ⟨hops, hbusy', hth, hchanged, fun h => hbits (beq_iff_eq.mpr h) (active_nodup s)⟩

end
